-- ==== Sys2Proof/Word.lean ====
section
/-! DEFINITION. Words, and the operands of instructions and events that are no single word. -/

namespace Sys2Proof

/-- A byte, the smallest addressable unit (R3). -/
abbrev Byte := BitVec 8
/-- A register or an instruction word (R90). -/
abbrev Word := BitVec 32
/-- A 64-bit value: an address, a pair, a management register. -/
abbrev DWord := BitVec 64

/-- A guard or a condition (R93): predicate `g`, 0 for none, negated when `n`. -/
structure Guard where
  g : BitVec 3
  n : Bool
  deriving DecidableEq, Repr

/-- No guard. -/
def Guard.always : Guard := ⟨0, false⟩

/-- What the Fabric Manager and the module's configuration grant one tenant before boot (R287, R352, R304). Sizes and
addresses in bytes; frames are system-physical addresses of 4 KiB frames. -/
structure TenantCfg where
  ten : Nat
  s2root : Nat
  ranges : List (Nat × Nat)
  near : List Nat
  far : List Nat
  tables : List Nat
  deriving DecidableEq, Repr

/-- What boot reads (R382, R383): whether an image fails to verify (0 none, 1 Chimney, 2 Stoker), the digests that are
extended, the configured registers (management offset and value) and the tenants. -/
structure BootCfg where
  fail : BitVec 2
  digests : List (BitVec 512)
  regs : List (Nat × BitVec 64)
  dtbase : Nat
  tenants : List TenantCfg
  deriving DecidableEq, Repr

/-- A request or a packet from another device (R330, R336, R340, R344), as far as this device can see it: under ORD `prev` is the
position of the sender's request before it that has not ended, of the same chain and peer, `sprev` that of the SEND before it to the same
target chain, 0 for none; `tries` which try of a SEND it is of, and `only` the one packet that a GET asks for again. -/
structure NetMsg where
  node : Nat
  uet : Bool
  chain : Nat
  pos : Nat
  op : BitVec 8
  key : BitVec 16
  land : Nat
  roff : Nat
  len : Nat
  data : List (BitVec 8)
  poison : Bool
  ntfy : Option Nat
  etype : BitVec 8
  rchain : Nat
  ord : Bool
  prev : Nat
  sprev : Nat
  imm : BitVec 64
  tries : Nat := 0
  only : Option Nat := none
  deriving DecidableEq, Repr

end Sys2Proof
end

