-- ==== Sys2Proof/Syntax.lean ====
section
/-! DEFINITION. The instructions, one constructor per row of spec/opcode_table.json, in its order: the Delmer words
(rows with an encoding, formats of 06_formats.md), the Bellows words (R225) and the events (95_what_each_step_holds.md).
A field of an encoded word keeps its width; `Guard` joins a predicate index with its negation bit (R93). -/

namespace Sys2Proof

/-- One step of the machine: an instruction word or an event of the opcode table. -/
inductive Instr where
  /-- R20. Application of power clears every domain and starts the Chimney boot. -/
  | powerOn (cfg : BootCfg)
  /-- R20. Hearth reset clears Hearth and core domains and memory, and drops every LD link. -/
  | hearthReset (cause : BitVec 8) (cfg : BootCfg)
  /-- R22. End of core reset discards pending core faults, writes lost-launch and chain records, and writes type-4 events. -/
  | coreResetEnd
  /-- R19. The power controller changes the granted core clock and a Chimney record is written. -/
  | clockChange (mhz : BitVec 16)
  /-- R388. The Chimney enters the deepest eligible power state within the smallest tolerance. -/
  | powerStateEnter
  /-- R388. A wake event takes the device back to H0 and held traffic is then served. -/
  | powerStateExit
  /-- R33. An uncorrectable error in Stoker or Chimney state stops that hart and every bound host is told. -/
  | stokerHartStop (hart : BitVec 2)
  /-- R32. A controller or integrity check finds an error, poisons the block if uncorrectable and writes one record. -/
  | memoryErrorDetect (ctl : Nat) (spa : Nat) (kind : BitVec 2)
  /-- R105. Run fetch translates and decodes the run's words and checks shape, words, structure and domains. -/
  | runFetch (k : Nat)
  /-- R88. At a choice point the partition picks the next ready team by slot table, priority and age, or idles. -/
  | partitionChoice (pt : Nat)
  /-- R80. An attempt ends: completing lanes perform stores and terminals, faulted lanes are vectored or the team terminal executes. -/
  | runAttemptEnd (k : Nat)
  /-- R81. A long-latency write left pending by a trailer lands in its register, or records a poison fault. -/
  | pendingWriteLand (k : Nat) (r : Nat)
  /-- R403. A once-per-run effect held at a full queue or token limit is performed when space frees. -/
  | heldEffectPerform (k : Nat)
  /-- R197. The BACKOFF not-ready interval of 32 x LEVEL cycles ends and the team becomes ready. -/
  | backoffExpiry (k : Nat)
  /-- R218. A team's starvation timer reaches its limit, writes a record and restarts or stops the team. -/
  | starvationExpiry (k : Nat)
  /-- R222. With every team in REGCLAIM and the head claim unmet, all teams take the claim-deadlock fault. -/
  | claimDeadlockFault (w : Nat)
  /-- R195. A write performed to the watched block makes a waiting WAITV re-read and possibly release the team. -/
  | waitvRecheck (k : Nat)
  /-- R84. After the last team exits and all engine work completes, the workgroup's granules, tiles and arrays return. -/
  | granuleReturn (w : Nat)
  /-- R110. Lane add modulo 2^32. -/
  | add (d : BitVec 6) (a : BitVec 6) (b : BitVec 6) (g : Guard)
  /-- R110. Lane subtract. -/
  | sub (d : BitVec 6) (a : BitVec 6) (b : BitVec 6) (g : Guard)
  /-- R110. Signed saturating add, raising SA when clamped. -/
  | addsatI32 (d : BitVec 6) (a : BitVec 6) (b : BitVec 6) (g : Guard)
  /-- R110. Unsigned saturating add. -/
  | addsatN32 (d : BitVec 6) (a : BitVec 6) (b : BitVec 6) (g : Guard)
  /-- R110. Signed saturating subtract. -/
  | subsatI32 (d : BitVec 6) (a : BitVec 6) (b : BitVec 6) (g : Guard)
  /-- R110. Unsigned saturating subtract clamped at 0. -/
  | subsatN32 (d : BitVec 6) (a : BitVec 6) (b : BitVec 6) (g : Guard)
  /-- R110. Absolute difference of signed values. -/
  | absdiffI32 (d : BitVec 6) (a : BitVec 6) (b : BitVec 6) (g : Guard)
  /-- R110. Absolute difference of unsigned values. -/
  | absdiffN32 (d : BitVec 6) (a : BitVec 6) (b : BitVec 6) (g : Guard)
  /-- R111. Add a signed 9-bit immediate. -/
  | addi (d : BitVec 6) (a : BitVec 6) (im : BitVec 9) (g : Guard)
  /-- R112. Low 32 bits of the product. -/
  | mul (d : BitVec 6) (a : BitVec 6) (b : BitVec 6) (g : Guard)
  /-- R112. High word of the signed product. -/
  | mulhiI32 (d : BitVec 6) (a : BitVec 6) (b : BitVec 6) (g : Guard)
  /-- R112. High word of the unsigned product. -/
  | mulhiN32 (d : BitVec 6) (a : BitVec 6) (b : BitVec 6) (g : Guard)
  /-- R112. Multiply and add the high word of pair xb. -/
  | mad (d : BitVec 6) (a : BitVec 6) (b : BitVec 6) (g : Guard)
  /-- R112. Signed 4-byte dot product. -/
  | dot4I8 (d : BitVec 6) (a : BitVec 6) (b : BitVec 6) (g : Guard)
  /-- R112. Unsigned 4-byte dot product. -/
  | dot4N8 (d : BitVec 6) (a : BitVec 6) (b : BitVec 6) (g : Guard)
  /-- R112. Signed 8-nibble dot product. -/
  | dot8I4 (d : BitVec 6) (a : BitVec 6) (b : BitVec 6) (g : Guard)
  /-- R112. Sum of absolute byte differences. -/
  | sad4N8 (d : BitVec 6) (a : BitVec 6) (b : BitVec 6) (g : Guard)
  /-- R113. Signed minimum. -/
  | minI32 (d : BitVec 6) (a : BitVec 6) (b : BitVec 6) (g : Guard)
  /-- R113. Signed maximum. -/
  | maxI32 (d : BitVec 6) (a : BitVec 6) (b : BitVec 6) (g : Guard)
  /-- R113. Unsigned minimum. -/
  | minN32 (d : BitVec 6) (a : BitVec 6) (b : BitVec 6) (g : Guard)
  /-- R113. Unsigned maximum. -/
  | maxN32 (d : BitVec 6) (a : BitVec 6) (b : BitVec 6) (g : Guard)
  /-- R113. Wrapping absolute value. -/
  | absI32 (d : BitVec 6) (a : BitVec 6) (g : Guard)
  /-- R113. Wrapping negation. -/
  | negI32 (d : BitVec 6) (a : BitVec 6) (g : Guard)
  /-- R115. Bitwise AND. -/
  | and (d : BitVec 6) (a : BitVec 6) (b : BitVec 6) (g : Guard)
  /-- R115. Bitwise OR. -/
  | or (d : BitVec 6) (a : BitVec 6) (b : BitVec 6) (g : Guard)
  /-- R115. Bitwise XOR. -/
  | xor (d : BitVec 6) (a : BitVec 6) (b : BitVec 6) (g : Guard)
  /-- R115. a AND NOT b. -/
  | andn (d : BitVec 6) (a : BitVec 6) (b : BitVec 6) (g : Guard)
  /-- R115. a OR NOT b. -/
  | orn (d : BitVec 6) (a : BitVec 6) (b : BitVec 6) (g : Guard)
  /-- R115. NOT (a XOR b). -/
  | xnor (d : BitVec 6) (a : BitVec 6) (b : BitVec 6) (g : Guard)
  /-- R115. Bitwise NOT. -/
  | not (d : BitVec 6) (a : BitVec 6) (g : Guard)
  /-- R115. Register move. -/
  | mov (d : BitVec 6) (a : BitVec 6) (g : Guard)
  /-- R115. AND with sign-extended immediate. -/
  | andi (d : BitVec 6) (a : BitVec 6) (im : BitVec 9) (g : Guard)
  /-- R115. OR with sign-extended immediate. -/
  | ori (d : BitVec 6) (a : BitVec 6) (im : BitVec 9) (g : Guard)
  /-- R115. XOR with sign-extended immediate. -/
  | xori (d : BitVec 6) (a : BitVec 6) (im : BitVec 9) (g : Guard)
  /-- R115. Load a sign-extended 9-bit immediate. -/
  | movi (d : BitVec 6) (im : BitVec 9) (g : Guard)
  /-- R116. Logical shift left by register count. -/
  | shl (d : BitVec 6) (a : BitVec 6) (b : BitVec 6) (g : Guard)
  /-- R116. Logical shift right by register count. -/
  | shr (d : BitVec 6) (a : BitVec 6) (b : BitVec 6) (g : Guard)
  /-- R116. Arithmetic shift right. -/
  | sra (d : BitVec 6) (a : BitVec 6) (b : BitVec 6) (g : Guard)
  /-- R116. Rotate left. -/
  | rol (d : BitVec 6) (a : BitVec 6) (b : BitVec 6) (g : Guard)
  /-- R116. Rotate right. -/
  | ror (d : BitVec 6) (a : BitVec 6) (b : BitVec 6) (g : Guard)
  /-- R116. Funnel shift left of pair xa. -/
  | shlf (d : BitVec 6) (a : BitVec 6) (b : BitVec 6) (g : Guard)
  /-- R116. Funnel shift right of pair xa. -/
  | shrf (d : BitVec 6) (a : BitVec 6) (b : BitVec 6) (g : Guard)
  /-- R116. Shift left by immediate count. -/
  | shli (d : BitVec 6) (a : BitVec 6) (c : BitVec 5) (g : Guard)
  /-- R116. Logical shift right by immediate. -/
  | shri (d : BitVec 6) (a : BitVec 6) (c : BitVec 5) (g : Guard)
  /-- R116. Arithmetic shift right by immediate. -/
  | srai (d : BitVec 6) (a : BitVec 6) (c : BitVec 5) (g : Guard)
  /-- R116. Rotate left by immediate. -/
  | roli (d : BitVec 6) (a : BitVec 6) (c : BitVec 5) (g : Guard)
  /-- R116. Rotate right by immediate. -/
  | rori (d : BitVec 6) (a : BitVec 6) (c : BitVec 5) (g : Guard)
  /-- R117. Population count. -/
  | popc (d : BitVec 6) (a : BitVec 6) (g : Guard)
  /-- R117. Count leading zeros. -/
  | clz (d : BitVec 6) (a : BitVec 6) (g : Guard)
  /-- R117. Count trailing zeros. -/
  | ctz (d : BitVec 6) (a : BitVec 6) (g : Guard)
  /-- R117. Bit reverse. -/
  | brev (d : BitVec 6) (a : BitVec 6) (g : Guard)
  /-- R117. Signed bit-field extract. -/
  | bxtI32 (d : BitVec 6) (a : BitVec 6) (b : BitVec 6) (g : Guard)
  /-- R117. Unsigned bit-field extract. -/
  | bxtN32 (d : BitVec 6) (a : BitVec 6) (b : BitVec 6) (g : Guard)
  /-- R117. Bit-field insert from pair xb. -/
  | bins (d : BitVec 6) (a : BitVec 6) (b : BitVec 6) (g : Guard)
  /-- R117. Byte select from pair xa under selector bytes. -/
  | bsel (d : BitVec 6) (a : BitVec 6) (b : BitVec 6) (g : Guard)
  /-- R118. Compare equal into a lane predicate. -/
  | eq (m : BitVec 3) (p : BitVec 3) (a : BitVec 6) (b : BitVec 6) (g : Guard)
  /-- R118. Compare not equal. -/
  | ne (m : BitVec 3) (p : BitVec 3) (a : BitVec 6) (b : BitVec 6) (g : Guard)
  /-- R118. Signed less-than compare. -/
  | ltI32 (m : BitVec 3) (p : BitVec 3) (a : BitVec 6) (b : BitVec 6) (g : Guard)
  /-- R118. Signed less-or-equal compare. -/
  | leI32 (m : BitVec 3) (p : BitVec 3) (a : BitVec 6) (b : BitVec 6) (g : Guard)
  /-- R118. Signed greater-than compare. -/
  | gtI32 (m : BitVec 3) (p : BitVec 3) (a : BitVec 6) (b : BitVec 6) (g : Guard)
  /-- R118. Signed greater-or-equal compare. -/
  | geI32 (m : BitVec 3) (p : BitVec 3) (a : BitVec 6) (b : BitVec 6) (g : Guard)
  /-- R118. Unsigned less-than compare. -/
  | ltN32 (m : BitVec 3) (p : BitVec 3) (a : BitVec 6) (b : BitVec 6) (g : Guard)
  /-- R118. Unsigned greater-or-equal compare. -/
  | geN32 (m : BitVec 3) (p : BitVec 3) (a : BitVec 6) (b : BitVec 6) (g : Guard)
  /-- R119. Select a or b by a predicate selector. -/
  | sel (d : BitVec 6) (a : BitVec 6) (b : BitVec 6) (g : Guard)
  /-- R119. Predicate to register value. -/
  | p2v (d : BitVec 6) (r : BitVec 3) (g : Guard)
  /-- R119. Register non-zero into a predicate. -/
  | v2p (m : BitVec 3) (p : BitVec 3) (a : BitVec 6) (g : Guard)
  /-- R119. Predicate AND. -/
  | pand (m : BitVec 3) (p : BitVec 3) (r : BitVec 3) (sr : BitVec 3) (g : Guard)
  /-- R119. Predicate OR. -/
  | por (m : BitVec 3) (p : BitVec 3) (r : BitVec 3) (sr : BitVec 3) (g : Guard)
  /-- R119. Predicate XOR. -/
  | pxor (m : BitVec 3) (p : BitVec 3) (r : BitVec 3) (sr : BitVec 3) (g : Guard)
  /-- R119. Predicate NOT. -/
  | pnot (m : BitVec 3) (p : BitVec 3) (r : BitVec 3) (g : Guard)
  /-- R122. Cluster-window offset to generic address. -/
  | wfromCluster (d : BitVec 6) (a : BitVec 6) (g : Guard)
  /-- R122. Classify a generic address by window. -/
  | wspace (d : BitVec 6) (a : BitVec 6) (g : Guard)
  /-- R120. 64-bit pair add. -/
  | add64 (d : BitVec 6) (a : BitVec 6) (b : BitVec 6) (g : Guard)
  /-- R120. 64-bit pair subtract. -/
  | sub64 (d : BitVec 6) (a : BitVec 6) (b : BitVec 6) (g : Guard)
  /-- R120. Add zero-extended word to a pair. -/
  | leaN (d : BitVec 6) (a : BitVec 6) (b : BitVec 6) (g : Guard)
  /-- R120. Add sign-extended word to a pair. -/
  | leaI (d : BitVec 6) (a : BitVec 6) (b : BitVec 6) (g : Guard)
  /-- R120. Add 4 x zero-extended word to a pair. -/
  | lea4N (d : BitVec 6) (a : BitVec 6) (b : BitVec 6) (g : Guard)
  /-- R120. Add 4 x sign-extended word to a pair. -/
  | lea4I (d : BitVec 6) (a : BitVec 6) (b : BitVec 6) (g : Guard)
  /-- R120. Signed widening multiply to a pair. -/
  | mulwI32 (d : BitVec 6) (a : BitVec 6) (b : BitVec 6) (g : Guard)
  /-- R120. Unsigned widening multiply to a pair. -/
  | mulwN32 (d : BitVec 6) (a : BitVec 6) (b : BitVec 6) (g : Guard)
  /-- R122. Test address lies in the local window. -/
  | wtestLocal (d : BitVec 6) (a : BitVec 6) (g : Guard)
  /-- R122. Test address lies in the shared window. -/
  | wtestShared (d : BitVec 6) (a : BitVec 6) (g : Guard)
  /-- R122. Test address lies in the cluster window. -/
  | wtestCluster (d : BitVec 6) (a : BitVec 6) (g : Guard)
  /-- R122. Generic address to local-window offset. -/
  | wtoLocal (d : BitVec 6) (a : BitVec 6) (g : Guard)
  /-- R122. Generic address to shared-window offset. -/
  | wtoShared (d : BitVec 6) (a : BitVec 6) (g : Guard)
  /-- R122. Generic address to cluster-window offset. -/
  | wtoCluster (d : BitVec 6) (a : BitVec 6) (g : Guard)
  /-- R122. Local-window offset to generic address. -/
  | wfromLocal (d : BitVec 6) (a : BitVec 6) (g : Guard)
  /-- R122. Shared-window offset to generic address. -/
  | wfromShared (d : BitVec 6) (a : BitVec 6) (g : Guard)
  /-- R164. FP32 add under FRM. -/
  | fadd (d : BitVec 6) (a : BitVec 6) (b : BitVec 6) (g : Guard)
  /-- R164. FP32 subtract. -/
  | fsub (d : BitVec 6) (a : BitVec 6) (b : BitVec 6) (g : Guard)
  /-- R164. FP32 multiply. -/
  | fmul (d : BitVec 6) (a : BitVec 6) (b : BitVec 6) (g : Guard)
  /-- R164. Fused axb+c. -/
  | fmac (d : BitVec 6) (a : BitVec 6) (b : BitVec 6) (g : Guard)
  /-- R164. Fused axb-c. -/
  | fmsc (d : BitVec 6) (a : BitVec 6) (b : BitVec 6) (g : Guard)
  /-- R164. Fused c-axb. -/
  | fnmac (d : BitVec 6) (a : BitVec 6) (b : BitVec 6) (g : Guard)
  /-- R164. minimumNumber. -/
  | fmin (d : BitVec 6) (a : BitVec 6) (b : BitVec 6) (g : Guard)
  /-- R164. maximumNumber. -/
  | fmax (d : BitVec 6) (a : BitVec 6) (b : BitVec 6) (g : Guard)
  /-- R165. Absolute value. -/
  | fabs (d : BitVec 6) (a : BitVec 6) (g : Guard)
  /-- R165. Negate. -/
  | fneg (d : BitVec 6) (a : BitVec 6) (g : Guard)
  /-- R165. Magnitude of a with sign of b. -/
  | fcopysign (d : BitVec 6) (a : BitVec 6) (b : BitVec 6) (g : Guard)
  /-- R165. Classify FP32 value. -/
  | fclass (d : BitVec 6) (a : BitVec 6) (g : Guard)
  /-- R165. Round to integral under FRM. -/
  | frint (d : BitVec 6) (a : BitVec 6) (g : Guard)
  /-- R165. Round to integral down. -/
  | ffloor (d : BitVec 6) (a : BitVec 6) (g : Guard)
  /-- R165. Round to integral up. -/
  | fceil (d : BitVec 6) (a : BitVec 6) (g : Guard)
  /-- R165. Round to integral towards zero. -/
  | ftrunc (d : BitVec 6) (a : BitVec 6) (g : Guard)
  /-- R166. FP equal compare into predicate. -/
  | feq (m : BitVec 3) (p : BitVec 3) (a : BitVec 6) (b : BitVec 6) (g : Guard)
  /-- R166. FP not-equal compare. -/
  | fne (m : BitVec 3) (p : BitVec 3) (a : BitVec 6) (b : BitVec 6) (g : Guard)
  /-- R166. FP less-than compare. -/
  | flt (m : BitVec 3) (p : BitVec 3) (a : BitVec 6) (b : BitVec 6) (g : Guard)
  /-- R166. FP less-or-equal compare. -/
  | fle (m : BitVec 3) (p : BitVec 3) (a : BitVec 6) (b : BitVec 6) (g : Guard)
  /-- R166. FP greater-than compare. -/
  | fgt (m : BitVec 3) (p : BitVec 3) (a : BitVec 6) (b : BitVec 6) (g : Guard)
  /-- R166. FP greater-or-equal compare. -/
  | fge (m : BitVec 3) (p : BitVec 3) (a : BitVec 6) (b : BitVec 6) (g : Guard)
  /-- R166. Unordered compare. -/
  | fun (m : BitVec 3) (p : BitVec 3) (a : BitVec 6) (b : BitVec 6) (g : Guard)
  /-- R166. Ordered compare. -/
  | ford (m : BitVec 3) (p : BitVec 3) (a : BitVec 6) (b : BitVec 6) (g : Guard)
  /-- R168. Packed BF16 add. -/
  | addBf16x2 (d : BitVec 6) (a : BitVec 6) (b : BitVec 6) (g : Guard)
  /-- R168. Packed BF16 multiply. -/
  | mulBf16x2 (d : BitVec 6) (a : BitVec 6) (b : BitVec 6) (g : Guard)
  /-- R168. Packed BF16 fused multiply-add. -/
  | fmacBf16x2 (d : BitVec 6) (a : BitVec 6) (b : BitVec 6) (g : Guard)
  /-- R168. Packed FP16 add. -/
  | addF16x2 (d : BitVec 6) (a : BitVec 6) (b : BitVec 6) (g : Guard)
  /-- R168. Packed FP16 multiply. -/
  | mulF16x2 (d : BitVec 6) (a : BitVec 6) (b : BitVec 6) (g : Guard)
  /-- R168. Packed FP16 fused multiply-add. -/
  | fmacF16x2 (d : BitVec 6) (a : BitVec 6) (b : BitVec 6) (g : Guard)
  /-- R168. Packed BF16 minimumNumber. -/
  | minBf16x2 (d : BitVec 6) (a : BitVec 6) (b : BitVec 6) (g : Guard)
  /-- R168. Packed BF16 maximumNumber. -/
  | maxBf16x2 (d : BitVec 6) (a : BitVec 6) (b : BitVec 6) (g : Guard)
  /-- R170. Four E4M3 adds. -/
  | addE4m3x4 (d : BitVec 6) (a : BitVec 6) (b : BitVec 6) (g : Guard)
  /-- R170. Four E4M3 multiplies. -/
  | mulE4m3x4 (d : BitVec 6) (a : BitVec 6) (b : BitVec 6) (g : Guard)
  /-- R170. Four E5M2 adds. -/
  | addE5m2x4 (d : BitVec 6) (a : BitVec 6) (b : BitVec 6) (g : Guard)
  /-- R170. Four E5M2 multiplies. -/
  | mulE5m2x4 (d : BitVec 6) (a : BitVec 6) (b : BitVec 6) (g : Guard)
  /-- R170. E4M3 dot product to FP32. -/
  | dot4E4m3 (d : BitVec 6) (a : BitVec 6) (b : BitVec 6) (g : Guard)
  /-- R170. E5M2 dot product to FP32. -/
  | dot4E5m2 (d : BitVec 6) (a : BitVec 6) (b : BitVec 6) (g : Guard)
  /-- R170. Per-byte E4M3 maximum. -/
  | maxE4m3x4 (d : BitVec 6) (a : BitVec 6) (b : BitVec 6) (g : Guard)
  /-- R170. Per-byte E4M3 minimum. -/
  | minE4m3x4 (d : BitVec 6) (a : BitVec 6) (b : BitVec 6) (g : Guard)
  /-- R171. Signed integer to FP32. -/
  | cvtF32I32 (d : BitVec 6) (a : BitVec 6) (g : Guard)
  /-- R171. Unsigned integer to FP32. -/
  | cvtF32N32 (d : BitVec 6) (a : BitVec 6) (g : Guard)
  /-- R171. FP32 to signed integer. -/
  | cvtI32F32 (d : BitVec 6) (a : BitVec 6) (g : Guard)
  /-- R171. FP32 to unsigned integer. -/
  | cvtN32F32 (d : BitVec 6) (a : BitVec 6) (g : Guard)
  /-- R171. Two FP32 to packed BF16. -/
  | cvtBf16x2F32 (d : BitVec 6) (a : BitVec 6) (b : BitVec 6) (g : Guard)
  /-- R171. Two FP32 to packed FP16. -/
  | cvtF16x2F32 (d : BitVec 6) (a : BitVec 6) (b : BitVec 6) (g : Guard)
  /-- R171. BF16 to FP32. -/
  | cvtF32Bf16 (d : BitVec 6) (a : BitVec 6) (g : Guard)
  /-- R171. FP16 to FP32. -/
  | cvtF32F16 (d : BitVec 6) (a : BitVec 6) (g : Guard)
  /-- R172. FP32 to E4M3 code. -/
  | cvtE4m3F32 (d : BitVec 6) (a : BitVec 6) (g : Guard)
  /-- R172. FP32 to E5M2 code. -/
  | cvtE5m2F32 (d : BitVec 6) (a : BitVec 6) (g : Guard)
  /-- R172. E4M3 to FP32. -/
  | cvtF32E4m3 (d : BitVec 6) (a : BitVec 6) (g : Guard)
  /-- R172. E5M2 to FP32. -/
  | cvtF32E5m2 (d : BitVec 6) (a : BitVec 6) (g : Guard)
  /-- R172. E2M1 to FP32. -/
  | cvtF32E2m1 (d : BitVec 6) (a : BitVec 6) (g : Guard)
  /-- R172. E2M3 to FP32. -/
  | cvtF32E2m3 (d : BitVec 6) (a : BitVec 6) (g : Guard)
  /-- R172. E3M2 to FP32. -/
  | cvtF32E3m2 (d : BitVec 6) (a : BitVec 6) (g : Guard)
  /-- R172. INT4 to FP32. -/
  | cvtF32Int4 (d : BitVec 6) (a : BitVec 6) (g : Guard)
  /-- R178. Maximum magnitude over groups of 16 lanes. -/
  | qamax16 (d : BitVec 6) (a : BitVec 6) (la : BitVec 4)
  /-- R178. Maximum magnitude over groups of 32 lanes. -/
  | qamax32 (d : BitVec 6) (a : BitVec 6) (la : BitVec 4)
  /-- R179. Block scale byte from a magnitude. -/
  | qscale (d : BitVec 6) (a : BitVec 6) (la : BitVec 4)
  /-- R180. Quantise one element to the QCTL format. -/
  | qcvt (d : BitVec 6) (a : BitVec 6) (b : BitVec 6) (la : BitVec 4)
  /-- R183. Dequantise one code to FP32. -/
  | qdeq (d : BitVec 6) (a : BitVec 6) (b : BitVec 6) (la : BitVec 4)
  /-- R181. Decide whether a pair needs a side entry. -/
  | qesc (d : BitVec 6) (a : BitVec 6) (la : BitVec 4)
  /-- R182. Build one E4M3 side entry. -/
  | qside (d : BitVec 6) (a : BitVec 6) (b : BitVec 6) (la : BitVec 4)
  /-- R167. Correctly rounded reciprocal. -/
  | frcp (d : BitVec 6) (a : BitVec 6) (la : BitVec 4)
  /-- R167. Reciprocal square root. -/
  | frsq (d : BitVec 6) (a : BitVec 6) (la : BitVec 4)
  /-- R167. Square root. -/
  | fsqrt (d : BitVec 6) (a : BitVec 6) (la : BitVec 4)
  /-- R167. Power of two. -/
  | fexp2 (d : BitVec 6) (a : BitVec 6) (la : BitVec 4)
  /-- R167. Base-2 logarithm. -/
  | flog2 (d : BitVec 6) (a : BitVec 6) (la : BitVec 4)
  /-- R167. sin(πa). -/
  | fsinpi (d : BitVec 6) (a : BitVec 6) (la : BitVec 4)
  /-- R167. cos(πa). -/
  | fcospi (d : BitVec 6) (a : BitVec 6) (la : BitVec 4)
  /-- R167. Correctly rounded division. -/
  | fdiv (d : BitVec 6) (a : BitVec 6) (b : BitVec 6) (la : BitVec 4)
  /-- R114. Signed quotient. -/
  | divI32 (d : BitVec 6) (a : BitVec 6) (b : BitVec 6) (la : BitVec 4)
  /-- R114. Unsigned quotient. -/
  | divN32 (d : BitVec 6) (a : BitVec 6) (b : BitVec 6) (la : BitVec 4)
  /-- R114. Signed remainder. -/
  | remI32 (d : BitVec 6) (a : BitVec 6) (b : BitVec 6) (la : BitVec 4)
  /-- R114. Unsigned remainder. -/
  | remN32 (d : BitVec 6) (a : BitVec 6) (b : BitVec 6) (la : BitVec 4)
  /-- R141. Read a from a chosen position of the group. -/
  | lpick (d : BitVec 6) (a : BitVec 6) (b : BitVec 6) (la : BitVec 4)
  /-- R141. Slide values within the group. -/
  | lslide (d : BitVec 6) (a : BitVec 6) (b : BitVec 6) (la : BitVec 4)
  /-- R141. Rotate values within the group. -/
  | lrot (d : BitVec 6) (a : BitVec 6) (b : BitVec 6) (la : BitVec 4)
  /-- R141. XOR-swap positions within the group. -/
  | lswap (d : BitVec 6) (a : BitVec 6) (b : BitVec 6) (la : BitVec 4)
  /-- R141. Ballot of non-zero participants. -/
  | lbits (d : BitVec 6) (a : BitVec 6) (la : BitVec 4)
  /-- R141. All participants non-zero. -/
  | lall (d : BitVec 6) (a : BitVec 6) (la : BitVec 4)
  /-- R141. Group sum reduction. -/
  | redaddI32 (d : BitVec 6) (a : BitVec 6) (la : BitVec 4)
  /-- R141. Group signed maximum reduction. -/
  | redmaxI32 (d : BitVec 6) (a : BitVec 6) (la : BitVec 4)
  /-- R142. Transpose 8-bit elements across 32 lanes. -/
  | vtrn8 (d : BitVec 6) (la : BitVec 4)
  /-- R142. Transpose 16-bit elements across 16 lanes. -/
  | vtrn16 (d : BitVec 6) (la : BitVec 4)
  /-- R142. Transpose 32-bit elements across 8 lanes. -/
  | vtrn32 (d : BitVec 6) (la : BitVec 4)
  /-- R145. Send a register to a rendezvous slot, pairing with a receiver. -/
  | xsend (d : BitVec 6) (a : BitVec 6)
  /-- R145. Receive a register from a rendezvous slot. -/
  | xrecv (d : BitVec 6) (a : BitVec 6)
  /-- R145. Send a pair through a rendezvous slot. -/
  | xsend64 (d : BitVec 6) (a : BitVec 6)
  /-- R145. Receive a pair through a rendezvous slot. -/
  | xrecv64 (d : BitVec 6) (a : BitVec 6)
  /-- R282. Complex multiply. -/
  | cmul (d : BitVec 6) (a : BitVec 6) (b : BitVec 6) (la : BitVec 4)
  /-- R282. Complex multiply-accumulate. -/
  | cmac (d : BitVec 6) (a : BitVec 6) (b : BitVec 6) (la : BitVec 4)
  /-- R282. Multiply by conjugate. -/
  | cmulc (d : BitVec 6) (a : BitVec 6) (b : BitVec 6) (la : BitVec 4)
  /-- R282. Conjugate multiply-accumulate. -/
  | cmacc (d : BitVec 6) (a : BitVec 6) (b : BitVec 6) (la : BitVec 4)
  /-- R282. Complex add. -/
  | cadd (d : BitVec 6) (a : BitVec 6) (b : BitVec 6) (la : BitVec 4)
  /-- R123. Read a special register into each acting lane. -/
  | movs (d : BitVec 6) (a : BitVec 6) (g : Guard)
  /-- R186. Load signed byte. -/
  | ldI8 (d : BitVec 6) (a : BitVec 6) (o : BitVec 6) (la : BitVec 4)
  /-- R186. Load unsigned byte. -/
  | ldN8 (d : BitVec 6) (a : BitVec 6) (o : BitVec 6) (la : BitVec 4)
  /-- R186. Load signed half-word. -/
  | ldI16 (d : BitVec 6) (a : BitVec 6) (o : BitVec 6) (la : BitVec 4)
  /-- R186. Load unsigned half-word. -/
  | ldN16 (d : BitVec 6) (a : BitVec 6) (o : BitVec 6) (la : BitVec 4)
  /-- R186. Load word. -/
  | ld32 (d : BitVec 6) (a : BitVec 6) (o : BitVec 6) (la : BitVec 4)
  /-- R186. Load double word to a pair. -/
  | ld64 (d : BitVec 6) (a : BitVec 6) (o : BitVec 6) (la : BitVec 4)
  /-- R186. Load 16 bytes to four registers. -/
  | ld128 (d : BitVec 6) (a : BitVec 6) (o : BitVec 6) (la : BitVec 4)
  /-- R186. Load 16 bytes with no-reuse hint. -/
  | ldNt128 (d : BitVec 6) (a : BitVec 6) (o : BitVec 6) (la : BitVec 4)
  /-- R189. Load word from a tile. -/
  | ldt32 (d : BitVec 6) (t : BitVec 6) (o : BitVec 6) (la : BitVec 4)
  /-- R189. Load double word from a tile. -/
  | ldt64 (d : BitVec 6) (t : BitVec 6) (o : BitVec 6) (la : BitVec 4)
  /-- R189. Load 16 bytes from a tile. -/
  | ldt128 (d : BitVec 6) (t : BitVec 6) (o : BitVec 6) (la : BitVec 4)
  /-- R190. Decode one SDB element from a tile to FP32. -/
  | ldtSdb (d : BitVec 6) (t : BitVec 6) (o : BitVec 6) (la : BitVec 4)
  /-- R189. Load signed byte from a tile. -/
  | ldtI8 (d : BitVec 6) (t : BitVec 6) (o : BitVec 6) (la : BitVec 4)
  /-- R189. Load unsigned byte from a tile. -/
  | ldtN8 (d : BitVec 6) (t : BitVec 6) (o : BitVec 6) (la : BitVec 4)
  /-- R189. Load signed half-word from a tile. -/
  | ldtI16 (d : BitVec 6) (t : BitVec 6) (o : BitVec 6) (la : BitVec 4)
  /-- R189. Load unsigned half-word from a tile. -/
  | ldtN16 (d : BitVec 6) (t : BitVec 6) (o : BitVec 6) (la : BitVec 4)
  /-- R187. Record a byte store with colour. -/
  | st8 (sr : BitVec 6) (a : BitVec 6) (o : BitVec 4) (c : BitVec 3) (g : BitVec 3)
  /-- R187. Record a half-word store. -/
  | st16 (sr : BitVec 6) (a : BitVec 6) (o : BitVec 4) (c : BitVec 3) (g : BitVec 3)
  /-- R187. Record a word store. -/
  | st32 (sr : BitVec 6) (a : BitVec 6) (o : BitVec 4) (c : BitVec 3) (g : BitVec 3)
  /-- R187. Record a double-word store. -/
  | st64 (sr : BitVec 6) (a : BitVec 6) (o : BitVec 4) (c : BitVec 3) (g : BitVec 3)
  /-- R187. Record a 16-byte store. -/
  | st128 (sr : BitVec 6) (a : BitVec 6) (o : BitVec 4) (c : BitVec 3) (g : BitVec 3)
  /-- R187. Record a 16-byte store with no-reuse hint. -/
  | stNt128 (sr : BitVec 6) (a : BitVec 6) (o : BitVec 4) (c : BitVec 3) (g : BitVec 3)
  /-- R188. Assemble and store one self-describing block per lane group. -/
  | sdbst (sr : BitVec 6) (a : BitVec 6) (o : BitVec 4) (c : BitVec 3) (g : BitVec 3)
  /-- R189. Store word into a tile. -/
  | stt32 (sr : BitVec 6) (t : BitVec 6) (x : BitVec 6) (c : BitVec 3) (g : Guard)
  /-- R189. Store double word into a tile. -/
  | stt64 (sr : BitVec 6) (t : BitVec 6) (x : BitVec 6) (c : BitVec 3) (g : Guard)
  /-- R189. Store 16 bytes into a tile. -/
  | stt128 (sr : BitVec 6) (t : BitVec 6) (x : BitVec 6) (c : BitVec 3) (g : Guard)
  /-- R191. Atomic add at window scope. -/
  | aadd (d : BitVec 6) (a : BitVec 6) (b : BitVec 6) (la : BitVec 4)
  /-- R191. Atomic signed minimum. -/
  | aminI32 (d : BitVec 6) (a : BitVec 6) (b : BitVec 6) (la : BitVec 4)
  /-- R191. Atomic signed maximum. -/
  | amaxI32 (d : BitVec 6) (a : BitVec 6) (b : BitVec 6) (la : BitVec 4)
  /-- R191. Atomic unsigned minimum. -/
  | aminN32 (d : BitVec 6) (a : BitVec 6) (b : BitVec 6) (la : BitVec 4)
  /-- R191. Atomic unsigned maximum. -/
  | amaxN32 (d : BitVec 6) (a : BitVec 6) (b : BitVec 6) (la : BitVec 4)
  /-- R191. Atomic AND. -/
  | aand (d : BitVec 6) (a : BitVec 6) (b : BitVec 6) (la : BitVec 4)
  /-- R191. Atomic OR. -/
  | aor (d : BitVec 6) (a : BitVec 6) (b : BitVec 6) (la : BitVec 4)
  /-- R191. Atomic XOR. -/
  | axor (d : BitVec 6) (a : BitVec 6) (b : BitVec 6) (la : BitVec 4)
  /-- R191. System-scope atomic add. -/
  | aaddSys (d : BitVec 6) (a : BitVec 6) (b : BitVec 6) (la : BitVec 4)
  /-- R191. System-scope atomic signed minimum. -/
  | aminI32Sys (d : BitVec 6) (a : BitVec 6) (b : BitVec 6) (la : BitVec 4)
  /-- R191. System-scope atomic signed maximum. -/
  | amaxI32Sys (d : BitVec 6) (a : BitVec 6) (b : BitVec 6) (la : BitVec 4)
  /-- R191. System-scope atomic unsigned minimum. -/
  | aminN32Sys (d : BitVec 6) (a : BitVec 6) (b : BitVec 6) (la : BitVec 4)
  /-- R191. System-scope atomic unsigned maximum. -/
  | amaxN32Sys (d : BitVec 6) (a : BitVec 6) (b : BitVec 6) (la : BitVec 4)
  /-- R191. System-scope atomic AND. -/
  | aandSys (d : BitVec 6) (a : BitVec 6) (b : BitVec 6) (la : BitVec 4)
  /-- R191. System-scope atomic OR. -/
  | aorSys (d : BitVec 6) (a : BitVec 6) (b : BitVec 6) (la : BitVec 4)
  /-- R191. System-scope atomic XOR. -/
  | axorSys (d : BitVec 6) (a : BitVec 6) (b : BitVec 6) (la : BitVec 4)
  /-- R191. Atomic exchange. -/
  | axch (d : BitVec 6) (a : BitVec 6) (b : BitVec 6) (la : BitVec 4)
  /-- R191. Atomic compare-and-swap. -/
  | acas (d : BitVec 6) (a : BitVec 6) (b : BitVec 6) (la : BitVec 4)
  /-- R191. 64-bit atomic add. -/
  | aadd64 (d : BitVec 6) (a : BitVec 6) (b : BitVec 6) (la : BitVec 4)
  /-- R191. 64-bit atomic exchange. -/
  | axch64 (d : BitVec 6) (a : BitVec 6) (b : BitVec 6) (la : BitVec 4)
  /-- R191. 64-bit atomic compare-and-swap. -/
  | acas64 (d : BitVec 6) (a : BitVec 6) (b : BitVec 6) (la : BitVec 4)
  /-- R191. Atomic FP32 add. -/
  | afadd (d : BitVec 6) (a : BitVec 6) (b : BitVec 6) (la : BitVec 4)
  /-- R191. Atomic packed BF16 add. -/
  | afaddBf16x2 (d : BitVec 6) (a : BitVec 6) (b : BitVec 6) (la : BitVec 4)
  /-- R191. Atomic wrapping increment. -/
  | aincw (d : BitVec 6) (a : BitVec 6) (b : BitVec 6) (la : BitVec 4)
  /-- R203. Post a service-queue entry as a system-scope release. -/
  | scall (d : BitVec 6) (a : BitVec 6) (b : BitVec 6) (la : BitVec 4)
  /-- R203. Post an ordered service-queue entry. -/
  | fcall (d : BitVec 6) (a : BitVec 6) (b : BitVec 6) (la : BitVec 4)
  /-- R126. Uniform add. -/
  | uadd (d : BitVec 6) (a : BitVec 6) (b : BitVec 6) (g : Guard)
  /-- R126. Uniform subtract. -/
  | usub (d : BitVec 6) (a : BitVec 6) (b : BitVec 6) (g : Guard)
  /-- R126. Uniform multiply. -/
  | umul (d : BitVec 6) (a : BitVec 6) (b : BitVec 6) (g : Guard)
  /-- R126. Uniform AND. -/
  | uand (d : BitVec 6) (a : BitVec 6) (b : BitVec 6) (g : Guard)
  /-- R126. Uniform OR. -/
  | uor (d : BitVec 6) (a : BitVec 6) (b : BitVec 6) (g : Guard)
  /-- R126. Uniform XOR. -/
  | uxor (d : BitVec 6) (a : BitVec 6) (b : BitVec 6) (g : Guard)
  /-- R126. Uniform shift left. -/
  | ushl (d : BitVec 6) (a : BitVec 6) (b : BitVec 6) (g : Guard)
  /-- R126. Uniform logical shift right. -/
  | ushr (d : BitVec 6) (a : BitVec 6) (b : BitVec 6) (g : Guard)
  /-- R126. Uniform arithmetic shift right. -/
  | usra (d : BitVec 6) (a : BitVec 6) (b : BitVec 6) (g : Guard)
  /-- R126. Uniform signed minimum. -/
  | uminI32 (d : BitVec 6) (a : BitVec 6) (b : BitVec 6) (g : Guard)
  /-- R126. Uniform signed maximum. -/
  | umaxI32 (d : BitVec 6) (a : BitVec 6) (b : BitVec 6) (g : Guard)
  /-- R126. Uniform unsigned minimum. -/
  | uminN32 (d : BitVec 6) (a : BitVec 6) (b : BitVec 6) (g : Guard)
  /-- R126. Uniform unsigned maximum. -/
  | umaxN32 (d : BitVec 6) (a : BitVec 6) (b : BitVec 6) (g : Guard)
  /-- R126. Uniform unsigned high product. -/
  | umulhiN32 (d : BitVec 6) (a : BitVec 6) (b : BitVec 6) (g : Guard)
  /-- R126. Uniform 64-bit add. -/
  | uadd64 (d : BitVec 6) (a : BitVec 6) (b : BitVec 6) (g : Guard)
  /-- R126. Uniform 64-bit subtract. -/
  | usub64 (d : BitVec 6) (a : BitVec 6) (b : BitVec 6) (g : Guard)
  /-- R126. Uniform add of a 13-bit immediate. -/
  | uaddi (d : BitVec 6) (a : BitVec 6) (im : BitVec 13)
  /-- R126. Uniform load of a 19-bit signed immediate. -/
  | umovi (d : BitVec 6) (im : BitVec 19)
  /-- R127. Set bits 31:13 of the destination. -/
  | umovh (d : BitVec 6) (im : BitVec 19)
  /-- R128. Uniform equal compare into q predicate. -/
  | ueq (m : BitVec 3) (p : BitVec 3) (a : BitVec 6) (b : BitVec 6) (g : Guard)
  /-- R128. Uniform not-equal compare. -/
  | une (m : BitVec 3) (p : BitVec 3) (a : BitVec 6) (b : BitVec 6) (g : Guard)
  /-- R128. Uniform signed less-than. -/
  | ultI32 (m : BitVec 3) (p : BitVec 3) (a : BitVec 6) (b : BitVec 6) (g : Guard)
  /-- R128. Uniform signed less-or-equal. -/
  | uleI32 (m : BitVec 3) (p : BitVec 3) (a : BitVec 6) (b : BitVec 6) (g : Guard)
  /-- R128. Uniform signed greater-than. -/
  | ugtI32 (m : BitVec 3) (p : BitVec 3) (a : BitVec 6) (b : BitVec 6) (g : Guard)
  /-- R128. Uniform signed greater-or-equal. -/
  | ugeI32 (m : BitVec 3) (p : BitVec 3) (a : BitVec 6) (b : BitVec 6) (g : Guard)
  /-- R128. Uniform unsigned less-than. -/
  | ultN32 (m : BitVec 3) (p : BitVec 3) (a : BitVec 6) (b : BitVec 6) (g : Guard)
  /-- R128. Uniform unsigned greater-or-equal. -/
  | ugeN32 (m : BitVec 3) (p : BitVec 3) (a : BitVec 6) (b : BitVec 6) (g : Guard)
  /-- R12. Load 4 literal bytes from instruction memory, uniform. -/
  | ldl32 (d : BitVec 6) (dp : BitVec 15) (la : BitVec 4)
  /-- R12. Load 8 literal bytes. -/
  | ldl64 (d : BitVec 6) (dp : BitVec 15) (la : BitVec 4)
  /-- R12. Load 16 literal bytes. -/
  | ldl128 (d : BitVec 6) (dp : BitVec 15) (la : BitVec 4)
  /-- R130. Conditional team branch to a run. -/
  | bra (g : Guard) (dp : BitVec 21)
  /-- R130. Conditional call pushing the return stack. -/
  | call (g : Guard) (dp : BitVec 21)
  /-- R131. Pop the return stack and continue there. -/
  | ret (g : Guard)
  /-- R131. Jump to the leader's pair address. -/
  | jmpr (a : BitVec 6) (g : Guard)
  /-- R131. Push and jump to the leader's pair address. -/
  | callr (a : BitVec 6) (g : Guard)
  /-- R132. End the team after its stores and pending writes drain. -/
  | exit (g : Guard)
  /-- R131. User trap: the context stops and reports. -/
  | trap (a : BitVec 6) (g : Guard)
  /-- R131. No operation. -/
  | nop (g : Guard)
  /-- R134. Push an if entry and narrow the active mask. -/
  | divif (g : Guard) (dp : BitVec 21)
  /-- R135. Switch to the waiting lanes of the top entry. -/
  | divelse (dp : BitVec 21)
  /-- R136. Pop the top entry and restore its mask. -/
  | divjoin
  /-- R137. Push or match a loop entry and continue with lanes whose predicate holds. -/
  | divloop (g : Guard) (dp : BitVec 21)
  /-- R46. Order accesses by kind, scope, colours and paths at the end of a run. -/
  | fence (c : BitVec 8) (sr : BitVec 3) (k : BitVec 2) (la : BitVec 6)
  /-- R138. Remove breaking lanes from a loop or leave it. -/
  | divbrk (g : Guard) (dp : BitVec 21)
  /-- R194. Arrive at the workgroup barrier and wait for completion. -/
  | barWg (g : Guard)
  /-- R194. Arrive at the reel barrier and wait. -/
  | barReel (g : Guard)
  /-- R195. Release then atomically add to a word once the run completes. -/
  | signal (a : BitVec 6) (b : BitVec 6) (g : Guard)
  /-- R196. Become ready again behind every ready team of the class. -/
  | yield (g : Guard)
  /-- R197. Poll a lane predicate, set qK and adjust the back-off level. -/
  | backoff (k : BitVec 3) (a : BitVec 6) (g : Guard)
  /-- R198. Claim registers from the workgroup account, waiting in order. -/
  | regclaim (a : BitVec 6) (g : Guard)
  /-- R198. Give registers back to the account when the run completes. -/
  | reggive (a : BitVec 6) (g : Guard)
  /-- R195. Hold until a word satisfies a comparison, then acquire. -/
  | waitv (d : BitVec 6) (a : BitVec 6) (b : BitVec 6) (g : Guard)
  /-- R200. Take a READY tile to EMPTY when the run completes. -/
  | tfree (a : BitVec 6) (g : Guard)
  /-- R200. Read a tile table entry. -/
  | tstate (d : BitVec 6) (a : BitVec 6) (g : Guard)
  /-- R200. Bind a tile to a region of the workgroup. -/
  | tbind (d : BitVec 6) (a : BitVec 6) (b : BitVec 6) (g : Guard)
  /-- R200. Write a tile's FORMAT. -/
  | ttag (d : BitVec 6) (a : BitVec 6) (b : BitVec 6) (g : Guard)
  /-- R200. Write a tile's DOMAIN. -/
  | tdom (d : BitVec 6) (a : BitVec 6) (b : BitVec 6) (g : Guard)
  /-- R201. Post two addresses to the Bellows context without arming. -/
  | bpost (a : BitVec 6) (b : BitVec 6) (g : Guard)
  /-- R16. Arm a token and post two addresses to the Bellows context. -/
  | bpostw (d : BitVec 6) (a : BitVec 6) (b : BitVec 6) (g : Guard)
  /-- R201. Hold until named tokens are zero. -/
  | kwait (a : BitVec 6) (g : Guard)
  /-- R201. Report which named tokens are zero. -/
  | kpoll (d : BitVec 6) (a : BitVec 6) (g : Guard)
  /-- R257. Queue a B-array load operation. -/
  | mldb (d : BitVec 6) (a : BitVec 6) (b : BitVec 6) (g : Guard)
  /-- R258. Queue a matrix loop operation. -/
  | mloop (d : BitVec 6) (a : BitVec 6) (g : Guard)
  /-- R259. Queue zeroing of an accumulator tile, setting it READY. -/
  | mzero (d : BitVec 6) (a : BitVec 6) (g : Guard)
  /-- R261. Hold until an operation number is reached, then read and clear MSTAT. -/
  | mwait (d : BitVec 6) (a : BitVec 6) (g : Guard)
  /-- R260. Queue a copy of accumulator rows out. -/
  | mst (d : BitVec 6) (a : BitVec 6) (g : Guard)
  /-- R260. Queue a copy of accumulator rows in. -/
  | mld (d : BitVec 6) (a : BitVec 6) (g : Guard)
  /-- R261. Read the completed prefix. -/
  | mpoll (d : BitVec 6) (g : Guard)
  /-- R261. Fail operations from a given number on. -/
  | mabort (d : BitVec 6) (a : BitVec 6) (g : Guard)
  /-- R274. Queue a forward transform. -/
  | xfwd (d : BitVec 6) (a : BitVec 6) (g : Guard)
  /-- R274. Queue an inverse transform. -/
  | xinv (d : BitVec 6) (a : BitVec 6) (g : Guard)
  /-- R332. Publish n positions of a command chain. -/
  | ntail (d : BitVec 6) (a : BitVec 6) (b : BitVec 6) (g : Guard)
  /-- R333. Read a chain's CSEQ. -/
  | nseq (d : BitVec 6) (a : BitVec 6) (g : Guard)
  /-- R333. Hold until a chain's CSEQ reaches a target. -/
  | nwait (a : BitVec 6) (b : BitVec 6) (g : Guard)
  /-- R312. Append a launch record to a device-produced queue. -/
  | launch (d : BitVec 6) (a : BitVec 6) (b : BitVec 6) (g : Guard)
  /-- R213. Hold until a queue's completed prefix reaches a count, then acquire. -/
  | lwait (a : BitVec 6) (b : BitVec 6) (g : Guard)
  /-- R202. Read a queue's completed prefix. -/
  | lseq (d : BitVec 6) (b : BitVec 6) (g : Guard)
  /-- R124. Read a special or control register uniformly. -/
  | usr (d : BitVec 6) (a : BitVec 6) (g : Guard)
  /-- R125. Write a control register at run completion. -/
  | uwr (a : BitVec 6) (b : BitVec 6) (g : Guard)
  /-- R86. Return a register's storage form code. -/
  | vform (d : BitVec 6) (a : BitVec 6) (g : Guard)
  /-- R205. Take a zeroed frame from the first-touch pool. -/
  | poolpop (d : BitVec 6) (g : Guard)
  /-- R205. Invalidate one page of the team's ASID at run completion. -/
  | tlbinvVa (a : BitVec 6) (g : Guard)
  /-- R205. Invalidate the whole ASID at run completion. -/
  | tlbinvAsid (g : Guard)
  /-- R206. Leave handler mode and retry the faulted lanes. -/
  | eret (g : Guard)
  /-- R206. Escalate the faulted lanes to the Stoker. -/
  | eretEsc (g : Guard)
  /-- R205. Read a per-lane fault item. -/
  | rdfault (d : BitVec 6) (a : BitVec 6) (g : Guard)
  /-- R371. Stop the partition if the tenant's BRKT bit is set. -/
  | brk (a : BitVec 6) (g : Guard)
  /-- R372. Write a marker record to the sample buffer. -/
  | mark (a : BitVec 6) (g : Guard)
  /-- R225. Bellows 64-bit add. -/
  | bellowsAdd (d : BitVec 4) (a : BitVec 4) (b : BitVec 4)
  /-- R225. Bellows subtract. -/
  | bellowsSub (d : BitVec 4) (a : BitVec 4) (b : BitVec 4)
  /-- R225. Bellows AND. -/
  | bellowsAnd (d : BitVec 4) (a : BitVec 4) (b : BitVec 4)
  /-- R225. Bellows OR. -/
  | bellowsOr (d : BitVec 4) (a : BitVec 4) (b : BitVec 4)
  /-- R225. Bellows XOR. -/
  | bellowsXor (d : BitVec 4) (a : BitVec 4) (b : BitVec 4)
  /-- R225. Bellows shift left. -/
  | bellowsShl (d : BitVec 4) (a : BitVec 4) (b : BitVec 4)
  /-- R225. Bellows logical shift right. -/
  | bellowsShr (d : BitVec 4) (a : BitVec 4) (b : BitVec 4)
  /-- R225. Bellows multiply. -/
  | bellowsMul (d : BitVec 4) (a : BitVec 4) (b : BitVec 4)
  /-- R225. Bellows add immediate. -/
  | bellowsAddi (d : BitVec 4) (a : BitVec 4) (im : BitVec 14)
  /-- R225. Bellows load immediate. -/
  | bellowsMovi (d : BitVec 4) (im : BitVec 14)
  /-- R225. Shift in 14 immediate bits. -/
  | insh (d : BitVec 4) (im : BitVec 14)
  /-- R225. Branch if equal. -/
  | beq (a : BitVec 4) (b : BitVec 4) (im : BitVec 14)
  /-- R225. Branch if not equal. -/
  | bne (a : BitVec 4) (b : BitVec 4) (im : BitVec 14)
  /-- R225. Branch if below, unsigned. -/
  | bltu (a : BitVec 4) (b : BitVec 4) (im : BitVec 14)
  /-- R225. Branch if not below, unsigned. -/
  | bgeu (a : BitVec 4) (b : BitVec 4) (im : BitVec 14)
  /-- R225. Unconditional Bellows branch. -/
  | jmp (im : BitVec 14)
  /-- R225. Jump to a register address. -/
  | jr (a : BitVec 4)
  /-- R227. Load a private 64-bit word. -/
  | bellowsLd (d : BitVec 4) (a : BitVec 4) (o : BitVec 13)
  /-- R227. Load a generic 64-bit word on path B. -/
  | bellowsLdG (d : BitVec 4) (a : BitVec 4) (o : BitVec 13)
  /-- R227. Store a private 64-bit word. -/
  | bellowsSt (a : BitVec 4) (b : BitVec 4) (o : BitVec 13)
  /-- R227. Store a generic 64-bit word on path B. -/
  | bellowsStG (a : BitVec 4) (b : BitVec 4) (o : BitVec 13)
  /-- R226. Take the oldest post, making it current and recording any arming. -/
  | recv (d : BitVec 4) (a : BitVec 4)
  /-- R229. Issue a 1-D copy of n bytes under a token. -/
  | copy (d : BitVec 4) (a : BitVec 4) (b : BitVec 4) (len : BitVec 13)
  /-- R229. Issue a descriptor copy under a token. -/
  | copyDesc (d : BitVec 4) (a : BitVec 4) (b : BitVec 4) (p : BitVec 9)
  /-- R230. Issue a 1-D copy between memory and a tile, moving tile state. -/
  | copyt (d : BitVec 4) (a : BitVec 4) (b : BitVec 4) (len : BitVec 13)
  /-- R230. Issue a descriptor tile copy. -/
  | copytDesc (d : BitVec 4) (a : BitVec 4) (b : BitVec 4) (p : BitVec 9)
  /-- R232. Issue an indexed gather. -/
  | gath (d : BitVec 4) (a : BitVec 4) (b : BitVec 4) (p : BitVec 9)
  /-- R232. Issue an indexed scatter, ordered or combining. -/
  | scat (d : BitVec 4) (a : BitVec 4) (b : BitVec 4) (p : BitVec 9)
  /-- R238. Issue entropy decode of a stream into SDBs in a tile. -/
  | deco (d : BitVec 4) (a : BitVec 4) (b : BitVec 4) (p : BitVec 9)
  /-- R236. Load and validate the code table. -/
  | ldct (d : BitVec 4) (a : BitVec 4)
  /-- R231. Close an open tile fill of this context. -/
  | tsetClose (d : BitVec 4) (a : BitVec 4)
  /-- R231. Write FORMAT and DOMAIN of an EMPTY or FILLING tile. -/
  | tsetTag (d : BitVec 4) (a : BitVec 4)
  /-- R234. Hold until every earlier copy has completed or stopped. -/
  | fenceb
  /-- R234. Hold until copies under the tokens complete or stop and report stopped slots. -/
  | waitc (d : BitVec 4) (m : BitVec 8)
  /-- R234. Read a context status item. -/
  | stat (d : BitVec 4) (im : BitVec 14)
  /-- R240. Restart a stopped copy once resolved. -/
  | resume (d : BitVec 4) (sl : BitVec 3)
  /-- R240. Complete a stopped copy by poisoning its remaining destination. -/
  | resumeDrop (d : BitVec 4) (sl : BitVec 3)
  /-- R226. Make the context idle until the next post. -/
  | halt
  /-- R228. A held copy-family issue proceeds once its slot, token or tile cause clears. -/
  | bellowsIssueResume (x : Nat)
  /-- R228. A copy's last byte is performed: tile transition, token decrement, slot freed. -/
  | bellowsCopyComplete (x : Nat) (sl : Nat)
  /-- R239. A running copy meets a translation fault and stops at a unit boundary. -/
  | copyFaultStop (x : Nat) (sl : Nat)
  /-- R253. A queued matrix operation starts after conflicting earlier operations complete. -/
  | matrixOpStart (w : Nat) (op : Nat)
  /-- R252. A matrix operation finishes or fails and the completed prefix advances. -/
  | matrixOpComplete (w : Nat) (op : Nat)
  /-- R264. A translation fault stops a matrix operation, restoring the shadow. -/
  | matrixOpFault (w : Nat) (op : Nat)
  /-- R276. The transform unit begins the next queued transform. -/
  | transformStart (c : Nat)
  /-- R276. A transform's writes are performed; destination READY and source released. -/
  | transformComplete (c : Nat)
  /-- R277. A poisoned source or internal error poisons the destination extent. -/
  | transformFail (c : Nat) (internal : Bool)
  /-- R332. The engine reads a published work request, or stops the chain if unreadable. -/
  | netRequestRead (ch : Nat)
  /-- R334. A published position starts executing. -/
  | netRequestStart (ch : Nat) (pos : Nat)
  /-- R334. A position completes; CSEQ advances and completion records are written. -/
  | netRequestComplete (ch : Nat) (pos : Nat)
  /-- R344. A selective acknowledgement is received from the peer. -/
  | netAckReceive (ch : Nat) (pos : Nat) (off : Nat) (len : Nat) (st : BitVec 8)
  /-- R344. A packet arrives and is placed at its offset at most once. -/
  | uetPacketReceive (m : NetMsg) (off : Nat)
  /-- R342. An unacknowledged packet times out and is resent, or the request fails at the limit. -/
  | uetRetransmitTimeout (ch : Nat) (pos : Nat) (off : Nat)
  /-- R340. A SEND refused for lack of a RECV is retried, failing after 7 retries. -/
  | sendRetry (ch : Nat) (pos : Nat)
  /-- R336. A PUT arriving at the target is checked against the landing and placed. -/
  | incomingPut (m : NetMsg)
  /-- R339. A PUTADD's elements are added indivisibly into the landing. -/
  | incomingPutadd (m : NetMsg)
  /-- R336. A GET is checked and its landing bytes are read and returned. -/
  | incomingGet (m : NetMsg)
  /-- R340. A SEND is matched to the lowest unmatched RECV and placed. -/
  | incomingSend (m : NetMsg)
  /-- R59. A peer's team load, store or atomic over the Kazid Link is served at home. -/
  | peerAccessRequest (m : NetMsg) (kind : BitVec 8)
  /-- R341. A port that cannot be retrained leaves service and its traffic moves. -/
  | kazidPortLost (port : BitVec 6)
  /-- R311. A host write of COUNT + 1 appends a launch record. -/
  | lqappWrite (ag : BitVec 5) (q : BitVec 8) (v : BitVec 64)
  /-- R310. A write to LQCFG applies RUN and refuses tenant or producer changes by hosts. -/
  | lqcfgWrite (ag : BitVec 5) (q : BitVec 8) (v : BitVec 64)
  /-- R326. Writing a position ends that launch, stopping its teams and engine work. -/
  | lqendWrite (ag : BitVec 5) (q : BitVec 8) (v : BitVec 64)
  /-- R315. A record reaching its queue head is read and checked, or refused. -/
  | launchHeadCheck (q : BitVec 8)
  /-- R316. An eligible head is admitted once its conditions and dependences hold. -/
  | launchAdmit (q : BitVec 8)
  /-- R319. A placer reserves a reel's resources and commits or releases them. -/
  | reelPlace (pl : BitVec 3) (q : BitVec 8) (pos : Nat) (rl : Nat) (cores : List Nat)
  /-- R319. A failed placer's random back-off ends and it tries again. -/
  | placerBackoffExpiry (pl : BitVec 3)
  /-- R323. A reel is stopped at choice points, saved and its reservations released. -/
  | reelPreempt (rk : Nat)
  /-- R324. A saved reel is reserved and restored whole. -/
  | reelRestore (rk : Nat) (cores : List Nat)
  /-- R324. Each 2^20 cycles saved raises a reel's restore priority by 1. -/
  | priorityAgeing (rk : Nat)
  /-- R327. A finished launch's stores are performed, its record written and PREFIX advanced. -/
  | launchComplete (q : BitVec 8) (pos : Nat)
  /-- R299. At context end, popped frames no leaf references return to the grant. -/
  | frameReclaim (ten : BitVec 4) (asid : BitVec 12)
  /-- R298. A Stoker hart takes a queued fault and resolves it or declares it unresolvable. -/
  | stokerFaultResolve (ten : BitVec 4) (fi : Nat)
  /-- R299. The Stoker refills a pool below 16 frames to 64. -/
  | poolRefill (ten : BitVec 4)
  /-- R301. The Stoker marks a leaf migrating and starts copying the page. -/
  | migrationStart (ten : BitVec 4) (gpa : Nat) (near : Bool)
  /-- R301. After the copy the leaf takes the destination and the page is shot down. -/
  | migrationSwitch (ten : BitVec 4) (gpa : Nat)
  /-- R302. A copy fault or new error aborts a migration back to the source. -/
  | migrationAbort (ten : BitVec 4) (gpa : Nat)
  /-- R303. The Stoker compresses a far page and installs its image. -/
  | compressPage (ten : BitVec 4) (gpa : Nat)
  /-- R305. A receiver's echo arrives; the last echo completes the shootdown. -/
  | shootdownEcho (ini : Nat) (sq : Nat) (rcv : Nat)
  /-- R355. A host CXL.mem read is translated and answered within the ceiling. -/
  | hostRead (ld : BitVec 4) (dpa : Nat) (len : Nat) (us : Nat)
  /-- R60. A host CXL.mem write is performed at system scope or dropped. -/
  | hostWrite (ld : BitVec 4) (dpa : Nat) (bytes : List (BitVec 8)) (us : Nat)
  /-- R352. A host is bound to an LD and BOUND becomes 1. -/
  | ldBind (ld : BitVec 4)
  /-- R353. Unbinding fails outstanding page requests and forgets cached lines. -/
  | ldUnbind (ld : BitVec 4)
  /-- R353. A host reset without unbinding forgets its cached lines. -/
  | hostReset (ld : BitVec 4)
  /-- R388. A write to TOL or CEIL re-evaluates the power state. -/
  | ldctlWrite (ag : BitVec 5) (ld : BitVec 4) (v : BitVec 64)
  /-- R351. The host consumes event entries, or an out-of-range value is refused. -/
  | evheadWrite (ag : BitVec 5) (ld : BitVec 4) (v : BitVec 64)
  /-- R351. The host consumes service entries, or an out-of-range value is refused. -/
  | sqheadWrite (ag : BitVec 5) (ld : BitVec 4) (v : BitVec 64)
  /-- R359. A page-request reply moves the staging frame into the leaf or fails the fault. -/
  | prreply (ld : BitVec 4) (v : BitVec 64)
  /-- R356. Stoker command: map a range with zeroed frames. -/
  | map (ld : BitVec 4) (blk : Nat)
  /-- R356. Stoker command: unmap a range and return its frames. -/
  | unmap (ld : BitVec 4) (blk : Nat)
  /-- R356. Stoker command: make a range host-backed and absent. -/
  | back (ld : BitVec 4) (blk : Nat)
  /-- R356. Stoker command: set or clear the described attribute. -/
  | desc (ld : BitVec 4) (blk : Nat)
  /-- R356. Stoker command: assign an ASID with a root and key tag. -/
  | asid (ld : BitVec 4) (blk : Nat)
  /-- R356. Stoker command: shoot down and clear an ASID. -/
  | freeasid (ld : BitVec 4) (blk : Nat)
  /-- R356. Stoker command: write a landing entry. -/
  | land (ld : BitVec 4) (blk : Nat)
  /-- R243. Stoker command: take and configure a transform aperture. -/
  | apert (ld : BitVec 4) (blk : Nat)
  /-- R356. Stoker command: disable and free an aperture. -/
  | apfree (ld : BitVec 4) (blk : Nat)
  /-- R391. Mailbox command: start a core reset. -/
  | corereset (ld : BitVec 4) (blk : Nat)
  /-- R391. Mailbox command: start a Hearth reset. -/
  | hearthreset (ld : BitVec 4) (blk : Nat) (cfg : BootCfg)
  /-- R318. Mailbox command: set the clusters a tenant may use. -/
  | clmask (ld : BitVec 4) (blk : Nat)
  /-- R391. Mailbox command: restart a stopped Stoker hart. -/
  | starthart (ld : BitVec 4) (blk : Nat)
  /-- R391. Mailbox command: unmap unlent memory and zero lent pages of an unbound tenant. -/
  | scrub (ld : BitVec 4) (blk : Nat)
  /-- R391. Mailbox command: write one observation register. -/
  | obswrite (ld : BitVec 4) (blk : Nat)
  /-- R391. Mailbox command: copy the newest error records to a buffer. -/
  | errread (ld : BitVec 4) (blk : Nat)
  /-- R382. Mailbox command: extend MR6 or MR7 with a digest. -/
  | extend (ld : BitVec 4) (blk : Nat)
  /-- R391. Mailbox command: write a Chimney-only register or endpoint word. -/
  | cfgwrite (ld : BitVec 4) (blk : Nat)
  /-- R384. SPDM request for supported versions. -/
  | getVersion (ld : BitVec 4) (ver : BitVec 8)
  /-- R384. SPDM capabilities request. -/
  | getCapabilities (ld : BitVec 4) (ver : BitVec 8)
  /-- R384. SPDM algorithm negotiation. -/
  | negotiateAlgorithms (ld : BitVec 4) (ver : BitVec 8)
  /-- R384. SPDM certificate digest request. -/
  | getDigests (ld : BitVec 4) (ver : BitVec 8)
  /-- R384. SPDM certificate chain request: its version and the slot it names. -/
  | getCertificate (ld : BitVec 4) (req : BitVec 8 × BitVec 8)
  /-- R384. SPDM challenge to the device identity key: its version and the slot it names. -/
  | challenge (ld : BitVec 4) (req : BitVec 8 × BitVec 8)
  /-- R385. SPDM measurement request for MRs, lent map and key tags. -/
  | getMeasurements (ld : BitVec 4) (ver : BitVec 8) (ix : BitVec 8)
  /-- R384. SPDM session key exchange. -/
  | keyExchange (ld : BitVec 4) (ver : BitVec 8)
  /-- R384. SPDM session handshake finish. -/
  | finish (ld : BitVec 4) (ver : BitVec 8) (sid : Nat)
  /-- R384. SPDM session end. -/
  | endSession (ld : BitVec 4) (ver : BitVec 8) (sid : Nat)
  /-- R384. SPDM session key update. -/
  | keyUpdate (ld : BitVec 4) (ver : BitVec 8) (sid : Nat)
  /-- R384. SPDM session heartbeat. -/
  | heartbeat (ld : BitVec 4) (ver : BitVec 8) (sid : Nat)
  /-- R386. Vendor request: generate keys for a new KTAG of the tenant. -/
  | keygen (ld : BitVec 4) (ver : BitVec 8) (sid : Nat) (host : Bool)
  /-- R386. Vendor request: destroy the keys of a KTAG. -/
  | keydel (ld : BitVec 4) (ver : BitVec 8) (sid : Nat) (kt : BitVec 8)
  /-- R384. Any other SPDM request receives an error response. -/
  | spdmUnsupportedRequest (ld : BitVec 4) (ver : BitVec 8)
  /-- R350. CXL mailbox command identifying the memory device. -/
  | identifyMemoryDevice (ld : BitVec 4)
  /-- R350. CXL mailbox command reporting health. -/
  | getHealthInfo (ld : BitVec 4)
  /-- R367. A STOP write requests a partition stop. -/
  | dbgStop (pt : Nat)
  /-- R369. A RESUME write clears a stop and the partition chooses again. -/
  | dbgResume (pt : Nat)
  /-- R369. A STEP write runs one attempt of the slot's team, then stops. -/
  | dbgStep (pt : Nat) (slot : BitVec 4)
  /-- R367. After the issuing attempt ends, all resident teams freeze and STOPPED is set. -/
  | partitionStopTakeEffect (pt : Nat)
  /-- R376. At %pcyc mod N = 0 a sample record of a tenant team is written. -/
  | stallSample (pt : Nat)
  /-- R378. A team stopping under R29 has its dump written to the tenant's buffer. -/
  | coreDump (k : Nat)
  /-- R5. A write to a register with no behaviour of its own updates its fields by access code. -/
  | registerWrite (ag : BitVec 5) (off : Nat) (v : BitVec 64)
  /-- R328. At the end of each metering interval of 1,024 core cycles, dynamic, idle and leakage energy is divided among launches and the device-idle account. -/
  | meteringInterval (c : Nat) (dyn : List Nat) (idle : Nat) (eng : List (Nat × Nat × Nat))
  /-- R59. The home device's acknowledgement of an earlier path-T store to peer memory arrives over the Kazid Link, letting a waiting system-scope release proceed. -/
  | peerStoreAcknowledge (k : Nat)
  /-- R60. The host answers a back-invalidate of a cached line, after which the held system-scope write to that line is performed. -/
  | backInvalidateResponse (line : Nat) (dirty : Option (List (BitVec 8)))
  /-- R383. After a failed boot verification, the Chimney answers firmware-update commands on the management bus. -/
  | firmwareUpdate (cfg : BootCfg)
  deriving DecidableEq, Repr

end Sys2Proof
end

