-- ==== Sys2Proof/Machine/Fields.lean ====
section
/-! DEFINITION. The field checks of one instruction (R92, R93, R96, R97, R104) with the reason codes of Table 6.9: those
that depend on the word alone. 0 is no objection; of several, the lowest code counts (R105). -/

namespace Sys2Proof.Machine

/-- An even register number. -/
def even (r : BitVec 6) : Bool := r.toNat % 2 == 0
/-- `code` unless `ok`. -/
def cnd (ok : Bool) (code : Nat) : Nat := if ok then 0 else code
/-- A 64-bit operand is an even-odd pair (R92). -/
def pair (r : BitVec 6) : Nat := cnd (even r) 5
/-- A 128-bit operand is a group of four (R92). -/
def quad (r : BitVec 6) : Nat := cnd (r.toNat % 4 == 0) 5
/-- A group of eight (R92, R258, R274). -/
def oct (r : BitVec 6) : Nat := cnd (r.toNat % 8 == 0) 5
/-- A guard: g = 0 with n = 1 is illegal (R93). -/
def gOk (g : Guard) : Nat := cnd (!(g.g == 0 && g.n)) 3
/-- A SEL selector: g = 0 is illegal (Table 6.3). -/
def gSel (g : Guard) : Nat := cnd (g.g != 0) 7
/-- A compare destination: mode 0..3, index 1..7 (R96). -/
def cmp (m p : BitVec 3) : Nat := cnd (m.toNat < 4 && p != 0) 7
/-- The lowest code that applies, 0 for none (R105). -/
def lowest : List Nat → Nat
  | [] => 0
  | r :: rs => let t := lowest rs; if r == 0 then t else if t == 0 then r else min r t

/-- The reason code of the first broken field rule of the instruction, 0 where none is broken. -/
def fieldReason : Instr → Nat
  | .powerOn _ => 0
  | .hearthReset _ _ => 0
  | .coreResetEnd => 0
  | .clockChange _ => 0
  | .powerStateEnter => 0
  | .powerStateExit => 0
  | .stokerHartStop _ => 0
  | .memoryErrorDetect _ _ _ => 0
  | .runFetch _ => 0
  | .partitionChoice _ => 0
  | .runAttemptEnd _ => 0
  | .pendingWriteLand _ _ => 0
  | .heldEffectPerform _ => 0
  | .backoffExpiry _ => 0
  | .starvationExpiry _ => 0
  | .claimDeadlockFault _ => 0
  | .waitvRecheck _ => 0
  | .granuleReturn _ => 0
  | .add _ _ _ g => gOk g
  | .sub _ _ _ g => gOk g
  | .addsatI32 _ _ _ g => gOk g
  | .addsatN32 _ _ _ g => gOk g
  | .subsatI32 _ _ _ g => gOk g
  | .subsatN32 _ _ _ g => gOk g
  | .absdiffI32 _ _ _ g => gOk g
  | .absdiffN32 _ _ _ g => gOk g
  | .addi _ _ _ g => gOk g
  | .mul _ _ _ g => gOk g
  | .mulhiI32 _ _ _ g => gOk g
  | .mulhiN32 _ _ _ g => gOk g
  | .mad _ _ b g => lowest [gOk g, pair b]
  | .dot4I8 _ _ _ g => gOk g
  | .dot4N8 _ _ _ g => gOk g
  | .dot8I4 _ _ _ g => gOk g
  | .sad4N8 _ _ _ g => gOk g
  | .minI32 _ _ _ g => gOk g
  | .maxI32 _ _ _ g => gOk g
  | .minN32 _ _ _ g => gOk g
  | .maxN32 _ _ _ g => gOk g
  | .absI32 _ _ g => gOk g
  | .negI32 _ _ g => gOk g
  | .and _ _ _ g => gOk g
  | .or _ _ _ g => gOk g
  | .xor _ _ _ g => gOk g
  | .andn _ _ _ g => gOk g
  | .orn _ _ _ g => gOk g
  | .xnor _ _ _ g => gOk g
  | .not _ _ g => gOk g
  | .mov _ _ g => gOk g
  | .andi _ _ _ g => gOk g
  | .ori _ _ _ g => gOk g
  | .xori _ _ _ g => gOk g
  | .movi _ _ g => gOk g
  | .shl _ _ _ g => gOk g
  | .shr _ _ _ g => gOk g
  | .sra _ _ _ g => gOk g
  | .rol _ _ _ g => gOk g
  | .ror _ _ _ g => gOk g
  | .shlf _ a _ g => lowest [gOk g, pair a]
  | .shrf _ a _ g => lowest [gOk g, pair a]
  | .shli _ _ _ g => gOk g
  | .shri _ _ _ g => gOk g
  | .srai _ _ _ g => gOk g
  | .roli _ _ _ g => gOk g
  | .rori _ _ _ g => gOk g
  | .popc _ _ g => gOk g
  | .clz _ _ g => gOk g
  | .ctz _ _ g => gOk g
  | .brev _ _ g => gOk g
  | .bxtI32 _ _ _ g => gOk g
  | .bxtN32 _ _ _ g => gOk g
  | .bins _ _ b g => lowest [gOk g, pair b]
  | .bsel _ a _ g => lowest [gOk g, pair a]
  | .eq m p _ _ g => lowest [gOk g, cmp m p]
  | .ne m p _ _ g => lowest [gOk g, cmp m p]
  | .ltI32 m p _ _ g => lowest [gOk g, cmp m p]
  | .leI32 m p _ _ g => lowest [gOk g, cmp m p]
  | .gtI32 m p _ _ g => lowest [gOk g, cmp m p]
  | .geI32 m p _ _ g => lowest [gOk g, cmp m p]
  | .ltN32 m p _ _ g => lowest [gOk g, cmp m p]
  | .geN32 m p _ _ g => lowest [gOk g, cmp m p]
  | .sel _ _ _ g => gSel g
  | .p2v _ r g => lowest [gOk g, cnd (r != 0) 7]
  | .v2p m p _ g => lowest [gOk g, cmp m p]
  | .pand m p r sr g => lowest [gOk g, cmp m p, cnd (r != 0) 7, cnd (sr != 0) 7]
  | .por m p r sr g => lowest [gOk g, cmp m p, cnd (r != 0) 7, cnd (sr != 0) 7]
  | .pxor m p r sr g => lowest [gOk g, cmp m p, cnd (r != 0) 7, cnd (sr != 0) 7]
  | .pnot m p r g => lowest [gOk g, cmp m p, cnd (r != 0) 7]
  | .wfromCluster d _ g => lowest [gOk g, pair d]
  | .wspace _ a g => lowest [gOk g, pair a]
  | .add64 d a b g => lowest [gOk g, pair d, pair a, pair b]
  | .sub64 d a b g => lowest [gOk g, pair d, pair a, pair b]
  | .leaN d a _ g => lowest [gOk g, pair d, pair a]
  | .leaI d a _ g => lowest [gOk g, pair d, pair a]
  | .lea4N d a _ g => lowest [gOk g, pair d, pair a]
  | .lea4I d a _ g => lowest [gOk g, pair d, pair a]
  | .mulwI32 d _ _ g => lowest [gOk g, pair d]
  | .mulwN32 d _ _ g => lowest [gOk g, pair d]
  | .wtestLocal _ a g => lowest [gOk g, pair a]
  | .wtestShared _ a g => lowest [gOk g, pair a]
  | .wtestCluster _ a g => lowest [gOk g, pair a]
  | .wtoLocal _ a g => lowest [gOk g, pair a]
  | .wtoShared _ a g => lowest [gOk g, pair a]
  | .wtoCluster _ a g => lowest [gOk g, pair a]
  | .wfromLocal d _ g => lowest [gOk g, pair d]
  | .wfromShared d _ g => lowest [gOk g, pair d]
  | .fadd _ _ _ g => gOk g
  | .fsub _ _ _ g => gOk g
  | .fmul _ _ _ g => gOk g
  | .fmac _ _ b g => lowest [gOk g, pair b]
  | .fmsc _ _ b g => lowest [gOk g, pair b]
  | .fnmac _ _ b g => lowest [gOk g, pair b]
  | .fmin _ _ _ g => gOk g
  | .fmax _ _ _ g => gOk g
  | .fabs _ _ g => gOk g
  | .fneg _ _ g => gOk g
  | .fcopysign _ _ _ g => gOk g
  | .fclass _ _ g => gOk g
  | .frint _ _ g => gOk g
  | .ffloor _ _ g => gOk g
  | .fceil _ _ g => gOk g
  | .ftrunc _ _ g => gOk g
  | .feq m p _ _ g => lowest [gOk g, cmp m p]
  | .fne m p _ _ g => lowest [gOk g, cmp m p]
  | .flt m p _ _ g => lowest [gOk g, cmp m p]
  | .fle m p _ _ g => lowest [gOk g, cmp m p]
  | .fgt m p _ _ g => lowest [gOk g, cmp m p]
  | .fge m p _ _ g => lowest [gOk g, cmp m p]
  | .fun m p _ _ g => lowest [gOk g, cmp m p]
  | .ford m p _ _ g => lowest [gOk g, cmp m p]
  | .addBf16x2 _ _ _ g => gOk g
  | .mulBf16x2 _ _ _ g => gOk g
  | .fmacBf16x2 _ _ b g => lowest [gOk g, pair b]
  | .addF16x2 _ _ _ g => gOk g
  | .mulF16x2 _ _ _ g => gOk g
  | .fmacF16x2 _ _ b g => lowest [gOk g, pair b]
  | .minBf16x2 _ _ _ g => gOk g
  | .maxBf16x2 _ _ _ g => gOk g
  | .addE4m3x4 _ _ _ g => gOk g
  | .mulE4m3x4 _ _ _ g => gOk g
  | .addE5m2x4 _ _ _ g => gOk g
  | .mulE5m2x4 _ _ _ g => gOk g
  | .dot4E4m3 _ _ _ g => gOk g
  | .dot4E5m2 _ _ _ g => gOk g
  | .maxE4m3x4 _ _ _ g => gOk g
  | .minE4m3x4 _ _ _ g => gOk g
  | .cvtF32I32 _ _ g => gOk g
  | .cvtF32N32 _ _ g => gOk g
  | .cvtI32F32 _ _ g => gOk g
  | .cvtN32F32 _ _ g => gOk g
  | .cvtBf16x2F32 _ _ _ g => gOk g
  | .cvtF16x2F32 _ _ _ g => gOk g
  | .cvtF32Bf16 _ _ g => gOk g
  | .cvtF32F16 _ _ g => gOk g
  | .cvtE4m3F32 _ _ g => gOk g
  | .cvtE5m2F32 _ _ g => gOk g
  | .cvtF32E4m3 _ _ g => gOk g
  | .cvtF32E5m2 _ _ g => gOk g
  | .cvtF32E2m1 _ _ g => gOk g
  | .cvtF32E2m3 _ _ g => gOk g
  | .cvtF32E3m2 _ _ g => gOk g
  | .cvtF32Int4 _ _ g => gOk g
  | .qamax16 _ _ _ => 0
  | .qamax32 _ _ _ => 0
  | .qscale _ _ _ => 0
  | .qcvt d _ _ _ => pair d
  | .qdeq _ _ _ _ => 0
  | .qesc _ a _ => pair a
  | .qside d a _ _ => lowest [pair d, pair a]
  | .frcp _ _ _ => 0
  | .frsq _ _ _ => 0
  | .fsqrt _ _ _ => 0
  | .fexp2 _ _ _ => 0
  | .flog2 _ _ _ => 0
  | .fsinpi _ _ _ => 0
  | .fcospi _ _ _ => 0
  | .fdiv _ _ _ _ => 0
  | .divI32 _ _ _ _ => 0
  | .divN32 _ _ _ _ => 0
  | .remI32 _ _ _ _ => 0
  | .remN32 _ _ _ _ => 0
  | .lpick _ _ _ _ => 0
  | .lslide _ _ _ _ => 0
  | .lrot _ _ _ _ => 0
  | .lswap _ _ _ _ => 0
  | .lbits _ _ _ => 0
  | .lall _ _ _ => 0
  | .redaddI32 _ _ _ => 0
  | .redmaxI32 _ _ _ => 0
  | .vtrn8 d _ => oct d
  | .vtrn16 d _ => oct d
  | .vtrn32 d _ => oct d
  | .xsend d _ => cnd (d.toNat < 16) 7
  | .xrecv _ a => cnd (a.toNat < 16) 7
  | .xsend64 d a => lowest [cnd (d.toNat < 16) 7, pair a]
  | .xrecv64 d a => lowest [cnd (a.toNat < 16) 7, pair d]
  | .cmul d a b _ => lowest [pair d, pair a, pair b]
  | .cmac d a b _ => lowest [pair d, pair a, quad b]
  | .cmulc d a b _ => lowest [pair d, pair a, pair b]
  | .cmacc d a b _ => lowest [pair d, pair a, quad b]
  | .cadd d a b _ => lowest [pair d, pair a, pair b]
  | .movs d a g => lowest [gOk g, cnd (a.toNat ≤ 0x0C) 7, cnd (a.toNat < 0x0B || decide (0x0C < a.toNat) || even d) 5]
  | .ldI8 _ a _ _ => pair a
  | .ldN8 _ a _ _ => pair a
  | .ldI16 _ a _ _ => pair a
  | .ldN16 _ a _ _ => pair a
  | .ld32 _ a _ _ => pair a
  | .ld64 d a _ _ => lowest [pair a, pair d]
  | .ld128 d a _ _ => lowest [pair a, quad d]
  | .ldNt128 d a _ _ => lowest [pair a, quad d]
  | .ldt32 _ _ _ _ => 0
  | .ldt64 d _ _ _ => pair d
  | .ldt128 d _ _ _ => quad d
  | .ldtSdb _ _ _ _ => 0
  | .ldtI8 _ _ _ _ => 0
  | .ldtN8 _ _ _ _ => 0
  | .ldtI16 _ _ _ _ => 0
  | .ldtN16 _ _ _ _ => 0
  | .st8 _ a _ _ _ => pair a
  | .st16 _ a _ _ _ => pair a
  | .st32 _ a _ _ _ => pair a
  | .st64 sr a _ _ _ => lowest [pair a, pair sr]
  | .st128 sr a _ _ _ => lowest [pair a, quad sr]
  | .stNt128 sr a _ _ _ => lowest [pair a, quad sr]
  | .sdbst _ a _ _ _ => pair a
  | .stt32 _ _ _ _ g => gOk g
  | .stt64 sr _ _ _ g => lowest [gOk g, pair sr]
  | .stt128 sr _ _ _ g => lowest [gOk g, quad sr]
  | .aadd _ a _ _ => pair a
  | .aminI32 _ a _ _ => pair a
  | .amaxI32 _ a _ _ => pair a
  | .aminN32 _ a _ _ => pair a
  | .amaxN32 _ a _ _ => pair a
  | .aand _ a _ _ => pair a
  | .aor _ a _ _ => pair a
  | .axor _ a _ _ => pair a
  | .aaddSys _ a _ _ => pair a
  | .aminI32Sys _ a _ _ => pair a
  | .amaxI32Sys _ a _ _ => pair a
  | .aminN32Sys _ a _ _ => pair a
  | .amaxN32Sys _ a _ _ => pair a
  | .aandSys _ a _ _ => pair a
  | .aorSys _ a _ _ => pair a
  | .axorSys _ a _ _ => pair a
  | .axch _ a _ _ => pair a
  | .acas _ a b _ => lowest [pair b, pair a]
  | .aadd64 d a b _ => lowest [pair a, pair d, pair b]
  | .axch64 d a b _ => lowest [pair a, pair d, pair b]
  | .acas64 d a b _ => lowest [pair a, pair d, quad b]
  | .afadd _ a _ _ => pair a
  | .afaddBf16x2 _ a _ _ => pair a
  | .aincw _ a _ _ => pair a
  | .scall _ a _ _ => pair a
  | .fcall _ a _ _ => pair a
  | .uadd _ _ _ g => gOk g
  | .usub _ _ _ g => gOk g
  | .umul _ _ _ g => gOk g
  | .uand _ _ _ g => gOk g
  | .uor _ _ _ g => gOk g
  | .uxor _ _ _ g => gOk g
  | .ushl _ _ _ g => gOk g
  | .ushr _ _ _ g => gOk g
  | .usra _ _ _ g => gOk g
  | .uminI32 _ _ _ g => gOk g
  | .umaxI32 _ _ _ g => gOk g
  | .uminN32 _ _ _ g => gOk g
  | .umaxN32 _ _ _ g => gOk g
  | .umulhiN32 _ _ _ g => gOk g
  | .uadd64 d a b g => lowest [gOk g, pair d, pair a, pair b]
  | .usub64 d a b g => lowest [gOk g, pair d, pair a, pair b]
  | .uaddi _ _ _ => 0
  | .umovi _ _ => 0
  | .umovh _ _ => 0
  | .ueq m p _ _ g => lowest [gOk g, cmp m p]
  | .une m p _ _ g => lowest [gOk g, cmp m p]
  | .ultI32 m p _ _ g => lowest [gOk g, cmp m p]
  | .uleI32 m p _ _ g => lowest [gOk g, cmp m p]
  | .ugtI32 m p _ _ g => lowest [gOk g, cmp m p]
  | .ugeI32 m p _ _ g => lowest [gOk g, cmp m p]
  | .ultN32 m p _ _ g => lowest [gOk g, cmp m p]
  | .ugeN32 m p _ _ g => lowest [gOk g, cmp m p]
  | .ldl32 _ _ _ => 0
  | .ldl64 d _ _ => pair d
  | .ldl128 d _ _ => quad d
  | .bra g _ => gOk g
  | .call g _ => gOk g
  | .ret g => gOk g
  | .jmpr a g => lowest [gOk g, pair a]
  | .callr a g => lowest [gOk g, pair a]
  | .exit g => gOk g
  | .trap _ g => gOk g
  | .nop g => gOk g
  | .divif g _ => lowest [gOk g, cnd (g.g != 0) 7]
  | .divelse _ => 0
  | .divjoin => 0
  | .divloop g _ => lowest [gOk g, cnd (g.g != 0) 7]
  | .fence c sr k la => lowest [cnd (sr != 7) 7, cnd (la != 0) 7, cnd (k != 0 || c == 0) 7]
  | .divbrk g _ => lowest [gOk g, cnd (g.g != 0) 7]
  | .barWg g => gOk g
  | .barReel g => gOk g
  | .signal a _ g => lowest [gOk g, pair a]
  | .yield g => gOk g
  | .backoff k a g => lowest [gOk g, cnd (k != 0) 7, cnd (1 ≤ a.toNat && a.toNat ≤ 7) 7]
  | .regclaim a g => lowest [gOk g, cnd (1 ≤ a.toNat && a.toNat ≤ 6) 7]
  | .reggive a g => lowest [gOk g, cnd (1 ≤ a.toNat && a.toNat ≤ 6) 7]
  | .waitv d a _ g => lowest [gOk g, pair a, cnd (d.toNat < 4) 7]
  | .tfree _ g => gOk g
  | .tstate _ _ g => gOk g
  | .tbind _ _ b g => lowest [gOk g, pair b]
  | .ttag _ _ _ g => gOk g
  | .tdom _ _ _ g => gOk g
  | .bpost a b g => lowest [gOk g, pair a, pair b]
  | .bpostw d a b g => lowest [gOk g, pair a, pair b, cnd (d.toNat < 8) 7]
  | .kwait _ g => gOk g
  | .kpoll _ _ g => gOk g
  | .mldb _ a b g => lowest [gOk g, quad a, cnd (b.toNat < 16) 7]
  | .mloop _ a g => lowest [gOk g, oct a]
  | .mzero _ _ g => gOk g
  | .mwait _ _ g => gOk g
  | .mst _ a g => lowest [gOk g, quad a]
  | .mld _ a g => lowest [gOk g, quad a]
  | .mpoll _ g => gOk g
  | .mabort _ _ g => gOk g
  | .xfwd _ a g => lowest [gOk g, oct a]
  | .xinv _ a g => lowest [gOk g, oct a]
  | .ntail d _ _ g => lowest [gOk g, pair d]
  | .nseq d _ g => lowest [gOk g, pair d]
  | .nwait a _ g => lowest [gOk g, pair a]
  | .launch d a _ g => lowest [gOk g, pair d, pair a]
  | .lwait a _ g => lowest [gOk g, pair a]
  | .lseq d _ g => lowest [gOk g, pair d]
  | .usr d a g => lowest [gOk g, cnd (a.toNat ≤ 0x0C || (0x10 ≤ a.toNat && a.toNat ≤ 0x17)) 7, cnd (!(a == 0x0B || a == 0x0C || a == 0x13) || even d) 5]
  | .uwr a b g => lowest [gOk g, cnd (0x10 ≤ a.toNat && a.toNat ≤ 0x16) 7, cnd (a != 0x13 || even b) 5]
  | .vform _ a g => lowest [gOk g, cnd (a.toNat < 56) 4]
  | .poolpop d g => lowest [gOk g, pair d]
  | .tlbinvVa a g => lowest [gOk g, pair a]
  | .tlbinvAsid g => gOk g
  | .eret g => gOk g
  | .eretEsc g => gOk g
  | .rdfault _ a g => lowest [gOk g, cnd (a.toNat < 6) 7]
  | .brk _ g => gOk g
  | .mark _ g => gOk g
  | .bellowsAdd _ _ _ => 0
  | .bellowsSub _ _ _ => 0
  | .bellowsAnd _ _ _ => 0
  | .bellowsOr _ _ _ => 0
  | .bellowsXor _ _ _ => 0
  | .bellowsShl _ _ _ => 0
  | .bellowsShr _ _ _ => 0
  | .bellowsMul _ _ _ => 0
  | .bellowsAddi _ _ _ => 0
  | .bellowsMovi _ _ => 0
  | .insh _ _ => 0
  | .beq _ _ _ => 0
  | .bne _ _ _ => 0
  | .bltu _ _ _ => 0
  | .bgeu _ _ _ => 0
  | .jmp _ => 0
  | .jr _ => 0
  | .bellowsLd _ _ _ => 0
  | .bellowsLdG _ _ _ => 0
  | .bellowsSt _ _ _ => 0
  | .bellowsStG _ _ _ => 0
  | .recv _ _ => 0
  | .copy _ _ _ _ => 0
  | .copyDesc _ _ _ _ => 0
  | .copyt _ _ _ _ => 0
  | .copytDesc _ _ _ _ => 0
  | .gath _ _ _ _ => 0
  | .scat _ _ _ _ => 0
  | .deco _ _ _ _ => 0
  | .ldct _ _ => 0
  | .tsetClose _ _ => 0
  | .tsetTag _ _ => 0
  | .fenceb => 0
  | .waitc _ _ => 0
  | .stat _ _ => 0
  | .resume _ _ => 0
  | .resumeDrop _ _ => 0
  | .halt => 0
  | .bellowsIssueResume _ => 0
  | .bellowsCopyComplete _ _ => 0
  | .copyFaultStop _ _ => 0
  | .matrixOpStart _ _ => 0
  | .matrixOpComplete _ _ => 0
  | .matrixOpFault _ _ => 0
  | .transformStart _ => 0
  | .transformComplete _ => 0
  | .transformFail _ _ => 0
  | .netRequestRead _ => 0
  | .netRequestStart _ _ => 0
  | .netRequestComplete _ _ => 0
  | .netAckReceive _ _ _ _ _ => 0
  | .uetPacketReceive _ _ => 0
  | .uetRetransmitTimeout _ _ _ => 0
  | .sendRetry _ _ => 0
  | .incomingPut _ => 0
  | .incomingPutadd _ => 0
  | .incomingGet _ => 0
  | .incomingSend _ => 0
  | .peerAccessRequest _ _ => 0
  | .kazidPortLost _ => 0
  | .lqappWrite _ _ _ => 0
  | .lqcfgWrite _ _ _ => 0
  | .lqendWrite _ _ _ => 0
  | .launchHeadCheck _ => 0
  | .launchAdmit _ => 0
  | .reelPlace _ _ _ _ _ => 0
  | .placerBackoffExpiry _ => 0
  | .reelPreempt _ => 0
  | .reelRestore _ _ => 0
  | .priorityAgeing _ => 0
  | .launchComplete _ _ => 0
  | .frameReclaim _ _ => 0
  | .stokerFaultResolve _ _ => 0
  | .poolRefill _ => 0
  | .migrationStart _ _ _ => 0
  | .migrationSwitch _ _ => 0
  | .migrationAbort _ _ => 0
  | .compressPage _ _ => 0
  | .shootdownEcho _ _ _ => 0
  | .hostRead _ _ _ _ => 0
  | .hostWrite _ _ _ _ => 0
  | .ldBind _ => 0
  | .ldUnbind _ => 0
  | .hostReset _ => 0
  | .ldctlWrite _ _ _ => 0
  | .evheadWrite _ _ _ => 0
  | .sqheadWrite _ _ _ => 0
  | .prreply _ _ => 0
  | .map _ _ => 0
  | .unmap _ _ => 0
  | .back _ _ => 0
  | .desc _ _ => 0
  | .asid _ _ => 0
  | .freeasid _ _ => 0
  | .land _ _ => 0
  | .apert _ _ => 0
  | .apfree _ _ => 0
  | .corereset _ _ => 0
  | .hearthreset _ _ _ => 0
  | .clmask _ _ => 0
  | .starthart _ _ => 0
  | .scrub _ _ => 0
  | .obswrite _ _ => 0
  | .errread _ _ => 0
  | .extend _ _ => 0
  | .cfgwrite _ _ => 0
  | .getVersion _ _ => 0
  | .getCapabilities _ _ => 0
  | .negotiateAlgorithms _ _ => 0
  | .getDigests _ _ => 0
  | .getCertificate _ _ => 0
  | .challenge _ _ => 0
  | .getMeasurements _ _ _ => 0
  | .keyExchange _ _ => 0
  | .finish _ _ _ => 0
  | .endSession _ _ _ => 0
  | .keyUpdate _ _ _ => 0
  | .heartbeat _ _ _ => 0
  | .keygen _ _ _ _ => 0
  | .keydel _ _ _ _ => 0
  | .spdmUnsupportedRequest _ _ => 0
  | .identifyMemoryDevice _ => 0
  | .getHealthInfo _ => 0
  | .dbgStop _ => 0
  | .dbgResume _ => 0
  | .dbgStep _ _ => 0
  | .partitionStopTakeEffect _ => 0
  | .stallSample _ => 0
  | .coreDump _ => 0
  | .registerWrite _ _ _ => 0
  | .meteringInterval _ _ _ _ => 0
  | .peerStoreAcknowledge _ => 0
  | .backInvalidateResponse _ _ => 0
  | .firmwareUpdate _ => 0

end Sys2Proof.Machine
end

