-- ==== Sys2Proof/WellFormed.lean ====
section
/-! DEFINITION. Well-formed instructions: those whose fields break no rule of Table 6.9 that the word alone decides. -/

namespace Sys2Proof

/-- No field rule is broken (R104). Checks that need the launch or the run are made at run fetch (R102, R105). -/
def WellFormed (i : Instr) : Bool := Machine.fieldReason i == 0

end Sys2Proof
end

