-- ==== Sys2Proof/Decode.lean ====
section
/-! DEFINITION. Decoding and encoding of instruction words (R90..R104, R225). A word that is no instruction is refused with its reason
code of Table 6.9; reasons that need the launch (R102) or the allocation (R198) are added at run fetch. -/

namespace Sys2Proof

/-- Bits `hi` down to `lo` of a word. -/
def bits (w : Word) (lo n : Nat) : BitVec n := w.extractLsb' lo n
/-- The guard of formats A, B, T and UA (R93). -/
def guardOf (w : Word) : Guard := ⟨bits w 1 3, w.getLsbD 0⟩
/-- The condition of format UJ (R93). -/
def condOf (w : Word) : Guard := ⟨bits w 22 3, w.getLsbD 21⟩

/-- Which instruction a Delmer word is, by major opcode and function alone (R100, R101), or the reason it is none. Unused fields are
not looked at here. -/
noncomputable def identify (w : Word) : Except Nat Instr :=
  match (bits w 25 7).toNat with
  | 0x01 =>
    match (bits w 4 3).toNat with
    | 0 => .ok (.add (bits w 19 6) (bits w 13 6) (bits w 7 6) (guardOf w))
    | 1 => .ok (.sub (bits w 19 6) (bits w 13 6) (bits w 7 6) (guardOf w))
    | 2 => .ok (.addsatI32 (bits w 19 6) (bits w 13 6) (bits w 7 6) (guardOf w))
    | 3 => .ok (.addsatN32 (bits w 19 6) (bits w 13 6) (bits w 7 6) (guardOf w))
    | 4 => .ok (.subsatI32 (bits w 19 6) (bits w 13 6) (bits w 7 6) (guardOf w))
    | 5 => .ok (.subsatN32 (bits w 19 6) (bits w 13 6) (bits w 7 6) (guardOf w))
    | 6 => .ok (.absdiffI32 (bits w 19 6) (bits w 13 6) (bits w 7 6) (guardOf w))
    | _ => .ok (.absdiffN32 (bits w 19 6) (bits w 13 6) (bits w 7 6) (guardOf w))
  | 0x02 => .ok (.addi (bits w 19 6) (bits w 13 6) (bits w 4 9) (guardOf w))
  | 0x03 =>
    match (bits w 4 3).toNat with
    | 0 => .ok (.mul (bits w 19 6) (bits w 13 6) (bits w 7 6) (guardOf w))
    | 1 => .ok (.mulhiI32 (bits w 19 6) (bits w 13 6) (bits w 7 6) (guardOf w))
    | 2 => .ok (.mulhiN32 (bits w 19 6) (bits w 13 6) (bits w 7 6) (guardOf w))
    | 3 => .ok (.mad (bits w 19 6) (bits w 13 6) (bits w 7 6) (guardOf w))
    | 4 => .ok (.dot4I8 (bits w 19 6) (bits w 13 6) (bits w 7 6) (guardOf w))
    | 5 => .ok (.dot4N8 (bits w 19 6) (bits w 13 6) (bits w 7 6) (guardOf w))
    | 6 => .ok (.dot8I4 (bits w 19 6) (bits w 13 6) (bits w 7 6) (guardOf w))
    | _ => .ok (.sad4N8 (bits w 19 6) (bits w 13 6) (bits w 7 6) (guardOf w))
  | 0x04 =>
    match (bits w 4 3).toNat with
    | 0 => .ok (.minI32 (bits w 19 6) (bits w 13 6) (bits w 7 6) (guardOf w))
    | 1 => .ok (.maxI32 (bits w 19 6) (bits w 13 6) (bits w 7 6) (guardOf w))
    | 2 => .ok (.minN32 (bits w 19 6) (bits w 13 6) (bits w 7 6) (guardOf w))
    | 3 => .ok (.maxN32 (bits w 19 6) (bits w 13 6) (bits w 7 6) (guardOf w))
    | 4 => .ok (.absI32 (bits w 19 6) (bits w 13 6) (guardOf w))
    | 5 => .ok (.negI32 (bits w 19 6) (bits w 13 6) (guardOf w))
    | _ => .error 2
  | 0x05 =>
    match (bits w 4 3).toNat with
    | 0 => .ok (.and (bits w 19 6) (bits w 13 6) (bits w 7 6) (guardOf w))
    | 1 => .ok (.or (bits w 19 6) (bits w 13 6) (bits w 7 6) (guardOf w))
    | 2 => .ok (.xor (bits w 19 6) (bits w 13 6) (bits w 7 6) (guardOf w))
    | 3 => .ok (.andn (bits w 19 6) (bits w 13 6) (bits w 7 6) (guardOf w))
    | 4 => .ok (.orn (bits w 19 6) (bits w 13 6) (bits w 7 6) (guardOf w))
    | 5 => .ok (.xnor (bits w 19 6) (bits w 13 6) (bits w 7 6) (guardOf w))
    | 6 => .ok (.not (bits w 19 6) (bits w 13 6) (guardOf w))
    | _ => .ok (.mov (bits w 19 6) (bits w 13 6) (guardOf w))
  | 0x06 => .ok (.andi (bits w 19 6) (bits w 13 6) (bits w 4 9) (guardOf w))
  | 0x07 => .ok (.ori (bits w 19 6) (bits w 13 6) (bits w 4 9) (guardOf w))
  | 0x08 => .ok (.xori (bits w 19 6) (bits w 13 6) (bits w 4 9) (guardOf w))
  | 0x09 => .ok (.movi (bits w 19 6) (bits w 4 9) (guardOf w))
  | 0x0A =>
    match (bits w 4 3).toNat with
    | 0 => .ok (.shl (bits w 19 6) (bits w 13 6) (bits w 7 6) (guardOf w))
    | 1 => .ok (.shr (bits w 19 6) (bits w 13 6) (bits w 7 6) (guardOf w))
    | 2 => .ok (.sra (bits w 19 6) (bits w 13 6) (bits w 7 6) (guardOf w))
    | 3 => .ok (.rol (bits w 19 6) (bits w 13 6) (bits w 7 6) (guardOf w))
    | 4 => .ok (.ror (bits w 19 6) (bits w 13 6) (bits w 7 6) (guardOf w))
    | 5 => .ok (.shlf (bits w 19 6) (bits w 13 6) (bits w 7 6) (guardOf w))
    | 6 => .ok (.shrf (bits w 19 6) (bits w 13 6) (bits w 7 6) (guardOf w))
    | _ => .error 2
  | 0x0B =>
    match (bits w 10 3).toNat with
    | 0 => .ok (.shli (bits w 19 6) (bits w 13 6) (bits w 4 5) (guardOf w))
    | 1 => .ok (.shri (bits w 19 6) (bits w 13 6) (bits w 4 5) (guardOf w))
    | 2 => .ok (.srai (bits w 19 6) (bits w 13 6) (bits w 4 5) (guardOf w))
    | 3 => .ok (.roli (bits w 19 6) (bits w 13 6) (bits w 4 5) (guardOf w))
    | 4 => .ok (.rori (bits w 19 6) (bits w 13 6) (bits w 4 5) (guardOf w))
    | _ => .error (Machine.lowest [Machine.gOk (guardOf w), Machine.cnd (!w.getLsbD 9) 6, 7])
  | 0x0C =>
    match (bits w 4 3).toNat with
    | 0 => .ok (.popc (bits w 19 6) (bits w 13 6) (guardOf w))
    | 1 => .ok (.clz (bits w 19 6) (bits w 13 6) (guardOf w))
    | 2 => .ok (.ctz (bits w 19 6) (bits w 13 6) (guardOf w))
    | 3 => .ok (.brev (bits w 19 6) (bits w 13 6) (guardOf w))
    | 4 => .ok (.bxtI32 (bits w 19 6) (bits w 13 6) (bits w 7 6) (guardOf w))
    | 5 => .ok (.bxtN32 (bits w 19 6) (bits w 13 6) (bits w 7 6) (guardOf w))
    | 6 => .ok (.bins (bits w 19 6) (bits w 13 6) (bits w 7 6) (guardOf w))
    | _ => .ok (.bsel (bits w 19 6) (bits w 13 6) (bits w 7 6) (guardOf w))
  | 0x0D =>
    match (bits w 4 3).toNat with
    | 0 => .ok (.eq (bits w 22 3) (bits w 19 3) (bits w 13 6) (bits w 7 6) (guardOf w))
    | 1 => .ok (.ne (bits w 22 3) (bits w 19 3) (bits w 13 6) (bits w 7 6) (guardOf w))
    | 2 => .ok (.ltI32 (bits w 22 3) (bits w 19 3) (bits w 13 6) (bits w 7 6) (guardOf w))
    | 3 => .ok (.leI32 (bits w 22 3) (bits w 19 3) (bits w 13 6) (bits w 7 6) (guardOf w))
    | 4 => .ok (.gtI32 (bits w 22 3) (bits w 19 3) (bits w 13 6) (bits w 7 6) (guardOf w))
    | 5 => .ok (.geI32 (bits w 22 3) (bits w 19 3) (bits w 13 6) (bits w 7 6) (guardOf w))
    | 6 => .ok (.ltN32 (bits w 22 3) (bits w 19 3) (bits w 13 6) (bits w 7 6) (guardOf w))
    | _ => .ok (.geN32 (bits w 22 3) (bits w 19 3) (bits w 13 6) (bits w 7 6) (guardOf w))
  | 0x0E =>
    match (bits w 4 3).toNat with
    | 0 => .ok (.sel (bits w 19 6) (bits w 13 6) (bits w 7 6) (guardOf w))
    | 1 => .ok (.p2v (bits w 19 6) (bits w 13 3) (guardOf w))
    | 2 => .ok (.v2p (bits w 22 3) (bits w 19 3) (bits w 13 6) (guardOf w))
    | 3 => .ok (.pand (bits w 22 3) (bits w 19 3) (bits w 13 3) (bits w 7 3) (guardOf w))
    | 4 => .ok (.por (bits w 22 3) (bits w 19 3) (bits w 13 3) (bits w 7 3) (guardOf w))
    | 5 => .ok (.pxor (bits w 22 3) (bits w 19 3) (bits w 13 3) (bits w 7 3) (guardOf w))
    | 6 => .ok (.pnot (bits w 22 3) (bits w 19 3) (bits w 13 3) (guardOf w))
    | _ => .error 2
  | 0x0F =>
    match (bits w 4 3).toNat with
    | 0 => .ok (.wfromCluster (bits w 19 6) (bits w 13 6) (guardOf w))
    | 1 => .ok (.wspace (bits w 19 6) (bits w 13 6) (guardOf w))
    | _ => .error 2
  | 0x10 =>
    match (bits w 4 3).toNat with
    | 0 => .ok (.add64 (bits w 19 6) (bits w 13 6) (bits w 7 6) (guardOf w))
    | 1 => .ok (.sub64 (bits w 19 6) (bits w 13 6) (bits w 7 6) (guardOf w))
    | 2 => .ok (.leaN (bits w 19 6) (bits w 13 6) (bits w 7 6) (guardOf w))
    | 3 => .ok (.leaI (bits w 19 6) (bits w 13 6) (bits w 7 6) (guardOf w))
    | 4 => .ok (.lea4N (bits w 19 6) (bits w 13 6) (bits w 7 6) (guardOf w))
    | 5 => .ok (.lea4I (bits w 19 6) (bits w 13 6) (bits w 7 6) (guardOf w))
    | 6 => .ok (.mulwI32 (bits w 19 6) (bits w 13 6) (bits w 7 6) (guardOf w))
    | _ => .ok (.mulwN32 (bits w 19 6) (bits w 13 6) (bits w 7 6) (guardOf w))
  | 0x11 =>
    match (bits w 4 3).toNat with
    | 0 => .ok (.wtestLocal (bits w 19 6) (bits w 13 6) (guardOf w))
    | 1 => .ok (.wtestShared (bits w 19 6) (bits w 13 6) (guardOf w))
    | 2 => .ok (.wtestCluster (bits w 19 6) (bits w 13 6) (guardOf w))
    | 3 => .ok (.wtoLocal (bits w 19 6) (bits w 13 6) (guardOf w))
    | 4 => .ok (.wtoShared (bits w 19 6) (bits w 13 6) (guardOf w))
    | 5 => .ok (.wtoCluster (bits w 19 6) (bits w 13 6) (guardOf w))
    | 6 => .ok (.wfromLocal (bits w 19 6) (bits w 13 6) (guardOf w))
    | _ => .ok (.wfromShared (bits w 19 6) (bits w 13 6) (guardOf w))
  | 0x12 =>
    match (bits w 4 3).toNat with
    | 0 => .ok (.fadd (bits w 19 6) (bits w 13 6) (bits w 7 6) (guardOf w))
    | 1 => .ok (.fsub (bits w 19 6) (bits w 13 6) (bits w 7 6) (guardOf w))
    | 2 => .ok (.fmul (bits w 19 6) (bits w 13 6) (bits w 7 6) (guardOf w))
    | 3 => .ok (.fmac (bits w 19 6) (bits w 13 6) (bits w 7 6) (guardOf w))
    | 4 => .ok (.fmsc (bits w 19 6) (bits w 13 6) (bits w 7 6) (guardOf w))
    | 5 => .ok (.fnmac (bits w 19 6) (bits w 13 6) (bits w 7 6) (guardOf w))
    | 6 => .ok (.fmin (bits w 19 6) (bits w 13 6) (bits w 7 6) (guardOf w))
    | _ => .ok (.fmax (bits w 19 6) (bits w 13 6) (bits w 7 6) (guardOf w))
  | 0x13 =>
    match (bits w 4 3).toNat with
    | 0 => .ok (.fabs (bits w 19 6) (bits w 13 6) (guardOf w))
    | 1 => .ok (.fneg (bits w 19 6) (bits w 13 6) (guardOf w))
    | 2 => .ok (.fcopysign (bits w 19 6) (bits w 13 6) (bits w 7 6) (guardOf w))
    | 3 => .ok (.fclass (bits w 19 6) (bits w 13 6) (guardOf w))
    | 4 => .ok (.frint (bits w 19 6) (bits w 13 6) (guardOf w))
    | 5 => .ok (.ffloor (bits w 19 6) (bits w 13 6) (guardOf w))
    | 6 => .ok (.fceil (bits w 19 6) (bits w 13 6) (guardOf w))
    | _ => .ok (.ftrunc (bits w 19 6) (bits w 13 6) (guardOf w))
  | 0x14 =>
    match (bits w 4 3).toNat with
    | 0 => .ok (.feq (bits w 22 3) (bits w 19 3) (bits w 13 6) (bits w 7 6) (guardOf w))
    | 1 => .ok (.fne (bits w 22 3) (bits w 19 3) (bits w 13 6) (bits w 7 6) (guardOf w))
    | 2 => .ok (.flt (bits w 22 3) (bits w 19 3) (bits w 13 6) (bits w 7 6) (guardOf w))
    | 3 => .ok (.fle (bits w 22 3) (bits w 19 3) (bits w 13 6) (bits w 7 6) (guardOf w))
    | 4 => .ok (.fgt (bits w 22 3) (bits w 19 3) (bits w 13 6) (bits w 7 6) (guardOf w))
    | 5 => .ok (.fge (bits w 22 3) (bits w 19 3) (bits w 13 6) (bits w 7 6) (guardOf w))
    | 6 => .ok (.fun (bits w 22 3) (bits w 19 3) (bits w 13 6) (bits w 7 6) (guardOf w))
    | _ => .ok (.ford (bits w 22 3) (bits w 19 3) (bits w 13 6) (bits w 7 6) (guardOf w))
  | 0x15 =>
    match (bits w 4 3).toNat with
    | 0 => .ok (.addBf16x2 (bits w 19 6) (bits w 13 6) (bits w 7 6) (guardOf w))
    | 1 => .ok (.mulBf16x2 (bits w 19 6) (bits w 13 6) (bits w 7 6) (guardOf w))
    | 2 => .ok (.fmacBf16x2 (bits w 19 6) (bits w 13 6) (bits w 7 6) (guardOf w))
    | 3 => .ok (.addF16x2 (bits w 19 6) (bits w 13 6) (bits w 7 6) (guardOf w))
    | 4 => .ok (.mulF16x2 (bits w 19 6) (bits w 13 6) (bits w 7 6) (guardOf w))
    | 5 => .ok (.fmacF16x2 (bits w 19 6) (bits w 13 6) (bits w 7 6) (guardOf w))
    | 6 => .ok (.minBf16x2 (bits w 19 6) (bits w 13 6) (bits w 7 6) (guardOf w))
    | _ => .ok (.maxBf16x2 (bits w 19 6) (bits w 13 6) (bits w 7 6) (guardOf w))
  | 0x16 =>
    match (bits w 4 3).toNat with
    | 0 => .ok (.addE4m3x4 (bits w 19 6) (bits w 13 6) (bits w 7 6) (guardOf w))
    | 1 => .ok (.mulE4m3x4 (bits w 19 6) (bits w 13 6) (bits w 7 6) (guardOf w))
    | 2 => .ok (.addE5m2x4 (bits w 19 6) (bits w 13 6) (bits w 7 6) (guardOf w))
    | 3 => .ok (.mulE5m2x4 (bits w 19 6) (bits w 13 6) (bits w 7 6) (guardOf w))
    | 4 => .ok (.dot4E4m3 (bits w 19 6) (bits w 13 6) (bits w 7 6) (guardOf w))
    | 5 => .ok (.dot4E5m2 (bits w 19 6) (bits w 13 6) (bits w 7 6) (guardOf w))
    | 6 => .ok (.maxE4m3x4 (bits w 19 6) (bits w 13 6) (bits w 7 6) (guardOf w))
    | _ => .ok (.minE4m3x4 (bits w 19 6) (bits w 13 6) (bits w 7 6) (guardOf w))
  | 0x17 =>
    match (bits w 4 3).toNat with
    | 0 => .ok (.cvtF32I32 (bits w 19 6) (bits w 13 6) (guardOf w))
    | 1 => .ok (.cvtF32N32 (bits w 19 6) (bits w 13 6) (guardOf w))
    | 2 => .ok (.cvtI32F32 (bits w 19 6) (bits w 13 6) (guardOf w))
    | 3 => .ok (.cvtN32F32 (bits w 19 6) (bits w 13 6) (guardOf w))
    | 4 => .ok (.cvtBf16x2F32 (bits w 19 6) (bits w 13 6) (bits w 7 6) (guardOf w))
    | 5 => .ok (.cvtF16x2F32 (bits w 19 6) (bits w 13 6) (bits w 7 6) (guardOf w))
    | 6 => .ok (.cvtF32Bf16 (bits w 19 6) (bits w 13 6) (guardOf w))
    | _ => .ok (.cvtF32F16 (bits w 19 6) (bits w 13 6) (guardOf w))
  | 0x18 =>
    match (bits w 4 3).toNat with
    | 0 => .ok (.cvtE4m3F32 (bits w 19 6) (bits w 13 6) (guardOf w))
    | 1 => .ok (.cvtE5m2F32 (bits w 19 6) (bits w 13 6) (guardOf w))
    | 2 => .ok (.cvtF32E4m3 (bits w 19 6) (bits w 13 6) (guardOf w))
    | 3 => .ok (.cvtF32E5m2 (bits w 19 6) (bits w 13 6) (guardOf w))
    | 4 => .ok (.cvtF32E2m1 (bits w 19 6) (bits w 13 6) (guardOf w))
    | 5 => .ok (.cvtF32E2m3 (bits w 19 6) (bits w 13 6) (guardOf w))
    | 6 => .ok (.cvtF32E3m2 (bits w 19 6) (bits w 13 6) (guardOf w))
    | _ => .ok (.cvtF32Int4 (bits w 19 6) (bits w 13 6) (guardOf w))
  | 0x19 =>
    match (bits w 4 3).toNat with
    | 0 => .ok (.qamax16 (bits w 19 6) (bits w 13 6) (bits w 0 4))
    | 1 => .ok (.qamax32 (bits w 19 6) (bits w 13 6) (bits w 0 4))
    | 2 => .ok (.qscale (bits w 19 6) (bits w 13 6) (bits w 0 4))
    | 3 => .ok (.qcvt (bits w 19 6) (bits w 13 6) (bits w 7 6) (bits w 0 4))
    | 4 => .ok (.qdeq (bits w 19 6) (bits w 13 6) (bits w 7 6) (bits w 0 4))
    | 5 => .ok (.qesc (bits w 19 6) (bits w 13 6) (bits w 0 4))
    | 6 => .ok (.qside (bits w 19 6) (bits w 13 6) (bits w 7 6) (bits w 0 4))
    | _ => .error 2
  | 0x1A =>
    match (bits w 4 3).toNat with
    | 0 => .ok (.frcp (bits w 19 6) (bits w 13 6) (bits w 0 4))
    | 1 => .ok (.frsq (bits w 19 6) (bits w 13 6) (bits w 0 4))
    | 2 => .ok (.fsqrt (bits w 19 6) (bits w 13 6) (bits w 0 4))
    | 3 => .ok (.fexp2 (bits w 19 6) (bits w 13 6) (bits w 0 4))
    | 4 => .ok (.flog2 (bits w 19 6) (bits w 13 6) (bits w 0 4))
    | 5 => .ok (.fsinpi (bits w 19 6) (bits w 13 6) (bits w 0 4))
    | 6 => .ok (.fcospi (bits w 19 6) (bits w 13 6) (bits w 0 4))
    | _ => .ok (.fdiv (bits w 19 6) (bits w 13 6) (bits w 7 6) (bits w 0 4))
  | 0x1B =>
    match (bits w 4 3).toNat with
    | 0 => .ok (.divI32 (bits w 19 6) (bits w 13 6) (bits w 7 6) (bits w 0 4))
    | 1 => .ok (.divN32 (bits w 19 6) (bits w 13 6) (bits w 7 6) (bits w 0 4))
    | 2 => .ok (.remI32 (bits w 19 6) (bits w 13 6) (bits w 7 6) (bits w 0 4))
    | 3 => .ok (.remN32 (bits w 19 6) (bits w 13 6) (bits w 7 6) (bits w 0 4))
    | _ => .error 2
  | 0x1C =>
    match (bits w 4 3).toNat with
    | 0 => .ok (.lpick (bits w 19 6) (bits w 13 6) (bits w 7 6) (bits w 0 4))
    | 1 => .ok (.lslide (bits w 19 6) (bits w 13 6) (bits w 7 6) (bits w 0 4))
    | 2 => .ok (.lrot (bits w 19 6) (bits w 13 6) (bits w 7 6) (bits w 0 4))
    | 3 => .ok (.lswap (bits w 19 6) (bits w 13 6) (bits w 7 6) (bits w 0 4))
    | 4 => .ok (.lbits (bits w 19 6) (bits w 13 6) (bits w 0 4))
    | 5 => .ok (.lall (bits w 19 6) (bits w 13 6) (bits w 0 4))
    | 6 => .ok (.redaddI32 (bits w 19 6) (bits w 13 6) (bits w 0 4))
    | _ => .ok (.redmaxI32 (bits w 19 6) (bits w 13 6) (bits w 0 4))
  | 0x1D =>
    match (bits w 4 3).toNat with
    | 0 => .ok (.vtrn8 (bits w 19 6) (bits w 0 4))
    | 1 => .ok (.vtrn16 (bits w 19 6) (bits w 0 4))
    | 2 => .ok (.vtrn32 (bits w 19 6) (bits w 0 4))
    | 3 => .ok (.xsend (bits w 19 6) (bits w 13 6))
    | 4 => .ok (.xrecv (bits w 19 6) (bits w 13 6))
    | 5 => .ok (.xsend64 (bits w 19 6) (bits w 13 6))
    | 6 => .ok (.xrecv64 (bits w 19 6) (bits w 13 6))
    | _ => .error 2
  | 0x1E =>
    match (bits w 4 3).toNat with
    | 0 => .ok (.cmul (bits w 19 6) (bits w 13 6) (bits w 7 6) (bits w 0 4))
    | 1 => .ok (.cmac (bits w 19 6) (bits w 13 6) (bits w 7 6) (bits w 0 4))
    | 2 => .ok (.cmulc (bits w 19 6) (bits w 13 6) (bits w 7 6) (bits w 0 4))
    | 3 => .ok (.cmacc (bits w 19 6) (bits w 13 6) (bits w 7 6) (bits w 0 4))
    | 4 => .ok (.cadd (bits w 19 6) (bits w 13 6) (bits w 7 6) (bits w 0 4))
    | _ => .error 2
  | 0x1F =>
    match (bits w 4 3).toNat with
    | 0 => .ok (.movs (bits w 19 6) (bits w 13 6) (guardOf w))
    | _ => .error 2
  | 0x20 =>
    match (bits w 4 3).toNat with
    | 0 => .ok (.ldI8 (bits w 19 6) (bits w 13 6) (bits w 7 6) (bits w 0 4))
    | 1 => .ok (.ldN8 (bits w 19 6) (bits w 13 6) (bits w 7 6) (bits w 0 4))
    | 2 => .ok (.ldI16 (bits w 19 6) (bits w 13 6) (bits w 7 6) (bits w 0 4))
    | 3 => .ok (.ldN16 (bits w 19 6) (bits w 13 6) (bits w 7 6) (bits w 0 4))
    | 4 => .ok (.ld32 (bits w 19 6) (bits w 13 6) (bits w 7 6) (bits w 0 4))
    | 5 => .ok (.ld64 (bits w 19 6) (bits w 13 6) (bits w 7 6) (bits w 0 4))
    | 6 => .ok (.ld128 (bits w 19 6) (bits w 13 6) (bits w 7 6) (bits w 0 4))
    | _ => .ok (.ldNt128 (bits w 19 6) (bits w 13 6) (bits w 7 6) (bits w 0 4))
  | 0x21 =>
    match (bits w 4 3).toNat with
    | 0 => .ok (.ldt32 (bits w 19 6) (bits w 13 6) (bits w 7 6) (bits w 0 4))
    | 1 => .ok (.ldt64 (bits w 19 6) (bits w 13 6) (bits w 7 6) (bits w 0 4))
    | 2 => .ok (.ldt128 (bits w 19 6) (bits w 13 6) (bits w 7 6) (bits w 0 4))
    | 3 => .ok (.ldtSdb (bits w 19 6) (bits w 13 6) (bits w 7 6) (bits w 0 4))
    | 4 => .ok (.ldtI8 (bits w 19 6) (bits w 13 6) (bits w 7 6) (bits w 0 4))
    | 5 => .ok (.ldtN8 (bits w 19 6) (bits w 13 6) (bits w 7 6) (bits w 0 4))
    | 6 => .ok (.ldtI16 (bits w 19 6) (bits w 13 6) (bits w 7 6) (bits w 0 4))
    | _ => .ok (.ldtN16 (bits w 19 6) (bits w 13 6) (bits w 7 6) (bits w 0 4))
  | 0x22 =>
    match (bits w 3 3).toNat with
    | 0 => .ok (.st8 (bits w 19 6) (bits w 13 6) (bits w 9 4) (bits w 6 3) (bits w 0 3))
    | 1 => .ok (.st16 (bits w 19 6) (bits w 13 6) (bits w 9 4) (bits w 6 3) (bits w 0 3))
    | 2 => .ok (.st32 (bits w 19 6) (bits w 13 6) (bits w 9 4) (bits w 6 3) (bits w 0 3))
    | 3 => .ok (.st64 (bits w 19 6) (bits w 13 6) (bits w 9 4) (bits w 6 3) (bits w 0 3))
    | 4 => .ok (.st128 (bits w 19 6) (bits w 13 6) (bits w 9 4) (bits w 6 3) (bits w 0 3))
    | 5 => .ok (.stNt128 (bits w 19 6) (bits w 13 6) (bits w 9 4) (bits w 6 3) (bits w 0 3))
    | 6 => .ok (.sdbst (bits w 19 6) (bits w 13 6) (bits w 9 4) (bits w 6 3) (bits w 0 3))
    | _ => .error 2
  | 0x23 => .ok (.stt32 (bits w 19 6) (bits w 13 6) (bits w 7 6) (bits w 4 3) (guardOf w))
  | 0x24 => .ok (.stt64 (bits w 19 6) (bits w 13 6) (bits w 7 6) (bits w 4 3) (guardOf w))
  | 0x25 => .ok (.stt128 (bits w 19 6) (bits w 13 6) (bits w 7 6) (bits w 4 3) (guardOf w))
  | 0x26 =>
    match (bits w 4 3).toNat with
    | 0 => .ok (.aadd (bits w 19 6) (bits w 13 6) (bits w 7 6) (bits w 0 4))
    | 1 => .ok (.aminI32 (bits w 19 6) (bits w 13 6) (bits w 7 6) (bits w 0 4))
    | 2 => .ok (.amaxI32 (bits w 19 6) (bits w 13 6) (bits w 7 6) (bits w 0 4))
    | 3 => .ok (.aminN32 (bits w 19 6) (bits w 13 6) (bits w 7 6) (bits w 0 4))
    | 4 => .ok (.amaxN32 (bits w 19 6) (bits w 13 6) (bits w 7 6) (bits w 0 4))
    | 5 => .ok (.aand (bits w 19 6) (bits w 13 6) (bits w 7 6) (bits w 0 4))
    | 6 => .ok (.aor (bits w 19 6) (bits w 13 6) (bits w 7 6) (bits w 0 4))
    | _ => .ok (.axor (bits w 19 6) (bits w 13 6) (bits w 7 6) (bits w 0 4))
  | 0x27 =>
    match (bits w 4 3).toNat with
    | 0 => .ok (.aaddSys (bits w 19 6) (bits w 13 6) (bits w 7 6) (bits w 0 4))
    | 1 => .ok (.aminI32Sys (bits w 19 6) (bits w 13 6) (bits w 7 6) (bits w 0 4))
    | 2 => .ok (.amaxI32Sys (bits w 19 6) (bits w 13 6) (bits w 7 6) (bits w 0 4))
    | 3 => .ok (.aminN32Sys (bits w 19 6) (bits w 13 6) (bits w 7 6) (bits w 0 4))
    | 4 => .ok (.amaxN32Sys (bits w 19 6) (bits w 13 6) (bits w 7 6) (bits w 0 4))
    | 5 => .ok (.aandSys (bits w 19 6) (bits w 13 6) (bits w 7 6) (bits w 0 4))
    | 6 => .ok (.aorSys (bits w 19 6) (bits w 13 6) (bits w 7 6) (bits w 0 4))
    | _ => .ok (.axorSys (bits w 19 6) (bits w 13 6) (bits w 7 6) (bits w 0 4))
  | 0x28 =>
    match (bits w 4 3).toNat with
    | 0 => .ok (.axch (bits w 19 6) (bits w 13 6) (bits w 7 6) (bits w 0 4))
    | 1 => .ok (.acas (bits w 19 6) (bits w 13 6) (bits w 7 6) (bits w 0 4))
    | 2 => .ok (.aadd64 (bits w 19 6) (bits w 13 6) (bits w 7 6) (bits w 0 4))
    | 3 => .ok (.axch64 (bits w 19 6) (bits w 13 6) (bits w 7 6) (bits w 0 4))
    | 4 => .ok (.acas64 (bits w 19 6) (bits w 13 6) (bits w 7 6) (bits w 0 4))
    | 5 => .ok (.afadd (bits w 19 6) (bits w 13 6) (bits w 7 6) (bits w 0 4))
    | 6 => .ok (.afaddBf16x2 (bits w 19 6) (bits w 13 6) (bits w 7 6) (bits w 0 4))
    | _ => .ok (.aincw (bits w 19 6) (bits w 13 6) (bits w 7 6) (bits w 0 4))
  | 0x29 =>
    match (bits w 4 3).toNat with
    | 0 => .ok (.scall (bits w 19 6) (bits w 13 6) (bits w 7 6) (bits w 0 4))
    | 1 => .ok (.fcall (bits w 19 6) (bits w 13 6) (bits w 7 6) (bits w 0 4))
    | _ => .error 2
  | 0x41 =>
    match (bits w 4 3).toNat with
    | 0 => .ok (.uadd (bits w 19 6) (bits w 13 6) (bits w 7 6) (guardOf w))
    | 1 => .ok (.usub (bits w 19 6) (bits w 13 6) (bits w 7 6) (guardOf w))
    | 2 => .ok (.umul (bits w 19 6) (bits w 13 6) (bits w 7 6) (guardOf w))
    | 3 => .ok (.uand (bits w 19 6) (bits w 13 6) (bits w 7 6) (guardOf w))
    | 4 => .ok (.uor (bits w 19 6) (bits w 13 6) (bits w 7 6) (guardOf w))
    | 5 => .ok (.uxor (bits w 19 6) (bits w 13 6) (bits w 7 6) (guardOf w))
    | 6 => .ok (.ushl (bits w 19 6) (bits w 13 6) (bits w 7 6) (guardOf w))
    | _ => .ok (.ushr (bits w 19 6) (bits w 13 6) (bits w 7 6) (guardOf w))
  | 0x42 =>
    match (bits w 4 3).toNat with
    | 0 => .ok (.usra (bits w 19 6) (bits w 13 6) (bits w 7 6) (guardOf w))
    | 1 => .ok (.uminI32 (bits w 19 6) (bits w 13 6) (bits w 7 6) (guardOf w))
    | 2 => .ok (.umaxI32 (bits w 19 6) (bits w 13 6) (bits w 7 6) (guardOf w))
    | 3 => .ok (.uminN32 (bits w 19 6) (bits w 13 6) (bits w 7 6) (guardOf w))
    | 4 => .ok (.umaxN32 (bits w 19 6) (bits w 13 6) (bits w 7 6) (guardOf w))
    | 5 => .ok (.umulhiN32 (bits w 19 6) (bits w 13 6) (bits w 7 6) (guardOf w))
    | 6 => .ok (.uadd64 (bits w 19 6) (bits w 13 6) (bits w 7 6) (guardOf w))
    | _ => .ok (.usub64 (bits w 19 6) (bits w 13 6) (bits w 7 6) (guardOf w))
  | 0x43 => .ok (.uaddi (bits w 19 6) (bits w 13 6) (bits w 0 13))
  | 0x44 => .ok (.umovi (bits w 19 6) (bits w 0 19))
  | 0x45 => .ok (.umovh (bits w 19 6) (bits w 0 19))
  | 0x46 =>
    match (bits w 4 3).toNat with
    | 0 => .ok (.ueq (bits w 22 3) (bits w 19 3) (bits w 13 6) (bits w 7 6) (guardOf w))
    | 1 => .ok (.une (bits w 22 3) (bits w 19 3) (bits w 13 6) (bits w 7 6) (guardOf w))
    | 2 => .ok (.ultI32 (bits w 22 3) (bits w 19 3) (bits w 13 6) (bits w 7 6) (guardOf w))
    | 3 => .ok (.uleI32 (bits w 22 3) (bits w 19 3) (bits w 13 6) (bits w 7 6) (guardOf w))
    | 4 => .ok (.ugtI32 (bits w 22 3) (bits w 19 3) (bits w 13 6) (bits w 7 6) (guardOf w))
    | 5 => .ok (.ugeI32 (bits w 22 3) (bits w 19 3) (bits w 13 6) (bits w 7 6) (guardOf w))
    | 6 => .ok (.ultN32 (bits w 22 3) (bits w 19 3) (bits w 13 6) (bits w 7 6) (guardOf w))
    | _ => .ok (.ugeN32 (bits w 22 3) (bits w 19 3) (bits w 13 6) (bits w 7 6) (guardOf w))
  | 0x47 => .ok (.ldl32 (bits w 19 6) (bits w 4 15) (bits w 0 4))
  | 0x48 => .ok (.ldl64 (bits w 19 6) (bits w 4 15) (bits w 0 4))
  | 0x49 => .ok (.ldl128 (bits w 19 6) (bits w 4 15) (bits w 0 4))
  | 0x4A => .ok (.bra (condOf w) (bits w 0 21))
  | 0x4B => .ok (.call (condOf w) (bits w 0 21))
  | 0x4C =>
    match (bits w 4 3).toNat with
    | 0 => .ok (.ret (guardOf w))
    | 1 => .ok (.jmpr (bits w 13 6) (guardOf w))
    | 2 => .ok (.callr (bits w 13 6) (guardOf w))
    | 3 => .ok (.exit (guardOf w))
    | 4 => .ok (.trap (bits w 13 6) (guardOf w))
    | 5 => .ok (.nop (guardOf w))
    | _ => .error 2
  | 0x4D => .ok (.divif (condOf w) (bits w 0 21))
  | 0x4E => if bits w 21 4 = 0 then .ok (.divelse (bits w 0 21)) else .error (Machine.lowest [Machine.gOk (condOf w), 7])
  | 0x4F =>
    match (bits w 4 3).toNat with
    | 0 => if Machine.gOk (guardOf w) = 0 then .ok (.divjoin) else .error 3
    | _ => .error 2
  | 0x50 => .ok (.divloop (condOf w) (bits w 0 21))
  | 0x51 => .ok (.fence (bits w 17 8) (bits w 14 3) (bits w 12 2) (bits w 6 6))
  | 0x52 => .ok (.divbrk (condOf w) (bits w 0 21))
  | 0x53 =>
    match (bits w 4 3).toNat with
    | 0 => .ok (.barWg (guardOf w))
    | 1 => .ok (.barReel (guardOf w))
    | 2 => .ok (.signal (bits w 13 6) (bits w 7 6) (guardOf w))
    | 3 => .ok (.yield (guardOf w))
    | 4 => .ok (.backoff (bits w 19 3) (bits w 13 6) (guardOf w))
    | 5 => .ok (.regclaim (bits w 13 6) (guardOf w))
    | 6 => .ok (.reggive (bits w 13 6) (guardOf w))
    | _ => .ok (.waitv (bits w 19 6) (bits w 13 6) (bits w 7 6) (guardOf w))
  | 0x54 =>
    match (bits w 4 3).toNat with
    | 0 => .ok (.tfree (bits w 13 6) (guardOf w))
    | 1 => .ok (.tstate (bits w 19 6) (bits w 13 6) (guardOf w))
    | 2 => .ok (.tbind (bits w 19 6) (bits w 13 6) (bits w 7 6) (guardOf w))
    | 3 => .ok (.ttag (bits w 19 6) (bits w 13 6) (bits w 7 6) (guardOf w))
    | 4 => .ok (.tdom (bits w 19 6) (bits w 13 6) (bits w 7 6) (guardOf w))
    | _ => .error 2
  | 0x55 =>
    match (bits w 4 3).toNat with
    | 0 => .ok (.bpost (bits w 13 6) (bits w 7 6) (guardOf w))
    | 1 => .ok (.bpostw (bits w 19 6) (bits w 13 6) (bits w 7 6) (guardOf w))
    | 2 => .ok (.kwait (bits w 13 6) (guardOf w))
    | 3 => .ok (.kpoll (bits w 19 6) (bits w 13 6) (guardOf w))
    | _ => .error 2
  | 0x56 =>
    match (bits w 4 3).toNat with
    | 0 => .ok (.mldb (bits w 19 6) (bits w 13 6) (bits w 7 6) (guardOf w))
    | 1 => .ok (.mloop (bits w 19 6) (bits w 13 6) (guardOf w))
    | 2 => .ok (.mzero (bits w 19 6) (bits w 13 6) (guardOf w))
    | 3 => .ok (.mwait (bits w 19 6) (bits w 13 6) (guardOf w))
    | 4 => .ok (.mst (bits w 19 6) (bits w 13 6) (guardOf w))
    | 5 => .ok (.mld (bits w 19 6) (bits w 13 6) (guardOf w))
    | 6 => .ok (.mpoll (bits w 19 6) (guardOf w))
    | _ => .ok (.mabort (bits w 19 6) (bits w 13 6) (guardOf w))
  | 0x57 =>
    match (bits w 4 3).toNat with
    | 0 => .ok (.xfwd (bits w 19 6) (bits w 13 6) (guardOf w))
    | 1 => .ok (.xinv (bits w 19 6) (bits w 13 6) (guardOf w))
    | _ => .error 2
  | 0x58 =>
    match (bits w 4 3).toNat with
    | 0 => .ok (.ntail (bits w 19 6) (bits w 13 6) (bits w 7 6) (guardOf w))
    | 1 => .ok (.nseq (bits w 19 6) (bits w 13 6) (guardOf w))
    | 2 => .ok (.nwait (bits w 13 6) (bits w 7 6) (guardOf w))
    | _ => .error 2
  | 0x59 =>
    match (bits w 4 3).toNat with
    | 0 => .ok (.launch (bits w 19 6) (bits w 13 6) (bits w 7 6) (guardOf w))
    | 1 => .ok (.lwait (bits w 13 6) (bits w 7 6) (guardOf w))
    | 2 => .ok (.lseq (bits w 19 6) (bits w 7 6) (guardOf w))
    | _ => .error 2
  | 0x5A =>
    match (bits w 4 3).toNat with
    | 0 => .ok (.usr (bits w 19 6) (bits w 13 6) (guardOf w))
    | 1 => .ok (.uwr (bits w 13 6) (bits w 7 6) (guardOf w))
    | 2 => .ok (.vform (bits w 19 6) (bits w 13 6) (guardOf w))
    | _ => .error 2
  | 0x5B =>
    match (bits w 4 3).toNat with
    | 0 => .ok (.poolpop (bits w 19 6) (guardOf w))
    | 1 => .ok (.tlbinvVa (bits w 13 6) (guardOf w))
    | 2 => .ok (.tlbinvAsid (guardOf w))
    | 3 =>
      match (bits w 13 6).toNat with
      | 0 => .ok (.eret (guardOf w))
      | 1 => .ok (.eretEsc (guardOf w))
      | _ => .error (Machine.lowest [Machine.gOk (guardOf w), Machine.cnd (w &&& 0xFFF81FF0 == 0xB6000030) 6, 7])
    | 4 => .ok (.rdfault (bits w 19 6) (bits w 13 6) (guardOf w))
    | _ => .error 2
  | 0x5C =>
    match (bits w 4 3).toNat with
    | 0 => .ok (.brk (bits w 13 6) (guardOf w))
    | 1 => .ok (.mark (bits w 13 6) (guardOf w))
    | _ => .error 2
  | 0x3F => .error 0x0B
  | _ => .error 1

/-- The trailer word (R103): not an instruction. -/
def isTrailer (w : Word) : Bool := bits w 25 7 == 0x7F#7

/-- The word of an instruction (R94, R98, R225); an event has none. -/
def encode : Instr → Option Word
  | .powerOn _ => none
  | .hearthReset _ _ => none
  | .coreResetEnd => none
  | .clockChange _ => none
  | .powerStateEnter => none
  | .powerStateExit => none
  | .stokerHartStop _ => none
  | .memoryErrorDetect _ _ _ => none
  | .runFetch _ => none
  | .partitionChoice _ => none
  | .runAttemptEnd _ => none
  | .pendingWriteLand _ _ => none
  | .heldEffectPerform _ => none
  | .backoffExpiry _ => none
  | .starvationExpiry _ => none
  | .claimDeadlockFault _ => none
  | .waitvRecheck _ => none
  | .granuleReturn _ => none
  | .add d a b g => some (1#7 ++ d ++ a ++ b ++ 0#3 ++ g.g ++ BitVec.ofBool g.n)
  | .sub d a b g => some (1#7 ++ d ++ a ++ b ++ 1#3 ++ g.g ++ BitVec.ofBool g.n)
  | .addsatI32 d a b g => some (1#7 ++ d ++ a ++ b ++ 2#3 ++ g.g ++ BitVec.ofBool g.n)
  | .addsatN32 d a b g => some (1#7 ++ d ++ a ++ b ++ 3#3 ++ g.g ++ BitVec.ofBool g.n)
  | .subsatI32 d a b g => some (1#7 ++ d ++ a ++ b ++ 4#3 ++ g.g ++ BitVec.ofBool g.n)
  | .subsatN32 d a b g => some (1#7 ++ d ++ a ++ b ++ 5#3 ++ g.g ++ BitVec.ofBool g.n)
  | .absdiffI32 d a b g => some (1#7 ++ d ++ a ++ b ++ 6#3 ++ g.g ++ BitVec.ofBool g.n)
  | .absdiffN32 d a b g => some (1#7 ++ d ++ a ++ b ++ 7#3 ++ g.g ++ BitVec.ofBool g.n)
  | .addi d a im g => some (2#7 ++ d ++ a ++ im ++ g.g ++ BitVec.ofBool g.n)
  | .mul d a b g => some (3#7 ++ d ++ a ++ b ++ 0#3 ++ g.g ++ BitVec.ofBool g.n)
  | .mulhiI32 d a b g => some (3#7 ++ d ++ a ++ b ++ 1#3 ++ g.g ++ BitVec.ofBool g.n)
  | .mulhiN32 d a b g => some (3#7 ++ d ++ a ++ b ++ 2#3 ++ g.g ++ BitVec.ofBool g.n)
  | .mad d a b g => some (3#7 ++ d ++ a ++ b ++ 3#3 ++ g.g ++ BitVec.ofBool g.n)
  | .dot4I8 d a b g => some (3#7 ++ d ++ a ++ b ++ 4#3 ++ g.g ++ BitVec.ofBool g.n)
  | .dot4N8 d a b g => some (3#7 ++ d ++ a ++ b ++ 5#3 ++ g.g ++ BitVec.ofBool g.n)
  | .dot8I4 d a b g => some (3#7 ++ d ++ a ++ b ++ 6#3 ++ g.g ++ BitVec.ofBool g.n)
  | .sad4N8 d a b g => some (3#7 ++ d ++ a ++ b ++ 7#3 ++ g.g ++ BitVec.ofBool g.n)
  | .minI32 d a b g => some (4#7 ++ d ++ a ++ b ++ 0#3 ++ g.g ++ BitVec.ofBool g.n)
  | .maxI32 d a b g => some (4#7 ++ d ++ a ++ b ++ 1#3 ++ g.g ++ BitVec.ofBool g.n)
  | .minN32 d a b g => some (4#7 ++ d ++ a ++ b ++ 2#3 ++ g.g ++ BitVec.ofBool g.n)
  | .maxN32 d a b g => some (4#7 ++ d ++ a ++ b ++ 3#3 ++ g.g ++ BitVec.ofBool g.n)
  | .absI32 d a g => some (4#7 ++ d ++ a ++ 4#9 ++ g.g ++ BitVec.ofBool g.n)
  | .negI32 d a g => some (4#7 ++ d ++ a ++ 5#9 ++ g.g ++ BitVec.ofBool g.n)
  | .and d a b g => some (5#7 ++ d ++ a ++ b ++ 0#3 ++ g.g ++ BitVec.ofBool g.n)
  | .or d a b g => some (5#7 ++ d ++ a ++ b ++ 1#3 ++ g.g ++ BitVec.ofBool g.n)
  | .xor d a b g => some (5#7 ++ d ++ a ++ b ++ 2#3 ++ g.g ++ BitVec.ofBool g.n)
  | .andn d a b g => some (5#7 ++ d ++ a ++ b ++ 3#3 ++ g.g ++ BitVec.ofBool g.n)
  | .orn d a b g => some (5#7 ++ d ++ a ++ b ++ 4#3 ++ g.g ++ BitVec.ofBool g.n)
  | .xnor d a b g => some (5#7 ++ d ++ a ++ b ++ 5#3 ++ g.g ++ BitVec.ofBool g.n)
  | .not d a g => some (5#7 ++ d ++ a ++ 6#9 ++ g.g ++ BitVec.ofBool g.n)
  | .mov d a g => some (5#7 ++ d ++ a ++ 7#9 ++ g.g ++ BitVec.ofBool g.n)
  | .andi d a im g => some (6#7 ++ d ++ a ++ im ++ g.g ++ BitVec.ofBool g.n)
  | .ori d a im g => some (7#7 ++ d ++ a ++ im ++ g.g ++ BitVec.ofBool g.n)
  | .xori d a im g => some (8#7 ++ d ++ a ++ im ++ g.g ++ BitVec.ofBool g.n)
  | .movi d im g => some (9#7 ++ d ++ 0#6 ++ im ++ g.g ++ BitVec.ofBool g.n)
  | .shl d a b g => some (10#7 ++ d ++ a ++ b ++ 0#3 ++ g.g ++ BitVec.ofBool g.n)
  | .shr d a b g => some (10#7 ++ d ++ a ++ b ++ 1#3 ++ g.g ++ BitVec.ofBool g.n)
  | .sra d a b g => some (10#7 ++ d ++ a ++ b ++ 2#3 ++ g.g ++ BitVec.ofBool g.n)
  | .rol d a b g => some (10#7 ++ d ++ a ++ b ++ 3#3 ++ g.g ++ BitVec.ofBool g.n)
  | .ror d a b g => some (10#7 ++ d ++ a ++ b ++ 4#3 ++ g.g ++ BitVec.ofBool g.n)
  | .shlf d a b g => some (10#7 ++ d ++ a ++ b ++ 5#3 ++ g.g ++ BitVec.ofBool g.n)
  | .shrf d a b g => some (10#7 ++ d ++ a ++ b ++ 6#3 ++ g.g ++ BitVec.ofBool g.n)
  | .shli d a c g => some (11#7 ++ d ++ a ++ 0#4 ++ c ++ g.g ++ BitVec.ofBool g.n)
  | .shri d a c g => some (11#7 ++ d ++ a ++ 2#4 ++ c ++ g.g ++ BitVec.ofBool g.n)
  | .srai d a c g => some (11#7 ++ d ++ a ++ 4#4 ++ c ++ g.g ++ BitVec.ofBool g.n)
  | .roli d a c g => some (11#7 ++ d ++ a ++ 6#4 ++ c ++ g.g ++ BitVec.ofBool g.n)
  | .rori d a c g => some (11#7 ++ d ++ a ++ 8#4 ++ c ++ g.g ++ BitVec.ofBool g.n)
  | .popc d a g => some (12#7 ++ d ++ a ++ 0#9 ++ g.g ++ BitVec.ofBool g.n)
  | .clz d a g => some (12#7 ++ d ++ a ++ 1#9 ++ g.g ++ BitVec.ofBool g.n)
  | .ctz d a g => some (12#7 ++ d ++ a ++ 2#9 ++ g.g ++ BitVec.ofBool g.n)
  | .brev d a g => some (12#7 ++ d ++ a ++ 3#9 ++ g.g ++ BitVec.ofBool g.n)
  | .bxtI32 d a b g => some (12#7 ++ d ++ a ++ b ++ 4#3 ++ g.g ++ BitVec.ofBool g.n)
  | .bxtN32 d a b g => some (12#7 ++ d ++ a ++ b ++ 5#3 ++ g.g ++ BitVec.ofBool g.n)
  | .bins d a b g => some (12#7 ++ d ++ a ++ b ++ 6#3 ++ g.g ++ BitVec.ofBool g.n)
  | .bsel d a b g => some (12#7 ++ d ++ a ++ b ++ 7#3 ++ g.g ++ BitVec.ofBool g.n)
  | .eq m p a b g => some (13#7 ++ m ++ p ++ a ++ b ++ 0#3 ++ g.g ++ BitVec.ofBool g.n)
  | .ne m p a b g => some (13#7 ++ m ++ p ++ a ++ b ++ 1#3 ++ g.g ++ BitVec.ofBool g.n)
  | .ltI32 m p a b g => some (13#7 ++ m ++ p ++ a ++ b ++ 2#3 ++ g.g ++ BitVec.ofBool g.n)
  | .leI32 m p a b g => some (13#7 ++ m ++ p ++ a ++ b ++ 3#3 ++ g.g ++ BitVec.ofBool g.n)
  | .gtI32 m p a b g => some (13#7 ++ m ++ p ++ a ++ b ++ 4#3 ++ g.g ++ BitVec.ofBool g.n)
  | .geI32 m p a b g => some (13#7 ++ m ++ p ++ a ++ b ++ 5#3 ++ g.g ++ BitVec.ofBool g.n)
  | .ltN32 m p a b g => some (13#7 ++ m ++ p ++ a ++ b ++ 6#3 ++ g.g ++ BitVec.ofBool g.n)
  | .geN32 m p a b g => some (13#7 ++ m ++ p ++ a ++ b ++ 7#3 ++ g.g ++ BitVec.ofBool g.n)
  | .sel d a b g => some (14#7 ++ d ++ a ++ b ++ 0#3 ++ g.g ++ BitVec.ofBool g.n)
  | .p2v d r g => some (14#7 ++ d ++ 0#3 ++ r ++ 1#9 ++ g.g ++ BitVec.ofBool g.n)
  | .v2p m p a g => some (14#7 ++ m ++ p ++ a ++ 2#9 ++ g.g ++ BitVec.ofBool g.n)
  | .pand m p r sr g => some (14#7 ++ m ++ p ++ 0#3 ++ r ++ 0#3 ++ sr ++ 3#3 ++ g.g ++ BitVec.ofBool g.n)
  | .por m p r sr g => some (14#7 ++ m ++ p ++ 0#3 ++ r ++ 0#3 ++ sr ++ 4#3 ++ g.g ++ BitVec.ofBool g.n)
  | .pxor m p r sr g => some (14#7 ++ m ++ p ++ 0#3 ++ r ++ 0#3 ++ sr ++ 5#3 ++ g.g ++ BitVec.ofBool g.n)
  | .pnot m p r g => some (14#7 ++ m ++ p ++ 0#3 ++ r ++ 6#9 ++ g.g ++ BitVec.ofBool g.n)
  | .wfromCluster d a g => some (15#7 ++ d ++ a ++ 0#9 ++ g.g ++ BitVec.ofBool g.n)
  | .wspace d a g => some (15#7 ++ d ++ a ++ 1#9 ++ g.g ++ BitVec.ofBool g.n)
  | .add64 d a b g => some (16#7 ++ d ++ a ++ b ++ 0#3 ++ g.g ++ BitVec.ofBool g.n)
  | .sub64 d a b g => some (16#7 ++ d ++ a ++ b ++ 1#3 ++ g.g ++ BitVec.ofBool g.n)
  | .leaN d a b g => some (16#7 ++ d ++ a ++ b ++ 2#3 ++ g.g ++ BitVec.ofBool g.n)
  | .leaI d a b g => some (16#7 ++ d ++ a ++ b ++ 3#3 ++ g.g ++ BitVec.ofBool g.n)
  | .lea4N d a b g => some (16#7 ++ d ++ a ++ b ++ 4#3 ++ g.g ++ BitVec.ofBool g.n)
  | .lea4I d a b g => some (16#7 ++ d ++ a ++ b ++ 5#3 ++ g.g ++ BitVec.ofBool g.n)
  | .mulwI32 d a b g => some (16#7 ++ d ++ a ++ b ++ 6#3 ++ g.g ++ BitVec.ofBool g.n)
  | .mulwN32 d a b g => some (16#7 ++ d ++ a ++ b ++ 7#3 ++ g.g ++ BitVec.ofBool g.n)
  | .wtestLocal d a g => some (17#7 ++ d ++ a ++ 0#9 ++ g.g ++ BitVec.ofBool g.n)
  | .wtestShared d a g => some (17#7 ++ d ++ a ++ 1#9 ++ g.g ++ BitVec.ofBool g.n)
  | .wtestCluster d a g => some (17#7 ++ d ++ a ++ 2#9 ++ g.g ++ BitVec.ofBool g.n)
  | .wtoLocal d a g => some (17#7 ++ d ++ a ++ 3#9 ++ g.g ++ BitVec.ofBool g.n)
  | .wtoShared d a g => some (17#7 ++ d ++ a ++ 4#9 ++ g.g ++ BitVec.ofBool g.n)
  | .wtoCluster d a g => some (17#7 ++ d ++ a ++ 5#9 ++ g.g ++ BitVec.ofBool g.n)
  | .wfromLocal d a g => some (17#7 ++ d ++ a ++ 6#9 ++ g.g ++ BitVec.ofBool g.n)
  | .wfromShared d a g => some (17#7 ++ d ++ a ++ 7#9 ++ g.g ++ BitVec.ofBool g.n)
  | .fadd d a b g => some (18#7 ++ d ++ a ++ b ++ 0#3 ++ g.g ++ BitVec.ofBool g.n)
  | .fsub d a b g => some (18#7 ++ d ++ a ++ b ++ 1#3 ++ g.g ++ BitVec.ofBool g.n)
  | .fmul d a b g => some (18#7 ++ d ++ a ++ b ++ 2#3 ++ g.g ++ BitVec.ofBool g.n)
  | .fmac d a b g => some (18#7 ++ d ++ a ++ b ++ 3#3 ++ g.g ++ BitVec.ofBool g.n)
  | .fmsc d a b g => some (18#7 ++ d ++ a ++ b ++ 4#3 ++ g.g ++ BitVec.ofBool g.n)
  | .fnmac d a b g => some (18#7 ++ d ++ a ++ b ++ 5#3 ++ g.g ++ BitVec.ofBool g.n)
  | .fmin d a b g => some (18#7 ++ d ++ a ++ b ++ 6#3 ++ g.g ++ BitVec.ofBool g.n)
  | .fmax d a b g => some (18#7 ++ d ++ a ++ b ++ 7#3 ++ g.g ++ BitVec.ofBool g.n)
  | .fabs d a g => some (19#7 ++ d ++ a ++ 0#9 ++ g.g ++ BitVec.ofBool g.n)
  | .fneg d a g => some (19#7 ++ d ++ a ++ 1#9 ++ g.g ++ BitVec.ofBool g.n)
  | .fcopysign d a b g => some (19#7 ++ d ++ a ++ b ++ 2#3 ++ g.g ++ BitVec.ofBool g.n)
  | .fclass d a g => some (19#7 ++ d ++ a ++ 3#9 ++ g.g ++ BitVec.ofBool g.n)
  | .frint d a g => some (19#7 ++ d ++ a ++ 4#9 ++ g.g ++ BitVec.ofBool g.n)
  | .ffloor d a g => some (19#7 ++ d ++ a ++ 5#9 ++ g.g ++ BitVec.ofBool g.n)
  | .fceil d a g => some (19#7 ++ d ++ a ++ 6#9 ++ g.g ++ BitVec.ofBool g.n)
  | .ftrunc d a g => some (19#7 ++ d ++ a ++ 7#9 ++ g.g ++ BitVec.ofBool g.n)
  | .feq m p a b g => some (20#7 ++ m ++ p ++ a ++ b ++ 0#3 ++ g.g ++ BitVec.ofBool g.n)
  | .fne m p a b g => some (20#7 ++ m ++ p ++ a ++ b ++ 1#3 ++ g.g ++ BitVec.ofBool g.n)
  | .flt m p a b g => some (20#7 ++ m ++ p ++ a ++ b ++ 2#3 ++ g.g ++ BitVec.ofBool g.n)
  | .fle m p a b g => some (20#7 ++ m ++ p ++ a ++ b ++ 3#3 ++ g.g ++ BitVec.ofBool g.n)
  | .fgt m p a b g => some (20#7 ++ m ++ p ++ a ++ b ++ 4#3 ++ g.g ++ BitVec.ofBool g.n)
  | .fge m p a b g => some (20#7 ++ m ++ p ++ a ++ b ++ 5#3 ++ g.g ++ BitVec.ofBool g.n)
  | .fun m p a b g => some (20#7 ++ m ++ p ++ a ++ b ++ 6#3 ++ g.g ++ BitVec.ofBool g.n)
  | .ford m p a b g => some (20#7 ++ m ++ p ++ a ++ b ++ 7#3 ++ g.g ++ BitVec.ofBool g.n)
  | .addBf16x2 d a b g => some (21#7 ++ d ++ a ++ b ++ 0#3 ++ g.g ++ BitVec.ofBool g.n)
  | .mulBf16x2 d a b g => some (21#7 ++ d ++ a ++ b ++ 1#3 ++ g.g ++ BitVec.ofBool g.n)
  | .fmacBf16x2 d a b g => some (21#7 ++ d ++ a ++ b ++ 2#3 ++ g.g ++ BitVec.ofBool g.n)
  | .addF16x2 d a b g => some (21#7 ++ d ++ a ++ b ++ 3#3 ++ g.g ++ BitVec.ofBool g.n)
  | .mulF16x2 d a b g => some (21#7 ++ d ++ a ++ b ++ 4#3 ++ g.g ++ BitVec.ofBool g.n)
  | .fmacF16x2 d a b g => some (21#7 ++ d ++ a ++ b ++ 5#3 ++ g.g ++ BitVec.ofBool g.n)
  | .minBf16x2 d a b g => some (21#7 ++ d ++ a ++ b ++ 6#3 ++ g.g ++ BitVec.ofBool g.n)
  | .maxBf16x2 d a b g => some (21#7 ++ d ++ a ++ b ++ 7#3 ++ g.g ++ BitVec.ofBool g.n)
  | .addE4m3x4 d a b g => some (22#7 ++ d ++ a ++ b ++ 0#3 ++ g.g ++ BitVec.ofBool g.n)
  | .mulE4m3x4 d a b g => some (22#7 ++ d ++ a ++ b ++ 1#3 ++ g.g ++ BitVec.ofBool g.n)
  | .addE5m2x4 d a b g => some (22#7 ++ d ++ a ++ b ++ 2#3 ++ g.g ++ BitVec.ofBool g.n)
  | .mulE5m2x4 d a b g => some (22#7 ++ d ++ a ++ b ++ 3#3 ++ g.g ++ BitVec.ofBool g.n)
  | .dot4E4m3 d a b g => some (22#7 ++ d ++ a ++ b ++ 4#3 ++ g.g ++ BitVec.ofBool g.n)
  | .dot4E5m2 d a b g => some (22#7 ++ d ++ a ++ b ++ 5#3 ++ g.g ++ BitVec.ofBool g.n)
  | .maxE4m3x4 d a b g => some (22#7 ++ d ++ a ++ b ++ 6#3 ++ g.g ++ BitVec.ofBool g.n)
  | .minE4m3x4 d a b g => some (22#7 ++ d ++ a ++ b ++ 7#3 ++ g.g ++ BitVec.ofBool g.n)
  | .cvtF32I32 d a g => some (23#7 ++ d ++ a ++ 0#9 ++ g.g ++ BitVec.ofBool g.n)
  | .cvtF32N32 d a g => some (23#7 ++ d ++ a ++ 1#9 ++ g.g ++ BitVec.ofBool g.n)
  | .cvtI32F32 d a g => some (23#7 ++ d ++ a ++ 2#9 ++ g.g ++ BitVec.ofBool g.n)
  | .cvtN32F32 d a g => some (23#7 ++ d ++ a ++ 3#9 ++ g.g ++ BitVec.ofBool g.n)
  | .cvtBf16x2F32 d a b g => some (23#7 ++ d ++ a ++ b ++ 4#3 ++ g.g ++ BitVec.ofBool g.n)
  | .cvtF16x2F32 d a b g => some (23#7 ++ d ++ a ++ b ++ 5#3 ++ g.g ++ BitVec.ofBool g.n)
  | .cvtF32Bf16 d a g => some (23#7 ++ d ++ a ++ 6#9 ++ g.g ++ BitVec.ofBool g.n)
  | .cvtF32F16 d a g => some (23#7 ++ d ++ a ++ 7#9 ++ g.g ++ BitVec.ofBool g.n)
  | .cvtE4m3F32 d a g => some (24#7 ++ d ++ a ++ 0#9 ++ g.g ++ BitVec.ofBool g.n)
  | .cvtE5m2F32 d a g => some (24#7 ++ d ++ a ++ 1#9 ++ g.g ++ BitVec.ofBool g.n)
  | .cvtF32E4m3 d a g => some (24#7 ++ d ++ a ++ 2#9 ++ g.g ++ BitVec.ofBool g.n)
  | .cvtF32E5m2 d a g => some (24#7 ++ d ++ a ++ 3#9 ++ g.g ++ BitVec.ofBool g.n)
  | .cvtF32E2m1 d a g => some (24#7 ++ d ++ a ++ 4#9 ++ g.g ++ BitVec.ofBool g.n)
  | .cvtF32E2m3 d a g => some (24#7 ++ d ++ a ++ 5#9 ++ g.g ++ BitVec.ofBool g.n)
  | .cvtF32E3m2 d a g => some (24#7 ++ d ++ a ++ 6#9 ++ g.g ++ BitVec.ofBool g.n)
  | .cvtF32Int4 d a g => some (24#7 ++ d ++ a ++ 7#9 ++ g.g ++ BitVec.ofBool g.n)
  | .qamax16 d a la => some (25#7 ++ d ++ a ++ 0#9 ++ la)
  | .qamax32 d a la => some (25#7 ++ d ++ a ++ 1#9 ++ la)
  | .qscale d a la => some (25#7 ++ d ++ a ++ 2#9 ++ la)
  | .qcvt d a b la => some (25#7 ++ d ++ a ++ b ++ 3#3 ++ la)
  | .qdeq d a b la => some (25#7 ++ d ++ a ++ b ++ 4#3 ++ la)
  | .qesc d a la => some (25#7 ++ d ++ a ++ 5#9 ++ la)
  | .qside d a b la => some (25#7 ++ d ++ a ++ b ++ 6#3 ++ la)
  | .frcp d a la => some (26#7 ++ d ++ a ++ 0#9 ++ la)
  | .frsq d a la => some (26#7 ++ d ++ a ++ 1#9 ++ la)
  | .fsqrt d a la => some (26#7 ++ d ++ a ++ 2#9 ++ la)
  | .fexp2 d a la => some (26#7 ++ d ++ a ++ 3#9 ++ la)
  | .flog2 d a la => some (26#7 ++ d ++ a ++ 4#9 ++ la)
  | .fsinpi d a la => some (26#7 ++ d ++ a ++ 5#9 ++ la)
  | .fcospi d a la => some (26#7 ++ d ++ a ++ 6#9 ++ la)
  | .fdiv d a b la => some (26#7 ++ d ++ a ++ b ++ 7#3 ++ la)
  | .divI32 d a b la => some (27#7 ++ d ++ a ++ b ++ 0#3 ++ la)
  | .divN32 d a b la => some (27#7 ++ d ++ a ++ b ++ 1#3 ++ la)
  | .remI32 d a b la => some (27#7 ++ d ++ a ++ b ++ 2#3 ++ la)
  | .remN32 d a b la => some (27#7 ++ d ++ a ++ b ++ 3#3 ++ la)
  | .lpick d a b la => some (28#7 ++ d ++ a ++ b ++ 0#3 ++ la)
  | .lslide d a b la => some (28#7 ++ d ++ a ++ b ++ 1#3 ++ la)
  | .lrot d a b la => some (28#7 ++ d ++ a ++ b ++ 2#3 ++ la)
  | .lswap d a b la => some (28#7 ++ d ++ a ++ b ++ 3#3 ++ la)
  | .lbits d a la => some (28#7 ++ d ++ a ++ 4#9 ++ la)
  | .lall d a la => some (28#7 ++ d ++ a ++ 5#9 ++ la)
  | .redaddI32 d a la => some (28#7 ++ d ++ a ++ 6#9 ++ la)
  | .redmaxI32 d a la => some (28#7 ++ d ++ a ++ 7#9 ++ la)
  | .vtrn8 d la => some (29#7 ++ d ++ 0#15 ++ la)
  | .vtrn16 d la => some (29#7 ++ d ++ 1#15 ++ la)
  | .vtrn32 d la => some (29#7 ++ d ++ 2#15 ++ la)
  | .xsend d a => some (29#7 ++ d ++ a ++ 48#13)
  | .xrecv d a => some (29#7 ++ d ++ a ++ 64#13)
  | .xsend64 d a => some (29#7 ++ d ++ a ++ 80#13)
  | .xrecv64 d a => some (29#7 ++ d ++ a ++ 96#13)
  | .cmul d a b la => some (30#7 ++ d ++ a ++ b ++ 0#3 ++ la)
  | .cmac d a b la => some (30#7 ++ d ++ a ++ b ++ 1#3 ++ la)
  | .cmulc d a b la => some (30#7 ++ d ++ a ++ b ++ 2#3 ++ la)
  | .cmacc d a b la => some (30#7 ++ d ++ a ++ b ++ 3#3 ++ la)
  | .cadd d a b la => some (30#7 ++ d ++ a ++ b ++ 4#3 ++ la)
  | .movs d a g => some (31#7 ++ d ++ a ++ 0#9 ++ g.g ++ BitVec.ofBool g.n)
  | .ldI8 d a o la => some (32#7 ++ d ++ a ++ o ++ 0#3 ++ la)
  | .ldN8 d a o la => some (32#7 ++ d ++ a ++ o ++ 1#3 ++ la)
  | .ldI16 d a o la => some (32#7 ++ d ++ a ++ o ++ 2#3 ++ la)
  | .ldN16 d a o la => some (32#7 ++ d ++ a ++ o ++ 3#3 ++ la)
  | .ld32 d a o la => some (32#7 ++ d ++ a ++ o ++ 4#3 ++ la)
  | .ld64 d a o la => some (32#7 ++ d ++ a ++ o ++ 5#3 ++ la)
  | .ld128 d a o la => some (32#7 ++ d ++ a ++ o ++ 6#3 ++ la)
  | .ldNt128 d a o la => some (32#7 ++ d ++ a ++ o ++ 7#3 ++ la)
  | .ldt32 d t o la => some (33#7 ++ d ++ t ++ o ++ 0#3 ++ la)
  | .ldt64 d t o la => some (33#7 ++ d ++ t ++ o ++ 1#3 ++ la)
  | .ldt128 d t o la => some (33#7 ++ d ++ t ++ o ++ 2#3 ++ la)
  | .ldtSdb d t o la => some (33#7 ++ d ++ t ++ o ++ 3#3 ++ la)
  | .ldtI8 d t o la => some (33#7 ++ d ++ t ++ o ++ 4#3 ++ la)
  | .ldtN8 d t o la => some (33#7 ++ d ++ t ++ o ++ 5#3 ++ la)
  | .ldtI16 d t o la => some (33#7 ++ d ++ t ++ o ++ 6#3 ++ la)
  | .ldtN16 d t o la => some (33#7 ++ d ++ t ++ o ++ 7#3 ++ la)
  | .st8 sr a o c g => some (34#7 ++ sr ++ a ++ o ++ c ++ 0#3 ++ g)
  | .st16 sr a o c g => some (34#7 ++ sr ++ a ++ o ++ c ++ 1#3 ++ g)
  | .st32 sr a o c g => some (34#7 ++ sr ++ a ++ o ++ c ++ 2#3 ++ g)
  | .st64 sr a o c g => some (34#7 ++ sr ++ a ++ o ++ c ++ 3#3 ++ g)
  | .st128 sr a o c g => some (34#7 ++ sr ++ a ++ o ++ c ++ 4#3 ++ g)
  | .stNt128 sr a o c g => some (34#7 ++ sr ++ a ++ o ++ c ++ 5#3 ++ g)
  | .sdbst sr a o c g => some (34#7 ++ sr ++ a ++ o ++ c ++ 6#3 ++ g)
  | .stt32 sr t x c g => some (35#7 ++ sr ++ t ++ x ++ c ++ g.g ++ BitVec.ofBool g.n)
  | .stt64 sr t x c g => some (36#7 ++ sr ++ t ++ x ++ c ++ g.g ++ BitVec.ofBool g.n)
  | .stt128 sr t x c g => some (37#7 ++ sr ++ t ++ x ++ c ++ g.g ++ BitVec.ofBool g.n)
  | .aadd d a b la => some (38#7 ++ d ++ a ++ b ++ 0#3 ++ la)
  | .aminI32 d a b la => some (38#7 ++ d ++ a ++ b ++ 1#3 ++ la)
  | .amaxI32 d a b la => some (38#7 ++ d ++ a ++ b ++ 2#3 ++ la)
  | .aminN32 d a b la => some (38#7 ++ d ++ a ++ b ++ 3#3 ++ la)
  | .amaxN32 d a b la => some (38#7 ++ d ++ a ++ b ++ 4#3 ++ la)
  | .aand d a b la => some (38#7 ++ d ++ a ++ b ++ 5#3 ++ la)
  | .aor d a b la => some (38#7 ++ d ++ a ++ b ++ 6#3 ++ la)
  | .axor d a b la => some (38#7 ++ d ++ a ++ b ++ 7#3 ++ la)
  | .aaddSys d a b la => some (39#7 ++ d ++ a ++ b ++ 0#3 ++ la)
  | .aminI32Sys d a b la => some (39#7 ++ d ++ a ++ b ++ 1#3 ++ la)
  | .amaxI32Sys d a b la => some (39#7 ++ d ++ a ++ b ++ 2#3 ++ la)
  | .aminN32Sys d a b la => some (39#7 ++ d ++ a ++ b ++ 3#3 ++ la)
  | .amaxN32Sys d a b la => some (39#7 ++ d ++ a ++ b ++ 4#3 ++ la)
  | .aandSys d a b la => some (39#7 ++ d ++ a ++ b ++ 5#3 ++ la)
  | .aorSys d a b la => some (39#7 ++ d ++ a ++ b ++ 6#3 ++ la)
  | .axorSys d a b la => some (39#7 ++ d ++ a ++ b ++ 7#3 ++ la)
  | .axch d a b la => some (40#7 ++ d ++ a ++ b ++ 0#3 ++ la)
  | .acas d a b la => some (40#7 ++ d ++ a ++ b ++ 1#3 ++ la)
  | .aadd64 d a b la => some (40#7 ++ d ++ a ++ b ++ 2#3 ++ la)
  | .axch64 d a b la => some (40#7 ++ d ++ a ++ b ++ 3#3 ++ la)
  | .acas64 d a b la => some (40#7 ++ d ++ a ++ b ++ 4#3 ++ la)
  | .afadd d a b la => some (40#7 ++ d ++ a ++ b ++ 5#3 ++ la)
  | .afaddBf16x2 d a b la => some (40#7 ++ d ++ a ++ b ++ 6#3 ++ la)
  | .aincw d a b la => some (40#7 ++ d ++ a ++ b ++ 7#3 ++ la)
  | .scall d a b la => some (41#7 ++ d ++ a ++ b ++ 0#3 ++ la)
  | .fcall d a b la => some (41#7 ++ d ++ a ++ b ++ 1#3 ++ la)
  | .uadd d a b g => some (65#7 ++ d ++ a ++ b ++ 0#3 ++ g.g ++ BitVec.ofBool g.n)
  | .usub d a b g => some (65#7 ++ d ++ a ++ b ++ 1#3 ++ g.g ++ BitVec.ofBool g.n)
  | .umul d a b g => some (65#7 ++ d ++ a ++ b ++ 2#3 ++ g.g ++ BitVec.ofBool g.n)
  | .uand d a b g => some (65#7 ++ d ++ a ++ b ++ 3#3 ++ g.g ++ BitVec.ofBool g.n)
  | .uor d a b g => some (65#7 ++ d ++ a ++ b ++ 4#3 ++ g.g ++ BitVec.ofBool g.n)
  | .uxor d a b g => some (65#7 ++ d ++ a ++ b ++ 5#3 ++ g.g ++ BitVec.ofBool g.n)
  | .ushl d a b g => some (65#7 ++ d ++ a ++ b ++ 6#3 ++ g.g ++ BitVec.ofBool g.n)
  | .ushr d a b g => some (65#7 ++ d ++ a ++ b ++ 7#3 ++ g.g ++ BitVec.ofBool g.n)
  | .usra d a b g => some (66#7 ++ d ++ a ++ b ++ 0#3 ++ g.g ++ BitVec.ofBool g.n)
  | .uminI32 d a b g => some (66#7 ++ d ++ a ++ b ++ 1#3 ++ g.g ++ BitVec.ofBool g.n)
  | .umaxI32 d a b g => some (66#7 ++ d ++ a ++ b ++ 2#3 ++ g.g ++ BitVec.ofBool g.n)
  | .uminN32 d a b g => some (66#7 ++ d ++ a ++ b ++ 3#3 ++ g.g ++ BitVec.ofBool g.n)
  | .umaxN32 d a b g => some (66#7 ++ d ++ a ++ b ++ 4#3 ++ g.g ++ BitVec.ofBool g.n)
  | .umulhiN32 d a b g => some (66#7 ++ d ++ a ++ b ++ 5#3 ++ g.g ++ BitVec.ofBool g.n)
  | .uadd64 d a b g => some (66#7 ++ d ++ a ++ b ++ 6#3 ++ g.g ++ BitVec.ofBool g.n)
  | .usub64 d a b g => some (66#7 ++ d ++ a ++ b ++ 7#3 ++ g.g ++ BitVec.ofBool g.n)
  | .uaddi d a im => some (67#7 ++ d ++ a ++ im)
  | .umovi d im => some (68#7 ++ d ++ im)
  | .umovh d im => some (69#7 ++ d ++ im)
  | .ueq m p a b g => some (70#7 ++ m ++ p ++ a ++ b ++ 0#3 ++ g.g ++ BitVec.ofBool g.n)
  | .une m p a b g => some (70#7 ++ m ++ p ++ a ++ b ++ 1#3 ++ g.g ++ BitVec.ofBool g.n)
  | .ultI32 m p a b g => some (70#7 ++ m ++ p ++ a ++ b ++ 2#3 ++ g.g ++ BitVec.ofBool g.n)
  | .uleI32 m p a b g => some (70#7 ++ m ++ p ++ a ++ b ++ 3#3 ++ g.g ++ BitVec.ofBool g.n)
  | .ugtI32 m p a b g => some (70#7 ++ m ++ p ++ a ++ b ++ 4#3 ++ g.g ++ BitVec.ofBool g.n)
  | .ugeI32 m p a b g => some (70#7 ++ m ++ p ++ a ++ b ++ 5#3 ++ g.g ++ BitVec.ofBool g.n)
  | .ultN32 m p a b g => some (70#7 ++ m ++ p ++ a ++ b ++ 6#3 ++ g.g ++ BitVec.ofBool g.n)
  | .ugeN32 m p a b g => some (70#7 ++ m ++ p ++ a ++ b ++ 7#3 ++ g.g ++ BitVec.ofBool g.n)
  | .ldl32 d dp la => some (71#7 ++ d ++ dp ++ la)
  | .ldl64 d dp la => some (72#7 ++ d ++ dp ++ la)
  | .ldl128 d dp la => some (73#7 ++ d ++ dp ++ la)
  | .bra g dp => some (74#7 ++ g.g ++ BitVec.ofBool g.n ++ dp)
  | .call g dp => some (75#7 ++ g.g ++ BitVec.ofBool g.n ++ dp)
  | .ret g => some (159383552#28 ++ g.g ++ BitVec.ofBool g.n)
  | .jmpr a g => some (4864#13 ++ a ++ 1#9 ++ g.g ++ BitVec.ofBool g.n)
  | .callr a g => some (4864#13 ++ a ++ 2#9 ++ g.g ++ BitVec.ofBool g.n)
  | .exit g => some (159383555#28 ++ g.g ++ BitVec.ofBool g.n)
  | .trap a g => some (4864#13 ++ a ++ 4#9 ++ g.g ++ BitVec.ofBool g.n)
  | .nop g => some (159383557#28 ++ g.g ++ BitVec.ofBool g.n)
  | .divif g dp => some (77#7 ++ g.g ++ BitVec.ofBool g.n ++ dp)
  | .divelse dp => some (1248#11 ++ dp)
  | .divjoin => some (2650800128#32)
  | .divloop g dp => some (80#7 ++ g.g ++ BitVec.ofBool g.n ++ dp)
  | .fence c sr k la => some (81#7 ++ c ++ sr ++ k ++ la ++ 0#6)
  | .divbrk g dp => some (82#7 ++ g.g ++ BitVec.ofBool g.n ++ dp)
  | .barWg g => some (174063616#28 ++ g.g ++ BitVec.ofBool g.n)
  | .barReel g => some (174063617#28 ++ g.g ++ BitVec.ofBool g.n)
  | .signal a b g => some (5312#13 ++ a ++ b ++ 2#3 ++ g.g ++ BitVec.ofBool g.n)
  | .yield g => some (174063619#28 ++ g.g ++ BitVec.ofBool g.n)
  | .backoff k a g => some (664#10 ++ k ++ a ++ 4#9 ++ g.g ++ BitVec.ofBool g.n)
  | .regclaim a g => some (5312#13 ++ a ++ 5#9 ++ g.g ++ BitVec.ofBool g.n)
  | .reggive a g => some (5312#13 ++ a ++ 6#9 ++ g.g ++ BitVec.ofBool g.n)
  | .waitv d a b g => some (83#7 ++ d ++ a ++ b ++ 7#3 ++ g.g ++ BitVec.ofBool g.n)
  | .tfree a g => some (5376#13 ++ a ++ 0#9 ++ g.g ++ BitVec.ofBool g.n)
  | .tstate d a g => some (84#7 ++ d ++ a ++ 1#9 ++ g.g ++ BitVec.ofBool g.n)
  | .tbind d a b g => some (84#7 ++ d ++ a ++ b ++ 2#3 ++ g.g ++ BitVec.ofBool g.n)
  | .ttag d a b g => some (84#7 ++ d ++ a ++ b ++ 3#3 ++ g.g ++ BitVec.ofBool g.n)
  | .tdom d a b g => some (84#7 ++ d ++ a ++ b ++ 4#3 ++ g.g ++ BitVec.ofBool g.n)
  | .bpost a b g => some (5440#13 ++ a ++ b ++ 0#3 ++ g.g ++ BitVec.ofBool g.n)
  | .bpostw d a b g => some (85#7 ++ d ++ a ++ b ++ 1#3 ++ g.g ++ BitVec.ofBool g.n)
  | .kwait a g => some (5440#13 ++ a ++ 2#9 ++ g.g ++ BitVec.ofBool g.n)
  | .kpoll d a g => some (85#7 ++ d ++ a ++ 3#9 ++ g.g ++ BitVec.ofBool g.n)
  | .mldb d a b g => some (86#7 ++ d ++ a ++ b ++ 0#3 ++ g.g ++ BitVec.ofBool g.n)
  | .mloop d a g => some (86#7 ++ d ++ a ++ 1#9 ++ g.g ++ BitVec.ofBool g.n)
  | .mzero d a g => some (86#7 ++ d ++ a ++ 2#9 ++ g.g ++ BitVec.ofBool g.n)
  | .mwait d a g => some (86#7 ++ d ++ a ++ 3#9 ++ g.g ++ BitVec.ofBool g.n)
  | .mst d a g => some (86#7 ++ d ++ a ++ 4#9 ++ g.g ++ BitVec.ofBool g.n)
  | .mld d a g => some (86#7 ++ d ++ a ++ 5#9 ++ g.g ++ BitVec.ofBool g.n)
  | .mpoll d g => some (86#7 ++ d ++ 6#15 ++ g.g ++ BitVec.ofBool g.n)
  | .mabort d a g => some (86#7 ++ d ++ a ++ 7#9 ++ g.g ++ BitVec.ofBool g.n)
  | .xfwd d a g => some (87#7 ++ d ++ a ++ 0#9 ++ g.g ++ BitVec.ofBool g.n)
  | .xinv d a g => some (87#7 ++ d ++ a ++ 1#9 ++ g.g ++ BitVec.ofBool g.n)
  | .ntail d a b g => some (88#7 ++ d ++ a ++ b ++ 0#3 ++ g.g ++ BitVec.ofBool g.n)
  | .nseq d a g => some (88#7 ++ d ++ a ++ 1#9 ++ g.g ++ BitVec.ofBool g.n)
  | .nwait a b g => some (5632#13 ++ a ++ b ++ 2#3 ++ g.g ++ BitVec.ofBool g.n)
  | .launch d a b g => some (89#7 ++ d ++ a ++ b ++ 0#3 ++ g.g ++ BitVec.ofBool g.n)
  | .lwait a b g => some (5696#13 ++ a ++ b ++ 1#3 ++ g.g ++ BitVec.ofBool g.n)
  | .lseq d b g => some (89#7 ++ d ++ 0#6 ++ b ++ 2#3 ++ g.g ++ BitVec.ofBool g.n)
  | .usr d a g => some (90#7 ++ d ++ a ++ 0#9 ++ g.g ++ BitVec.ofBool g.n)
  | .uwr a b g => some (5760#13 ++ a ++ b ++ 1#3 ++ g.g ++ BitVec.ofBool g.n)
  | .vform d a g => some (90#7 ++ d ++ a ++ 2#9 ++ g.g ++ BitVec.ofBool g.n)
  | .poolpop d g => some (91#7 ++ d ++ 0#15 ++ g.g ++ BitVec.ofBool g.n)
  | .tlbinvVa a g => some (5824#13 ++ a ++ 1#9 ++ g.g ++ BitVec.ofBool g.n)
  | .tlbinvAsid g => some (190840834#28 ++ g.g ++ BitVec.ofBool g.n)
  | .eret g => some (190840835#28 ++ g.g ++ BitVec.ofBool g.n)
  | .eretEsc g => some (190841347#28 ++ g.g ++ BitVec.ofBool g.n)
  | .rdfault d a g => some (91#7 ++ d ++ a ++ 4#9 ++ g.g ++ BitVec.ofBool g.n)
  | .brk a g => some (5888#13 ++ a ++ 0#9 ++ g.g ++ BitVec.ofBool g.n)
  | .mark a g => some (5888#13 ++ a ++ 1#9 ++ g.g ++ BitVec.ofBool g.n)
  | .bellowsAdd d a b => some (1#6 ++ d ++ a ++ b ++ 0#14)
  | .bellowsSub d a b => some (2#6 ++ d ++ a ++ b ++ 0#14)
  | .bellowsAnd d a b => some (3#6 ++ d ++ a ++ b ++ 0#14)
  | .bellowsOr d a b => some (4#6 ++ d ++ a ++ b ++ 0#14)
  | .bellowsXor d a b => some (5#6 ++ d ++ a ++ b ++ 0#14)
  | .bellowsShl d a b => some (6#6 ++ d ++ a ++ b ++ 0#14)
  | .bellowsShr d a b => some (7#6 ++ d ++ a ++ b ++ 0#14)
  | .bellowsMul d a b => some (8#6 ++ d ++ a ++ b ++ 0#14)
  | .bellowsAddi d a im => some (9#6 ++ d ++ a ++ 0#4 ++ im)
  | .bellowsMovi d im => some (10#6 ++ d ++ 0#8 ++ im)
  | .insh d im => some (11#6 ++ d ++ 0#8 ++ im)
  | .beq a b im => some (256#10 ++ a ++ b ++ im)
  | .bne a b im => some (272#10 ++ a ++ b ++ im)
  | .bltu a b im => some (288#10 ++ a ++ b ++ im)
  | .bgeu a b im => some (304#10 ++ a ++ b ++ im)
  | .jmp im => some (81920#18 ++ im)
  | .jr a => some (336#10 ++ a ++ 0#18)
  | .bellowsLd d a o => some (24#6 ++ d ++ a ++ 0#5 ++ o)
  | .bellowsLdG d a o => some (24#6 ++ d ++ a ++ 1#5 ++ o)
  | .bellowsSt a b o => some (400#10 ++ a ++ b ++ 0#1 ++ o)
  | .bellowsStG a b o => some (400#10 ++ a ++ b ++ 1#1 ++ o)
  | .recv d a => some (32#6 ++ d ++ a ++ 0#18)
  | .copy d a b len => some (33#6 ++ d ++ a ++ b ++ 0#1 ++ len)
  | .copyDesc d a b p => some (33#6 ++ d ++ a ++ b ++ 16#5 ++ p)
  | .copyt d a b len => some (34#6 ++ d ++ a ++ b ++ 0#1 ++ len)
  | .copytDesc d a b p => some (34#6 ++ d ++ a ++ b ++ 16#5 ++ p)
  | .gath d a b p => some (35#6 ++ d ++ a ++ b ++ 16#5 ++ p)
  | .scat d a b p => some (36#6 ++ d ++ a ++ b ++ 16#5 ++ p)
  | .deco d a b p => some (37#6 ++ d ++ a ++ b ++ 16#5 ++ p)
  | .ldct d a => some (38#6 ++ d ++ a ++ 0#18)
  | .tsetClose d a => some (39#6 ++ d ++ a ++ 0#18)
  | .tsetTag d a => some (39#6 ++ d ++ a ++ 0#18)
  | .fenceb => some (2684354560#32)
  | .waitc d m => some (41#6 ++ d ++ 0#14 ++ m)
  | .stat d im => some (42#6 ++ d ++ 0#8 ++ im)
  | .resume d sl => some (43#6 ++ d ++ 0#19 ++ sl)
  | .resumeDrop d sl => some (43#6 ++ d ++ 1#19 ++ sl)
  | .halt => some (2952790016#32)
  | .bellowsIssueResume _ => none
  | .bellowsCopyComplete _ _ => none
  | .copyFaultStop _ _ => none
  | .matrixOpStart _ _ => none
  | .matrixOpComplete _ _ => none
  | .matrixOpFault _ _ => none
  | .transformStart _ => none
  | .transformComplete _ => none
  | .transformFail _ _ => none
  | .netRequestRead _ => none
  | .netRequestStart _ _ => none
  | .netRequestComplete _ _ => none
  | .netAckReceive _ _ _ _ _ => none
  | .uetPacketReceive _ _ => none
  | .uetRetransmitTimeout _ _ _ => none
  | .sendRetry _ _ => none
  | .incomingPut _ => none
  | .incomingPutadd _ => none
  | .incomingGet _ => none
  | .incomingSend _ => none
  | .peerAccessRequest _ _ => none
  | .kazidPortLost _ => none
  | .lqappWrite _ _ _ => none
  | .lqcfgWrite _ _ _ => none
  | .lqendWrite _ _ _ => none
  | .launchHeadCheck _ => none
  | .launchAdmit _ => none
  | .reelPlace _ _ _ _ _ => none
  | .placerBackoffExpiry _ => none
  | .reelPreempt _ => none
  | .reelRestore _ _ => none
  | .priorityAgeing _ => none
  | .launchComplete _ _ => none
  | .frameReclaim _ _ => none
  | .stokerFaultResolve _ _ => none
  | .poolRefill _ => none
  | .migrationStart _ _ _ => none
  | .migrationSwitch _ _ => none
  | .migrationAbort _ _ => none
  | .compressPage _ _ => none
  | .shootdownEcho _ _ _ => none
  | .hostRead _ _ _ _ => none
  | .hostWrite _ _ _ _ => none
  | .ldBind _ => none
  | .ldUnbind _ => none
  | .hostReset _ => none
  | .ldctlWrite _ _ _ => none
  | .evheadWrite _ _ _ => none
  | .sqheadWrite _ _ _ => none
  | .prreply _ _ => none
  | .map _ _ => none
  | .unmap _ _ => none
  | .back _ _ => none
  | .desc _ _ => none
  | .asid _ _ => none
  | .freeasid _ _ => none
  | .land _ _ => none
  | .apert _ _ => none
  | .apfree _ _ => none
  | .corereset _ _ => none
  | .hearthreset _ _ _ => none
  | .clmask _ _ => none
  | .starthart _ _ => none
  | .scrub _ _ => none
  | .obswrite _ _ => none
  | .errread _ _ => none
  | .extend _ _ => none
  | .cfgwrite _ _ => none
  | .getVersion _ _ => none
  | .getCapabilities _ _ => none
  | .negotiateAlgorithms _ _ => none
  | .getDigests _ _ => none
  | .getCertificate _ _ => none
  | .challenge _ _ => none
  | .getMeasurements _ _ _ => none
  | .keyExchange _ _ => none
  | .finish _ _ _ => none
  | .endSession _ _ _ => none
  | .keyUpdate _ _ _ => none
  | .heartbeat _ _ _ => none
  | .keygen _ _ _ _ => none
  | .keydel _ _ _ _ => none
  | .spdmUnsupportedRequest _ _ => none
  | .identifyMemoryDevice _ => none
  | .getHealthInfo _ => none
  | .dbgStop _ => none
  | .dbgResume _ => none
  | .dbgStep _ _ => none
  | .partitionStopTakeEffect _ => none
  | .stallSample _ => none
  | .coreDump _ => none
  | .registerWrite _ _ _ => none
  | .meteringInterval _ _ _ _ => none
  | .peerStoreAcknowledge _ => none
  | .backInvalidateResponse _ _ => none
  | .firmwareUpdate _ => none

/-- Decode a Delmer word (R104, R105): the instruction, or the lowest reason code that applies (0 for the trailer). -/
noncomputable def decode (w : Word) : Except Nat Instr :=
  if isTrailer w then .error 0
  else
    match identify w with
    | .error r => .error r
    | .ok i =>
      match Machine.lowest [Machine.fieldReason i, if encode i = some w then 0 else 6] with
      | 0 => .ok i
      | r => .error r

/-- Which instruction a Bellows word is (Table 12.2), by its opcode alone; unused fields are looked at in `decodeBellows`. -/
noncomputable def identifyBellows (w : Word) : Option Instr :=
  match (bits w 26 6).toNat with
  | 0x01 => some (.bellowsAdd (bits w 22 4) (bits w 18 4) (bits w 14 4))
  | 0x02 => some (.bellowsSub (bits w 22 4) (bits w 18 4) (bits w 14 4))
  | 0x03 => some (.bellowsAnd (bits w 22 4) (bits w 18 4) (bits w 14 4))
  | 0x04 => some (.bellowsOr (bits w 22 4) (bits w 18 4) (bits w 14 4))
  | 0x05 => some (.bellowsXor (bits w 22 4) (bits w 18 4) (bits w 14 4))
  | 0x06 => some (.bellowsShl (bits w 22 4) (bits w 18 4) (bits w 14 4))
  | 0x07 => some (.bellowsShr (bits w 22 4) (bits w 18 4) (bits w 14 4))
  | 0x08 => some (.bellowsMul (bits w 22 4) (bits w 18 4) (bits w 14 4))
  | 0x09 => some (.bellowsAddi (bits w 22 4) (bits w 18 4) (bits w 0 14))
  | 0x0A => some (.bellowsMovi (bits w 22 4) (bits w 0 14))
  | 0x0B => some (.insh (bits w 22 4) (bits w 0 14))
  | 0x10 => some (.beq (bits w 18 4) (bits w 14 4) (bits w 0 14))
  | 0x11 => some (.bne (bits w 18 4) (bits w 14 4) (bits w 0 14))
  | 0x12 => some (.bltu (bits w 18 4) (bits w 14 4) (bits w 0 14))
  | 0x13 => some (.bgeu (bits w 18 4) (bits w 14 4) (bits w 0 14))
  | 0x14 => some (.jmp (bits w 0 14))
  | 0x15 => some (.jr (bits w 18 4))
  | 0x18 => if w.getLsbD 13 then some (.bellowsLdG (bits w 22 4) (bits w 18 4) (bits w 0 13)) else some (.bellowsLd (bits w 22 4) (bits w 18 4) (bits w 0 13))
  | 0x19 => if w.getLsbD 13 then some (.bellowsStG (bits w 18 4) (bits w 14 4) (bits w 0 13)) else some (.bellowsSt (bits w 18 4) (bits w 14 4) (bits w 0 13))
  | 0x20 => some (.recv (bits w 22 4) (bits w 18 4))
  | 0x21 => if w.getLsbD 13 then some (.copyDesc (bits w 22 4) (bits w 18 4) (bits w 14 4) (bits w 0 9)) else some (.copy (bits w 22 4) (bits w 18 4) (bits w 14 4) (bits w 0 13))
  | 0x22 => if w.getLsbD 13 then some (.copytDesc (bits w 22 4) (bits w 18 4) (bits w 14 4) (bits w 0 9)) else some (.copyt (bits w 22 4) (bits w 18 4) (bits w 14 4) (bits w 0 13))
  | 0x23 => some (.gath (bits w 22 4) (bits w 18 4) (bits w 14 4) (bits w 0 9))
  | 0x24 => some (.scat (bits w 22 4) (bits w 18 4) (bits w 14 4) (bits w 0 9))
  | 0x25 => some (.deco (bits w 22 4) (bits w 18 4) (bits w 14 4) (bits w 0 9))
  | 0x26 => some (.ldct (bits w 22 4) (bits w 18 4))
  | 0x27 => some (.tsetClose (bits w 22 4) (bits w 18 4))
  | 0x28 => some (.fenceb)
  | 0x29 => some (.waitc (bits w 22 4) (bits w 0 8))
  | 0x2A => some (.stat (bits w 22 4) (bits w 0 14))
  | 0x2B => if w.getLsbD 3 then some (.resumeDrop (bits w 22 4) (bits w 0 3)) else some (.resume (bits w 22 4) (bits w 0 3))
  | 0x2C => some (.halt)
  | _ => none

/-- Decode a Bellows word: an illegal word (context fault cause 1) gives `none`. TSET's operation stands in a register (R231), so its one
word decodes to `tsetClose`; the context's step names it `tsetTag` where the register asks for operation 1. -/
noncomputable def decodeBellows (w : Word) : Option Instr :=
  match identifyBellows w with
  | some i => if encode i = some w then some i else none
  | none => none

/-- Bytes decode as one Delmer word, the first byte the lowest (R3, R90). -/
noncomputable def decodeBytes (bs : List Byte) : Except Nat Instr :=
  match bs with
  | [b0, b1, b2, b3] => decode (b3 ++ b2 ++ b1 ++ b0)
  | _ => .error 0x11

/-- The instruction of a table word: Delmer first; a word that is no Delmer instruction is read as the Bellows reads it (log entry 4). -/
noncomputable def decodeTableWord (nbits w : Nat) : Option Instr :=
  if nbits = 0 then none
  else
    match decode (BitVec.ofNat 32 w) with
    | .ok i => some i
    | .error _ => decodeBellows (BitVec.ofNat 32 w)

end Sys2Proof
end

