-- ==== Sys2Proof/Config.lean ====
section
/-! DEFINITION. What the spec leaves open. Every free value is an opaque constant without a body, applied to a plain
counter of the state (log entry 6), so nothing can evaluate it. -/

namespace Sys2Proof

/-- What has come to a port: a packet at its offset, a peer's GET, an access of a peer's team of a kind (R59, R336), an acknowledgement for a
request of this device, or one of a store to peer memory. -/
inductive Arrival where
  | packet (m : NetMsg) (off : Nat)
  | get (m : NetMsg)
  | peer (m : NetMsg) (kind : BitVec 8)
  | ack (ch pos off len : Nat) (st : BitVec 8)
  | stored (k : Nat)
  deriving DecidableEq, Repr

/-- Which agent moves next: an event, something held at a port that arrives again, a partition, a Bellows context, a matrix sequencer or
a transform unit making progress, the drain of a stored value still in a team's store buffer, or a migration copying a block. Then what
the spec gives no event of its own: a tenant reads the section of a frozen team of its own (R367), the Stoker writes a leaf for peer memory
(R337), an error in the Chimney's own state stops its core (R33), and a host's mailbox asks for what is not implemented (R7). -/
inductive Actor where
  | event (e : Instr)
  | arrival (a : Arrival)
  | partition (pt : Nat)
  | bellows (x : Nat)
  | copyUnit (x sl : Nat)
  | matrixStep (w op : Nat)
  | transformWrite (c : Nat)
  | drain (k n : Nat)
  | migrateBlock (ten gpa : Nat)
  | readSection (ld k : Nat)
  | peerLeaf (ten gpn peer land off : Nat)
  | chimneyError
  | unsupportedMailbox (ld op : Nat)
  deriving DecidableEq, Repr, Inhabited

/-- Free choice of the agent that moves when the agenda is empty (R72, R211, R298; log entry 1). -/
opaque Config.schedule : Nat → Actor
/-- A free word: the value of a register that the spec leaves unspecified (R80; log entry 6). -/
opaque Config.freeWord : Nat → BitVec 32
/-- A free choice between two permitted behaviours (R293, R294, R67; log entry 6). -/
opaque Config.freeBit : Nat → Bool
/-- Whether a port of the Kazid Link reaches a node: how the links are laid is not said (R341; log entry 6). -/
opaque Config.portReach : Nat → Nat → Bool
/-- A free number: an order that is not promised (R191), a random delay (R319), an image size (R303). -/
opaque Config.freeNat : Nat → Nat
/-- Free bytes: signatures, nonces and certificates of an SPDM response (R384). -/
opaque Config.freeBytes : Nat → List (BitVec 8)
/-- The 64-byte digest of a pair of numbers that a measurement register is extended with: an offset and its value, or a tenant and its
KTAG. What bytes are hashed is not said (R382; log entry 6). -/
opaque Config.digest : Nat → Nat → BitVec 512

end Sys2Proof
end

