-- ==== Sys2Proof/Machine/SMap.lean ====
section
/-! DEFINITION. Finite tables as lists of (key, value) pairs with strictly rising keys: the one form in which memory,
register files and tables of entities are held, so that equal contents are equal data. -/

namespace Sys2Proof.Machine

/-- A table from numbers: a list of pairs whose keys rise strictly (`Rising`). -/
abbrev SMap (α : Type) := List (Nat × α)

/-- The value at `k`. -/
def SMap.find? {α : Type} : SMap α → Nat → Option α
  | [], _ => none
  | (k', v) :: m, k => if k = k' then some v else SMap.find? m k

/-- Put `v` at `k`, in place. -/
def SMap.insert {α : Type} : SMap α → Nat → α → SMap α
  | [], k, v => [(k, v)]
  | (k', v') :: m, k, v =>
    if k < k' then (k, v) :: (k', v') :: m
    else if k = k' then (k, v) :: m
    else (k', v') :: SMap.insert m k v

/-- Remove every entry at `k`. -/
def SMap.erase {α : Type} : SMap α → Nat → SMap α
  | [], _ => []
  | (k', v') :: m, k => if k = k' then SMap.erase m k else (k', v') :: SMap.erase m k

/-- The value at `k`, `dflt` where nothing is listed. -/
def SMap.getD {α : Type} (m : SMap α) (k : Nat) (dflt : α) : α := (m.find? k).getD dflt

/-- Store `v` at `k`; a value equal to `dflt`, what an unlisted key reads as, is not listed. -/
def SMap.setD {α : Type} [DecidableEq α] (m : SMap α) (k : Nat) (v dflt : α) : SMap α :=
  if v = dflt then m.erase k else m.insert k v

/-- Apply `f` to the entry at `k`, if there is one. -/
def SMap.modify {α : Type} (m : SMap α) (k : Nat) (f : α → α) : SMap α :=
  match m.find? k with
  | some v => m.insert k (f v)
  | none => m

/-- The keys. -/
def SMap.keys {α : Type} (m : SMap α) : List Nat := m.map (·.1)
/-- The values. -/
def SMap.vals {α : Type} (m : SMap α) : List α := m.map (·.2)
/-- Whether `k` is listed. -/
def SMap.has {α : Type} (m : SMap α) (k : Nat) : Bool := (m.find? k).isSome

/-- Every key of the list is above `n` and the keys rise. -/
def SMap.risingFrom {α : Type} : Option Nat → SMap α → Bool
  | _, [] => true
  | none, (k, _) :: m => SMap.risingFrom (some k) m
  | some n, (k, _) :: m => decide (n < k) && SMap.risingFrom (some k) m

/-- The keys rise strictly. -/
def SMap.rising {α : Type} (m : SMap α) : Bool := SMap.risingFrom none m

/-- Memory: the bytes that differ from what an unlisted address reads as (`Memory.blank`), addresses rising. -/
abbrev Memory := List Host.Cell

/-- What a byte that nothing has written reads as: 0 (log entry 2). -/
def Memory.blank : Byte := 0

/-- One byte of memory. -/
def Memory.read (m : Memory) (a : Nat) : Byte := SMap.getD m a Memory.blank
/-- Write one byte, keeping the canonical form. -/
def Memory.write (m : Memory) (a : Nat) (b : Byte) : Memory := SMap.setD m a b Memory.blank

/-- The canonical form: addresses strictly rising, no byte equal to `Memory.blank` listed. -/
def Memory.wf (m : Memory) : Bool := SMap.rising m && m.all fun c => c.2 != Memory.blank

/-- The `n` bytes from `a`, the first at the lowest address. -/
def Memory.readN (m : Memory) (a : Nat) : Nat → List Byte
  | 0 => []
  | n + 1 => Memory.read m a :: Memory.readN m (a + 1) n

/-- Write `bs` from `a` on. -/
def Memory.writeN (m : Memory) (a : Nat) : List Byte → Memory
  | [] => m
  | b :: bs => Memory.writeN (Memory.write m a b) (a + 1) bs

/-- The number that bytes hold, the least significant first (R3). -/
def leNat : List Byte → Nat
  | [] => 0
  | b :: bs => b.toNat + 256 * leNat bs

/-- The `n` bytes of a number, the least significant first (R3). -/
def natLE : Nat → Nat → List Byte
  | 0, _ => []
  | n + 1, v => BitVec.ofNat 8 v :: natLE n (v / 256)

end Sys2Proof.Machine
end

