-- ==== Sys2Proof/Machine/State.lean ====
section
/-! DEFINITION. The state of the machine: everything the spec names (INVENTORY.md, "State"), as plain data. Entities that
come and go (teams, workgroups, contexts, reels, launches) stand in tables by number: team `core*128 + part*16 + slot`,
partition `core*8 + part`, workgroup `core*16 + slot`, Bellows context `core*4 + c`, tile `core*64 + t`. -/

namespace Sys2Proof.Machine

/-- One bit per lane (R74); the summary of the octets is derived. -/
abbrev Mask := BitVec 1024
/-- A v register: one word per lane. -/
abbrev Row := List Word
/-- A set of numbers. -/
abbrev NSet := SMap Unit

/-- Where a byte is stored (R34, R121, R314, R337). -/
inductive Place where
  /-- main memory, at a system-physical address -/
  | sys (spa : Nat)
  /-- the scratchpad region of a workgroup; lane stacks and windows lie in it (R314) -/
  | scr (w off : Nat)
  /-- the accumulator region of a workgroup -/
  | acc (w off : Nat)
  /-- memory of another A9 over the Kazid Link (R59, R337) -/
  | peer (node land off : Nat)
  deriving DecidableEq, Repr

/-- Permission bits: what an access needs (Table 16.6), or what an entry grants. -/
structure Need where
  r : Bool
  w : Bool
  x : Bool
  deriving DecidableEq, Repr

/-- A store of a lane: the address it was translated from (R305), where, which bytes, in which colour (R45); an SDBST, the run's
instruction `ix`, waits for its group of lanes (R188). `carried` once another lane of the team has read it: a release of the team then
carries it, whatever its colour (R57). -/
structure Store where
  lane : Nat
  va : Nat
  at' : Place
  bytes : List Byte
  col : Nat
  ktag : Nat
  group : Option Mask
  ix : Nat
  carried : Bool := false
  deriving DecidableEq, Repr

/-- What RDFAULT reports of a faulted lane (Table 9.17). -/
structure LaneFault where
  cause : Nat
  ea : DWord
  kind : Nat
  ia : DWord
  deriving DecidableEq, Repr

/-- A mask-stack entry (R87). -/
structure StackEntry where
  loop : Bool
  mask : Mask
  wait : Mask
  start : DWord
  deriving DecidableEq, Repr

/-- A write left pending by a trailer (R81): the rows that will land; a poisoned one writes nothing. -/
structure Pend where
  reg : Nat
  count : Nat
  ia : DWord
  poison : Bool
  landed : Bool
  rows : List Row
  deriving DecidableEq, Repr

/-- An effect performed when every lane has completed the run (Table 9.2). -/
inductive Done where
  | signal (ea : DWord) (add : Word) (leader : Nat)
  | reggive (n : Nat)
  | tfree (t : Nat)
  | tlbinvVa (va : DWord)
  | tlbinvAsid
  deriving DecidableEq, Repr

/-- The instructions that act once per run at issue (Table 9.2); the last five, which act when the run has completed, are held only for a
run that a stop has left behind (R195). -/
inductive OnceOp where
  | bpost | bpostw | launch | poolpop | tbind | ttag | tdom | mark
  | mldb | mloop | mzero | mst | mld | mabort | xfwd | xinv | ntail | tfree | signal | reggive | tlbinvVa | tlbinvAsid
  deriving DecidableEq, Repr

/-- The copy-family instructions (R228). -/
inductive CopyOp where
  | copy | copyt | gath | scat | deco
  deriving DecidableEq, Repr

/-- A once-per-run effect held at a full queue or a token limit (R403), with its run-entry operands: `imm` the token, tile
or array its field names, `ops` the leader's words, `reg` and `count` its destination, `idx` its place in the run at `pc`, `inH` whether
its run is one of the supervisor handler. -/
structure Held where
  pc : DWord
  op : OnceOp
  imm : Nat
  ops : List Word
  reg : Nat
  count : Nat
  idx : Nat
  inH : Bool
  deriving DecidableEq, Repr

/-- The access of a lane's terminal as its check left it (R80): the address it was translated from, what it needs, where it lands, and its
operands. -/
structure TermAcc where
  va : Nat
  need : Need
  at' : Place
  gpa : Nat
  ops : List Word
  deriving DecidableEq, Repr

/-- A run in issue (R76..R80, R96, R105, R125, R185, R203, R218): `sdb` are stores of lanes that have completed, kept because a block among
them waits for a lane of its group (R188), `sdbRows` the values an SDBST has read by instruction, `reached` each lane's terminal access,
`late` the completed lanes whose terminal waits behind a kept store (R38), `lits` the literals fetched with it, by instruction;
`pendPoison` the lanes in which a pending load has met poison, by register (R81); `ctl` the control registers at its start,
`setQ` the uniform predicates that the attempt has written, `termLeft` the lanes whose terminal the attempt has still to perform once
its stores are performed, `mark` what its FENCE or call waits for: the back-invalidates numbered below it; `esc` the `eret.esc` that
handed its faults to the Stoker, and the first word of its run; `done` the effects of its completion, each with its place in the run; `watch` the word that its WAITV waits on, with its address, its comparison and operand, and `met` whether a re-read
has met it. -/
structure Run where
  pc : DWord
  words : List Word
  trailer : Word
  idx : Nat
  entry : Mask
  todo : Mask
  aborted : Mask
  faults : SMap LaneFault
  stores : List Store
  sdb : List Store
  sdbRows : SMap Row
  reached : SMap TermAcc
  late : Mask
  lits : SMap Nat
  laneFlags : SMap Word
  flags : Word
  uwrs : List (Nat × DWord)
  once : SMap DWord
  done : List (Nat × Done)
  first : Bool
  bodyDone : Bool
  saved : SMap Row
  savedP : SMap Mask
  savedQ : BitVec 8
  pendPoison : SMap Mask
  ctl : SMap DWord
  setQ : BitVec 8
  termLeft : Option Mask
  mark : Option Nat
  esc : Option (DWord × DWord)
  watch : Option (Place × Nat × Nat × Word)
  met : Bool
  deriving DecidableEq, Repr

/-- Handler mode (R204): what was saved at entry, and the faulted run that will be retried: the temporaries of its completed lanes stand
in `temps` (R78, R79), and `pre` names the saved registers that were pending at entry and land where they are saved (R81). -/
structure Handler where
  v48 : SMap Row
  p : SMap Mask
  q : BitVec 8
  flags : Word
  depth : Nat
  faulted : Mask
  run : Run
  temps : SMap Row
  pre : List Nat
  deriving DecidableEq, Repr

/-- What a team is doing between runs (R29, R82, R197, R216). `waiting` carries the wait kind of Table 11.4; 16 is a
FENCE awaiting its own stores (R192), 17 invalidations not yet acknowledged (R205), neither of them a kind of that table. -/
inductive TStatus where
  | ready
  | waiting (kind : Nat)
  | backoff
  | stopped
  deriving DecidableEq, Repr

/-- A team (R70, R73): `peerOut` the colours of its stores that a peer has not acknowledged (R59), 8 more for one that a release carries
(R57); `base` the first word of the run in which
it has stopped, where its program counter stands elsewhere in it (R80, R373). -/
structure Team where
  w : Nat
  nlanes : Nat
  wgteam : Nat
  pc : DWord
  active : Mask
  v : SMap Row
  p : SMap Mask
  q : BitVec 8
  mstack : List StackEntry
  rstack : List DWord
  frm : Word
  fsat : Word
  qctl : Word
  srseed : DWord
  flags : Word
  ashen : Word
  boff : Word
  alloc : Nat
  pend : List Pend
  kmask : BitVec 8
  yielded : Bool
  marked : Bool
  stv : Nat
  readyAt : Nat
  hold : Nat
  status : TStatus
  run : Option Run
  held : List Held
  handler : Option Handler
  sbuf : List Store
  peerOut : List Nat
  invs : List (Nat × Nat)
  base : Option DWord := none
  deriving DecidableEq, Repr

/-- An issue-scheduler partition (R88, R123, R367, R369, R376): `lentBy` is the owner of the entry a lent run is issued
under, `attempt` whether what it issues is an attempt of a run, `sampAt` one more than the cycle sampled last. -/
structure Part where
  pcyc : Nat
  issuing : Option Nat
  lentBy : Option Nat
  attempt : Bool
  stopReq : List (Nat × Nat × Nat)
  stepSlot : Option Nat
  sampled : Nat
  sampAt : Nat
  deriving DecidableEq, Repr

/-- A team waiting at a rendezvous slot (R145). -/
structure Rdv where
  k : Nat
  send : Bool
  wide : Bool
  reg : Nat
  deriving DecidableEq, Repr

/-- A 16-K block of integers with its exponent and bad mark, 0 none, 1 NaN, 2 infinity (R248). -/
structure KBlock where
  q : List Int
  e : Int
  bad : Nat
  deriving DecidableEq, Repr

/-- A B-array (R246): 0 INVALID, 1 LOADING, 2 VALID; 64 columns of 8 blocks. -/
structure BArr where
  st : Nat
  fmt : Nat
  cols : List (List KBlock)
  deriving DecidableEq, Repr

/-- A matrix operation (R252, R253, R263..R265): `st` 0 queued, 1 running, 2 stopped at the Stoker. -/
structure MOp where
  num : Nat
  op : OnceOp
  arr : Nat
  blk : List Word
  st : Nat
  step : Nat
  flags : Nat
  shadow : List Byte
  deriving DecidableEq, Repr

/-- A queued or running transform (R274, R276): `old` the blocks of its destination tile from before it started, none for a poisoned
one (R326). -/
structure XOp where
  w : Nat
  inv : Bool
  blk : List Word
  started : Bool
  vec : Nat
  old : List (Option (List Byte))
  deriving DecidableEq, Repr

/-- A resident workgroup (R71, R84, R145, R194, R220, R252, R257, R262, R314): `lostArrs` the arrays that failed MLDBs leave INVALID, each
with the numbers of the earlier operations on them that have not ended. -/
structure Wg where
  q : Nat
  pos : Nat
  reel : Nat
  reelwg : Nat
  wgid : Nat
  lr : BitVec 2048
  ten : Nat
  asid : Nat
  ktag : Nat
  scr : Memory
  acc : Memory
  pscr : NSet
  pacc : NSet
  tokens : SMap Nat
  account : Nat
  claims : List (Nat × Nat)
  rdv : SMap (List Rdv)
  mstat : Word
  lastOp : Nat
  donePfx : Nat
  doneOps : NSet
  mops : List MOp
  barrs : SMap BArr
  lostArrs : List (List Nat × List Nat)
  teamsLeft : Nat
  deriving DecidableEq, Repr

/-- A tile-table entry (R200, R230): state 0 EMPTY, 1 FILLING, 2 READY, 3 DRAINING; `openBy` the context holding its fill
open, `live` the copies into or out of it, `back` the HOLD of the last copy out. -/
structure Tile where
  owner : Nat
  acc : Bool
  st : Nat
  fmt : Nat
  dom : Nat
  base : Nat
  size : Nat
  openBy : Option Nat
  live : Nat
  back : Bool
  deriving DecidableEq, Repr

/-- Who posted (R16, R226): the workgroup, its %wg and %team; `ended` once the workgroup's granules have returned. -/
structure Poster where
  w : Nat
  wgid : Nat
  team : Nat
  ended : Bool
  deriving DecidableEq, Repr

/-- A post in a context's queue (R16, R226). -/
structure PostRec where
  who : Poster
  x : DWord
  y : DWord
  token : Option Nat
  deriving DecidableEq, Repr

/-- A copy slot in use (R228, R239, Table 12.7); `erred` once poison it carried has been recorded (R31). -/
structure Copy where
  op : CopyOp
  w : Nat
  token : Nat
  to' : DWord
  frm : DWord
  desc : List Byte
  table : Option (List Nat)
  off : Nat
  cause : Nat
  st : Nat
  erred : Bool
  deriving DecidableEq, Repr

/-- A Bellows context (Table 12.1). -/
structure Ctx where
  reel : Nat
  ten : Nat
  asid : Nat
  pc : DWord
  g : SMap DWord
  mem : Memory
  posts : List PostRec
  cur : Option Poster
  arming : Option Nat
  slots : SMap Copy
  table : Option (List Nat)
  halted : Bool
  fault : Nat
  stoker : Nat
  deriving DecidableEq, Repr

/-- A placed reel (R70, R318): `wgs` and `ctxs` are those not ended, `seats` the team slots it holds until its last workgroup ends (R215). -/
structure Reel where
  q : Nat
  pos : Nat
  idx : Nat
  cores : List Nat
  wgs : List Nat
  ctxs : List Nat
  seats : List Nat
  placedAt : Nat
  deriving DecidableEq, Repr

/-- A reel saved by pre-emption (R323, Table 18.8). Keys are those of the cores it left. -/
structure Saved where
  reel : Reel
  teams : SMap Team
  wgs : SMap Wg
  ctxs : SMap Ctx
  tiles : SMap Tile
  xq : List XOp
  aged : Nat
  frames : List Nat
  deriving DecidableEq, Repr

/-- A launch at a queue's head or admitted (R313..R328): `live` reels not ended, `status` once it is refused, ended or lost, `done` once its
completion is recorded, `bad` the pages of its Bellows section that the Stoker could not resolve (R224), `fails` how often each reel has
failed to be placed (R319). -/
structure Launch where
  q : Nat
  pos : Nat
  lr : BitVec 2048
  checked : Bool
  eligAt : Option Nat
  pairs : List (Nat × Nat)
  admitted : Bool
  toPlace : List Nat
  live : Nat
  status : Option Nat
  done : Bool
  bad : List Nat
  fails : SMap Nat
  preempts : Nat
  energy : Nat
  deriving DecidableEq, Repr

/-- A placer (R319): the reel it tries, its failures, and whether its back-off has ended. -/
structure Placer where
  q : Nat
  pos : Nat
  rl : Nat
  fails : Nat
  waitCycles : Nat
  ready : Bool
  deriving DecidableEq, Repr

/-- Who writes: its path (Table 4.5; 6 the device's own records), on path T the team, the colour and for a store the lane, with whether
another lane of the team has read it (R57), and for an entry of a ring or buffer its number and the entry's index. -/
structure Writer where
  path : Nat
  team : Option Nat := none
  col : Nat := 0
  ring : Option (Nat × Nat) := none
  lane : Option Nat := none
  carried : Bool := false
  deriving DecidableEq, Repr

/-- A write to a line that a host holds cached: it waits for the back-invalidate before it is performed at system scope (R60), and is
done again after what the host returns; `bad` marks one that poisons its block. `num` counts them. -/
structure BiW where
  by' : Writer
  ten : Option Nat
  spa : Nat
  bytes : List Byte
  bad : Bool
  ktag : Nat
  num : Nat
  deriving DecidableEq, Repr

/-- Who waits for a fault at the Stoker (R298); `saved` stands for one of a reel that is out (R325), `lost` for one of a launch that a core
reset has taken (R22). -/
inductive Waiter where
  | team (k : Nat)
  | ctx (x : Nat)
  | copy (x sl : Nat)
  | mop (w op : Nat)
  | head (q : Nat)
  | net (ch pos : Nat)
  | read (ch : Nat)
  | inc (uet : Bool) (node ch pos : Nat)
  | bellSection (q pos page : Nat)
  | saved (rk : Nat) (who : Waiter)
  | lost (q pos : Nat)
  | none
  deriving DecidableEq, Repr

/-- A fault queued at the Stoker (R298); `asked` marks one of a reel that is out and that cannot be resolved. -/
structure SFault where
  id : Nat
  asid : Option Nat
  va : Nat
  gpa : Nat
  cause : Nat
  need : Need
  poolEmpty : Bool
  waiter : Waiter
  asked : Bool
  deriving DecidableEq, Repr

/-- A page request to a host (R359). -/
structure PReq where
  id : Nat
  gpa : Nat
  stage : Nat
  written : Bool
  deriving DecidableEq, Repr

/-- A frame that POOLPOP has taken, by its page, recorded against the popping context: its launch and its ASID (R299). -/
structure Popped where
  q : Nat
  pos : Nat
  asid : Nat
  page : Nat
  deriving DecidableEq, Repr

/-- A tenant (R287, R298, R299, R318); `replies` are answers to page requests that wait for its Stoker hart to run (R33). -/
structure Tenant where
  s2root : Nat
  ranges : List (Nat × Nat)
  near : List Nat
  far : List Nat
  tables : List Nat
  pool : List Nat
  popped : List Popped
  clusters : BitVec 88
  faults : List SFault
  nextFault : Nat
  reqs : List PReq
  nextId : Nat
  replies : List (Nat × Nat)
  deriving DecidableEq, Repr

/-- A compressed page (R303): where it belongs, its content, the blocks of it that are poisoned (0..63), and the chunks (0..15) hit by
an uncorrectable error of the image. -/
structure Image where
  ten : Nat
  gpa : Nat
  bytes : List Byte
  bad : NSet
  lost : NSet
  deriving DecidableEq, Repr

/-- A migration (R301): `copied` blocks of 64; `switched` once the leaf names the destination; `failed` once a new uncorrectable error
lies in the source (R302); `erred` once poison that it copied has been recorded (R31). -/
structure Mig where
  ten : Nat
  gpa : Nat
  src : Nat
  dst : Nat
  copied : Nat
  switched : Bool
  failed : Bool
  erred : Bool
  deriving DecidableEq, Repr

/-- A cached translation (R293, Table 16.5): receiver 0 and 1 the core dies, 2 the host path; `kind` 0 a last-level entry (`who` an ASID,
virtual addresses), 1 a nested or host entry (`who` a tenant, guest-physical addresses), 2 a walker entry (a non-leaf stage-1 entry, of
which `gpa` is the next table). It covers `size` bytes from `base`, with the permissions of both stages. -/
structure TlbE where
  rcv : Nat
  kind : Nat
  who : Nat
  ten : Nat
  base : Nat
  size : Nat
  spa : Nat
  gpa : Nat
  p1 : Need
  p2 : Need
  deriving DecidableEq, Repr

/-- What a shootdown covers (R305). -/
inductive ShootScope where
  | page (asid vpn : Nat)
  | asid (asid : Nat)
  | gpage (ten gpn : Nat)
  | tenant (ten : Nat)
  deriving DecidableEq, Repr

/-- What completes with a shootdown (R205, R301, R303, R356); `errs` the chunks of an image that could not be decompressed. -/
inductive ShootDone where
  | team (k : Nat)
  | command (ld ten : Nat) (frame : Option Nat)
  | mailbox (ld ten : Nat) (frame : Option Nat)
  | free (ten frame : Nat) (errs : List Nat)
  | image (ten : Nat) (errs : List Nat)
  | clearAsid (ld asid : Nat)
  | nothing
  deriving DecidableEq, Repr

/-- A shootdown awaiting echoes (R305): receivers 0 and 1 the core dies, 2 the host path. -/
structure Shoot where
  ini : Nat
  seq : Nat
  scope : ShootScope
  got : List Nat
  fin : ShootDone
  deriving DecidableEq, Repr

/-- A network request that the engine has read (R330, R334, R342). `st` 0 read, 1 running, 2 finished, 3 complete; `wait` 1 at the
Stoker, 2 unresolvable; `data` the source once it is read; `acked` what the peer has acknowledged or, for GET, what is placed; `part` the
bytes placed of a GET's packet in hand, by offset; `refused` a SEND awaiting its retry; `matched` the sender's node, chain and position;
`src` the source that met a failure, whose record is written at completion. -/
structure NReq where
  req : BitVec 512
  st : Nat
  status : Nat
  wait : Nat
  data : Option (List Byte)
  acked : List (Nat × Nat)
  part : SMap Nat
  poison : Bool
  retries : SMap Nat
  sendRetries : Nat
  refused : Bool
  matched : Option (Nat × Nat × Nat)
  bytes : Nat
  peer : Nat
  imm : BitVec 64
  src : Nat := 0
  deriving DecidableEq, Repr

/-- Where an accepted request's bytes go: address space, address of its first byte, and how many may be placed. -/
structure Target where
  asid : Nat
  va : Nat
  room : Nat
  deriving DecidableEq, Repr

/-- A request of another device here (R336, R340, R344): the packets placed by offset, the bytes placed of a packet in hand by its offset
and of all, `wait` 1 at the Stoker, 2 unresolvable, the RECV it is matched to, whether all of it has been delivered, placed or refused,
the bytes and the status with which it ended, the last try of a SEND that found no RECV, the packets that answer a GET: offset, length,
bytes and whether poison fed them, and the target found when it was accepted. -/
structure Incoming where
  uet : Bool
  node : Nat
  chain : Nat
  pos : Nat
  seen : List Nat
  part : SMap Nat
  total : Nat
  wait : Nat
  recv : Option (Nat × Nat)
  deliv : Bool
  fin : Option (Nat × Nat)
  refused : Option Nat := none
  reply : List (Nat × Nat × List Byte × Bool) := []
  target : Option Target := none
  deriving DecidableEq, Repr

/-- A core dump in progress or queued (R378, R379): the section of its team and those appended, each with source and
sequence number; `wrote`, once its bytes are written, the counts of dumps and of bytes that the header takes when they are performed. -/
structure Dump where
  q : Nat
  pos : Nat
  ten : Nat
  src : Nat
  seq : Nat
  grid : Nat
  asid : Nat
  sec : List Byte
  more : List (Nat × Nat × List Byte)
  lost : Nat
  wrote : Option (Nat × Nat) := none
  deriving DecidableEq, Repr

/-- What the machine has sent (the model's own outputs, log entry 1). -/
inductive Out where
  | host (ld : Nat) (poison : Bool) (bytes : List Byte)
  | hostDone (ld : Nat)
  | msix (ld vec : Nat)
  | backInv (line : Nat)
  | wire (port off : Nat) (m : NetMsg)
  | peerStore (node land key off : Nat) (bytes : List Byte)
  | peerAtomic (node land key off op : Nat) (operand : List Byte)
  | reply (uet : Bool) (node chain pos off len : Nat) (st : Nat) (bytes : List Byte)
  | teamState (ld : Nat) (bytes : List Byte)
  | mgmtBus (records : List (BitVec 512))
  | unsupported (ld op : Nat)
  | spdm (ld : Nat) (code : Nat) (body : List Byte)
  | identify (ld capacity : Nat)
  | health (ld : Nat) (bytes : List Byte)
  deriving DecidableEq, Repr

/-- The only ways the model stops. -/
inductive Fault where
  /-- Raised by the meaning of a team's instruction handed to no resident team with a run in issue; safe: no run reaches it
  (log entry 7). -/
  | noTeam
  /-- Raised by the meaning of a Bellows instruction handed to no context; safe: no run reaches it (log entry 7). -/
  | noContext
  deriving DecidableEq, Repr

/-- Refusals. -/
inductive Refusal where
  /-- Raised by an arm of `exec` whose instruction has no meaning yet; safe. -/
  | notModelled (mnemonic : String)
  deriving DecidableEq, Repr

/-- The machine. `wrote` holds the blocks written in this step, by which the watched words of WAITV are read again (R195); `ringsDue` the rings of
entries that no longer wait since their frame was freed in this step; `bufs` by sample buffer, while records of it wait for a host's line, the source of the last and how many are written (R366); `nends` by chain the last position of each NTAIL not yet completed, with the launch that published it (R328, R332); `drew` the agents that may have drawn energy in the metering interval, each with its core, or 672 for the network, its code and its launch (R328); `portHeld` what has arrived at a port
and waits there (R340, R388); `peerKeys` the keys of the peer entries that leaves for peer memory were written for (R337);
`chimneyDown` whether an error in its own state has stopped the Chimney's core (R33), `waking` whether a wake event waits for H0 (R388). -/
structure State where
  mgmt : SMap DWord
  mem : Memory
  poison : NSet
  lineKey : SMap Nat
  keys : SMap Nat
  dtbase : Nat
  seq : SMap Nat
  records : List (BitVec 512)
  mr : SMap (BitVec 512)
  bootOk : Bool
  booted : Bool
  tenants : SMap Tenant
  hartsDown : NSet
  apAlloc : SMap (Nat × Bool)
  images : SMap Image
  forwards : SMap Nat
  migs : List Mig
  tlb : List TlbE
  shoots : List Shoot
  invSeq : SMap Nat
  hostCached : SMap Nat
  wrote : List (Place × List Byte)
  biWait : List BiW
  biAsked : NSet
  biNext : Nat
  ringsDue : List Nat
  ringNext : SMap Nat
  bufs : SMap (Nat × Nat)
  engOut : SMap Nat
  sessions : List (Nat × Nat × Bool)
  corrected : SMap Nat
  mbox : List (Nat × Nat)
  skWait : SMap Nat
  flash : Option BootCfg
  meter : SMap (SMap Nat)
  resetting : Bool
  teams : SMap Team
  parts : SMap Part
  wgs : SMap Wg
  tiles : SMap Tile
  xq : SMap (List XOp)
  ctxs : SMap Ctx
  reels : SMap Reel
  saved : SMap Saved
  launches : List Launch
  placers : SMap Placer
  nreqs : SMap (SMap NReq)
  nread : SMap Nat
  nnext : SMap Nat
  nends : SMap (List (Nat × Nat × Nat))
  drew : List (Nat × Nat × Nat × Nat)
  incoming : List Incoming
  portHeld : List Actor
  portsDown : NSet
  peerKeys : SMap Nat
  chimneyDown : Bool
  waking : Bool
  idleEnergy : Nat
  dumps : List Dump
  outs : List Out
  agenda : List Actor
  tick : Nat
  free : Nat
  cur : Nat
  curCtx : Nat
  deriving DecidableEq, Repr

/-- The machine right after power-on reset and before the boot step: every register at its Reset value (the reset
function of `mgmt` gives them for what is not listed), nothing resident, memory with nothing listed (R20, R21, R25). -/
def State.reset : State where
  mgmt := []
  mem := []
  poison := []
  lineKey := []
  keys := []
  dtbase := 0
  seq := []
  records := []
  mr := []
  bootOk := false
  booted := false
  tenants := []
  hartsDown := []
  apAlloc := []
  images := []
  forwards := []
  migs := []
  tlb := []
  shoots := []
  invSeq := []
  hostCached := []
  wrote := []
  biWait := []
  biAsked := []
  biNext := 0
  ringsDue := []
  ringNext := []
  bufs := []
  engOut := []
  sessions := []
  corrected := []
  mbox := []
  skWait := []
  flash := none
  meter := []
  resetting := false
  teams := []
  parts := []
  wgs := []
  tiles := []
  xq := []
  ctxs := []
  reels := []
  saved := []
  launches := []
  placers := []
  nreqs := []
  nread := []
  nnext := []
  nends := []
  drew := []
  incoming := []
  portHeld := []
  portsDown := []
  peerKeys := []
  chimneyDown := false
  waking := false
  idleEnergy := 0
  dumps := []
  outs := []
  agenda := []
  tick := 0
  free := 0
  cur := 0
  curCtx := 0

end Sys2Proof.Machine
end

