-- ==== Sys2Proof/Machine/Info.lean ====
section
/-! DEFINITION. What run fetch must know of a word (R9, R10, R15, R77, R81, R82, R102, R105, R143, R185, R283): the registers and predicates it
reads and writes, its placement class (Table 5.2), its long-latency destination, and the reason code of its first broken
field rule. The reason agrees with `decode` (an obligation says so). -/

namespace Sys2Proof.Machine

/-- Placement classes (Table 5.2). -/
inductive Cls where
  | other | store | cross | lane | attempt | team
  deriving DecidableEq, Repr

/-- Facts of one instruction word. `own` is a read of the own destination that R77 exempts (R127, R143); `comb…` a combining
write's (R96). -/
structure Info where
  rd : List Nat := []
  wr : List Nat := []
  own : List Nat := []
  rdP : List Nat := []
  wrP : List Nat := []
  combP : List Nat := []
  rdQ : List Nat := []
  wrQ : List Nat := []
  combQ : List Nat := []
  la : Nat := 0
  long : Option (Nat × Nat) := none
  cls : Cls := .other
  once : Bool := false
  tile : Option Nat := none
  dom : Bool := false
  nonlin : Bool := false
  fac : Option Bool := none
  supv : Bool := false
  mem : Bool := false
  lit : Option Nat := none
  acq : Bool := false
  reason : Nat := 0
  deriving DecidableEq, Repr

/-- The facts of a word that is none of the assigned ones: only its reason. -/
def Info.bad (r : Nat) : Info := { reason := r }

/-- The facts of a Delmer word. -/
def infoOf (w : Word) : Info :=
  let d := (bits w 19 6).toNat
  let a := (bits w 13 6).toNat
  let b := (bits w 7 6).toNat
  let g := (bits w 1 3).toNat
  let gs := (bits w 0 3).toNat
  let c := (bits w 22 3).toNat
  let la := (bits w 0 4).toNat
  let cp := (bits w 19 3).toNat
  let cm := (bits w 22 3).toNat
  let kq := (bits w 19 3).toNat
  let pr := (bits w 13 3).toNat
  let ps := (bits w 7 3).toNat
  let ok (i : Info) : Info := i
  match (bits w 25 7).toNat with
  | 0x01 =>
    match (bits w 4 3).toNat with
    | 0 => ok { rd := [a, b], wr := [d], rdP := [g], reason := lowest [gOk (guardOf w), cnd (w &&& 0xFE000070 == 0x02000000) 6] }
    | 1 => ok { rd := [a, b], wr := [d], rdP := [g], reason := lowest [gOk (guardOf w), cnd (w &&& 0xFE000070 == 0x02000010) 6] }
    | 2 => ok { rd := [a, b], wr := [d], rdP := [g], reason := lowest [gOk (guardOf w), cnd (w &&& 0xFE000070 == 0x02000020) 6] }
    | 3 => ok { rd := [a, b], wr := [d], rdP := [g], reason := lowest [gOk (guardOf w), cnd (w &&& 0xFE000070 == 0x02000030) 6] }
    | 4 => ok { rd := [a, b], wr := [d], rdP := [g], reason := lowest [gOk (guardOf w), cnd (w &&& 0xFE000070 == 0x02000040) 6] }
    | 5 => ok { rd := [a, b], wr := [d], rdP := [g], reason := lowest [gOk (guardOf w), cnd (w &&& 0xFE000070 == 0x02000050) 6] }
    | 6 => ok { rd := [a, b], wr := [d], rdP := [g], reason := lowest [gOk (guardOf w), cnd (w &&& 0xFE000070 == 0x02000060) 6] }
    | _ => ok { rd := [a, b], wr := [d], rdP := [g], reason := lowest [gOk (guardOf w), cnd (w &&& 0xFE000070 == 0x02000070) 6] }
  | 0x02 => ok { rd := [a], wr := [d], rdP := [g], reason := lowest [gOk (guardOf w), cnd (w &&& 0xFE000000 == 0x04000000) 6] }
  | 0x03 =>
    match (bits w 4 3).toNat with
    | 0 => ok { rd := [a, b], wr := [d], rdP := [g], reason := lowest [gOk (guardOf w), cnd (w &&& 0xFE000070 == 0x06000000) 6] }
    | 1 => ok { rd := [a, b], wr := [d], rdP := [g], reason := lowest [gOk (guardOf w), cnd (w &&& 0xFE000070 == 0x06000010) 6] }
    | 2 => ok { rd := [a, b], wr := [d], rdP := [g], reason := lowest [gOk (guardOf w), cnd (w &&& 0xFE000070 == 0x06000020) 6] }
    | 3 => ok { rd := [a, b, b + 1], wr := [d], rdP := [g], reason := lowest [gOk (guardOf w), pair (bits w 7 6), cnd (w &&& 0xFE000070 == 0x06000030) 6] }
    | 4 => ok { rd := [a, b], wr := [d], rdP := [g], reason := lowest [gOk (guardOf w), cnd (w &&& 0xFE000070 == 0x06000040) 6] }
    | 5 => ok { rd := [a, b], wr := [d], rdP := [g], reason := lowest [gOk (guardOf w), cnd (w &&& 0xFE000070 == 0x06000050) 6] }
    | 6 => ok { rd := [a, b], wr := [d], rdP := [g], reason := lowest [gOk (guardOf w), cnd (w &&& 0xFE000070 == 0x06000060) 6] }
    | _ => ok { rd := [a, b], wr := [d], rdP := [g], reason := lowest [gOk (guardOf w), cnd (w &&& 0xFE000070 == 0x06000070) 6] }
  | 0x04 =>
    match (bits w 4 3).toNat with
    | 0 => ok { rd := [a, b], wr := [d], rdP := [g], reason := lowest [gOk (guardOf w), cnd (w &&& 0xFE000070 == 0x08000000) 6] }
    | 1 => ok { rd := [a, b], wr := [d], rdP := [g], reason := lowest [gOk (guardOf w), cnd (w &&& 0xFE000070 == 0x08000010) 6] }
    | 2 => ok { rd := [a, b], wr := [d], rdP := [g], reason := lowest [gOk (guardOf w), cnd (w &&& 0xFE000070 == 0x08000020) 6] }
    | 3 => ok { rd := [a, b], wr := [d], rdP := [g], reason := lowest [gOk (guardOf w), cnd (w &&& 0xFE000070 == 0x08000030) 6] }
    | 4 => ok { rd := [a], wr := [d], rdP := [g], reason := lowest [gOk (guardOf w), cnd (w &&& 0xFE001FF0 == 0x08000040) 6] }
    | 5 => ok { rd := [a], wr := [d], rdP := [g], reason := lowest [gOk (guardOf w), cnd (w &&& 0xFE001FF0 == 0x08000050) 6] }
    | _ => .bad 2
  | 0x05 =>
    match (bits w 4 3).toNat with
    | 0 => ok { rd := [a, b], wr := [d], rdP := [g], reason := lowest [gOk (guardOf w), cnd (w &&& 0xFE000070 == 0x0A000000) 6] }
    | 1 => ok { rd := [a, b], wr := [d], rdP := [g], reason := lowest [gOk (guardOf w), cnd (w &&& 0xFE000070 == 0x0A000010) 6] }
    | 2 => ok { rd := [a, b], wr := [d], rdP := [g], reason := lowest [gOk (guardOf w), cnd (w &&& 0xFE000070 == 0x0A000020) 6] }
    | 3 => ok { rd := [a, b], wr := [d], rdP := [g], reason := lowest [gOk (guardOf w), cnd (w &&& 0xFE000070 == 0x0A000030) 6] }
    | 4 => ok { rd := [a, b], wr := [d], rdP := [g], reason := lowest [gOk (guardOf w), cnd (w &&& 0xFE000070 == 0x0A000040) 6] }
    | 5 => ok { rd := [a, b], wr := [d], rdP := [g], reason := lowest [gOk (guardOf w), cnd (w &&& 0xFE000070 == 0x0A000050) 6] }
    | 6 => ok { rd := [a], wr := [d], rdP := [g], reason := lowest [gOk (guardOf w), cnd (w &&& 0xFE001FF0 == 0x0A000060) 6] }
    | _ => ok { rd := [a], wr := [d], rdP := [g], reason := lowest [gOk (guardOf w), cnd (w &&& 0xFE001FF0 == 0x0A000070) 6] }
  | 0x06 => ok { rd := [a], wr := [d], rdP := [g], reason := lowest [gOk (guardOf w), cnd (w &&& 0xFE000000 == 0x0C000000) 6] }
  | 0x07 => ok { rd := [a], wr := [d], rdP := [g], reason := lowest [gOk (guardOf w), cnd (w &&& 0xFE000000 == 0x0E000000) 6] }
  | 0x08 => ok { rd := [a], wr := [d], rdP := [g], reason := lowest [gOk (guardOf w), cnd (w &&& 0xFE000000 == 0x10000000) 6] }
  | 0x09 => ok { wr := [d], rdP := [g], reason := lowest [gOk (guardOf w), cnd (w &&& 0xFE07E000 == 0x12000000) 6] }
  | 0x0A =>
    match (bits w 4 3).toNat with
    | 0 => ok { rd := [a, b], wr := [d], rdP := [g], reason := lowest [gOk (guardOf w), cnd (w &&& 0xFE000070 == 0x14000000) 6] }
    | 1 => ok { rd := [a, b], wr := [d], rdP := [g], reason := lowest [gOk (guardOf w), cnd (w &&& 0xFE000070 == 0x14000010) 6] }
    | 2 => ok { rd := [a, b], wr := [d], rdP := [g], reason := lowest [gOk (guardOf w), cnd (w &&& 0xFE000070 == 0x14000020) 6] }
    | 3 => ok { rd := [a, b], wr := [d], rdP := [g], reason := lowest [gOk (guardOf w), cnd (w &&& 0xFE000070 == 0x14000030) 6] }
    | 4 => ok { rd := [a, b], wr := [d], rdP := [g], reason := lowest [gOk (guardOf w), cnd (w &&& 0xFE000070 == 0x14000040) 6] }
    | 5 => ok { rd := [a, a + 1, b], wr := [d], rdP := [g], reason := lowest [gOk (guardOf w), pair (bits w 13 6), cnd (w &&& 0xFE000070 == 0x14000050) 6] }
    | 6 => ok { rd := [a, a + 1, b], wr := [d], rdP := [g], reason := lowest [gOk (guardOf w), pair (bits w 13 6), cnd (w &&& 0xFE000070 == 0x14000060) 6] }
    | _ => .bad 2
  | 0x0B =>
    match (bits w 10 3).toNat with
    | 0 => ok { rd := [a], wr := [d], rdP := [g], reason := lowest [gOk (guardOf w), cnd (w &&& 0xFE001E00 == 0x16000000) 6] }
    | 1 => ok { rd := [a], wr := [d], rdP := [g], reason := lowest [gOk (guardOf w), cnd (w &&& 0xFE001E00 == 0x16000400) 6] }
    | 2 => ok { rd := [a], wr := [d], rdP := [g], reason := lowest [gOk (guardOf w), cnd (w &&& 0xFE001E00 == 0x16000800) 6] }
    | 3 => ok { rd := [a], wr := [d], rdP := [g], reason := lowest [gOk (guardOf w), cnd (w &&& 0xFE001E00 == 0x16000C00) 6] }
    | 4 => ok { rd := [a], wr := [d], rdP := [g], reason := lowest [gOk (guardOf w), cnd (w &&& 0xFE001E00 == 0x16001000) 6] }
    | _ => { rd := [a], wr := [d], reason := lowest [gOk (guardOf w), cnd (!w.getLsbD 9) 6, 7] }
  | 0x0C =>
    match (bits w 4 3).toNat with
    | 0 => ok { rd := [a], wr := [d], rdP := [g], reason := lowest [gOk (guardOf w), cnd (w &&& 0xFE001FF0 == 0x18000000) 6] }
    | 1 => ok { rd := [a], wr := [d], rdP := [g], reason := lowest [gOk (guardOf w), cnd (w &&& 0xFE001FF0 == 0x18000010) 6] }
    | 2 => ok { rd := [a], wr := [d], rdP := [g], reason := lowest [gOk (guardOf w), cnd (w &&& 0xFE001FF0 == 0x18000020) 6] }
    | 3 => ok { rd := [a], wr := [d], rdP := [g], reason := lowest [gOk (guardOf w), cnd (w &&& 0xFE001FF0 == 0x18000030) 6] }
    | 4 => ok { rd := [a, b], wr := [d], rdP := [g], reason := lowest [gOk (guardOf w), cnd (w &&& 0xFE000070 == 0x18000040) 6] }
    | 5 => ok { rd := [a, b], wr := [d], rdP := [g], reason := lowest [gOk (guardOf w), cnd (w &&& 0xFE000070 == 0x18000050) 6] }
    | 6 => ok { rd := [a, b, b + 1], wr := [d], rdP := [g], reason := lowest [gOk (guardOf w), pair (bits w 7 6), cnd (w &&& 0xFE000070 == 0x18000060) 6] }
    | _ => ok { rd := [a, a + 1, b], wr := [d], rdP := [g], reason := lowest [gOk (guardOf w), pair (bits w 13 6), cnd (w &&& 0xFE000070 == 0x18000070) 6] }
  | 0x0D =>
    match (bits w 4 3).toNat with
    | 0 => ok { rd := [a, b], rdP := [g], wrP := [cp], combP := (if cm == 0 then [] else [cp]), reason := lowest [gOk (guardOf w), cmp (bits w 22 3) (bits w 19 3), cnd (w &&& 0xFE000070 == 0x1A000000) 6] }
    | 1 => ok { rd := [a, b], rdP := [g], wrP := [cp], combP := (if cm == 0 then [] else [cp]), reason := lowest [gOk (guardOf w), cmp (bits w 22 3) (bits w 19 3), cnd (w &&& 0xFE000070 == 0x1A000010) 6] }
    | 2 => ok { rd := [a, b], rdP := [g], wrP := [cp], combP := (if cm == 0 then [] else [cp]), reason := lowest [gOk (guardOf w), cmp (bits w 22 3) (bits w 19 3), cnd (w &&& 0xFE000070 == 0x1A000020) 6] }
    | 3 => ok { rd := [a, b], rdP := [g], wrP := [cp], combP := (if cm == 0 then [] else [cp]), reason := lowest [gOk (guardOf w), cmp (bits w 22 3) (bits w 19 3), cnd (w &&& 0xFE000070 == 0x1A000030) 6] }
    | 4 => ok { rd := [a, b], rdP := [g], wrP := [cp], combP := (if cm == 0 then [] else [cp]), reason := lowest [gOk (guardOf w), cmp (bits w 22 3) (bits w 19 3), cnd (w &&& 0xFE000070 == 0x1A000040) 6] }
    | 5 => ok { rd := [a, b], rdP := [g], wrP := [cp], combP := (if cm == 0 then [] else [cp]), reason := lowest [gOk (guardOf w), cmp (bits w 22 3) (bits w 19 3), cnd (w &&& 0xFE000070 == 0x1A000050) 6] }
    | 6 => ok { rd := [a, b], rdP := [g], wrP := [cp], combP := (if cm == 0 then [] else [cp]), reason := lowest [gOk (guardOf w), cmp (bits w 22 3) (bits w 19 3), cnd (w &&& 0xFE000070 == 0x1A000060) 6] }
    | _ => ok { rd := [a, b], rdP := [g], wrP := [cp], combP := (if cm == 0 then [] else [cp]), reason := lowest [gOk (guardOf w), cmp (bits w 22 3) (bits w 19 3), cnd (w &&& 0xFE000070 == 0x1A000070) 6] }
  | 0x0E =>
    match (bits w 4 3).toNat with
    | 0 => ok { rd := [a, b], wr := [d], rdP := [g], reason := lowest [gSel (guardOf w), cnd (w &&& 0xFE000070 == 0x1C000000) 6] }
    | 1 => ok { wr := [d], rdP := [g, pr], reason := lowest [gOk (guardOf w), cnd ((bits w 13 3) != 0) 7, cnd (w &&& 0xFE071FF0 == 0x1C000010) 6] }
    | 2 => ok { rd := [a], rdP := [g], wrP := [cp], combP := (if cm == 0 then [] else [cp]), reason := lowest [gOk (guardOf w), cmp (bits w 22 3) (bits w 19 3), cnd (w &&& 0xFE001FF0 == 0x1C000020) 6] }
    | 3 => ok { rdP := [g, pr, ps], wrP := [cp], combP := (if cm == 0 then [] else [cp]), reason := lowest [gOk (guardOf w), cmp (bits w 22 3) (bits w 19 3), cnd ((bits w 13 3) != 0) 7, cnd ((bits w 7 3) != 0) 7, cnd (w &&& 0xFE071C70 == 0x1C000030) 6] }
    | 4 => ok { rdP := [g, pr, ps], wrP := [cp], combP := (if cm == 0 then [] else [cp]), reason := lowest [gOk (guardOf w), cmp (bits w 22 3) (bits w 19 3), cnd ((bits w 13 3) != 0) 7, cnd ((bits w 7 3) != 0) 7, cnd (w &&& 0xFE071C70 == 0x1C000040) 6] }
    | 5 => ok { rdP := [g, pr, ps], wrP := [cp], combP := (if cm == 0 then [] else [cp]), reason := lowest [gOk (guardOf w), cmp (bits w 22 3) (bits w 19 3), cnd ((bits w 13 3) != 0) 7, cnd ((bits w 7 3) != 0) 7, cnd (w &&& 0xFE071C70 == 0x1C000050) 6] }
    | 6 => ok { rdP := [g, pr], wrP := [cp], combP := (if cm == 0 then [] else [cp]), reason := lowest [gOk (guardOf w), cmp (bits w 22 3) (bits w 19 3), cnd ((bits w 13 3) != 0) 7, cnd (w &&& 0xFE071FF0 == 0x1C000060) 6] }
    | _ => .bad 2
  | 0x0F =>
    match (bits w 4 3).toNat with
    | 0 => ok { rd := [a], wr := [d, d + 1], rdP := [g], reason := lowest [gOk (guardOf w), pair (bits w 19 6), cnd (w &&& 0xFE001FF0 == 0x1E000000) 6] }
    | 1 => ok { rd := [a, a + 1], wr := [d], rdP := [g], reason := lowest [gOk (guardOf w), pair (bits w 13 6), cnd (w &&& 0xFE001FF0 == 0x1E000010) 6] }
    | _ => .bad 2
  | 0x10 =>
    match (bits w 4 3).toNat with
    | 0 => ok { rd := [a, a + 1, b, b + 1], wr := [d, d + 1], rdP := [g], reason := lowest [gOk (guardOf w), pair (bits w 19 6), pair (bits w 13 6), pair (bits w 7 6), cnd (w &&& 0xFE000070 == 0x20000000) 6] }
    | 1 => ok { rd := [a, a + 1, b, b + 1], wr := [d, d + 1], rdP := [g], reason := lowest [gOk (guardOf w), pair (bits w 19 6), pair (bits w 13 6), pair (bits w 7 6), cnd (w &&& 0xFE000070 == 0x20000010) 6] }
    | 2 => ok { rd := [a, a + 1, b], wr := [d, d + 1], rdP := [g], reason := lowest [gOk (guardOf w), pair (bits w 19 6), pair (bits w 13 6), cnd (w &&& 0xFE000070 == 0x20000020) 6] }
    | 3 => ok { rd := [a, a + 1, b], wr := [d, d + 1], rdP := [g], reason := lowest [gOk (guardOf w), pair (bits w 19 6), pair (bits w 13 6), cnd (w &&& 0xFE000070 == 0x20000030) 6] }
    | 4 => ok { rd := [a, a + 1, b], wr := [d, d + 1], rdP := [g], reason := lowest [gOk (guardOf w), pair (bits w 19 6), pair (bits w 13 6), cnd (w &&& 0xFE000070 == 0x20000040) 6] }
    | 5 => ok { rd := [a, a + 1, b], wr := [d, d + 1], rdP := [g], reason := lowest [gOk (guardOf w), pair (bits w 19 6), pair (bits w 13 6), cnd (w &&& 0xFE000070 == 0x20000050) 6] }
    | 6 => ok { rd := [a, b], wr := [d, d + 1], rdP := [g], reason := lowest [gOk (guardOf w), pair (bits w 19 6), cnd (w &&& 0xFE000070 == 0x20000060) 6] }
    | _ => ok { rd := [a, b], wr := [d, d + 1], rdP := [g], reason := lowest [gOk (guardOf w), pair (bits w 19 6), cnd (w &&& 0xFE000070 == 0x20000070) 6] }
  | 0x11 =>
    match (bits w 4 3).toNat with
    | 0 => ok { rd := [a, a + 1], wr := [d], rdP := [g], reason := lowest [gOk (guardOf w), pair (bits w 13 6), cnd (w &&& 0xFE001FF0 == 0x22000000) 6] }
    | 1 => ok { rd := [a, a + 1], wr := [d], rdP := [g], reason := lowest [gOk (guardOf w), pair (bits w 13 6), cnd (w &&& 0xFE001FF0 == 0x22000010) 6] }
    | 2 => ok { rd := [a, a + 1], wr := [d], rdP := [g], reason := lowest [gOk (guardOf w), pair (bits w 13 6), cnd (w &&& 0xFE001FF0 == 0x22000020) 6] }
    | 3 => ok { rd := [a, a + 1], wr := [d], rdP := [g], reason := lowest [gOk (guardOf w), pair (bits w 13 6), cnd (w &&& 0xFE001FF0 == 0x22000030) 6] }
    | 4 => ok { rd := [a, a + 1], wr := [d], rdP := [g], reason := lowest [gOk (guardOf w), pair (bits w 13 6), cnd (w &&& 0xFE001FF0 == 0x22000040) 6] }
    | 5 => ok { rd := [a, a + 1], wr := [d], rdP := [g], reason := lowest [gOk (guardOf w), pair (bits w 13 6), cnd (w &&& 0xFE001FF0 == 0x22000050) 6] }
    | 6 => ok { rd := [a], wr := [d, d + 1], rdP := [g], reason := lowest [gOk (guardOf w), pair (bits w 19 6), cnd (w &&& 0xFE001FF0 == 0x22000060) 6] }
    | _ => ok { rd := [a], wr := [d, d + 1], rdP := [g], reason := lowest [gOk (guardOf w), pair (bits w 19 6), cnd (w &&& 0xFE001FF0 == 0x22000070) 6] }
  | 0x12 =>
    match (bits w 4 3).toNat with
    | 0 => ok { rd := [a, b], wr := [d], rdP := [g], reason := lowest [gOk (guardOf w), cnd (w &&& 0xFE000070 == 0x24000000) 6] }
    | 1 => ok { rd := [a, b], wr := [d], rdP := [g], reason := lowest [gOk (guardOf w), cnd (w &&& 0xFE000070 == 0x24000010) 6] }
    | 2 => ok { rd := [a, b], wr := [d], rdP := [g], reason := lowest [gOk (guardOf w), cnd (w &&& 0xFE000070 == 0x24000020) 6] }
    | 3 => ok { rd := [a, b, b + 1], wr := [d], rdP := [g], reason := lowest [gOk (guardOf w), pair (bits w 7 6), cnd (w &&& 0xFE000070 == 0x24000030) 6] }
    | 4 => ok { rd := [a, b, b + 1], wr := [d], rdP := [g], reason := lowest [gOk (guardOf w), pair (bits w 7 6), cnd (w &&& 0xFE000070 == 0x24000040) 6] }
    | 5 => ok { rd := [a, b, b + 1], wr := [d], rdP := [g], reason := lowest [gOk (guardOf w), pair (bits w 7 6), cnd (w &&& 0xFE000070 == 0x24000050) 6] }
    | 6 => ok { rd := [a, b], wr := [d], rdP := [g], nonlin := true, reason := lowest [gOk (guardOf w), cnd (w &&& 0xFE000070 == 0x24000060) 6] }
    | _ => ok { rd := [a, b], wr := [d], rdP := [g], nonlin := true, reason := lowest [gOk (guardOf w), cnd (w &&& 0xFE000070 == 0x24000070) 6] }
  | 0x13 =>
    match (bits w 4 3).toNat with
    | 0 => ok { rd := [a], wr := [d], rdP := [g], nonlin := true, reason := lowest [gOk (guardOf w), cnd (w &&& 0xFE001FF0 == 0x26000000) 6] }
    | 1 => ok { rd := [a], wr := [d], rdP := [g], nonlin := true, reason := lowest [gOk (guardOf w), cnd (w &&& 0xFE001FF0 == 0x26000010) 6] }
    | 2 => ok { rd := [a, b], wr := [d], rdP := [g], nonlin := true, reason := lowest [gOk (guardOf w), cnd (w &&& 0xFE000070 == 0x26000020) 6] }
    | 3 => ok { rd := [a], wr := [d], rdP := [g], nonlin := true, reason := lowest [gOk (guardOf w), cnd (w &&& 0xFE001FF0 == 0x26000030) 6] }
    | 4 => ok { rd := [a], wr := [d], rdP := [g], nonlin := true, reason := lowest [gOk (guardOf w), cnd (w &&& 0xFE001FF0 == 0x26000040) 6] }
    | 5 => ok { rd := [a], wr := [d], rdP := [g], nonlin := true, reason := lowest [gOk (guardOf w), cnd (w &&& 0xFE001FF0 == 0x26000050) 6] }
    | 6 => ok { rd := [a], wr := [d], rdP := [g], nonlin := true, reason := lowest [gOk (guardOf w), cnd (w &&& 0xFE001FF0 == 0x26000060) 6] }
    | _ => ok { rd := [a], wr := [d], rdP := [g], nonlin := true, reason := lowest [gOk (guardOf w), cnd (w &&& 0xFE001FF0 == 0x26000070) 6] }
  | 0x14 =>
    match (bits w 4 3).toNat with
    | 0 => ok { rd := [a, b], rdP := [g], wrP := [cp], combP := (if cm == 0 then [] else [cp]), nonlin := true, reason := lowest [gOk (guardOf w), cmp (bits w 22 3) (bits w 19 3), cnd (w &&& 0xFE000070 == 0x28000000) 6] }
    | 1 => ok { rd := [a, b], rdP := [g], wrP := [cp], combP := (if cm == 0 then [] else [cp]), nonlin := true, reason := lowest [gOk (guardOf w), cmp (bits w 22 3) (bits w 19 3), cnd (w &&& 0xFE000070 == 0x28000010) 6] }
    | 2 => ok { rd := [a, b], rdP := [g], wrP := [cp], combP := (if cm == 0 then [] else [cp]), nonlin := true, reason := lowest [gOk (guardOf w), cmp (bits w 22 3) (bits w 19 3), cnd (w &&& 0xFE000070 == 0x28000020) 6] }
    | 3 => ok { rd := [a, b], rdP := [g], wrP := [cp], combP := (if cm == 0 then [] else [cp]), nonlin := true, reason := lowest [gOk (guardOf w), cmp (bits w 22 3) (bits w 19 3), cnd (w &&& 0xFE000070 == 0x28000030) 6] }
    | 4 => ok { rd := [a, b], rdP := [g], wrP := [cp], combP := (if cm == 0 then [] else [cp]), nonlin := true, reason := lowest [gOk (guardOf w), cmp (bits w 22 3) (bits w 19 3), cnd (w &&& 0xFE000070 == 0x28000040) 6] }
    | 5 => ok { rd := [a, b], rdP := [g], wrP := [cp], combP := (if cm == 0 then [] else [cp]), nonlin := true, reason := lowest [gOk (guardOf w), cmp (bits w 22 3) (bits w 19 3), cnd (w &&& 0xFE000070 == 0x28000050) 6] }
    | 6 => ok { rd := [a, b], rdP := [g], wrP := [cp], combP := (if cm == 0 then [] else [cp]), nonlin := true, reason := lowest [gOk (guardOf w), cmp (bits w 22 3) (bits w 19 3), cnd (w &&& 0xFE000070 == 0x28000060) 6] }
    | _ => ok { rd := [a, b], rdP := [g], wrP := [cp], combP := (if cm == 0 then [] else [cp]), nonlin := true, reason := lowest [gOk (guardOf w), cmp (bits w 22 3) (bits w 19 3), cnd (w &&& 0xFE000070 == 0x28000070) 6] }
  | 0x15 =>
    match (bits w 4 3).toNat with
    | 0 => ok { rd := [a, b], wr := [d], rdP := [g], reason := lowest [gOk (guardOf w), cnd (w &&& 0xFE000070 == 0x2A000000) 6] }
    | 1 => ok { rd := [a, b], wr := [d], rdP := [g], reason := lowest [gOk (guardOf w), cnd (w &&& 0xFE000070 == 0x2A000010) 6] }
    | 2 => ok { rd := [a, b, b + 1], wr := [d], rdP := [g], reason := lowest [gOk (guardOf w), pair (bits w 7 6), cnd (w &&& 0xFE000070 == 0x2A000020) 6] }
    | 3 => ok { rd := [a, b], wr := [d], rdP := [g], reason := lowest [gOk (guardOf w), cnd (w &&& 0xFE000070 == 0x2A000030) 6] }
    | 4 => ok { rd := [a, b], wr := [d], rdP := [g], reason := lowest [gOk (guardOf w), cnd (w &&& 0xFE000070 == 0x2A000040) 6] }
    | 5 => ok { rd := [a, b, b + 1], wr := [d], rdP := [g], reason := lowest [gOk (guardOf w), pair (bits w 7 6), cnd (w &&& 0xFE000070 == 0x2A000050) 6] }
    | 6 => ok { rd := [a, b], wr := [d], rdP := [g], nonlin := true, reason := lowest [gOk (guardOf w), cnd (w &&& 0xFE000070 == 0x2A000060) 6] }
    | _ => ok { rd := [a, b], wr := [d], rdP := [g], nonlin := true, reason := lowest [gOk (guardOf w), cnd (w &&& 0xFE000070 == 0x2A000070) 6] }
  | 0x16 =>
    match (bits w 4 3).toNat with
    | 0 => ok { rd := [a, b], wr := [d], rdP := [g], reason := lowest [gOk (guardOf w), cnd (w &&& 0xFE000070 == 0x2C000000) 6] }
    | 1 => ok { rd := [a, b], wr := [d], rdP := [g], reason := lowest [gOk (guardOf w), cnd (w &&& 0xFE000070 == 0x2C000010) 6] }
    | 2 => ok { rd := [a, b], wr := [d], rdP := [g], reason := lowest [gOk (guardOf w), cnd (w &&& 0xFE000070 == 0x2C000020) 6] }
    | 3 => ok { rd := [a, b], wr := [d], rdP := [g], reason := lowest [gOk (guardOf w), cnd (w &&& 0xFE000070 == 0x2C000030) 6] }
    | 4 => ok { rd := [a, b], wr := [d], rdP := [g], reason := lowest [gOk (guardOf w), cnd (w &&& 0xFE000070 == 0x2C000040) 6] }
    | 5 => ok { rd := [a, b], wr := [d], rdP := [g], reason := lowest [gOk (guardOf w), cnd (w &&& 0xFE000070 == 0x2C000050) 6] }
    | 6 => ok { rd := [a, b], wr := [d], rdP := [g], nonlin := true, reason := lowest [gOk (guardOf w), cnd (w &&& 0xFE000070 == 0x2C000060) 6] }
    | _ => ok { rd := [a, b], wr := [d], rdP := [g], nonlin := true, reason := lowest [gOk (guardOf w), cnd (w &&& 0xFE000070 == 0x2C000070) 6] }
  | 0x17 =>
    match (bits w 4 3).toNat with
    | 0 => ok { rd := [a], wr := [d], rdP := [g], reason := lowest [gOk (guardOf w), cnd (w &&& 0xFE001FF0 == 0x2E000000) 6] }
    | 1 => ok { rd := [a], wr := [d], rdP := [g], reason := lowest [gOk (guardOf w), cnd (w &&& 0xFE001FF0 == 0x2E000010) 6] }
    | 2 => ok { rd := [a], wr := [d], rdP := [g], nonlin := true, reason := lowest [gOk (guardOf w), cnd (w &&& 0xFE001FF0 == 0x2E000020) 6] }
    | 3 => ok { rd := [a], wr := [d], rdP := [g], nonlin := true, reason := lowest [gOk (guardOf w), cnd (w &&& 0xFE001FF0 == 0x2E000030) 6] }
    | 4 => ok { rd := [a, b], wr := [d], rdP := [g], reason := lowest [gOk (guardOf w), cnd (w &&& 0xFE000070 == 0x2E000040) 6] }
    | 5 => ok { rd := [a, b], wr := [d], rdP := [g], reason := lowest [gOk (guardOf w), cnd (w &&& 0xFE000070 == 0x2E000050) 6] }
    | 6 => ok { rd := [a], wr := [d], rdP := [g], reason := lowest [gOk (guardOf w), cnd (w &&& 0xFE001FF0 == 0x2E000060) 6] }
    | _ => ok { rd := [a], wr := [d], rdP := [g], reason := lowest [gOk (guardOf w), cnd (w &&& 0xFE001FF0 == 0x2E000070) 6] }
  | 0x18 =>
    match (bits w 4 3).toNat with
    | 0 => ok { rd := [a], wr := [d], rdP := [g], nonlin := true, reason := lowest [gOk (guardOf w), cnd (w &&& 0xFE001FF0 == 0x30000000) 6] }
    | 1 => ok { rd := [a], wr := [d], rdP := [g], nonlin := true, reason := lowest [gOk (guardOf w), cnd (w &&& 0xFE001FF0 == 0x30000010) 6] }
    | 2 => ok { rd := [a], wr := [d], rdP := [g], reason := lowest [gOk (guardOf w), cnd (w &&& 0xFE001FF0 == 0x30000020) 6] }
    | 3 => ok { rd := [a], wr := [d], rdP := [g], reason := lowest [gOk (guardOf w), cnd (w &&& 0xFE001FF0 == 0x30000030) 6] }
    | 4 => ok { rd := [a], wr := [d], rdP := [g], reason := lowest [gOk (guardOf w), cnd (w &&& 0xFE001FF0 == 0x30000040) 6] }
    | 5 => ok { rd := [a], wr := [d], rdP := [g], reason := lowest [gOk (guardOf w), cnd (w &&& 0xFE001FF0 == 0x30000050) 6] }
    | 6 => ok { rd := [a], wr := [d], rdP := [g], reason := lowest [gOk (guardOf w), cnd (w &&& 0xFE001FF0 == 0x30000060) 6] }
    | _ => ok { rd := [a], wr := [d], rdP := [g], reason := lowest [gOk (guardOf w), cnd (w &&& 0xFE001FF0 == 0x30000070) 6] }
  | 0x19 =>
    match (bits w 4 3).toNat with
    | 0 => ok { rd := [a], wr := [d], la := la, long := some (d, 1), nonlin := true, reason := lowest [cnd (w &&& 0xFE001FF0 == 0x32000000) 6] }
    | 1 => ok { rd := [a], wr := [d], la := la, long := some (d, 1), nonlin := true, reason := lowest [cnd (w &&& 0xFE001FF0 == 0x32000010) 6] }
    | 2 => ok { rd := [a], wr := [d], la := la, long := some (d, 1), nonlin := true, reason := lowest [cnd (w &&& 0xFE001FF0 == 0x32000020) 6] }
    | 3 => ok { rd := [a, b, d + 1], wr := [d], la := la, long := some (d, 1), nonlin := true, reason := lowest [pair (bits w 19 6), cnd (w &&& 0xFE000070 == 0x32000030) 6] }
    | 4 => ok { rd := [a, b], wr := [d], la := la, long := some (d, 1), nonlin := true, reason := lowest [cnd (w &&& 0xFE000070 == 0x32000040) 6] }
    | 5 => ok { rd := [a, a + 1], wr := [d], la := la, long := some (d, 1), nonlin := true, reason := lowest [pair (bits w 13 6), cnd (w &&& 0xFE001FF0 == 0x32000050) 6] }
    | 6 => ok { rd := [a, a + 1, b, d + 1], wr := [d], la := la, long := some (d, 1), nonlin := true, reason := lowest [pair (bits w 19 6), pair (bits w 13 6), cnd (w &&& 0xFE000070 == 0x32000060) 6] }
    | _ => .bad 2
  | 0x1A =>
    match (bits w 4 3).toNat with
    | 0 => ok { rd := [a], wr := [d], la := la, long := some (d, 1), nonlin := true, reason := lowest [cnd (w &&& 0xFE001FF0 == 0x34000000) 6] }
    | 1 => ok { rd := [a], wr := [d], la := la, long := some (d, 1), nonlin := true, reason := lowest [cnd (w &&& 0xFE001FF0 == 0x34000010) 6] }
    | 2 => ok { rd := [a], wr := [d], la := la, long := some (d, 1), nonlin := true, reason := lowest [cnd (w &&& 0xFE001FF0 == 0x34000020) 6] }
    | 3 => ok { rd := [a], wr := [d], la := la, long := some (d, 1), nonlin := true, reason := lowest [cnd (w &&& 0xFE001FF0 == 0x34000030) 6] }
    | 4 => ok { rd := [a], wr := [d], la := la, long := some (d, 1), nonlin := true, reason := lowest [cnd (w &&& 0xFE001FF0 == 0x34000040) 6] }
    | 5 => ok { rd := [a], wr := [d], la := la, long := some (d, 1), nonlin := true, reason := lowest [cnd (w &&& 0xFE001FF0 == 0x34000050) 6] }
    | 6 => ok { rd := [a], wr := [d], la := la, long := some (d, 1), nonlin := true, reason := lowest [cnd (w &&& 0xFE001FF0 == 0x34000060) 6] }
    | _ => ok { rd := [a, b], wr := [d], la := la, long := some (d, 1), nonlin := true, reason := lowest [cnd (w &&& 0xFE000070 == 0x34000070) 6] }
  | 0x1B =>
    match (bits w 4 3).toNat with
    | 0 => ok { rd := [a, b], wr := [d], la := la, long := some (d, 1), reason := lowest [cnd (w &&& 0xFE000070 == 0x36000000) 6] }
    | 1 => ok { rd := [a, b], wr := [d], la := la, long := some (d, 1), reason := lowest [cnd (w &&& 0xFE000070 == 0x36000010) 6] }
    | 2 => ok { rd := [a, b], wr := [d], la := la, long := some (d, 1), reason := lowest [cnd (w &&& 0xFE000070 == 0x36000020) 6] }
    | 3 => ok { rd := [a, b], wr := [d], la := la, long := some (d, 1), reason := lowest [cnd (w &&& 0xFE000070 == 0x36000030) 6] }
    | _ => .bad 2
  | 0x1C =>
    match (bits w 4 3).toNat with
    | 0 => ok { rd := [a, b], wr := [d], la := la, long := some (d, 1), cls := .cross, reason := lowest [cnd (w &&& 0xFE000070 == 0x38000000) 6] }
    | 1 => ok { rd := [a, b], wr := [d], la := la, long := some (d, 1), cls := .cross, reason := lowest [cnd (w &&& 0xFE000070 == 0x38000010) 6] }
    | 2 => ok { rd := [a, b], wr := [d], la := la, long := some (d, 1), cls := .cross, reason := lowest [cnd (w &&& 0xFE000070 == 0x38000020) 6] }
    | 3 => ok { rd := [a, b], wr := [d], la := la, long := some (d, 1), cls := .cross, reason := lowest [cnd (w &&& 0xFE000070 == 0x38000030) 6] }
    | 4 => ok { rd := [a], wr := [d], la := la, long := some (d, 1), cls := .cross, reason := lowest [cnd (w &&& 0xFE001FF0 == 0x38000040) 6] }
    | 5 => ok { rd := [a], wr := [d], la := la, long := some (d, 1), cls := .cross, reason := lowest [cnd (w &&& 0xFE001FF0 == 0x38000050) 6] }
    | 6 => ok { rd := [a], wr := [d], la := la, long := some (d, 1), cls := .cross, reason := lowest [cnd (w &&& 0xFE001FF0 == 0x38000060) 6] }
    | _ => ok { rd := [a], wr := [d], la := la, long := some (d, 1), cls := .cross, reason := lowest [cnd (w &&& 0xFE001FF0 == 0x38000070) 6] }
  | 0x1D =>
    match (bits w 4 3).toNat with
    | 0 => ok { wr := [d, d + 1, d + 2, d + 3, d + 4, d + 5, d + 6, d + 7], own := [d, d + 1, d + 2, d + 3, d + 4, d + 5, d + 6, d + 7], la := la, long := some (d, 8), cls := .cross, fac := some false, reason := lowest [oct (bits w 19 6), cnd (w &&& 0xFE07FFF0 == 0x3A000000) 6] }
    | 1 => ok { wr := [d, d + 1, d + 2, d + 3, d + 4, d + 5, d + 6, d + 7], own := [d, d + 1, d + 2, d + 3, d + 4, d + 5, d + 6, d + 7], la := la, long := some (d, 8), cls := .cross, fac := some false, reason := lowest [oct (bits w 19 6), cnd (w &&& 0xFE07FFF0 == 0x3A000010) 6] }
    | 2 => ok { wr := [d, d + 1, d + 2, d + 3, d + 4, d + 5, d + 6, d + 7], own := [d, d + 1, d + 2, d + 3, d + 4, d + 5, d + 6, d + 7], la := la, long := some (d, 8), cls := .cross, fac := some false, reason := lowest [oct (bits w 19 6), cnd (w &&& 0xFE07FFF0 == 0x3A000020) 6] }
    | 3 => ok { rd := [a], cls := .team, fac := some true, reason := lowest [cnd ((bits w 19 6).toNat < 16) 7, cnd (w &&& 0xFE001FFF == 0x3A000030) 6] }
    | 4 => ok { wr := [d], long := some (d, 1), cls := .team, fac := some true, reason := lowest [cnd ((bits w 13 6).toNat < 16) 7, cnd (w &&& 0xFE001FFF == 0x3A000040) 6] }
    | 5 => ok { rd := [a, a + 1], cls := .team, fac := some true, reason := lowest [cnd ((bits w 19 6).toNat < 16) 7, pair (bits w 13 6), cnd (w &&& 0xFE001FFF == 0x3A000050) 6] }
    | 6 => ok { wr := [d, d + 1], long := some (d, 2), cls := .team, fac := some true, reason := lowest [cnd ((bits w 13 6).toNat < 16) 7, pair (bits w 19 6), cnd (w &&& 0xFE001FFF == 0x3A000060) 6] }
    | _ => .bad 2
  | 0x1E =>
    match (bits w 4 3).toNat with
    | 0 => ok { rd := [a, a + 1, b, b + 1], wr := [d, d + 1], la := la, long := some (d, 2), reason := lowest [pair (bits w 19 6), pair (bits w 13 6), pair (bits w 7 6), cnd (w &&& 0xFE000070 == 0x3C000000) 6] }
    | 1 => ok { rd := [a, a + 1, b, b + 1, b + 2, b + 3], wr := [d, d + 1], la := la, long := some (d, 2), reason := lowest [pair (bits w 19 6), pair (bits w 13 6), quad (bits w 7 6), cnd (w &&& 0xFE000070 == 0x3C000010) 6] }
    | 2 => ok { rd := [a, a + 1, b, b + 1], wr := [d, d + 1], la := la, long := some (d, 2), reason := lowest [pair (bits w 19 6), pair (bits w 13 6), pair (bits w 7 6), cnd (w &&& 0xFE000070 == 0x3C000020) 6] }
    | 3 => ok { rd := [a, a + 1, b, b + 1, b + 2, b + 3], wr := [d, d + 1], la := la, long := some (d, 2), reason := lowest [pair (bits w 19 6), pair (bits w 13 6), quad (bits w 7 6), cnd (w &&& 0xFE000070 == 0x3C000030) 6] }
    | 4 => ok { rd := [a, a + 1, b, b + 1], wr := [d, d + 1], la := la, long := some (d, 2), reason := lowest [pair (bits w 19 6), pair (bits w 13 6), pair (bits w 7 6), cnd (w &&& 0xFE000070 == 0x3C000040) 6] }
    | _ => .bad 2
  | 0x1F =>
    match (bits w 4 3).toNat with
    | 0 => ok { wr := (if a == 0x0B || a == 0x0C then [d, d + 1] else [d]), rdP := [g], reason := lowest [gOk (guardOf w), cnd ((bits w 13 6).toNat ≤ 0x0C) 7, cnd ((bits w 13 6).toNat < 0x0B || decide (0x0C < (bits w 13 6).toNat) || even (bits w 19 6)) 5, cnd (w &&& 0xFE001FF0 == 0x3E000000) 6] }
    | _ => .bad 2
  | 0x20 =>
    match (bits w 4 3).toNat with
    | 0 => ok { rd := [a, a + 1], wr := [d], la := la, long := some (d, 1), mem := true, reason := lowest [pair (bits w 13 6), cnd (w &&& 0xFE000070 == 0x40000000) 6] }
    | 1 => ok { rd := [a, a + 1], wr := [d], la := la, long := some (d, 1), mem := true, reason := lowest [pair (bits w 13 6), cnd (w &&& 0xFE000070 == 0x40000010) 6] }
    | 2 => ok { rd := [a, a + 1], wr := [d], la := la, long := some (d, 1), mem := true, reason := lowest [pair (bits w 13 6), cnd (w &&& 0xFE000070 == 0x40000020) 6] }
    | 3 => ok { rd := [a, a + 1], wr := [d], la := la, long := some (d, 1), mem := true, reason := lowest [pair (bits w 13 6), cnd (w &&& 0xFE000070 == 0x40000030) 6] }
    | 4 => ok { rd := [a, a + 1], wr := [d], la := la, long := some (d, 1), mem := true, reason := lowest [pair (bits w 13 6), cnd (w &&& 0xFE000070 == 0x40000040) 6] }
    | 5 => ok { rd := [a, a + 1], wr := [d, d + 1], la := la, long := some (d, 2), mem := true, reason := lowest [pair (bits w 13 6), pair (bits w 19 6), cnd (w &&& 0xFE000070 == 0x40000050) 6] }
    | 6 => ok { rd := [a, a + 1], wr := [d, d + 1, d + 2, d + 3], la := la, long := some (d, 4), mem := true, reason := lowest [pair (bits w 13 6), quad (bits w 19 6), cnd (w &&& 0xFE000070 == 0x40000060) 6] }
    | _ => ok { rd := [a, a + 1], wr := [d, d + 1, d + 2, d + 3], la := la, long := some (d, 4), mem := true, reason := lowest [pair (bits w 13 6), quad (bits w 19 6), cnd (w &&& 0xFE000070 == 0x40000070) 6] }
  | 0x21 =>
    match (bits w 4 3).toNat with
    | 0 => ok { rd := [b], wr := [d], la := la, long := some (d, 1), tile := some a, dom := true, mem := true, reason := lowest [cnd (w &&& 0xFE000070 == 0x42000000) 6] }
    | 1 => ok { rd := [b], wr := [d, d + 1], la := la, long := some (d, 2), tile := some a, dom := true, mem := true, reason := lowest [pair (bits w 19 6), cnd (w &&& 0xFE000070 == 0x42000010) 6] }
    | 2 => ok { rd := [b], wr := [d, d + 1, d + 2, d + 3], la := la, long := some (d, 4), tile := some a, dom := true, mem := true, reason := lowest [quad (bits w 19 6), cnd (w &&& 0xFE000070 == 0x42000020) 6] }
    | 3 => ok { rd := [b], wr := [d], la := la, long := some (d, 1), tile := some a, dom := true, mem := true, reason := lowest [cnd (w &&& 0xFE000070 == 0x42000030) 6] }
    | 4 => ok { rd := [b], wr := [d], la := la, long := some (d, 1), tile := some a, dom := true, mem := true, reason := lowest [cnd (w &&& 0xFE000070 == 0x42000040) 6] }
    | 5 => ok { rd := [b], wr := [d], la := la, long := some (d, 1), tile := some a, dom := true, mem := true, reason := lowest [cnd (w &&& 0xFE000070 == 0x42000050) 6] }
    | 6 => ok { rd := [b], wr := [d], la := la, long := some (d, 1), tile := some a, dom := true, mem := true, reason := lowest [cnd (w &&& 0xFE000070 == 0x42000060) 6] }
    | _ => ok { rd := [b], wr := [d], la := la, long := some (d, 1), tile := some a, dom := true, mem := true, reason := lowest [cnd (w &&& 0xFE000070 == 0x42000070) 6] }
  | 0x22 =>
    match (bits w 3 3).toNat with
    | 0 => ok { rd := [a, a + 1, d], rdP := [gs], cls := .store, mem := true, reason := lowest [pair (bits w 13 6), cnd (w &&& 0xFE000038 == 0x44000000) 6] }
    | 1 => ok { rd := [a, a + 1, d], rdP := [gs], cls := .store, mem := true, reason := lowest [pair (bits w 13 6), cnd (w &&& 0xFE000038 == 0x44000008) 6] }
    | 2 => ok { rd := [a, a + 1, d], rdP := [gs], cls := .store, mem := true, reason := lowest [pair (bits w 13 6), cnd (w &&& 0xFE000038 == 0x44000010) 6] }
    | 3 => ok { rd := [a, a + 1, d, d + 1], rdP := [gs], cls := .store, mem := true, reason := lowest [pair (bits w 13 6), pair (bits w 19 6), cnd (w &&& 0xFE000038 == 0x44000018) 6] }
    | 4 => ok { rd := [a, a + 1, d, d + 1, d + 2, d + 3], rdP := [gs], cls := .store, mem := true, reason := lowest [pair (bits w 13 6), quad (bits w 19 6), cnd (w &&& 0xFE000038 == 0x44000020) 6] }
    | 5 => ok { rd := [a, a + 1, d, d + 1, d + 2, d + 3], rdP := [gs], cls := .store, mem := true, reason := lowest [pair (bits w 13 6), quad (bits w 19 6), cnd (w &&& 0xFE000038 == 0x44000028) 6] }
    | 6 => ok { rd := [a, a + 1, d], rdP := [gs], cls := .store, mem := true, reason := lowest [pair (bits w 13 6), cnd (w &&& 0xFE000038 == 0x44000030) 6] }
    | _ => .bad 2
  | 0x23 => ok { rd := [b, d], rdP := [g], cls := .store, tile := some a, dom := true, mem := true, reason := lowest [gOk (guardOf w), cnd (w &&& 0xFE000000 == 0x46000000) 6] }
  | 0x24 => ok { rd := [b, d, d + 1], rdP := [g], cls := .store, tile := some a, dom := true, mem := true, reason := lowest [gOk (guardOf w), pair (bits w 19 6), cnd (w &&& 0xFE000000 == 0x48000000) 6] }
  | 0x25 => ok { rd := [b, d, d + 1, d + 2, d + 3], rdP := [g], cls := .store, tile := some a, dom := true, mem := true, reason := lowest [gOk (guardOf w), quad (bits w 19 6), cnd (w &&& 0xFE000000 == 0x4A000000) 6] }
  | 0x26 =>
    match (bits w 4 3).toNat with
    | 0 => ok { rd := [a, a + 1, b], wr := [d], long := some (d, 1), cls := .lane, mem := true, reason := lowest [pair (bits w 13 6), cnd (w &&& 0xFE000070 == 0x4C000000) 6] }
    | 1 => ok { rd := [a, a + 1, b], wr := [d], long := some (d, 1), cls := .lane, mem := true, reason := lowest [pair (bits w 13 6), cnd (w &&& 0xFE000070 == 0x4C000010) 6] }
    | 2 => ok { rd := [a, a + 1, b], wr := [d], long := some (d, 1), cls := .lane, mem := true, reason := lowest [pair (bits w 13 6), cnd (w &&& 0xFE000070 == 0x4C000020) 6] }
    | 3 => ok { rd := [a, a + 1, b], wr := [d], long := some (d, 1), cls := .lane, mem := true, reason := lowest [pair (bits w 13 6), cnd (w &&& 0xFE000070 == 0x4C000030) 6] }
    | 4 => ok { rd := [a, a + 1, b], wr := [d], long := some (d, 1), cls := .lane, mem := true, reason := lowest [pair (bits w 13 6), cnd (w &&& 0xFE000070 == 0x4C000040) 6] }
    | 5 => ok { rd := [a, a + 1, b], wr := [d], long := some (d, 1), cls := .lane, mem := true, reason := lowest [pair (bits w 13 6), cnd (w &&& 0xFE000070 == 0x4C000050) 6] }
    | 6 => ok { rd := [a, a + 1, b], wr := [d], long := some (d, 1), cls := .lane, mem := true, reason := lowest [pair (bits w 13 6), cnd (w &&& 0xFE000070 == 0x4C000060) 6] }
    | _ => ok { rd := [a, a + 1, b], wr := [d], long := some (d, 1), cls := .lane, mem := true, reason := lowest [pair (bits w 13 6), cnd (w &&& 0xFE000070 == 0x4C000070) 6] }
  | 0x27 =>
    match (bits w 4 3).toNat with
    | 0 => ok { rd := [a, a + 1, b], wr := [d], long := some (d, 1), cls := .lane, mem := true, reason := lowest [pair (bits w 13 6), cnd (w &&& 0xFE000070 == 0x4E000000) 6] }
    | 1 => ok { rd := [a, a + 1, b], wr := [d], long := some (d, 1), cls := .lane, mem := true, reason := lowest [pair (bits w 13 6), cnd (w &&& 0xFE000070 == 0x4E000010) 6] }
    | 2 => ok { rd := [a, a + 1, b], wr := [d], long := some (d, 1), cls := .lane, mem := true, reason := lowest [pair (bits w 13 6), cnd (w &&& 0xFE000070 == 0x4E000020) 6] }
    | 3 => ok { rd := [a, a + 1, b], wr := [d], long := some (d, 1), cls := .lane, mem := true, reason := lowest [pair (bits w 13 6), cnd (w &&& 0xFE000070 == 0x4E000030) 6] }
    | 4 => ok { rd := [a, a + 1, b], wr := [d], long := some (d, 1), cls := .lane, mem := true, reason := lowest [pair (bits w 13 6), cnd (w &&& 0xFE000070 == 0x4E000040) 6] }
    | 5 => ok { rd := [a, a + 1, b], wr := [d], long := some (d, 1), cls := .lane, mem := true, reason := lowest [pair (bits w 13 6), cnd (w &&& 0xFE000070 == 0x4E000050) 6] }
    | 6 => ok { rd := [a, a + 1, b], wr := [d], long := some (d, 1), cls := .lane, mem := true, reason := lowest [pair (bits w 13 6), cnd (w &&& 0xFE000070 == 0x4E000060) 6] }
    | _ => ok { rd := [a, a + 1, b], wr := [d], long := some (d, 1), cls := .lane, mem := true, reason := lowest [pair (bits w 13 6), cnd (w &&& 0xFE000070 == 0x4E000070) 6] }
  | 0x28 =>
    match (bits w 4 3).toNat with
    | 0 => ok { rd := [a, a + 1, b], wr := [d], long := some (d, 1), cls := .lane, mem := true, reason := lowest [pair (bits w 13 6), cnd (w &&& 0xFE000070 == 0x50000000) 6] }
    | 1 => ok { rd := [a, a + 1, b, b + 1], wr := [d], long := some (d, 1), cls := .lane, mem := true, reason := lowest [pair (bits w 7 6), pair (bits w 13 6), cnd (w &&& 0xFE000070 == 0x50000010) 6] }
    | 2 => ok { rd := [a, a + 1, b, b + 1], wr := [d, d + 1], long := some (d, 2), cls := .lane, mem := true, reason := lowest [pair (bits w 13 6), pair (bits w 19 6), pair (bits w 7 6), cnd (w &&& 0xFE000070 == 0x50000020) 6] }
    | 3 => ok { rd := [a, a + 1, b, b + 1], wr := [d, d + 1], long := some (d, 2), cls := .lane, mem := true, reason := lowest [pair (bits w 13 6), pair (bits w 19 6), pair (bits w 7 6), cnd (w &&& 0xFE000070 == 0x50000030) 6] }
    | 4 => ok { rd := [a, a + 1, b, b + 1, b + 2, b + 3], wr := [d, d + 1], long := some (d, 2), cls := .lane, mem := true, reason := lowest [pair (bits w 13 6), pair (bits w 19 6), quad (bits w 7 6), cnd (w &&& 0xFE000070 == 0x50000040) 6] }
    | 5 => ok { rd := [a, a + 1, b], wr := [d], long := some (d, 1), cls := .lane, mem := true, reason := lowest [pair (bits w 13 6), cnd (w &&& 0xFE000070 == 0x50000050) 6] }
    | 6 => ok { rd := [a, a + 1, b], wr := [d], long := some (d, 1), cls := .lane, mem := true, reason := lowest [pair (bits w 13 6), cnd (w &&& 0xFE000070 == 0x50000060) 6] }
    | _ => ok { rd := [a, a + 1, b], wr := [d], long := some (d, 1), cls := .lane, mem := true, reason := lowest [pair (bits w 13 6), cnd (w &&& 0xFE000070 == 0x50000070) 6] }
  | 0x29 =>
    match (bits w 4 3).toNat with
    | 0 => ok { rd := [a, a + 1, b], wr := [d], long := some (d, 1), cls := .lane, mem := true, reason := lowest [pair (bits w 13 6), cnd (w &&& 0xFE000070 == 0x52000000) 6] }
    | 1 => ok { rd := [a, a + 1, b], wr := [d], long := some (d, 1), cls := .lane, mem := true, reason := lowest [pair (bits w 13 6), cnd (w &&& 0xFE000070 == 0x52000010) 6] }
    | _ => .bad 2
  | 0x41 =>
    match (bits w 4 3).toNat with
    | 0 => ok { rd := [a, b], wr := [d], rdQ := [g], reason := lowest [gOk (guardOf w), cnd (w &&& 0xFE000070 == 0x82000000) 6] }
    | 1 => ok { rd := [a, b], wr := [d], rdQ := [g], reason := lowest [gOk (guardOf w), cnd (w &&& 0xFE000070 == 0x82000010) 6] }
    | 2 => ok { rd := [a, b], wr := [d], rdQ := [g], reason := lowest [gOk (guardOf w), cnd (w &&& 0xFE000070 == 0x82000020) 6] }
    | 3 => ok { rd := [a, b], wr := [d], rdQ := [g], reason := lowest [gOk (guardOf w), cnd (w &&& 0xFE000070 == 0x82000030) 6] }
    | 4 => ok { rd := [a, b], wr := [d], rdQ := [g], reason := lowest [gOk (guardOf w), cnd (w &&& 0xFE000070 == 0x82000040) 6] }
    | 5 => ok { rd := [a, b], wr := [d], rdQ := [g], reason := lowest [gOk (guardOf w), cnd (w &&& 0xFE000070 == 0x82000050) 6] }
    | 6 => ok { rd := [a, b], wr := [d], rdQ := [g], reason := lowest [gOk (guardOf w), cnd (w &&& 0xFE000070 == 0x82000060) 6] }
    | _ => ok { rd := [a, b], wr := [d], rdQ := [g], reason := lowest [gOk (guardOf w), cnd (w &&& 0xFE000070 == 0x82000070) 6] }
  | 0x42 =>
    match (bits w 4 3).toNat with
    | 0 => ok { rd := [a, b], wr := [d], rdQ := [g], reason := lowest [gOk (guardOf w), cnd (w &&& 0xFE000070 == 0x84000000) 6] }
    | 1 => ok { rd := [a, b], wr := [d], rdQ := [g], reason := lowest [gOk (guardOf w), cnd (w &&& 0xFE000070 == 0x84000010) 6] }
    | 2 => ok { rd := [a, b], wr := [d], rdQ := [g], reason := lowest [gOk (guardOf w), cnd (w &&& 0xFE000070 == 0x84000020) 6] }
    | 3 => ok { rd := [a, b], wr := [d], rdQ := [g], reason := lowest [gOk (guardOf w), cnd (w &&& 0xFE000070 == 0x84000030) 6] }
    | 4 => ok { rd := [a, b], wr := [d], rdQ := [g], reason := lowest [gOk (guardOf w), cnd (w &&& 0xFE000070 == 0x84000040) 6] }
    | 5 => ok { rd := [a, b], wr := [d], rdQ := [g], reason := lowest [gOk (guardOf w), cnd (w &&& 0xFE000070 == 0x84000050) 6] }
    | 6 => ok { rd := [a, a + 1, b, b + 1], wr := [d, d + 1], rdQ := [g], reason := lowest [gOk (guardOf w), pair (bits w 19 6), pair (bits w 13 6), pair (bits w 7 6), cnd (w &&& 0xFE000070 == 0x84000060) 6] }
    | _ => ok { rd := [a, a + 1, b, b + 1], wr := [d, d + 1], rdQ := [g], reason := lowest [gOk (guardOf w), pair (bits w 19 6), pair (bits w 13 6), pair (bits w 7 6), cnd (w &&& 0xFE000070 == 0x84000070) 6] }
  | 0x43 => ok { rd := [a], wr := [d], reason := lowest [cnd (w &&& 0xFE000000 == 0x86000000) 6] }
  | 0x44 => ok { wr := [d], reason := lowest [cnd (w &&& 0xFE000000 == 0x88000000) 6] }
  | 0x45 => ok { wr := [d], own := [d], reason := lowest [cnd (w &&& 0xFE000000 == 0x8A000000) 6] }
  | 0x46 =>
    match (bits w 4 3).toNat with
    | 0 => ok { rd := [a, b], rdQ := [g], wrQ := [cp], combQ := (if cm == 0 then [] else [cp]), reason := lowest [gOk (guardOf w), cmp (bits w 22 3) (bits w 19 3), cnd (w &&& 0xFE000070 == 0x8C000000) 6] }
    | 1 => ok { rd := [a, b], rdQ := [g], wrQ := [cp], combQ := (if cm == 0 then [] else [cp]), reason := lowest [gOk (guardOf w), cmp (bits w 22 3) (bits w 19 3), cnd (w &&& 0xFE000070 == 0x8C000010) 6] }
    | 2 => ok { rd := [a, b], rdQ := [g], wrQ := [cp], combQ := (if cm == 0 then [] else [cp]), reason := lowest [gOk (guardOf w), cmp (bits w 22 3) (bits w 19 3), cnd (w &&& 0xFE000070 == 0x8C000020) 6] }
    | 3 => ok { rd := [a, b], rdQ := [g], wrQ := [cp], combQ := (if cm == 0 then [] else [cp]), reason := lowest [gOk (guardOf w), cmp (bits w 22 3) (bits w 19 3), cnd (w &&& 0xFE000070 == 0x8C000030) 6] }
    | 4 => ok { rd := [a, b], rdQ := [g], wrQ := [cp], combQ := (if cm == 0 then [] else [cp]), reason := lowest [gOk (guardOf w), cmp (bits w 22 3) (bits w 19 3), cnd (w &&& 0xFE000070 == 0x8C000040) 6] }
    | 5 => ok { rd := [a, b], rdQ := [g], wrQ := [cp], combQ := (if cm == 0 then [] else [cp]), reason := lowest [gOk (guardOf w), cmp (bits w 22 3) (bits w 19 3), cnd (w &&& 0xFE000070 == 0x8C000050) 6] }
    | 6 => ok { rd := [a, b], rdQ := [g], wrQ := [cp], combQ := (if cm == 0 then [] else [cp]), reason := lowest [gOk (guardOf w), cmp (bits w 22 3) (bits w 19 3), cnd (w &&& 0xFE000070 == 0x8C000060) 6] }
    | _ => ok { rd := [a, b], rdQ := [g], wrQ := [cp], combQ := (if cm == 0 then [] else [cp]), reason := lowest [gOk (guardOf w), cmp (bits w 22 3) (bits w 19 3), cnd (w &&& 0xFE000070 == 0x8C000070) 6] }
  | 0x47 => ok { wr := [d], la := la, long := some (d, 1), lit := some 4, reason := lowest [cnd (w &&& 0xFE000000 == 0x8E000000) 6] }
  | 0x48 => ok { wr := [d, d + 1], la := la, long := some (d, 2), lit := some 8, reason := lowest [pair (bits w 19 6), cnd (w &&& 0xFE000000 == 0x90000000) 6] }
  | 0x49 => ok { wr := [d, d + 1, d + 2, d + 3], la := la, long := some (d, 4), lit := some 16, reason := lowest [quad (bits w 19 6), cnd (w &&& 0xFE000000 == 0x92000000) 6] }
  | 0x4A => ok { rdQ := [c], cls := .team, reason := lowest [gOk (condOf w), cnd (w &&& 0xFE000000 == 0x94000000) 6] }
  | 0x4B => ok { rdQ := [c], cls := .team, reason := lowest [gOk (condOf w), cnd (w &&& 0xFE000000 == 0x96000000) 6] }
  | 0x4C =>
    match (bits w 4 3).toNat with
    | 0 => ok { rdQ := [g], cls := .team, reason := lowest [gOk (guardOf w), cnd (w &&& 0xFFFFFFF0 == 0x98000000) 6] }
    | 1 => ok { rd := [a, a + 1], rdQ := [g], cls := .team, reason := lowest [gOk (guardOf w), pair (bits w 13 6), cnd (w &&& 0xFFF81FF0 == 0x98000010) 6] }
    | 2 => ok { rd := [a, a + 1], rdQ := [g], cls := .team, reason := lowest [gOk (guardOf w), pair (bits w 13 6), cnd (w &&& 0xFFF81FF0 == 0x98000020) 6] }
    | 3 => ok { rdQ := [g], cls := .team, reason := lowest [gOk (guardOf w), cnd (w &&& 0xFFFFFFF0 == 0x98000030) 6] }
    | 4 => ok { rdQ := [g], cls := .team, reason := lowest [gOk (guardOf w), cnd (w &&& 0xFFF81FF0 == 0x98000040) 6] }
    | 5 => ok { rdQ := [g], reason := lowest [gOk (guardOf w), cnd (w &&& 0xFFFFFFF0 == 0x98000050) 6] }
    | _ => .bad 2
  | 0x4D => ok { rdP := [c], cls := .team, reason := lowest [gOk (condOf w), cnd ((condOf w).g != 0) 7, cnd (w &&& 0xFE000000 == 0x9A000000) 6] }
  | 0x4E => if bits w 21 4 = 0 then ok { cls := .team, reason := lowest [cnd (w &&& 0xFFE00000 == 0x9C000000) 6] } else .bad (lowest [gOk (condOf w), 7])
  | 0x4F =>
    match (bits w 4 3).toNat with
    | 0 => ok { cls := .team, reason := lowest [gOk (guardOf w), cnd (w &&& 0xFFFFFFFF == 0x9E000000) 6] }
    | _ => .bad 2
  | 0x50 => ok { rdP := [c], cls := .team, reason := lowest [gOk (condOf w), cnd ((condOf w).g != 0) 7, cnd (w &&& 0xFE000000 == 0xA0000000) 6] }
  | 0x51 => ok { cls := .attempt, acq := bits w 12 2 != 1, reason := lowest [cnd ((bits w 14 3) != 7) 7, cnd ((bits w 6 6) != 0) 7, cnd ((bits w 12 2) != 0 || (bits w 17 8) == 0) 7, cnd (w &&& 0xFE00003F == 0xA2000000) 6] }
  | 0x52 => ok { rdP := [c], cls := .team, reason := lowest [gOk (condOf w), cnd ((condOf w).g != 0) 7, cnd (w &&& 0xFE000000 == 0xA4000000) 6] }
  | 0x53 =>
    match (bits w 4 3).toNat with
    | 0 => ok { rdQ := [g], cls := .team, reason := lowest [gOk (guardOf w), cnd (w &&& 0xFFFFFFF0 == 0xA6000000) 6] }
    | 1 => ok { rdQ := [g], cls := .team, reason := lowest [gOk (guardOf w), cnd (w &&& 0xFFFFFFF0 == 0xA6000010) 6] }
    | 2 => ok { rd := [a, a + 1, b], rdQ := [g], once := true, reason := lowest [gOk (guardOf w), pair (bits w 13 6), cnd (w &&& 0xFFF80070 == 0xA6000020) 6] }
    | 3 => ok { rdQ := [g], cls := .team, reason := lowest [gOk (guardOf w), cnd (w &&& 0xFFFFFFF0 == 0xA6000030) 6] }
    | 4 => ok { rdP := [a], rdQ := [g], wrQ := [kq], cls := .team, reason := lowest [gOk (guardOf w), cnd ((bits w 19 3) != 0) 7, cnd (1 ≤ (bits w 13 6).toNat && (bits w 13 6).toNat ≤ 7) 7, cnd (w &&& 0xFFC01FF0 == 0xA6000040) 6] }
    | 5 => ok { rdQ := [g], cls := .team, reason := lowest [gOk (guardOf w), cnd (1 ≤ (bits w 13 6).toNat && (bits w 13 6).toNat ≤ 6) 7, cnd (w &&& 0xFFF81FF0 == 0xA6000050) 6] }
    | 6 => ok { rdQ := [g], once := true, reason := lowest [gOk (guardOf w), cnd (1 ≤ (bits w 13 6).toNat && (bits w 13 6).toNat ≤ 6) 7, cnd (w &&& 0xFFF81FF0 == 0xA6000060) 6] }
    | _ => ok { rd := [a, a + 1, b], rdQ := [g], cls := .team, reason := lowest [gOk (guardOf w), pair (bits w 13 6), cnd ((bits w 19 6).toNat < 4) 7, cnd (w &&& 0xFE000070 == 0xA6000070) 6] }
  | 0x54 =>
    match (bits w 4 3).toNat with
    | 0 => ok { rdQ := [g], once := true, tile := some a, reason := lowest [gOk (guardOf w), cnd (w &&& 0xFFF81FF0 == 0xA8000000) 6] }
    | 1 => ok { wr := [d], rdQ := [g], reason := lowest [gOk (guardOf w), cnd (w &&& 0xFE001FF0 == 0xA8000010) 6] }
    | 2 => ok { rd := [b, b + 1], wr := [d], rdQ := [g], once := true, reason := lowest [gOk (guardOf w), pair (bits w 7 6), cnd (w &&& 0xFE000070 == 0xA8000020) 6] }
    | 3 => ok { rd := [b], wr := [d], rdQ := [g], once := true, reason := lowest [gOk (guardOf w), cnd (w &&& 0xFE000070 == 0xA8000030) 6] }
    | 4 => ok { rd := [b], wr := [d], rdQ := [g], once := true, reason := lowest [gOk (guardOf w), cnd (w &&& 0xFE000070 == 0xA8000040) 6] }
    | _ => .bad 2
  | 0x55 =>
    match (bits w 4 3).toNat with
    | 0 => ok { rd := [a, a + 1, b, b + 1], rdQ := [g], once := true, reason := lowest [gOk (guardOf w), pair (bits w 13 6), pair (bits w 7 6), cnd (w &&& 0xFFF80070 == 0xAA000000) 6] }
    | 1 => ok { rd := [a, a + 1, b, b + 1], rdQ := [g], once := true, reason := lowest [gOk (guardOf w), pair (bits w 13 6), pair (bits w 7 6), cnd ((bits w 19 6).toNat < 8) 7, cnd (w &&& 0xFE000070 == 0xAA000010) 6] }
    | 2 => ok { rd := [a], rdQ := [g], cls := .team, reason := lowest [gOk (guardOf w), cnd (w &&& 0xFFF81FF0 == 0xAA000020) 6] }
    | 3 => ok { rd := [a], wr := [d], rdQ := [g], reason := lowest [gOk (guardOf w), cnd (w &&& 0xFE001FF0 == 0xAA000030) 6] }
    | _ => .bad 2
  | 0x56 =>
    match (bits w 4 3).toNat with
    | 0 => ok { rd := [a, a + 1, a + 2, a + 3], wr := [d], rdQ := [g], once := true, reason := lowest [gOk (guardOf w), quad (bits w 13 6), cnd ((bits w 7 6).toNat < 16) 7, cnd (w &&& 0xFE000070 == 0xAC000000) 6] }
    | 1 => ok { rd := [a, a + 1, a + 2, a + 3, a + 4, a + 5, a + 6, a + 7], wr := [d], rdQ := [g], once := true, reason := lowest [gOk (guardOf w), oct (bits w 13 6), cnd (w &&& 0xFE001FF0 == 0xAC000010) 6] }
    | 2 => ok { wr := [d], rdQ := [g], once := true, reason := lowest [gOk (guardOf w), cnd (w &&& 0xFE001FF0 == 0xAC000020) 6] }
    | 3 => ok { rd := [a], wr := [d], rdQ := [g], cls := .team, reason := lowest [gOk (guardOf w), cnd (w &&& 0xFE001FF0 == 0xAC000030) 6] }
    | 4 => ok { rd := [a, a + 1, a + 2, a + 3], wr := [d], rdQ := [g], once := true, reason := lowest [gOk (guardOf w), quad (bits w 13 6), cnd (w &&& 0xFE001FF0 == 0xAC000040) 6] }
    | 5 => ok { rd := [a, a + 1, a + 2, a + 3], wr := [d], rdQ := [g], once := true, reason := lowest [gOk (guardOf w), quad (bits w 13 6), cnd (w &&& 0xFE001FF0 == 0xAC000050) 6] }
    | 6 => ok { wr := [d], rdQ := [g], reason := lowest [gOk (guardOf w), cnd (w &&& 0xFE07FFF0 == 0xAC000060) 6] }
    | _ => ok { rd := [a], wr := [d], rdQ := [g], once := true, reason := lowest [gOk (guardOf w), cnd (w &&& 0xFE001FF0 == 0xAC000070) 6] }
  | 0x57 =>
    match (bits w 4 3).toNat with
    | 0 => ok { rd := [a, a + 1, a + 2, a + 3, a + 4, a + 5, a + 6, a + 7], wr := [d], rdQ := [g], once := true, reason := lowest [gOk (guardOf w), oct (bits w 13 6), cnd (w &&& 0xFE001FF0 == 0xAE000000) 6] }
    | 1 => ok { rd := [a, a + 1, a + 2, a + 3, a + 4, a + 5, a + 6, a + 7], wr := [d], rdQ := [g], once := true, reason := lowest [gOk (guardOf w), oct (bits w 13 6), cnd (w &&& 0xFE001FF0 == 0xAE000010) 6] }
    | _ => .bad 2
  | 0x58 =>
    match (bits w 4 3).toNat with
    | 0 => ok { rd := [a, b], wr := [d, d + 1], rdQ := [g], once := true, reason := lowest [gOk (guardOf w), pair (bits w 19 6), cnd (w &&& 0xFE000070 == 0xB0000000) 6] }
    | 1 => ok { rd := [a], wr := [d, d + 1], rdQ := [g], reason := lowest [gOk (guardOf w), pair (bits w 19 6), cnd (w &&& 0xFE001FF0 == 0xB0000010) 6] }
    | 2 => ok { rd := [a, a + 1, b], rdQ := [g], cls := .team, reason := lowest [gOk (guardOf w), pair (bits w 13 6), cnd (w &&& 0xFFF80070 == 0xB0000020) 6] }
    | _ => .bad 2
  | 0x59 =>
    match (bits w 4 3).toNat with
    | 0 => ok { rd := [a, a + 1, b], wr := [d, d + 1], rdQ := [g], once := true, reason := lowest [gOk (guardOf w), pair (bits w 19 6), pair (bits w 13 6), cnd (w &&& 0xFE000070 == 0xB2000000) 6] }
    | 1 => ok { rd := [a, a + 1, b], rdQ := [g], cls := .team, reason := lowest [gOk (guardOf w), pair (bits w 13 6), cnd (w &&& 0xFFF80070 == 0xB2000010) 6] }
    | 2 => ok { rd := [b], wr := [d, d + 1], rdQ := [g], reason := lowest [gOk (guardOf w), pair (bits w 19 6), cnd (w &&& 0xFE07E070 == 0xB2000020) 6] }
    | _ => .bad 2
  | 0x5A =>
    match (bits w 4 3).toNat with
    | 0 => ok { wr := (if a == 0x0B || a == 0x0C || a == 0x13 then [d, d + 1] else [d]), rdQ := [g], reason := lowest [gOk (guardOf w), cnd ((bits w 13 6).toNat ≤ 0x0C || (0x10 ≤ (bits w 13 6).toNat && (bits w 13 6).toNat ≤ 0x17)) 7, cnd (!((bits w 13 6) == 0x0B || (bits w 13 6) == 0x0C || (bits w 13 6) == 0x13) || even (bits w 19 6)) 5, cnd (w &&& 0xFE001FF0 == 0xB4000000) 6] }
    | 1 => ok { rd := (if a == 0x13 then [b, b + 1] else [b]), rdQ := [g], reason := lowest [gOk (guardOf w), cnd (0x10 ≤ (bits w 13 6).toNat && (bits w 13 6).toNat ≤ 0x16) 7, cnd ((bits w 13 6) != 0x13 || even (bits w 7 6)) 5, cnd (w &&& 0xFFF80070 == 0xB4000010) 6] }
    | 2 => ok { rd := [a], wr := [d], rdQ := [g], reason := lowest [gOk (guardOf w), cnd ((bits w 13 6).toNat < 56) 4, cnd (w &&& 0xFE001FF0 == 0xB4000020) 6] }
    | _ => .bad 2
  | 0x5B =>
    match (bits w 4 3).toNat with
    | 0 => ok { wr := [d, d + 1], rdQ := [g], once := true, supv := true, reason := lowest [gOk (guardOf w), pair (bits w 19 6), cnd (w &&& 0xFE07FFF0 == 0xB6000000) 6] }
    | 1 => ok { rd := [a, a + 1], rdQ := [g], once := true, supv := true, reason := lowest [gOk (guardOf w), pair (bits w 13 6), cnd (w &&& 0xFFF81FF0 == 0xB6000010) 6] }
    | 2 => ok { rdQ := [g], once := true, supv := true, reason := lowest [gOk (guardOf w), cnd (w &&& 0xFFFFFFF0 == 0xB6000020) 6] }
    | 3 =>
      match (bits w 13 6).toNat with
      | 0 => ok { rdQ := [g], cls := .team, supv := true, reason := lowest [gOk (guardOf w), cnd (w &&& 0xFFFFFFF0 == 0xB6000030) 6] }
      | 1 => ok { rdQ := [g], cls := .team, supv := true, reason := lowest [gOk (guardOf w), cnd (w &&& 0xFFFFFFF0 == 0xB6002030) 6] }
      | _ => .bad (lowest [gOk (guardOf w), cnd (w &&& 0xFFF81FF0 == 0xB6000030) 6, 7])
    | 4 => ok { wr := [d], rdQ := [g], supv := true, reason := lowest [gOk (guardOf w), cnd ((bits w 13 6).toNat < 6) 7, cnd (w &&& 0xFE001FF0 == 0xB6000040) 6] }
    | _ => .bad 2
  | 0x5C =>
    match (bits w 4 3).toNat with
    | 0 => ok { rdQ := [g], cls := .team, reason := lowest [gOk (guardOf w), cnd (w &&& 0xFFF81FF0 == 0xB8000000) 6] }
    | 1 => ok { rd := [a], rdQ := [g], once := true, reason := lowest [gOk (guardOf w), cnd (w &&& 0xFFF81FF0 == 0xB8000010) 6] }
    | _ => .bad 2
  | 0x3F => .bad 0x0B
  | _ => .bad 1

end Sys2Proof.Machine
end

