-- ==== Sys2Proof/Machine/Sha.lean ====
section
/-! DEFINITION. SHA-512 (FIPS 180-4), by which a measurement register is extended (R382). -/

namespace Sys2Proof.Machine

/-- The round constants. -/
def shaK : List DWord :=
  [0x428A2F98D728AE22, 0x7137449123EF65CD, 0xB5C0FBCFEC4D3B2F, 0xE9B5DBA58189DBBC] ++
  [0x3956C25BF348B538, 0x59F111F1B605D019, 0x923F82A4AF194F9B, 0xAB1C5ED5DA6D8118] ++
  [0xD807AA98A3030242, 0x12835B0145706FBE, 0x243185BE4EE4B28C, 0x550C7DC3D5FFB4E2] ++
  [0x72BE5D74F27B896F, 0x80DEB1FE3B1696B1, 0x9BDC06A725C71235, 0xC19BF174CF692694] ++
  [0xE49B69C19EF14AD2, 0xEFBE4786384F25E3, 0x0FC19DC68B8CD5B5, 0x240CA1CC77AC9C65] ++
  [0x2DE92C6F592B0275, 0x4A7484AA6EA6E483, 0x5CB0A9DCBD41FBD4, 0x76F988DA831153B5] ++
  [0x983E5152EE66DFAB, 0xA831C66D2DB43210, 0xB00327C898FB213F, 0xBF597FC7BEEF0EE4] ++
  [0xC6E00BF33DA88FC2, 0xD5A79147930AA725, 0x06CA6351E003826F, 0x142929670A0E6E70] ++
  [0x27B70A8546D22FFC, 0x2E1B21385C26C926, 0x4D2C6DFC5AC42AED, 0x53380D139D95B3DF] ++
  [0x650A73548BAF63DE, 0x766A0ABB3C77B2A8, 0x81C2C92E47EDAEE6, 0x92722C851482353B] ++
  [0xA2BFE8A14CF10364, 0xA81A664BBC423001, 0xC24B8B70D0F89791, 0xC76C51A30654BE30] ++
  [0xD192E819D6EF5218, 0xD69906245565A910, 0xF40E35855771202A, 0x106AA07032BBD1B8] ++
  [0x19A4C116B8D2D0C8, 0x1E376C085141AB53, 0x2748774CDF8EEB99, 0x34B0BCB5E19B48A8] ++
  [0x391C0CB3C5C95A63, 0x4ED8AA4AE3418ACB, 0x5B9CCA4F7763E373, 0x682E6FF3D6B2B8A3] ++
  [0x748F82EE5DEFB2FC, 0x78A5636F43172F60, 0x84C87814A1F0AB72, 0x8CC702081A6439EC] ++
  [0x90BEFFFA23631E28, 0xA4506CEBDE82BDE9, 0xBEF9A3F7B2C67915, 0xC67178F2E372532B] ++
  [0xCA273ECEEA26619C, 0xD186B8C721C0C207, 0xEADA7DD6CDE0EB1E, 0xF57D4F7FEE6ED178] ++
  [0x06F067AA72176FBA, 0x0A637DC5A2C898A6, 0x113F9804BEF90DAE, 0x1B710B35131C471B] ++
  [0x28DB77F523047D84, 0x32CAAB7B40C72493, 0x3C9EBE0A15C9BEBC, 0x431D67C49C100D4C] ++
  [0x4CC5D4BECB3E42B6, 0x597F299CFC657E2A, 0x5FCB6FAB3AD6FAEC, 0x6C44198C4A475817]
/-- The initial hash value. -/
def shaH : List DWord :=
  [0x6A09E667F3BCC908, 0xBB67AE8584CAA73B, 0x3C6EF372FE94F82B, 0xA54FF53A5F1D36F1] ++
  [0x510E527FADE682D1, 0x9B05688C2B3E6C1F, 0x1F83D9ABFB41BD6B, 0x5BE0CD19137E2179]
def shaRot (x : DWord) (n : Nat) : DWord := x.rotateRight n
/-- The functions of FIPS 180-4, section 4.1.3. -/
def shaS0 (x : DWord) : DWord := shaRot x 28 ^^^ shaRot x 34 ^^^ shaRot x 39
def shaS1 (x : DWord) : DWord := shaRot x 14 ^^^ shaRot x 18 ^^^ shaRot x 41
def shaG0 (x : DWord) : DWord := shaRot x 1 ^^^ shaRot x 8 ^^^ x >>> 7
def shaG1 (x : DWord) : DWord := shaRot x 19 ^^^ shaRot x 61 ^^^ x >>> 6
/-- The schedule, newest word first, `n` words to come. -/
def shaSched : Nat → List DWord → List DWord
  | 0, w => w
  | n + 1, w => shaSched n ((shaG1 (w.getD 1 0) + w.getD 6 0 + shaG0 (w.getD 14 0) + w.getD 15 0) :: w)
/-- One round on the eight working variables. -/
def shaRound (v : List DWord) (kw : DWord × DWord) : List DWord :=
  match v with
  | [a, b, c, d, e, f, g, h] =>
    let t1 := h + shaS1 e + ((e &&& f) ^^^ (~~~e &&& g)) + kw.1 + kw.2
    let t2 := shaS0 a + ((a &&& b) ^^^ (a &&& c) ^^^ (b &&& c))
    [t1 + t2, a, b, c, d + t1, e, f, g]
  | _ => v
/-- One block of sixteen words. -/
def shaBlock (h : List DWord) (m : List DWord) : List DWord :=
  List.zipWith (· + ·) h ((shaK.zip (shaSched 64 m.reverse).reverse).foldl shaRound h)
/-- The hash of a message of 128 bytes, given as its sixteen words. -/
def sha512of128 (m : List DWord) : List DWord :=
  shaBlock (shaBlock shaH m) (0x8000000000000000 :: List.replicate 14 0 ++ [1024])
/-- A 64-byte string as a number, byte 0 lowest, in words of big-endian bytes. -/
def shaWords (x : BitVec 512) : List DWord :=
  (List.range 8).map fun i => BitVec.ofNat 64 ((List.range 8).foldl (fun a j => a * 256 + x.toNat / 256 ^ (8 * i + j) % 256) 0)
/-- The string of words, as such a number. -/
def shaBytes (ws : List DWord) : BitVec 512 :=
  BitVec.ofNat 512 ((List.range 64).map fun i => (ws.getD (i / 8) 0).toNat / 256 ^ (7 - i % 8) % 256 * 256 ^ i).sum
/-- SHA-512 of one 64-byte string followed by another. -/
def extendDigest (mr d : BitVec 512) : BitVec 512 := shaBytes (sha512of128 (shaWords mr ++ shaWords d))

end Sys2Proof.Machine
end

