-- ==== Sys2Proof/Machine/Layout.lean ====
section
/-! DEFINITION. Bit fields of numbers, the fields of a launch record (Tables 18.5, 18.6, 5.5, 11.5), how entities are
numbered, and the management registers (R5, R310, R321, R329, R335, R336, R241, R343, R351, R366, R390). -/

namespace Sys2Proof.Machine

/-- Bits `lo .. lo+n-1` of a number. -/
def natBits (v lo n : Nat) : Nat := v / 2 ^ lo % 2 ^ n
/-- One bit of a number. -/
def natBit (v i : Nat) : Bool := v / 2 ^ i % 2 == 1
/-- Replace bits `lo .. lo+n-1` of a number. -/
def natPut (v lo n x : Nat) : Nat := v - natBits v lo n * 2 ^ lo + x % 2 ^ n * 2 ^ lo
/-- The address as a number: bits 47..0 after the canonical check. -/
def wordOf (v : Nat) : Word := BitVec.ofNat 32 v
/-- A 64-bit value from a number. -/
def dwordOf (v : Nat) : DWord := BitVec.ofNat 64 v

/-! ### The launch record (R313) -/

/-- The `n` bytes from byte `off` of a launch record, as a number. -/
def lrNat (lr : BitVec 2048) (off n : Nat) : Nat := (lr.extractLsb' (8 * off) (8 * n)).toNat
def lrEntry (lr : BitVec 2048) : Nat := lrNat lr 0 8
def lrHandler (lr : BitVec 2048) : Nat := lrNat lr 8 8
def lrBell (lr : BitVec 2048) : Nat := lrNat lr 16 8
def lrBellSize (lr : BitVec 2048) : Nat := lrNat lr 24 4
def lrPartw (lr : BitVec 2048) : Nat := lrNat lr 28 4
def lrProgw (lr : BitVec 2048) : Nat := lrNat lr 32 4
def lrAttr (lr : BitVec 2048) : Nat := lrNat lr 36 4
def lrGrid (lr : BitVec 2048) : Nat := lrNat lr 40 4
def lrReels (lr : BitVec 2048) : Nat := lrNat lr 44 4
def lrWgpr (lr : BitVec 2048) : Nat := lrNat lr 48 1
def lrTpw (lr : BitVec 2048) : Nat := lrNat lr 49 1
def lrLanes (lr : BitVec 2048) : Nat := lrNat lr 50 2
def lrCores (lr : BitVec 2048) : Nat := lrNat lr 52 1
def lrNdep (lr : BitVec 2048) : Nat := lrNat lr 53 1
def lrAsid (lr : BitVec 2048) : Nat := lrNat lr 54 2 % 4096
def lrCtgt (lr : BitVec 2048) : Nat := lrNat lr 56 8
def lrLocBase (lr : BitVec 2048) : Nat := lrNat lr 64 8
def lrLocSize (lr : BitVec 2048) : Nat := lrNat lr 72 4
def lrShSize (lr : BitVec 2048) : Nat := lrNat lr 76 4
def lrShBase (lr : BitVec 2048) : Nat := lrNat lr 80 8
def lrClSize (lr : BitVec 2048) : Nat := lrNat lr 88 4
def lrAccg (lr : BitVec 2048) : Nat := lrNat lr 92 1
def lrSavap (lr : BitVec 2048) : Nat := lrNat lr 93 2
def lrClBase (lr : BitVec 2048) : Nat := lrNat lr 96 8
def lrAshBuf (lr : BitVec 2048) : Nat := lrNat lr 104 8
def lrAshSize (lr : BitVec 2048) : Nat := lrNat lr 112 4
def lrPlogSize (lr : BitVec 2048) : Nat := lrNat lr 116 4
def lrPlogBuf (lr : BitVec 2048) : Nat := lrNat lr 120 8
def lrDepSrc (lr : BitVec 2048) (j : Nat) : Nat := lrNat lr (128 + 16 * j) 4
def lrDepSeq (lr : BitVec 2048) (j : Nat) : Nat := lrNat lr (136 + 16 * j) 8

/-- Granules of the partition word (Table 5.5). -/
def lrReg (lr : BitVec 2048) : Nat := natBits (lrPartw lr) 0 7
def lrScr (lr : BitVec 2048) : Nat := natBits (lrPartw lr) 7 7
def lrAcc (lr : BitVec 2048) : Nat := natBits (lrPartw lr) 14 7
def lrShd (lr : BitVec 2048) : Nat := natBits (lrPartw lr) 21 7
/-- The progress word (Table 11.5). -/
def lrWhole (lr : BitVec 2048) : Bool := natBit (lrProgw lr) 0
def lrStvl (lr : BitVec 2048) : Nat := natBits (lrProgw lr) 1 5
def lrStvt (lr : BitVec 2048) : Bool := natBit (lrProgw lr) 6
/-- Fields of ATTR (Table 18.6). -/
def lrSer (lr : BitVec 2048) : Bool := natBit (lrAttr lr) 3
def lrFac (lr : BitVec 2048) : Bool := natBit (lrAttr lr) 4
def lrSact (lr : BitVec 2048) : Bool := natBit (lrAttr lr) 5
def lrVreg (lr : BitVec 2048) : Nat := natBits (lrAttr lr) 6 3
def lrNbarr (lr : BitVec 2048) : Nat := natBits (lrAttr lr) 9 5
def lrScls (lr : BitVec 2048) : Nat := natBits (lrAttr lr) 14 3
def lrPrio (lr : BitVec 2048) : Nat := natBits (lrAttr lr) 17 5

/-- Bytes of the scratchpad region, of all lane stacks of a workgroup, and of a cluster segment S (R314). -/
def lrScrBytes (lr : BitVec 2048) : Nat := lrScr lr * 16384
def lrStackBytes (lr : BitVec 2048) : Nat := lrTpw lr * lrLanes lr * lrLocSize lr
def lrSegment (lr : BitVec 2048) : Nat := lrScrBytes lr - lrStackBytes lr

/-! ### Numbering -/

/-- The partition of a team, the core of a team, and the slot. -/
def partOfTeam (k : Nat) : Nat := k / 16
def coreOfTeam (k : Nat) : Nat := k / 128
def slotOfTeam (k : Nat) : Nat := k % 16
/-- The core of a workgroup and of a Bellows context. -/
def coreOfWg (w : Nat) : Nat := w / 16
def coreOfCtx (x : Nat) : Nat := x / 4
/-- Source identifiers (Table 2.4). -/
def srcPart (pt : Nat) : Nat := 0x01000000 + pt
def srcCtx (x : Nat) : Nat := 0x02000000 + x
def srcMatrix (c : Nat) : Nat := 0x03000000 + c
def srcTransform (c : Nat) : Nat := 0x04000000 + c
def srcChain (c : Nat) : Nat := 0x05000000 + c
def srcQueue (q : Nat) : Nat := 0x06000000 + q
def srcHost (ld : Nat) : Nat := 0x07000000 + ld
def srcStoker (ten : Nat) : Nat := 0x08000000 + ten % 4
def srcChimney : Nat := 0x09000000
def srcMem (c : Nat) : Nat := 0x0A000000 + c
def srcPort (p : Nat) : Nat := 0x0B000000 + p

/-! ### Management registers -/

/-- Offsets of the registers. -/
def oDevid : Nat := 0
def oChstat : Nat := 0x8
def oElstat : Nat := 0x10
def oCethr : Nat := 0x18
def oAdmin : Nat := 0x20
def oKznode : Nat := 0x30
def oLd (ld : Nat) : Nat := 0x1000 + 0x100 * ld
def oLdctl (ld : Nat) : Nat := oLd ld
def oLdstat (ld : Nat) : Nat := oLd ld + 0x08
def oEvbase (ld : Nat) : Nat := oLd ld + 0x10
def oEvhead (ld : Nat) : Nat := oLd ld + 0x18
def oEvtail (ld : Nat) : Nat := oLd ld + 0x20
def oSqbase (ld : Nat) : Nat := oLd ld + 0x28
def oSqhead (ld : Nat) : Nat := oLd ld + 0x30
def oSqtail (ld : Nat) : Nat := oLd ld + 0x38
def oPrstage (ld : Nat) : Nat := oLd ld + 0x40
def oPrreply (ld : Nat) : Nat := oLd ld + 0x48
def oSkcmd (ld : Nat) : Nat := oLd ld + 0x50
def oSkstat (ld : Nat) : Nat := oLd ld + 0x58
def oLent (ld j : Nat) : Nat := oLd ld + 0x80 + 0x10 * j
def oMbcmd (ld : Nat) : Nat := 0x8000 + 0x10 * ld
def oMbstat (ld : Nat) : Nat := 0x8008 + 0x10 * ld
def oTemplate (i : Nat) : Nat := 0x9000 + 4 * i
def oLq (q : Nat) : Nat := 0x10000 + 0x40 * q
def oLqbase (q : Nat) : Nat := oLq q
def oLqcfg (q : Nat) : Nat := oLq q + 0x08
def oLqapp (q : Nat) : Nat := oLq q + 0x10
def oLqpfx (q : Nat) : Nat := oLq q + 0x18
def oLqend (q : Nat) : Nat := oLq q + 0x20
def oNc (c : Nat) : Nat := 0x100000 + 0x40 * c
def oNccfg (c : Nat) : Nat := oNc c
def oNchead (c : Nat) : Nat := oNc c + 0x08
def oNccq (c : Nat) : Nat := oNc c + 0x10
def oNcpub (c : Nat) : Nat := oNc c + 0x18
def oNcseq (c : Nat) : Nat := oNc c + 0x20
def oPeer (ten i : Nat) : Nat := 0x200000 + 0x10000 * ten + 0x10 * i
def oLand (i : Nat) : Nat := 0x300000 + 0x20 * i
def oAp (n : Nat) : Nat := 0x310000 + 0x20 * n
def oFep (i : Nat) : Nat := 0x320000 + 0x20 * i
def oSlotTbl (pt i : Nat) : Nat := 0x1000000 + 0x1000 * (pt / 8) + 0x200 * (pt % 8) + 4 * i
def oSlotCtl (pt : Nat) : Nat := oSlotTbl pt 8
def oSlotCnt (pt c k : Nat) : Nat := 0x1000000 + 0x1000 * (pt / 8) + 0x200 * (pt % 8) + 0x40 + 0x20 * c + 8 * k
def oObs (c : Nat) : Nat := 0x2000000 + 0x4000 * c
def oSmpctl (c : Nat) : Nat := oObs c
def oSmpbase (c : Nat) : Nat := oObs c + 0x8
def oSmpsize (c : Nat) : Nat := oObs c + 0x10
def oDbg (pt : Nat) : Nat := oObs (pt / 8) + 0x1000 + 0x400 * (pt % 8)
def oDbgctl (pt : Nat) : Nat := oDbg pt
def oDbgstat (pt : Nat) : Nat := oDbg pt + 0x8
def oBrkpc (pt j : Nat) : Nat := oDbg pt + 0x10 + 8 * j
def oLcrctl (pt : Nat) : Nat := oDbg pt + 0x30
def oLcrrng (pt r : Nat) : Nat := oDbg pt + 0x80 + 0x10 * r
def oLcrlim (pt r : Nat) : Nat := oDbg pt + 0x88 + 0x10 * r
def oLcroth (pt k : Nat) : Nat := oDbg pt + 0x180 + 8 * k
def oLcridle (pt : Nat) : Nat := oDbg pt + 0x1A0
def oLcrcnt (pt r k : Nat) : Nat := oDbg pt + 0x200 + 0x20 * r + 8 * k
def oDumpbase (ten : Nat) : Nat := 0x3000000 + 0x40 * ten
def oDumpsize (ten : Nat) : Nat := 0x3000000 + 0x40 * ten + 8

/-- The Reset value of the register at an offset (Tables 0.1, 5.9, 21.2, 23.6); 0 for every other. -/
def mgmtReset (off : Nat) : DWord :=
  if off = oDevid then 0x96725C10
  else if off = oChstat then dwordOf (1900 * 2 ^ 32 + 1)
  else if off = oCethr then 0x100
  else if off = oTemplate 8 then 1
  else if decide (0x1000 ≤ off) && decide (off < 0x2000) && off % 0x100 == 0 then 0x640004
  else if decide (0x1000000 ≤ off) && decide (off < 0x1000000 + 0x1000 * 672) && off % 0x200 == 0x20 then 1
  else 0

/-- Read a management register. -/
def State.reg (s : State) (off : Nat) : Nat := (s.mgmt.getD off (mgmtReset off)).toNat
/-- Set a management register. -/
def State.setReg (s : State) (off v : Nat) : State :=
  { s with mgmt := s.mgmt.setD off (dwordOf v) (mgmtReset off) }
/-- Registers of the core domain: the core configuration and observation blocks (R321, R366). -/
def coreDomainReg (off : Nat) : Bool := decide (0x1000000 ≤ off) && decide (off < 0x3000000)
/-- Registers that are 32 bits wide: the slot template and the slot tables (R89). -/
def wordReg (off : Nat) : Bool :=
  (decide (0x9000 ≤ off) && decide (off < 0x9024)) ||
  (decide (0x1000000 ≤ off) && decide (off < 0x2000000) && decide (off % 0x200 < 0x24))

/-! ### Which fields of a register may be written (R5, R6) -/

/-- The bits of a register that hold a written value: RW fields. WO fields act and hold nothing (they read as zero). -/
def regRW (off : Nat) : Nat :=
  if decide (0x1000 ≤ off) && decide (off < 0x2000) then
    match off % 0x100 with
    | 0x00 => 0xFFFF001F
    | 0x10 => 0xFFFFFFFFFFFCF
    | 0x28 => 0xFFFFFFFFFFFCF
    | 0x18 => 0xFFFFFFFFFFFFFFFF
    | 0x30 => 0xFFFFFFFFFFFFFFFF
    | 0x40 => 0xFFFFFFFFC0001
    | _ => 0
  else if off = oCethr then 0xFFFF
  else if off = oKznode then 0x800003FF
  else if decide (0x9000 ≤ off) && decide (off < 0x9020) then 0x77777777
  else if off = oTemplate 8 then 1
  else if decide (0x10000 ≤ off) && decide (off < 0x14000) then
    match off % 0x40 with
    | 0x00 => 0xFFFFFFFFFFFF0
    | 0x08 => 0x18F
    | 0x10 => 0xFFFFFFFFFFFFFFFF
    | _ => 0
  else if decide (0x100000 ≤ off) && decide (off < 0x140000) then
    match off % 0x40 with
    | 0x00 => 0xFFF0000010F
    | 0x08 => 0xFFFFFFFFFFC0
    | 0x10 => 0xFFFFFFFFFFCF
    | _ => 0
  else if decide (0x200000 ≤ off) && decide (off < 0x340000) then 0xFFFFFFFFFFFFFFFF
  else if decide (0x1000000 ≤ off) && decide (off < 0x1000000 + 0x1000 * 672) then
    if off % 0x200 < 0x20 then 0x77777777 else if off % 0x200 = 0x20 then 1 else 0
  else if decide (0x2000000 ≤ off) && decide (off < 0x2000000 + 0x4000 * 672) then
    let o := off % 0x4000
    if o = 0 then 0xFFFFFFF03
    else if o = 8 then 0xFFFFFFFFFFFE0
    else if o = 0x10 then 0xFFFFFFFF
    else if o < 0x1000 then 0
    else if 0x3000 ≤ o then 0
    else
      let p := o % 0x400
      if p = 0 then 0xFFFF000000000F00
      else if decide (0x10 ≤ p) && decide (p < 0x30) then 0xFFF0FFFFFFFFFFFD
      else if p = 0x30 then 1
      else if decide (0x80 ≤ p) && decide (p < 0x180) then
        if p % 0x10 = 0 then 0xFFF0FFFFFFFFFFFD else if p % 0x10 = 8 then 0xFFFFFFFFFFFC else 0
      else if decide (0x180 ≤ p) && decide (p ≤ 0x1A0) then 0xFFFFFFFFFFFF
      else if 0x200 ≤ p then 0xFFFFFFFFFFFF
      else 0
  else if decide (0x3000000 ≤ off) && decide (off < 0x3000400) then
    match off % 0x40 with
    | 0 => 0xFFFFFFFFFFFC1
    | 8 => 0xFFFFFFFF
    | _ => 0
  else 0

/-- What a register holds after a write of `v`: RW bits take it, every other bit stays (R5). -/
def regMerge (off old v : Nat) : Nat :=
  let m := BitVec.ofNat 64 (regRW off)
  ((BitVec.ofNat 64 v &&& m) ||| (BitVec.ofNat 64 old &&& ~~~m)).toNat

/-! ### Logical devices (R351, R352) -/

/-- Whether a host is bound. -/
def State.bound (s : State) (ld : Nat) : Bool := natBit (s.reg (oLdctl ld)) 8
/-- The access ceiling, in microseconds. -/
def State.ceil (s : State) (ld : Nat) : Nat := natBits (s.reg (oLdctl ld)) 0 5
/-- The latency tolerance. -/
def State.tol (s : State) (ld : Nat) : Nat := natBits (s.reg (oLdctl ld)) 16 16
/-- The key tag of host accesses (R360). -/
def State.hostKtag (s : State) (ld : Nat) : Nat := natBits (s.reg (oLdctl ld)) 40 8
/-- Range `j` of the lent map: guest-physical start and size, where it exists. -/
def State.lent (s : State) (ld j : Nat) : Option (Nat × Nat) :=
  let lo := s.reg (oLent ld j)
  if natBit lo 0 then some (natBits lo 12 40 * 4096, natBits (s.reg (oLent ld j + 8)) 12 24 * 4096) else none
/-- The ranges of the lent map, in ascending j (R352). -/
def State.lentMap (s : State) (ld : Nat) : List (Nat × Nat) := (List.range 8).filterMap (s.lent ld)
/-- The guest-physical address of a device-physical address. -/
def dpaToGpa : List (Nat × Nat) → Nat → Option Nat
  | [], _ => none
  | (g, sz) :: rs, d => if d < sz then some (g + d) else dpaToGpa rs (d - sz)
/-- Whether a guest-physical page lies in the lent map. -/
def State.lentPage (s : State) (ld gpa : Nat) : Bool :=
  (s.lentMap ld).any fun r => decide (r.1 ≤ gpa) && decide (gpa < r.1 + r.2)

/-! ### Power states (R387) -/

/-- The power state, H0..H3. -/
def State.hst (s : State) : Nat := natBits (s.reg oChstat) 8 2
/-- Whether the core domain takes no work: during a core reset, or below H0. -/
def State.coreDown (s : State) : Bool := s.resetting || s.hst != 0

/-! ### Tenants -/

/-- An empty tenant: what a tenant that no configuration names holds. -/
def Tenant.empty : Tenant :=
  { s2root := 0, ranges := [], near := [], far := [], tables := [], pool := [], popped := [], clusters := 0,
    faults := [], nextFault := 1, reqs := [], nextId := 1, replies := [] }
/-- The tenant `n`. -/
def State.tenant (s : State) (n : Nat) : Tenant := s.tenants.getD n Tenant.empty
/-- Replace a tenant. -/
def State.setTenant (s : State) (n : Nat) (t : Tenant) : State := { s with tenants := s.tenants.insert n t }
/-- Whether a guest-physical address lies within the tenant's grant (R298). -/
def Tenant.granted (t : Tenant) (gpa : Nat) : Bool :=
  t.ranges.any fun r => decide (r.1 ≤ gpa) && decide (gpa < r.1 + r.2)

/-! ### Free values (log entry 6) -/

/-- A free word and the advanced counter. -/
def State.fresh (s : State) : Word × State := (Config.freeWord s.free, { s with free := s.free + 1 })
/-- A free choice. -/
def State.freshBit (s : State) : Bool × State := (Config.freeBit s.free, { s with free := s.free + 1 })
/-- A free number. -/
def State.freshNat (s : State) : Nat × State := (Config.freeNat s.free, { s with free := s.free + 1 })

end Sys2Proof.Machine
end

