-- ==== Sys2Proof/Machine/Xlate.lean ====
section
/-! DEFINITION. System-physical memory with poison, keys, migration and compressed pages (R30, R301, R303, R360, R361), and
translation: the device table, the two stages, the nested walk and cached translations (R287..R296). -/

namespace Sys2Proof.Machine

/-! ### Blocks and frames -/

/-- The 4 KiB frame of an address. -/
def frameOf (a : Nat) : Nat := a / 4096 * 4096
/-- Where the content of a frame stands now: old translations of a page that has moved, was compressed, or whose image was decompressed,
are forwarded until the shootdown completes (R301, R303). -/
def State.forward (s : State) (f : Nat) : Nat := s.forwards.getD f f
/-- Where the bytes at a system-physical address stand now. -/
def State.realSpa (s : State) (spa : Nat) : Nat := s.forward (s.forward (frameOf spa)) + spa % 4096
/-- The compressed image that an address lies in. -/
def State.imageAt (s : State) (spa : Nat) : Option Image := s.images.find? (frameOf (s.realSpa spa))
/-- One byte of memory as an agent reads it: a read of a compressed page is served inline (R303). -/
def State.sysByte (s : State) (spa : Nat) : Byte :=
  match s.imageAt spa with
  | some im => im.bytes.getD (spa % 4096) 0
  | none => s.mem.read (s.realSpa spa)
/-- The `n` bytes from `spa`. -/
def State.sysBytes (s : State) (spa n : Nat) : List Byte := (List.range n).map fun i => s.sysByte (spa + i)
/-- Whether the 64-byte block of an address is poisoned (R30). -/
def State.sysBad (s : State) (spa : Nat) : Bool :=
  match s.imageAt spa with
  | some im => im.bad.has (spa % 4096 / 64) || im.lost.has (spa % 4096 / 256)
  | none => s.poison.has (s.realSpa spa / 64)
/-- The key tag a line was last written under (R361). -/
def State.keyAt (s : State) (spa : Nat) : Nat := s.lineKey.getD (s.realSpa spa / 64) 0
/-- Whether a read under `ktag` fails the line's integrity check (R361). -/
def State.tagBad (s : State) (spa ktag : Nat) : Bool := s.keyAt spa != ktag
/-- Mark the block of an address poisoned. -/
def State.markBad (s : State) (spa : Nat) : State :=
  match s.imageAt spa with
  | some im => { s with images := s.images.insert (frameOf (s.realSpa spa)) { im with bad := im.bad.insert (spa % 4096 / 64) () } }
  | none => { s with poison := s.poison.insert (s.realSpa spa / 64) () }

/-- Remove every byte of `a .. a+n-1` from the list: they read as `Memory.blank`. -/
def Memory.clear (m : Memory) (a n : Nat) : Memory := m.filter fun c => decide (c.1 < a) || decide (a + n ≤ c.1)

/-- Write bytes inside one 64-byte block of an ordinary frame (R30, R361): a full block clears poison and sets the key; a
partial write leaves a poisoned block as it is and poisons a block held under another key. -/
def State.putBlock (s : State) (spa : Nat) (bytes : List Byte) (ktag : Nat) : State :=
  let b := spa / 64
  if bytes.length = 64 then
    { s with mem := s.mem.writeN spa bytes, poison := s.poison.erase b, lineKey := s.lineKey.setD b ktag 0 }
  else if s.poison.has b then s
  else if s.lineKey.getD b 0 = ktag then { s with mem := s.mem.writeN spa bytes }
  else { s with poison := s.poison.insert b () }

/-- The pieces of a write that lie in one 64-byte block each. -/
def blockPieces : Nat → Nat → List Byte → List (Nat × List Byte)
  | 0, _, _ => []
  | _ + 1, _, [] => []
  | n + 1, a, bs =>
    let k := 64 - a % 64
    (a, bs.take k) :: blockPieces n (a + k) (bs.drop k)

/-- Where a write to an ordinary frame is mirrored while its page migrates (R301). -/
def State.mirrors (s : State) (spa : Nat) : List Nat :=
  s.migs.filterMap fun m =>
    if frameOf spa = m.src && !m.switched && decide (spa % 4096 / 64 < m.copied) then some (m.dst + spa % 4096) else none

/-- Write inside one block and its mirrors. -/
def State.putMirrored (s : State) (spa : Nat) (bytes : List Byte) (ktag : Nat) : State :=
  (s.mirrors spa).foldl (fun t a => t.putBlock a bytes ktag) (s.putBlock spa bytes ktag)

/-- A set of blocks without those of a frame: every block of the frame has been written whole (R30). -/
def offFrame (m : NSet) (f : Nat) : NSet := m.filter fun c => decide (c.1 < f / 64) || decide (f / 64 + 64 ≤ c.1)
/-- Zero a frame under a key tag, clearing poison (R299, R356). -/
def State.zeroFrame (s : State) (f ktag : Nat) : State :=
  { s with
    mem := s.mem.clear f 4096
    poison := offFrame s.poison f
    lineKey := (List.range 64).foldl (fun m i => m.setD (f / 64 + i) ktag 0) s.lineKey }

/-! ### Stage 2 (R289, R291, R294) -/

/-- Address of the next table or leaf in an entry. -/
def entAddr (e : Nat) : Nat := natBits e 12 40 * 4096
/-- Size of a leaf at a level (Table 16.2). -/
def leafSize (lvl : Nat) : Nat := 2 ^ (39 - 9 * lvl)
def entV (e : Nat) : Bool := natBit e 0
def entLeaf (e : Nat) : Bool := natBit e 1
def entContig (e : Nat) : Bool := natBit e 8
/-- STATE of a stage-2 leaf (Table 16.4). -/
def entState (e : Nat) : Nat := natBits e 60 2

/-- A stage-1 entry is well-formed (R290). -/
def s1Ok (lvl e : Nat) : Bool :=
  natBits e 52 12 == 0 && natBits e 5 3 == 0 &&
  (if entLeaf e then lvl != 0 && entAddr e % leafSize lvl == 0 else lvl != 3)

/-- A stage-2 entry is well-formed (R291): a pair of V and STATE outside its list makes a leaf malformed. -/
def s2Ok (lvl e : Nat) : Bool :=
  natBits e 62 2 == 0 && natBits e 48 11 == 0 && natBits e 9 3 == 0 && natBits e 5 3 == 0 &&
  (if entLeaf e then
    lvl != 0 && natBits e 12 36 * 4096 % leafSize lvl == 0 &&
    (if entV e then decide (entState e ≤ 2) else entState e == 0 || entState e == 3)
   else lvl != 3)

/-- The stage-2 address field is bits 47:12. -/
def s2Addr (e : Nat) : Nat := natBits e 12 36 * 4096

/-- What a stage-2 walk finds. -/
inductive S2Out where
  /-- a valid leaf: the entry's address, its level, the entry used, the translated address, and the bytes that translate alike -/
  | leaf (at' lvl e spa size : Nat)
  /-- the walk ended at an entry that is unmapped, host-backed or malformed -/
  | absent (at' lvl e : Nat)
  /-- the table block is poisoned -/
  | poisoned
  deriving DecidableEq, Repr

/-- The stage-2 index at a level (Table 16.2). -/
def s2Index (lvl gpa : Nat) : Nat := if lvl = 0 then natBits gpa 39 13 else natBits gpa (39 - 9 * lvl) 9

/-- An eight-byte entry. -/
def State.entry (s : State) (a : Nat) : Nat := leNat (s.sysBytes a 8)

/-- Whether the 16 level-2 leaves from `base` form a consistent contiguity group (R294). -/
def State.contigOk (s : State) (base : Nat) (addr : Nat → Nat) : Bool :=
  let e0 := s.entry base
  (List.range 16).all fun i =>
    let e := s.entry (base + 8 * i)
    entContig e && entLeaf e && addr e == addr e0 + i * 2 ^ 21 && e - addr e == e0 - addr e0

/-- The entry by which an access translates at a level, with the translated address and the bytes that translate alike: a consistent
contiguity group at level 2 is one 32 MiB translation; in an inconsistent one a free choice decides between the access's own entry,
whatever it is, and the group's first (R294). The hint is ignored in an entry that is no leaf. -/
def State.entryFor (s : State) (fb lvl tbl idx va : Nat) (addr : Nat → Nat) (ok : Nat → Bool) : Nat × Nat × Nat :=
  let e := s.entry (tbl + 8 * idx)
  let own := (e, addr e + va % leafSize lvl, leafSize lvl)
  let base := tbl + 8 * (idx / 16 * 16)
  let e0 := s.entry base
  let hint := fun x => entContig x && entLeaf x
  if lvl != 2 || !(hint e || hint e0) then own
  else if s.contigOk base addr then (e, addr e + va % leafSize lvl, 2 ^ 25)
  else if ok e0 && entV e0 && entLeaf e0 && !s.sysBad base && Config.freeBit fb then (e0, addr e0 + va % 2 ^ 25, leafSize lvl)
  else own

/-- Walk stage 2 from the table at `tbl`, `fuel` levels to go. -/
def State.s2Go (s : State) (fb gpa : Nat) : Nat → Nat → S2Out
  | 0, tbl => .absent tbl 3 0
  | fuel + 1, tbl =>
    let lvl := 3 - fuel
    let idx := s2Index lvl gpa
    let a := tbl + 8 * idx
    if s.sysBad a then .poisoned
    else
      let r := s.entryFor fb lvl tbl idx gpa s2Addr (s2Ok 2)
      let e := r.1
      if !s2Ok lvl e || !entV e then .absent a lvl e
      else if entLeaf e then .leaf a lvl e r.2.1 r.2.2
      else State.s2Go s fb gpa fuel (s2Addr e)

/-- Walk stage 2 of a root. -/
def State.s2Walk (s : State) (fb root gpa : Nat) : S2Out := s.s2Go fb gpa 4 root

def Need.load : Need := ⟨true, false, false⟩
def Need.store : Need := ⟨false, true, false⟩
def Need.atomic : Need := ⟨true, true, false⟩
def Need.fetch : Need := ⟨false, false, true⟩

def Need.all : Need := ⟨true, true, true⟩

/-- What an entry grants. -/
def permOf (e : Nat) : Need := ⟨natBit e 2, natBit e 3, natBit e 4⟩
/-- Whether permissions meet a need. -/
def permits (p n : Need) : Bool := (!n.r || p.r) && (!n.w || p.w) && (!n.x || p.x)

/-- What a translation gives (R292): the system- and guest-physical address, the size of the smaller leaf, and what each stage grants;
or a fault with its cause of Table 9.1, the guest-physical address at fault, and a table block found to fail its integrity check. -/
inductive XRes where
  | ok (spa gpa size : Nat) (p1 p2 : Need)
  | fault (cause gpa : Nat) (bad : Option Nat)
  deriving DecidableEq, Repr

/-- Stage 2 alone (R292): cause 3 for whatever fails. -/
def State.s2Access (s : State) (fb root gpa : Nat) (n : Need) : XRes :=
  match s.s2Walk fb root gpa with
  | .leaf _ _ e spa size => if permits (permOf e) n then .ok spa gpa size Need.all (permOf e) else .fault 3 gpa none
  | .absent _ _ _ => .fault 3 gpa none
  | .poisoned => .fault 3 gpa none

/-! ### Cached translations (R293, R295) -/

/-- The receiver that serves a core (R305). -/
def rcvOfCore (c : Nat) : Nat := if c < 336 then 0 else 1
/-- The cached translations of a kind that cover an address. -/
def State.cached (s : State) (rcv kind who a : Nat) : List TlbE :=
  s.tlb.filter fun c => c.rcv == rcv && c.kind == kind && c.who == who && decide (c.base ≤ a) && decide (a < c.base + c.size)
/-- Any of a list, or none of them: each access independently uses an old translation or the new one (R293). -/
def pickOne {α : Type} (fb : Nat) : List α → Option α
  | [] => none
  | cs => cs[Config.freeNat fb % (cs.length + 1)]?
/-- The cached form of a translation of address `a`. -/
def tlbOf (rcv kind who ten a spa gpa size : Nat) (p1 p2 : Need) : TlbE :=
  { rcv := rcv, kind := kind, who := who, ten := ten, base := a / size * size, size := size, spa := spa - a % size,
    gpa := gpa - a % size, p1 := p1, p2 := p2 }
/-- What a cached translation answers: a stage-1 bit that lacks is cause 2, a stage-2 bit cause 3. -/
def TlbE.answer (c : TlbE) (a : Nat) (n : Need) : XRes :=
  let gpa := c.gpa + (a - c.base)
  if !permits c.p1 n then .fault 2 gpa none
  else if !permits c.p2 n then .fault 3 gpa none
  else .ok (c.spa + (a - c.base)) gpa c.size c.p1 c.p2
/-- A leaf's size without its contiguity hint. -/
def plainSize (z : Nat) : Nat := if z = 2 ^ 25 then 2 ^ 21 else z
/-- The bytes that one cached translation of both stages covers: the smaller of their leaves (R293), 32 MiB only where both hold consistent
groups over that range (R294). -/
def coverSize (va z1 gpa z2 : Nat) : Nat :=
  if z1 = 2 ^ 25 && z2 = 2 ^ 25 && gpa % 2 ^ 25 == va % 2 ^ 25 then 2 ^ 25 else min (plainSize z1) (plainSize z2)
/-- Cache translations that are not cached yet. -/
def State.learn (s : State) (cs : List TlbE) : State :=
  { s with tlb := cs.foldl (fun m c => if m.contains c then m else m ++ [c]) s.tlb }

/-- Stage 2 as an agent with caches uses it: by a cached translation of the tenant, or by a walk, which it may cache. A core die's nested
translation has no stage-1 group beside it, so its hint has no effect there (R294). -/
def State.s2Via (s : State) (rcv : Option Nat) (fb ten root gpa : Nat) (n : Need) : XRes × List TlbE :=
  match rcv.bind fun r => pickOne fb (s.cached r 1 ten gpa) with
  | some c => (c.answer gpa n, [])
  | none =>
    match s.s2Access (fb + 1) root gpa n, rcv with
    | .ok spa g size p1 p2, some r =>
      (.ok spa g size p1 p2, [tlbOf r 1 ten ten gpa spa g (if r = 2 then size else plainSize size) p1 p2])
    | x, _ => (x, [])

/-! ### The device table and the nested walk -/

/-- The device-table entry of an ASID (Table 16.1), as a number of 32 bytes. -/
def State.dte (s : State) (asid : Nat) : Nat := leNat (s.mem.readN (s.dtbase + 32 * asid) 32)
def dteS1 (d : Nat) : Nat := natBits d 0 64
def dteS2 (d : Nat) : Nat := natBits d 64 64
def dteTenant (d : Nat) : Nat := natBits d 128 8
def dteKtag (d : Nat) : Nat := natBits d 136 8
def dteV (d : Nat) : Bool := natBit d 144

/-- Walk stage 1 from the table at guest-physical `g`, `fuel` levels to go (R292): an agent with caches may skip a level by a cached
non-leaf entry. What the walk may cache stands beside its answer; a faulting level caches nothing (R293). -/
def State.s1Go (s : State) (rcv : Option Nat) (fb asid ten root ktag va : Nat) (n : Need) : Nat → Nat → XRes × List TlbE
  | 0, g => (.fault 1 g none, [])
  | fuel + 1, g =>
    let lvl := 3 - fuel
    let fb' := fb + 8 * lvl
    match rcv.bind fun r => pickOne fb' ((s.cached r 2 asid va).filter fun c => c.size == leafSize lvl) with
    | some c => State.s1Go s rcv fb asid ten root ktag va n fuel c.gpa
    | none =>
      let idx := natBits va (39 - 9 * lvl) 9
      let x := s.s2Via rcv (fb' + 1) ten root (g + 8 * idx) .load
      match x.1 with
      | .fault c p b => (.fault c p b, x.2)
      | .ok a _ _ _ _ =>
        if s.sysBad a then (.fault 5 (g + 8 * idx) none, x.2)
        else if s.tagBad a ktag then (.fault 5 (g + 8 * idx) (some a), x.2)
        else
          let r := s.entryFor (fb' + 3) lvl (a - 8 * idx) idx va entAddr (s1Ok 2)
          let e := r.1
          if !s1Ok lvl e || !entV e then (.fault 1 (g + 8 * idx) none, x.2)
          else if entLeaf e then
            if permits (permOf e) n then
              let y := s.s2Via rcv (fb' + 4) ten root r.2.1 n
              match y.1 with
              | .fault c p b => (.fault c p b, x.2 ++ y.2)
              | .ok spa gpa size _ p2 =>
                let z := coverSize va r.2.2 gpa size
                (.ok spa gpa z (permOf e) p2, x.2 ++ y.2 ++
                  match rcv with
                  | some rc => [tlbOf rc 0 asid ten va spa gpa z (permOf e) p2]
                  | none => [])
            else (.fault 2 r.2.1 none, x.2)
          else
            let y := State.s1Go s rcv fb asid ten root ktag va n fuel (entAddr e)
            (y.1, x.2 ++ y.2 ++
              match rcv with
              | some rc => [{ rcv := rc, kind := 2, who := asid, ten := ten, base := va / leafSize lvl * leafSize lvl, size := leafSize lvl,
                              spa := 0, gpa := entAddr e, p1 := Need.all, p2 := Need.all }]
              | none => [])

/-- The nested walk of an address under an ASID, by an agent's caches if it has any (R292, R293). -/
def State.walkVia (s : State) (rcv : Option Nat) (fb asid va : Nat) (n : Need) : XRes × List TlbE :=
  let d := s.dte asid
  if dteV d then s.s1Go rcv fb asid (dteTenant d) (dteS2 d) (dteKtag d) va n 4 (dteS1 d) else (.fault 1 0 none, [])
/-- The nested walk alone. -/
def State.walk (s : State) (asid va : Nat) (n : Need) : XRes := (s.walkVia none s.free asid va n).1

/-- Translate an address under an ASID for an agent whose translations are cached at `rcv` (R292, R293). -/
def State.xlate (s : State) (rcv asid va : Nat) (n : Need) : State × XRes :=
  let fb := s.free
  let s := { s with free := fb + 64 }
  match pickOne fb (s.cached rcv 0 asid va) with
  | some c => (s, c.answer va n)
  | none => let x := s.walkVia (some rcv) (fb + 1) asid va n; (s.learn x.2, x.1)

/-- Translate a guest-physical address by stage 2 alone, with the caches of a receiver. -/
def State.xlate2 (s : State) (rcv ten gpa : Nat) (n : Need) : State × XRes :=
  let x := s.s2Via (some rcv) s.free ten (s.tenant ten).s2root gpa n
  ({ s with free := s.free + 2 }.learn x.2, x.1)
/-- The host translation path (R292). -/
def State.hostXlate (s : State) (ld gpa : Nat) (n : Need) : State × XRes := s.xlate2 2 ld gpa n

/-! ### Stage-2 tables as the Stoker writes them (R291, R296) -/

/-- The leaf the Stoker writes for tenant memory: R, W and X, valid, a leaf (R296). -/
def s2Leaf (spa st : Nat) (desc : Bool) : Nat := natPut 0 12 36 (spa / 4096) + 0b11111 + st * 2 ^ 60 + (if desc then 2 ^ 59 else 0)
/-- A host-backed absent leaf: V = 0, STATE 3 (R291). -/
def s2HostLeaf (desc : Bool) : Nat := 2 + 3 * 2 ^ 60 + (if desc then 2 ^ 59 else 0)

/-- Write one entry of a table. -/
def State.putEntry (s : State) (a e : Nat) : State :=
  if s.poison.has (a / 64) then s else { s with mem := s.mem.writeN a (natLE 8 e) }

/-- A table frame of a tenant, zeroed. -/
def State.takeTable (s : State) (ten : Nat) : Option (Nat × State) :=
  match (s.tenant ten).tables with
  | [] => none
  | f :: fs => some (f, (s.setTenant ten { s.tenant ten with tables := fs }).zeroFrame f 0)

/-- Walk to the level-3 entry of a guest-physical page, building the tables that lack; none where no table frame is left, a larger leaf is
in the way, or the entry stands in a poisoned block. -/
def State.s2Slot (s : State) (ten gpa : Nat) : Nat → Nat → Option (Nat × State)
  | 0, _ => none
  | fuel + 1, tbl =>
    let lvl := 3 - fuel
    let a := tbl + 8 * s2Index lvl gpa
    if s.sysBad a then none
    else if lvl = 3 then some (a, s)
    else
      let e := s.entry a
      if s2Ok lvl e && entV e then
        if entLeaf e then none else State.s2Slot s ten gpa fuel (s2Addr e)
      else
        match s.takeTable ten with
        | none => none
        | some (f, s) => State.s2Slot (s.putEntry a (natPut 0 12 36 (f / 4096) + 1)) ten gpa fuel f

/-- Set the leaf of a guest-physical page. -/
def State.s2Set (s : State) (ten gpa e : Nat) : Option State :=
  match s.s2Slot ten gpa 4 (s.tenant ten).s2root with
  | some (a, s) => some (s.putEntry a e)
  | none => none

/-- The leaf of a guest-physical page, as it stands: 0 where none is reached. -/
def State.s2Get (s : State) (ten gpa : Nat) : Nat :=
  match s.s2Walk 0 (s.tenant ten).s2root gpa with
  | .leaf _ _ e _ _ => e
  | .absent _ _ e => e
  | .poisoned => 0

/-- State of a guest-physical page: 0, 1, 2 mapped (ordinary, migrating, compressed), 3 host-backed, 4 unmapped; 5 behind a poisoned table
block, which is none of them. -/
def State.pageState (s : State) (ten gpa : Nat) : Nat :=
  match s.s2Walk 0 (s.tenant ten).s2root gpa with
  | .leaf _ _ e _ _ => entState e
  | .absent _ lvl e => if s2Ok lvl e && entLeaf e && entState e == 3 then 3 else 4
  | .poisoned => 5

/-! ### Frames -/

/-- Compressed pages of a tenant within its lent map: each holds one reserve frame (R304). -/
def State.reserved (s : State) (ten : Nat) : Nat :=
  (s.images.filter fun p => p.2.ten == ten && s.lentPage ten p.2.gpa).length

/-- Take a frame of a tier from a tenant's grant: 0 any, 1 near, 2 far; the reserve stays (R304; log entry 8). -/
def State.takeFrame (s : State) (ten tier : Nat) : Option (Nat × State) :=
  let t := s.tenant ten
  let far := fun (_ : Unit) =>
    if s.reserved ten < t.far.length then
      match t.far with
      | f :: fs => some (f, s.setTenant ten { t with far := fs })
      | [] => none
    else none
  if tier = 2 then far ()
  else
    match t.near with
    | f :: fs => some (f, s.setTenant ten { t with near := fs })
    | [] => if tier = 0 then far () else none

/-- Take the reserve frame for a decompression: a lent page has one of its own, any other needs one beyond them (R304). -/
def State.takeReserve (s : State) (ten : Nat) (lent : Bool) : Option (Nat × State) :=
  let t := s.tenant ten
  if lent || decide (s.reserved ten < t.far.length) then
    match t.far with
    | f :: fs => some (f, s.setTenant ten { t with far := fs })
    | [] => none
  else none

/-- Whether an address lies in the far tier: frames above the near tier's 768 GiB (Table 2.2; log entry 8). -/
def farFrame (f : Nat) : Bool := decide (768 * 2 ^ 30 ≤ f)

/-- Return a frame to the tenant's grant. -/
def State.giveFrame (s : State) (ten f : Nat) : State :=
  let t := s.tenant ten
  if farFrame f then s.setTenant ten { t with far := t.far ++ [f] } else s.setTenant ten { t with near := t.near ++ [f] }

/-! ### Shootdowns (R305) -/

/-- Start a shootdown for an initiator. -/
def State.startShoot (s : State) (ini : Nat) (scope : ShootScope) (fin : ShootDone) : State :=
  let n := s.invSeq.getD ini 1
  { s with
    invSeq := s.invSeq.setD ini (n + 1) 1
    shoots := s.shoots ++ [{ ini := ini, seq := n, scope := scope, got := [], fin := fin }] }

/-- Whether a cached translation is covered. A change of a guest-physical page may concern the page of any table, so it drops every
non-leaf entry of its tenant. -/
def ShootScope.covers (sc : ShootScope) (c : TlbE) : Bool :=
  match sc with
  | .page n v => c.kind != 1 && c.who == n && decide (c.base ≤ v * 4096) && decide (v * 4096 < c.base + c.size)
  | .asid n => c.kind != 1 && c.who == n
  | .gpage t g => c.ten == t && (c.kind == 2 || (decide (c.gpa ≤ g * 4096) && decide (g * 4096 < c.gpa + c.size)))
  | .tenant t => c.ten == t

/-! ### Compressed pages (R303) -/

/-- Move the entries of a table by line with a page. -/
def moveLines {α : Type} (m : SMap α) (src dst : Nat) : SMap α :=
  (List.range 64).foldl (fun m i =>
    match m.find? (src / 64 + i) with
    | some v => (m.erase (src / 64 + i)).insert (dst / 64 + i) v
    | none => m) m
/-- Lines that a host holds cached stay so where their page moves, and the writes that wait for them (R60); those asked for are asked for
again there. -/
def State.moveCached (s : State) (src dst : Nat) : State :=
  let asked := (List.range 64).filter fun i => s.biAsked.has (src / 64 + i)
  { s with
    hostCached := moveLines s.hostCached src dst
    biAsked := moveLines s.biAsked src dst
    biWait := s.biWait.map fun b => if frameOf b.spa = src then { b with spa := dst + b.spa % 4096 } else b
    outs := s.outs ++ asked.map fun i => .backInv (dst / 64 + i) }

/-- The content of an image stands in a frame, with its poison and its keys: every block is written whole, so that no mark from before is
left (R30). -/
def State.layOut (s : State) (img : Nat) (im : Image) (f : Nat) : State :=
  let keys := (List.range 64).foldl (fun m i => m.setD (f / 64 + i) (s.lineKey.getD (img / 64 + i) 0) 0) s.lineKey
  let bad := (List.range 64).foldl (fun m i => if im.bad.has i || im.lost.has (i / 4) then m.insert (f / 64 + i) () else m) (offFrame s.poison f)
  { s with
    mem := (s.mem.clear f 4096).writeN f im.bytes
    poison := bad
    lineKey := keys
    images := s.images.erase img }
/-- The same, its leaf ordinary (R303). -/
def State.unpack (s : State) (img : Nat) (im : Image) (f : Nat) : State :=
  let s := s.layOut img im f
  (s.s2Set im.ten im.gpa (s2Leaf f 0 (natBit (s.s2Get im.ten im.gpa) 59))).getD s

/-- Decompress the page of an image into a reserve frame: the leaf becomes ordinary, old translations forward, and the
Stoker's shootdown starts; the image is freed when it ends. A write that was translated while the reserve held a frame, and finds none
when it is performed, is not lost: the page then stands in the image's own frame (log entry 43). -/
def State.decompress (s : State) (img : Nat) : State :=
  match s.images.find? img with
  | none => s
  | some im =>
    let lost := im.lost.map fun c => im.gpa + 256 * c.1
    match s.takeReserve im.ten (s.lentPage im.ten im.gpa) with
    | none => (s.unpack img im img).startShoot (srcStoker im.ten) (.gpage im.ten (im.gpa / 4096)) (.image im.ten lost)
    | some (f, s) =>
      let s := ({ s with forwards := s.forwards.insert img f }.unpack img im f).moveCached img f
      s.startShoot (srcStoker im.ten) (.gpage im.ten (im.gpa / 4096)) (.free im.ten img lost)

/-- Whether a write to the address can be performed: a compressed page needs a reserve frame (R304). -/
def State.canWrite (s : State) (spa : Nat) : Bool :=
  match s.imageAt spa with
  | none => true
  | some im =>
    s.lentPage im.ten im.gpa || decide (s.reserved im.ten < (s.tenant im.ten).far.length)

/-- A block of memory has been written: it is noted with its content, for the words that WAITV watches (R195). -/
def State.noteSys (s : State) (spa : Nat) : State :=
  { s with wrote := s.wrote ++ [(.sys (spa / 64 * 64), s.sysBytes (spa / 64 * 64) 64)] }

/-- Write bytes at a system-physical address: block by block, a compressed page first decompressed. -/
def State.putSys (s : State) (spa : Nat) (bytes : List Byte) (ktag : Nat) : State :=
  (blockPieces bytes.length spa bytes).foldl (fun t p =>
    let t := match t.imageAt p.1 with | some _ => t.decompress (frameOf (t.realSpa p.1)) | none => t
    (t.putMirrored (t.realSpa p.1) p.2 ktag).noteSys (t.realSpa p.1)) s

end Sys2Proof.Machine
end

