-- ==== Sys2Proof/Machine/Records.lean ====
section
/-! DEFINITION. Sequence numbers, error records and event rings (R24..R26, R32, R357, R389, R390, R402), and reads and writes of
system memory with the integrity check and back-invalidation around them (R60, R361). -/

namespace Sys2Proof.Machine

/-- Extend a measurement register (R382). -/
def State.extendMr (s : State) (k : Nat) (d : BitVec 512) : State := { s with mr := s.mr.setD k (extendDigest (s.mr.getD k 0) d) 0 }
/-- Send something to the outside. -/
def State.emit (s : State) (o : Out) : State := { s with outs := s.outs ++ [o] }

/-- Take the next sequence number of a source (R25). -/
def State.takeSeq (s : State) (src : Nat) : Nat × State :=
  let n := s.seq.getD src 1
  (n, { s with seq := s.seq.setD src (n + 1) 1 })

/-- What an error record says (Table 23.4); `pois` is SEV bit 2. -/
structure Err where
  cat : Nat
  code : Nat
  ten : Option Nat := none
  asid : Option Nat := none
  ld : Option Nat := none
  addr : Nat := 0
  pc : Nat := 0
  aux0 : Nat := 0
  aux1 : Nat := 0
  psrc : Nat := 0
  pseq : Nat := 0
  pois : Bool := false
  deriving DecidableEq, Repr

/-- SEV bits 1:0 (Table 23.5). -/
def sevOf (cat code : Nat) : Nat :=
  match cat with
  | 1 => if code = 1 then 1 else 2
  | 2 => 3
  | 3 => 3
  | 4 => if code = 1 then 3 else 2
  | 5 => if code = 6 then 0 else 2
  | 6 => if code = 2 then 0 else if code = 5 then 3 else 2
  | 7 => if code = 3 then 2 else 0
  | 8 => if code = 5 then 2 else 0
  | _ => 0

/-- Bytes placed one after another, the first lowest: pairs of a width in bytes and a value. -/
def packNat : List (Nat × Nat) → Nat
  | [] => 0
  | (w, v) :: r => v % 256 ^ w + 256 ^ w * packNat r

/-- An error record as it stands in the collector (Table 23.4). -/
def recordOf (src seq : Nat) (e : Err) : BitVec 512 :=
  BitVec.ofNat 512 (packNat [
    (4, src), (4, 0), (8, seq), (1, e.cat), (1, e.code),
    (1, sevOf e.cat e.code + (if e.pois then 4 else 0)),
    (1, match e.ten with | some t => t + 128 | none => 0),
    (2, match e.asid with | some a => a + 32768 | none => 0),
    (2, match e.ld with | some l => l | none => 0xFFFF),
    (8, e.addr), (8, e.pc), (4, e.aux0), (4, e.aux1), (4, e.psrc), (4, 0), (8, e.pseq)])

/-- The bytes of a 64-byte block held as a number. -/
def blockBytes (b : BitVec 512) : List Byte := natLE 64 b.toNat

/-- Collect a record: it takes its source's number and enters the ring of 4,096 (R390). -/
def State.collect (s : State) (src : Nat) (e : Err) : State × BitVec 512 :=
  let (n, s) := s.takeSeq src
  let r := recordOf src n e
  let el := s.reg oElstat
  let full := decide (4096 ≤ s.records.length)
  let el' := (if full then (el / 2 ^ 32 + 1) % 2 ^ 32 else el / 2 ^ 32) * 2 ^ 32 + (el % 2 ^ 32 + 1) % 2 ^ 32
  ({ s with records := (if full then s.records.drop 1 else s.records) ++ [r] }.setReg oElstat el', r)

/-- Where the walk alone takes a tenant's guest-physical address (R402); a leaf for peer memory, which R337 gives to teams alone, leads
nowhere (DESIGN CHOICE, log entry 14). -/
def State.gpaTo (s : State) (ten gpa : Nat) (n : Need) : Option Nat :=
  match s.s2Access s.free (s.tenant ten).s2root gpa n with
  | .ok spa _ _ _ _ => if natBit spa 47 then none else some spa
  | .fault _ _ _ => none

/-- Where the walk alone takes a virtual address (R402). -/
def State.vaTo (s : State) (asid va : Nat) (n : Need) : Option Nat :=
  if 2 ^ 48 ≤ va then none
  else
    match s.walk asid va n with
    | .ok spa _ _ _ _ => if natBit spa 47 then none else some spa
    | .fault _ _ _ => none

/-- The guest-physical address that the walk alone gives a virtual one; where it gives none, the virtual address itself. -/
def State.gpaOf (s : State) (asid va : Nat) : Nat :=
  match s.walk asid va ⟨false, false, false⟩ with
  | .ok _ g _ _ _ => g
  | .fault _ _ _ => va

/-- The lines of a run of bytes. -/
def linesOf (spa n : Nat) : List Nat := if n = 0 then [] else (List.range ((spa + n - 1) / 64 - spa / 64 + 1)).map (spa / 64 + ·)

/-- Ask a host for a line that it holds cached, once (R60). -/
def State.askLine (s : State) (line : Nat) : State :=
  if s.biAsked.has line then s else { s with biAsked := s.biAsked.insert line (), outs := s.outs ++ [.backInv line] }
/-- The line of an address, where its content stands now. -/
def State.lineOf (s : State) (spa : Nat) : Nat := s.realSpa spa / 64
/-- A read that is followed by a write as one step waits until no host holds the line cached (R56, R60): the line is asked for, and the
answer is true, while one does. -/
def State.lineHeld (s : State) (spa : Nat) : State × Bool :=
  if s.hostCached.has (s.lineOf spa) then (s.askLine (s.lineOf spa), true) else (s, false)
/-- A write to a line that a host holds cached asks for the line and waits for it before it is performed at system scope (R60): it is kept,
to be done again after what the host returns; without bytes it is poison. -/
def State.hostWait (s : State) (by' : Writer) (ten : Option Nat) (spa : Nat) (bytes : List Byte) (ktag : Nat) : State :=
  if s.hostCached.has (s.lineOf spa) then
    let s := s.askLine (s.lineOf spa)
    { s with biWait := s.biWait ++ [{ by' := by', ten := ten, spa := spa, bytes := bytes, bad := bytes.isEmpty, ktag := ktag, num := s.biNext }]
             biNext := s.biNext + 1 }
  else s
/-- Write system memory. -/
def State.writeHost (s : State) (by' : Writer) (ten : Option Nat) (spa : Nat) (bytes : List Byte) (ktag : Nat) : State :=
  ((blockPieces bytes.length spa bytes).foldl (fun s p => s.hostWait by' ten p.1 p.2 ktag) s).putSys spa bytes ktag

/-- Entries of an event or service ring: 16 x 2^LOG2N (Table 21.2). -/
def ringSize (base : Nat) : Nat := 16 * 2 ^ natBits base 0 4
/-- Its guest-physical base; 0 is no ring. -/
def ringBase (base : Nat) : Nat := natBits base 6 46 * 64

/-- The entries of a ring that are not yet performed at system scope. -/
def State.ringWaits (s : State) (ring : Nat) : List Nat :=
  s.biWait.filterMap fun b => match b.by'.ring with | some (r, i) => if r = ring then some i else none | none => none
/-- The index behind the entries written to a ring, and the tail register that covers those performed. -/
def State.ringEnd (s : State) (ring tail : Nat) : Nat := s.ringNext.getD ring (s.reg tail)
/-- Raise a ring's tail over the entries before `next` that are performed at system scope (R357, R362); `f` follows a rise. -/
def State.raiseTail (s : State) (ring tail next : Nat) (f : State → State) : State :=
  let top := (s.ringWaits ring).foldl min next
  let s := { s with ringNext := if top = next then s.ringNext.erase ring else s.ringNext.insert ring next }
  if top = s.reg tail then s else f (s.setReg tail top)
/-- EVTAIL of a logical device rises, with MSI-X 0. -/
def State.raiseEvents (s : State) (ld next : Nat) : State := s.raiseTail ld (oEvtail ld) next fun s => s.emit (.msix ld 0)
/-- SQTAIL rises, with MSI-X 1 where the queue was empty (R362). -/
def State.raiseCalls (s : State) (ld next : Nat) : State :=
  let empty := s.reg (oSqtail ld) == s.reg (oSqhead ld)
  s.raiseTail (16 + ld) (oSqtail ld) next fun s => if empty then s.emit (.msix ld 1) else s

/-- Write an event entry to a logical device's ring (R357): true where it was lost. -/
def State.evPut (s : State) (ld : Nat) (r : BitVec 512) : State × Bool :=
  let b := s.reg (oEvbase ld)
  let tail := s.ringEnd ld (oEvtail ld)
  if ringBase b = 0 || tail - s.reg (oEvhead ld) = ringSize b then (s, false)
  else
    match s.gpaTo ld (ringBase b + 64 * (tail % ringSize b)) .store with
    | some spa => ((s.writeHost { path := 6, ring := some (ld, tail) } (some ld) spa (blockBytes r) (s.hostKtag ld)).raiseEvents ld (tail + 1), false)
    | none => (s.raiseEvents ld (tail + 1), true)

/-- An event entry is a record with its type in bytes 4..7 (Table 21.6). -/
def eventOf (r : BitVec 512) (typ : Nat) : BitVec 512 := r ||| BitVec.ofNat 512 (typ * 2 ^ 32)

/-- Post an event entry; one that is lost is recorded at the collector only (R402). -/
def State.evPost (s : State) (ld : Nat) (r : BitVec 512) (typ : Nat) : State :=
  match s.evPut ld (eventOf r typ) with
  | (s, false) => s
  | (s, true) => (s.collect ((r.extractLsb' 0 32).toNat) { cat := 7, code := 3, ten := some ld, aux0 := 5 }).1

/-- The logical devices a record concerns (R390). -/
def State.concerned (s : State) (e : Err) : List Nat :=
  match e.ten, e.ld with
  | some t, some l => if t = l then [t] else [t, l]
  | some t, none => [t]
  | none, some l => l :: ((List.range 16).filter fun i => s.bound i && i != l)
  | none, none => (List.range 16).filter s.bound

/-- Write an error record (R32, R390): to the collector and to each owner's event ring. -/
def State.report (s : State) (src : Nat) (e : Err) : State :=
  let (s, r) := s.collect src e
  (s.concerned e).foldl (fun t ld => t.evPost ld r 1) s

/-- The controller that holds a block, of its tier: which one of them is not said (log entry 9). -/
def ctlOf (spa : Nat) : Nat :=
  let c := Config.freeNat (spa / 64)
  if farFrame spa then 16 + c % 16 else c % 12

/-- A block fails its integrity check: it is marked poisoned and recorded once, with the controller's corrected count (R32, R361, R389). -/
def State.tagFail (s : State) (ten : Option Nat) (gpa spa : Nat) : State :=
  let c := ctlOf spa
  (s.markBad spa).report (srcMem c) { cat := 1, code := 3, ten := ten, addr := gpa, aux0 := s.corrected.getD c 0, pois := true }

/-- Write system memory for an agent; a partial write under another key than the line's finds the mismatch (R361). -/
def State.writeSys (s : State) (by' : Writer) (ten : Option Nat) (gpa spa : Nat) (bytes : List Byte) (ktag : Nat) : State :=
  let blocks := blockPieces bytes.length spa bytes
  let s := blocks.foldl (fun t p =>
    if p.2.length != 64 && !t.sysBad p.1 && t.tagBad p.1 ktag then t.tagFail ten (gpa + (p.1 - spa)) p.1 else t) s
  s.writeHost by' ten spa bytes ktag

/-- Read system memory for an agent: none where a block is poisoned or fails its check (R31, R361). -/
def State.readSys (s : State) (ten : Option Nat) (gpa spa n ktag : Nat) : State × Option (List Byte) :=
  let ls := linesOf spa n
  let s := ls.foldl (fun t l =>
    let a := l * 64
    if !t.sysBad a && t.tagBad a ktag then t.tagFail ten (gpa / 64 * 64 + (a - spa / 64 * 64)) a else t) s
  if ls.any fun l => s.sysBad (l * 64) then (s, none) else (s, some (s.sysBytes spa n))

/-- The address ranges, page by page, of a run of bytes. -/
def pagePieces : Nat → Nat → Nat → List (Nat × Nat)
  | 0, _, _ => []
  | fuel + 1, a, n =>
    if n = 0 then [] else
      let k := min n (4096 - a % 4096)
      (a, k) :: pagePieces fuel (a + k) (n - k)

/-- Write bytes into a tenant's guest-physical memory, if every page of it can be written by the walk alone (R402). -/
def State.writeGpa (s : State) (ten gpa : Nat) (bytes : List Byte) (ktag : Nat) (by' : Writer := { path := 6 }) : Option State :=
  let ps := pagePieces bytes.length gpa bytes.length
  if ps.all fun p => (s.gpaTo ten p.1 .store).isSome then
    some (ps.foldl (fun t p =>
      match t.gpaTo ten p.1 .store with
      | some a => t.writeSys by' (some ten) p.1 a ((bytes.drop (p.1 - gpa)).take p.2) ktag
      | none => t) s)
  else none

/-- The same under an ASID. -/
def State.writeVa (s : State) (asid va : Nat) (bytes : List Byte) (by' : Writer := { path := 6 }) : Option State :=
  let ps := pagePieces bytes.length va bytes.length
  let d := s.dte asid
  if ps.all fun p => (s.vaTo asid p.1 .store).isSome then
    some (ps.foldl (fun t p =>
      match t.vaTo asid p.1 .store with
      | some a => t.writeSys by' (some (dteTenant d)) (t.gpaOf asid p.1) a ((bytes.drop (p.1 - va)).take p.2) (dteKtag d)
      | none => t) s)
  else none

/-- Read bytes of a tenant's guest-physical memory under a key; none where a page does not translate or a block is poisoned. -/
def State.readGpa (s : State) (ten gpa n ktag : Nat) : State × Option (List Byte) :=
  (pagePieces n gpa n).foldl (fun (acc : State × Option (List Byte)) p =>
    match acc with
    | (s, some bs) =>
      match s.gpaTo ten p.1 .load with
      | some a =>
        match s.readSys (some ten) p.1 a p.2 ktag with
        | (s, some b) => (s, some (bs ++ b))
        | (s, none) => (s, none)
      | none => (s, none)
    | (s, none) => (s, none)) (s, some [])

/-- The same under an ASID. -/
def State.readVa (s : State) (asid va n : Nat) : State × Option (List Byte) :=
  let d := s.dte asid
  (pagePieces n va n).foldl (fun (acc : State × Option (List Byte)) p =>
    match acc with
    | (s, some bs) =>
      match s.vaTo asid p.1 .load with
      | some a =>
        match s.readSys (some (dteTenant d)) (s.gpaOf asid p.1) a p.2 (dteKtag d) with
        | (s, some b) => (s, some (bs ++ b))
        | (s, none) => (s, none)
      | none => (s, none)
    | (s, none) => (s, none)) (s, some [])

/-- A record that could not be written: the owner and the Chimney learn of it (R402). -/
def State.lostRecord (s : State) (src ten kind : Nat) : State :=
  s.report src { cat := 7, code := 3, ten := some ten, aux0 := kind }

end Sys2Proof.Machine
end

