-- ==== Sys2Proof/Machine/Ops.lean ====
section
/-! DEFINITION. The named operations: entities, lanes, cycles and samples (R75, R374, R376), pending writes (R81), the register pool
(R198, R220, R221), stopping a team (R29), windows and the access check (R121, R184, R314), stores and what a lane sees (R37..R46), the
Stoker's queue, and taking a lane fault into the supervisor handler and returning (R204, R206). -/

namespace Sys2Proof.Machine

/-- What a step answers. -/
abbrev Res := Host.Outcome State Fault Refusal

/-! ### Entities -/

/-- A workgroup that is not resident. -/
def Wg.empty : Wg :=
  { q := 0, pos := 0, reel := 0, reelwg := 0, wgid := 0, lr := 0, ten := 0, asid := 0, ktag := 0, scr := [], acc := [],
    pscr := [], pacc := [], tokens := [], account := 0, claims := [], rdv := [], mstat := 0, lastOp := 0, donePfx := 0,
    doneOps := [], mops := [], barrs := [], lostArrs := [], teamsLeft := 0 }
/-- A partition at reset. -/
def Part.empty : Part :=
  { pcyc := 0, issuing := none, lentBy := none, attempt := false, stopReq := [], stepSlot := none, sampled := 0, sampAt := 0 }
/-- A tile-table entry after core reset (R230). -/
def Tile.empty : Tile :=
  { owner := 0, acc := false, st := 0, fmt := 0, dom := 0, base := 0, size := 0, openBy := none, live := 0, back := false }

def State.wgOf (s : State) (w : Nat) : Wg := s.wgs.getD w Wg.empty
def State.setWg (s : State) (w : Nat) (g : Wg) : State := { s with wgs := s.wgs.insert w g }
def State.part (s : State) (pt : Nat) : Part := s.parts.getD pt Part.empty
def State.setPart (s : State) (pt : Nat) (p : Part) : State := { s with parts := s.parts.setD pt p Part.empty }
def State.setTeam (s : State) (k : Nat) (t : Team) : State := { s with teams := s.teams.insert k t }
/-- Change a team that is resident. -/
def State.modTeam (s : State) (k : Nat) (f : Team → Team) : State := { s with teams := s.teams.modify k f }
/-- The tile `n` of a core; tiles are unowned where `owner` is 0, else one more than the owning workgroup's slot. -/
def State.tile (s : State) (c n : Nat) : Tile := s.tiles.getD (c * 64 + n) Tile.empty
def State.setTile (s : State) (c n : Nat) (t : Tile) : State := { s with tiles := s.tiles.setD (c * 64 + n) t Tile.empty }
/-- Whether workgroup `w` owns the tile. -/
def Tile.ownedBy (t : Tile) (w : Nat) : Bool := t.owner == w % 16 + 1

/-- %team (R314). -/
def Team.id (t : Team) (g : Wg) : Nat := g.wgid * lrTpw g.lr + t.wgteam

/-- The resident teams of a partition, by slot. -/
def State.teamsOf (s : State) (pt : Nat) : SMap Team := s.teams.filter fun c => c.1 / 16 == pt
/-- The resident teams of a workgroup. -/
def State.teamsOfWg (s : State) (w : Nat) : SMap Team := s.teams.filter fun c => c.2.w == w

/-- The team a step works for, with its run in issue; without one the instruction has nothing to act for (log entry 7). -/
def State.withRun (s : State) (f : Nat → Team → Run → Res) : Res :=
  match s.teams.find? s.cur with
  | some t =>
    match t.run with
    | some r => f s.cur t r
    | none => .fault .noTeam
  | none => .fault .noTeam

/-- The Bellows context a step works for. -/
def State.withCtx (s : State) (f : Nat → Ctx → Res) : Res :=
  match s.ctxs.find? s.curCtx with
  | some c => f s.curCtx c
  | none => .fault .noContext

/-! ### Lanes -/

/-- Whether a lane is in a mask. -/
def Mask.has (m : Mask) (l : Nat) : Bool := m.getLsbD l
/-- The lanes of a mask, ascending. -/
def Mask.lanes (m : Mask) (n : Nat) : List Nat := (List.range n).filter m.has
/-- The mask of the lanes that satisfy `p`. -/
def maskOf (n : Nat) (p : Nat → Bool) : Mask :=
  (List.range n).foldl (fun m l => if p l then m ||| BitVec.shiftLeft 1 l else m) 0
/-- One lane. -/
def laneMask (l : Nat) : Mask := BitVec.shiftLeft 1 l
/-- The first lane of a mask: its leader (R74). -/
def Mask.leader (m : Mask) (n : Nat) : Nat := (m.lanes n).headD 0
/-- The lanes that act in an attempt: those of todo that have not aborted (R80). -/
def Run.acting (r : Run) : Mask := r.todo &&& ~~~r.aborted
/-- The address of the instruction in issue. -/
def Run.here (r : Run) : Nat := r.pc.toNat + 4 * r.idx
/-- The address of the word after the trailer. -/
def Run.nextPc (r : Run) : DWord := r.pc + BitVec.ofNat 64 (4 * (r.words.length + 1))

/-- The value of a register in a lane. A temporary that the run has written only under a guard that was false in the lane has no value
that the spec gives: here it reads 0 (DESIGN CHOICE, log entry 44). -/
def Team.get (t : Team) (rn l : Nat) : Word := ((t.v.find? rn).getD []).getD l 0
/-- Write a register in the lanes that satisfy `p`. -/
def Team.put (t : Team) (rn : Nat) (p : Nat → Bool) (f : Nat → Word) : Team :=
  { t with v := t.v.insert rn ((List.range t.nlanes).map fun l => if p l then f l else t.get rn l) }
/-- A pair (R92). -/
def Team.get64 (t : Team) (rn l : Nat) : DWord := t.get (rn + 1) l ++ t.get rn l
/-- Write a pair. -/
def Team.put64 (t : Team) (rn : Nat) (p : Nat → Bool) (f : Nat → DWord) : Team :=
  (t.put rn p fun l => (f l).extractLsb' 0 32).put (rn + 1) p fun l => (f l).extractLsb' 32 32
/-- A lane predicate. -/
def Team.pred (t : Team) (i l : Nat) : Bool := (t.p.getD i 0).getLsbD l
/-- Write a lane predicate in the lanes that satisfy `p`. -/
def Team.putPred (t : Team) (i : Nat) (p : Nat → Bool) (f : Nat → Bool) : Team :=
  let old := t.p.getD i 0
  { t with p := t.p.setD i (maskOf t.nlanes fun l => if p l then f l else old.getLsbD l) 0 }
/-- A uniform predicate. -/
def Team.qpred (t : Team) (i : Nat) : Bool := t.q.getLsbD i
/-- Write a uniform predicate. -/
def Team.putQ (t : Team) (i : Nat) (b : Bool) : Team :=
  { t with q := if b then t.q ||| BitVec.shiftLeft 1 i else t.q &&& ~~~(BitVec.shiftLeft 1 i) }

/-! ### Sampling (R376, R377) -/

/-- The code of Table 22.7 for a team: one in issue issues, or is in run fetch. -/
def Team.reason (t : Team) (issuing : Bool) : Nat :=
  match t.status with
  | .stopped => 19
  | .backoff => 16
  | .waiting k => k + 1
  | .ready => if !issuing then 1 else if t.run.isSome then 0 else 18

/-- A sample record (Table 22.6). -/
def sampleRec (seq pcw reason part slot team : Nat) : List Byte :=
  natLE 8 seq ++ natLE 4 pcw ++ natLE 4 (reason % 32 * 2 ^ 27 + part % 8 * 2 ^ 24 + slot % 16 * 2 ^ 20 + team % 2 ^ 20)

/-- Append a record of `len` bytes to a buffer with the ash log's header (R162): written and dropped counts in bytes 0..15, `tail` in
bytes 16..31, records from byte 32 on. `rd` and `wr` read and write at an offset of the buffer, none where they cannot, and `cover` has
the written count cover a number of records. A record without room takes no number of its source and raises only the dropped count; a
buffer too small for its header has none. One whose place cannot be written is lost, and counts as dropped where the header can be (R402).
A header that cannot be read, be it for poison alone, gives no place: a record for which the buffer may have room is then lost in the same
way. A record that is lost has taken its number (DESIGN CHOICE, log entry 45). -/
def logAppend (s : State) (src size len : Nat) (mk : Nat → List Byte) (tail : List Byte) (rd : State → Nat → Option Nat)
    (wr : State → Nat → List Byte → Option State) (cover : State → Nat → Option State) (lost : State → State) : State :=
  let drop := fun (s : State) => match rd s 8 with
    | some n => (wr s 8 (natLE 8 (n + 1))).getD s
    | none => s
  if size < 32 then s
  else
    match rd s 0 with
    | none => if size < 32 + len then s else lost (s.takeSeq src).2
    | some n =>
      let at' := 32 + len * n
      if size < at' + len then drop s
      else
        let (q, s) := s.takeSeq src
        match wr s at' (mk q) with
        | none => lost (drop s)
        | some s' =>
          let s' := if n = 0 then (wr s' 16 tail).getD s' else s'
          match cover s' (n + 1) with
          | some s'' => s''
          | none => lost s'

/-- The number of a tenant's sample buffer, by its base, among rings (0..511) and dump buffers (512..527). -/
def bufRing (ten base : Nat) : Nat := 1024 + base * 16 + ten % 16
/-- The count of a sample buffer covers the records before `next` that are performed at system scope (R366). -/
def State.coverBuf (s : State) (src ten base next : Nat) : Option State :=
  let ring := bufRing ten base
  let kt := s.hostKtag ten
  let top := (s.ringWaits ring).foldl min next
  let s := { s with bufs := if top = next then s.bufs.erase ring else s.bufs.insert ring (src, next) }
  match (s.readGpa ten base 8 kt).2 with
  | some n => if leNat n = top then some s else s.writeGpa ten base (natLE 8 top) kt
  | none => none

/-- Write a sample or MARK record to a core's buffer (R376, R377), under the tenant's stage 2 and key. -/
def State.samplePut (s : State) (c pt : Nat) (mk : Nat → List Byte) : State :=
  let ten := natBits (s.reg (oSmpctl c)) 32 4
  let base := natBits (s.reg (oSmpbase c)) 5 47 * 32
  let kt := s.hostKtag ten
  logAppend s (srcPart pt) (s.reg (oSmpsize c) % 2 ^ 32) 16 mk (natLE 4 c ++ natLE 12 0)
    (fun s o => match o, s.bufs.find? (bufRing ten base) with
      | 0, some (_, n) => some n
      | _, _ => ((s.readGpa ten (base + o) 8 kt).2).map leNat)
    (fun s o b => s.writeGpa ten (base + o) b kt
      { path := 6, ring := if o < 32 then none else some (bufRing ten base, (o - 32) / 16) })
    (fun s n => s.coverBuf (srcPart pt) ten base n) (fun s => s.lostRecord (srcPart pt) ten 3)

/-- The next resident team of a tenant after a slot, wrapping round. -/
def nextSlot (ts : List (Nat × Team)) (after : Nat) : Option (Nat × Team) :=
  match ts.filter fun c => decide (after < c.1 % 16) with
  | c :: _ => some c
  | [] => ts.head?

/-- The first word of the run at which a team stands (Tables 22.5, 22.6). -/
def Team.first (t : Team) : DWord := match t.run with | some r => r.pc | none => t.base.getD t.pc

/-- Take one sample of a partition (R376). `mark` tells whether the run at which a team stands has the sample mark. -/
def State.takeSample (s : State) (pt : Nat) (mark : Nat → Team → Bool) : State :=
  let c := pt / 8
  let ctl := s.reg (oSmpctl c)
  let ten := natBits ctl 32 4
  let p := s.part pt
  let ts : List (Nat × Team) := (s.teamsOf pt).filter fun x => (s.wgOf x.2.w).ten == ten
  let pick := match p.issuing with
    | some k => match ts.filter (fun (x : Nat × Team) => x.1 == k) with
      | x :: _ => some x
      | [] => nextSlot ts p.sampled
    | none => nextSlot ts p.sampled
  match pick with
  | none => s
  | some (k, t) =>
    let s := s.setPart pt { p with sampled := k % 16 }
    let marked := match t.run with
      | some r => natBit r.trailer.toNat 1
      | none => mark k t
    if natBit ctl 1 && !marked then s
    else
      s.samplePut c pt fun n => sampleRec n (natBits t.first.toNat 2 32) (t.reason (p.issuing == some k)) (pt % 8) (k % 16)
        (t.id (s.wgOf t.w))

/-! ### Cycles (R75, R88, R374) -/

/-- Add to a 48-bit counter register. -/
def State.count (s : State) (off n : Nat) : State := if n = 0 then s else s.setReg off ((s.reg off + n) % 2 ^ 48)

/-- The number of non-empty octets of a mask. -/
def Mask.octets (m : Mask) (n : Nat) : Nat :=
  ((List.range (n / 8)).filter fun j => natBits m.toNat (8 * j) 8 != 0).length

/-- The counters a pass of an instruction is counted in: the lowest enabled range that holds it, or LCROTH (R374). -/
def State.lcrAt (s : State) (pt asid ia k : Nat) : Nat :=
  match (List.range 16).find? fun r =>
      let b := s.reg (oLcrrng pt r)
      natBit b 0 && natBits b 52 12 == asid && decide (natBits b 2 46 * 4 ≤ ia) &&
        decide (ia < natBits (s.reg (oLcrlim pt r)) 2 46 * 4) with
  | some r => oLcrcnt pt r k
  | none => oLcroth pt k

/-- Whether the partition is stopped (R367). -/
def State.stopped (s : State) (pt : Nat) : Bool := natBit (s.reg (oDbgstat pt)) 0

/-- Pass `n` cycles on a partition: its cycle count, the starvation timers of its waiting teams, and the samples that fall
due. -/
def State.passCycles (s : State) (pt n : Nat) (mark : Nat → Team → Bool) : State :=
  let p := s.part pt
  let c0 := p.pcyc
  let s := s.setPart pt { p with pcyc := (c0 + n) % 2 ^ 64 }
  let s := { s with teams := s.teams.map fun x =>
    if x.1 / 16 = pt then
      (x.1, { x.2 with stv :=
        match x.2.status with
        | .waiting w => if w = 16 || w = 17 then 0 else x.2.stv + n
        | .ready => 0
        | _ => x.2.stv })
    else x }
  let ctl := s.reg (oSmpctl (pt / 8))
  let iv := natBits ctl 8 24
  if natBit ctl 0 && decide (16 ≤ iv) then
    (List.range ((c0 + n) / iv - c0 / iv)).foldl (fun t i =>
      let t := t.setPart pt { t.part pt with sampAt := (c0 / iv + i + 1) * iv + 1 }
      t.takeSample pt mark) s
  else s

/-- Charge `n` cycles of a run to the class that runs it, or as lent by an owner, one of eight (R88). -/
def State.chargeRun (s : State) (pt cls n : Nat) : State :=
  match (s.part pt).lentBy with
  | none => s.count (oSlotCnt pt cls 0) n
  | some o => (s.count (oSlotCnt pt (o % 8) 1) n).count (oSlotCnt pt cls 2) n

/-! ### Pending writes and the end of a run (R79, R81) -/

/-- Land one pending write. One of v48..v55 from before the supervisor handler lands where the register is saved, too (R204). One that met
poison in any of its lanes writes nothing in any (DESIGN CHOICE, log entry 62). -/
def Team.land (t : Team) (p : Pend) : Team :=
  let t := { t with pend := t.pend.filter fun x => x.reg != p.reg }
  if p.poison then t
  else
    let put := fun (m : SMap Row) => ((List.range p.count).zip p.rows).foldl (fun m x => m.insert (p.reg + x.1) x.2) m
    { t with
      v := put t.v
      handler := t.handler.map fun h =>
        if h.pre.contains p.reg then { h with v48 := put h.v48, pre := h.pre.filter (· != p.reg) } else h }

/-- No more than eight entries: the oldest drain first (R81). A poisoned one stays until a run touches its register. -/
def Team.capPending (t : Team) : Nat → Team
  | 0 => t
  | fuel + 1 =>
    if t.pend.length ≤ 8 then t
    else match t.pend.find? fun p => !p.poison with
      | some p => Team.capPending (t.land p) fuel
      | none => t

/-- The write left pending by a trailer's field (R81): the rows that will land, of the registers `v` as the run left them; the registers
meanwhile stand as at run entry. -/
def Team.leavePending (t : Team) (v : SMap Row) (r : Run) (n : Nat) : Team :=
  if n = 63 || t.pend.any (fun p => p.reg == n) then t
  else
    let lng := fun j => match r.words[j]? with | some w => (infoOf w).long | none => none
    match (List.range r.words.length).reverse.find? fun j => (match lng j with | some (d, _) => d == n | none => false) with
    | none => t
    | some j =>
      let cnt := match lng j with | some (_, c) => c | none => 1
      let regs := (List.range cnt).map (n + ·)
      let e : Pend :=
        { reg := n, count := cnt, ia := r.pc + dwordOf (4 * j), poison := r.pendPoison.getD n 0 != 0, landed := false,
          rows := regs.map fun q => (v.find? q).getD [] }
      let t := regs.foldl (fun t q => { t with v := match r.saved.find? q with | some row => t.v.insert q row | none => t.v.erase q }) t
      { t with pend := t.pend ++ [e] }

/-- A team leaves its run behind, its terminal performed (R79): the registers that the trailer names are left pending, and the temporaries
hold nothing (R78). -/
def Team.leaveRun (t : Team) : Team :=
  match t.run with
  | none => t
  | some r =>
    let t := ((t.leavePending t.v r (bits r.trailer 19 6).toNat).leavePending t.v r (bits r.trailer 13 6).toNat).capPending 2
    { t with v := t.v.filter fun c => decide (c.1 < 56) }
/-- It goes on at `pc`, ready at a tick. -/
def Team.nextRun (t : Team) (pc : DWord) (tick : Nat) : Team :=
  { t.leaveRun with pc := pc, run := none, status := .ready, readyAt := tick, stv := 0 }

/-! ### The register pool (R198, R220, R221) -/

/-- Units of `n` groups of eight registers for a team. -/
def poolUnits (n nlanes : Nat) : Nat := n * (nlanes / 8)

/-- Grant the claims at the head of a workgroup's queue that the account holds, strictly in order (R221). A granted team goes on
behind its REGCLAIM. -/
def State.grantClaims (s : State) (w : Nat) : Nat → State
  | 0 => s
  | fuel + 1 =>
    let g := s.wgOf w
    match g.claims with
    | [] => s
    | (k, u) :: cs =>
      if g.account < u then s
      else
        let s := s.setWg w { g with claims := cs, account := g.account - u }
        let s := s.modTeam k fun t => { t.nextRun (match t.run with | some r => r.nextPc | none => t.pc) s.tick with
          alloc := t.alloc + u * 8 / (t.nlanes / 8) }
        State.grantClaims s w fuel

/-- Credit a workgroup's account. -/
def State.credit (s : State) (w u : Nat) : State :=
  let g := s.wgOf w
  (s.setWg w { g with account := g.account + u }).grantClaims w (g.claims.length + 1)

/-- Give registers back (R198): values above the new allocation are lost, those still to land among them. -/
def State.regGive (s : State) (k n : Nat) : State :=
  match s.teams.find? k with
  | none => s
  | some t =>
    let a := t.alloc - 8 * n
    let s := s.setTeam k { t with
      alloc := a
      v := t.v.filter fun c => decide (c.1 < a) || decide (56 ≤ c.1)
      pend := t.pend.filter fun p => decide (p.reg < a) }
    s.credit t.w (poolUnits n t.nlanes)

/-! ### Stopping and reporting (R29, R378, R379) -/

/-- The error record of a team's stop, filled with the team's identities; a program counter that it names already stays. -/
def teamErr (s : State) (t : Team) (pc : DWord) (e : Err) : Err :=
  let g := s.wgOf t.w
  { e with ten := some g.ten, asid := some g.asid, pc := if e.pc = 0 then pc.toNat else e.pc, aux1 := if e.cat = 3 then t.id g else e.aux1 }

/-- Withdraw whatever a team waits in: its rendezvous and its claim (R218, R222, R326). A claim that then stands at the head completes
as soon as the account holds its units (R221). -/
def State.withdraw (s : State) (k w : Nat) : State :=
  let held := (s.wgOf w).claims.any fun c => c.1 == k
  let s := { s with wgs := s.wgs.modify w fun g => { g with
      rdv := g.rdv.map fun c => (c.1, c.2.filter fun r => r.k != k)
      claims := g.claims.filter fun c => c.1 != k } }
  if held then s.grantClaims w ((s.wgOf w).claims.length + 1) else s

/-- The form code of a register (Table 5.6, R85). -/
def formOf (n : Nat) (row : Nat → Word) : Nat :=
  let ls := List.range n
  if ls.all fun l => row l == row 0 then 0
  else if ls.all fun l => row l == row 0 + BitVec.ofNat 32 l * (row 1 - row 0) then 1
  else if ls.all fun l => let d := (row l - row 0).toInt; decide (-128 ≤ d) && decide (d ≤ 127) then 2
  else 3

/-- Bytes of a mask as the section holds it: the summary, then the octets. -/
def maskBytes (m : Mask) : List Byte :=
  let sum := (List.range 128).foldl (fun a j => if natBits m.toNat (8 * j) 8 != 0 then a + 2 ^ j else a) 0
  natLE 16 sum ++ natLE 128 m.toNat
/-- Pad a list of bytes with zeros to a length. -/
def padTo (n : Nat) (bs : List Byte) : List Byte := bs.take n ++ List.replicate (n - bs.length) 0

/-- A team state section (R373, Table 22.5). -/
def sectionOf (s : State) (t : Team) (reason : Nat) : List Byte :=
  let g := s.wgOf t.w
  let st := reason % 32 + (if t.handler.isSome then 128 else 0)
  let head := natLE 8 t.first.toNat ++ natLE 4 (t.id g) ++ natLE 2 t.nlanes ++ natLE 1 t.alloc ++ natLE 1 st ++
    natLE 1 t.mstack.length ++ natLE 1 t.rstack.length ++ natLE 1 t.pend.length ++ natLE 1 (t.q &&& 0xFE).toNat ++
    natLE 4 t.boff.toNat ++ natLE 4 t.frm.toNat ++ natLE 4 t.fsat.toNat ++ natLE 4 t.qctl.toNat ++ natLE 4 t.flags.toNat ++
    natLE 4 t.ashen.toNat ++ natLE 4 (if lrFac g.lr then 1 else 0) ++ natLE 8 t.srseed.toNat ++ natLE 8 t.stv
  let pend := t.pend.flatMap fun p => natLE 1 p.reg ++ natLE 1 p.count ++ natLE 6 0 ++ natLE 8 p.ia.toNat
  let stack := t.mstack.reverse.flatMap fun e =>
    natLE 1 (if e.loop then 1 else 0) ++ natLE 7 0 ++ maskBytes e.mask ++ maskBytes e.wait ++ natLE 8 e.start.toNat
  let preds := (List.range 7).flatMap fun i => natLE 128 (t.p.getD (i + 1) 0).toNat
  let forms := (List.range 56).map fun r => if r < t.alloc then BitVec.ofNat 8 (formOf t.nlanes (t.get r)) else 0xFF
  let vals := (List.range t.alloc).flatMap fun r => (List.range t.nlanes).flatMap fun l => natLE 4 (t.get r l).toNat
  let all := head ++ maskBytes t.active ++ padTo 128 (t.rstack.reverse.flatMap fun a => natLE 8 a.toNat) ++ padTo 128 pend ++
    padTo 9728 stack ++ preds ++ forms ++ vals
  padTo ((all.length + 63) / 64 * 64) all

/-- The dump of a team that has stopped: queued, or appended to the dump in progress of the same context, or counted as
lost there: a dump that is written already is written anew with it (R378, R379). -/
def State.queueDump (s : State) (k : Nat) (t : Team) (seq : Nat) : State :=
  let g := s.wgOf t.w
  if !natBit (s.reg (oDumpbase g.ten)) 0 then s
  else
    let src := srcPart (partOfTeam k)
    let sec := sectionOf s t 19
    match s.dumps with
    | d :: ds =>
      if d.q = g.q && d.pos = g.pos then
        let used := match (s.readGpa g.ten (natBits (s.reg (oDumpbase g.ten)) 6 46 * 64 + 16) 8 (s.hostKtag g.ten)).2 with
          | some b => (leNat b + 63) / 64 * 64 | none => 0
        let have' := 64 + d.sec.length + (d.more.map fun m => 16 + m.2.2.length).sum
        let d' := if s.reg (oDumpsize g.ten) % 2 ^ 32 < 64 + used + have' + 16 + sec.length then { d with lost := d.lost + 1, wrote := none }
          else { d with more := d.more ++ [(src, seq, sec)], wrote := none }
        { s with dumps := d' :: ds }
      else if 9 ≤ s.dumps.length then
        let b := natBits (s.reg (oDumpbase g.ten)) 6 46 * 64
        match (s.readGpa g.ten (b + 8) 8 (s.hostKtag g.ten)).2 with
        | some n => (s.writeGpa g.ten (b + 8) (natLE 8 (leNat n + 1)) (s.hostKtag g.ten)).getD s
        | none => s
      else { s with dumps := s.dumps ++ [{ q := g.q, pos := g.pos, ten := g.ten, src := src, seq := seq, grid := lrGrid g.lr,
                                           asid := g.asid, sec := sec, more := [], lost := 0 }] }
    | [] => { s with dumps := [{ q := g.q, pos := g.pos, ten := g.ten, src := src, seq := seq, grid := lrGrid g.lr,
                                 asid := g.asid, sec := sec, more := [], lost := 0 }] }

/-- A team's partition issues it no more: an attempt is over, and a step, which performs one, ends in a stop with cause 4 (R369). -/
def State.attemptOver (s : State) (k : Nat) : State :=
  let pt := partOfTeam k
  let p := s.part pt
  if p.issuing != some k then s
  else
    let q := { p with issuing := none, lentBy := none, attempt := false }
    match p.stepSlot with
    | some sl => s.setPart pt (if p.attempt then { q with stepSlot := none, stopReq := p.stopReq ++ [(4, sl, 0)] } else q)
    | none => s.setPart pt q

/-- A team stops and reports (R29): its waits are withdrawn, its program counter stands at `pc`, one error record is written
from its partition, and a dump is queued. Where `pc` lies within a run, the team names that run's first word as its base. -/
def State.stopTeam (s : State) (k : Nat) (t : Team) (pc : DWord) (e : Err) : State :=
  let pt := partOfTeam k
  let t := { t with pc := pc, status := .stopped, run := none }
  let s := ((s.withdraw k t.w).setTeam k t).attemptOver k
  let n := s.seq.getD (srcPart pt) 1
  (s.report (srcPart pt) (teamErr s t pc e)).queueDump k t n

/-! ### Windows and the access check (R121, R184, R314) -/

/-- The windows of an address (Table 7.12): 0 global, 1 local, 2 shared, 3 cluster, 4 non-canonical. -/
def spaceOf (lr : BitVec 2048) (ea : Nat) : Nat :=
  let within := fun b n => decide (b ≤ ea) && decide (ea < b + n)
  if 2 ^ 48 ≤ ea then 4
  else if within (lrLocBase lr) (lrLocSize lr) then 1
  else if within (lrShBase lr) (lrShSize lr) then 2
  else if within (lrClBase lr) (lrClSize lr) then 3
  else 0

/-- The resident workgroup of the same reel that owns a cluster segment; none where the segment is dead (R314). -/
def State.segmentWg (s : State) (w seg : Nat) : Option Nat :=
  let g := s.wgOf w
  ((s.wgs.filter fun c => c.2.q == g.q && c.2.pos == g.pos && c.2.reel == g.reel && c.2.reelwg == seg).head?).map (·.1)

/-- The place behind an address of the local, shared or cluster window. -/
def State.windowPlace (s : State) (w wgteam lane ea : Nat) : Option Place :=
  let lr := (s.wgOf w).lr
  match spaceOf lr ea with
  | 1 => some (.scr w (lrScrBytes lr - (wgteam * lrLanes lr + lane + 1) * lrLocSize lr + (ea - lrLocBase lr)))
  | 2 => some (.scr w (ea - lrShBase lr))
  | 3 =>
    let sg := lrSegment lr
    let o := ea - lrClBase lr
    (s.segmentWg w (o / sg)).map fun w' => .scr w' (o % sg)
  | _ => none

/-- Where an access lands, or the cause of Table 9.1. -/
inductive Reach where
  | at' (p : Place) (gpa : Nat)
  | cause (c : Nat)
  deriving DecidableEq, Repr

/-- Whether the 64-byte block of a place is poisoned, for a reader under `ktag`. -/
def State.placeBad (s : State) (p : Place) (ktag : Nat) : Bool :=
  match p with
  | .sys a => s.sysBad a || s.tagBad a ktag
  | .scr w o => (s.wgOf w).pscr.has (o / 64)
  | .acc w o => (s.wgOf w).pacc.has (o / 64)
  | .peer _ _ _ => false

/-- Mark an integrity mismatch that a read of a place has found (R361). -/
def State.foundBad (s : State) (p : Place) (ten gpa ktag : Nat) : State :=
  match p with
  | .sys a => if !s.sysBad a && s.tagBad a ktag then s.tagFail (some ten) gpa a else s
  | _ => s

/-- Where a translated address lies; peer memory goes over the Kazid Link, whose answer this device does not decide (R337, log
entry 10), and a write to a compressed page needs a reserve frame (R304). -/
def State.reachSpa (s : State) (spa gpa : Nat) (need : Need) : State × Reach :=
  if natBit spa 47 then
    if !natBit (s.reg oKznode) 31 then (s, .cause 4)
    else
      let (b, s) := s.freshBit
      (s, if b then .cause 4 else .at' (.peer (natBits spa 37 10) (natBits spa 27 10) (natBits spa 0 27)) gpa)
  else if need.w && !s.canWrite spa then (s, .cause 3)
  else (s, .at' (.sys spa) gpa)

/-- Reach a global address: translate it. -/
def State.reachGlobal (s : State) (rcv asid ea : Nat) (need : Need) : State × Reach :=
  match s.xlate rcv asid ea need with
  | (s, .fault c gpa bad) =>
    let s := match bad with
      | some a => s.tagFail (some (dteTenant (s.dte asid))) gpa a
      | none => s
    (s, .cause c)
  | (s, .ok spa gpa _ _ _) => s.reachSpa spa gpa need

/-! ### What a lane sees, and stores becoming visible (R37..R46) -/

/-- A place as the storage where its content stands now: the same byte reached by an old and by a new translation is one place. -/
def State.canon (s : State) (p : Place) : Place :=
  match p with
  | .sys a => .sys (s.realSpa a)
  | p => p

/-- The bytes a place holds. -/
def State.placeBytes (s : State) (p : Place) (n : Nat) : List Byte :=
  match p with
  | .sys a => s.sysBytes a n
  | .scr w o => (s.wgOf w).scr.readN o n
  | .acc w o => (s.wgOf w).acc.readN o n
  | .peer _ _ o => (List.range n).map fun i => BitVec.ofNat 8 (Config.freeNat (s.free + o % 64 + i))

/-- The offset of one place from another in the same storage. -/
def Place.diff : Place → Place → Option Int
  | .sys a, .sys b => some ((b : Int) - a)
  | .scr w a, .scr w' b => if w = w' then some ((b : Int) - a) else none
  | .acc w a, .acc w' b => if w = w' then some ((b : Int) - a) else none
  | .peer n l a, .peer n' l' b => if n = n' && l = l' then some ((b : Int) - a) else none
  | _, _ => none

/-- Whether a store touches `n` bytes from a place. -/
def Store.touches (st : Store) (p : Place) (n : Nat) : Bool :=
  match p.diff st.at' with
  | some d => decide (d < n) && decide (-(st.bytes.length : Int) < d)
  | none => false

/-- A store, at the place where its location stands now. -/
def State.canonStore (s : State) (st : Store) : Store := { st with at' := s.canon st.at' }
/-- Whether a store touches `n` bytes from a place, by whatever translation either was reached. -/
def State.overlaps (s : State) (st : Store) (p : Place) (n : Nat) : Bool := (s.canonStore st).touches (s.canon p) n

/-- A read that is followed by a write as one step waits while a host holds the line cached (R56). -/
def State.placeHeld (s : State) (p : Place) : State × Bool :=
  match p with
  | .sys a => s.lineHeld a
  | _ => (s, false)

/-- Whether a write that waits for a host's line touches `n` bytes from a place. -/
def State.waitTouches (s : State) (b : BiW) (p : Place) (n : Nat) : Bool :=
  match (s.canon p).diff (s.canon (.sys b.spa)) with
  | some d => decide (d < n) && decide (-(b.bytes.length : Int) < d)
  | none => false
/-- A store that lane `lane` has read bytes of, if another lane made it: a release of the team carries it from now on (R57). -/
def Store.readBy (st : Store) (lane : Nat) : Store := if st.lane = lane then st else { st with carried := true }
/-- The same of a write that waits for a host's line. -/
def BiW.readBy (b : BiW) (k lane : Nat) : BiW :=
  if b.by'.team = some k && b.by'.lane != some lane then { b with by' := { b.by' with carried := true } } else b
/-- A lane of team `k` reads `n` bytes of a place: the team's buffered stores that it finds there. -/
def State.noteBuf (s : State) (lane : Nat) (p : Place) (n : Nat) (sts : List Store) : List Store :=
  sts.map fun st => if s.overlaps st p n then st.readBy lane else st
/-- And the writes of the team that it finds in memory and that wait for a host's line. -/
def State.noteRead (s : State) (k lane : Nat) (p : Place) (n : Nat) : State :=
  { s with biWait := s.biWait.map fun b => if s.waitTouches b p n then b.readBy k lane else b }

/-- Lay a store's bytes over bytes read from a place. -/
def Store.over (st : Store) (p : Place) (bs : List Byte) : List Byte :=
  match p.diff st.at' with
  | none => bs
  | some d =>
    (List.range bs.length).map fun (i : Nat) =>
      let j : Int := Int.ofNat i - d
      if 0 ≤ j && decide (j < st.bytes.length) then st.bytes.getD j.toNat 0 else bs.getD i 0

/-- What a lane reads (R37, R39, R42): memory, over it the team's performed stores, over them the lane's own of this run. -/
def State.laneBytes (s : State) (t : Team) (r : Run) (lane : Nat) (p : Place) (n : Nat) : List Byte :=
  let own := (r.sdb ++ r.stores).filter fun st => st.lane == lane
  (t.sbuf ++ own).foldl (fun bs st => (s.canonStore st).over (s.canon p) bs) (s.placeBytes p n)

/-- Whether a full-block store that the lane already sees covers a place: what it reads there is no longer the poison. -/
def State.covered (s : State) (t : Team) (r : Run) (lane : Nat) (p : Place) : Bool :=
  (t.sbuf ++ (r.sdb ++ r.stores).filter fun st => st.lane == lane).any fun st => st.bytes.length == 64 && s.overlaps st p 1

/-- CHECK (R184): canonical, aligned, in a window or translated, and not poisoned where it is read. -/
def State.check (s : State) (k : Nat) (t : Team) (r : Run) (lane ea n : Nat) (need : Need) : State × Reach :=
  let g := s.wgOf t.w
  if 2 ^ 48 ≤ ea then (s, .cause 4)
  else if ea % n != 0 then (s, .cause 6)
  else
    let (s, x) :=
      if spaceOf g.lr ea = 0 then s.reachGlobal (rcvOfCore (coreOfTeam k)) g.asid ea need
      else match s.windowPlace t.w t.wgteam lane ea with
        | some p => (s, .at' p 0)
        | none => (s, .cause 4)
    match x with
    | .cause c => (s, .cause c)
    | .at' p gpa =>
      if need.r then
        match p with
        | .peer _ _ _ =>
          let (b, s) := s.freshBit
          (s, if b then .cause 5 else .at' p gpa)
        | _ =>
          if s.placeBad p g.ktag && !s.covered t r lane p then (s.foundBad p g.ten gpa g.ktag, .cause 5) else (s, .at' p gpa)
      else (s, .at' p gpa)

/-- Write bytes into a region of a core's pool: a full block clears its poison, a partial write leaves a poisoned block as it
is (R30). -/
def putPool (m : Memory) (bad : NSet) (o : Nat) (bytes : List Byte) : Memory × NSet :=
  (blockPieces bytes.length o bytes).foldl (fun (acc : Memory × NSet) p =>
    if p.2.length = 64 then (acc.1.writeN p.1 p.2, acc.2.erase (p.1 / 64))
    else if acc.2.has (p.1 / 64) then acc
    else (acc.1.writeN p.1 p.2, acc.2)) (m, bad)

/-- The same bytes block by block are noted as written (R195). -/
def State.noteScr (s : State) (w o n : Nat) : State :=
  { s with wrote := s.wrote ++ (linesOf o n).map fun b => (.scr w (b * 64), (s.wgOf w).scr.readN (b * 64) 64) }

/-- The key that a tenant's access to peer memory presents: that of the peer entry for which the Stoker wrote the leaf (R337). -/
def State.leafKey (s : State) (ten node land off : Nat) : Nat :=
  s.peerKeys.getD ((ten * 2 ^ 20 + node * 2 ^ 10 + land) * 2 ^ 15 + off / 4096) 0

/-- A write went to a peer: one of an engine waits for its acknowledgement as its path and tenant (R59, R65). -/
def State.peerSent (s : State) (by' : Writer) (ten : Nat) : State :=
  if by'.path = 0 then s
  else { s with engOut := s.engOut.insert (by'.path * 16 + ten % 16) (s.engOut.getD (by'.path * 16 + ten % 16) 0 + 1) }

/-- Write bytes to a place. -/
def State.putPlace (s : State) (by' : Writer) (ten : Nat) (gpa : Nat) (p : Place) (bytes : List Byte) (ktag : Nat) : State :=
  match p with
  | .sys a => s.writeSys by' (some ten) gpa a bytes ktag
  | .scr w o =>
    { s with wgs := s.wgs.modify w fun g => let r := putPool g.scr g.pscr o bytes; { g with scr := r.1, pscr := r.2 } }.noteScr w o bytes.length
  | .acc w o =>
    { s with wgs := s.wgs.modify w fun g => let r := putPool g.acc g.pacc o bytes; { g with acc := r.1, pacc := r.2 } }
  | .peer n l o => (s.emit (.peerStore n l (s.leafKey ten n l o) o bytes)).peerSent by' ten

/-- A performed store of a team becomes visible; one to a peer waits for its acknowledgement (R59). -/
def State.commit (s : State) (k : Nat) (st : Store) : State :=
  let (ten, asid) := match s.teams.find? k with | some t => let g := s.wgOf t.w; (g.ten, g.asid) | none => (0, 0)
  let s := s.putPlace { path := 0, team := some k, col := st.col, lane := some st.lane, carried := st.carried } ten (s.gpaOf asid st.va) st.at'
    st.bytes st.ktag
  match st.at' with
  | .peer _ _ _ => s.modTeam k fun t => { t with peerOut := t.peerOut ++ [if st.carried then 8 + st.col else st.col] }
  | _ => s

/-- Of the buffered stores, those that `p` picks together with every earlier store to a location of theirs (R35); the rest. -/
def State.drainSplit (s : State) (p : Store → Bool) : List Store → List Store × List Store
  | [] => ([], [])
  | st :: sts =>
    let r := State.drainSplit s p sts
    if p st || r.1.any (fun x => s.overlaps x st.at' st.bytes.length) then (st :: r.1, r.2) else (r.1, st :: r.2)

/-- Commit the buffered stores that `p` picks, in order. -/
def State.drain (s : State) (k : Nat) (p : Store → Bool) : State :=
  match s.teams.find? k with
  | none => s
  | some t =>
    let r := s.drainSplit p t.sbuf
    r.1.foldl (fun s st => s.commit k st) (s.setTeam k { t with sbuf := r.2 })

/-- Commit every buffered store of a team. -/
def State.drainAll (s : State) (k : Nat) : State := s.drain k fun _ => true

/-- Perform a store of a completing lane (R38, R43): a stack byte is written at once, any other enters the team's buffer, from
which a release or a drain makes it visible (R45; log entry 11). -/
def State.perform (s : State) (k : Nat) (st : Store) (stack : Bool) : State :=
  if stack then s.commit k st else s.modTeam k fun t => { t with sbuf := t.sbuf ++ [{ st with group := none, ix := 0 }] }

/-- Whether a place lies in the lane stacks of a workgroup (R314). -/
def State.inStack (s : State) (p : Place) : Bool :=
  match p with
  | .scr w o => let lr := (s.wgOf w).lr; decide (lrScrBytes lr - lrStackBytes lr ≤ o) && decide (0 < lrStackBytes lr)
  | _ => false

/-! ### Faults at the Stoker (R298) -/

/-- Queue a fault at the Stoker, with whether the first-touch pool is empty. -/
def State.submit (s : State) (ten : Nat) (f : SFault) : State :=
  let t := s.tenant ten
  let f := { f with id := t.nextFault, poolEmpty := t.pool.isEmpty }
  s.setTenant ten { t with faults := t.faults ++ [f], nextFault := t.nextFault + 1 }

/-- Take the faults of waiters that are gone out of a tenant's queue. -/
def State.unsubmit (s : State) (ten : Nat) (p : Waiter → Bool) : State :=
  let t := s.tenant ten
  s.setTenant ten { t with faults := t.faults.filter fun f => !p f.waiter }

/-- The fault of a virtual access, as the Stoker receives it. -/
def State.faultOf (s : State) (asid va cause : Nat) (need : Need) (who : Waiter) : SFault :=
  let gpa := match s.walk asid va need with
    | .fault _ g _ => g
    | .ok _ g _ _ _ => g
  { id := 0, asid := some asid, va := va, gpa := frameOf gpa, cause := cause, need := need, poolEmpty := false, waiter := who,
    asked := false }

/-- What a kind of access needs (Tables 9.17, 16.6). -/
def kindNeed (kind : Nat) : Need :=
  match kind with
  | 1 => .store
  | 2 => .atomic
  | 3 => .store
  | _ => .load

/-- Hand a team's faulted lanes to the Stoker, one fault a page and cause, and wait (R206). -/
def State.escalate (s : State) (k : Nat) (t : Team) (r : Run) : State :=
  let g := s.wgOf t.w
  let fs := r.faults.foldl (fun (acc : List LaneFault) c =>
    if acc.any fun f => f.cause == c.2.cause && f.ea.toNat / 4096 == c.2.ea.toNat / 4096 && f.kind == c.2.kind then acc else acc ++ [c.2]) []
  let s := s.setTeam k { t with status := .waiting 14, run := some r }
  fs.foldl (fun s f => s.submit g.ten (s.faultOf g.asid f.ea.toNat f.cause (kindNeed f.kind) (.team k))) s

/-! ### The supervisor handler: taking the fault and returning (R80, R204, R206) -/

/-- Enter the supervisor handler with the faulted lanes (R204): v48..v55, the predicates, FLAGS, the mask-stack depth and the
faulted mask are saved with the faulted run, and the team goes on at the handler's address with those lanes active. In handler
mode, or without a handler, the faults go to the Stoker instead. -/
def State.vectorHandler (s : State) (k : Nat) (t : Team) (r : Run) : State :=
  let g := s.wgOf t.w
  if t.handler.isSome || lrHandler g.lr = 0 then s.escalate k t r
  else
    let h : Handler :=
      { v48 := t.v.filter fun c => decide (48 ≤ c.1) && decide (c.1 < 56)
        p := t.p, q := t.q, flags := t.flags, depth := t.mstack.length, faulted := r.todo, run := r
        temps := t.v.filter fun c => decide (56 ≤ c.1)
        pre := (t.pend.map (·.reg)).filter fun n => decide (48 ≤ n) }
    s.setTeam k { t with
      handler := some h, active := r.todo, pc := dwordOf (lrHandler g.lr), run := none, status := .ready, kmask := 0,
      yielded := false, marked := false, readyAt := s.tick }

/-- The rows that a table lists for `n` registers from `base`. -/
def rowsAt (m : SMap Row) (base n : Nat) : SMap Row := (List.range n).filterMap fun i => (m.find? (base + i)).map fun x => (base + i, x)
/-- Restore what handler entry saved (R206). What the handler itself left pending in v48..v55 does not land any more. -/
def Team.restore (t : Team) (h : Handler) : Team :=
  { t with
    v := (rowsAt h.v48 48 (min 8 (t.alloc - 48)) ++ rowsAt h.temps 56 8).foldl (fun m c => m.insert c.1 c.2) (t.v.filter fun c => decide (c.1 < 48))
    pend := t.pend.filter fun p => decide (p.reg < 48) || h.pre.contains p.reg
    p := h.p, q := h.q, flags := h.flags, active := h.faulted, handler := none, pc := h.run.pc, run := some h.run }

/-- Return from the handler by retry: the saved items are restored and the faulted run's next attempt may start (R206). -/
def State.handlerRetry (s : State) (k : Nat) (t : Team) (h : Handler) : State :=
  let t := t.leaveRun
  s.setTeam k { t.restore (t.handler.getD h) with status := .ready, readyAt := s.tick }

/-- Return from the handler by escalation: restored, and the faulted lanes' records go to the Stoker (R206); a team that waits so stands
at its `eret.esc` (R218). -/
def State.handlerEscalate (s : State) (k : Nat) (t : Team) (h : Handler) : State :=
  let u := t.leaveRun
  s.escalate k (u.restore (u.handler.getD h)) { h.run with esc := t.run.map fun r => (dwordOf r.here, r.pc) }

end Sys2Proof.Machine
end

