-- ==== Sys2Proof/Machine/Fetch.lean ====
section
/-! DEFINITION. Run fetch (R76, R105): fetching the words, shape, words, structure and domains; and what holds a team before
its next run or at a terminal (R82, R216). -/

namespace Sys2Proof.Machine

/-- What fetching a run finds. -/
inductive Fetched where
  /-- a translation fault of the whole team -/
  | fault (cause va : Nat)
  /-- a word, or an LDL's literal, in a poisoned block -/
  | poison (idx : Nat) (w : Word)
  /-- a trap: its reason code (Tables 6.9, 15.5), the index and value of the offending word -/
  | trap (reason idx : Nat) (w : Word)
  | ok (words : List Word) (trailer : Word) (lits : SMap Nat)
  deriving DecidableEq, Repr

/-- A uniform word with op6 0x3F is a trailer (R103). -/
def trailerWord (w : Word) : Bool := bits w 25 7 == 0x7F

/-- Fetch bytes of instruction memory as it is visible now (DESIGN CHOICE, log entry 11): translated for X, checked for poison (R12, R105). -/
def State.fetchBytes (s : State) (rcv asid va n : Nat) : State × Except (Option Nat) (List Byte) :=
  if 2 ^ 48 ≤ va then (s, .error (some 4))
  else
    match s.xlate rcv asid va .fetch with
    | (s, .fault c _ _) => (s, .error (some c))
    | (s, .ok spa gpa _ _ _) =>
      if natBit spa 47 then (s, .error (some 4))
      else
        let d := s.dte asid
        match s.readSys (some (dteTenant d)) gpa spa n (dteKtag d) with
        | (s, some bs) => (s, .ok bs)
        | (s, none) => (s, .error none)

/-- The words of a run up to its trailer, at most 25 (R76); the first word that cannot be fetched ends it. R105 gives no order within its
step 1: where one word lies in a poisoned block and another has a translation fault, the lower address is reported, and words before
literals (DESIGN CHOICE, log entry 46). -/
def State.fetchWords (s : State) (rcv asid pc : Nat) : Nat → Nat → State × Except Fetched (List Word)
  | 0, _ => (s, .ok [])
  | fuel + 1, i =>
    match s.fetchBytes rcv asid (pc + 4 * i) 4 with
    | (s, .error (some c)) => (s, .error (.fault c (pc + 4 * i)))
    | (s, .error none) => (s, .error (.poison i 0))
    | (s, .ok bs) =>
      let w := wordOf (leNat bs)
      if trailerWord w then (s, .ok [w])
      else
        match State.fetchWords s rcv asid pc fuel (i + 1) with
        | (s, .ok ws) => (s, .ok (w :: ws))
        | (s, .error e) => (s, .error e)

/-- The address of an LDL's literal (R12). -/
def ldlAddr (here : Nat) (w : Word) : Nat := (dwordOf here + (bits w 4 15).signExtend 64 * 4).toNat

/-- The literals of the run's LDL words, by instruction: fetched with it (R12, R105). The spec does not say which literals step 1 of R105
fetches of a run that a later step refuses: here those of every LDL before the trailer, or of the 25 words where none stands among them,
but for an LDL that has a field error or a misaligned address (DESIGN CHOICE, log entry 46). -/
def State.fetchLits (s : State) (rcv asid pc : Nat) : Nat → List Word → State × Except Fetched (SMap Nat)
  | _, [] => (s, .ok [])
  | i, w :: ws =>
    match (infoOf w).lit with
    | none => State.fetchLits s rcv asid pc (i + 1) ws
    | some n =>
      let a := ldlAddr (pc + 4 * i) w
      if (infoOf w).reason != 0 || a % n != 0 then State.fetchLits s rcv asid pc (i + 1) ws
      else
        match s.fetchBytes rcv asid a n with
        | (s, .error (some c)) => (s, .error (.fault c a))
        | (s, .error none) => (s, .error (.poison i w))
        | (s, .ok bs) =>
          match State.fetchLits s rcv asid pc (i + 1) ws with
          | (s, .ok m) => (s, .ok (m.insert i (leNat bs)))
          | (s, .error e) => (s, .error e)

/-- A register that lies above the allocation (R198). -/
def aboveA (alloc r : Nat) : Bool := decide (alloc ≤ r) && decide (r < 56)

/-- The reason code of a body word, 0 for none (R104, R105): the lowest that applies. For code 4 a pair or group counts with every register
that it would name, also one that is misaligned (DESIGN CHOICE, log entry 64). -/
def wordReason (alloc : Nat) (fac inHandler : Bool) (here : Nat) (w : Word) : Nat :=
  let i := infoOf w
  lowest [i.reason,
    cnd (!((i.rd ++ i.wr ++ i.own).any (aboveA alloc))) 4,
    cnd (match i.fac with | some f => f == fac | none => true) 8,
    cnd (!i.supv || inHandler) 9,
    cnd (match i.lit with | some n => ldlAddr here w % n == 0 | none => true) 10]

/-- The reason code of a trailer (R81, R83, R103). -/
def trailerReason (alloc : Nat) (w : Word) : Nat :=
  let w0 := (bits w 19 6).toNat
  let w1 := (bits w 13 6).toNat
  let bad := fun r => decide (56 ≤ r) && decide (r < 63) || aboveA alloc r
  lowest [cnd (!(bad w0 || bad w1)) 4, cnd (bits w 2 3 == 0) 6]

/-- The first illegal word of a run and its reason. -/
def firstBad (alloc : Nat) (fac inHandler : Bool) (pc : Nat) : Nat → List Word → Option (Nat × Nat × Word)
  | _, [] => none
  | i, w :: ws =>
    match wordReason alloc fac inHandler (pc + 4 * i) w with
    | 0 => firstBad alloc fac inHandler pc (i + 1) ws
    | r + 1 => some (r + 1, i, w)

/-- Whether a class is a terminal (Table 5.2). -/
def Cls.terminal : Cls → Bool
  | .lane => true
  | .attempt => true
  | .team => true
  | _ => false

/-- Whether two lists of numbers share one. -/
def meets (a b : List Nat) : Bool := a.any b.contains

/-- Predicates named by a field list: 0 names none. -/
def preds (l : List Nat) : List Nat := l.filter (· != 0)

/-- Placement and store count (R77): reasons 0x12 and 0x13. -/
def placeReason (is : List Info) : Nat :=
  let n := is.length
  lowest [
    cnd ((List.range n).all fun i =>
      match is[i]? with
      | some x => (x.cls != .cross || i == 0) && (!x.cls.terminal || i + 1 == n)
      | none => true) 0x12,
    cnd (decide ((is.filter fun x => x.cls == .store).length ≤ 8)) 0x13]

/-- What earlier instructions of a run have read and written. -/
structure Seen where
  rd : List Nat := []
  rdP : List Nat := []
  rdQ : List Nat := []
  wr : List Nat := []
  wrP : List Nat := []
  wrQ : List Nat := []

/-- Reasons 0x14, 0x16 and 0x19 of the instructions in order (R77, R10, R185). A write after a read is forbidden for v0..v55 and for
predicates; a temporary may be written again. -/
def orderReason (vtrn : Bool) : Seen → List Info → Nat
  | _, [] => 0
  | seen, x :: xs =>
    let clash := meets (x.wr.filter (· < 56)) (seen.rd ++ x.rd) || meets x.wrP (preds (seen.rdP ++ x.rdP)) ||
      meets x.wrQ (preds (seen.rdQ ++ x.rdQ)) || (vtrn && x.mem)
    let temp := (x.rd ++ x.own).any fun r => decide (56 ≤ r) && !seen.wr.contains r
    let late := x.once && (meets x.rd seen.wr || meets (preds x.rdQ) seen.wrQ || meets (preds x.rdP) seen.wrP)
    lowest [cnd (!clash) 0x14, cnd (!temp) 0x16, cnd (!late) 0x19,
      orderReason vtrn
        { rd := seen.rd ++ x.rd, rdP := seen.rdP ++ x.rdP ++ x.combP, rdQ := seen.rdQ ++ x.rdQ ++ x.combQ,
          wr := seen.wr ++ x.wr, wrP := seen.wrP ++ x.wrP, wrQ := seen.wrQ ++ x.wrQ } xs]

/-- Reason 0x15: an instruction under a lookahead touches the destination (R9). -/
def lookReason : List Info → Nat
  | [] => 0
  | x :: xs =>
    let bad := match x.long with
      | none => false
      | some (d, n) =>
        let dst := (List.range n).map (d + ·)
        (xs.take x.la).any fun y => meets (y.rd ++ y.wr ++ y.own) dst
    lowest [cnd (!bad) 0x15, lookReason xs]

/-- Reasons 0x17 and 0x18: the registers a trailer names (R15, R81). -/
def pendReason (is : List Info) (trailer : Word) : Nat :=
  let names := [(bits trailer 19 6).toNat, (bits trailer 13 6).toNat].filter (· != 63)
  let ok := names.all fun r => is.any fun x => match x.long with | some (d, _) => d == r | none => false
  lowest [cnd ok 0x17, cnd (!(!names.isEmpty && is.any fun x => x.acq)) 0x18]

/-- The structure checks of R105, step 4: the lowest code. -/
def structReason (is : List Info) (trailer : Word) : Nat :=
  let vtrn := match is with | x :: _ => x.fac == some false | [] => false
  lowest [placeReason is, orderReason vtrn {} is, lookReason is, pendReason is trailer]

/-- The DOMAIN code of the tile that an instruction's tile field names, of those that R283 collects. -/
def State.domOf (s : State) (c : Nat) (x : Info) : Option Nat := if x.dom then x.tile.map fun n => (s.tile c n).dom else none
/-- The domain checks of R283, step 5: the lowest code with the index of its offending word, the first whose tile differs from those
before it, or the first non-linear instruction. -/
def State.domainReason (s : State) (c : Nat) (is : List Info) : Option (Nat × Nat) :=
  let doms := is.filterMap (s.domOf c)
  match is.findIdx? fun x => match s.domOf c x, doms.head? with | some d, some d0 => d != d0 | _, _ => false with
  | some i => some (0x21, i)
  | none =>
    if doms.any (· != 0) then (is.findIdx? fun x => x.nonlin).map fun i => (0x22, i) else none

/-- Fetch and check the run at a team's program counter (R105), in the order of its five steps. -/
def State.fetchRun (s : State) (k : Nat) (t : Team) : State × Fetched :=
  let g := s.wgOf t.w
  let c := coreOfTeam k
  let pc := t.pc.toNat
  let rcv := rcvOfCore c
  match s.fetchWords rcv g.asid pc 25 0 with
  | (s, .error (.poison i _)) => (s, .poison i (wordOf 0))
  | (s, .error e) => (s, e)
  | (s, .ok ws) =>
    let body := ws.dropLast
    match s.fetchLits rcv g.asid pc 0 ws with
    | (s, .error e) => (s, e)
    | (s, .ok lits) =>
      match ws.getLast? with
      | none => (s, .trap 0x11 0 0)
      | some tr =>
        if !trailerWord tr || body.isEmpty then (s, .trap 0x11 0 (ws.headD 0))
        else
          match firstBad t.alloc (lrFac g.lr) t.handler.isSome pc 0 body with
          | some (r, i, w) => (s, .trap r i w)
          | none =>
            if trailerReason t.alloc tr != 0 then (s, .trap (trailerReason t.alloc tr) body.length tr)
            else
              let is := body.map infoOf
              if structReason is tr != 0 then (s, .trap (structReason is tr) 0 (body.headD 0))
              else
                match s.domainReason c is with
                | some (d, i) => (s, .trap d i (body.getD i 0))
                | none => (s, .ok body tr lits)

/-- The words of the run a team stands at, where they can be fetched and pass the checks. -/
def State.nextWords (s : State) (k : Nat) (t : Team) : List Word :=
  match (s.fetchRun k t).2 with
  | .ok ws _ _ => ws
  | _ => []

/-- Whether the trailer of the run at which a team stands sets the sample mark, whatever a run fetch finds of its words (R83, R376). -/
def State.nextMark (s : State) (k : Nat) (t : Team) : Bool :=
  match (s.fetchWords (rcvOfCore (coreOfTeam k)) (s.wgOf t.w).asid t.first.toNat 25 0).2 with
  | .ok ws => ws.getLast?.any fun w => trailerWord w && natBit w.toNat 1
  | .error _ => false

/-- Tokens of a workgroup named by a mask whose count is not zero (R82, R201). -/
def Wg.tokensBusy (g : Wg) (m : Nat) : Bool := (List.range 8).any fun i => natBit m i && g.tokens.getD i 0 != 0

/-- Whether a matrix operation number has been reached (R252, R261): 0 always. -/
def Wg.opReached (g : Wg) (x : Nat) : Bool :=
  let d := (x + 2 ^ 32 - g.donePfx) % 2 ^ 32
  x == 0 || d == 0 || decide (2 ^ 31 ≤ d)

/-- The tile of a location in tile form (R256), from its high word. -/
def locTile (hi : Word) : Option Nat := if hi.getLsbD 31 then some (natBits hi.toNat 0 6) else none
/-- The tiles a matrix operation names (R254). -/
def MOp.tiles (m : MOp) : List Nat :=
  let src := (locTile (m.blk.getD 1 0)).toList
  match m.op with
  | .mldb => src
  | .mloop => natBits (m.blk.getD 5 0).toNat 0 6 :: src
  | .mst => natBits (m.blk.getD 3 0).toNat 0 6 :: src
  | .mld => natBits (m.blk.getD 3 0).toNat 0 6 :: src
  | _ => [natBits (m.blk.getD 0 0).toNat 0 6]
/-- The tiles a transform names (Table 15.1): source, then destination. -/
def XOp.tiles (x : XOp) : List Nat := [natBits (x.blk.getD 0 0).toNat 0 6, natBits (x.blk.getD 0 0).toNat 8 6]
/-- The workgroups of a core. -/
def State.wgsOf (s : State) (c : Nat) : SMap Wg := s.wgs.filter fun x => x.1 / 16 == c
/-- Whether a queued or running operation pins a tile of a core (R254, R276). -/
def State.opPinned (s : State) (c n : Nat) : Bool :=
  ((s.wgsOf c).any fun x => x.2.mops.any fun m => m.tiles.contains n) || (s.xq.getD c []).any fun x => x.tiles.contains n
/-- Whether a run that has started and not completed names a tile (R82). -/
def Run.names (r : Run) (n : Nat) : Bool := !r.bodyDone && r.words.any fun w => (infoOf w).tile == some n
/-- Whether a team's run in issue, or the one that its handler will retry, names a tile (R82). -/
def Team.names (t : Team) (n : Nat) : Bool :=
  (match t.run with | some r => r.names n | none => false) || (match t.handler with | some h => h.run.names n | none => false)
/-- Whether a run pins a tile of a core for team `k` (R82): one of another team, or its own that its handler will retry. -/
def State.runPinned (s : State) (k c n : Nat) : Bool :=
  s.teams.any fun x => x.1 / 128 == c && (if x.1 = k then x.2.handler.any (·.run.names n) else x.2.names n)
/-- The tile that a TFREE word names; a run pins it, too (R82). -/
def freesTile (w : Word) : Option Nat := if bits w 25 7 == 0x54 && bits w 4 3 == 0 then some (bits w 13 6).toNat else none
/-- The tile that a TBIND word names; an engine's operation alone pins it (R200, R254). -/
def bindsTile (w : Word) : Option Nat := if bits w 25 7 == 0x54 && bits w 4 3 == 2 then some (bits w 13 6).toNat else none

/-- CSEQ of a chain as a team of `ten` reads it: 0 for another tenant's (R333). -/
def State.chainSeq (s : State) (ten c : Nat) : Nat :=
  if natBits (s.reg (oNccfg c)) 0 4 = ten then s.reg (oNcseq c) else 0

/-- The completed prefix that an instruction reads; of a queue that does not exist the spec states none (log entry 6). -/
def State.lqSeen (s : State) (q : Nat) : Nat := if q < 256 then s.reg (oLqpfx q) else Config.freeNat q

/-- Whether a release at system scope of a team still waits (R57, R59..R61, R65): for the acknowledgements of its own peer stores of the
colours in `m`, and of those that another of its lanes has read, and of the engine writes on the paths that `cls` names; and, if `cls` names H, for the back-invalidates numbered below
`mark` of those writes, of its stores that another of its lanes has read, and of stores that another team of the tenant made. Without T it orders no later store of the team. -/
def State.sysWaits (s : State) (k : Nat) (t : Team) (m : BitVec 8) (cls : BitVec 6) (mark : Nat) : Bool :=
  let ten := (s.wgOf t.w).ten
  cls.getLsbD 0 &&
    (t.peerOut.any (fun c => decide (8 ≤ c) || m.getLsbD c) ||
     [1, 2, 3, 4].any (fun p => cls.getLsbD p && s.engOut.getD (p * 16 + ten % 16) 0 != 0) ||
     cls.getLsbD 5 && s.biWait.any fun b => decide (b.num < mark) &&
       (if b.by'.team = some k then m.getLsbD b.by'.col || b.by'.carried
        else b.ten == some ten && decide (b.by'.path ≤ 4) && cls.getLsbD b.by'.path))

/-- Whether a waiting team's condition still holds it, for the waits that end by themselves (Table 11.4). -/
def State.stillWaits (s : State) (k : Nat) (t : Team) (kind : Nat) : Bool :=
  let g := s.wgOf t.w
  match t.run with
  | none => kind == 14
  | some r =>
    let w := r.words.getLastD 0
    let l := r.entry.leader t.nlanes
    let a := (bits w 13 6).toNat
    let b := (bits w 7 6).toNat
    match kind with
    | 7 => g.tokensBusy (t.get a l).toNat
    | 8 => !g.opReached (t.get a l).toNat
    | 9 => decide (s.chainSeq g.ten ((t.get b l).toNat % 4096) < (t.get64 a l).toNat)
    | 16 => s.sysWaits k t (bits w 17 8) (bits w 6 6) (r.mark.getD 0)
    | 10 => decide (s.lqSeen (t.get b l).toNat < (t.get64 a l).toNat)
    | _ => true

/-- Whether a run stands at the start of a later attempt. -/
def Run.again (r : Run) : Bool := !r.first && !r.bodyDone && r.idx == 0 && r.termLeft.isNone
/-- Whether an effect of the run that stands before place `idx` in it is held: later ones are performed after it (R403). -/
def Team.heldBefore (t : Team) (r : Run) (idx : Nat) : Bool := t.held.any fun h => h.pc == r.pc && decide (h.idx < idx)
/-- Whether a run touches a register that is still to land (R82). -/
def Team.pendMet (t : Team) (is : List Info) : Bool :=
  is.any fun x => t.pend.any fun p => !p.poison && meets (x.rd ++ x.wr ++ x.own) ((List.range p.count).map (p.reg + ·))
/-- What holds the retry of a faulted run once its handler has returned: the tokens that the handler's last trailer names, its pending
registers, and the effects that it has left held (R82, R206). -/
def State.retryKind (s : State) (t : Team) (r : Run) : Option Nat :=
  if (s.wgOf t.w).tokensBusy t.kmask.toNat then some 1
  else if t.pendMet (r.words.map infoOf) then some 3
  else if t.handler.isNone && t.held.any (·.inH) then some 13
  else none
/-- Whether a team that waits for a held effect still does: an effect of its completed run for those before it, anything else for all
(R403). -/
def Team.heldBack (t : Team) (r : Run) : Bool :=
  match r.done with
  | d :: _ => if r.bodyDone then t.heldBefore r d.1 else !t.held.isEmpty
  | [] => !t.held.isEmpty
/-- The wait kind that holds a ready team's next run (R82): token mask, tile, pending register, held effect. 17 is no kind of
Table 11.4: invalidations not yet acknowledged (R205). A run whose TFREE meets a pinned tile waits as kind 2. -/
def State.heldKind (s : State) (k : Nat) (t : Team) : Option Nat :=
  let c := coreOfTeam k
  match t.run with
  | some r =>
    if !t.invs.isEmpty then some 17
    else if r.again then if (s.part (partOfTeam k)).issuing == some k then none else s.retryKind t r
    else if t.status == .waiting 13 && t.heldBack r then some 13
    else match r.done with
      | (_, .tfree n) :: _ => if r.bodyDone && (s.opPinned c n || s.runPinned k c n) then some 2 else none
      | _ => none
  | none =>
    if !t.invs.isEmpty then some 17
    else
      let g := s.wgOf t.w
      if g.tokensBusy t.kmask.toNat then some 1
      else
        let ws := s.nextWords k t
        let is := ws.map infoOf
        if (is.any fun x => match x.tile with | some n => (s.tile c n).st != 2 | none => false) ||
           (ws.any fun w => match freesTile w with | some n => s.opPinned c n || s.runPinned k c n | none => false) ||
           (ws.any fun w => match bindsTile w with | some n => s.opPinned c n | none => false) then some 2
        else if t.pendMet is then some 3
        else if !t.held.isEmpty then some 13
        else none

/-- The wait kind of a team now: none where it is, or has become, ready (R82, R216). -/
def State.waitNow (s : State) (k : Nat) (t : Team) : Option Nat :=
  match t.status with
  | .ready => s.heldKind k t
  | .waiting w =>
    if w = 1 || w = 2 || w = 3 || w = 13 || w = 17 then s.heldKind k t
    else if s.stillWaits k t w then some w else none
  | _ => none

/-- Bring the teams of a partition up to date: a team whose condition has come becomes ready now, and one that R82 holds waits. -/
def State.settle (s : State) (pt : Nat) : State :=
  { s with teams := s.teams.map fun x =>
    if x.1 / 16 = pt then
      match x.2.status, s.waitNow x.1 x.2 with
      | .ready, some w => (x.1, { x.2 with status := .waiting w })
      | .waiting _, some w => (x.1, { x.2 with status := .waiting w })
      | .waiting _, none => (x.1, { x.2 with status := .ready, readyAt := s.tick, stv := 0 })
      | _, _ => x
    else x }

/-- The teams of stopped partitions whose condition has come become ready when it comes (R367, R369). -/
def State.settleFrozen (s : State) : State := ((s.teams.map fun x => x.1 / 16).filter s.stopped).foldl State.settle s

/-- Pass `n` cycles on a partition, its waiting teams brought up to date first. -/
def State.cycles (s : State) (pt n : Nat) : State :=
  let s := s.settle pt
  s.passCycles pt n s.nextMark

end Sys2Proof.Machine
end

