-- ==== Sys2Proof/Machine/Flags.lean ====
section
/-! DEFINITION. Sticky flags (R159, R160), control and special registers as USR, UWR and MOVS see them (R123..R125). -/

namespace Sys2Proof.Machine

/-- The six sticky flags (Table 8.7). -/
def flNV : Word := 1
def flDZ : Word := 2
def flOF : Word := 4
def flUF : Word := 8
def flNX : Word := 16
def flSA : Word := 32

/-- A flag where a condition holds. -/
def flagIf (b : Bool) (f : Word) : Word := if b then f else 0

/-- Add the flags that acting lanes raise; they count only if the lane completes the attempt (R160). -/
def Run.raise (r : Run) (n : Nat) (p : Nat → Bool) (f : Nat → Word) : Run :=
  { r with laneFlags := (List.range n).foldl (fun m l =>
      if p l && f l != 0 then m.insert l (m.getD l 0 ||| f l) else m) r.laneFlags }

/-- The value of a special register (Table 7.13) in a lane. -/
def State.special (s : State) (k : Nat) (t : Team) (n lane : Nat) : DWord :=
  let g := s.wgOf t.w
  match n with
  | 0x00 => dwordOf lane
  | 0x01 => dwordOf t.nlanes
  | 0x02 => dwordOf (t.id g)
  | 0x03 => dwordOf t.wgteam
  | 0x04 => dwordOf g.wgid
  | 0x05 => dwordOf g.reelwg
  | 0x06 => dwordOf (g.wgid / lrWgpr g.lr)
  | 0x07 => dwordOf (lrGrid g.lr)
  | 0x08 => dwordOf (partOfTeam k % 8)
  | 0x09 => dwordOf (coreOfTeam k)
  | 0x0A => dwordOf g.asid
  | 0x0B => dwordOf (s.part (partOfTeam k)).pcyc
  | _ => dwordOf (lrEntry g.lr)

/-- A control register as it stands (Table 7.14); a USR of the same run still finds it so (R125). -/
def Team.control (t : Team) (n : Nat) : DWord :=
  match n with
  | 0x10 => t.frm.setWidth 64
  | 0x11 => t.fsat.setWidth 64
  | 0x12 => t.qctl.setWidth 64
  | 0x13 => t.srseed
  | 0x14 => t.flags.setWidth 64
  | 0x15 => t.ashen.setWidth 64
  | 0x16 => t.boff.setWidth 64
  | _ => 0
/-- The same with XCFG, which is the launch's. -/
def State.control (s : State) (t : Team) (n : Nat) : DWord :=
  if n < 0x17 then t.control n else if lrFac (s.wgOf t.w).lr then 1 else 0

/-- QCTL takes a written value: reserved bits stay, a reserved FMT leaves FMT (R6, R152). -/
def qctlWrite (old v : Word) : Word :=
  let fmt := v &&& 0xF
  let fmt' := if fmt == 0 || decide (0xB ≤ fmt.toNat) then old &&& 0xF else fmt
  (v &&& 0xFF70) ||| fmt'

/-- Write a control register (R124, R125): reserved bits ignore the write (R5). -/
def Team.setControl (t : Team) (n : Nat) (v : DWord) : Team :=
  let w := v.setWidth 32
  match n with
  | 0x10 => { t with frm := w &&& 3 }
  | 0x11 => { t with fsat := w &&& 1 }
  | 0x12 => { t with qctl := qctlWrite t.qctl w }
  | 0x13 => { t with srseed := v }
  | 0x14 => { t with flags := w &&& 0x3F }
  | 0x15 => { t with ashen := w &&& 0x3F }
  | 0x16 => { t with boff := w &&& 0x1F }
  | _ => t

end Sys2Proof.Machine
end

