-- ==== Sys2Proof/Machine/Operands.lean ====
section
/-! DEFINITION. The operand forms: guards and acting lanes (R8, R93, R108), how a lane-set and a uniform-set instruction issue
(R75, R99), destinations, combining predicates (R96), and a lane's abort (R80). -/

namespace Sys2Proof.Machine

/-! ### Guards -/

/-- Whether a guard on lane predicates holds in a lane (R93). -/
def Team.guardLane (t : Team) (g : Guard) (l : Nat) : Bool := g.g == 0 || t.pred g.g.toNat l != g.n
/-- Whether a guard or condition on uniform predicates holds. -/
def Team.guardQ (t : Team) (g : Guard) : Bool := g.g == 0 || t.qpred g.g.toNat != g.n
/-- The guard of format S: a predicate holding, and no negation. -/
def guardS (g : BitVec 3) : Guard := ⟨g, false⟩
/-- The acting lanes of a lane-set instruction (R108): active in the attempt, not aborted, guard true. -/
def Team.acts (t : Team) (r : Run) (g : Guard) (l : Nat) : Bool := r.acting.has l && t.guardLane g l

/-! ### Issue -/

/-- Count the slots of a lane-set instruction's passes (R75, R374). -/
def State.countLanes (s : State) (k : Nat) (t : Team) (r : Run) (g : Guard) (n : Nat) : State :=
  let pt := partOfTeam k
  if natBit (s.reg (oLcrctl pt)) 0 then s
  else
    let ls := r.todo.lanes t.nlanes
    let act := (ls.filter (t.guardLane g)).length
    let oct := r.todo.octets t.nlanes
    let asid := (s.wgOf t.w).asid
    let at' := fun j => s.lcrAt pt asid r.here j
    (((s.count (at' 0) act).count (at' 2) (ls.length - act)).count (at' 1) (8 * oct - ls.length)).count (at' 3) (32 * n - 8 * oct)

/-- Meter the pass-cycles of a launch on a partition for the interval (R328). -/
def State.meterPasses (s : State) (pt cls : Nat) (g : Wg) (n : Nat) : State :=
  let key := (g.pos * 256 + g.q) * 8 + cls
  let m := s.meter.getD pt []
  { s with meter := s.meter.insert pt (m.insert key (m.getD key 0 + n)) }

/-- A lane-set instruction issues: its passes take their cycles on the partition (R75, R88). -/
def State.laneIssue (s : State) (k : Nat) (t : Team) (r : Run) (g : Guard) : State :=
  let pt := partOfTeam k
  let n := (r.todo.octets t.nlanes + 3) / 4
  let w := s.wgOf t.w
  (((s.cycles pt n).chargeRun pt (lrScls w.lr) n).meterPasses pt (lrScls w.lr) w n).countLanes k t r g n

/-- A uniform-set instruction issues: one cycle, in which no lane-set pass issues (R75, R374). -/
def State.uniIssue (s : State) (k : Nat) (t : Team) : State :=
  let pt := partOfTeam k
  let s := (s.cycles pt 1).chargeRun pt (lrScls (s.wgOf t.w).lr) 1
  if natBit (s.reg (oLcrctl pt)) 0 then s else s.count (oLcridle pt) 32

/-- Store the team with the run at its next instruction. -/
def State.advance (s : State) (k : Nat) (t : Team) (r : Run) : State :=
  s.setTeam k { t with run := some { r with idx := r.idx + 1 }, stv := 0 }

/-- A lane-set instruction: it issues, `f` acts on the acting lanes, and the run goes on. -/
def laneInstr (s : State) (g : Guard) (f : State → Nat → Team → Run → (Nat → Bool) → State × Team × Run) : Res :=
  s.withRun fun k t r =>
    let x := f (s.laneIssue k t r g) k t r (t.acts r g)
    .next (x.1.advance k x.2.1 x.2.2)

/-- A lane-set instruction that only computes: registers, predicates and flags of the acting lanes. -/
def laneCalc (s : State) (g : Guard) (f : Team → Run → (Nat → Bool) → Team × Run) : Res :=
  laneInstr s g fun s _ t r act => (s, f t r act)

/-- d := f in each acting lane; no flag. -/
def laneOp (s : State) (g : Guard) (d : BitVec 6) (f : Team → Nat → Word) : Res :=
  laneCalc s g fun t r act => (t.put d.toNat act (f t), r)

/-- Pair d := f in each acting lane; no flag. -/
def laneOp64 (s : State) (g : Guard) (d : BitVec 6) (f : Team → Nat → DWord) : Res :=
  laneCalc s g fun t r act => (t.put64 d.toNat act (f t), r)

/-- d := f in each acting lane, raising the flags that f returns beside the value. -/
def laneFlagOp (s : State) (g : Guard) (d : BitVec 6) (f : Team → Nat → Word × Word) : Res :=
  laneCalc s g fun t r act => (t.put d.toNat act (fun l => (f t l).1), r.raise t.nlanes act (fun l => (f t l).2))

/-- d := f a in each acting lane. -/
def laneOp1 (s : State) (g : Guard) (d a : BitVec 6) (f : Word → Word) : Res :=
  laneOp s g d fun t l => f (t.get a.toNat l)
/-- d := f a b in each acting lane. -/
def laneOp2 (s : State) (g : Guard) (d a b : BitVec 6) (f : Word → Word → Word) : Res :=
  laneOp s g d fun t l => f (t.get a.toNat l) (t.get b.toNat l)
/-- d := f a b, with flags. -/
def laneFlagOp2 (s : State) (g : Guard) (d a b : BitVec 6) (f : Word → Word → Word × Word) : Res :=
  laneFlagOp s g d fun t l => f (t.get a.toNat l) (t.get b.toNat l)
/-- d := f a, with flags. -/
def laneFlagOp1 (s : State) (g : Guard) (d a : BitVec 6) (f : Word → Word × Word) : Res :=
  laneFlagOp s g d fun t l => f (t.get a.toNat l)

/-- Combine a new predicate value with the old one (R96, R118). -/
def combine (m : BitVec 3) (old new : Bool) : Bool :=
  match m.toNat with
  | 0 => new
  | 1 => old && new
  | 2 => old || new
  | _ => old != new

/-- A compare or predicate instruction of the lane set, with flags (R96, R118). -/
def lanePredFlag (s : State) (g : Guard) (m p : BitVec 3) (f : Team → Nat → Bool × Word) : Res :=
  laneCalc s g fun t r act =>
    (t.putPred p.toNat act (fun l => combine m (t.pred p.toNat l) (f t l).1), r.raise t.nlanes act (fun l => (f t l).2))

/-- The same without flags. -/
def lanePred (s : State) (g : Guard) (m p : BitVec 3) (f : Team → Nat → Bool) : Res :=
  lanePredFlag s g m p fun t l => (f t l, 0)

/-! ### Uniform-set instructions (R99) -/

/-- The leader of an attempt: the lowest lane of todo (R74, R80). -/
def Run.leader (r : Run) (t : Team) : Nat := r.todo.leader t.nlanes
/-- The lanes a uniform-set instruction writes: every lane, in a later attempt those of todo (R80, R99). -/
def Run.uniWrites (r : Run) (l : Nat) : Bool := r.first || r.todo.has l
/-- A register in the leader lane. -/
def Team.uget (t : Team) (r : Run) (n : BitVec 6) : Word := t.get n.toNat (r.leader t)
/-- A pair in the leader lane. -/
def Team.uget64 (t : Team) (r : Run) (n : BitVec 6) : DWord := t.get64 n.toNat (r.leader t)
/-- Write a register in uniform form. -/
def Team.uput (t : Team) (r : Run) (n : BitVec 6) (v : Word) : Team := t.put n.toNat r.uniWrites fun _ => v
/-- Write a pair in uniform form. -/
def Team.uput64 (t : Team) (r : Run) (n : BitVec 6) (v : DWord) : Team := t.put64 n.toNat r.uniWrites fun _ => v

/-- A uniform-set instruction: it issues, acts where its guard holds, and the run goes on. -/
def uniInstr (s : State) (g : Guard) (f : State → Nat → Team → Run → State × Team × Run) : Res :=
  s.withRun fun k t r =>
    let s := s.uniIssue k t
    let x := if t.guardQ g then f s k t r else (s, t, r)
    .next (x.1.advance k x.2.1 x.2.2)

/-- d := f of the leader's values, in uniform form. -/
def uniOp (s : State) (g : Guard) (d : BitVec 6) (f : Team → Run → Word) : Res :=
  uniInstr s g fun s _ t r => (s, t.uput r d (f t r), r)

/-- Pair d := f of the leader's values, in uniform form. -/
def uniOp64 (s : State) (g : Guard) (d : BitVec 6) (f : Team → Run → DWord) : Res :=
  uniInstr s g fun s _ t r => (s, t.uput64 r d (f t r), r)

/-- Whether an earlier instruction of the run writes register `n`. -/
def Run.wroteReg (r : Run) (n : Nat) : Bool := (r.words.take r.idx).any fun w => (infoOf w).wr.contains n

/-- A uniform compare: a combining one combines, in every attempt, with the value at run entry unless an earlier instruction
of the attempt wrote it (R96, R128). -/
def uniPred (s : State) (g : Guard) (m p : BitVec 3) (f : Team → Run → Bool) : Res :=
  uniInstr s g fun s _ t r =>
    let old := if r.setQ.getLsbD p.toNat then t.qpred p.toNat else r.savedQ.getLsbD p.toNat
    (s, t.putQ p.toNat (combine m old (f t r)), { r with setQ := r.setQ ||| BitVec.shiftLeft 1 p.toNat })

/-! ### A lane aborts (R80, R96) -/

/-- The registers a run writes, each once. -/
def Run.writes (r : Run) : List Nat := (r.words.flatMap fun w => (infoOf w).wr).eraseDups
/-- The lane predicates a run writes. -/
def Run.writesP (r : Run) : List Nat := (r.words.flatMap fun w => (infoOf w).wrP).eraseDups

/-- Whether the first instruction of the run that writes lane predicate `p` combines into it (R96). -/
def Run.combines (r : Run) (p : Nat) : Bool :=
  match r.words.find? fun w => (infoOf w).wrP.contains p with
  | some w => (infoOf w).combP.contains p
  | none => false

/-- What an abort leaves in a lane: every register the run writes holds an unspecified value, and so does every predicate, but one into
which an instruction of the run combines, and which none before it writes, keeps its value at run entry (R80, R96). -/
def State.scramble (s : State) (t : Team) (r : Run) (p : Nat → Bool) : State × Team :=
  let base := s.free
  let t := r.writes.foldl (fun t n => t.put n p fun l => Config.freeWord (base + n * 1024 + l)) t
  let t := r.writesP.foldl (fun t n =>
    if r.combines n then t.putPred n p fun l => (r.savedP.getD n 0).getLsbD l
    else t.putPred n p fun l => Config.freeBit (base + (64 + n) * 1024 + l)) t
  ({ s with free := base + 72 * 1024 }, t)

/-- A later attempt starts: in its lanes every register and lane predicate that the run writes holds its value at run entry, which an
instruction finds there, and the run leaves there, unless one of the attempt writes it in the lane (R78, R96, R108, R128); and the attempt
has written no uniform predicate. -/
def Team.retry (t : Team) (r : Run) : Team :=
  let t := r.writes.foldl (fun t n => t.put n r.todo.has fun l => ((r.saved.find? n).getD []).getD l 0) t
  let t := r.writesP.foldl (fun t n => t.putPred n r.todo.has fun l => (r.savedP.getD n 0).getLsbD l) t
  { t with run := some { r with faults := [], setQ := 0, esc := none } }

/-- A lane aborts at the instruction in issue with a cause of Table 9.1; `kind` is item 3 of Table 9.17. -/
def Run.abort (r : Run) (lane cause ea kind : Nat) : Run :=
  { r with
    aborted := r.aborted ||| laneMask lane
    faults := r.faults.insert lane { cause := cause, ea := dwordOf ea, kind := kind, ia := dwordOf r.here } }

/-- Do something in each acting lane, in ascending order, where a lane may abort. Aborted lanes are scrambled at the end. -/
def eachLane (s : State) (t : Team) (r : Run) (act : Nat → Bool)
    (f : State → Team → Run → Nat → State × Team × Run) : State × Team × Run :=
  let x := ((List.range t.nlanes).filter act).foldl (fun (a : State × Team × Run) l => f a.1 a.2.1 a.2.2 l) (s, t, r)
  let new := fun l => x.2.2.aborted.has l && !r.aborted.has l
  if (List.range t.nlanes).any new then
    let y := x.1.scramble x.2.1 x.2.2 new
    (y.1, y.2, x.2.2)
  else x

end Sys2Proof.Machine
end

