-- ==== Sys2Proof/Machine/Branch.lean ====
section
/-! DEFINITION. Where control goes behind a run: branches and calls (R129..R131) and divergence (R133..R139), as what they make of their
team, and the next run of a team that leaves a completed run (R195, R218, R403). -/

namespace Sys2Proof.Machine

/-- What a control-flow terminal does: its team goes on at an address, or it meets a mask-stack fault with a cause of Table 7.19. -/
inductive Flow where
  | go (t : Team) (pc : DWord)
  | fault (cause : Nat)

/-! ### Branches and calls (R129..R131) -/

/-- The target of a UJ word (R98). -/
def Run.target (r : Run) (dp : BitVec 21) : DWord := dwordOf r.here + dp.signExtend 64 * 4
/-- The leader's pair as a jump target: bits 1:0 are ignored. -/
def Team.jumpTo (t : Team) (r : Run) (a : BitVec 6) : DWord := t.uget64 r a &&& ~~~3
/-- Push the address behind the trailer and go on at `pc`; at depth 16 the push faults. -/
def Team.callFlow (t : Team) (r : Run) (pc : DWord) : Flow :=
  if 16 ≤ t.rstack.length then .fault 4 else .go { t with rstack := r.nextPc :: t.rstack } pc
/-- Go on at the address on top of the return stack; at depth 0 the pop faults. -/
def Team.retFlow (t : Team) : Flow :=
  match t.rstack with
  | [] => .fault 5
  | a :: st => .go { t with rstack := st } a

/-! ### Divergence (R133..R138) -/

/-- The lanes of the entry mask in which the named predicate holds. -/
def Team.holds (t : Team) (r : Run) (p : Guard) : Mask := maskOf t.nlanes fun l => r.entry.has l && t.guardLane p l
/-- A team with another active mask and mask stack. -/
def Team.diverged (t : Team) (active : Mask) (st : List StackEntry) : Team := { t with active := active, mstack := st }

/-- DIVIF: the lanes in which `p` holds go on, the others wait; at depth 32 it faults. -/
def Team.divifFlow (t : Team) (r : Run) (p : Guard) (dp : BitVec 21) : Flow :=
  if 32 ≤ t.mstack.length then .fault 0
  else
    let m := t.holds r p
    let e : StackEntry := { loop := false, mask := r.entry, wait := r.entry &&& ~~~m, start := 0 }
    if m != 0 then .go (t.diverged m (e :: t.mstack)) r.nextPc
    else .go (t.diverged e.wait ({ e with wait := 0 } :: t.mstack)) (r.target dp)
/-- DIVELSE: the lanes that wait go on. -/
def Team.divelseFlow (t : Team) (r : Run) (dp : BitVec 21) : Flow :=
  match t.mstack with
  | [] => .fault 1
  | e :: st =>
    if e.loop then .fault 2
    else if e.wait != 0 then .go (t.diverged e.wait ({ e with wait := 0 } :: st)) r.nextPc
    else .go t (r.target dp)
/-- DIVJOIN: the lanes of the entry go on together. -/
def Team.divjoinFlow (t : Team) (r : Run) : Flow :=
  match t.mstack with
  | [] => .fault 1
  | e :: st => if e.loop then .fault 2 else .go (t.diverged e.mask st) r.nextPc
/-- DIVLOOP: it enters its loop, or turns it with the lanes in which `p` holds, or leaves it. -/
def Team.divloopFlow (t : Team) (r : Run) (p : Guard) (dp : BitVec 21) : Flow :=
  let here := r.nextPc
  let m := t.holds r p
  let go := fun (e : StackEntry) (st : List StackEntry) =>
    if m != 0 then Flow.go (t.diverged m (e :: st)) here else .go (t.diverged e.mask st) (r.target dp)
  let enter := fun (_ : Unit) =>
    if 32 ≤ t.mstack.length then .fault 0 else go { loop := true, mask := r.entry, wait := 0, start := here } t.mstack
  match t.mstack with
  | [] => enter ()
  | e :: st => if e.loop && e.start == here then go e st else enter ()
/-- DIVBRK: the lanes in which `p` holds leave the loop. -/
def Team.divbrkFlow (t : Team) (r : Run) (p : Guard) (dp : BitVec 21) : Flow :=
  match t.mstack with
  | [] => .fault 1
  | e :: st =>
    if !e.loop then .fault 2
    else
      let m := t.holds r p
      if m == r.entry then .go (t.diverged e.mask st) (r.target dp)
      else .go (t.diverged (r.entry &&& ~~~m) t.mstack) r.nextPc

/-! ### The next run -/

/-- What a run's last word does to control once the run has completed: any terminal but one of control flow goes on behind the trailer. -/
def Team.flowOf (t : Team) (r : Run) : Flow :=
  let w := r.words.getLastD 0
  let dp := bits w 0 21
  let a := bits w 13 6
  let on := fun (g : Guard) (f : Flow) => if t.guardQ g then f else .go t r.nextPc
  match (bits w 25 7).toNat with
  | 0x4A => on (condOf w) (.go t (r.target dp))
  | 0x4B => on (condOf w) (t.callFlow r (r.target dp))
  | 0x4C =>
    match (bits w 4 3).toNat with
    | 0 => on (guardOf w) t.retFlow
    | 1 => on (guardOf w) (.go t (t.jumpTo r a))
    | 2 => on (guardOf w) (t.callFlow r (t.jumpTo r a))
    | _ => .go t r.nextPc
  | 0x4D => t.divifFlow r (condOf w) dp
  | 0x4E => t.divelseFlow r dp
  | 0x4F => if (bits w 4 3).toNat = 0 then t.divjoinFlow r else .go t r.nextPc
  | 0x50 => t.divloopFlow r (condOf w) dp
  | 0x52 => t.divbrkFlow r (condOf w) dp
  | _ => .go t r.nextPc
/-- A team that leaves a completed run at the boundary behind it, as it stands at its next run, with that run's address (R195, R218, R403):
the run's branch is taken. Where its terminal would fault, the team stands at the terminal, with the first word of its run beside it. -/
def Team.leaves (t : Team) (r : Run) : Team × DWord × Option DWord :=
  match t.flowOf r with
  | .go t pc => (t, pc, none)
  | .fault _ => (t, dwordOf r.here, some r.pc)

end Sys2Proof.Machine
end

