-- ==== Sys2Proof/Machine/RunEnd.lean ====
section
/-! DEFINITION. The end of a run: what a completing attempt performs (R38, R79, R80), the effects of a completed run (R125, R161,
R81, R185), how terminals end or hold a team, the register pool (R198, R220, R221) and stops at a terminal. -/

namespace Sys2Proof.Machine

/-- The team `k` as it stands, `t` where it is not resident. -/
def State.teamAt (s : State) (k : Nat) (t : Team) : Team := (s.teams.find? k).getD t
/-- Change the run in issue of a team. -/
def State.modRun (s : State) (k : Nat) (f : Run → Run) : State :=
  s.modTeam k fun t => { t with run := t.run.map f }

/-- A release of a run notes, in its attempt, which back-invalidates it waits for: those of the writes made so far (R61). -/
def State.markRun (s : State) (k : Nat) : State := s.modRun k fun r => { r with mark := some (r.mark.getD s.biNext) }

/-! ### Stores of completing lanes (R38, R41, R188) -/

/-- The lanes of the entry mask that have not completed after this attempt. -/
def Run.left (r : Run) : Mask := r.todo &&& r.aborted
/-- Whether a recorded store can be performed now: a block of a lane group waits for every lane of the group (R188). -/
def Run.groupDone (r : Run) (st : Store) : Bool :=
  match st.group with
  | none => true
  | some m => (m &&& r.entry &&& r.left) == 0
/-- Of one lane's stores in program order, those that an attempt performs and those kept for a later one: a block whose group is not complete
(R188), and behind it what the lane has stored to bytes of it (R35, R37). -/
def State.splitLane (s : State) (r : Run) : List Store → List Store × List Store → List Store × List Store
  | [], acc => acc
  | st :: sts, acc =>
    State.splitLane s r sts
      (if r.groupDone st && !acc.2.any (fun x => s.overlaps x st.at' st.bytes.length) then (acc.1 ++ [st], acc.2)
       else (acc.1, acc.2 ++ [st]))
/-- The same of every lane, in ascending order (R41): of a lane, what is kept from earlier attempts first, then, if it completes, its
stores. -/
def State.split (s : State) (r : Run) (n : Nat) : List Store × List Store :=
  let all := r.sdb ++ r.stores.filter fun st => r.acting.has st.lane
  (List.range n).foldl (fun acc l =>
    let x := s.splitLane r (all.filter fun st => st.lane == l) ([], [])
    (acc.1 ++ x.1, acc.2 ++ x.2)) ([], [])

/-- Perform them. -/
def State.performAll (s : State) (k : Nat) (sts : List Store) : State :=
  sts.foldl (fun s st => s.perform k st (s.inStack st.at')) s

/-- Insert a lane by its free key. -/
def insertByKey (key : Nat → Nat) (l : Nat) : List Nat → List Nat
  | [] => [l]
  | x :: xs => if key l < key x then l :: x :: xs else x :: insertByKey key l xs
/-- Lanes in an order that nothing promises (R191). -/
def State.freeOrder (s : State) (ls : List Nat) : State × List Nat :=
  ({ s with free := s.free + 1024 }, ls.foldr (insertByKey fun l => Config.freeNat (s.free + l)) [])

/-! ### Logs (R161, R162, R219) -/

/-- Append a record of 32 bytes to a buffer that the launch record names, under the context's ASID: on path T, as stores of the
team in colour 0 (DESIGN CHOICE, log entry 50). -/
def State.contextLog (s : State) (k : Nat) (g : Wg) (base size : Nat) (mk : Nat → List Byte) (kind : Nat) : State :=
  let src := srcPart (partOfTeam k)
  logAppend s src size 32 mk (natLE 16 0) (fun s o => ((s.readVa g.asid (base + o) 8).2).map leNat)
    (fun s o b => s.writeVa g.asid (base + o) b { path := 0, team := some k })
    (fun s n => s.writeVa g.asid base (natLE 8 n) { path := 0, team := some k }) (fun s => s.lostRecord src g.ten kind)

/-- The ash-log record of a completed run whose lanes raised enabled flags (R161, Table 8.9). -/
def State.ashLog (s : State) (k : Nat) (t : Team) (pc : DWord) (cause : Word) : State :=
  if cause == 0 then s
  else
    let g := s.wgOf t.w
    let src := srcPart (partOfTeam k)
    s.contextLog k g (lrAshBuf g.lr) (lrAshSize g.lr) (fun n =>
      natLE 4 src ++ natLE 4 cause.toNat ++ natLE 8 n ++ natLE 8 pc.toNat ++ natLE 4 (t.id g) ++ natLE 4 (lrGrid g.lr)) 1

/-- The flags of a completed run enter FLAGS, and are logged where enabled (R125, R161). -/
def State.flagsEnd (s : State) (k : Nat) (pc : DWord) (flags enabled : Word) : State :=
  match s.teams.find? k with
  | none => s
  | some t =>
    let s := s.setTeam k { t with flags := t.flags ||| flags }
    s.ashLog k t pc (flags &&& enabled)

/-! ### Effects when every lane has completed (Table 9.2) -/

/-- What an effect of a completed run meets. -/
inductive EffectEnd where
  | done (s : State)
  /-- it is to be performed again: a host holds its line cached -/
  | again (s : State)
  | wait (s : State) (kind : Nat)
  | stop (s : State) (e : Err)

/-- SIGNAL (R195): a release for every colour on path T, then an atomic add at the address, which waits while a host holds the line
cached (R56). Where more than one cause applies, the alignment is looked at before the window (DESIGN CHOICE, log entry 60). -/
def State.signalNow (s : State) (k : Nat) (t : Team) (ea : DWord) (add : Word) (lane : Nat) : EffectEnd :=
  let s := s.drainAll k
  let t := s.teamAt k t
  let g := s.wgOf t.w
  let a := ea.toNat
  let stop := fun (s : State) (c : Nat) =>
    EffectEnd.stop s { cat := 3, code := if c = 5 then 7 else 6, aux0 := c, addr := a }
  if 2 ^ 48 ≤ a then stop s 4
  else if a % 4 != 0 then stop s 6
  else if spaceOf g.lr a = 1 then stop s 4
  else
    let add' := fun (s : State) (p : Place) (gpa : Nat) =>
      match p with
      | .peer n l o => s.emit (.peerAtomic n l (s.leafKey g.ten n l o) o 0 (natLE 4 add.toNat))
      | _ => s.putPlace { path := 0, team := some k } g.ten gpa p (natLE 4 (leNat (s.placeBytes p 4) + add.toNat)) g.ktag
    if spaceOf g.lr a = 0 then
      match s.reachGlobal (rcvOfCore (coreOfTeam k)) g.asid a .atomic with
      | (s, .cause 4) => stop s 4
      | (s, .cause c) => .wait (s.submit g.ten (s.faultOf g.asid a c .atomic (.team k))) 14
      | (s, .at' p gpa) =>
        if s.placeBad p g.ktag then stop (s.foundBad p g.ten gpa g.ktag) 5
        else match s.placeHeld p with
          | (s, true) => .again s
          | (s, false) => .done (add' s p gpa)
    else
      match s.windowPlace t.w t.wgteam lane a with
      | none => stop s 4
      | some p => if s.placeBad p g.ktag then stop s 5 else .done (add' s p 0)

/-- TFREE (R200): READY to EMPTY, for a tile of the workgroup; a pinned tile holds it (R82, R254). -/
def State.tfreeNow (s : State) (k : Nat) (t : Team) (n : Nat) : EffectEnd :=
  let c := coreOfTeam k
  let tl := s.tile c n
  if s.opPinned c n || s.runPinned k c n then .wait s 2
  else if tl.ownedBy t.w && tl.st == 2 then .done (s.setTile c n { tl with st := 0 })
  else .done s

/-- An invalidation of the team's ASID (R205): the run's stores are performed first, and the team goes on when every receiver
has echoed. -/
def State.tlbinvNow (s : State) (k : Nat) (t : Team) (va : Option DWord) : State :=
  let s := s.drainAll k
  let g := s.wgOf t.w
  let ini := srcPart (partOfTeam k)
  let n := s.invSeq.getD ini 1
  let sc := match va with
    | some a => ShootScope.page g.asid (a.toNat % 2 ^ 48 / 4096)
    | none => ShootScope.asid g.asid
  (s.startShoot ini sc (.team k)).modTeam k fun t => { t with invs := t.invs ++ [(ini, n)] }

/-- Perform one effect. -/
def State.doneNow (s : State) (k : Nat) (t : Team) (d : Done) : EffectEnd :=
  match d with
  | .signal ea add l => s.signalNow k t ea add l
  | .reggive n => .done (s.regGive k n)
  | .tfree n => s.tfreeNow k t n
  | .tlbinvVa va => .done (s.tlbinvNow k t (some va))
  | .tlbinvAsid => .done (s.tlbinvNow k t none)

/-! ### How an attempt, a run and a terminal end -/

/-- Since when the team in issue is ready behind its run (R88): now, at the end of an attempt; where only its terminal was left, which had
held it in a wait, since that wait ended. -/
def State.readySince (s : State) (k : Nat) (t : Team) : Nat :=
  let p := s.part (partOfTeam k)
  if p.issuing == some k && !p.attempt then t.readyAt else s.tick
/-- The run ends and the team is ready at `pc` (R82). -/
def State.endRun (s : State) (k : Nat) (pc : DWord) : State := (s.modTeam k fun t => t.nextRun pc (s.readySince k t)).attemptOver k

/-- The terminal holds the team in a wait; it is executed again when the team is next chosen. -/
def State.blockRun (s : State) (k kind : Nat) : State :=
  (s.modTeam k fun t => { t with status := .waiting kind }).attemptOver k

/-- A fault of a team terminal (R80): its effect is not performed, and the team stops at the terminal. -/
def State.stopAt (s : State) (k : Nat) (t : Team) (r : Run) (code aux0 : Nat) : State :=
  (s.stopTeam k { t with base := some r.pc } (dwordOf r.here) { cat := 3, code := code, aux0 := aux0 }).attemptOver k

/-- The mask-stack fault with a cause of Table 7.19 (R139). -/
def State.maskFault (s : State) (k : Nat) (t : Team) (r : Run) (cause : Nat) : State := s.stopAt k t r 4 cause
/-- The illegal-wait trap (R214). -/
def State.illegalWait (s : State) (k : Nat) (t : Team) (r : Run) (reason : Nat) : State := s.stopAt k t r 1 reason
/-- An illegal instruction at execution (R198). -/
def State.illegalExec (s : State) (k : Nat) (t : Team) (r : Run) (reason : Nat) : State := s.stopAt k t r 8 reason

/-- An effect of a completed run that a stop leaves behind, as a held one (R195, R403). -/
def Done.held (d : Done) (r : Run) (idx : Nat) (inH : Bool) : Held :=
  let h : Held := { pc := r.pc, op := .tlbinvAsid, imm := 0, ops := [], reg := 0, count := 0, idx := idx, inH := inH }
  match d with
  | .tfree n => { h with op := .tfree, imm := n }
  | .signal ea add l => { h with op := .signal, imm := l, ops := [ea.extractLsb' 0 32, ea.extractLsb' 32 32, add] }
  | .reggive n => { h with op := .reggive, imm := n }
  | .tlbinvVa va => { h with op := .tlbinvVa, ops := [va.extractLsb' 0 32, va.extractLsb' 32 32] }
  | .tlbinvAsid => h
/-- Hold an effect of a run, in program order among those of its run (R403). -/
def Team.holdLeft (t : Team) (h : Held) : Team :=
  let later := fun (x : Held) => x.pc == h.pc && decide (h.idx < x.idx)
  { t with held := (t.held.takeWhile fun x => !later x) ++ h :: t.held.dropWhile fun x => !later x }
/-- Perform what is left of a completed run's effects as its team stops: one that has to wait stays held. A SIGNAL that would itself stop
the team finds it stopped. -/
def State.doneRest (s : State) (k : Nat) (t : Team) (r : Run) (ds : List (Nat × Done)) : State :=
  ds.foldl (fun s d =>
    let keep := fun (s : State) => s.modTeam k fun t => t.holdLeft (d.2.held r d.1 t.handler.isSome)
    if (s.teamAt k t).heldBefore r d.1 then keep s
    else match s.doneNow k (s.teamAt k t) d.2 with
    | .done s => s
    | .again s => keep s
    | .wait s _ => keep s
    | .stop s _ => s) s

/-- A cycle in which the team in issue waits within its run, charged to it (R88). -/
def State.runCycle (s : State) (k : Nat) (t : Team) : State :=
  let pt := partOfTeam k
  let s := (s.cycles pt 1).chargeRun pt (lrScls (s.wgOf t.w).lr) 1
  if natBit (s.reg (oLcrctl pt)) 0 then s else s.count (oLcridle pt) 32

/-- Perform the effects of a completed run in order; true when all are done. One behind an effect that is held waits for it (R403). A
SIGNAL that stops its context leaves the run standing completed, its other effects kept and its branch taken, and the team at the next run
(R195). -/
def State.doneEffects (s : State) (k : Nat) : Nat → State × Bool
  | 0 => (s, true)
  | fuel + 1 =>
    match s.teams.find? k with
    | none => (s, false)
    | some t =>
      match t.run with
      | none => (s, false)
      | some r =>
        match r.done with
        | [] => (s, true)
        | d :: ds =>
          if t.heldBefore r d.1 then (s.blockRun k 13, false)
          else match s.doneNow k t d.2 with
          | .done s => State.doneEffects (s.modRun k fun r => { r with done := ds }) k fuel
          | .again s => (s.runCycle k t, false)
          | .wait s kind => (s.blockRun k kind, false)
          | .stop s e =>
            let s := s.doneRest k t r ds
            let x := (s.teamAt k t).leaves r
            ((s.stopTeam k { x.1.leaveRun with base := x.2.2 } x.2.1 { e with pc := r.pc.toNat }).attemptOver k, false)

/-- Write the control registers that UWRs of the run name (R125). -/
def Team.applyUwr (t : Team) : Team :=
  match t.run with
  | some r => { r.uwrs.foldl (fun t u => t.setControl u.1 u.2) t with run := some { r with uwrs := [] } }
  | none => t

/-- Every lane has completed the run (R79): control registers take their values, flags accumulate and are logged, and the trailer's
fields stand for the next run. Registers and temporaries stand as the lanes left them until the terminal has been performed. -/
def State.completeRun (s : State) (k : Nat) (defer : Bool) : State :=
  match s.teams.find? k with
  | none => s
  | some t =>
    match t.run with
    | none => s
    | some r =>
      let ash := t.ashen
      let tr := r.trailer
      let t := { t with
        active := r.entry
        kmask := bits tr 5 8
        yielded := tr.getLsbD 0
        marked := tr.getLsbD 1
        run := some { r with bodyDone := true, todo := r.entry } }
      if defer then s.setTeam k t else (s.setTeam k t.applyUwr).flagsEnd k r.pc r.flags ash

/-- The end of a run whose flags its terminal adds to (R261): the control registers and FLAGS then take their values. -/
def State.deferredEnd (s : State) (k : Nat) (t : Team) (r : Run) (flags : Word) : State :=
  (s.setTeam k t.applyUwr).flagsEnd k r.pc (r.flags ||| flags) t.ashen

/-- The stores of the completing lanes are performed, and the attempt's per-lane terminals stand to be: also those of lanes that completed
before, once nothing of the lane is kept any more; that of a lane with a kept store waits behind it (R38; DESIGN CHOICE, log entry 61). -/
def State.storesEnd (s : State) (k : Nat) (t : Team) (r : Run) : State :=
  match r.termLeft with
  | some _ => s.setTeam k { t with run := some r }
  | none =>
    let x := s.split r t.nlanes
    let due := r.acting ||| r.late
    let kept := maskOf t.nlanes fun l => x.2.any fun st => st.lane == l
    (s.setTeam k { t with run := some { r with
        stores := [], sdb := x.2, late := due &&& kept, termLeft := some (due &&& ~~~kept) } }).performAll k x.1
/-- Perform the per-lane terminals that are left, in no promised order (R191), up to one that has to wait: true where one does. -/
def State.termsEnd (s : State) (k : Nat) (t : Team) (left : Mask) (term : State → Nat → State × Bool) : State × Bool :=
  let (s, order) := s.freeOrder (left.lanes t.nlanes)
  order.foldl (fun (x : State × Bool) l =>
    if x.2 then x
    else match term x.1 l with
      | (s, true) => (s, true)
      | (s, false) => (s.modRun k fun r => { r with termLeft := r.termLeft.map fun m => m &&& ~~~(laneMask l) }, false)) (s, false)

/-- The end of an attempt (R80): the completing lanes' stores and per-lane terminals, the per-attempt terminal, and their flags;
then either every lane has completed, or the faulted lanes are vectored to the supervisor handler. True when the body of the
run, and every effect of its completion, is done. The stores of every completing lane are performed before the terminal of any
(DESIGN CHOICE, log entry 47). A per-lane terminal may answer that it has to wait, and so may the per-attempt one for an attempt that
does not complete the run; the team stays in issue until then, as an attempt goes to its end before the partition chooses again (R80). -/
def State.bodyEnd (s : State) (k : Nat) (t : Team) (r : Run) (defer : Bool) (term : State → Nat → State × Bool)
    (att : State → State × Bool) : State × Bool :=
  if r.bodyDone then s.doneEffects k (r.done.length + 1)
  else
    let s := s.storesEnd k t r
    let left := match (s.teamAt k t).run with | some r => r.termLeft.getD 0 | none => 0
    let (s, wait) := s.termsEnd k t left term
    if wait then (s.runCycle k t, false)
    else
      let (s, hold) := if r.acting == 0 then (s, false) else att s
      let t := s.teamAt k t
      let r := t.run.getD r
      if hold && r.left != 0 then ((s.modTeam k fun t => { t with status := .waiting 16 }).runCycle k t, false)
      else
        let fl := (r.acting.lanes t.nlanes).foldl (fun f l => f ||| r.laneFlags.getD l 0) r.flags
        let r := { r with flags := fl, laneFlags := [], termLeft := none }
        if r.left == 0 then
          let s := s.setTeam k { t with run := some r }
          (s.completeRun k defer).doneEffects k (r.done.length + 1)
        else
          let (s, t) := s.scramble t r r.left.has
          let met := r.pendPoison.map fun (x : Nat × Mask) => (x.1, x.2 &&& ~~~r.left)
          let r := { r with todo := r.left, aborted := 0, idx := 0, first := false, mark := none, pendPoison := met }
          ((s.vectorHandler k t r).attemptOver k, false)

/-- No per-lane terminal. -/
def noTerm (s : State) (_ : Nat) : State × Bool := (s, false)
/-- No per-attempt terminal. -/
def noAtt (s : State) : State × Bool := (s, false)

/-- Go on with the team and its run once the body is done. -/
def State.afterBody (x : State × Bool) (k : Nat) (f : State → Team → Run → State) : State :=
  if x.2 then
    match x.1.teams.find? k with
    | some t =>
      match t.run with
      | some r => f x.1 t r
      | none => x.1
    | none => x.1
  else x.1

/-- A team terminal (R79, R80): the attempt ends; when every lane has completed, `f` is performed once with the entry mask as
active mask, if the guard holds; else the team goes on behind the trailer. -/
def teamTerminal (s : State) (g : Guard) (defer : Bool) (f : State → Nat → Team → Run → State) : Res :=
  s.withRun fun k t r =>
    let s := if r.bodyDone then s else s.uniIssue k t
    .next (State.afterBody (s.bodyEnd k t r defer noTerm noAtt) k fun s t r =>
      if t.guardQ g then f s k t r
      else
        let s := if defer then s.deferredEnd k t r 0 else s
        s.endRun k r.nextPc)

/-- A per-lane terminal (R79): `chk` checks each acting lane and may abort it, then the attempt ends with `perf` performed for
each completing lane, in no promised order, after its stores; it answers whether it has to wait. -/
def laneTerminal (s : State) (chk : State → Nat → Team → Run → Nat → State × Team × Run) (perf : State → Nat → Nat → State × Bool) : Res :=
  s.withRun fun k t r =>
    let x := if r.bodyDone || r.termLeft.isSome then (s, t, r)
      else eachLane (s.laneIssue k t r Guard.always) t r (t.acts r Guard.always) fun s t r l => chk s k t r l
    .next (State.afterBody (x.1.bodyEnd k x.2.1 x.2.2 false (fun s l => perf s k l) noAtt) k fun s _ r => s.endRun k r.nextPc)

/-- The attempt of a run without a terminal ends. -/
def runEnd (s : State) (k : Nat) (t : Team) (r : Run) : State :=
  State.afterBody (s.bodyEnd k t r false noTerm noAtt) k fun s _ r => s.endRun k r.nextPc

end Sys2Proof.Machine
end

