-- ==== Sys2Proof/Machine/Integer.lean ====
section
/-! DEFINITION. Integer arithmetic, logic, shifts and bit fields of the lane set (R108..R117). -/

namespace Sys2Proof.Machine

/-! ### IADD and ADDI (R110, R111) -/

/-- Clamp an exact sum to `lo .. hi`, raising SA where it lay outside (Table 7.2). -/
def clampSA (lo hi v : Int) : Word × Word :=
  if v < lo then (BitVec.ofInt 32 lo, flSA) else if hi < v then (BitVec.ofInt 32 hi, flSA) else (BitVec.ofInt 32 v, 0)
/-- Clamp to a signed word. -/
def satI (v : Int) : Word × Word := clampSA (-(2 ^ 31)) (2 ^ 31 - 1) v
/-- Clamp to an unsigned word. -/
def satN (v : Int) : Word × Word := clampSA 0 (2 ^ 32 - 1) v
/-- The difference of two numbers, without sign, as a word. -/
def absdiff (a b : Int) : Word := BitVec.ofInt 32 (if b ≤ a then a - b else b - a)

def execAdd (d a b : BitVec 6) (g : Guard) (s : State) : Res := laneOp2 s g d a b fun x y => x + y
def execSub (d a b : BitVec 6) (g : Guard) (s : State) : Res := laneOp2 s g d a b fun x y => x - y
def execAddsatI32 (d a b : BitVec 6) (g : Guard) (s : State) : Res :=
  laneFlagOp2 s g d a b fun x y => satI (x.toInt + y.toInt)
def execAddsatN32 (d a b : BitVec 6) (g : Guard) (s : State) : Res :=
  laneFlagOp2 s g d a b fun x y => satN ((x.toNat : Int) + y.toNat)
def execSubsatI32 (d a b : BitVec 6) (g : Guard) (s : State) : Res :=
  laneFlagOp2 s g d a b fun x y => satI (x.toInt - y.toInt)
def execSubsatN32 (d a b : BitVec 6) (g : Guard) (s : State) : Res :=
  laneFlagOp2 s g d a b fun x y => satN ((x.toNat : Int) - y.toNat)
def execAbsdiffI32 (d a b : BitVec 6) (g : Guard) (s : State) : Res :=
  laneOp2 s g d a b fun x y => absdiff x.toInt y.toInt
def execAbsdiffN32 (d a b : BitVec 6) (g : Guard) (s : State) : Res :=
  laneOp2 s g d a b fun x y => absdiff x.toNat y.toNat
def execAddi (d a : BitVec 6) (im : BitVec 9) (g : Guard) (s : State) : Res :=
  laneOp1 s g d a fun x => x + im.signExtend 32

/-! ### IMUL (R112) -/

/-- Bits 63:32 of the signed product. -/
def mulhiI (x y : Word) : Word := (x.signExtend 64 * y.signExtend 64).extractLsb' 32 32
/-- Bits 63:32 of the unsigned product. -/
def mulhiN (x y : Word) : Word := (x.setWidth 64 * y.setWidth 64).extractLsb' 32 32
/-- Byte `k` of a word. -/
def byteOf (x : Word) (k : Nat) : Byte := x.extractLsb' (8 * k) 8
/-- The sum over the four bytes of two words. -/
def sum4 (f : Byte → Byte → Int) (x y : Word) : Word :=
  BitVec.ofInt 32 (((List.range 4).map fun k => f (byteOf x k) (byteOf y k)).sum)
/-- The sum over the eight nibbles of two words, signed. -/
def dot8 (x y : Word) : Word :=
  BitVec.ofInt 32 (((List.range 8).map fun k =>
    (x.extractLsb' (4 * k) 4).toInt * (y.extractLsb' (4 * k) 4).toInt).sum)

def execMul (d a b : BitVec 6) (g : Guard) (s : State) : Res := laneOp2 s g d a b fun x y => x * y
def execMulhiI32 (d a b : BitVec 6) (g : Guard) (s : State) : Res := laneOp2 s g d a b mulhiI
def execMulhiN32 (d a b : BitVec 6) (g : Guard) (s : State) : Res := laneOp2 s g d a b mulhiN
/-- a x b + b+1: both halves of the pair in field b. -/
def execMad (d a b : BitVec 6) (g : Guard) (s : State) : Res :=
  laneOp s g d fun t l => t.get a.toNat l * t.get b.toNat l + t.get (b.toNat + 1) l
def execDot4I8 (d a b : BitVec 6) (g : Guard) (s : State) : Res :=
  laneOp2 s g d a b (sum4 fun x y => x.toInt * y.toInt)
def execDot4N8 (d a b : BitVec 6) (g : Guard) (s : State) : Res :=
  laneOp2 s g d a b (sum4 fun x y => (x.toNat : Int) * y.toNat)
def execDot8I4 (d a b : BitVec 6) (g : Guard) (s : State) : Res := laneOp2 s g d a b dot8
def execSad4N8 (d a b : BitVec 6) (g : Guard) (s : State) : Res :=
  laneOp2 s g d a b (sum4 fun x y => if y.toNat ≤ x.toNat then (x.toNat : Int) - y.toNat else (y.toNat : Int) - x.toNat)

/-! ### IMINMAX (R113) -/

def minI (x y : Word) : Word := if BitVec.slt y x then y else x
def maxI (x y : Word) : Word := if BitVec.slt x y then y else x
def minN (x y : Word) : Word := if BitVec.ult y x then y else x
def maxN (x y : Word) : Word := if BitVec.ult x y then y else x

def execMinI32 (d a b : BitVec 6) (g : Guard) (s : State) : Res := laneOp2 s g d a b minI
def execMaxI32 (d a b : BitVec 6) (g : Guard) (s : State) : Res := laneOp2 s g d a b maxI
def execMinN32 (d a b : BitVec 6) (g : Guard) (s : State) : Res := laneOp2 s g d a b minN
def execMaxN32 (d a b : BitVec 6) (g : Guard) (s : State) : Res := laneOp2 s g d a b maxN
def execAbsI32 (d a : BitVec 6) (g : Guard) (s : State) : Res :=
  laneOp1 s g d a fun x => if x.msb then 0 - x else x
def execNegI32 (d a : BitVec 6) (g : Guard) (s : State) : Res := laneOp1 s g d a fun x => 0 - x

/-! ### IDIV (R114) -/

/-- Signed quotient, rounded towards zero. -/
def divI (x y : Word) : Word × Word :=
  if y == 0 then (0xFFFFFFFF, flDZ) else (BitVec.ofInt 32 (x.toInt.tdiv y.toInt), 0)
/-- Unsigned quotient. -/
def divN (x y : Word) : Word × Word := if y == 0 then (0xFFFFFFFF, flDZ) else (wordOf (x.toNat / y.toNat), 0)
/-- Signed remainder, with the sign of the dividend. -/
def remI (x y : Word) : Word × Word := if y == 0 then (x, flDZ) else (BitVec.ofInt 32 (x.toInt.tmod y.toInt), 0)
/-- Unsigned remainder. -/
def remN (x y : Word) : Word × Word := if y == 0 then (x, flDZ) else (wordOf (x.toNat % y.toNat), 0)

def execDivI32 (d a b : BitVec 6) (_la : BitVec 4) (s : State) : Res := laneFlagOp2 s Guard.always d a b divI
def execDivN32 (d a b : BitVec 6) (_la : BitVec 4) (s : State) : Res := laneFlagOp2 s Guard.always d a b divN
def execRemI32 (d a b : BitVec 6) (_la : BitVec 4) (s : State) : Res := laneFlagOp2 s Guard.always d a b remI
def execRemN32 (d a b : BitVec 6) (_la : BitVec 4) (s : State) : Res := laneFlagOp2 s Guard.always d a b remN

/-! ### LOGIC and the immediate forms (R115) -/

def execAnd (d a b : BitVec 6) (g : Guard) (s : State) : Res := laneOp2 s g d a b fun x y => x &&& y
def execOr (d a b : BitVec 6) (g : Guard) (s : State) : Res := laneOp2 s g d a b fun x y => x ||| y
def execXor (d a b : BitVec 6) (g : Guard) (s : State) : Res := laneOp2 s g d a b fun x y => x ^^^ y
def execAndn (d a b : BitVec 6) (g : Guard) (s : State) : Res := laneOp2 s g d a b fun x y => x &&& ~~~y
def execOrn (d a b : BitVec 6) (g : Guard) (s : State) : Res := laneOp2 s g d a b fun x y => x ||| ~~~y
def execXnor (d a b : BitVec 6) (g : Guard) (s : State) : Res := laneOp2 s g d a b fun x y => ~~~(x ^^^ y)
def execNot (d a : BitVec 6) (g : Guard) (s : State) : Res := laneOp1 s g d a fun x => ~~~x
def execMov (d a : BitVec 6) (g : Guard) (s : State) : Res := laneOp1 s g d a fun x => x
def execAndi (d a : BitVec 6) (im : BitVec 9) (g : Guard) (s : State) : Res :=
  laneOp1 s g d a fun x => x &&& im.signExtend 32
def execOri (d a : BitVec 6) (im : BitVec 9) (g : Guard) (s : State) : Res :=
  laneOp1 s g d a fun x => x ||| im.signExtend 32
def execXori (d a : BitVec 6) (im : BitVec 9) (g : Guard) (s : State) : Res :=
  laneOp1 s g d a fun x => x ^^^ im.signExtend 32
def execMovi (d : BitVec 6) (im : BitVec 9) (g : Guard) (s : State) : Res := laneOp s g d fun _ _ => im.signExtend 32

/-! ### SHIFT and SHIFTI (R116) -/

/-- Table 7.7; counts are numbers. -/
def shlW (x : Word) (c : Nat) : Word := if 32 ≤ c then 0 else x <<< c
def shrW (x : Word) (c : Nat) : Word := if 32 ≤ c then 0 else x >>> c
def sraW (x : Word) (c : Nat) : Word := x.sshiftRight (min c 31)
def rolW (x : Word) (c : Nat) : Word := x <<< (c % 32) ||| x >>> (32 - c % 32)
def rorW (x : Word) (c : Nat) : Word := x >>> (c % 32) ||| x <<< (32 - c % 32)

def execShl (d a b : BitVec 6) (g : Guard) (s : State) : Res := laneOp2 s g d a b fun x y => shlW x y.toNat
def execShr (d a b : BitVec 6) (g : Guard) (s : State) : Res := laneOp2 s g d a b fun x y => shrW x y.toNat
def execSra (d a b : BitVec 6) (g : Guard) (s : State) : Res := laneOp2 s g d a b fun x y => sraW x y.toNat
def execRol (d a b : BitVec 6) (g : Guard) (s : State) : Res := laneOp2 s g d a b fun x y => rolW x y.toNat
def execRor (d a b : BitVec 6) (g : Guard) (s : State) : Res := laneOp2 s g d a b fun x y => rorW x y.toNat
/-- Bits 63:32 of xa << (b mod 64). -/
def execShlf (d a b : BitVec 6) (g : Guard) (s : State) : Res :=
  laneOp s g d fun t l => (t.get64 a.toNat l <<< ((t.get b.toNat l).toNat % 64)).extractLsb' 32 32
/-- Bits 31:0 of xa >> (b mod 64). -/
def execShrf (d a b : BitVec 6) (g : Guard) (s : State) : Res :=
  laneOp s g d fun t l => (t.get64 a.toNat l >>> ((t.get b.toNat l).toNat % 64)).extractLsb' 0 32
def execShli (d a : BitVec 6) (c : BitVec 5) (g : Guard) (s : State) : Res := laneOp1 s g d a fun x => shlW x c.toNat
def execShri (d a : BitVec 6) (c : BitVec 5) (g : Guard) (s : State) : Res := laneOp1 s g d a fun x => shrW x c.toNat
def execSrai (d a : BitVec 6) (c : BitVec 5) (g : Guard) (s : State) : Res := laneOp1 s g d a fun x => sraW x c.toNat
def execRoli (d a : BitVec 6) (c : BitVec 5) (g : Guard) (s : State) : Res := laneOp1 s g d a fun x => rolW x c.toNat
def execRori (d a : BitVec 6) (c : BitVec 5) (g : Guard) (s : State) : Res := laneOp1 s g d a fun x => rorW x c.toNat

/-! ### BITS (R117) -/

/-- A word from its bits. -/
def bitsOf (n : Nat) (f : Nat → Bool) : BitVec n :=
  (List.range n).foldl (fun m i => if f i then m ||| BitVec.shiftLeft 1 i else m) 0
/-- Number of 1 bits. -/
def popcW (x : Word) : Word := wordOf ((List.range 32).filter fun i => x.getLsbD i).length
/-- Leading zero bits, 32 for 0. -/
def clzW (x : Word) : Word := wordOf (((List.range 32).find? fun i => x.getLsbD (31 - i)).getD 32)
/-- Trailing zero bits, 32 for 0. -/
def ctzW (x : Word) : Word := wordOf (((List.range 32).find? fun i => x.getLsbD i).getD 32)
/-- Bit k to bit 31 - k. -/
def brevW (x : Word) : Word := bitsOf 32 fun i => x.getLsbD (31 - i)
/-- The position and width of the field that a control word names; width 0 is the empty field. -/
def fieldCtl (ctl : Word) : Nat × Nat :=
  let pos := natBits ctl.toNat 0 8
  let len := natBits ctl.toNat 8 8
  if 32 ≤ pos then (0, 0) else (pos, min len (32 - pos))
/-- Field extract, zero-extended. -/
def bxtN (x ctl : Word) : Word := wordOf (natBits x.toNat (fieldCtl ctl).1 (fieldCtl ctl).2)
/-- Field extract, sign-extended from the field's top bit. -/
def bxtI (x ctl : Word) : Word :=
  let f := fieldCtl ctl
  let v := natBits x.toNat f.1 f.2
  if f.2 = 0 then 0 else if natBit v (f.2 - 1) then wordOf (v + 2 ^ 32 - 2 ^ f.2) else wordOf v
/-- Field insert. -/
def insertField (x v ctl : Word) : Word := let f := fieldCtl ctl; wordOf (natPut x.toNat f.1 f.2 v.toNat)
/-- One byte of BSEL, from its selector byte. -/
def selByte (x : DWord) (c : Byte) : Byte :=
  let b : Byte := x.extractLsb' (8 * natBits c.toNat 0 3) 8
  match natBits c.toNat 3 2 with
  | 0 => if c.getLsbD 5 then bitsOf 8 fun i => b.getLsbD (7 - i) else b
  | 1 => if b.getLsbD 7 then 0xFF else 0
  | 2 => 0
  | _ => 0xFF
/-- Four selected bytes. -/
def selBytes (x : DWord) (sel : Word) : Word :=
  selByte x (byteOf sel 3) ++ selByte x (byteOf sel 2) ++ selByte x (byteOf sel 1) ++ selByte x (byteOf sel 0)

def execPopc (d a : BitVec 6) (g : Guard) (s : State) : Res := laneOp1 s g d a popcW
def execClz (d a : BitVec 6) (g : Guard) (s : State) : Res := laneOp1 s g d a clzW
def execCtz (d a : BitVec 6) (g : Guard) (s : State) : Res := laneOp1 s g d a ctzW
def execBrev (d a : BitVec 6) (g : Guard) (s : State) : Res := laneOp1 s g d a brevW
def execBxtI32 (d a b : BitVec 6) (g : Guard) (s : State) : Res := laneOp2 s g d a b bxtI
def execBxtN32 (d a b : BitVec 6) (g : Guard) (s : State) : Res := laneOp2 s g d a b bxtN
def execBins (d a b : BitVec 6) (g : Guard) (s : State) : Res :=
  laneOp s g d fun t l => insertField (t.get a.toNat l) (t.get b.toNat l) (t.get (b.toNat + 1) l)
def execBsel (d a b : BitVec 6) (g : Guard) (s : State) : Res :=
  laneOp s g d fun t l => selBytes (t.get64 a.toNat l) (t.get b.toNat l)

end Sys2Proof.Machine
end

