-- ==== Sys2Proof/Machine/Address.lean ====
section
/-! DEFINITION. Compares, predicates, 64-bit addresses, windows, MOVS and the cross-lane instructions of the lane set
(R118..R123, R140..R142). -/

namespace Sys2Proof.Machine

/-! ### ICMP (R118) -/

/-- A compare of two registers of the lane. -/
def laneCmp (s : State) (g : Guard) (m p : BitVec 3) (a b : BitVec 6) (f : Word → Word → Bool) : Res :=
  lanePred s g m p fun t l => f (t.get a.toNat l) (t.get b.toNat l)

def execEq (m p : BitVec 3) (a b : BitVec 6) (g : Guard) (s : State) : Res := laneCmp s g m p a b fun x y => x == y
def execNe (m p : BitVec 3) (a b : BitVec 6) (g : Guard) (s : State) : Res := laneCmp s g m p a b fun x y => x != y
def execLtI32 (m p : BitVec 3) (a b : BitVec 6) (g : Guard) (s : State) : Res :=
  laneCmp s g m p a b fun x y => decide (x.toInt < y.toInt)
def execLeI32 (m p : BitVec 3) (a b : BitVec 6) (g : Guard) (s : State) : Res :=
  laneCmp s g m p a b fun x y => decide (x.toInt ≤ y.toInt)
def execGtI32 (m p : BitVec 3) (a b : BitVec 6) (g : Guard) (s : State) : Res :=
  laneCmp s g m p a b fun x y => decide (y.toInt < x.toInt)
def execGeI32 (m p : BitVec 3) (a b : BitVec 6) (g : Guard) (s : State) : Res :=
  laneCmp s g m p a b fun x y => decide (y.toInt ≤ x.toInt)
def execLtN32 (m p : BitVec 3) (a b : BitVec 6) (g : Guard) (s : State) : Res :=
  laneCmp s g m p a b fun x y => decide (x.toNat < y.toNat)
def execGeN32 (m p : BitVec 3) (a b : BitVec 6) (g : Guard) (s : State) : Res :=
  laneCmp s g m p a b fun x y => decide (y.toNat ≤ x.toNat)

/-! ### PRED (R119) -/

/-- SEL has no guard: `g` selects the source. -/
def execSel (d a b : BitVec 6) (g : Guard) (s : State) : Res :=
  laneOp s Guard.always d fun t l => if t.guardLane g l then t.get a.toNat l else t.get b.toNat l
def execP2v (d : BitVec 6) (r : BitVec 3) (g : Guard) (s : State) : Res :=
  laneOp s g d fun t l => if t.pred r.toNat l then 1 else 0
def execV2p (m p : BitVec 3) (a : BitVec 6) (g : Guard) (s : State) : Res :=
  lanePred s g m p fun t l => t.get a.toNat l != 0
def execPand (m p r sr : BitVec 3) (g : Guard) (s : State) : Res :=
  lanePred s g m p fun t l => t.pred r.toNat l && t.pred sr.toNat l
def execPor (m p r sr : BitVec 3) (g : Guard) (s : State) : Res :=
  lanePred s g m p fun t l => t.pred r.toNat l || t.pred sr.toNat l
def execPxor (m p r sr : BitVec 3) (g : Guard) (s : State) : Res :=
  lanePred s g m p fun t l => t.pred r.toNat l != t.pred sr.toNat l
def execPnot (m p r : BitVec 3) (g : Guard) (s : State) : Res :=
  lanePred s g m p fun t l => !t.pred r.toNat l

/-! ### ADDR (R120) -/

def execAdd64 (d a b : BitVec 6) (g : Guard) (s : State) : Res :=
  laneOp64 s g d fun t l => t.get64 a.toNat l + t.get64 b.toNat l
def execSub64 (d a b : BitVec 6) (g : Guard) (s : State) : Res :=
  laneOp64 s g d fun t l => t.get64 a.toNat l - t.get64 b.toNat l
def execLeaN (d a b : BitVec 6) (g : Guard) (s : State) : Res :=
  laneOp64 s g d fun t l => t.get64 a.toNat l + (t.get b.toNat l).setWidth 64
def execLeaI (d a b : BitVec 6) (g : Guard) (s : State) : Res :=
  laneOp64 s g d fun t l => t.get64 a.toNat l + (t.get b.toNat l).signExtend 64
def execLea4N (d a b : BitVec 6) (g : Guard) (s : State) : Res :=
  laneOp64 s g d fun t l => t.get64 a.toNat l + 4 * (t.get b.toNat l).setWidth 64
def execLea4I (d a b : BitVec 6) (g : Guard) (s : State) : Res :=
  laneOp64 s g d fun t l => t.get64 a.toNat l + 4 * (t.get b.toNat l).signExtend 64
def execMulwI32 (d a b : BitVec 6) (g : Guard) (s : State) : Res :=
  laneOp64 s g d fun t l => (t.get a.toNat l).signExtend 64 * (t.get b.toNat l).signExtend 64
def execMulwN32 (d a b : BitVec 6) (g : Guard) (s : State) : Res :=
  laneOp64 s g d fun t l => (t.get a.toNat l).setWidth 64 * (t.get b.toNat l).setWidth 64

/-! ### Windows (R122) -/

/-- Base and size of the local (1), shared (2) and cluster (3) window. -/
def windowOf (lr : BitVec 2048) (win : Nat) : Nat × Nat :=
  match win with
  | 1 => (lrLocBase lr, lrLocSize lr)
  | 2 => (lrShBase lr, lrShSize lr)
  | _ => (lrClBase lr, lrClSize lr)
/-- Whether an address lies in a window. -/
def inWindow (w : Nat × Nat) (ea : Nat) : Bool := decide (w.1 ≤ ea) && decide (ea < w.1 + w.2)
/-- The launch record of a team. -/
def State.lrOf (s : State) (t : Team) : BitVec 2048 := (s.wgOf t.w).lr

/-- WTEST: 1 inside, else 0. -/
def wtest (s : State) (g : Guard) (d a : BitVec 6) (win : Nat) : Res :=
  laneInstr s g fun s' _ t r act =>
    (s', t.put d.toNat act fun l => if inWindow (windowOf (s.lrOf t) win) (t.get64 a.toNat l).toNat then 1 else 0, r)
/-- WTO: the offset inside, else 0xFFFF_FFFF. -/
def wto (s : State) (g : Guard) (d a : BitVec 6) (win : Nat) : Res :=
  laneInstr s g fun s' _ t r act =>
    let w := windowOf (s.lrOf t) win
    (s', t.put d.toNat act fun l =>
      let ea := (t.get64 a.toNat l).toNat
      if inWindow w ea then wordOf (ea - w.1) else 0xFFFFFFFF, r)
/-- WFROM: the address of an offset, else all ones. -/
def wfrom (s : State) (g : Guard) (d a : BitVec 6) (win : Nat) : Res :=
  laneInstr s g fun s' _ t r act =>
    let w := windowOf (s.lrOf t) win
    (s', t.put64 d.toNat act fun l =>
      let o := (t.get a.toNat l).toNat
      if o < w.2 then dwordOf (w.1 + o) else 0xFFFFFFFFFFFFFFFF, r)

def execWtestLocal (d a : BitVec 6) (g : Guard) (s : State) : Res := wtest s g d a 1
def execWtestShared (d a : BitVec 6) (g : Guard) (s : State) : Res := wtest s g d a 2
def execWtestCluster (d a : BitVec 6) (g : Guard) (s : State) : Res := wtest s g d a 3
def execWtoLocal (d a : BitVec 6) (g : Guard) (s : State) : Res := wto s g d a 1
def execWtoShared (d a : BitVec 6) (g : Guard) (s : State) : Res := wto s g d a 2
def execWtoCluster (d a : BitVec 6) (g : Guard) (s : State) : Res := wto s g d a 3
def execWfromLocal (d a : BitVec 6) (g : Guard) (s : State) : Res := wfrom s g d a 1
def execWfromShared (d a : BitVec 6) (g : Guard) (s : State) : Res := wfrom s g d a 2
def execWfromCluster (d a : BitVec 6) (g : Guard) (s : State) : Res := wfrom s g d a 3
def execWspace (d a : BitVec 6) (g : Guard) (s : State) : Res :=
  laneInstr s g fun s' _ t r act =>
    (s', t.put d.toNat act fun l => wordOf (spaceOf (s.lrOf t) (t.get64 a.toNat l).toNat), r)

/-! ### MOVS (R123) -/

/-- Whether a special or control register is 64 bits wide (Tables 7.13, 7.14). -/
def wideSpecial (n : Nat) : Bool := n == 0x0B || n == 0x0C || n == 0x13

/-- A special register in each acting lane; %pcyc as at the first pass, before the instruction's own cycles pass. -/
def execMovs (d a : BitVec 6) (g : Guard) (s : State) : Res :=
  laneInstr s g fun s' k t r act =>
    if wideSpecial a.toNat then (s', t.put64 d.toNat act (s.special k t a.toNat), r)
    else (s', t.put d.toNat act fun l => (s.special k t a.toNat l).setWidth 32, r)

/-! ### XLANE and VTRN (R140..R142) -/

/-- A source lane's register: 0 at or above %nlanes. -/
def Team.src (t : Team) (a : BitVec 6) (l : Nat) : Word := if l < t.nlanes then t.get a.toNat l else 0
/-- The positions of lane `l`'s group that participate. -/
def Run.group (r : Run) (n l : Nat) : List Nat :=
  (List.range 32).filter fun j => decide (l / 32 * 32 + j < n) && r.entry.has (l / 32 * 32 + j)

/-- Lane `l` takes `a` of position `pos` of its group. -/
def xlane (s : State) (d a : BitVec 6) (pos : Team → Nat → Option Nat) : Res :=
  laneOp s Guard.always d fun t l => match pos t l with
    | some j => t.src a (l / 32 * 32 + j)
    | none => 0
/-- Lane `l` takes a value of its participating group. -/
def xgroup (s : State) (d a : BitVec 6) (f : List (Nat × Word) → Word) : Res :=
  laneCalc s Guard.always fun t r act =>
    (t.put d.toNat act fun l => f ((r.group t.nlanes l).map fun j => (j, t.get a.toNat (l / 32 * 32 + j))), r)

def execLpick (d a b : BitVec 6) (_la : BitVec 4) (s : State) : Res :=
  xlane s d a fun t l => some ((t.get b.toNat l).toNat % 32)
def execLslide (d a b : BitVec 6) (_la : BitVec 4) (s : State) : Res :=
  xlane s d a fun t l =>
    let j : Int := ((l % 32 : Nat) : Int) - (t.get b.toNat l).toInt
    if 0 ≤ j && decide (j < 32) then some j.toNat else none
def execLrot (d a b : BitVec 6) (_la : BitVec 4) (s : State) : Res :=
  xlane s d a fun t l => some ((l + (t.get b.toNat l).toNat) % 32)
def execLswap (d a b : BitVec 6) (_la : BitVec 4) (s : State) : Res :=
  xlane s d a fun t l => some ((l % 32) ^^^ ((t.get b.toNat l).toNat % 32))
def execLbits (d a : BitVec 6) (_la : BitVec 4) (s : State) : Res :=
  xgroup s d a fun vs => wordOf ((vs.map fun v => if v.2 != 0 then 2 ^ v.1 else 0).sum)
def execLall (d a : BitVec 6) (_la : BitVec 4) (s : State) : Res :=
  xgroup s d a fun vs => if vs.all fun v => v.2 != 0 then 1 else 0
def execRedaddI32 (d a : BitVec 6) (_la : BitVec 4) (s : State) : Res :=
  xgroup s d a fun vs => vs.foldl (fun m v => m + v.2) 0
def execRedmaxI32 (d a : BitVec 6) (_la : BitVec 4) (s : State) : Res :=
  xgroup s d a fun vs => vs.foldl (fun m v => maxI m v.2) 0x80000000

/-- Element `c` of `e` bits of a lane's registers d.. (R142); 0 at or above %nlanes. -/
def Team.element (t : Team) (d e c l : Nat) : Nat :=
  if l < t.nlanes then natBits (t.get (d + c / (32 / e)) l).toNat (e * (c % (32 / e))) e else 0
/-- The transpose of registers d..d+7 within groups of 256/e lanes. -/
def vtrn (s : State) (d : BitVec 6) (e : Nat) : Res :=
  laneCalc s Guard.always fun t r act =>
    let gsz := 256 / e
    ((List.range 8).foldl (fun (u : Team) q => u.put (d.toNat + q) act fun l =>
      wordOf (((List.range (32 / e)).map fun h =>
        t.element d.toNat e (l % gsz) (l / gsz * gsz + q * (32 / e) + h) * 2 ^ (e * h)).sum)) t, r)
def execVtrn8 (d : BitVec 6) (_la : BitVec 4) (s : State) : Res := vtrn s d 8
def execVtrn16 (d : BitVec 6) (_la : BitVec 4) (s : State) : Res := vtrn s d 16
def execVtrn32 (d : BitVec 6) (_la : BitVec 4) (s : State) : Res := vtrn s d 32

end Sys2Proof.Machine
end

