-- ==== Sys2Proof/Machine/Numbers.lean ====
section
/-! DEFINITION. Number formats, rounding, the self-describing block and the helpers of the pseudocode (R147..R149, R154..R157, R169,
R173..R176, R404). A finite number is held exactly, as a sign, a magnitude and a power of two. -/

namespace Sys2Proof.Machine

/-- An exact number: NaN (signalling or not), an infinity, or (-1)^neg x m x 2^e; m = 0 is a zero with its sign. -/
inductive Num where
  | nan (sig : Bool)
  | inf (neg : Bool)
  | fin (neg : Bool) (m : Nat) (e : Int)
  deriving DecidableEq, Repr

/-- A floating format of Table 8.1: exponent and mantissa bits, bias, kind 0 with infinity and NaN, 1 with one NaN code and no
infinity (E4M3), 2 with neither; `sig` where a NaN with a clear top mantissa bit signals (R149). -/
structure Fmt where
  eb : Nat
  mb : Nat
  bias : Nat
  kind : Nat
  sig : Bool
  deriving DecidableEq, Repr

def fp32 : Fmt := ⟨8, 23, 127, 0, true⟩
def bf16 : Fmt := ⟨8, 7, 127, 0, true⟩
def fp16 : Fmt := ⟨5, 10, 15, 0, true⟩
def e5m2 : Fmt := ⟨5, 2, 15, 0, false⟩
def e4m3 : Fmt := ⟨4, 3, 7, 1, false⟩
def e3m2 : Fmt := ⟨3, 2, 3, 2, false⟩
def e2m3 : Fmt := ⟨2, 3, 1, 2, false⟩
def e2m1 : Fmt := ⟨2, 1, 1, 2, false⟩

/-- The smallest normal exponent. -/
def Fmt.emin (f : Fmt) : Int := 1 - f.bias
/-- The code of the sign bit. -/
def Fmt.signBit (f : Fmt) : Nat := 2 ^ (f.eb + f.mb)
/-- The code of +infinity, in kind 0. -/
def Fmt.infCode (f : Fmt) : Nat := (2 ^ f.eb - 1) * 2 ^ f.mb
/-- The code of the largest finite value. -/
def Fmt.maxCode (f : Fmt) : Nat :=
  if f.kind = 0 then f.infCode - 1 else if f.kind = 1 then f.signBit - 2 else f.signBit - 1
/-- EMAX (Table 8.1). -/
def Fmt.emax (f : Fmt) : Int := ((f.maxCode / 2 ^ f.mb : Nat) : Int) - f.bias
/-- The canonical NaN (R149). -/
def Fmt.canon (f : Fmt) : Nat := if f.kind = 0 then f.infCode + 2 ^ (f.mb - 1) else f.signBit - 1

/-- The value of a code (R148). -/
def Fmt.decode (f : Fmt) (c : Nat) : Num :=
  let neg := natBit c (f.eb + f.mb)
  let e := natBits c f.mb f.eb
  let m := natBits c 0 f.mb
  if f.kind = 0 && e == 2 ^ f.eb - 1 then
    if m = 0 then .inf neg else .nan (f.sig && !natBit m (f.mb - 1))
  else if f.kind = 1 && c % f.signBit == f.signBit - 1 then .nan false
  else if e = 0 then .fin neg m (f.emin - f.mb)
  else .fin neg (m + 2 ^ f.mb) ((e : Int) - f.bias - f.mb)

/-! ### Rounding -/

/-- Whether a magnitude of `q` units with a discarded part rounds away from zero: `half` compares the discarded part with half
a unit, and modes are 0 RNE, 1 RTZ, 2 RUP, 3 RDN (Table 8.2). -/
def roundsUp (mode : Nat) (neg : Bool) (q : Nat) (half : Ordering) (inexact : Bool) : Bool :=
  match mode with
  | 0 => match half with | .gt => true | .eq => q % 2 == 1 | .lt => false
  | 1 => false
  | 2 => inexact && !neg
  | _ => inexact && neg

/-- The magnitude `m x 2^e`, a little more where `sticky`, in whole units of 2^u; and whether something was discarded. -/
def roundTo (mode : Nat) (neg : Bool) (m : Nat) (e : Int) (sticky : Bool) (u : Int) : Nat × Bool :=
  if u ≤ e then (m * 2 ^ (e - u).toNat, sticky)
  else
    let d := (u - e).toNat
    let q := m / 2 ^ d
    let r := m % 2 ^ d
    let h := compare (2 * r) (2 ^ d)
    let h := if sticky && h == .eq then .gt else h
    let ix := r != 0 || sticky
    (if roundsUp mode neg q h ix then q + 1 else q, ix)

/-- floor(log2 |x|) of a magnitude that is not zero. -/
def floorLog (m : Nat) (e : Int) : Int := (Nat.log2 m : Int) + e
/-- The exponent of ULP(x, F) (R154). -/
def Fmt.ulp (f : Fmt) (m : Nat) (e : Int) : Int :=
  if m = 0 then f.emin - f.mb else max (floorLog m e) f.emin - f.mb
/-- The magnitude code of `n` units of 2^u on the grid of the format; it grows past the largest finite code. -/
def Fmt.grid (f : Fmt) (n : Nat) (u : Int) : Nat := (u + f.mb - f.emin).toNat * 2 ^ f.mb + n
/-- A code with its sign. -/
def Fmt.signed (f : Fmt) (neg : Bool) (c : Nat) : Nat := if neg then f.signBit + c else c

/-- Round to an IEEE format (R158, R159): the code, and OF, UF and NX as IEEE 754 raises them, tininess after rounding (R404). -/
def Fmt.ieee (f : Fmt) (mode : Nat) (neg : Bool) (m : Nat) (e : Int) (sticky : Bool) : Nat × Word :=
  if m = 0 then (f.signed neg 0, 0)
  else
    let u := f.ulp m e
    let r := roundTo mode neg m e sticky u
    let c := f.grid r.1 u
    if f.maxCode < c then
      let toInf := mode = 0 || mode = 2 && !neg || mode = 3 && neg
      (f.signed neg (if toInf then f.infCode else f.maxCode), flOF ||| flNX)
    else
      let u' := floorLog m e - f.mb
      let r' := roundTo mode neg m e sticky u'
      let tiny := decide (floorLog r'.1 u' < f.emin)
      (f.signed neg c, flagIf r.2 flNX ||| flagIf (r.2 && tiny) flUF)

/-- Deliver an exact result in an IEEE format. -/
def Fmt.deliver (f : Fmt) (mode : Nat) (x : Num × Word) : Nat × Word :=
  match x.1 with
  | .nan _ => (f.canon, x.2)
  | .inf neg => (f.signed neg f.infCode, x.2)
  | .fin neg m e => let r := f.ieee mode neg m e false; (r.1, x.2 ||| r.2)

/-- The FP8 overflow rule (R169): `mode` from FRM, `nanov` from FSAT. -/
def Fmt.fp8 (f : Fmt) (mode : Nat) (nanov : Bool) (x : Num × Word) : Nat × Word :=
  let spill := fun (neg : Bool) => (if nanov then f.canon else f.signed neg f.maxCode, x.2 ||| flOF ||| flNX)
  match x.1 with
  | .nan _ => (f.canon, x.2)
  | .inf neg => if f.kind = 0 then (f.signed neg f.infCode, x.2) else spill neg
  | .fin neg m e =>
    let u := f.ulp m e
    let r := roundTo mode neg m e false u
    let c := f.grid r.1 u
    if f.maxCode < c then spill neg
    else (f.signed neg c, x.2 ||| flagIf r.2 flNX ||| flagIf (r.2 && decide (c < 2 ^ f.mb)) flUF)

/-! ### Exact arithmetic -/

/-- Whether a number is a signalling NaN, a NaN, a zero. -/
def Num.isSig : Num → Bool | .nan b => b | _ => false
def Num.isNan : Num → Bool | .nan _ => true | _ => false
def Num.isZero : Num → Bool | .fin _ m _ => m == 0 | _ => false
/-- The sign. -/
def Num.neg : Num → Bool | .nan _ => false | .inf n => n | .fin n _ _ => n
/-- The sign changed. -/
def Num.negate : Num → Num | .nan b => .nan b | .inf n => .inf (!n) | .fin n m e => .fin (!n) m e
/-- The magnitude. -/
def Num.abs : Num → Num | .nan b => .nan b | .inf _ => .inf false | .fin _ m e => .fin false m e
/-- NV where an operand is a signalling NaN (R149). -/
def sigNV (xs : List Num) : Word := flagIf (xs.any Num.isSig) flNV
/-- Times a power of two. -/
def Num.scale (x : Num) (k : Int) : Num := match x with | .fin n m e => .fin n m (e + k) | y => y
/-- An integer as a number. -/
def Num.ofInt (v : Int) : Num := .fin (decide (v < 0)) v.natAbs 0
/-- A finite number as an integer multiple of 2^e0, for e0 at most its exponent. -/
def Num.units (x : Num) (e0 : Int) : Int :=
  match x with
  | .fin n m e => let v : Int := m * 2 ^ (e - e0).toNat; if n then -v else v
  | _ => 0

/-- Product. -/
def Num.mul (x y : Num) : Num × Word :=
  match x, y with
  | .nan _, _ => (.nan false, sigNV [x, y])
  | _, .nan _ => (.nan false, sigNV [x, y])
  | .inf n, .inf n' => (.inf (n != n'), 0)
  | .inf n, .fin n' m _ => if m = 0 then (.nan false, flNV) else (.inf (n != n'), 0)
  | .fin n m _, .inf n' => if m = 0 then (.nan false, flNV) else (.inf (n != n'), 0)
  | .fin n m e, .fin n' m' e' => (.fin (n != n') (m * m') (e + e'), 0)

/-- Sum; an exact zero of two operands of unlike sign is +0, -0 when rounding down. -/
def Num.add (mode : Nat) (x y : Num) : Num × Word :=
  match x, y with
  | .nan _, _ => (.nan false, sigNV [x, y])
  | _, .nan _ => (.nan false, sigNV [x, y])
  | .inf n, .inf n' => if n = n' then (.inf n, 0) else (.nan false, flNV)
  | .inf n, .fin _ _ _ => (.inf n, 0)
  | .fin _ _ _, .inf n => (.inf n, 0)
  | .fin n m e, .fin n' m' e' =>
    let e0 := min e e'
    let v := (Num.fin n m e).units e0 + (Num.fin n' m' e').units e0
    if v = 0 then (.fin (if n = n' then n else mode == 3) 0 e0, 0)
    else (.fin (decide (v < 0)) v.natAbs e0, 0)

/-- x y + z, without rounding between (R164). -/
def Num.fma (mode : Nat) (x y z : Num) : Num × Word :=
  if x.isNan || y.isNan || z.isNan then (.nan false, sigNV [x, y, z])
  else
    let p := x.mul y
    let r := p.1.add mode z
    (r.1, p.2 ||| r.2)

/-- x < y for numbers that are no NaN; zeros are equal. -/
def Num.lt (x y : Num) : Bool :=
  match x, y with
  | .nan _, _ => false
  | _, .nan _ => false
  | .inf n, .inf n' => n && !n'
  | .inf n, .fin _ _ _ => n
  | .fin _ _ _, .inf n => !n
  | .fin n m e, .fin n' m' e' =>
    let e0 := min e e'
    decide ((Num.fin n m e).units e0 < (Num.fin n' m' e').units e0)
/-- Equal as numbers. -/
def Num.eq (x y : Num) : Bool := !x.isNan && !y.isNan && !x.lt y && !y.lt x
/-- Ordered as minimumNumber orders: -0 below +0. -/
def Num.below (x y : Num) : Bool := x.lt y || (x.eq y && x.neg && !y.neg)

/-- minimumNumber and maximumNumber on codes of a format (R164). -/
def Fmt.minMax (f : Fmt) (max' : Bool) (a b : Nat) : Nat × Word :=
  let x := f.decode a
  let y := f.decode b
  let fl := sigNV [x, y]
  match x, y with
  | .nan _, .nan _ => (f.canon, fl)
  | .nan _, _ => (b, fl)
  | _, .nan _ => (a, fl)
  | _, _ => (if (if max' then x.below y else y.below x) then b else a, fl)

/-- Round to an integral value (R165): the number, and whether it changed. -/
def Num.integral (mode : Nat) (x : Num) : Num × Bool :=
  match x with
  | .fin n m e =>
    if 0 ≤ e then (x, false) else let r := roundTo mode n m e false 0; (.fin n r.1 0, r.2)
  | y => (y, false)

/-- Convert to an integer in `lo .. hi` (R171). -/
def Num.toInteger (mode : Nat) (lo hi : Int) (x : Num) : Int × Word :=
  match x with
  | .nan _ => (0, flNV)
  | .inf n => (if n then lo else hi, flNV)
  | .fin n m e =>
    let r := roundTo mode n m e false 0
    let v : Int := if n then -(r.1 : Int) else r.1
    if v < lo then (lo, flNV) else if hi < v then (hi, flNV) else (v, flagIf r.2 flNX)

/-! ### SR, MIX and SCALEOF (R155..R157) -/

/-- SR: whole units of 2^u, and whether something was discarded. -/
def roundSR (m : Nat) (e : Int) (u : Int) (r : Word) : Nat × Bool :=
  if u ≤ e then (m * 2 ^ (e - u).toNat, false)
  else
    let d := (u - e).toNat
    let q := m / 2 ^ d
    let f := m % 2 ^ d
    let t := f * 2 ^ 24 / 2 ^ d
    (if natBits r.toNat 8 24 < t then q + 1 else q, f != 0)

/-- MIX. -/
def mix (seed : DWord) (e : Word) : Word :=
  let h := seed.extractLsb' 0 32 ^^^ (e * 0x9E3779B1)
  let h := h ^^^ (h >>> 15)
  let h := h * 0x2C1B3C6D
  let h := h ^^^ seed.extractLsb' 32 32
  let h := h ^^^ (h >>> 12)
  let h := h * 0x297A2D39
  h ^^^ (h >>> 15)

/-- The element format of a quantised code (R152): floating, or an integer of a width. -/
inductive Elem where
  | flt (f : Fmt)
  | int (w : Nat)
  deriving DecidableEq, Repr

/-- The element format of an SDB format code 1..0xA. -/
def elemOf (c : Nat) : Elem :=
  match c with
  | 1 => .int 4
  | 2 => .int 4
  | 3 => .flt e2m1
  | 4 => .flt e2m1
  | 5 => .flt e2m3
  | 6 => .flt e3m2
  | 7 => .flt e4m3
  | 8 => .flt e5m2
  | 9 => .int 8
  | _ => .flt e4m3
/-- Width of a code. -/
def Elem.width : Elem → Nat | .flt f => f.eb + f.mb + 1 | .int w => w
/-- EMAX. -/
def Elem.emax : Elem → Int | .flt f => f.emax | .int w => (w : Int) - 2
/-- The value of a code; bits above the width are not read. -/
def Elem.decode (x : Elem) (c : Nat) : Num :=
  match x with
  | .flt f => f.decode (c % 2 ^ x.width)
  | .int w => Num.ofInt (BitVec.ofNat w c).toInt

/-- SCALEOF(m, F). -/
def scaleOf (x : Num) (f : Elem) : Nat :=
  match x with
  | .nan _ => 255
  | .inf _ => 254
  | .fin _ m e => if m = 0 then 127 else (min (max (floorLog m e - f.emax) (-127)) 127 + 127).toNat

/-- How a value is quantised: RNE, or SR with a random word. -/
inductive Rounding where
  | rne
  | sr (r : Word)
  deriving DecidableEq, Repr

/-- Round, saturate and encode a value in an element format, with NX, UF, OF and SA (R180). An infinite value saturates. -/
def Elem.quantise (x : Elem) (rd : Rounding) (y : Num) : Nat × Word :=
  let go := fun (m : Nat) (e u : Int) => match rd with
    | .rne => roundTo 0 false m e false u
    | .sr r => roundSR m e u r
  match x, y with
  | _, .nan _ => (0, 0)
  | .flt f, .inf n => (f.signed n f.maxCode, flOF ||| flNX)
  | .flt f, .fin n m e =>
    let u := f.ulp m e
    let r := go m e u
    let c := f.grid r.1 u
    if f.maxCode < c then (f.signed n f.maxCode, flOF ||| flNX)
    else (f.signed n c, flagIf r.2 flNX ||| flagIf (r.2 && decide (c < 2 ^ f.mb)) flUF)
  | .int w, .inf n => ((if n then 2 ^ (w - 1) else 2 ^ (w - 1) - 1), flSA ||| flNX)
  | .int w, .fin n m e =>
    let r := go m e 0
    let v : Int := if n then -(r.1 : Int) else r.1
    let hi : Int := 2 ^ (w - 1) - 1
    let lo : Int := -(2 ^ (w - 1))
    let enc := fun (z : Int) => (BitVec.ofInt w z).toNat
    if hi < v then (enc hi, flSA ||| flNX) else if v < lo then (enc lo, flSA ||| flNX)
    else (enc v, flagIf r.2 flNX)

/-! ### Self-describing blocks (R173..R176) -/

/-- Element width, data bytes of a microblock, and elements of a format code (Table 8.19). -/
def sdbLayout (c : Nat) : Nat × Nat × Nat :=
  match c with
  | 1 => (4, 8, 112)
  | 2 => (4, 8, 96)
  | 3 => (4, 8, 112)
  | 4 => (4, 8, 96)
  | 5 => (6, 12, 64)
  | 6 => (6, 12, 64)
  | 7 => (8, 16, 48)
  | 8 => (8, 16, 48)
  | 9 => (8, 16, 48)
  | 10 => (8, 16, 48)
  | 11 => (1, 62, 496)
  | _ => (8, 16, 0)
/-- Formats with a side list. -/
def sideFmt (c : Nat) : Bool := c == 2 || c == 4

/-- The code of slot `k` of microblock `m`. -/
def sdbCode (blk : List Byte) (c m k : Nat) : Nat :=
  let l := sdbLayout c
  let base := 1 + m * (1 + l.2.1)
  natBits (leNat ((blk.drop (base + 1)).take l.2.1)) (l.1 * k) l.1

/-- Whether a block reads as poison: a code that is none, or a side list that is too long (R176). -/
def sdbPoison (blk : List Byte) : Bool :=
  let c := (blk.getD 0 0).toNat
  c == 0 || decide (12 ≤ c) || (sideFmt c && decide (4 < (blk.getD 55 0).toNat))

/-- SDBDEC(blk, e) of a block that is not poison: the value, and NV for an escape index out of range. -/
def sdbDec (blk : List Byte) (e : Nat) : Num × Word :=
  let c := (blk.getD 0 0).toNat
  if c = 11 then (Num.ofInt (if (blk.getD (2 + e / 8) 0).getLsbD (e % 8) then 1 else 0), 0)
  else
    let l := sdbLayout c
    let m := e / 16
    let k := e % 16
    let sc := (blk.getD (1 + m * (1 + l.2.1)) 0).toNat
    if sc = 255 then (.nan false, 0)
    else
      let j := k - k % 2
      if sideFmt c && sdbCode blk c m j == 8 then
        let n := sdbCode blk c m (j + 1)
        if (blk.getD 55 0).toNat ≤ n then (.nan false, flNV)
        else (((e4m3.decode (blk.getD (56 + 2 * n + k % 2) 0).toNat)).scale ((sc : Int) - 127), 0)
      else (((elemOf c).decode (sdbCode blk c m k)).scale ((sc : Int) - 127), 0)

end Sys2Proof.Machine
end

