-- ==== Sys2Proof/Machine/Engine.lean ====
section
/-! DEFINITION. What the engines share: reading and writing memory block by block for a workgroup (R63, R67), poison carried to a
destination (R30, R31), and transform apertures (R241, R242). -/

namespace Sys2Proof.Machine

/-- A read of an engine: a value and whether poison fed it, or a fault with its cause and address; for an access by a guest-physical
address, that address and whether it is a write. -/
inductive Got (α : Type) where
  | ok (v : α) (bad : Bool)
  | fault (cause ea : Nat) (gpa : Option (Nat × Bool))

/-- Go on after a read. -/
def Got.andThen {α β : Type} (x : State × Got α) (f : State → α → State × Got β) : State × Got β :=
  match x with
  | (s, .fault c e g) => (s, .fault c e g)
  | (s, .ok v bad) =>
    match f s v with
    | (s, .ok w b) => (s, .ok w (bad || b))
    | (s, .fault c e g) => (s, .fault c e g)

/-- Gather a list of reads. -/
def gotList {α β : Type} (f : State → α → State × Got β) : State → List α → State × Got (List β)
  | s, [] => (s, .ok [] false)
  | s, a :: as => Got.andThen (f s a) fun s v => Got.andThen (gotList f s as) fun s vs => (s, .ok (v :: vs) false)

/-- The pieces of `n` bytes from `a` that lie in one 64-byte block each. -/
def cuts : Nat → Nat → Nat → List (Nat × Nat)
  | 0, _, _ => []
  | fuel + 1, a, n =>
    if n = 0 then []
    else let k := min n (64 - a % 64); (a, k) :: cuts fuel (a + k) (n - k)

/-- The read permission of Table 16.6, without a write. -/
def readOnly (n : Need) : Bool := n.r && !n.w

/-- Where an engine working for a workgroup reaches a generic address; the local window is a lane's alone. -/
def State.engReach (s : State) (w ea : Nat) (need : Need) : State × Reach :=
  let g := s.wgOf w
  match spaceOf g.lr ea with
  | 0 => s.reachGlobal (rcvOfCore (coreOfWg w)) g.asid ea need
  | 2 => (s, match s.windowPlace w 0 0 ea with | some p => .at' p 0 | none => .cause 4)
  | 3 => (s, match s.windowPlace w 0 0 ea with | some p => .at' p 0 | none => .cause 4)
  | _ => (s, .cause 4)

/-- Read bytes of a place; a peer's are free (log entry 10). -/
def State.getPlace (s : State) (ten gpa : Nat) (p : Place) (n ktag : Nat) : State × List Byte × Bool :=
  match p with
  | .peer _ _ _ =>
    let (b, s) := s.freshBit
    ({ s with free := s.free + 256 }, s.placeBytes p n, b)
  | _ =>
    let bad := s.placeBad p ktag
    (s.foundBad p ten gpa ktag, s.placeBytes p n, bad)

/-- Mark the 64-byte block of a place poisoned (R30), for a tenant; a peer's block is sent without bytes. It is a write to the block, noted
without bytes for the words that WAITV watches (R195). -/
def State.spoil (s : State) (ten : Nat) (p : Place) : State :=
  match p with
  | .sys a =>
    let s := match s.imageAt a with | some _ => s.decompress (frameOf (s.realSpa a)) | none => s
    let s := (s.mirrors (s.realSpa a)).foldl State.markBad (s.markBad a)
    { s with wrote := s.wrote ++ [(.sys (s.realSpa a / 64 * 64), [])] }
  | .scr w o =>
    { s with wgs := s.wgs.modify w (fun g => { g with pscr := g.pscr.insert (o / 64) () }), wrote := s.wrote ++ [(.scr w (o / 64 * 64), [])] }
  | .acc w o => { s with wgs := s.wgs.modify w fun g => { g with pacc := g.pacc.insert (o / 64) () } }
  | .peer n l o => s.emit (.peerStore n l (s.leafKey ten n l o) (o / 64 * 64) [])

/-- The same as a write of an engine's path. -/
def State.spoilBy (s : State) (by' : Writer) (ten : Nat) (p : Place) : State :=
  match p with
  | .sys a => (s.hostWait by' (some ten) (a / 64 * 64) [] 0).spoil ten p
  | .peer _ _ _ => (s.spoil ten p).peerSent by' ten
  | _ => s.spoil ten p

/-- Read `n` bytes from a generic address, block by block. -/
def State.engRead (s : State) (w ea n : Nat) : State × Got (List Byte) :=
  let g := s.wgOf w
  Got.andThen (gotList (fun s p =>
    match s.engReach w p.1 .load with
    | (s, .cause c) => (s, .fault c p.1 none)
    | (s, .at' pl gpa) =>
      let x := s.getPlace g.ten gpa pl p.2 g.ktag
      (x.1, .ok x.2.1 x.2.2)) s (cuts (n + 1) ea n)) fun s bs => (s, .ok bs.flatten false)

/-- Write the bytes of one block on a path, or poison it. -/
def State.engPut (s : State) (path w gpa : Nat) (p : Place) (bytes : List Byte) (bad : Bool) : State :=
  let g := s.wgOf w
  if bad then s.spoilBy { path := path } g.ten p else s.putPlace { path := path } g.ten gpa p bytes g.ktag

/-- Write bytes that lie in one block at a generic address. -/
def State.engWrite (s : State) (path w ea : Nat) (bytes : List Byte) (bad : Bool) (need : Need) : State × Got Unit :=
  match s.engReach w ea need with
  | (s, .cause c) => (s, .fault c ea none)
  | (s, .at' p gpa) => (s.engPut path w gpa p bytes bad, .ok () false)

/-! ### Transform apertures (R241, R242) -/

def apBase (s : State) (n : Nat) : Nat := s.reg (oAp n)
def apSize (s : State) (n : Nat) : Nat := natBits (s.reg (oAp n + 8)) 12 24 * 4096
def apBack (s : State) (n : Nat) : Nat := natBits (s.reg (oAp n + 16)) 6 46 * 64
def apVbase (s : State) (n : Nat) : Nat := natBits (apBase s n) 12 36 * 4096
def apXform (s : State) (n : Nat) : Nat := natBits (apBase s n) 2 2
/-- The aperture that an address of an ASID meets: the lowest-numbered enabled one. -/
def State.apAt (s : State) (asid ea : Nat) : Option Nat :=
  (List.range 256).find? fun n =>
    let b := apBase s n
    natBit b 0 && natBits b 52 12 == asid && decide (apVbase s n ≤ ea) && decide (ea < apVbase s n + apSize s n)
/-- The aperture that a copy's access at a generic address meets: windows are decoded first. -/
def State.apOf (s : State) (w ea : Nat) : Option Nat :=
  let g := s.wgOf w
  if spaceOf g.lr ea = 0 then s.apAt g.asid ea else none

/-- Reach a tenant's guest-physical address through stage 2 alone, for a core die. -/
def State.gpaReach (s : State) (w gpa : Nat) (need : Need) : State × Reach :=
  match s.xlate2 (rcvOfCore (coreOfWg w)) (s.wgOf w).ten gpa need with
  | (s, .ok spa _ _ _ _) => s.reachSpa spa gpa need
  | (s, .fault c gpa bad) =>
    (match bad with
     | some a => s.tagFail (some (s.wgOf w).ten) gpa a
     | none => s, .cause c)
/-- Read a backing buffer, within one block. -/
def State.backRead (s : State) (w gpa n : Nat) : State × Got (List Byte) :=
  let g := s.wgOf w
  match s.gpaReach w gpa .load with
  | (s, .cause c) => (s, .fault c 0 (some (gpa, false)))
  | (s, .at' p gpa) => let x := s.getPlace g.ten gpa p n g.ktag; (x.1, .ok x.2.1 x.2.2)
/-- Write a backing buffer, within one block. -/
def State.backWrite (s : State) (w gpa : Nat) (bytes : List Byte) (bad : Bool) : State × Got Unit :=
  match s.gpaReach w gpa .store with
  | (s, .cause c) => (s, .fault c 0 (some (gpa, true)))
  | (s, .at' p gpa) => (s.engPut 1 w gpa p bytes bad, .ok () false)

/-- The FP32 value of aperture element `i` as a read presents it. -/
def State.apElem (s : State) (w n i : Nat) : State × Got (List Byte) :=
  let sdb := fun (cnt : Nat) =>
    match s.backRead w (apBack s n + 64 * (i / cnt)) 64 with
    | (s, .fault c e g) => (s, Got.fault c e g)
    | (s, .ok blk bad) =>
      (s, if bad || sdbPoison blk then .ok [0, 0, 0, 0] true
          else .ok (natLE 4 (fp32.deliver 0 (sdbDec blk (i % cnt))).1) false)
  match apXform s n with
  | 1 => sdb 496
  | 2 => sdb 112
  | _ =>
    match s.backRead w (apBack s n + 2 * i) 2 with
    | (s, .fault c e g) => (s, .fault c e g)
    | (s, .ok b bad) => (s, .ok ([0, 0] ++ b) bad)
/-- Read bytes of an aperture from offset `o`. -/
def State.apRead (s : State) (w n o len : Nat) : State × Got (List Byte) :=
  if apXform s n = 0 then
    Got.andThen (gotList (fun s p => s.backRead w p.1 p.2) s (cuts (len + 1) (apBack s n + o) len)) fun s bs => (s, .ok bs.flatten false)
  else
    Got.andThen (gotList (fun s i => s.apElem w n i) s ((List.range ((o + len - 1) / 4 - o / 4 + 1)).map (o / 4 + ·))) fun s bs =>
      (s, .ok ((bs.flatten.drop (o % 4)).take len) false)

/-- The FP32 elements of bytes. -/
def fp32s (bytes : List Byte) : List Num :=
  (List.range (bytes.length / 4)).map fun j => fp32.decode (leNat ((bytes.drop (4 * j)).take 4))
/-- The microblock that a blk4 aperture writes: scale byte and codes (R242, R180). -/
def blk4Micro (xs : List Num) : List Byte :=
  let m := xs.foldl (fun (m : Num) x => if m.isNan then m else if x.isNan then x else if m.lt x.abs then x.abs else m) (.fin false 0 0)
  let sc := scaleOf m (.flt e2m1)
  let code := fun (x : Num) => if sc = 255 then 0 else ((Elem.flt e2m1).quantise .rne (x.scale (127 - (sc : Int)))).1
  BitVec.ofNat 8 sc :: natLE 8 (((List.range 16).map fun j => code (xs.getD j (.fin false 0 0)) * 16 ^ j).sum)
/-- The bits that a sign aperture writes: 1 where the value is greater than zero. -/
def signBits (xs : List Num) : List Byte :=
  natLE 2 (((List.range 16).map fun j => if (Num.fin false 0 0).lt (xs.getD j (.fin false 0 0)) then 2 ^ j else 0).sum)
/-- Write part of a block of self-describing data: the first part makes a new block; a poisoned source makes its code 0xFF. -/
def State.sdbWrite (s : State) (w blk code : Nat) (first : Bool) (at' : Nat) (bytes : List Byte) (bad : Bool) : State × Got Unit :=
  if first then s.backWrite w blk (padTo 64 (natLE 1 (if bad then 0xFF else code) ++ natLE (at' - 1) 0 ++ bytes)) false
  else if bad then s.backWrite w blk [0xFF] false
  else s.backWrite w (blk + at') bytes false
/-- Write a unit of bytes, within one 64-byte block of presented addresses, at aperture offset `o`. -/
def State.apWrite (s : State) (w n o : Nat) (bytes : List Byte) (bad : Bool) : State × Got Unit :=
  let i := o / 4
  match apXform s n with
  | 0 => s.backWrite w (apBack s n + o) bytes bad
  | 1 => s.sdbWrite w (apBack s n + 64 * (i / 496)) 0x0B (i % 496 == 0) (2 + i % 496 / 8) (signBits (fp32s bytes)) bad
  | 2 => s.sdbWrite w (apBack s n + 64 * (i / 112)) 0x03 (i % 112 == 0) (1 + i % 112 / 16 * 9) (blk4Micro (fp32s bytes)) bad
  | _ => s.backWrite w (apBack s n + 2 * i)
      ((fp32s bytes).flatMap fun x => natLE 2 (if x.isNan then 0x7FC0 else (bf16.deliver 0 (x, 0)).1)) bad

end Sys2Proof.Machine
end

