-- ==== Sys2Proof/Machine/Bellows.lean ====
section
/-! DEFINITION. The Bellows: contexts, posts, the scalar instructions, generic loads and stores, tiles and code tables (R224..R227, R230,
R231, R234..R237). Copies stand in Copy.lean. An instruction that holds leaves the context as it is and is executed again. -/

namespace Sys2Proof.Machine

/-! ### Contexts -/

/-- A register. -/
def Ctx.get (c : Ctx) (r : BitVec 4) : DWord := c.g.getD r.toNat 0
/-- Write a register. -/
def Ctx.set (c : Ctx) (r : BitVec 4) (v : DWord) : Ctx := { c with g := c.g.setD r.toNat v 0 }
/-- Go on behind the instruction. -/
def Ctx.next (c : Ctx) : Ctx := { c with pc := c.pc + 4 }
def State.setCtx (s : State) (x : Nat) (c : Ctx) : State := { s with ctxs := s.ctxs.insert x c }
/-- The next instruction word. -/
def Ctx.word (c : Ctx) : Word := wordOf (leNat (c.mem.readN c.pc.toNat 4))

/-- A context fault (R235, Table 12.8): the context stands at the instruction for good, and one error record is written. -/
def State.ctxFault (s : State) (x : Nat) (c : Ctx) (cause : Nat) : State :=
  (s.setCtx x { c with fault := cause, stoker := 0 }).report (srcCtx x)
    { cat := 4, code := 1, ten := some c.ten, asid := some c.asid, pc := c.pc.toNat, aux0 := cause }

/-- The current post's workgroup, while it has not ended. -/
def Ctx.wg? (c : Ctx) : Option Nat :=
  match c.cur with
  | some p => if p.ended then none else some p.w
  | none => none

/-- Change a token's count (R201, R226). -/
def State.tokenUp (s : State) (w k : Nat) : State :=
  { s with wgs := s.wgs.modify w fun g => { g with tokens := g.tokens.setD k (g.tokens.getD k 0 + 1) 0 } }
def State.tokenDown (s : State) (w k : Nat) : State :=
  { s with wgs := s.wgs.modify w fun g => { g with tokens := g.tokens.setD k (g.tokens.getD k 0 - 1) 0 } }

/-- An arming still unconsumed is released (R226). -/
def State.releaseArming (s : State) (x : Nat) (c : Ctx) : State × Ctx :=
  let s := match c.arming, c.wg? with
    | some k, some w => s.tokenDown w k
    | _, _ => s
  let c := { c with arming := none }
  (s.setCtx x c, c)

/-- A computing instruction. -/
def bellowsOp (s : State) (d : BitVec 4) (f : Ctx → DWord) : Res :=
  s.withCtx fun x c => .next (s.setCtx x (c.set d (f c)).next)

def execBellowsAdd (d a b : BitVec 4) (s : State) : Res := bellowsOp s d fun c => c.get a + c.get b
def execBellowsSub (d a b : BitVec 4) (s : State) : Res := bellowsOp s d fun c => c.get a - c.get b
def execBellowsAnd (d a b : BitVec 4) (s : State) : Res := bellowsOp s d fun c => c.get a &&& c.get b
def execBellowsOr (d a b : BitVec 4) (s : State) : Res := bellowsOp s d fun c => c.get a ||| c.get b
def execBellowsXor (d a b : BitVec 4) (s : State) : Res := bellowsOp s d fun c => c.get a ^^^ c.get b
def execBellowsShl (d a b : BitVec 4) (s : State) : Res := bellowsOp s d fun c => c.get a <<< ((c.get b).toNat % 64)
def execBellowsShr (d a b : BitVec 4) (s : State) : Res := bellowsOp s d fun c => c.get a >>> ((c.get b).toNat % 64)
def execBellowsMul (d a b : BitVec 4) (s : State) : Res := bellowsOp s d fun c => c.get a * c.get b
def execBellowsAddi (d a : BitVec 4) (im : BitVec 14) (s : State) : Res :=
  bellowsOp s d fun c => c.get a + im.signExtend 64
def execBellowsMovi (d : BitVec 4) (im : BitVec 14) (s : State) : Res := bellowsOp s d fun _ => im.signExtend 64
def execInsh (d : BitVec 4) (im : BitVec 14) (s : State) : Res :=
  bellowsOp s d fun c => (c.get d <<< 14) ||| im.setWidth 64

/-- A branch: the displacement counts in words from the branch. -/
def bellowsBranch (s : State) (im : BitVec 14) (p : Ctx → Bool) : Res :=
  s.withCtx fun x c => .next (s.setCtx x (if p c then { c with pc := c.pc + im.signExtend 64 * 4 } else c.next))

def execBeq (a b : BitVec 4) (im : BitVec 14) (s : State) : Res := bellowsBranch s im fun c => c.get a == c.get b
def execBne (a b : BitVec 4) (im : BitVec 14) (s : State) : Res := bellowsBranch s im fun c => c.get a != c.get b
def execBltu (a b : BitVec 4) (im : BitVec 14) (s : State) : Res :=
  bellowsBranch s im fun c => decide ((c.get a).toNat < (c.get b).toNat)
def execBgeu (a b : BitVec 4) (im : BitVec 14) (s : State) : Res :=
  bellowsBranch s im fun c => decide ((c.get b).toNat ≤ (c.get a).toNat)
def execJmp (im : BitVec 14) (s : State) : Res := bellowsBranch s im fun _ => true
def execJr (a : BitVec 4) (s : State) : Res :=
  s.withCtx fun x c => .next (s.setCtx x { c with pc := c.get a &&& ~~~3 })

/-! ### Posts (R226) -/

/-- RECV: it holds while the queue is empty. -/
def execRecv (d a : BitVec 4) (s : State) : Res :=
  s.withCtx fun x c =>
    if d = a then .next (s.ctxFault x c 1)
    else
      let (s, c) := s.releaseArming x c
      match c.posts with
      | [] => .next s
      | p :: ps =>
        .next (s.setCtx x (({ c with posts := ps, cur := some p.who, arming := p.token }.set d p.x).set a p.y).next)

/-- HALT: the next post restarts the context at 0. -/
def execHalt (s : State) : Res :=
  s.withCtx fun x c =>
    let (s, c) := s.releaseArming x c
    .next (s.setCtx x { c.next with halted := true })

/-- A post arrives in a context's queue, and restarts one that has halted. -/
def State.addPost (s : State) (x : Nat) (p : PostRec) : State :=
  { s with ctxs := s.ctxs.modify x fun c =>
    { c with posts := c.posts ++ [p], pc := if c.halted then 0 else c.pc, halted := false } }

/-! ### LD and ST (R227) -/

/-- The address of an LD or ST. -/
def bellowsAddr (c : Ctx) (a : BitVec 4) (o : BitVec 13) : Nat := (c.get a + o.signExtend 64).toNat

/-- A private access: in the quarter and aligned. -/
def privateAccess (s : State) (a : BitVec 4) (o : BitVec 13) (f : Ctx → Nat → Ctx) : Res :=
  s.withCtx fun x c =>
    let ea := bellowsAddr c a o
    if ea % 8 != 0 || decide (0x4000 ≤ ea) then .next (s.ctxFault x c 2) else .next (s.setCtx x (f c ea).next)

def execBellowsLd (d a : BitVec 4) (o : BitVec 13) (s : State) : Res :=
  privateAccess s a o fun c ea => c.set d (dwordOf (leNat (c.mem.readN ea 8)))
def execBellowsSt (a b : BitVec 4) (o : BitVec 13) (s : State) : Res :=
  privateAccess s a o fun c ea => { c with mem := c.mem.writeN ea (natLE 8 (c.get b).toNat) }

/-- A generic access: `f` acts at the place reached. A translation fault holds the context at the Stoker; one that it cannot
resolve raises cause 8. An access that is both misaligned and without a current post raises cause 2 (DESIGN CHOICE, log entry 54). -/
def genericAccess (s : State) (a : BitVec 4) (o : BitVec 13) (need : Need)
    (f : State → Nat → Ctx → Nat → Nat → Place → State) : Res :=
  s.withCtx fun x c =>
    let ea := bellowsAddr c a o
    if ea % 8 != 0 then .next (s.ctxFault x c 2)
    else
      match c.wg? with
      | none => .next (s.ctxFault x c 3)
      | some w =>
        if c.stoker = 2 then .next (s.ctxFault x c 8)
        else
          let sp := spaceOf (s.wgOf w).lr ea
          match s.engReach w ea need with
          | (s, .at' p gpa) => .next (f s x c w gpa p)
          | (s, .cause cs) =>
            if sp != 0 then .next (s.ctxFault x c 4)
            else if cs = 4 then .next (s.ctxFault x c 8)
            else .next ((s.setCtx x { c with stoker := 1 }).submit c.ten (s.faultOf c.asid ea cs need (.ctx x)))

def execBellowsLdG (d a : BitVec 4) (o : BitVec 13) (s : State) : Res :=
  genericAccess s a o .load fun s x c w gpa p =>
    let g := s.wgOf w
    let y := s.getPlace g.ten gpa p 8 g.ktag
    if y.2.2 then y.1.ctxFault x c 9 else y.1.setCtx x (c.set d (dwordOf (leNat y.2.1))).next
def execBellowsStG (a b : BitVec 4) (o : BitVec 13) (s : State) : Res :=
  genericAccess s a o .store fun s x c w gpa p =>
    let g := s.wgOf w
    (s.putPlace { path := 1 } g.ten gpa p (natLE 8 (c.get b).toNat) g.ktag).setCtx x c.next

/-! ### Tiles (R230, R231) -/

/-- The codes of Table 9.13 that are reserved. -/
def fmtReserved (f : Nat) : Bool := f == 15
def domReserved (d : Nat) : Bool := decide (4 < d % 8) || d == 8

/-- A fill that has closed, with every copy into it complete, takes the tile to READY. -/
def Tile.settleFill (tl : Tile) : Tile :=
  if tl.st = 1 && tl.openBy.isNone && tl.live = 0 then { tl with st := 2 } else tl

/-- TSET (R231). One with both a reserved operand bit set and no current post raises cause 5 (DESIGN CHOICE, log entry 54). -/
def tset (s : State) (d a : BitVec 4) : Res :=
  s.withCtx fun x c =>
    let v := (c.get a).toNat
    let op := natBits v 8 2
    if natBits v 6 2 != 0 || natBits v 10 6 != 0 || natBits v 24 40 != 0 || (op != 1 && natBits v 16 8 != 0) then
      .next (s.ctxFault x c 5)
    else
      match c.wg? with
      | none => .next (s.ctxFault x c 3)
      | some w =>
        let n := v % 64
        let core := coreOfCtx x
        let tl := s.tile core n
        let fm := natBits v 16 4
        let dm := natBits v 20 4
        let st := fun (s : State) (k : DWord) => Host.Outcome.next (s.setCtx x (c.set d k).next)
        if !tl.ownedBy w then st s 1
        else
          match op with
          | 0 =>
            if tl.st = 1 && tl.openBy == some x then st (s.setTile core n { tl with openBy := none }.settleFill) 0 else st s 2
          | 1 =>
            if fmtReserved fm || domReserved dm then st s 5
            else if tl.st = 0 || tl.st = 1 then st (s.setTile core n { tl with fmt := fm, dom := dm }) 0
            else st s 2
          | _ => st s 5

/-- TSET with operation 0, 2 or 3 in its operand. -/
def execTsetClose (d a : BitVec 4) (s : State) : Res := tset s d a
/-- TSET with operation 1 in its operand. -/
def execTsetTag (d a : BitVec 4) (s : State) : Res := tset s d a

/-! ### Code tables (R236, R237) -/

/-- LDCT: a table is valid when its lengths are at most 11 and fill the code space. -/
def execLdct (d a : BitVec 4) (s : State) : Res :=
  s.withCtx fun x c =>
    let ea := (c.get a).toNat
    if ea % 8 != 0 || decide (0x4000 ≤ ea) then .next (s.ctxFault x c 2)
    else
      let v := leNat (c.mem.readN ea 8)
      let ls := (List.range 16).map fun i => natBits v (4 * i) 4
      let full := (ls.map fun l => if l = 0 then 0 else 2 ^ (11 - l)).sum
      if ls.all (fun l => decide (l ≤ 11)) && full == 2048 then .next (s.setCtx x ({ c with table := some ls }.set d 0).next)
      else .next (s.setCtx x (c.set d 1).next)

/-- The codes of a table in canonical order: length, code, symbol. -/
def canonCodes (ls : List Nat) : List (Nat × Nat × Nat) :=
  ((List.range 11).foldl (fun (acc : Nat × List (Nat × Nat × Nat)) i =>
    let syms := (List.range 16).filter fun sy => ls.getD sy 0 == i + 1
    let new := syms.zipIdx.map fun y => (i + 1, acc.1 + y.2, y.1)
    (2 * (acc.1 + syms.length), acc.2 ++ new)) (0, [])).2

/-! ### FENCEB, WAITC and STAT (R234) -/

/-- The slots in use that satisfy `p`, one bit each. -/
def Ctx.slotBits (c : Ctx) (p : Copy → Bool) : DWord :=
  dwordOf ((c.slots.filter fun y => p y.2).map fun y => 2 ^ y.1).sum
/-- Whether a copy that satisfies `p` runs. -/
def Ctx.running (c : Ctx) (p : Copy → Bool) : Bool := c.slots.any fun y => y.2.st == 1 && p y.2

def execFenceb (s : State) : Res :=
  s.withCtx fun x c => if c.running fun _ => true then .next s else .next (s.setCtx x c.next)
def execWaitc (d : BitVec 4) (m : BitVec 8) (s : State) : Res :=
  s.withCtx fun x c =>
    let named := fun (y : Copy) => m.getLsbD y.token
    if c.running named then .next s
    else .next (s.setCtx x (c.set d (c.slotBits fun y => y.st != 1 && (m == 0 || named y))).next)

/-- A slot's status word (Table 12.7). -/
def Copy.status (y : Copy) : Nat := y.off * 2 ^ 32 + y.cause * 256 + y.token * 16 + y.st
/-- STAT (Table 12.17). -/
def execStat (d : BitVec 4) (im : BitVec 14) (s : State) : Res :=
  s.withCtx fun x c =>
    let n := im.toNat
    let v : Option DWord :=
      match n with
      | 0 => some (dwordOf c.posts.length)
      | 1 => some (match c.cur with
          | some p => dwordOf (p.wgid % 2 ^ 16 + p.team % 2 ^ 16 * 2 ^ 32)
          | none => ~~~0)
      | 2 => some (c.slotBits fun y => y.st != 1)
      | 3 => some (if c.table.isSome then 1 else 0)
      | 4 => some (dwordOf (srcCtx x))
      | _ =>
        if decide (8 ≤ n) && decide (n < 16) then
          some (match c.slots.find? (n - 8) with | some y => dwordOf y.status | none => 0)
        else none
    match v with
    | some v => .next (s.setCtx x (c.set d v).next)
    | none => .next (s.ctxFault x c 1)

end Sys2Proof.Machine
end

