-- ==== Sys2Proof/Machine/Float.lean ====
section
/-! DEFINITION. Floating-point, packed, conversion, special-function and quantisation instructions, and complex arithmetic
(R150..R153, R158..R183, R279, R280). -/

namespace Sys2Proof.Machine

/-- FRM.MODE, FSAT.NANOV and QCTL.FMT, RND, SIDE, ETH of a team (R150..R152). -/
def Team.mode (t : Team) : Nat := natBits t.frm.toNat 0 2
def Team.nanov (t : Team) : Bool := natBit t.fsat.toNat 0
def Team.qfmt (t : Team) : Nat := natBits t.qctl.toNat 0 4
def Team.qelem (t : Team) : Elem := elemOf t.qfmt

/-- A word result with its flags. -/
def asWord (r : Nat × Word) : Word × Word := (wordOf r.1, r.2)
/-- A register of a lane as an FP32 number. -/
def Team.f32 (t : Team) (n : Nat) (l : Nat) : Num := fp32.decode (t.get n l).toNat

/-! ### FARITH (R164) -/

/-- An FP32 result rounded under FRM. -/
def laneF32 (s : State) (g : Guard) (d : BitVec 6) (f : Team → Nat → Num × Word) : Res :=
  laneFlagOp s g d fun t l => asWord (fp32.deliver t.mode (f t l))

def execFadd (d a b : BitVec 6) (g : Guard) (s : State) : Res :=
  laneF32 s g d fun t l => (t.f32 a.toNat l).add t.mode (t.f32 b.toNat l)
def execFsub (d a b : BitVec 6) (g : Guard) (s : State) : Res :=
  laneF32 s g d fun t l => (t.f32 a.toNat l).add t.mode (t.f32 b.toNat l).negate
def execFmul (d a b : BitVec 6) (g : Guard) (s : State) : Res :=
  laneF32 s g d fun t l => (t.f32 a.toNat l).mul (t.f32 b.toNat l)
def execFmac (d a b : BitVec 6) (g : Guard) (s : State) : Res :=
  laneF32 s g d fun t l => Num.fma t.mode (t.f32 a.toNat l) (t.f32 b.toNat l) (t.f32 (b.toNat + 1) l)
def execFmsc (d a b : BitVec 6) (g : Guard) (s : State) : Res :=
  laneF32 s g d fun t l => Num.fma t.mode (t.f32 a.toNat l) (t.f32 b.toNat l) (t.f32 (b.toNat + 1) l).negate
def execFnmac (d a b : BitVec 6) (g : Guard) (s : State) : Res :=
  laneF32 s g d fun t l => Num.fma t.mode (t.f32 a.toNat l).negate (t.f32 b.toNat l) (t.f32 (b.toNat + 1) l)
def execFmin (d a b : BitVec 6) (g : Guard) (s : State) : Res :=
  laneFlagOp2 s g d a b fun x y => asWord (fp32.minMax false x.toNat y.toNat)
def execFmax (d a b : BitVec 6) (g : Guard) (s : State) : Res :=
  laneFlagOp2 s g d a b fun x y => asWord (fp32.minMax true x.toNat y.toNat)

/-! ### FMISC (R165) -/

/-- A sign-bit operation: a NaN gives the canonical NaN. -/
def signOp (x : Word) (f : Word → Word) : Word × Word :=
  let v := fp32.decode x.toNat
  if v.isNan then (wordOf fp32.canon, sigNV [v]) else (f x, 0)
/-- The class bit of Table 8.12. -/
def fclassW (x : Word) : Word :=
  match fp32.decode x.toNat with
  | .nan sig => if sig then 0x100 else 0x200
  | .inf n => if n then 1 else 0x80
  | .fin n m _ =>
    if m = 0 then (if n then 8 else 0x10)
    else if natBits x.toNat 23 8 = 0 then (if n then 4 else 0x20)
    else (if n then 2 else 0x40)
/-- Rounding to an integral value; only FRINT raises NX. -/
def frintW (mode : Nat) (nx : Bool) (x : Word) : Word × Word :=
  let v := fp32.decode x.toNat
  let r := v.integral mode
  asWord (fp32.deliver 0 (r.1, sigNV [v] ||| flagIf (nx && r.2) flNX))

def execFabs (d a : BitVec 6) (g : Guard) (s : State) : Res :=
  laneFlagOp1 s g d a fun x => signOp x fun x => x &&& 0x7FFFFFFF
def execFneg (d a : BitVec 6) (g : Guard) (s : State) : Res :=
  laneFlagOp1 s g d a fun x => signOp x fun x => x ^^^ 0x80000000
def execFcopysign (d a b : BitVec 6) (g : Guard) (s : State) : Res :=
  laneFlagOp2 s g d a b fun x y => signOp x fun x => (x &&& 0x7FFFFFFF) ||| (y &&& 0x80000000)
def execFclass (d a : BitVec 6) (g : Guard) (s : State) : Res := laneOp1 s g d a fclassW
def execFrint (d a : BitVec 6) (g : Guard) (s : State) : Res :=
  laneFlagOp s g d fun t l => frintW t.mode true (t.get a.toNat l)
def execFfloor (d a : BitVec 6) (g : Guard) (s : State) : Res := laneFlagOp1 s g d a (frintW 3 false)
def execFceil (d a : BitVec 6) (g : Guard) (s : State) : Res := laneFlagOp1 s g d a (frintW 2 false)
def execFtrunc (d a : BitVec 6) (g : Guard) (s : State) : Res := laneFlagOp1 s g d a (frintW 1 false)

/-! ### FCMP (R166) -/

/-- A compare; a signalling one raises NV on any NaN. -/
def laneFcmp (s : State) (g : Guard) (m p : BitVec 3) (a b : BitVec 6) (loud : Bool) (f : Num → Num → Bool) : Res :=
  lanePredFlag s g m p fun t l =>
    let x := t.f32 a.toNat l
    let y := t.f32 b.toNat l
    (f x y, if loud then flagIf (x.isNan || y.isNan) flNV else sigNV [x, y])
/-- Whether an operand is NaN. -/
def unord (x y : Num) : Bool := x.isNan || y.isNan

def execFeq (m p : BitVec 3) (a b : BitVec 6) (g : Guard) (s : State) : Res := laneFcmp s g m p a b false Num.eq
def execFne (m p : BitVec 3) (a b : BitVec 6) (g : Guard) (s : State) : Res :=
  laneFcmp s g m p a b false fun x y => !x.eq y
def execFlt (m p : BitVec 3) (a b : BitVec 6) (g : Guard) (s : State) : Res := laneFcmp s g m p a b true Num.lt
def execFle (m p : BitVec 3) (a b : BitVec 6) (g : Guard) (s : State) : Res :=
  laneFcmp s g m p a b true fun x y => x.lt y || x.eq y
def execFgt (m p : BitVec 3) (a b : BitVec 6) (g : Guard) (s : State) : Res :=
  laneFcmp s g m p a b true fun x y => y.lt x
def execFge (m p : BitVec 3) (a b : BitVec 6) (g : Guard) (s : State) : Res :=
  laneFcmp s g m p a b true fun x y => y.lt x || x.eq y
def execFun (m p : BitVec 3) (a b : BitVec 6) (g : Guard) (s : State) : Res := laneFcmp s g m p a b false unord
def execFord (m p : BitVec 3) (a b : BitVec 6) (g : Guard) (s : State) : Res :=
  laneFcmp s g m p a b false fun x y => !unord x y

/-! ### HALF and QUART (R168..R170) -/

/-- `n` sub-elements of `w` bits, each with its flags. -/
def packed (n w : Nat) (f : Nat → Nat × Word) : Word × Word :=
  (List.range n).foldl (fun (acc : Word × Word) k => (acc.1 ||| wordOf ((f k).1 * 2 ^ (w * k)), acc.2 ||| (f k).2)) (0, 0)
/-- Sub-element `k` of a word as a number. -/
def Fmt.part (f : Fmt) (x : Word) (w k : Nat) : Num := f.decode (natBits x.toNat (w * k) w)

/-- Two halves, each rounded under FRM. -/
def laneHalf (s : State) (g : Guard) (d a b : BitVec 6) (f : Fmt) (op : Nat → Num → Num → Num → Num × Word) : Res :=
  laneFlagOp s g d fun t l => packed 2 16 fun h =>
    f.deliver t.mode (op t.mode (f.part (t.get a.toNat l) 16 h) (f.part (t.get b.toNat l) 16 h)
      (f.part (t.get (b.toNat + 1) l) 16 h))
/-- Minimum or maximum of sub-elements. -/
def lanePackMin (s : State) (g : Guard) (d a b : BitVec 6) (f : Fmt) (n w : Nat) (max' : Bool) : Res :=
  laneFlagOp2 s g d a b fun x y => packed n w fun k => f.minMax max' (natBits x.toNat (w * k) w) (natBits y.toNat (w * k) w)

def execAddBf16x2 (d a b : BitVec 6) (g : Guard) (s : State) : Res :=
  laneHalf s g d a b bf16 fun md x y _ => x.add md y
def execMulBf16x2 (d a b : BitVec 6) (g : Guard) (s : State) : Res :=
  laneHalf s g d a b bf16 fun _ x y _ => x.mul y
def execFmacBf16x2 (d a b : BitVec 6) (g : Guard) (s : State) : Res := laneHalf s g d a b bf16 Num.fma
def execAddF16x2 (d a b : BitVec 6) (g : Guard) (s : State) : Res :=
  laneHalf s g d a b fp16 fun md x y _ => x.add md y
def execMulF16x2 (d a b : BitVec 6) (g : Guard) (s : State) : Res :=
  laneHalf s g d a b fp16 fun _ x y _ => x.mul y
def execFmacF16x2 (d a b : BitVec 6) (g : Guard) (s : State) : Res := laneHalf s g d a b fp16 Num.fma
def execMinBf16x2 (d a b : BitVec 6) (g : Guard) (s : State) : Res := lanePackMin s g d a b bf16 2 16 false
def execMaxBf16x2 (d a b : BitVec 6) (g : Guard) (s : State) : Res := lanePackMin s g d a b bf16 2 16 true

/-- Four bytes, each settled by the FP8 overflow rule. -/
def laneQuart (s : State) (g : Guard) (d a b : BitVec 6) (f : Fmt) (op : Nat → Num → Num → Num × Word) : Res :=
  laneFlagOp s g d fun t l => packed 4 8 fun k =>
    f.fp8 t.mode t.nanov (op t.mode (f.part (t.get a.toNat l) 8 k) (f.part (t.get b.toNat l) 8 k))
/-- The exact sum of terms, each with its flags. -/
def sumNum (mode : Nat) : List (Num × Word) → Num × Word
  | [] => (.fin false 0 0, 0)
  | p :: ps => ps.foldl (fun (acc : Num × Word) q =>
      let r := acc.1.add mode q.1
      (r.1, acc.2 ||| q.2 ||| r.2)) p
/-- The exact sum of four products; an operand that is NaN raises nothing (R160, R170). -/
def dot4 (f : Fmt) (mode : Nat) (x y : Word) : Num × Word :=
  if (List.range 4).any fun k => (f.part x 8 k).isNan || (f.part y 8 k).isNan then (.nan false, 0)
  else sumNum mode ((List.range 4).map fun k => (f.part x 8 k).mul (f.part y 8 k))

def execAddE4m3x4 (d a b : BitVec 6) (g : Guard) (s : State) : Res := laneQuart s g d a b e4m3 fun md x y => x.add md y
def execMulE4m3x4 (d a b : BitVec 6) (g : Guard) (s : State) : Res := laneQuart s g d a b e4m3 fun _ x y => x.mul y
def execAddE5m2x4 (d a b : BitVec 6) (g : Guard) (s : State) : Res := laneQuart s g d a b e5m2 fun md x y => x.add md y
def execMulE5m2x4 (d a b : BitVec 6) (g : Guard) (s : State) : Res := laneQuart s g d a b e5m2 fun _ x y => x.mul y
def execDot4E4m3 (d a b : BitVec 6) (g : Guard) (s : State) : Res :=
  laneF32 s g d fun t l => dot4 e4m3 t.mode (t.get a.toNat l) (t.get b.toNat l)
def execDot4E5m2 (d a b : BitVec 6) (g : Guard) (s : State) : Res :=
  laneF32 s g d fun t l => dot4 e5m2 t.mode (t.get a.toNat l) (t.get b.toNat l)
def execMaxE4m3x4 (d a b : BitVec 6) (g : Guard) (s : State) : Res := lanePackMin s g d a b e4m3 4 8 true
def execMinE4m3x4 (d a b : BitVec 6) (g : Guard) (s : State) : Res := lanePackMin s g d a b e4m3 4 8 false

/-! ### CVT and CVT8 (R171, R172) -/

def execCvtF32I32 (d a : BitVec 6) (g : Guard) (s : State) : Res :=
  laneF32 s g d fun t l => (Num.ofInt (t.get a.toNat l).toInt, 0)
def execCvtF32N32 (d a : BitVec 6) (g : Guard) (s : State) : Res :=
  laneF32 s g d fun t l => (Num.ofInt (t.get a.toNat l).toNat, 0)
def execCvtI32F32 (d a : BitVec 6) (g : Guard) (s : State) : Res :=
  laneFlagOp s g d fun t l =>
    let r := (t.f32 a.toNat l).toInteger t.mode (-(2 ^ 31)) (2 ^ 31 - 1)
    (BitVec.ofInt 32 r.1, r.2)
def execCvtN32F32 (d a : BitVec 6) (g : Guard) (s : State) : Res :=
  laneFlagOp s g d fun t l =>
    let r := (t.f32 a.toNat l).toInteger t.mode 0 (2 ^ 32 - 1)
    (BitVec.ofInt 32 r.1, r.2)
/-- Narrow FP32 a and b into two halves. -/
def narrow2 (s : State) (g : Guard) (d a b : BitVec 6) (f : Fmt) : Res :=
  laneFlagOp s g d fun t l => packed 2 16 fun h =>
    let x := t.f32 (if h = 0 then a.toNat else b.toNat) l
    f.deliver t.mode (x, sigNV [x])
/-- Widen the low `w` bits of a to FP32. -/
def widenF (s : State) (g : Guard) (d a : BitVec 6) (f : Fmt) (w : Nat) : Res :=
  laneFlagOp1 s g d a fun x => let v := f.part x w 0; asWord (fp32.deliver 0 (v, sigNV [v]))

def execCvtBf16x2F32 (d a b : BitVec 6) (g : Guard) (s : State) : Res := narrow2 s g d a b bf16
def execCvtF16x2F32 (d a b : BitVec 6) (g : Guard) (s : State) : Res := narrow2 s g d a b fp16
def execCvtF32Bf16 (d a : BitVec 6) (g : Guard) (s : State) : Res := widenF s g d a bf16 16
def execCvtF32F16 (d a : BitVec 6) (g : Guard) (s : State) : Res := widenF s g d a fp16 16
/-- Narrow to an FP8 code in the low byte. -/
def narrow8 (s : State) (g : Guard) (d a : BitVec 6) (f : Fmt) : Res :=
  laneFlagOp s g d fun t l => let x := t.f32 a.toNat l; asWord (f.fp8 t.mode t.nanov (x, sigNV [x]))
def execCvtE4m3F32 (d a : BitVec 6) (g : Guard) (s : State) : Res := narrow8 s g d a e4m3
def execCvtE5m2F32 (d a : BitVec 6) (g : Guard) (s : State) : Res := narrow8 s g d a e5m2
def execCvtF32E4m3 (d a : BitVec 6) (g : Guard) (s : State) : Res := widenF s g d a e4m3 8
def execCvtF32E5m2 (d a : BitVec 6) (g : Guard) (s : State) : Res := widenF s g d a e5m2 8
def execCvtF32E2m1 (d a : BitVec 6) (g : Guard) (s : State) : Res := widenF s g d a e2m1 4
def execCvtF32E2m3 (d a : BitVec 6) (g : Guard) (s : State) : Res := widenF s g d a e2m3 6
def execCvtF32E3m2 (d a : BitVec 6) (g : Guard) (s : State) : Res := widenF s g d a e3m2 6
def execCvtF32Int4 (d a : BitVec 6) (g : Guard) (s : State) : Res :=
  laneFlagOp1 s g d a fun x => asWord (fp32.deliver 0 ((Elem.int 4).decode x.toNat, 0))

/-! ### SFU (R167): each result is the exact value, correctly rounded in RNE -/

/-- floor(sqrt n) for n below 4^fuel. -/
def isqrt : Nat → Nat → Nat
  | 0, _ => 0
  | fuel + 1, n => let r := 2 * isqrt fuel (n / 4); if (r + 1) * (r + 1) ≤ n then r + 1 else r

/-- A rounded FP32 result from a magnitude that may be a little more. -/
def sfuOut (neg : Bool) (m : Nat) (e : Int) (sticky : Bool) (fl : Word) : Word × Word :=
  let r := fp32.ieee 0 neg m e sticky
  (wordOf r.1, r.2 ||| fl)
/-- NaN, raising `fl`. -/
def sfuNan (fl : Word) : Word × Word := (wordOf fp32.canon, fl)
/-- A signed infinity. -/
def sfuInf (neg : Bool) (fl : Word) : Word × Word := (wordOf (fp32.signed neg fp32.infCode), fl)
/-- A signed zero. -/
def sfuZero (neg : Bool) : Word × Word := (wordOf (fp32.signed neg 0), 0)

/-- a / b. -/
def fdivW (x y : Num) : Word × Word :=
  match x, y with
  | .nan _, _ => sfuNan (sigNV [x, y])
  | _, .nan _ => sfuNan (sigNV [x, y])
  | .inf _, .inf _ => sfuNan flNV
  | .inf n, .fin n' _ _ => sfuInf (n != n') 0
  | .fin n _ _, .inf n' => sfuZero (n != n')
  | .fin n m e, .fin n' m' e' =>
    if m' = 0 then (if m = 0 then sfuNan flNV else sfuInf (n != n') flDZ)
    else if m = 0 then sfuZero (n != n')
    else sfuOut (n != n') (m * 2 ^ 64 / m') (e - e' - 64) (m * 2 ^ 64 % m' != 0) 0
/-- The square root of a positive number: a magnitude, its exponent, and whether it is a little more. -/
def rootOf (m : Nat) (e : Int) : Nat × Int × Bool :=
  let odd := e % 2 != 0
  let m' := (if odd then 2 * m else m) * 2 ^ 64
  let e' := (if odd then e - 1 else e) - 64
  let r := isqrt 80 m'
  (r, e' / 2, r * r != m')
def fsqrtW (x : Num) : Word × Word :=
  match x with
  | .nan _ => sfuNan (sigNV [x])
  | .inf n => if n then sfuNan flNV else sfuInf false 0
  | .fin n m e =>
    if m = 0 then sfuZero n else if n then sfuNan flNV
    else let r := rootOf m e; sfuOut false r.1 r.2.1 r.2.2 0
def frsqW (x : Num) : Word × Word :=
  match x with
  | .nan _ => sfuNan (sigNV [x])
  | .inf n => if n then sfuNan flNV else sfuZero false
  | .fin n m e =>
    if m = 0 then sfuInf n flDZ else if n then sfuNan flNV
    else
      let odd := e % 2 != 0
      let m' := if odd then 2 * m else m
      let e' := if odd then e - 1 else e
      let r := isqrt 80 (2 ^ 150 / m')
      sfuOut false r (-(e' / 2) - 75) (r * r * m' != 2 ^ 150) 0

/-! Transcendental functions: fixed point with `sfuBits` fraction bits. An inexact result is irrational, and no FP32 argument
brings it as near to a rounding midpoint as the error of the series (log entry 12). -/

/-- Fraction bits of the fixed-point series. -/
def sfuBits : Nat := 360
/-- 1.0 in fixed point. -/
def fixOne : Nat := 2 ^ sfuBits
/-- The sum over k of (-1)^k or 1 times x^(2k+1)/(2k+1), x in fixed point: arctangent or inverse hyperbolic tangent. -/
def oddSeries (alt : Bool) (x2 : Nat) : Nat → Nat → Nat → Int
  | 0, _, _ => 0
  | fuel + 1, k, p =>
    let t : Int := (p / (2 * k + 1) : Nat)
    (if alt && k % 2 == 1 then -t else t) + oddSeries alt x2 fuel (k + 1) (p * x2 / fixOne)
/-- artanh x. -/
def artanhFix (x : Nat) : Nat := (oddSeries false (x * x / fixOne) 160 0 x).toNat
/-- arctan (1/n). -/
def arctanInv (n : Nat) : Int := oddSeries true (fixOne / (n * n)) 100 0 (fixOne / n)
/-- ln 2 = 2 artanh (1/3). -/
def ln2Fix : Nat := 2 * artanhFix (fixOne / 3)
/-- pi, by Machin's formula. -/
def piFix : Nat := (16 * arctanInv 5 - 4 * arctanInv 239).toNat
/-- The sum over k of x^k/k!: term `t` is the k-th. -/
def expSeries (x : Nat) : Nat → Nat → Nat → Nat
  | 0, _, _ => 0
  | fuel + 1, k, t => t + expSeries x fuel (k + 1) (t * x / fixOne / (k + 1))
/-- The sine series: x^(2k+1)/(2k+1)! with alternating sign. -/
def sinSeries (x2 : Nat) : Nat → Nat → Nat → Int
  | 0, _, _ => 0
  | fuel + 1, k, t =>
    (if k % 2 == 1 then -(t : Int) else t) + sinSeries x2 fuel (k + 1) (t * x2 / fixOne / ((2 * k + 2) * (2 * k + 3)))
/-- sin (pi q) in fixed point, for 0 < q < 1/2 given in fixed point. -/
def sinpiFix (q : Nat) : Nat :=
  let y := q * piFix / fixOne
  (sinSeries (y * y / fixOne) 60 0 y).toNat

/-- 2^a. -/
def fexp2W (x : Num) : Word × Word :=
  match x with
  | .nan _ => sfuNan (sigNV [x])
  | .inf n => if n then sfuZero false else sfuInf false 0
  | .fin n m e =>
    -- the argument in units of 2^-149, cut at magnitudes far out of range
    let v : Int := (Num.fin n m (min e 9)).units (-149)
    let k : Int := max (-400) (min 400 (v / 2 ^ 149))
    let f := (v % 2 ^ 149).toNat
    if f = 0 then sfuOut false 1 k false 0
    else sfuOut false (expSeries (f * 2 ^ (sfuBits - 149) * ln2Fix / fixOne) 100 0 fixOne) (k - sfuBits) true 0
/-- log2 a. -/
def flog2W (x : Num) : Word × Word :=
  match x with
  | .nan _ => sfuNan (sigNV [x])
  | .inf n => if n then sfuNan flNV else sfuInf false 0
  | .fin n m e =>
    if m = 0 then sfuInf true flDZ else if n then sfuNan flNV
    else
      let k := floorLog m e
      let lg := Nat.log2 m
      if m = 2 ^ lg then
        if k = 0 then sfuZero false else sfuOut (decide (k < 0)) k.natAbs 0 false 0
      else
        let r := (m - 2 ^ lg) * fixOne / (m + 2 ^ lg)
        let v : Int := k * fixOne + (2 * artanhFix r * fixOne / ln2Fix : Nat)
        sfuOut (decide (v < 0)) v.natAbs (-sfuBits) true 0
/-- sin (pi r) for r in [0, 1), in units of 2^-149: the special values exactly. -/
def sinpiPos (neg : Bool) (r : Nat) : Word × Word :=
  let half := 2 ^ 148
  if r = half then sfuOut neg 1 0 false 0
  else sfuOut neg (sinpiFix ((if half < r then 2 ^ 149 - r else r) * 2 ^ (sfuBits - 149))) (-sfuBits) true 0
/-- sin (pi a). -/
def fsinpiW (x : Num) : Word × Word :=
  match x with
  | .nan _ => sfuNan (sigNV [x])
  | .inf _ => sfuNan flNV
  | .fin n m e =>
    let v := ((Num.fin false m e).units (-149)).toNat % 2 ^ 150
    if v % 2 ^ 149 = 0 then sfuZero n
    else sinpiPos (n != decide (2 ^ 149 ≤ v)) (v % 2 ^ 149)
/-- cos (pi a). -/
def fcospiW (x : Num) : Word × Word :=
  match x with
  | .nan _ => sfuNan (sigNV [x])
  | .inf _ => sfuNan flNV
  | .fin _ m e =>
    let v := ((Num.fin false m e).units (-149)).toNat % 2 ^ 150
    let r := if 2 ^ 149 < v then 2 ^ 150 - v else v
    let half := 2 ^ 148
    if r = half then sfuZero false
    else if r < half then sinpiPos false (half - r)
    else sinpiPos true (r - half)

/-- One special function in every active lane. -/
def laneSfu (s : State) (d a : BitVec 6) (f : Num → Word × Word) : Res :=
  laneFlagOp s Guard.always d fun t l => f (t.f32 a.toNat l)

def execFrcp (d a : BitVec 6) (_la : BitVec 4) (s : State) : Res := laneSfu s d a (fdivW (.fin false 1 0))
def execFrsq (d a : BitVec 6) (_la : BitVec 4) (s : State) : Res := laneSfu s d a frsqW
def execFsqrt (d a : BitVec 6) (_la : BitVec 4) (s : State) : Res := laneSfu s d a fsqrtW
def execFexp2 (d a : BitVec 6) (_la : BitVec 4) (s : State) : Res := laneSfu s d a fexp2W
def execFlog2 (d a : BitVec 6) (_la : BitVec 4) (s : State) : Res := laneSfu s d a flog2W
def execFsinpi (d a : BitVec 6) (_la : BitVec 4) (s : State) : Res := laneSfu s d a fsinpiW
def execFcospi (d a : BitVec 6) (_la : BitVec 4) (s : State) : Res := laneSfu s d a fcospiW
def execFdiv (d a b : BitVec 6) (_la : BitVec 4) (s : State) : Res :=
  laneFlagOp s Guard.always d fun t l => fdivW (t.f32 a.toNat l) (t.f32 b.toNat l)

/-! ### QNT (R177..R183) -/

/-- The maximum magnitude of a group: +infinity and NaN as R178 says. -/
def amax (xs : List Word) : Word :=
  if xs.any fun x => (fp32.decode x.toNat).isNan then wordOf fp32.canon
  else xs.foldl (fun m x => maxN m (x &&& 0x7FFFFFFF)) 0
/-- QAMAX over aligned groups of `gsz` lanes; the participants are the run's entry mask. -/
def qamax (s : State) (d a : BitVec 6) (gsz : Nat) : Res :=
  laneCalc s Guard.always fun t r act =>
    (t.put d.toNat act fun l =>
      amax (((List.range gsz).filter fun j => r.entry.has (l / gsz * gsz + j) && decide (l / gsz * gsz + j < t.nlanes)).map
        fun j => t.get a.toNat (l / gsz * gsz + j)), r)

/-- How a team quantises element `e`. -/
def Team.rounding (t : Team) (e : Word) : Rounding := if natBit t.qctl.toNat 4 then .sr (mix t.srseed e) else .rne

/-- QCVT of one element: the code, and the flags of its final branch (R180). -/
def qcvtW (t : Team) (a : Word) (sc : Nat) (e : Word) : Word × Word :=
  let x := fp32.decode a.toNat
  let f := t.qelem
  if sc = 255 then (0, 0)
  else if x.isNan then ((match f with | .flt ft => if ft.kind = 2 then 0 else wordOf ft.canon | .int _ => 0), 0)
  else
    let r := f.quantise (t.rounding e) (x.scale (127 - (sc : Int)))
    if t.qfmt = 4 && !e.getLsbD 0 && r.1 == 8 then (0, r.2)
    else if t.qfmt = 2 && !e.getLsbD 0 && r.1 == 8 then (9, r.2 ||| flSA ||| flNX)
    else (wordOf r.1, r.2)
/-- QESC (R181). -/
def qescW (t : Team) (a b : Word) : Word :=
  let eth := natBits t.qctl.toNat 8 8
  let big := fun (x : Word) => match fp32.decode x.toNat with
    | .fin _ m e => eth != 255 && m != 0 && decide ((eth : Int) - 127 ≤ floorLog m e)
    | _ => true
  if natBit t.qctl.toNat 5 && sideFmt t.qfmt && (big a || big b) then 1 else 0
/-- One value of QSIDE (R182). -/
def qsideW (t : Team) (x : Word) (sc : Nat) (e : Word) : Nat × Word :=
  let v := fp32.decode x.toNat
  if v.isNan || sc == 255 then (0x7F, 0)
  else (Elem.flt e4m3).quantise (t.rounding e) (v.scale (127 - (sc : Int)))
/-- QDEQ (R183). -/
def qdeqW (t : Team) (a b : Word) : Word × Word :=
  let sc := natBits b.toNat 0 8
  let f := if b.getLsbD 8 then Elem.flt e4m3 else t.qelem
  if sc = 255 then sfuNan 0
  else asWord (fp32.deliver 0 ((f.decode a.toNat).scale ((sc : Int) - 127), 0))

def execQamax16 (d a : BitVec 6) (_la : BitVec 4) (s : State) : Res := qamax s d a 16
def execQamax32 (d a : BitVec 6) (_la : BitVec 4) (s : State) : Res := qamax s d a 32
def execQscale (d a : BitVec 6) (_la : BitVec 4) (s : State) : Res :=
  laneOp s Guard.always d fun t l => wordOf (scaleOf (t.f32 a.toNat l) t.qelem)
def execQcvt (d a b : BitVec 6) (_la : BitVec 4) (s : State) : Res :=
  laneFlagOp s Guard.always d fun t l =>
    qcvtW t (t.get a.toNat l) (natBits (t.get b.toNat l).toNat 0 8) (t.get (d.toNat + 1) l)
def execQdeq (d a b : BitVec 6) (_la : BitVec 4) (s : State) : Res :=
  laneFlagOp s Guard.always d fun t l => qdeqW t (t.get a.toNat l) (t.get b.toNat l)
def execQesc (d a : BitVec 6) (_la : BitVec 4) (s : State) : Res :=
  laneOp s Guard.always d fun t l => qescW t (t.get a.toNat l) (t.get (a.toNat + 1) l)
def execQside (d a b : BitVec 6) (_la : BitVec 4) (s : State) : Res :=
  laneFlagOp s Guard.always d fun t l => packed 2 8 fun h =>
    qsideW t (t.get (a.toNat + h) l) (natBits (t.get b.toNat l).toNat 0 8)
      (t.get (d.toNat + 1) l + wordOf h)

/-! ### CPLX (R282) -/

/-- A complex instruction: the terms of the real and of the imaginary part; `inputs` are the parts it reads. -/
def laneCplx (s : State) (d : BitVec 6) (inputs : List (BitVec 6 × Nat))
    (f : (BitVec 6 → Nat → Num) → List (Num × Word) × List (Num × Word)) : Res :=
  laneCalc s Guard.always fun t r act =>
    let rd := fun (l : Nat) (n : BitVec 6) (h : Nat) => t.f32 (n.toNat + h) l
    let out := fun (l : Nat) (im : Bool) =>
      let xs := inputs.map fun x => rd l x.1 x.2
      if xs.any Num.isNan then (wordOf fp32.canon, sigNV xs)
      else
        let ts := f (rd l)
        asWord (fp32.deliver t.mode (sumNum t.mode (if im then ts.2 else ts.1)))
    ((t.put d.toNat act fun l => (out l false).1).put (d.toNat + 1) act (fun l => (out l true).1),
      r.raise t.nlanes act fun l => (out l false).2 ||| (out l true).2)

/-- A product with its sign changed. -/
def negTerm (p : Num × Word) : Num × Word := (p.1.negate, p.2)
/-- The terms of a x b (`conj` false) or of a's conjugate product of Table 15.3, and of the addend at b+2. -/
def cplxTerms (a b : BitVec 6) (conj add' : Bool) (rd : BitVec 6 → Nat → Num) :
    List (Num × Word) × List (Num × Word) :=
  let rr := (rd a 0).mul (rd b 0)
  let ii := (rd a 1).mul (rd b 1)
  let ri := (rd a 0).mul (rd b 1)
  let ir := (rd a 1).mul (rd b 0)
  let cr : List (Num × Word) := if add' then [(rd b 2, 0)] else []
  let ci : List (Num × Word) := if add' then [(rd b 3, 0)] else []
  (rr :: (if conj then ii else negTerm ii) :: cr, ir :: (if conj then negTerm ri else ri) :: ci)
/-- The parts a two-operand variant reads. -/
def cplxIn (a b : BitVec 6) (n : Nat) : List (BitVec 6 × Nat) := [(a, 0), (a, 1)] ++ (List.range n).map fun h => (b, h)

def execCmul (d a b : BitVec 6) (_la : BitVec 4) (s : State) : Res :=
  laneCplx s d (cplxIn a b 2) (cplxTerms a b false false)
def execCmac (d a b : BitVec 6) (_la : BitVec 4) (s : State) : Res :=
  laneCplx s d (cplxIn a b 4) (cplxTerms a b false true)
def execCmulc (d a b : BitVec 6) (_la : BitVec 4) (s : State) : Res :=
  laneCplx s d (cplxIn a b 2) (cplxTerms a b true false)
def execCmacc (d a b : BitVec 6) (_la : BitVec 4) (s : State) : Res :=
  laneCplx s d (cplxIn a b 4) (cplxTerms a b true true)
def execCadd (d a b : BitVec 6) (_la : BitVec 4) (s : State) : Res :=
  laneCplx s d (cplxIn a b 2) fun rd => ([(rd a 0, 0), (rd b 0, 0)], [(rd a 1, 0), (rd b 1, 0)])

end Sys2Proof.Machine
end

