-- ==== Sys2Proof/Machine/Memory.lean ====
section
/-! DEFINITION. Loads, stores, tile accesses, atomics and system calls of the lane set (R184..R191, R203, R362). -/

namespace Sys2Proof.Machine

/-- A lane-set memory instruction: it issues, and each acting lane accesses memory or aborts. -/
def laneMem (s : State) (g : Guard) (f : State → Nat → Team → Run → Nat → State × Team × Run) : Res :=
  s.withRun fun k t r =>
    let x := eachLane (s.laneIssue k t r g) t r (t.acts r g) fun s t r l => f s k t r l
    .next (x.1.advance k x.2.1 x.2.2)

/-! ### Loads (R81, R186) -/

/-- The register that the trailer leaves pending for the instruction in issue (R81). One that a later instruction of the run reads or writes
is needed, and so drains, within the run. -/
def Run.pends (r : Run) : Option Nat :=
  match r.words[r.idx]? with
  | none => none
  | some w =>
    match (infoOf w).long with
    | some (d, n) =>
      let used := (r.words.drop (r.idx + 1)).any fun w => let i := infoOf w; meets (i.rd ++ i.wr ++ i.own) ((List.range n).map (d + ·))
      if d != 63 && ((bits r.trailer 19 6).toNat == d || (bits r.trailer 13 6).toNat == d) && !used then some d else none
    | none => none

/-- What a read found: a poisoned block of a pending load writes nothing and is found later, unless the lane restarts; any other cause aborts
the lane. -/
def loadFailed (r : Run) (l cause ea kind : Nat) : Run :=
  match r.pends with
  | some d => if cause = 5 then { r with pendPoison := r.pendPoison.insert d (r.pendPoison.getD d 0 ||| laneMask l) } else r.abort l cause ea kind
  | none => r.abort l cause ea kind

/-- Finish a lane's read of `n` bytes for team `k`: `wr` takes the bytes and answers the team and flags. -/
def loadInto (x : State × Reach) (k : Nat) (t : Team) (r : Run) (l n ea kind : Nat) (wr : Team → List Byte → Team × Word) :
    State × Team × Run :=
  match x with
  | (s, .cause c) => (s, t, loadFailed r l c ea kind)
  | (s, .at' p _) =>
    let y := wr t (s.laneBytes t r l p n)
    let s := match p with
      | .peer _ _ _ => { s with free := s.free + 256 }
      | _ => s
    (s.noteRead k l p n, { y.1 with sbuf := s.noteBuf l p n y.1.sbuf }, r.raise t.nlanes (· == l) fun _ => y.2)

/-- Write loaded bytes to `d` and the registers behind it; a narrow value is extended. -/
def Team.putBytes (t : Team) (d l : Nat) (sx : Bool) (bs : List Byte) : Team :=
  if bs.length < 4 then
    t.put d (· == l) fun _ =>
      let v := BitVec.ofNat (8 * bs.length) (leNat bs)
      if sx then v.signExtend 32 else v.setWidth 32
  else
    (List.range (bs.length / 4)).foldl (fun t j => t.put (d + j) (· == l) fun _ => wordOf (leNat ((bs.drop (4 * j)).take 4))) t

/-- The effective address of LD and ST: the pair plus an offset scaled by the size. -/
def addrOf (t : Team) (a : BitVec 6) (off : Int) (n l : Nat) : Nat :=
  (t.get64 a.toNat l + BitVec.ofInt 64 (off * n)).toNat

/-- LD of `n` bytes. -/
def load (s : State) (d a o : BitVec 6) (n : Nat) (sx : Bool) : Res :=
  laneMem s Guard.always fun s k t r l =>
    let ea := addrOf t a o.toInt n l
    loadInto (s.check k t r l ea n .load) k t r l n ea 0 fun t bs => (t.putBytes d.toNat l sx bs, 0)

def execLdI8 (d a o : BitVec 6) (_la : BitVec 4) (s : State) : Res := load s d a o 1 true
def execLdN8 (d a o : BitVec 6) (_la : BitVec 4) (s : State) : Res := load s d a o 1 false
def execLdI16 (d a o : BitVec 6) (_la : BitVec 4) (s : State) : Res := load s d a o 2 true
def execLdN16 (d a o : BitVec 6) (_la : BitVec 4) (s : State) : Res := load s d a o 2 false
def execLd32 (d a o : BitVec 6) (_la : BitVec 4) (s : State) : Res := load s d a o 4 false
def execLd64 (d a o : BitVec 6) (_la : BitVec 4) (s : State) : Res := load s d a o 8 false
def execLd128 (d a o : BitVec 6) (_la : BitVec 4) (s : State) : Res := load s d a o 16 false
/-- The no-reuse hint changes no result and no order. -/
def execLdNt128 (d a o : BitVec 6) (_la : BitVec 4) (s : State) : Res := load s d a o 16 false

/-! ### Tile accesses (R189, R190) -/

/-- Where byte `o` of a tile lies. -/
def Tile.place (tl : Tile) (w o : Nat) : Place := if tl.acc then .acc w (tl.base + o) else .scr w (tl.base + o)

/-- The checks of a tile access: ownership, alignment, extent. -/
def State.tileReach (s : State) (k : Nat) (t : Team) (n o len : Nat) : Reach :=
  let tl := s.tile (coreOfTeam k) n
  if !tl.ownedBy t.w then .cause 4
  else if o % len != 0 then .cause 6
  else if tl.size < o + len then .cause 4
  else .at' (tl.place t.w o) 0
/-- The same for a read, which a poisoned block fails. -/
def State.tileRead (s : State) (k : Nat) (t : Team) (r : Run) (l n o len : Nat) : Reach :=
  match s.tileReach k t n o len with
  | .at' p g => if s.placeBad p 0 && !s.covered t r l p then .cause 5 else .at' p g
  | .cause c => .cause c

/-- LDT of `n` bytes at the offset register's value. -/
def loadTile (s : State) (d tl o : BitVec 6) (n : Nat) (sx : Bool) : Res :=
  laneMem s Guard.always fun s k t r l =>
    let off := (t.get o.toNat l).toNat
    loadInto (s, s.tileRead k t r l tl.toNat off n) k t r l n off 4 fun t bs => (t.putBytes d.toNat l sx bs, 0)

/-- Deliver an element as FP32 in RNE: a result is tiny by the value delivered (R190, R404). -/
def deliverElem (x : Num × Word) : Nat × Word :=
  match x.1 with
  | .fin neg m e =>
    let r := fp32.ieee 0 neg m e false
    let nx := r.2 &&& flNX
    let tiny := decide (r.1 % 2 ^ 31 < 2 ^ 23)
    (r.1, x.2 ||| (r.2 &&& (flOF ||| flNX)) ||| flagIf (nx != 0 && tiny) flUF)
  | _ => fp32.deliver 0 x

def execLdt32 (d tl o : BitVec 6) (_la : BitVec 4) (s : State) : Res := loadTile s d tl o 4 false
def execLdt64 (d tl o : BitVec 6) (_la : BitVec 4) (s : State) : Res := loadTile s d tl o 8 false
def execLdt128 (d tl o : BitVec 6) (_la : BitVec 4) (s : State) : Res := loadTile s d tl o 16 false
def execLdtI8 (d tl o : BitVec 6) (_la : BitVec 4) (s : State) : Res := loadTile s d tl o 1 true
def execLdtN8 (d tl o : BitVec 6) (_la : BitVec 4) (s : State) : Res := loadTile s d tl o 1 false
def execLdtI16 (d tl o : BitVec 6) (_la : BitVec 4) (s : State) : Res := loadTile s d tl o 2 true
def execLdtN16 (d tl o : BitVec 6) (_la : BitVec 4) (s : State) : Res := loadTile s d tl o 2 false
/-- One element of a self-describing block (R190): bits 31:9 of the offset name the block, bits 8:0 the element. -/
def execLdtSdb (d tl o : BitVec 6) (_la : BitVec 4) (s : State) : Res :=
  laneMem s Guard.always fun s k t r l =>
    let off := (t.get o.toNat l).toNat
    let e := off % 512
    let x := match s.tileRead k t r l tl.toNat (off / 512 * 64) 64 with
      | .at' p g => if sdbPoison (s.laneBytes t r l p 64) then .cause 5 else .at' p g
      | .cause c => .cause c
    loadInto (s, x) k t r l 64 off 4 fun t bs =>
      let y := if (sdbLayout (bs.getD 0 0).toNat).2.2 ≤ e then (fp32.canon, flNV) else deliverElem (sdbDec bs e)
      (t.put d.toNat (· == l) fun _ => wordOf y.1, y.2)

/-! ### Stores (R187, R188) -/

/-- The low `n` bytes of a register and those behind it. -/
def Team.srcBytes (t : Team) (n sr l : Nat) : List Byte :=
  ((List.range ((n + 3) / 4)).flatMap fun j => natLE 4 (t.get (sr + j) l).toNat).take n

/-- Record a store of a lane, or abort it. -/
def record (x : State × Reach) (t : Team) (r : Run) (l ea kind col ktag : Nat) (bs : List Byte) : State × Team × Run :=
  match x with
  | (s, .cause c) => (s, t, r.abort l c ea kind)
  | (s, .at' p _) =>
    (s, t, { r with stores := r.stores ++ [{ lane := l, va := ea, at' := p, bytes := bs, col := col, ktag := ktag, group := none, ix := r.idx }] })

/-- ST of `n` bytes. -/
def store (s : State) (sr a : BitVec 6) (o : BitVec 4) (c g : BitVec 3) (n : Nat) : Res :=
  laneMem s (guardS g) fun s k t r l =>
    let ea := addrOf t a o.toInt n l
    record (s.check k t r l ea n .store) t r l ea 1 c.toNat (s.wgOf t.w).ktag (t.srcBytes n sr.toNat l)

def execSt8 (sr a : BitVec 6) (o : BitVec 4) (c g : BitVec 3) (s : State) : Res := store s sr a o c g 1
def execSt16 (sr a : BitVec 6) (o : BitVec 4) (c g : BitVec 3) (s : State) : Res := store s sr a o c g 2
def execSt32 (sr a : BitVec 6) (o : BitVec 4) (c g : BitVec 3) (s : State) : Res := store s sr a o c g 4
def execSt64 (sr a : BitVec 6) (o : BitVec 4) (c g : BitVec 3) (s : State) : Res := store s sr a o c g 8
def execSt128 (sr a : BitVec 6) (o : BitVec 4) (c g : BitVec 3) (s : State) : Res := store s sr a o c g 16
def execStNt128 (sr a : BitVec 6) (o : BitVec 4) (c g : BitVec 3) (s : State) : Res := store s sr a o c g 16

/-- STT of `n` bytes at the offset register's value. -/
def storeTile (s : State) (sr tl x : BitVec 6) (c : BitVec 3) (g : Guard) (n : Nat) : Res :=
  laneMem s g fun s k t r l =>
    let off := (t.get x.toNat l).toNat
    record (s, s.tileReach k t tl.toNat off n) t r l off 4 c.toNat 0 (t.srcBytes n sr.toNat l)

def execStt32 (sr tl x : BitVec 6) (c : BitVec 3) (g : Guard) (s : State) : Res := storeTile s sr tl x c g 4
def execStt64 (sr tl x : BitVec 6) (c : BitVec 3) (g : Guard) (s : State) : Res := storeTile s sr tl x c g 8
def execStt128 (sr tl x : BitVec 6) (c : BitVec 3) (g : Guard) (s : State) : Res := storeTile s sr tl x c g 16

/-- The block that a group's lanes supply, from the group's row of values (R188): `fmt` and `grp` from QCTL. -/
def sdbBlock (fmt grp : Nat) (v : Nat → Nat) : List Byte :=
  let l := sdbLayout fmt
  let n := l.2.2
  let code := fun e => natBits (v e) 0 l.1
  let mbs := (List.range (n / 16)).flatMap fun m =>
    natLE 1 (natBits (v (if grp = 0 then 16 * m else 32 * (m / 2))) 8 8) ++
      natLE l.2.1 (((List.range 16).map fun j => code (16 * m + j) * 2 ^ (l.1 * j)).sum)
  let tail :=
    if sideFmt fmt then
      let xs := (List.range (n / 2)).filterMap fun j => if code (2 * j) = 8 then some (code (2 * j + 1)) else none
      let cnt := if xs.isEmpty then 0 else min 4 (1 + xs.foldl max 0)
      natLE 1 cnt ++ (List.range cnt).flatMap fun j => natLE 1 (natBits (v j) 16 8) ++ natLE 1 (natBits (v j) 24 8)
    else []
  padTo 64 (natLE 1 fmt ++ mbs ++ tail)

/-- SDBST (R188): a store of the first lane of each group, of what every lane of the group supplies. A lane that restarts
supplies its value again, to a block that still waits. -/
def execSdbst (sr a : BitVec 6) (o : BitVec 4) (c g : BitVec 3) (s : State) : Res :=
  s.withRun fun k t r =>
    let s := s.laneIssue k t r (guardS g)
    let fmt := t.qfmt
    let n := (sdbLayout fmt).2.2
    let old := r.sdbRows.getD r.idx []
    let row := (List.range t.nlanes).map fun l => if r.first || r.todo.has l then t.get sr.toNat l else old.getD l 0
    let blk := fun (h : Nat) => sdbBlock fmt (if natBit t.qctl.toNat 6 then 1 else 0) fun e => (row.getD (h + e) 0).toNat
    let r := { r with
      sdbRows := r.sdbRows.insert r.idx row
      sdb := r.sdb.map fun st => if st.ix = r.idx then { st with bytes := blk st.lane } else st }
    let x := eachLane s t r (fun l => t.acts r (guardS g) l && l % n == 0) fun s t r l =>
      let ea := addrOf t a o.toInt 64 l
      match s.check k t r l ea 64 .store with
      | (s, .cause cs) => (s, t, r.abort l cs ea 3)
      | (s, .at' p _) =>
        (s, t, { r with stores := r.stores ++ [{ lane := l, va := ea, at' := p, bytes := blk l, col := c.toNat, ktag := (s.wgOf t.w).ktag
                                                 group := some (maskOf t.nlanes fun j => l ≤ j && decide (j < l + n)), ix := r.idx }] })
    .next (x.1.advance k x.2.1 x.2.2)

/-! ### Atomics (R191) -/

/-- The check of a terminal access in a lane: where it lands, and its operands `ops`, are kept for when it is performed. -/
def checkTerm (a : BitVec 6) (n : Nat) (need : Need) (kind : Nat) (ops : Team → Nat → List Word) (s : State) (k : Nat) (t : Team) (r : Run) (l : Nat) :
    State × Team × Run :=
  let ea := (t.get64 a.toNat l).toNat
  match s.check k t r l ea n need with
  | (s, .cause c) => (s, t, r.abort l c ea kind)
  | (s, .at' p gpa) => (s, t, { r with reached := r.reached.insert l { va := ea, need := need, at' := p, gpa := gpa, ops := ops t l } })

/-- The `m` registers from `b` in a lane. -/
def Team.regsAt (t : Team) (b m l : Nat) : List Word := (List.range m).map fun j => t.get (b + j) l
/-- Registers as one number, the lowest word first. -/
def wordsNat (ws : List Word) : Nat := leNat (ws.flatMap fun w => natLE 4 w.toNat)
/-- The operand of an atomic: `m` registers, the lowest word first. -/
def Team.operand (t : Team) (b m l : Nat) : Nat := wordsNat (t.regsAt b m l)

/-- Perform an atomic of a completed lane, after its stores: one indivisible read, operation and write, which waits while a host holds
the line cached (R56). A peer's old value is not this device's to know (log entry 10). -/
def atomLane (d : BitVec 6) (n m code : Nat) (f : Nat → Nat → Nat) (s : State) (k l : Nat) : State × Bool :=
  match s.teams.find? k with
  | none => (s, false)
  | some t =>
    match t.run with
    | none => (s, false)
    | some r =>
      match r.reached.find? l with
      | none => (s, false)
      | some a =>
        match (s.drain k fun st => s.overlaps st a.at' n).placeHeld a.at' with
        | (s, true) => (s, true)
        | (s, false) =>
          let x := wordsNat a.ops
          let old := s.placeBytes a.at' n
          let g := s.wgOf t.w
          let s := match a.at' with
            | .peer nd ld o => { s.emit (.peerAtomic nd ld (s.leafKey g.ten nd ld o) o code (natLE (4 * m) x)) with free := s.free + 256 }
            | _ => s.putPlace { path := 0, team := some k } g.ten a.gpa a.at' (natLE n (f (leNat old) x)) g.ktag
          (s.modTeam k fun t => t.putBytes d.toNat l false old, false)

/-- An atomic of `n` bytes with an operand of `m` registers; `code` names it to a peer. -/
def atom (s : State) (d a b : BitVec 6) (n m code : Nat) (f : Nat → Nat → Nat) : Res :=
  laneTerminal s (checkTerm a n .atomic 2 fun t l => t.regsAt b.toNat m l) (atomLane d n m code f)
/-- A 32-bit atomic of two words. -/
def atomW (s : State) (d a b : BitVec 6) (code : Nat) (f : Word → Word → Word) : Res :=
  atom s d a b 4 1 code fun m x => (f (wordOf m) (wordOf x)).toNat

def execAadd (d a b : BitVec 6) (_la : BitVec 4) (s : State) : Res := atomW s d a b 0 fun m x => m + x
def execAminI32 (d a b : BitVec 6) (_la : BitVec 4) (s : State) : Res := atomW s d a b 1 minI
def execAmaxI32 (d a b : BitVec 6) (_la : BitVec 4) (s : State) : Res := atomW s d a b 2 maxI
def execAminN32 (d a b : BitVec 6) (_la : BitVec 4) (s : State) : Res := atomW s d a b 3 minN
def execAmaxN32 (d a b : BitVec 6) (_la : BitVec 4) (s : State) : Res := atomW s d a b 4 maxN
def execAand (d a b : BitVec 6) (_la : BitVec 4) (s : State) : Res := atomW s d a b 5 fun m x => m &&& x
def execAor (d a b : BitVec 6) (_la : BitVec 4) (s : State) : Res := atomW s d a b 6 fun m x => m ||| x
def execAxor (d a b : BitVec 6) (_la : BitVec 4) (s : State) : Res := atomW s d a b 7 fun m x => m ^^^ x
/-! ATOMS act at system scope. -/
def execAaddSys (d a b : BitVec 6) (_la : BitVec 4) (s : State) : Res := atomW s d a b 0 fun m x => m + x
def execAminI32Sys (d a b : BitVec 6) (_la : BitVec 4) (s : State) : Res := atomW s d a b 1 minI
def execAmaxI32Sys (d a b : BitVec 6) (_la : BitVec 4) (s : State) : Res := atomW s d a b 2 maxI
def execAminN32Sys (d a b : BitVec 6) (_la : BitVec 4) (s : State) : Res := atomW s d a b 3 minN
def execAmaxN32Sys (d a b : BitVec 6) (_la : BitVec 4) (s : State) : Res := atomW s d a b 4 maxN
def execAandSys (d a b : BitVec 6) (_la : BitVec 4) (s : State) : Res := atomW s d a b 5 fun m x => m &&& x
def execAorSys (d a b : BitVec 6) (_la : BitVec 4) (s : State) : Res := atomW s d a b 6 fun m x => m ||| x
def execAxorSys (d a b : BitVec 6) (_la : BitVec 4) (s : State) : Res := atomW s d a b 7 fun m x => m ^^^ x
def execAxch (d a b : BitVec 6) (_la : BitVec 4) (s : State) : Res := atomW s d a b 8 fun _ x => x
/-- b+1 where memory holds b. -/
def execAcas (d a b : BitVec 6) (_la : BitVec 4) (s : State) : Res :=
  atom s d a b 4 2 9 fun m x => if m = x % 2 ^ 32 then x / 2 ^ 32 else m
def execAadd64 (d a b : BitVec 6) (_la : BitVec 4) (s : State) : Res := atom s d a b 8 2 10 fun m x => (m + x) % 2 ^ 64
def execAxch64 (d a b : BitVec 6) (_la : BitVec 4) (s : State) : Res := atom s d a b 8 2 11 fun _ x => x
/-- b+2:b+3 where memory holds b:b+1. -/
def execAcas64 (d a b : BitVec 6) (_la : BitVec 4) (s : State) : Res :=
  atom s d a b 8 4 12 fun m x => if m = x % 2 ^ 64 then x / 2 ^ 64 else m
/-- FP32 sum in RNE. -/
def execAfadd (d a b : BitVec 6) (_la : BitVec 4) (s : State) : Res :=
  atomW s d a b 13 fun m x => wordOf (fp32.deliver 0 ((fp32.decode m.toNat).add 0 (fp32.decode x.toNat))).1
def execAfaddBf16x2 (d a b : BitVec 6) (_la : BitVec 4) (s : State) : Res :=
  atomW s d a b 14 fun m x => (packed 2 16 fun h => bf16.deliver 0 ((bf16.part m 16 h).add 0 (bf16.part x 16 h))).1
/-- 0 where memory is at or above b, else one more. -/
def execAincw (d a b : BitVec 6) (_la : BitVec 4) (s : State) : Res :=
  atomW s d a b 15 fun m x => if x.toNat ≤ m.toNat then 0 else m + 1

/-! ### SCALL and FCALL (R203, R362) -/

/-- Post one entry to the tenant's service queue; the status of R203. -/
def State.postCall (s : State) (k : Nat) (t : Team) (l kind : Nat) (va gpa : Nat) (code : Word) : State × Word :=
  let g := s.wgOf t.w
  let ld := g.ten
  let b := s.reg (oSqbase ld)
  let tail := s.ringEnd (16 + ld) (oSqtail ld)
  let head := s.reg (oSqhead ld)
  if ringBase b = 0 then (s, 2)
  else if (tail + 2 ^ 64 - head) % 2 ^ 64 = ringSize b then (s, 1)
  else
    let src := srcPart (partOfTeam k)
    let (n, s) := s.takeSeq src
    let e := natLE 4 src ++ natLE 4 code.toNat ++ natLE 8 n ++ natLE 8 va ++ natLE 8 gpa ++ natLE 4 (t.id g) ++ natLE 2 l ++
      natLE 2 g.asid ++ natLE 4 (lrGrid g.lr) ++ natLE 4 kind ++ natLE 16 0
    let s := match s.writeGpa ld (ringBase b + 64 * (tail % ringSize b)) e (s.hostKtag ld) { path := 6, ring := some (16 + ld, tail) } with
      | some s => s
      | none => s.lostRecord src ld 6
    (s.raiseCalls ld ((tail + 1) % 2 ^ 64), 0)

/-- Perform a call of a completed lane: a release at system scope of its earlier stores, on paths T and H, which waits for peers and hosts
(R59, R60), then the post. -/
def callLane (d : BitVec 6) (kind : Nat) (s : State) (k l : Nat) : State × Bool :=
  let s := (s.drainAll k).markRun k
  match s.teams.find? k with
  | none => (s, false)
  | some t =>
    match t.run with
    | none => (s, false)
    | some r =>
      if s.sysWaits k t 0xFF 0x21 (r.mark.getD 0) then (s, true)
      else
        match r.reached.find? l with
        | none => (s, false)
        | some a =>
          let x := s.postCall k t l kind a.va a.gpa (a.ops.headD 0)
          (x.1.modTeam k fun t => t.put d.toNat (· == l) fun _ => x.2, false)

def execScall (d a b : BitVec 6) (_la : BitVec 4) (s : State) : Res :=
  laneTerminal s (checkTerm a 64 .load 5 fun t l => t.regsAt b.toNat 1 l) (callLane d 0)
/-- Posts are made one after another, so that an FCALL's entry stands behind every earlier call of its team. -/
def execFcall (d a b : BitVec 6) (_la : BitVec 4) (s : State) : Res :=
  laneTerminal s (checkTerm a 64 .load 5 fun t l => t.regsAt b.toNat 1 l) (callLane d 1)

end Sys2Proof.Machine
end

