-- ==== Sys2Proof/Machine/Copy.lean ====
section
/-! DEFINITION. Copies: geometry and the checks and holds at issue (R228..R232, R238), units, what a unit does, where a copy stops, completes
or is dropped (R239, R240), and the decode engine (R236..R238). -/

namespace Sys2Proof.Machine

/-! ### Geometry (R229, R230, R232, Tables 12.3, 12.4, 12.5, 12.10) -/

/-- A field of a descriptor, unsigned and signed. -/
def descNat (d : List Byte) (o n : Nat) : Nat := leNat ((d.drop o).take n)
def descInt (d : List Byte) (o : Nat) : Int := (BitVec.ofNat 32 (descNat d o 4)).toInt

/-- The descriptor of a 1-D copy of `n` bytes; 0 means 8,192. -/
def oneD (n : Nat) : List Byte := natLE 4 (if n = 0 then 8192 else n) ++ natLE 2 1 ++ natLE 2 1 ++ natLE 24 0

/-- Fields of the tile-control word. -/
def Copy.ctl (c : Copy) : Nat := c.to'.toNat
def Copy.out (c : Copy) : Bool := natBit c.ctl 7
def Copy.hold (c : Copy) : Bool := natBit c.ctl 6
def Copy.tileOff (c : Copy) : Nat := natBits c.ctl 32 32
/-- The tile that a copy names. -/
def Copy.tile (c : Copy) : Option Nat :=
  match c.op with
  | .copyt => some (c.ctl % 64)
  | .deco => some (c.ctl % 64)
  | _ => none
/-- The tile it reads, and the one it writes. -/
def Copy.srcTile (c : Copy) : Option Nat := if c.op = .copyt && c.out then c.tile else none
def Copy.dstTile (c : Copy) : Option Nat := if c.op = .deco || (c.op = .copyt && !c.out) then c.tile else none

/-- Bytes of a row or element; rows or elements; the whole. -/
def Copy.rowLen (c : Copy) : Nat := if c.op = .deco then 64 else descNat c.desc 0 4
def Copy.rows (c : Copy) : Nat :=
  match c.op with
  | .deco => descNat c.desc 20 4
  | .gath => descNat c.desc 4 4
  | .scat => descNat c.desc 4 4
  | _ => descNat c.desc 4 2 * descNat c.desc 6 2
def Copy.total (c : Copy) : Nat := c.rowLen * c.rows
/-- Whether elements combine (R232). -/
def Copy.combines (c : Copy) : Bool := c.op = .scat && descNat c.desc 20 1 == 1

/-- A strided row's offset. -/
def strided (c : Copy) (o i : Nat) : Int :=
  let y := descNat c.desc 4 2
  ((i % y : Nat) : Int) * descInt c.desc o + ((i / y : Nat) : Int) * descInt c.desc (o + 4)
/-- Where row `i` starts at its source and at its destination; `idx` is its index. A tile's side runs on from OFFSET (R230). -/
def Copy.srcRow (c : Copy) (i idx : Nat) : Int :=
  match c.op with
  | .copyt => if c.out then ((c.tileOff + i * c.rowLen : Nat) : Int) else c.frm.toNat + strided c 8 i
  | .gath => ((c.frm.toNat + idx * descNat c.desc 16 4 : Nat) : Int)
  | .scat => ((c.frm.toNat + i * c.rowLen : Nat) : Int)
  | _ => c.frm.toNat + strided c 8 i
def Copy.dstRow (c : Copy) (i idx : Nat) : Int :=
  match c.op with
  | .copyt => if c.out then c.frm.toNat + strided c 16 i else ((c.tileOff + i * c.rowLen : Nat) : Int)
  | .deco => ((c.tileOff + i * c.rowLen : Nat) : Int)
  | .gath => ((c.to'.toNat + i * c.rowLen : Nat) : Int)
  | .scat => ((c.to'.toNat + idx * descNat c.desc 16 4 : Nat) : Int)
  | _ => c.to'.toNat + strided c 16 i

/-! ### Checks (R228, R242) -/

/-- Whether `n` bytes from `a` lie in one space with no end of a window between them. -/
def oneSpace (lr : BitVec 2048) (a n : Nat) : Bool :=
  let inside := fun b => decide (a < b) && decide (b < a + n)
  spaceOf lr a == spaceOf lr (a + n - 1) && !inside (lrLocBase lr) && !inside (lrShBase lr) && !inside (lrClBase lr)

/-- Whether `n` bytes from `a` may be accessed as far as the windows go (R228). -/
def State.spanOk (s : State) (w : Nat) (a : Int) (n : Nat) : Bool :=
  if a < 0 || 2 ^ 48 < a + n then false
  else
    let g := s.wgOf w
    let p := a.toNat
    let live := fun (_ : Unit) =>
      let sg := lrSegment g.lr
      let o := p - lrClBase g.lr
      (List.range ((o + n - 1) / sg - o / sg + 1)).all fun j => (s.segmentWg w (o / sg + j)).isSome
    oneSpace g.lr p n &&
      match spaceOf g.lr p with
      | 0 => true
      | 2 => true
      | 3 => live ()
      | _ => false

/-- Whether a row may be accessed as far as windows and apertures go; `write` for a destination (R228, R242). -/
def State.rowOk (s : State) (w : Nat) (a : Int) (n : Nat) (write : Bool) : Bool :=
  let g := s.wgOf w
  let p := a.toNat
  let ap := fun (_ : Unit) =>
    let m := s.apAt g.asid p
    let marks := (p + n - 1) :: (List.range ((p + n - 1) / 4096 - p / 4096)).map fun j => (p / 4096 + j + 1) * 4096
    marks.all (fun q => s.apAt g.asid q == m) &&
      match m with
      | none => true
      | some k =>
        let o := p - apVbase s k
        let u := if write then (match apXform s k with | 0 => 1 | 1 => 1984 | 2 => 448 | _ => 4) else 4
        o % u == 0 && (o + n) % u == 0
  s.spanOk w a n && (spaceOf g.lr p != 0 || ap ())

/-- Whether all rows of one side may be accessed, and lie in one space, that of the first row (DEDUCED, log entry 36). -/
def State.sideOk (s : State) (w : Nat) (c : Copy) (row : Nat → Int) (write : Bool) : Bool :=
  let sp := fun i => spaceOf (s.wgOf w).lr (row i).toNat
  (List.range c.rows).all fun i => s.rowOk w (row i) c.rowLen write && sp i == sp 0

/-- Whether the tile of a copy is the workgroup's and holds the extent. -/
def State.tileOk (s : State) (x w : Nat) (c : Copy) : Bool :=
  match c.tile with
  | none => true
  | some n =>
    let tl := s.tile (coreOfCtx x) n
    tl.ownedBy w && decide (c.tileOff + c.total ≤ tl.size)

/-- The whole extent at issue. What an index list will name is known only as the copy runs; an index list and the streams of a DECO are no
rows (R242). -/
def State.extentOk (s : State) (x w : Nat) (c : Copy) : Bool :=
  s.tileOk x w c &&
  match c.op with
  | .copy => s.sideOk w c (fun i => c.srcRow i 0) false && s.sideOk w c (fun i => c.dstRow i 0) true
  | .copyt => if c.out then s.sideOk w c (fun i => c.dstRow i 0) true else s.sideOk w c (fun i => c.srcRow i 0) false
  | .gath => s.spanOk w (descNat c.desc 8 8) (4 * c.rows) && s.sideOk w c (fun i => c.dstRow i 0) true &&
      decide (c.frm.toNat < 2 ^ 48)
  | .scat => s.spanOk w (descNat c.desc 8 8) (4 * c.rows) && s.sideOk w c (fun i => c.srcRow i 0) false &&
      decide (c.to'.toNat < 2 ^ 48)
  | .deco =>
    let first := descNat c.desc 16 4
    let last := first + 112 * c.rows - 1
    s.spanOk w (descNat c.desc 0 8 + first / 16) (last / 16 - first / 16 + 1) &&
    s.spanOk w (descNat c.desc 8 8 + 36 * (first / 4096)) (36 * (last / 4096 - first / 4096 + 1)) &&
    decide (c.frm.toNat < 2 ^ 48)

/-- Whether the descriptor's fields are valid (Tables 12.3, 12.5, 12.10). -/
def Copy.descOk (c : Copy) : Bool :=
  let d := c.desc
  match c.op with
  | .gath =>
    decide (1 ≤ descNat d 0 4) && decide (descNat d 0 4 ≤ 4096) && decide (1 ≤ descNat d 4 4) && decide (descNat d 4 4 ≤ 2 ^ 24) &&
      descNat d 8 8 % 4 == 0 && descNat d 20 1 == 0 && decide (descNat d 21 1 ≤ 4) && descNat d 22 10 == 0
  | .scat =>
    decide (1 ≤ descNat d 0 4) && decide (descNat d 0 4 ≤ 4096) && decide (1 ≤ descNat d 4 4) && decide (descNat d 4 4 ≤ 2 ^ 24) &&
      descNat d 8 8 % 4 == 0 && decide (descNat d 20 1 ≤ 1) && decide (descNat d 21 1 ≤ 4) && descNat d 22 10 == 0 &&
      (descNat d 20 1 == 0 || (descNat d 0 4 % 4 == 0 && c.to'.toNat % 4 == 0 && descNat d 16 4 % 4 == 0))
  | .deco =>
    descNat d 16 4 % 112 == 0 && decide (1 ≤ descNat d 20 4) && decide (descNat d 20 4 ≤ 16384) &&
      (descNat d 24 1 == 1 || descNat d 24 1 == 3) && descNat d 25 7 == 0
  | _ =>
    decide (1 ≤ descNat d 0 4) && decide (descNat d 0 4 ≤ 2 ^ 24) && decide (1 ≤ descNat d 4 2) && decide (1 ≤ descNat d 6 2) &&
      descNat d 24 8 == 0
/-- Whether the tile-control word is valid (Table 12.4, R238). -/
def Copy.ctlOk (c : Copy) : Bool :=
  match c.op with
  | .copyt => natBits c.ctl 8 24 == 0
  | .deco => natBits c.ctl 8 24 == 0 && !c.out && c.tileOff % 64 == 0
  | _ => true

/-! ### Issue (R228, R230) -/

/-- Whether a tile's state lets the copy issue now. -/
def State.tileFree (s : State) (x : Nat) (c : Copy) : Bool :=
  match c.tile with
  | none => true
  | some n =>
    let core := coreOfCtx x
    let tl := s.tile core n
    if s.opPinned core n then false
    else if c.out then tl.st = 2 && !s.runPinned (2 ^ 64) core n
    else tl.st = 0 || (tl.st = 1 && tl.openBy == some x)

/-- The tile as a copy's issue leaves it. -/
def Tile.issued (tl : Tile) (x : Nat) (c : Copy) : Tile :=
  if c.out then { tl with st := 3, live := tl.live + 1, back := c.hold }
  else { tl with st := 1, live := tl.live + 1, openBy := if c.hold then some x else none }

/-- The lowest free slot. -/
def Ctx.freeSlot (c : Ctx) : Option Nat := (List.range 8).find? fun i => !c.slots.has i

/-- Issue a copy-family instruction of context `x`: the checks, then the holds; a held one leaves the context as it is. -/
def State.issueCopy (s : State) (x : Nat) (c : Ctx) (op : CopyOp) (d a b : BitVec 4) (desc : List Byte) : State :=
  let k := b.toNat
  if 8 ≤ k then s.ctxFault x c 1
  else
    match c.wg? with
    | none => s.ctxFault x c 3
    | some w =>
      let y : Copy :=
        { op := op, w := w, token := k, to' := c.get d, frm := c.get a, desc := desc, table := if op = .deco then c.table else none,
          off := 0, cause := 0, st := 1, erred := false }
      if !y.ctlOk || !y.descOk then s.ctxFault x c 5
      else if op = .deco && c.table.isNone then s.ctxFault x c 6
      else if !s.extentOk x w y then s.ctxFault x c 4
      else
        let armed := c.arming == some k
        match c.freeSlot with
        | none => s
        | some sl =>
          if (!armed && decide (255 ≤ (s.wgOf w).tokens.getD k 0)) || !s.tileFree x y then s
          else
            let s := if armed then s else s.tokenUp w k
            let s := match y.tile with
              | some n => s.setTile (coreOfCtx x) n ((s.tile (coreOfCtx x) n).issued x y)
              | none => s
            s.setCtx x { c.next with arming := if armed then none else c.arming, slots := c.slots.insert sl y }

/-- The descriptor at a private address. -/
def Ctx.desc (c : Ctx) (p : BitVec 9) : List Byte := c.mem.readN (p.toNat * 32) 32

def execCopy (d a b : BitVec 4) (len : BitVec 13) (s : State) : Res :=
  s.withCtx fun x c => .next (s.issueCopy x c .copy d a b (oneD len.toNat))
def execCopyDesc (d a b : BitVec 4) (p : BitVec 9) (s : State) : Res :=
  s.withCtx fun x c => .next (s.issueCopy x c .copy d a b (c.desc p))
def execCopyt (d a b : BitVec 4) (len : BitVec 13) (s : State) : Res :=
  s.withCtx fun x c => .next (s.issueCopy x c .copyt d a b (oneD len.toNat))
def execCopytDesc (d a b : BitVec 4) (p : BitVec 9) (s : State) : Res :=
  s.withCtx fun x c => .next (s.issueCopy x c .copyt d a b (c.desc p))
def execGath (d a b : BitVec 4) (p : BitVec 9) (s : State) : Res :=
  s.withCtx fun x c => .next (s.issueCopy x c .gath d a b (c.desc p))
def execScat (d a b : BitVec 4) (p : BitVec 9) (s : State) : Res :=
  s.withCtx fun x c => .next (s.issueCopy x c .scat d a b (c.desc p))
def execDeco (d a b : BitVec 4) (p : BitVec 9) (s : State) : Res :=
  s.withCtx fun x c => .next (s.issueCopy x c .deco d a b (c.desc p))

/-- What a copy-family word issues: its operation and descriptor. -/
def Ctx.copyWord (c : Ctx) : Option (CopyOp × List Byte) :=
  let w := c.word
  let p := (bits w 0 9)
  let shape := if w.getLsbD 13 then c.desc p else oneD (bits w 0 13).toNat
  match (bits w 26 6).toNat with
  | 0x21 => some (.copy, shape)
  | 0x22 => some (.copyt, shape)
  | 0x23 => some (.gath, c.desc p)
  | 0x24 => some (.scat, c.desc p)
  | 0x25 => some (.deco, c.desc p)
  | _ => none

/-! ### Reading and writing as a copy does -/

/-- The place of a tile's byte. -/
def State.tilePlace (s : State) (x w n o : Nat) : Place := (s.tile (coreOfCtx x) n).place w o

/-- Read bytes of a copy's memory, page by page, through an aperture where one is met. -/
def State.copyRead (s : State) (w ea n : Nat) : State × Got (List Byte) :=
  Got.andThen (gotList (fun (s : State) p =>
    match s.apOf w p.1 with
    | some k => s.apRead w k (p.1 - apVbase s k) p.2
    | none => s.engRead w p.1 p.2) s (pagePieces (n + 1) ea n)) fun s bs => (s, .ok bs.flatten false)

/-- Read one side: a tile, or memory. -/
def State.sideRead (s : State) (x w : Nat) (tl : Option Nat) (a : Int) (n : Nat) : State × Got (List Byte) :=
  match tl with
  | some t =>
    let p := s.tilePlace x w t a.toNat
    let bad := (List.range ((a.toNat + n - 1) / 64 - a.toNat / 64 + 1)).any fun j =>
      s.placeBad (s.tilePlace x w t ((a.toNat / 64 + j) * 64)) 0
    (s, .ok (s.placeBytes p n) bad)
  | none => s.copyRead w a.toNat n

/-- Write a unit to one side. -/
def State.sideWrite (s : State) (x w : Nat) (tl : Option Nat) (a : Int) (bytes : List Byte) (bad : Bool) : State × Got Unit :=
  match tl with
  | some t => (s.engPut 1 w 0 (s.tilePlace x w t a.toNat) bytes bad, .ok () false)
  | none =>
    match s.apOf w a.toNat with
    | some k => s.apWrite w k (a.toNat - apVbase s k) bytes bad
    | none => s.engWrite 1 w a.toNat bytes bad .store

/-! ### The decode engine (R237, R238) -/

/-- Decode one symbol from stream bit `q`: the symbol and the bit behind it. -/
def State.decSym (s : State) (w stream : Nat) (codes : List (Nat × Nat × Nat)) : Nat → Nat → Nat → Nat → State × Got (Nat × Nat)
  | 0, _, q, _ => (s, .ok (0, q) false)
  | fuel + 1, len, q, c =>
    Got.andThen (s.copyRead w (stream + q / 8) 1) fun s b =>
      let c := 2 * c + (if (b.getD 0 0).getLsbD (q % 8) then 1 else 0)
      match codes.find? fun y => y.1 == len && y.2.1 == c with
      | some y => (s, .ok (y.2.2, q + 1) false)
      | none => State.decSym s w stream codes fuel (len + 1) (q + 1) c

/-- Decode `n` symbols from bit `q`, each with whether poison fed it or any before it. -/
def State.decSyms (s : State) (w stream : Nat) (codes : List (Nat × Nat × Nat)) : Nat → Nat → Bool → State × Got (List (Nat × Bool))
  | 0, _, _ => (s, .ok [] false)
  | n + 1, q, bad =>
    match s.decSym w stream codes 11 1 q 0 with
    | (s, .fault c e g) => (s, .fault c e g)
    | (s, .ok (sy, q) b) =>
      match State.decSyms s w stream codes n q (bad || b) with
      | (s, .fault c e g) => (s, .fault c e g)
      | (s, .ok r _) => (s, .ok ((sy, bad || b) :: r) false)

/-- The symbols of positions `lo .. hi-1` of one chunk. Of the segment's record only SEGOFF and the chunk's BITOFF are read, and feed a block
(DEDUCED, log entry 69). -/
def State.chunkSyms (s : State) (w : Nat) (c : Copy) (codes : List (Nat × Nat × Nat)) (lo hi : Nat) : State × Got (List (Nat × Bool)) :=
  let ch := lo / 256
  let rec' := descNat c.desc 8 8 + 36 * (ch / 16)
  match Got.andThen (s.copyRead w rec' 4) fun s a =>
      Got.andThen (s.copyRead w (rec' + 4 + 2 * (ch % 16)) 2) fun s b => (s, .ok (leNat a, leNat b) false) with
  | (s, .fault cs e g) => (s, .fault cs e g)
  | (s, .ok (seg, bo) bad) =>
    Got.andThen (s.decSyms w c.frm.toNat codes (hi - ch * 256) (8 * seg + bo) bad) fun s r => (s, .ok (r.drop (lo - ch * 256)) false)

/-- Block `n` of a DECO: 64 bytes, or code 0xFF where poison fed it. -/
def State.decoBlock (s : State) (w : Nat) (c : Copy) (n : Nat) : State × Got (List Byte) :=
  let codes := canonCodes (c.table.getD [])
  let lo := descNat c.desc 16 4 + 112 * n
  let hi := lo + 112
  let mid := min hi ((lo / 256 + 1) * 256)
  match Got.andThen (s.copyRead w (descNat c.desc 0 8 + lo / 16) 7) fun s sc =>
      Got.andThen (s.chunkSyms w c codes lo mid) fun s a =>
        Got.andThen (if mid < hi then s.chunkSyms w c codes mid hi else (s, .ok [] false)) fun s b =>
          (s, .ok (sc, a ++ b) false) with
  | (s, .fault cs e g) => (s, .fault cs e g)
  | (s, .ok (sc, sy) bad) =>
    let bad := bad || sy.any fun y => y.2
    if bad then (s, .ok (0xFF :: List.replicate 63 0) true)
    else
      (s, .ok (natLE 1 (descNat c.desc 24 1) ++ (List.range 7).flatMap fun m =>
        sc.getD m 0 :: natLE 8 (((List.range 16).map fun k => (sy.getD (16 * m + k) (0, false)).1 * 16 ^ k).sum)) false)

/-! ### Units (R239) -/

/-- The index of element `i`. -/
def State.indexOf (s : State) (w : Nat) (c : Copy) (i : Nat) : State × Got Nat :=
  match c.op with
  | .gath => Got.andThen (s.copyRead w (descNat c.desc 8 8 + 4 * i) 4) fun s b => (s, .ok (leNat b) false)
  | .scat => Got.andThen (s.copyRead w (descNat c.desc 8 8 + 4 * i) 4) fun s b => (s, .ok (leNat b) false)
  | _ => (s, .ok 0 false)

/-- Bytes of the unit at offset `o` of a copy whose row's destination starts at `d`. -/
def Copy.unitLen (c : Copy) (o : Nat) (d : Int) : Nat :=
  let y := o % c.rowLen
  min (c.rowLen - y) (64 - ((d + y) % 64).toNat)

/-- Combine source words into destination words (R232). -/
def combineWord (op : Nat) (m x : Word) : Word :=
  match op with
  | 0 => m + x
  | 1 => if m.toInt < x.toInt then x else m
  | 2 => if x.toInt < m.toInt then x else m
  | 3 => m ||| x
  | _ => wordOf (fp32.deliver 0 ((fp32.decode m.toNat).add 0 (fp32.decode x.toNat))).1
def combineBytes (op : Nat) (old new : List Byte) : List Byte :=
  (List.range (new.length / 4)).flatMap fun j =>
    natLE 4 (combineWord op (wordOf (leNat ((old.drop (4 * j)).take 4))) (wordOf (leNat ((new.drop (4 * j)).take 4)))).toNat

/-- A unit that combines waits while a host holds its destination's line cached: it is a read and a write as one (R56, R232). -/
def State.combineHeld (s : State) (w a : Nat) : State × Bool :=
  let g := s.wgOf w
  if (s.apOf w a).isSome || spaceOf g.lr a != 0 then (s, false)
  else match s.vaTo g.asid a .store with
    | some spa => s.lineHeld spa
    | none => (s, false)

/-- Carry out the unit at the copy's offset: its length, 0 while it waits for a host. A scattered element whose index is poisoned has no
destination and is not written (log entry 13). The bytes of a unit are performed together, so that those of overlapping writes never mix
within one (DESIGN CHOICE, log entry 11). An element that combines into peer memory reads a value that is free and sends a plain store
(DESIGN CHOICE, log entry 70). -/
def State.unit (s : State) (x : Nat) (c : Copy) : State × Got Nat :=
  let w := c.w
  let o := c.off
  let i := o / c.rowLen
  let y := o % c.rowLen
  if c.op = .deco then
    match s.decoBlock w c i with
    | (s, .fault cs e g) => (s, .fault cs e g)
    | (s, .ok blk bad) =>
      match s.sideWrite x w c.dstTile (c.dstRow i 0) blk false with
      | (s, .fault cs e g) => (s, .fault cs e g)
      | (s, .ok _ _) => (s, .ok 64 bad)
  else
    match s.indexOf w c i with
    | (s, .fault cs e g) => (s, .fault cs e g)
    | (s, .ok idx ibad) =>
      let d := c.dstRow i idx
      let n := c.unitLen o d
      if ibad && c.op = .scat then (s, .ok n true)
      else if c.dstTile.isNone && !s.rowOk w d c.rowLen true then (s, .fault 4 ((d + y).toNat % 2 ^ 64) none)
      else
        let rd := if ibad then (s, Got.ok (List.replicate n 0) true)
          else if c.srcTile.isNone && !s.rowOk w (c.srcRow i idx) c.rowLen false then (s, .fault 4 ((c.srcRow i idx + y).toNat % 2 ^ 64) none)
          else s.sideRead x w c.srcTile (c.srcRow i idx + y) n
        match rd with
        | (s, .fault cs e g) => (s, .fault cs e g)
        | (s, .ok bytes bad) =>
          let (s, held) := if c.combines then s.combineHeld w (d + y).toNat else (s, false)
          if held then (s, .ok 0 false)
          else
          let old := if c.combines then s.copyRead w (d + y).toNat n else (s, .ok [] false)
          match old with
          | (s, .fault cs e g) => (s, .fault cs e g)
          | (s, .ok prev pbad) =>
            let bytes := if c.combines then combineBytes (descNat c.desc 21 1) prev bytes else bytes
            match s.sideWrite x w c.dstTile (d + y) bytes (bad || pbad) with
            | (s, .fault cs e g) => (s, .fault cs e g)
            | (s, .ok _ _) => (s, .ok n (bad || pbad))

/-- Change a copy in its slot. -/
def State.modCopy (s : State) (x sl : Nat) (f : Copy → Copy) : State :=
  { s with ctxs := s.ctxs.modify x fun c => { c with slots := c.slots.modify sl f } }
/-- The copy in a slot. -/
def State.copyAt (s : State) (x sl : Nat) : Option Copy :=
  match s.ctxs.find? x with
  | some c => c.slots.find? sl
  | none => none

/-- What a running copy's next unit meets. -/
inductive UnitEnd where
  /-- the unit is written -/
  | ok (s : State)
  /-- a fault: nothing is written -/
  | fault (s : State) (cause ea : Nat) (gpa : Option (Nat × Bool))
  /-- every byte is written already -/
  | all
  /-- no copy runs in the slot -/
  | idle

/-- Run one unit of a copy (R239); poison carried to the destination is recorded once a copy (R31). -/
def State.runUnit (s : State) (x sl : Nat) : UnitEnd :=
  match s.copyAt x sl with
  | none => .idle
  | some c =>
    if c.st != 1 then .idle
    else if c.total ≤ c.off then .all
    else
      match s.unit x c with
      | (s, .fault cs e g) => .fault s cs e g
      | (s, .ok n bad) =>
        let s := if bad && !c.erred then
            s.report (srcCtx x)
              { cat := 4, code := 6, ten := some (s.wgOf c.w).ten, asid := some (s.wgOf c.w).asid,
                addr := (c.dstRow (c.off / c.rowLen) 0).toNat % 2 ^ 64, aux0 := 5, aux1 := sl, pois := true }
          else s
        .ok (s.modCopy x sl fun y => { y with off := c.off + n, erred := c.erred || bad })

/-- Run a copy's remaining units: the state behind the last, and how it ended. -/
def State.runUnits (s : State) (x sl : Nat) : Nat → State × UnitEnd
  | 0 => (s, .idle)
  | fuel + 1 =>
    match s.runUnit x sl with
    | .ok t => State.runUnits t x sl fuel
    | e => (s, e)
/-- More units than a copy has. -/
def State.unitFuel (s : State) (x sl : Nat) : Nat :=
  match s.copyAt x sl with
  | some c => c.total - c.off + 1
  | none => 0

/-! ### Completion, stops and RESUME (R228, R239, R240) -/

/-- The tile as a copy's completion leaves it (R230). -/
def Tile.finished (tl : Tile) (c : Copy) : Tile :=
  let tl := { tl with live := tl.live - 1 }
  if c.out then
    if tl.live = 0 then { tl with st := if tl.back then 2 else 0, back := false } else tl
  else tl.settleFill

/-- A copy completes: its tile's transition, then its token, then its slot (R228). -/
def State.finishCopy (s : State) (x sl : Nat) : State :=
  match s.copyAt x sl with
  | none => s
  | some c =>
    let s := match c.tile with
      | some n => s.setTile (coreOfCtx x) n ((s.tile (coreOfCtx x) n).finished c)
      | none => s
    let s := s.tokenDown c.w c.token
    { s with ctxs := s.ctxs.modify x fun y => { y with slots := y.slots.erase sl } }

def execBellowsCopyComplete (x sl : Nat) (s : State) : Res :=
  match s.runUnits x sl (s.unitFuel x sl) with
  | (t, .all) => .next (t.finishCopy x sl)
  | _ => .next s

/-- An unrecoverable fault of a copy: STATE 4, and a record to the owner. -/
def State.copyLost (s : State) (x sl ea : Nat) : State :=
  match s.copyAt x sl with
  | none => s
  | some c =>
    (s.modCopy x sl fun c => { c with st := 4 }).report (srcCtx x)
      { cat := 4, code := 5, ten := some (s.wgOf c.w).ten, asid := some (s.wgOf c.w).asid, addr := ea, aux0 := c.cause, aux1 := sl }

/-- A copy runs up to the unit in which a fault is met and stops at its start; the Stoker takes the fault. A cause 4 is no
fault of a translation: it cannot be resolved (R314). -/
def execCopyFaultStop (x sl : Nat) (s : State) : Res :=
  match s.runUnits x sl (s.unitFuel x sl) with
  | (t, .fault u cause ea gpa) =>
    match t.copyAt x sl with
    | none => .next s
    | some c =>
      let t := u.modCopy x sl fun c => { c with st := 2, cause := cause }
      if cause = 4 then .next (t.copyLost x sl ea)
      else
        let g := t.wgOf c.w
        let f : SFault :=
          match gpa with
          | some (a, wr) => { id := 0, asid := none, va := ea, gpa := frameOf a, cause := cause, need := if wr then .store else .load,
                              poolEmpty := false, waiter := .copy x sl, asked := false }
          | none =>
            let need := match t.walk g.asid ea .load with | .ok _ _ _ _ _ => Need.store | .fault _ _ _ => Need.load
            t.faultOf g.asid ea cause need (.copy x sl)
        .next (t.submit g.ten f)
  | _ => .next s

/-- Poison a destination block where a walk takes it, as the copy would write it: one in peer memory is sent (R337); one that the walk does
not reach is skipped (R240). -/
def State.dropAt (s : State) (ten : Nat) (x : XRes) : State :=
  match x with
  | .ok spa gpa _ _ _ =>
    if natBit spa 47 then
      match s.reachSpa spa gpa .store with
      | (s, .at' p _) => s.spoilBy { path := 1 } ten p
      | (s, .cause _) => s
    else s.spoilBy { path := 1 } ten (.sys spa)
  | .fault _ _ _ => s
/-- Poison what a dropped copy has not written, from its offset on: through translations that the walk alone gives; a block that
has none is skipped (R240), and a scattered element that the copy itself could not write has none (R228). An index that cannot be read
names no block (DEDUCED, log entry 13). -/
def State.dropUnit (s : State) (x : Nat) (c : Copy) (o : Nat) : State × Nat :=
  let w := c.w
  let g := s.wgOf w
  let i := o / c.rowLen
  let y := o % c.rowLen
  let (s, idx) : State × Option Nat :=
    if c.op = .scat then
      match s.indexOf w c i with
      | (s, .ok idx false) => (s, some idx)
      | (s, _) => (s, none)
    else (s, some 0)
  match idx with
  | none => (s, c.rowLen - y)
  | some idx =>
    let d := c.dstRow i idx
    let n := c.unitLen o d
    let a := (d + y).toNat
    match c.dstTile with
    | some t => (s.spoilBy { path := 1 } g.ten (s.tilePlace x w t a), n)
    | none =>
      if !s.rowOk w d c.rowLen true then (s, n)
      else
        match s.apOf w a with
        | some k =>
          let o := a - apVbase s k
          let b := match apXform s k with
            | 0 => o
            | 1 => 64 * (o / 4 / 496)
            | 2 => 64 * (o / 4 / 112)
            | _ => o / 2
          (s.dropAt g.ten (s.s2Access s.free (s.tenant g.ten).s2root (apBack s k + b) .store), n)
        | none =>
          if spaceOf g.lr a = 0 then (s.dropAt g.ten (s.walk g.asid a .store), n)
          else
            match s.windowPlace w 0 0 a with
            | some p => (s.spoilBy { path := 1 } g.ten p, n)
            | none => (s, n)
/-- Poison every remaining destination block. -/
def State.dropFrom (s : State) (x : Nat) (c : Copy) : Nat → Nat → State
  | 0, _ => s
  | fuel + 1, o =>
    if c.total ≤ o then s
    else let r := s.dropUnit x c o; State.dropFrom r.1 x c fuel (o + r.2)

def execResume (d : BitVec 4) (sl : BitVec 3) (s : State) : Res :=
  s.withCtx fun x c =>
    match c.slots.find? sl.toNat with
    | none => .next (s.setCtx x (c.set d 1).next)
    | some y =>
      match y.st with
      | 2 => .next s
      | 3 => .next (s.setCtx x ({ c with slots := c.slots.insert sl.toNat { y with st := 1, cause := 0 } }.set d 0).next)
      | 4 => .next (s.setCtx x (c.set d 2).next)
      | _ => .next (s.setCtx x (c.set d 1).next)
def execResumeDrop (d : BitVec 4) (sl : BitVec 3) (s : State) : Res :=
  s.withCtx fun x c =>
    match c.slots.find? sl.toNat with
    | none => .next (s.setCtx x (c.set d 1).next)
    | some y =>
      if y.st < 2 then .next (s.setCtx x (c.set d 1).next)
      else
        let s := (s.dropFrom x y (y.total - y.off + 1) y.off).unsubmit c.ten (· == .copy x sl.toNat)
        .next ((s.setCtx x (c.set d 3).next).finishCopy x sl.toNat)

/-- The cause of a holding copy-family instruction has cleared: it issues (R228). -/
def execBellowsIssueResume (x : Nat) (s : State) : Res :=
  match s.ctxs.find? x with
  | none => .next s
  | some c =>
    if c.halted || c.fault != 0 || c.stoker != 0 then .next s
    else
      match c.copyWord with
      | some (op, desc) => .next (s.issueCopy x c op (bits c.word 22 4) (bits c.word 18 4) (bits c.word 14 4) desc)
      | none => .next s

/-! ### The context's next move -/

/-- The cause of a word that is no legal instruction: a descriptor address with other bits set, or a gather without one, is an
invalid descriptor (R229, R232), anything else an illegal instruction (R225). -/
def Ctx.badWord (c : Ctx) : Nat :=
  let w := c.word
  let op := (bits w 26 6).toNat
  if decide (0x21 ≤ op) && decide (op ≤ 0x25) && !(decide (op < 0x23) && !w.getLsbD 13) then
    if (bits w 14 4).toNat < 8 then (if c.wg?.isNone then 3 else 5) else 1
  else 1

end Sys2Proof.Machine
end

