-- ==== Sys2Proof/Machine/Uniform.lean ====
section
/-! DEFINITION. The uniform set but for its terminals and its engines: arithmetic, compares, literals, special and control registers,
forms, tile states, tokens and the once-per-run effects of a completed run (R12, R86, R99, R123..R128, R185, R195, R198, R200, R201,
R205). -/

namespace Sys2Proof.Machine

/-! ### Arithmetic (R126, R127) -/

/-- d := f a b of the leader's values. -/
def uniOp2 (s : State) (g : Guard) (d a b : BitVec 6) (f : Word → Word → Word) : Res :=
  uniOp s g d fun t r => f (t.uget r a) (t.uget r b)

def execUadd (d a b : BitVec 6) (g : Guard) (s : State) : Res := uniOp2 s g d a b fun x y => x + y
def execUsub (d a b : BitVec 6) (g : Guard) (s : State) : Res := uniOp2 s g d a b fun x y => x - y
def execUmul (d a b : BitVec 6) (g : Guard) (s : State) : Res := uniOp2 s g d a b fun x y => x * y
def execUand (d a b : BitVec 6) (g : Guard) (s : State) : Res := uniOp2 s g d a b fun x y => x &&& y
def execUor (d a b : BitVec 6) (g : Guard) (s : State) : Res := uniOp2 s g d a b fun x y => x ||| y
def execUxor (d a b : BitVec 6) (g : Guard) (s : State) : Res := uniOp2 s g d a b fun x y => x ^^^ y
def execUshl (d a b : BitVec 6) (g : Guard) (s : State) : Res := uniOp2 s g d a b fun x y => shlW x y.toNat
def execUshr (d a b : BitVec 6) (g : Guard) (s : State) : Res := uniOp2 s g d a b fun x y => shrW x y.toNat
def execUsra (d a b : BitVec 6) (g : Guard) (s : State) : Res := uniOp2 s g d a b fun x y => sraW x y.toNat
def execUminI32 (d a b : BitVec 6) (g : Guard) (s : State) : Res := uniOp2 s g d a b minI
def execUmaxI32 (d a b : BitVec 6) (g : Guard) (s : State) : Res := uniOp2 s g d a b maxI
def execUminN32 (d a b : BitVec 6) (g : Guard) (s : State) : Res := uniOp2 s g d a b minN
def execUmaxN32 (d a b : BitVec 6) (g : Guard) (s : State) : Res := uniOp2 s g d a b maxN
def execUmulhiN32 (d a b : BitVec 6) (g : Guard) (s : State) : Res := uniOp2 s g d a b mulhiN
def execUadd64 (d a b : BitVec 6) (g : Guard) (s : State) : Res :=
  uniOp64 s g d fun t r => t.uget64 r a + t.uget64 r b
def execUsub64 (d a b : BitVec 6) (g : Guard) (s : State) : Res :=
  uniOp64 s g d fun t r => t.uget64 r a - t.uget64 r b
def execUaddi (d a : BitVec 6) (im : BitVec 13) (s : State) : Res :=
  uniOp s Guard.always d fun t r => t.uget r a + im.signExtend 32
def execUmovi (d : BitVec 6) (im : BitVec 19) (s : State) : Res := uniOp s Guard.always d fun _ _ => im.signExtend 32
/-- d[31:13] := imm; bits 12:0 stay, in every attempt as they were at run entry unless an earlier instruction of it wrote them. -/
def execUmovh (d : BitVec 6) (im : BitVec 19) (s : State) : Res :=
  uniOp s Guard.always d fun t r =>
    let own := if r.wroteReg d.toNat then t.uget r d else (r.saved.getD d.toNat []).getD (r.leader t) 0
    im ++ own.extractLsb' 0 13

/-! ### Compares (R128) -/

/-- A uniform compare of the leader's values. -/
def uniCmp (s : State) (g : Guard) (m p : BitVec 3) (a b : BitVec 6) (f : Word → Word → Bool) : Res :=
  uniPred s g m p fun t r => f (t.uget r a) (t.uget r b)

def execUeq (m p : BitVec 3) (a b : BitVec 6) (g : Guard) (s : State) : Res := uniCmp s g m p a b fun x y => x == y
def execUne (m p : BitVec 3) (a b : BitVec 6) (g : Guard) (s : State) : Res := uniCmp s g m p a b fun x y => x != y
def execUltI32 (m p : BitVec 3) (a b : BitVec 6) (g : Guard) (s : State) : Res :=
  uniCmp s g m p a b fun x y => decide (x.toInt < y.toInt)
def execUleI32 (m p : BitVec 3) (a b : BitVec 6) (g : Guard) (s : State) : Res :=
  uniCmp s g m p a b fun x y => decide (x.toInt ≤ y.toInt)
def execUgtI32 (m p : BitVec 3) (a b : BitVec 6) (g : Guard) (s : State) : Res :=
  uniCmp s g m p a b fun x y => decide (y.toInt < x.toInt)
def execUgeI32 (m p : BitVec 3) (a b : BitVec 6) (g : Guard) (s : State) : Res :=
  uniCmp s g m p a b fun x y => decide (y.toInt ≤ x.toInt)
def execUltN32 (m p : BitVec 3) (a b : BitVec 6) (g : Guard) (s : State) : Res :=
  uniCmp s g m p a b fun x y => decide (x.toNat < y.toNat)
def execUgeN32 (m p : BitVec 3) (a b : BitVec 6) (g : Guard) (s : State) : Res :=
  uniCmp s g m p a b fun x y => decide (y.toNat ≤ x.toNat)

/-! ### Literals (R12) -/

/-- A literal of `n` words, fetched with the run, in uniform form. -/
def loadLiteral (s : State) (d : BitVec 6) (n : Nat) : Res :=
  uniInstr s Guard.always fun s _ t r =>
    let v := r.lits.getD r.idx 0
    (s, (List.range n).foldl (fun t j => t.put (d.toNat + j) r.uniWrites fun _ => wordOf (natBits v (32 * j) 32)) t, r)

def execLdl32 (d : BitVec 6) (_dp : BitVec 15) (_la : BitVec 4) (s : State) : Res := loadLiteral s d 1
def execLdl64 (d : BitVec 6) (_dp : BitVec 15) (_la : BitVec 4) (s : State) : Res := loadLiteral s d 2
def execLdl128 (d : BitVec 6) (_dp : BitVec 15) (_la : BitVec 4) (s : State) : Res := loadLiteral s d 4

/-! ### USR, UWR, VFORM and NOP (R86, R124, R125, R131) -/

/-- USR: the leader's value; %pcyc as before the instruction's own cycle, a control register as at the start of the run (R125). -/
def execUsr (d a : BitVec 6) (g : Guard) (s : State) : Res :=
  uniInstr s g fun s' k t r =>
    let n := a.toNat
    let v := if n < 16 then s.special k t n (r.leader t) else r.ctl.getD n (s.control t n)
    (s', if wideSpecial n then t.uput64 r d v else t.uput r d (v.setWidth 32), r)
/-- UWR: the value is taken in the first attempt and written when the run completes. -/
def execUwr (a b : BitVec 6) (g : Guard) (s : State) : Res :=
  uniInstr s g fun s _ t r =>
    let v := if wideSpecial a.toNat then t.uget64 r b else (t.uget r b).setWidth 64
    (s, t, if r.first then { r with uwrs := r.uwrs ++ [(a.toNat, v)] } else r)
def execVform (d a : BitVec 6) (g : Guard) (s : State) : Res :=
  uniOp s g d fun t _ => wordOf (formOf t.nlanes (t.get a.toNat))
def execNop (g : Guard) (s : State) : Res := uniInstr s g fun s _ t r => (s, t, r)

/-! ### Effects when the run completes (R185, Table 9.2) -/

/-- An effect performed once, when every lane has completed the run. -/
def uniDone (s : State) (g : Guard) (f : Team → Run → Done) : Res :=
  uniInstr s g fun s _ t r => (s, t, if r.first then { r with done := r.done ++ [(r.idx, f t r)] } else r)

def execSignal (a b : BitVec 6) (g : Guard) (s : State) : Res :=
  uniDone s g fun t r => .signal (t.uget64 r a) (t.uget r b) (r.leader t)
def execTfree (a : BitVec 6) (g : Guard) (s : State) : Res := uniDone s g fun _ _ => .tfree a.toNat
/-- Registers the run gives so far. -/
def Run.given (r : Run) : Nat := (r.done.map fun d => match d.2 with | .reggive n => n | _ => 0).sum
/-- REGGIVE: a give that would leave the allocation below 8 stops the team here (R198). -/
def execReggive (a : BitVec 6) (g : Guard) (s : State) : Res :=
  s.withRun fun k t r =>
    let s := s.uniIssue k t
    if t.guardQ g && r.first then
      if t.alloc < 8 * (r.given + a.toNat) + 8 then .next (s.illegalExec k t r 4)
      else .next (s.advance k t { r with done := r.done ++ [(r.idx, .reggive a.toNat)] })
    else .next (s.advance k t r)
/-- A supervisor instruction outside handler mode is refused at fetch; met there, it stops the team with the same reason (R102). -/
def supvInstr (s : State) (g : Guard) (f : State → Nat → Team → Run → Handler → State × Team × Run) : Res :=
  s.withRun fun k t r =>
    match t.handler with
    | none => .next (s.illegalExec k t r 9)
    | some h =>
      let s := s.uniIssue k t
      let x := if t.guardQ g then f s k t r h else (s, t, r)
      .next (x.1.advance k x.2.1 x.2.2)
def execTlbinvVa (a : BitVec 6) (g : Guard) (s : State) : Res :=
  supvInstr s g fun s _ t r _ => (s, t, if r.first then { r with done := r.done ++ [(r.idx, .tlbinvVa (t.uget64 r a))] } else r)
def execTlbinvAsid (g : Guard) (s : State) : Res :=
  supvInstr s g fun s _ t r _ => (s, t, if r.first then { r with done := r.done ++ [(r.idx, .tlbinvAsid)] } else r)

/-- An item of Table 9.17 for a lane of the faulted run. -/
def faultItem (h : Handler) (item l : Nat) : Word :=
  match h.run.faults.find? l with
  | none => if item = 4 then wordOf h.run.pc.toNat else 0
  | some f =>
    match item with
    | 0 => wordOf f.cause
    | 1 => f.ea.extractLsb' 0 32
    | 2 => f.ea.extractLsb' 32 32
    | 3 => wordOf f.kind
    | 4 => wordOf h.run.pc.toNat
    | _ => wordOf f.ia.toNat
/-- RDFAULT: per-lane items in each acting lane (R205). -/
def execRdfault (d a : BitVec 6) (g : Guard) (s : State) : Res :=
  supvInstr s g fun s _ t r h => (s, t.put d.toNat r.acting.has (faultItem h a.toNat), r)

/-! ### Polls (R200, R201) -/

/-- TSTATE (Table 9.13). -/
def tileState (tl : Tile) (w : Nat) : Word :=
  wordOf (tl.st % 4 + (if tl.ownedBy w then 4 else 0) + (if tl.acc then 8 else 0) + tl.fmt % 16 * 16 + tl.dom % 16 * 256)
def execTstate (d a : BitVec 6) (g : Guard) (s : State) : Res :=
  uniInstr s g fun s' k t r => (s', t.uput r d (tileState (s.tile (coreOfTeam k) a.toNat) t.w), r)
/-- KPOLL: the named tokens whose count is zero. -/
def execKpoll (d a : BitVec 6) (g : Guard) (s : State) : Res :=
  uniInstr s g fun s' _ t r =>
    let m := (t.uget r a).toNat
    let tk := (s.wgOf t.w).tokens
    (s', t.uput r d (wordOf (((List.range 8).map fun i => if natBit m i && tk.getD i 0 == 0 then 2 ^ i else 0).sum)), r)

end Sys2Proof.Machine
end

