-- ==== Sys2Proof/Machine/Control.lean ====
section
/-! DEFINITION. The terminals of the uniform set and the rendezvous: control flow (R129..R132), divergence (R133..R139), rendezvous
(R144..R146), FENCE (R46, R51, R192), barriers, waits, back-off and register claims (R193..R199, R212..R214), and the return from
the supervisor handler (R206). -/

namespace Sys2Proof.Machine

/-! ### Branches and calls (R129..R131) -/

/-- The team goes on where control flow takes it, or stops at the terminal. -/
def State.flow (s : State) (k : Nat) (t : Team) (r : Run) (f : Flow) : State :=
  match f with
  | .go t pc => (s.setTeam k t).endRun k pc
  | .fault c => s.maskFault k t r c

def execBra (g : Guard) (dp : BitVec 21) (s : State) : Res :=
  teamTerminal s g false fun s k _ r => s.endRun k (r.target dp)
def execCall (g : Guard) (dp : BitVec 21) (s : State) : Res :=
  teamTerminal s g false fun s k t r => s.flow k t r (t.callFlow r (r.target dp))
def execRet (g : Guard) (s : State) : Res :=
  teamTerminal s g false fun s k t r => s.flow k t r t.retFlow
def execJmpr (a : BitVec 6) (g : Guard) (s : State) : Res :=
  teamTerminal s g false fun s k t r => s.endRun k (t.jumpTo r a)
def execCallr (a : BitVec 6) (g : Guard) (s : State) : Res :=
  teamTerminal s g false fun s k t r => s.flow k t r (t.callFlow r (t.jumpTo r a))
/-- A user trap: the context stops and reports, its program counter at the TRAP. -/
def execTrap (a : BitVec 6) (g : Guard) (s : State) : Res :=
  teamTerminal s g false fun s k t r => s.stopAt k t r 5 a.toNat

/-! ### Barriers and the end of a team (R132, R194, R220) -/

/-- Let a team that its terminal held go on behind it. -/
def State.release (s : State) (k : Nat) : State :=
  s.modTeam k fun t => t.nextRun (match t.run with | some r => r.nextPc | none => t.pc) s.tick
/-- Release the teams of a barrier instance when every one has arrived. -/
def State.barrier (s : State) (ts : SMap Team) (kind : Nat) : State :=
  if !ts.isEmpty && ts.all fun x => x.2.status == .waiting kind then ts.foldl (fun s x => s.release x.1) s else s
/-- The workgroups of a workgroup's reel. -/
def State.reelOf (s : State) (w : Nat) : List Nat :=
  let g := s.wgOf w
  (s.wgs.filter fun x => x.2.q == g.q && x.2.pos == g.pos && x.2.reel == g.reel).map (·.1)
/-- The barrier of a workgroup. -/
def State.barWg (s : State) (w : Nat) : State := s.barrier (s.teamsOfWg w) 4
/-- The barrier of a workgroup's reel. -/
def State.barReel (s : State) (w : Nat) : State :=
  let ws := s.reelOf w
  s.barrier (s.teams.filter fun x => ws.contains x.2.w) 5

def execBarWg (g : Guard) (s : State) : Res :=
  teamTerminal s g false fun s k t _ => ((s.drainAll k).blockRun k 4).barWg t.w
def execBarReel (g : Guard) (s : State) : Res :=
  teamTerminal s g false fun s k t _ => ((s.drainAll k).blockRun k 5).barReel t.w

/-- A team leaves the machine: its stores are visible, its registers credit the account, its slot is free, and the barriers of
those that wait count it as arrived. -/
def State.endTeam (s : State) (k : Nat) (t : Team) : State :=
  let s := (s.drainAll k).attemptOver k
  let s := { s with
    teams := s.teams.erase k
    wgs := s.wgs.modify t.w fun g => { g with teamsLeft := g.teamsLeft - 1 }
    biWait := s.biWait.map fun (b : BiW) => if b.by'.team = some k then { b with by' := { b.by' with team := none } } else b }
  ((s.credit t.w (poolUnits (t.alloc / 8) t.nlanes)).barWg t.w).barReel t.w
/-- EXIT: at a mask-stack depth above 0 it faults; effects still held are performed before the team leaves (R403). One executed in the
supervisor handler, which R80 has end in ERET or a stop, ends the team, and the lanes that faulted never complete their run (DESIGN
CHOICE, log entry 52). -/
def execExit (g : Guard) (s : State) : Res :=
  teamTerminal s g false fun s k t r =>
    if !t.mstack.isEmpty then s.maskFault k t r 3
    else if t.held.isEmpty then s.endTeam k t
    else s.blockRun k 13

/-! ### Divergence (R133..R138) -/

def execDivif (p : Guard) (dp : BitVec 21) (s : State) : Res :=
  teamTerminal s Guard.always false fun s k t r => s.flow k t r (t.divifFlow r p dp)
def execDivelse (dp : BitVec 21) (s : State) : Res :=
  teamTerminal s Guard.always false fun s k t r => s.flow k t r (t.divelseFlow r dp)
def execDivjoin (s : State) : Res :=
  teamTerminal s Guard.always false fun s k t r => s.flow k t r (t.divjoinFlow r)
def execDivloop (p : Guard) (dp : BitVec 21) (s : State) : Res :=
  teamTerminal s Guard.always false fun s k t r => s.flow k t r (t.divloopFlow r p dp)
def execDivbrk (p : Guard) (dp : BitVec 21) (s : State) : Res :=
  teamTerminal s Guard.always false fun s k t r => s.flow k t r (t.divbrkFlow r p dp)

/-! ### Rendezvous (R144..R146) -/

/-- Move a pair's registers: each lane of the receiver's entry mask takes the sender's, 0 above its lanes. -/
def State.transfer (s : State) (src : Rdv) (dst : Rdv) : State :=
  match s.teams.find? src.k, s.teams.find? dst.k with
  | some a, some b =>
    let m := match b.run with | some r => r.entry | none => b.active
    let mv := fun (t : Team) (h : Nat) => t.put (dst.reg + h) m.has fun l => if l < a.nlanes then a.get (src.reg + h) l else 0
    s.setTeam dst.k (if src.wide then mv (mv b 0) 1 else mv b 0)
  | _, _ => s
/-- The width mismatch stops a team at its rendezvous. -/
def State.rdvFault (s : State) (k : Nat) : State :=
  match s.teams.find? k with
  | some t => match t.run with
    | some r => s.maskFault k t r 6
    | none => s
  | none => s
/-- A rendezvous terminal: it pairs with the first partner waiting at the slot, or waits there. -/
def rendezvous (s : State) (slot reg : BitVec 6) (send wide : Bool) : Res :=
  s.withRun fun k t r =>
    let s := if r.bodyDone then s else s.laneIssue k t r Guard.always
    .next (State.afterBody (s.bodyEnd k t r false noTerm noAtt) k fun s t r =>
      let g := s.wgOf t.w
      let q := g.rdv.getD slot.toNat []
      let me : Rdv := { k := k, send := send, wide := wide, reg := reg.toNat }
      match q.find? fun x => x.send != send with
      | none => (s.setWg t.w { g with rdv := g.rdv.insert slot.toNat (q ++ [me]) }).blockRun k 11
      | some x =>
        let s := s.setWg t.w { g with rdv := g.rdv.insert slot.toNat (q.filter fun y => y.k != x.k) }
        if x.wide != wide then (s.rdvFault x.k).rdvFault k
        else ((if send then s.transfer me x else s.transfer x me).release x.k).endRun k r.nextPc)

def execXsend (d a : BitVec 6) (s : State) : Res := rendezvous s d a true false
def execXrecv (d a : BitVec 6) (s : State) : Res := rendezvous s a d false false
def execXsend64 (d a : BitVec 6) (s : State) : Res := rendezvous s d a true true
def execXrecv64 (d a : BitVec 6) (s : State) : Res := rendezvous s a d false true

/-! ### FENCE (R14, R46, R51, R65, R192) -/

/-- FENCE: `c` the colours, `sr` the scope, `k` the kind, `la` the paths. A release half on path T beyond the team makes the
stores of its colours visible, and those that another lane of the team has read (R57); at system scope the team goes on when the hosts and peers that it names have answered. Loads always read
what is visible now, so an acquire half has nothing to do (log entry 11). -/
def execFence (c : BitVec 8) (sr : BitVec 3) (k : BitVec 2) (la : BitVec 6) (s : State) : Res :=
  s.withRun fun kt t r =>
    let s := if r.bodyDone || r.termLeft.isSome then s else s.uniIssue kt t
    let rel := k != 0 && la.getLsbD 0 && decide (2 ≤ sr.toNat)
    let waits := fun (s : State) =>
      rel && sr == 6 && (match s.teams.find? kt with | some t => s.stillWaits kt t 16 | none => false)
    let att := fun (s : State) =>
      let s := if rel then (s.drain kt fun st => c.getLsbD st.col || st.carried).markRun kt else s
      (s, waits s)
    .next (State.afterBody (s.bodyEnd kt t r false noTerm att) kt fun s _ r =>
      if waits s then s.blockRun kt 16 else s.endRun kt r.nextPc)

/-! ### SYNC (R195..R198) -/

def execYield (g : Guard) (s : State) : Res :=
  teamTerminal s g false fun s k _ r => s.endRun k r.nextPc
/-- BACKOFF: `k` the uniform predicate, `a` the lane predicate. -/
def execBackoff (k : BitVec 3) (a : BitVec 6) (g : Guard) (s : State) : Res :=
  teamTerminal s g false fun s kt t r =>
    let done := t.holds r ⟨a.setWidth 3, false⟩ == r.entry
    let lvl := if done then 0 else min (t.boff.toNat + 1) 31
    let t := { t.putQ k.toNat done with boff := wordOf lvl }
    let s := (s.setTeam kt t).endRun kt r.nextPc
    if done then s
    else s.modTeam kt fun t => { t with
      status := .backoff, hold := ((s.part (partOfTeam kt)).pcyc + 32 * lvl) % 2 ^ 64 }
/-- REGCLAIM: it queues its units; a claim beyond 56 registers stops the team. -/
def execRegclaim (a : BitVec 6) (g : Guard) (s : State) : Res :=
  teamTerminal s g false fun s k t r =>
    if 56 < t.alloc + 8 * a.toNat then s.illegalExec k t r 4
    else
      let g := s.wgOf t.w
      let s := s.setWg t.w { g with claims := g.claims ++ [(k, poolUnits a.toNat t.nlanes)] }
      (s.blockRun k 12).grantClaims t.w (g.claims.length + 1)

/-- What a WAITV finds. -/
inductive WaitEnd where
  | go (s : State)
  | hold (s : State) (p : Place)
  | stoker (s : State)
  | stop (s : State) (code cause : Nat)
  | illegal (s : State)

/-- Whether a word meets the condition `c` against a value. -/
def waitCond (c : Nat) (w v : Word) : Bool :=
  match c with
  | 0 => w == v
  | 1 => w != v
  | 2 => decide (v.toNat ≤ w.toNat)
  | _ => decide (v.toInt ≤ w.toInt)
/-- Read the word a WAITV names and compare it (R195, R212). Where more than one of its causes applies, the window is looked at first, then
the class, then the alignment (DESIGN CHOICE, log entry 60). -/
def State.waitvLook (s : State) (k : Nat) (t : Team) (r : Run) (c : Nat) (ea : Nat) (v : Word) : WaitEnd :=
  let g := s.wgOf t.w
  let sp := spaceOf g.lr ea
  if sp = 1 || sp = 4 then .stop s 6 4
  else if sp = 0 && !lrWhole g.lr then .illegal s
  else if ea % 4 != 0 then .stop s 6 6
  else
    let look := fun (s : State) (p : Place) (gpa : Nat) =>
      if s.placeBad p g.ktag then .stop (s.foundBad p g.ten gpa g.ktag) 7 5
      else
        let s' := match p with | .peer _ _ _ => { s with free := s.free + 256 } | _ => s
        let s' := (s'.noteRead k (r.leader t) p 4).modTeam k fun t => { t with sbuf := s.noteBuf (r.leader t) p 4 t.sbuf }
        if waitCond c (wordOf (leNat (s.laneBytes t r t.nlanes p 4))) v then .go s' else .hold s' p
    if sp = 0 then
      match s.reachGlobal (rcvOfCore (coreOfTeam k)) g.asid ea .load with
      | (s, .cause 4) => .stop s 6 4
      | (s, .cause c) => .stoker (s.submit g.ten (s.faultOf g.asid ea c .load (.team k)))
      | (s, .at' p gpa) => look s p gpa
    else
      match s.windowPlace t.w t.wgteam (r.leader t) ea with
      | none => .stop s 6 4
      | some p => look s p 0
/-- WAITV's turn: go on, wait as kind 6 or 14, or stop at the terminal; the record names the run's first word. Where a write to the block
has met the condition since it last looked, it goes on. -/
def State.waitvTurn (s : State) (k : Nat) (t : Team) (r : Run) (c : Nat) (ea : Nat) (v : Word) : State :=
  if r.met then s.endRun k r.nextPc
  else
  match s.waitvLook k t r c ea v with
  | .go s => s.endRun k r.nextPc
  | .hold s p => (s.modRun k fun r => { r with watch := some (p, ea, c, v) }).blockRun k 6
  | .stoker s => s.blockRun k 14
  | .illegal s => s.illegalWait k t r 1
  | .stop s code cause =>
    (s.stopTeam k { t with base := some r.pc } (dwordOf r.here) { cat := 3, code := code, aux0 := cause, addr := ea, pc := r.pc.toNat }).attemptOver k
def execWaitv (d a b : BitVec 6) (g : Guard) (s : State) : Res :=
  teamTerminal s g false fun s k t r => s.waitvTurn k t r d.toNat (t.uget64 r a).toNat (t.uget r b)

/-- Whether a re-read at one of the writes of this step meets a watched condition: true with the word's value met, false with a poisoned
block, which stops the team when it looks. -/
def State.watchSeen (s : State) (g : Wg) (p : Place) (c : Nat) (v : Word) : Option Bool :=
  let at' := fun (x : Place × List Byte) => match (s.canon x.1).diff (s.canon p) with
    | some d => if 0 ≤ d && decide (d < 64) then some ((x.2.drop d.toNat).take 4) else none
    | none => none
  let ws := s.wrote.filterMap at'
  if ws.any fun w => w.length == 4 && waitCond c (wordOf (leNat w)) v then some true
  else if !ws.isEmpty && s.placeBad p g.ktag then some false
  else none
/-- A word that a WAITV watches is to be read again: its block counts as written. -/
def State.noteWatch (s : State) (r : Run) : State :=
  match r.watch with
  | some (.sys a, _, _, _) => s.noteSys a
  | some (.scr w o, _, _, _) => s.noteScr w o 1
  | _ => s
/-- The words that WAITVs watch are read again at every write to their blocks (R195): a team whose condition has come is ready. -/
def State.settleWatch (s : State) : State :=
  if s.wrote.isEmpty then s
  else
    { s with
      teams := s.teams.map fun x =>
        match x.2.status, x.2.run with
        | .waiting 6, some r =>
          match r.watch with
          | some (p, _, c, v) =>
            match s.watchSeen (s.wgOf x.2.w) p c v with
            | some b => (x.1, { x.2 with run := some { r with watch := none, met := b }, status := .ready, readyAt := s.tick, stv := 0 })
            | none => x
          | none => x
        | _, _ => x
      wrote := [] }

/-- KWAIT (R201). -/
def execKwait (a : BitVec 6) (g : Guard) (s : State) : Res :=
  teamTerminal s g false fun s k t r =>
    if (s.wgOf t.w).tokensBusy (t.uget r a).toNat then s.blockRun k 7 else s.endRun k r.nextPc

/-! ### Return from the handler (R206) -/

/-- ERET: the mask-stack depth must be that of the entry. -/
def handlerReturn (s : State) (g : Guard) (f : State → Nat → Team → Handler → State) : Res :=
  teamTerminal s g false fun s k t r =>
    match t.handler with
    | none => s.illegalExec k t r 9
    | some h => if t.mstack.length = h.depth then (f s k t h).attemptOver k else s.maskFault k t r 2
def execEret (g : Guard) (s : State) : Res := handlerReturn s g State.handlerRetry
def execEretEsc (g : Guard) (s : State) : Res := handlerReturn s g State.handlerEscalate

end Sys2Proof.Machine
end

