-- ==== Sys2Proof/Machine/Matrix.lean ====
section
/-! DEFINITION. The matrix engine: operand blocks (R248, R249, R278), the step sum (R250, R280), operations and their checks at issue
(R252..R260, R279, R281), starting, stepping, completing and failing them (R253, R257, R258, R261..R266). -/

namespace Sys2Proof.Machine

/-! ### FORM (R248, R278, Table 13.1) -/

/-- Plane count of an A format; 0 for a code outside its column. -/
def planes (c : Nat) : Nat :=
  match c with
  | 1 => 4 | 3 => 5 | 5 => 7 | 9 => 8 | 6 => 10 | 7 => 12 | 8 => 12 | 13 => 16 | _ => 0
/-- Whether a B-array may be loaded from a format. -/
def bFormat (c : Nat) : Bool := planes c != 0 || c == 2 || c == 4 || c == 10
/-- The fixed scale of a format. -/
def fixOf (c : Nat) : Option Nat :=
  match c with
  | 1 => some 0 | 2 => some 0 | 9 => some 0 | 3 => some 1 | 4 => some 1 | 5 => some 3 | 6 => some 4 | _ => none

/-- A value times 2^(-e0), truncated towards zero. -/
def Num.trunc (x : Num) (e0 : Int) : Int :=
  match x with
  | .fin n m e =>
    let v : Nat := if e0 ≤ e then m * 2 ^ (e - e0).toNat else m / 2 ^ (e0 - e).toNat
    if n then -(v : Int) else v
  | _ => 0

/-- FORM of unscaled values with a scale byte; CFORM passes the scaled values, no fixed scale and 127. -/
def form (xs : List Num) (sc : Nat) (fix : Option Nat) (w : Nat) : KBlock :=
  let sh : Int := (sc : Int) - 127
  if sc == 255 || xs.any Num.isNan then { q := [], e := 0, bad := 1 }
  else if xs.any fun x => match x with | .inf _ => true | _ => false then { q := [], e := 0, bad := 2 }
  else
    match fix with
    | some f => { q := xs.map fun x => x.trunc (-(f : Int)), e := sh - f, bad := 0 }
    | none =>
      let logs := xs.filterMap fun x => match x with | .fin _ m e => if m = 0 then none else some (floorLog m e) | _ => none
      match logs with
      | [] => { q := xs.map fun _ => 0, e := sh, bad := 0 }
      | l :: ls =>
        let e := ls.foldl max l - ((w : Int) - 2)
        { q := xs.map fun x => x.trunc e, e := e + sh, bad := 0 }

/-! ### Operand locations (R256) -/

/-- A location: the tile of the tile form, and the offset or address. -/
structure MLoc where
  tile : Option Nat
  base : Nat
  deriving DecidableEq, Repr

/-- The location in registers `i` and `i + 1` of a block. -/
def MOp.reg (m : MOp) (i : Nat) : Nat := (m.blk.getD i 0).toNat
def MOp.loc (m : MOp) : MLoc :=
  match locTile (m.blk.getD 1 0) with
  | some t => { tile := some t, base := m.reg 0 }
  | none => { tile := none, base := m.reg 0 + 2 ^ 32 * m.reg 1 }

/-- Fails an operation at once with a cause of Table 13.8 (as a fault above Table 9.1's causes). -/
def failWith {α : Type} (cause : Nat) : Got α := .fault (16 + cause) 0 none

/-- Read an operand: poison fails the operation (R249). -/
def State.mGet (s : State) (w : Nat) (l : MLoc) (rel n : Nat) : State × Got (List Byte) :=
  let rd : State × Got (List Byte) :=
    match l.tile with
    | some t =>
      let tl := s.tile (coreOfWg w) t
      let o := l.base + rel
      let bad := (cuts (n + 1) o n).any fun p => s.placeBad (tl.place w p.1) 0
      (s, .ok (s.placeBytes (tl.place w o) n) bad)
    | none =>
      let a := l.base + rel
      if (cuts (n + 1) a n).any fun p => spaceOf (s.wgOf w).lr p.1 != 0 then (s, .fault 4 a none) else s.engRead w a n
  match rd with
  | (s, .ok bs bad) => (s, if bad then failWith 5 else .ok bs false)
  | r => r

/-- Write to a location, block by block. -/
def State.mPut (s : State) (w : Nat) (l : MLoc) (rel : Nat) (bytes : List Byte) : State × Got Unit :=
  match l.tile with
  | some t => (s.putPlace { path := 2 } (s.wgOf w).ten 0 ((s.tile (coreOfWg w) t).place w (l.base + rel)) bytes 0, .ok () false)
  | none =>
    let a := l.base + rel
    let r := gotList (fun s (p : Nat × Nat) =>
      if spaceOf (s.wgOf w).lr p.1 != 0 then (s, .fault 4 p.1 none)
      else s.engWrite 2 w p.1 ((bytes.drop (p.1 - a)).take p.2) false .store) s (cuts (bytes.length + 1) a bytes.length)
    match r with
    | (s, .ok _ _) => (s, .ok () false)
    | (s, .fault c e g) => (s, .fault c e g)

/-- An SDB of a format: poison and reserved codes fail with cause 5, another valid code with cause 1. -/
def State.mSdb (s : State) (w : Nat) (l : MLoc) (rel fmt : Nat) : State × Got (List Byte) :=
  match s.mGet w l rel 64 with
  | (s, .ok blk _) =>
    (s, if sdbPoison blk then failWith 5 else if (blk.getD 0 0).toNat != fmt then failWith 1 else .ok blk false)
  | r => r

/-- Where the scale byte of element `e`'s microblock stands. -/
def sdbScaleAt (blk : List Byte) (e : Nat) : Nat := 1 + e / 16 * (1 + (sdbLayout (blk.getD 0 0).toNat).2.1)
/-- One element without its scale. R175 has the consumer of an escape whose index is out of range raise NV, while R250 and R257 give the
matrix engine no flag for it: here none is raised (DESIGN CHOICE, log entry 53). -/
def sdbUnscaled (blk : List Byte) (e : Nat) : Num := (sdbDec (blk.set (sdbScaleAt blk e) 127) e).1

/-- BF16 values of bytes. -/
def bf16s (bs : List Byte) : List Num :=
  (List.range (bs.length / 2)).map fun j => bf16.decode (leNat ((bs.drop (2 * j)).take 2))

/-- One 16-K block of real elements from element `p` of a row or column (R249). -/
def State.realBlock (s : State) (w : Nat) (l : MLoc) (rel fmt wd p : Nat) : State × Got KBlock :=
  if fmt = 13 then
    match s.mGet w l (rel + 2 * p) 32 with
    | (s, .ok bs _) => (s, .ok (form (bf16s bs) 127 none wd) false)
    | (s, .fault c e g) => (s, .fault c e g)
  else
    let ne := (sdbLayout fmt).2.2
    match s.mSdb w l (rel + 64 * (p / ne)) fmt with
    | (s, .fault c e g) => (s, .fault c e g)
    | (s, .ok blk _) =>
      let e := p % ne
      let sc := (blk.getD (sdbScaleAt blk e) 0).toNat
      let esc := sideFmt fmt && (List.range 8).any fun j => sdbCode blk fmt (e / 16) (2 * j) == 8
      (s, .ok (form ((List.range 16).map fun k => sdbUnscaled blk (e + k)) sc (if esc then none else fixOf fmt) wd) false)

/-- One 16-K block of complex elements: real and imaginary parts in turn (R278). -/
def State.cplxBlock (s : State) (w : Nat) (l : MLoc) (rel fmt wd p : Nat) : State × Got KBlock :=
  if fmt = 13 then
    match s.mGet w l (rel + 4 * p) 64 with
    | (s, .ok bs _) => (s, .ok (form (bf16s bs) 127 none wd) false)
    | (s, .fault c e g) => (s, .fault c e g)
  else
    Got.andThen (gotList (fun s q =>
      match s.mSdb w l (rel + 64 * (q / 24)) fmt with
      | (s, .fault c e g) => (s, .fault c e g)
      | (s, .ok blk _) => (s, .ok [(sdbDec blk (2 * (q % 24))).1, (sdbDec blk (2 * (q % 24) + 1)).1] false)) s
      ((List.range 16).map (p + ·))) fun s xs => (s, .ok (form xs.flatten 127 none wd) false)

/-- The eight blocks of a K step from element `p`. -/
def State.rowBlocks (s : State) (w : Nat) (l : MLoc) (rel fmt wd p : Nat) (cplx : Bool) : State × Got (List KBlock) :=
  gotList (fun s j =>
    if cplx then s.cplxBlock w l rel fmt wd (p + 16 * j) else s.realBlock w l rel fmt wd (p + 16 * j)) s (List.range 8)

/-- The real (h = 0) or imaginary parts of a complex block. -/
def KBlock.part (b : KBlock) (h : Nat) : KBlock :=
  { b with q := (List.range (b.q.length / 2)).map fun j => b.q.getD (2 * j + h) 0 }

/-! ### The step sum (R250, R280) -/

/-- Deliver a result in RNE, tiny by the value delivered (R404). -/
def Fmt.delivered (f : Fmt) (x : Num × Word) : Nat × Word :=
  match x.1 with
  | .fin neg m e =>
    let r := f.ieee 0 neg m e false
    let tiny := decide (r.1 % f.signBit < 2 ^ f.mb)
    (r.1, x.2 ||| (r.2 &&& (flOF ||| flNX)) ||| flagIf (r.2 &&& flNX != 0 && tiny) flUF)
  | _ => f.deliver 0 x

/-- Sum of products of two lists. -/
def dotInt (a b : List Int) : Int := (List.zipWith (· * ·) a b).sum

/-- MSTEP from `top` onwards: an accumulator part and the blocks' sums with their exponents. -/
def stepTail (acc : Nat) (ps : List (Int × Int)) : Nat × Word :=
  match fp32.decode acc with
  | .inf _ => (acc, 0)
  | a =>
    let ts := ps.filter fun p => p.1 != 0
    let lead := fun (p : Int × Int) => floorLog p.1.natAbs p.2
    match ts with
    | [] => (acc, 0)
    | t :: _ =>
      let top := ts.foldl (fun m p => max m (lead p)) (lead t)
      let keep := ts.filter fun p => decide (top - 40 ≤ lead p)
      let uf := flagIf (decide (keep.length < ts.length)) flUF
      let e0 := keep.foldl (fun m p => min m p.2) t.2
      let v : Int := (keep.map fun p => p.1 * 2 ^ (p.2 - e0).toNat).sum
      let y := a.add 0 (.fin (decide (v < 0)) v.natAbs e0)
      match y.1 with
      | .fin _ 0 _ => (if acc = 2 ^ 31 && v = 0 then acc else 0, uf)
      | .fin n m e =>
        let r := fp32.delivered (y.1, uf)
        (r.1, if (roundTo 0 n m e false (fp32.ulp m e)).2 then r.2 else r.2 &&& ~~~flNX)
      | _ => fp32.delivered (y.1, uf)

/-- Marks of the blocks of a step: 1 some NaN, 2 some infinity, 0 none. -/
def marks (bs : List KBlock) : Nat := if bs.any (·.bad == 1) then 1 else if bs.any (·.bad == 2) then 2 else 0
/-- Whether an FP32 word is a NaN. -/
def nan32 (x : Nat) : Bool := (fp32.decode x).isNan

/-- MSTEP. -/
def mstep (acc : Nat) (a b : List KBlock) : Nat × Word :=
  if nan32 acc then (acc, 0)
  else
    match marks (a ++ b) with
    | 1 => (fp32.canon, 0)
    | 2 => (fp32.canon, flNV)
    | _ => stepTail acc (List.zipWith (fun x y => (dotInt x.q y.q, x.e + y.e)) a b)

/-- CMSTEP: `a` of interleaved parts, `br` and `bi` of the two arrays. -/
def cmstep (re im : Nat) (a br bi : List KBlock) (split : Bool) : (Nat × Nat) × Word :=
  let bad := fun f => ((fp32.canon, fp32.canon), f)
  if nan32 re || nan32 im then bad 0
  else
    match marks (a ++ br) with
    | 1 => bad 0
    | 2 => bad flNV
    | _ =>
      let ar := a.map (KBlock.part · 0)
      let ai := a.map (KBlock.part · 1)
      let ds := fun x y => List.zipWith (fun (p q : KBlock) => dotInt p.q q.q) x y
      let es := List.zipWith (fun (x y : KBlock) => x.e + y.e) a br
      let pr := if split then ds ar br else List.zipWith (· - ·) (ds ar br) (ds ai bi)
      let pi := if split then ds ai bi else List.zipWith (· + ·) (ds ar bi) (ds ai br)
      let r := stepTail re (pr.zip es)
      let i := stepTail im (pi.zip es)
      ((r.1, i.1), r.2 ||| i.2)

/-! ### Parameter blocks (Tables 13.4, 13.5, 13.6) -/

def MOp.cplx (m : MOp) : Bool :=
  match m.op with
  | .mldb => natBits (m.reg 3) 0 4 == 10
  | .mloop => natBits (m.reg 7) 4 2 == 1
  | _ => false
def MOp.gdir (m : MOp) : Bool := natBit (m.reg 4) 12
def MOp.gang (m : MOp) : Nat := natBits (m.reg 4) 8 4 + 1
def MOp.first (m : MOp) (st : Nat) : Nat := natBits (m.reg 4) 0 4 + st * natBits (m.reg 4) 4 4
def MOp.steps (m : MOp) : Nat := natBits (m.reg 6) 16 16
def MOp.mrows (m : MOp) : Nat := natBits (m.reg 6) 0 7
def MOp.ainc (m : MOp) : Int := (BitVec.ofNat 32 (m.reg 3)).toInt
/-- Element position of a step's first A element. -/
def MOp.apos (m : MOp) (st : Nat) : Int := (natBits (m.reg 7) 8 24 : Nat) + (st : Int) * m.ainc
def MOp.afmt (m : MOp) : Nat := natBits (m.reg 7) 0 4
/-- Sub-steps along K. -/
def MOp.subs (m : MOp) : Nat := if m.gdir then m.gang else 1
/-- Columns of an accumulator row. -/
def MOp.nacc (m : MOp) : Nat :=
  match m.op with
  | .mloop => if m.cplx || m.gdir then 64 else 64 * m.gang
  | _ => 64 * (natBits (m.reg 3) 24 4 + 1)
/-- Bytes of an accumulator row. -/
def MOp.rowBytes (m : MOp) : Nat := if m.cplx then 512 else 4 * m.nacc
/-- The first accumulator row, and the row of a step. -/
def MOp.row0 (m : MOp) : Nat := if m.op = .mloop then natBits (m.reg 5) 8 8 else natBits (m.reg 3) 8 8
def MOp.rowOf (m : MOp) (st : Nat) : Nat := m.row0 + st * natBits (m.reg 5) 16 8
/-- One more than the last accumulator row. -/
def MOp.rowEnd (m : MOp) : Nat :=
  if m.op = .mloop then m.rowOf (m.steps - 1) + m.mrows else m.row0 + natBits (m.reg 3) 16 8
/-- Bytes of an MLOOP's accumulator footprint. -/
def MOp.footprint (m : MOp) : Nat := (m.rowEnd - m.row0) * m.rowBytes
/-- MST and MLD: the element format and size. -/
def MOp.mfmt (m : MOp) : Fmt := match natBits (m.reg 3) 28 2 with | 0 => fp32 | 1 => bf16 | _ => fp16
def MOp.msize (m : MOp) : Nat := if natBits (m.reg 3) 28 2 = 0 then 4 else 2
/-- The accumulator tile. -/
def MOp.accTile (m : MOp) : Option Nat :=
  match m.op with
  | .mloop => some (natBits (m.reg 5) 0 6)
  | .mzero => some (m.reg 0 % 64)
  | .mst => some (natBits (m.reg 3) 0 6)
  | .mld => some (natBits (m.reg 3) 0 6)
  | _ => none
/-- The arrays an operation names; a complex MLDB, also one that fails for an odd `b`, names `b` and the one behind it (DESIGN CHOICE,
log entry 67). -/
def MOp.arrays (m : MOp) : List Nat :=
  match m.op with
  | .mldb => if m.cplx then [m.arr, m.arr + 1] else [m.arr]
  | .mloop => ((List.range (min m.steps 16)).flatMap fun st =>
      (List.range (if m.cplx then 2 else m.gang)).map (m.first st + ·)).eraseDups
  | _ => []
/-- The scratchpad tile it reads, and the one it writes. -/
def MOp.reads (m : MOp) : Option Nat := if m.op = .mzero || m.op = .mst then none else m.loc.tile
def MOp.writes (m : MOp) : Option Nat := if m.op = .mst then m.loc.tile else none

/-- The bytes of elements `lo .. hi` of a row or column, first and last (R249, R278). -/
def elemSpan (fmt : Nat) (cplx : Bool) (lo hi : Nat) : Nat × Nat :=
  if fmt = 13 then let z := if cplx then 4 else 2; (z * lo, z * hi + z - 1)
  else let ne := if cplx then 24 else (sdbLayout fmt).2.2; (64 * (lo / ne), 64 * (hi / ne) + 63)
/-- First and last byte of the memory an operation reaches from its location. -/
def MOp.extent (m : MOp) : Nat × Nat :=
  match m.op with
  | .mldb =>
    let b := natBits (m.reg 3) 8 24
    let x := elemSpan (natBits (m.reg 3) 0 4) m.cplx b (b + 127)
    (x.1, 63 * m.reg 2 + x.2)
  | .mloop =>
    let z := m.apos (m.steps - 1)
    let x := elemSpan m.afmt m.cplx (min (m.apos 0) z).toNat ((max (m.apos 0) z).toNat + 128 * m.subs - 1)
    (x.1, (m.mrows - 1) * m.reg 2 + x.2)
  | _ => (0, (natBits (m.reg 3) 16 8 - 1) * m.reg 2 + m.nacc * m.msize - 1)

/-! ### Checks at issue (R255..R260, R279, R281) -/

/-- Cause 1: parameters, zero fields and format codes. -/
def MOp.badParam (m : MOp) : Bool :=
  let zeroLoc := (m.loc.tile.isSome && natBits (m.reg 1) 6 25 != 0)
  match m.op with
  | .mldb =>
    let c := natBits (m.reg 3) 0 4
    zeroLoc || m.reg 2 % 64 != 0 || natBits (m.reg 3) 8 24 % 16 != 0 || natBits (m.reg 3) 4 4 != 0 || !bFormat c ||
      (m.cplx && m.arr % 2 != 0)
  | .mloop =>
    zeroLoc || natBits (m.reg 4) 13 19 != 0 || natBits (m.reg 5) 24 8 != 0 || natBits (m.reg 5) 6 2 != 0 ||
      natBits (m.reg 6) 7 9 != 0 || natBits (m.reg 7) 6 2 != 0 || m.mrows == 0 || decide (64 < m.mrows) || m.steps == 0 ||
      m.reg 2 % 64 != 0 || m.ainc % 16 != 0 || natBits (m.reg 7) 8 24 % 16 != 0 || decide (1 < natBits (m.reg 7) 4 2) ||
      decide (15 < m.first (m.steps - 1) + (if m.cplx then 1 else m.gang - 1)) || decide (m.apos (m.steps - 1) < 0) ||
      (if m.cplx then !(m.afmt == 10 || m.afmt == 13) || m.gdir || m.gang != 1 ||
          (List.range (min m.steps 16)).any (fun st => m.first st % 2 != 0)
        else planes m.afmt == 0)
  | .mzero => false
  | _ => zeroLoc || natBits (m.reg 3) 30 2 != 0 || natBits (m.reg 3) 6 2 != 0 || natBits (m.reg 3) 28 2 == 3 ||
      natBits (m.reg 3) 16 8 == 0 || m.reg 2 % m.msize != 0
/-- Cause 2: arrays, tiles and shadow space. -/
def State.badResource (s : State) (w : Nat) (m : MOp) : Bool :=
  let g := s.wgOf w
  let c := coreOfWg w
  let arr := m.arrays.any fun a => decide (lrNbarr g.lr ≤ a)
  let src := match (if m.op = .mzero then none else m.loc.tile) with
    | some t => let tl := s.tile c t; !tl.ownedBy w || tl.acc || tl.st != 2
    | none => false
  let acc := match m.accTile with
    | some t =>
      let tl := s.tile c t
      !tl.ownedBy w || !tl.acc || !(tl.st == 2 || (tl.st == 0 && (m.op = .mzero || m.op = .mld)))
    | none => false
  arr || src || acc || (m.op = .mloop && decide (lrShd g.lr * 16384 < m.footprint))
/-- Cause 4: addresses, alignment and extents. -/
def State.badAccess (s : State) (w : Nat) (m : MOp) : Bool :=
  let g := s.wgOf w
  let c := coreOfWg w
  let x := m.extent
  let mem := if m.op = .mzero then false else
    match m.loc.tile with
    | some t => decide ((s.tile c t).size < m.loc.base + x.2 + 1) || ((m.op = .mst || m.op = .mld) && m.loc.base % 64 != 0)
    | none => m.loc.base % 64 != 0 || spaceOf g.lr m.loc.base != 0 || spaceOf g.lr (m.loc.base + x.1) != 0 ||
        spaceOf g.lr (m.loc.base + x.2) != 0
  let acc := match m.accTile with
    | some t => m.op != .mzero && decide ((s.tile c t).size < m.rowEnd * m.rowBytes)
    | none => false
  mem || acc
/-- Cause 8: domains (R281). -/
def State.badDomain (s : State) (w : Nat) (m : MOp) : Bool :=
  if m.op != .mloop then false
  else
    let c := coreOfWg w
    let dom := fun (t : Option Nat) => match t with | some n => (s.tile c n).dom | none => 0
    let acc := dom m.accTile
    if m.cplx then acc == 0 || (m.loc.tile.isSome && dom m.loc.tile != acc) else acc != 0 || dom m.loc.tile != 0
/-- Whether an array holds CE4M3 for an operation that issues now: as the last MLDB still to load it will leave it, or as it stands VALID
(DEDUCED, log entry 66). -/
def Wg.holdsCplx (g : Wg) (a : Nat) : Bool :=
  match g.mops.reverse.find? fun x => x.op == .mldb && x.arrays.contains a with
  | some x => x.cplx
  | none => (g.barrs.find? a).any fun b => b.st == 2 && b.fmt == 10
/-- The lowest cause that an operation's issue checks give, 0 for none (R255): cause 1 also for a MODE 0 MLOOP on arrays that hold CE4M3
(R281). -/
def State.issueCause (s : State) (w : Nat) (m : MOp) : Nat :=
  if m.badParam || (m.op == .mloop && !m.cplx && m.arrays.any (s.wgOf w).holdsCplx) then 1 else if s.badResource w m then 2 else if s.badAccess w m then 4 else if s.badDomain w m then 8 else 0

/-! ### Numbers, completion and failure (R252, R262) -/

/-- The completed prefix after more operations have completed. -/
def prefixGo (done : NSet) : Nat → Nat → Nat × NSet
  | 0, p => (p, done)
  | fuel + 1, p =>
    let n := (p + 1) % 2 ^ 32
    if done.has n then prefixGo (done.erase n) fuel n else (p, done)
/-- Make the arrays INVALID whose failed MLDB no earlier operation keeps waiting (R257, R261). -/
def Wg.loseArrays (g : Wg) : Wg :=
  let due := g.lostArrs.filter fun x => x.1.isEmpty
  { g with barrs := due.foldl (fun b x => x.2.foldl (fun b a => b.erase a) b) g.barrs,
           lostArrs := g.lostArrs.filter fun x => !x.1.isEmpty }
/-- An operation is complete: it leaves the queue, the prefix moves on, and a failed MLDB that it kept waiting invalidates its arrays. -/
def Wg.opDone (g : Wg) (num : Nat) : Wg :=
  let d := g.doneOps.insert num ()
  let r := prefixGo d (d.length + 1) g.donePfx
  Wg.loseArrays { g with mops := g.mops.filter fun m => m.num != num, donePfx := r.1, doneOps := r.2,
                         lostArrs := g.lostArrs.map fun x => (x.1.filter fun n => n != num, x.2) }

/-- An MLDB leaves each of its arrays INVALID once the operations numbered before it that name that array have ended: those find it as
earlier operations left it, and are not touched (R257, R261). -/
def Wg.arrayLost (g : Wg) (m : MOp) : Wg :=
  let before := fun (a : Nat) => ((g.mops.takeWhile fun x => x.num != m.num).filter fun x => x.arrays.contains a).map (·.num)
  Wg.loseArrays { g with lostArrs := g.lostArrs ++ m.arrays.map fun a => (before a, [a]) }

/-- Where the accumulator row `r` of an operation lies. -/
def State.accPlace (s : State) (w : Nat) (m : MOp) (off : Nat) : Place :=
  match m.accTile with
  | some t => (s.tile (coreOfWg w) t).place w off
  | none => .acc w off

/-- Restore the footprint of an MLOOP that has started from its shadow, but for blocks that are poisoned; an MLDB leaves its arrays INVALID
(R257, R261, R264). -/
def State.restoreOp (s : State) (w : Nat) (m : MOp) : State :=
  match m.op with
  | .mloop =>
    let o := m.row0 * m.rowBytes
    if m.shadow.isEmpty then s
    else (cuts (m.footprint + 1) o m.footprint).foldl (fun s p =>
      if s.placeBad (s.accPlace w m p.1) 0 then s
      else s.putPlace { path := 2 } (s.wgOf w).ten 0 (s.accPlace w m p.1) ((m.shadow.drop (p.1 - o)).take p.2) 0) s
  | .mldb => s.setWg w ((s.wgOf w).arrayLost m)
  | _ => s

/-- An operation fails (R262): MSTAT, and an error record but for cause 7. -/
def State.failOp (s : State) (w : Nat) (m : MOp) (cause : Nat) : State :=
  let s := s.restoreOp w m
  let g := s.wgOf w
  let st := g.mstat.toNat
  let st := if natBit st 8 then st else natPut (natPut st 16 16 m.num) 12 4 cause + 256
  let s := s.setWg w { g.opDone m.num with mstat := wordOf st }
  if cause = 7 then s
  else s.report (srcMatrix (coreOfWg w)) { cat := 4, code := 2, ten := some g.ten, asid := some g.asid, aux0 := cause, aux1 := m.num }

/-- An operation completes: its flags enter MSTAT. -/
def State.doneOp (s : State) (w : Nat) (m : MOp) : State :=
  let g := s.wgOf w
  s.setWg w { g.opDone m.num with mstat := g.mstat ||| wordOf m.flags }

/-- Operations held by a core's sequencer. -/
def State.seqLoad (s : State) (c : Nat) : Nat := ((s.wgsOf c).map fun x => x.2.mops.length).sum

/-- An operation reaches the sequencer: it takes the workgroup's next number, is checked, and is queued or fails (R252). -/
def State.issueOp (s : State) (w : Nat) (op : OnceOp) (arr : Nat) (blk : List Word) : State × Nat :=
  let g := s.wgOf w
  let num := (g.lastOp + 1) % 2 ^ 32
  let m : MOp := { num := num, op := op, arr := arr, blk := blk, st := 0, step := 0, flags := 0, shadow := [] }
  let s := s.setWg w { g with lastOp := num }
  match s.issueCause w m with
  | 0 =>
    let s := match op, m.accTile with
      | .mzero, some t => s.setTile (coreOfWg w) t { s.tile (coreOfWg w) t with st := 2 }
      | .mld, some t => s.setTile (coreOfWg w) t { s.tile (coreOfWg w) t with st := 2 }
      | _, _ => s
    let g := s.wgOf w
    (s.setWg w { g with mops := g.mops ++ [m] }, num)
  | c + 1 => (s.failOp w m (c + 1), num)

/-! ### Starting (R253, R257, R258, R263) -/

/-- Whether two operations of a workgroup conflict. -/
def MOp.conflicts (a b : MOp) : Bool :=
  let share := fun (x y : Option Nat) => x.isSome && x == y
  (meets a.arrays b.arrays && (a.op = .mldb || b.op = .mldb)) || share a.accTile b.accTile || share a.writes b.reads ||
    share b.writes a.reads
/-- Kinds that the sequencer limits: MLDB, MLOOP, and the others. -/
def MOp.kind (m : MOp) : Nat := match m.op with | .mldb => 0 | .mloop => 1 | _ => 2
/-- The operation `num` of a workgroup. -/
def State.opAt (s : State) (w num : Nat) : Option MOp := (s.wgOf w).mops.find? fun m => m.num == num
/-- Replace an operation in its place. -/
def State.setOp (s : State) (w : Nat) (m : MOp) : State :=
  { s with wgs := s.wgs.modify w fun g => { g with mops := g.mops.map fun x => if x.num = m.num then m else x } }
/-- Whether a queued operation can start. -/
def State.canStart (s : State) (w : Nat) (m : MOp) : Bool :=
  let g := s.wgOf w
  let running : Nat := ((s.wgsOf (coreOfWg w)).map fun x => (x.2.mops.filter fun y => y.st == 1 && y.kind == m.kind).length).sum
  let earlier := g.mops.takeWhile fun x => x.num != m.num
  let held : Nat := (g.mops.map fun x => x.shadow.length).sum
  let most : Nat := if m.kind = 1 then 4 else 1
  m.st = 0 && decide (running < most) && !(earlier.any fun x => x.conflicts m) &&
    (m.op != .mloop || !m.shadow.isEmpty || decide (held + m.footprint ≤ lrShd g.lr * 16384))
/-- The cause of an MLOOP's check at start: its arrays must be VALID and of its kind (R258, R281); an array that an MLDB numbered before it
failed to load is not. -/
def Wg.startCause (g : Wg) (m : MOp) : Nat :=
  if m.op != .mloop then 0
  else
    let gone := (g.lostArrs.filter fun x => !x.1.contains m.num).flatMap (·.2)
    let as := m.arrays.map fun a => if gone.contains a then none else g.barrs.find? a
    if as.any fun a => (match a with | some b => b.st == 2 && (b.fmt == 10) != m.cplx | none => false) then 1
    else if as.any fun a => (match a with | some b => b.st != 2 | none => true) then 6
    else 0

/-- Start an operation, or go on with an MLOOP that pre-emption stopped at a step boundary (R265). -/
def State.startOp (s : State) (w : Nat) (m : MOp) : State :=
  let g := s.wgOf w
  let m' := { m with st := 1 }
  match m.op with
  | .mloop =>
    match g.startCause m with
    | 0 =>
      let sh := if m.shadow.isEmpty then s.placeBytes (s.accPlace w m (m.row0 * m.rowBytes)) m.footprint else m.shadow
      s.setOp w { m' with shadow := sh }
    | c + 1 => s.failOp w { m with st := 0 } (c + 1)
  | .mldb =>
    let b : BArr := { st := 1, fmt := natBits (m.reg 3) 0 4, cols := [] }
    (s.setWg w { g with barrs := m.arrays.foldl (fun x a => x.insert a b) g.barrs }).setOp w m'
  | _ => s.setOp w m'

def execMatrixOpStart (w op : Nat) (s : State) : Res :=
  match s.opAt w op with
  | some m => .next (if s.canStart w m then s.startOp w m else s)
  | none => .next s

/-! ### Steps -/

/-- How many steps an operation takes: K steps, columns or rows. -/
def MOp.length (m : MOp) : Nat :=
  match m.op with
  | .mloop => m.steps
  | .mldb => 64
  | .mzero => 1
  | _ => natBits (m.reg 3) 16 8

/-- Read accumulator words; a poisoned block fails the operation. -/
def State.accRead (s : State) (w : Nat) (m : MOp) (row : Nat) : State × Got (List Nat) :=
  let o := row * m.rowBytes
  let bad := (cuts (m.rowBytes + 1) o m.rowBytes).any fun p => s.placeBad (s.accPlace w m p.1) 0
  let bs := s.placeBytes (s.accPlace w m o) m.rowBytes
  (s, if bad then failWith 5 else .ok ((List.range (m.rowBytes / 4)).map fun j => leNat ((bs.drop (4 * j)).take 4)) false)
/-- Write accumulator words. -/
def State.accWrite (s : State) (w : Nat) (m : MOp) (row : Nat) (ws : List Nat) : State :=
  s.putPlace { path := 2 } (s.wgOf w).ten 0 (s.accPlace w m (row * m.rowBytes)) (ws.flatMap (natLE 4)) 0

/-- The column blocks of an array. -/
def Wg.column (g : Wg) (a n : Nat) : List KBlock := (g.barrs.getD a { st := 0, fmt := 0, cols := [] }).cols.getD n []

/-- Update a row of accumulator words by one sub-step. -/
def subStep (g : Wg) (m : MOp) (first sub : Nat) (split : Bool) (a : List KBlock) (acc : List Nat × Word) : List Nat × Word :=
  if m.cplx then
    (List.range 64).foldl (fun (x : List Nat × Word) n =>
      let r := cmstep (acc.1.getD (2 * n) 0) (acc.1.getD (2 * n + 1) 0) a (g.column first n) (g.column (first + 1) n) split
      (x.1 ++ [r.1.1, r.1.2], x.2 ||| r.2)) ([], acc.2)
  else
    (List.range m.nacc).foldl (fun (x : List Nat × Word) n =>
      let arr := if m.gdir then first + sub else first + n / 64
      let r := mstep (acc.1.getD n 0) a (g.column arr (n % 64))
      (x.1 ++ [r.1], x.2 ||| r.2)) ([], acc.2)

/-- Whether a row of a half-spectrum accumulator takes the split step (R281). -/
def State.splitRow (s : State) (w : Nat) (m : MOp) (row : Nat) : Bool :=
  match m.accTile with
  | some t =>
    let d := (s.tile (coreOfWg w) t).dom
    m.cplx && natBit d 3 && row % (2 ^ (d % 8 + 3) / 2) == 0
  | none => false

/-- One row of one K step of an MLOOP: its new words and flags. -/
def State.loopRow (s : State) (w : Nat) (m : MOp) (i : Nat) : State × Got (List Nat × Word) :=
  let g := s.wgOf w
  let st := m.step
  let row := m.rowOf st + i
  match s.accRead w m row with
  | (s, .fault c e g) => (s, .fault c e g)
  | (s, .ok acc _) =>
    (List.range m.subs).foldl (fun (x : State × Got (List Nat × Word)) t =>
      Got.andThen x fun s acc =>
        Got.andThen (s.rowBlocks w m.loc (i * m.reg 2) m.afmt (if m.cplx && m.afmt = 10 then 12 else planes m.afmt)
          ((m.apos st).toNat + 128 * t) m.cplx) fun s a =>
          (s, .ok (subStep g m (m.first st) t (s.splitRow w m row) a acc) false)) (s, .ok (acc, 0) false)

/-- One step of a running operation: the state and the flags it raised. Rows are performed in ascending order: of an MST or MLD that is
aborted the rows before its step are new and the others old (DESIGN CHOICE, log entry 68). -/
def State.opStep (s : State) (w : Nat) (m : MOp) : State × Got Word :=
  match m.op with
  | .mloop =>
    Got.andThen (gotList (fun s i => s.loopRow w m i) s (List.range m.mrows)) fun s rows =>
      let s := rows.zipIdx.foldl (fun s r => s.accWrite w m (m.rowOf m.step + r.2) r.1.1) s
      (s, .ok (rows.foldl (fun f r => f ||| r.2) 0) false)
  | .mldb =>
    Got.andThen (s.rowBlocks w m.loc (m.step * m.reg 2) (natBits (m.reg 3) 0 4) 12 (natBits (m.reg 3) 8 24) m.cplx) fun s bs =>
      let g := s.wgOf w
      let add' := fun (b : SMap BArr) (a : Nat) (col : List KBlock) => b.modify a fun x => { x with cols := x.cols ++ [col] }
      let b := if m.cplx then add' (add' g.barrs m.arr (bs.map (KBlock.part · 0))) (m.arr + 1) (bs.map (KBlock.part · 1))
        else add' g.barrs m.arr bs
      (s.setWg w { g with barrs := b }, .ok 0 false)
  | .mzero =>
    match m.accTile with
    | some t =>
      let tl := s.tile (coreOfWg w) t
      (s.putPlace { path := 2 } (s.wgOf w).ten 0 (tl.place w 0) (List.replicate tl.size 0) 0, .ok 0 false)
    | none => (s, .ok 0 false)
  | .mst =>
    Got.andThen (s.accRead w m (m.row0 + m.step)) fun s ws =>
      let out := ws.map fun x =>
        if m.msize = 4 then (x, 0) else let v := fp32.decode x; m.mfmt.delivered (v, sigNV [v])
      Got.andThen (s.mPut w m.loc (m.step * m.reg 2) (out.flatMap fun x => natLE m.msize x.1)) fun s _ =>
        (s, .ok (out.foldl (fun f x => f ||| x.2) 0) false)
  | .mld =>
    Got.andThen (s.mGet w m.loc (m.step * m.reg 2) (m.nacc * m.msize)) fun s bs =>
      let out := (List.range m.nacc).map fun j =>
        let v := m.mfmt.decode (leNat ((bs.drop (m.msize * j)).take m.msize))
        fp32.deliver 0 (v, sigNV [v])
      (s.accWrite w m (m.row0 + m.step) (out.map (·.1)), .ok (out.foldl (fun f x => f ||| x.2) 0) false)
  | _ => (s, .ok 0 false)

/-- What a running operation's next step meets. -/
inductive OpEnd where
  | ok (s : State)
  | fault (s : State) (cause ea : Nat)
  | all
  | idle

/-- Perform one step. -/
def State.runOp (s : State) (w num : Nat) : OpEnd :=
  match s.opAt w num with
  | none => .idle
  | some m =>
    if m.st != 1 then .idle
    else if m.length ≤ m.step then .all
    else
      match s.opStep w m with
      | (s, .fault c e _) => .fault s c e
      | (s, .ok f _) => .ok (s.setOp w { m with step := m.step + 1, flags := (wordOf m.flags ||| f).toNat })
/-- Perform the remaining steps. -/
def State.runOps (s : State) (w num : Nat) : Nat → State × OpEnd
  | 0 => (s, .idle)
  | fuel + 1 =>
    match s.runOp w num with
    | .ok t => State.runOps t w num fuel
    | e => (s, e)
/-- More steps than an operation has. -/
def State.opFuel (s : State) (w num : Nat) : Nat := match s.opAt w num with | some m => m.length - m.step + 1 | none => 0

/-- A running operation completes; an MLDB's arrays become VALID. -/
def execMatrixOpComplete (w op : Nat) (s : State) : Res :=
  match s.runOps w op (s.opFuel w op) with
  | (t, .all) =>
    match t.opAt w op with
    | none => .next s
    | some m =>
      let t := if m.op = .mldb then
          let g := t.wgOf w
          t.setWg w { g with barrs := m.arrays.foldl (fun b a => b.modify a fun x => { x with st := 2 }) g.barrs }
        else t
      .next (t.doneOp w m)
  | _ => .next s

/-- A running operation meets a fault (R264): a fault of the walk, one of cause 5 included (R297), goes to the Stoker after the restore and
the operation will be performed again from its beginning; any other fails it. -/
def execMatrixOpFault (w op : Nat) (s : State) : Res :=
  match s.runOps w op (s.opFuel w op) with
  | (t, .fault u cause ea) =>
    match t.opAt w op with
    | none => .next s
    | some m =>
      if 16 ≤ cause then .next (u.failOp w m (cause - 16))
      else if cause = 4 then .next (u.failOp w m cause)
      else
        let u := (u.restoreOp w m).setOp w { m with st := 2, step := 0, flags := 0 }
        let g := u.wgOf w
        let need := if m.op = .mst then Need.store else Need.load
        .next (u.submit g.ten (u.faultOf g.asid ea cause need (.mop w op)))
  | _ => .next s

/-! ### MWAIT, MPOLL and MABORT (R261) -/

/-- MWAIT: it reads and clears MSTAT, whose flags count as the run's own. -/
def execMwait (d a : BitVec 6) (g : Guard) (s : State) : Res :=
  teamTerminal s g true fun s k t r =>
    let wg := s.wgOf t.w
    if !wg.opReached (t.uget r a).toNat then s.blockRun k 8
    else
      let st := wg.mstat
      let s := s.setWg t.w { wg with mstat := 0 }
      (s.deferredEnd k (t.put d.toNat (fun _ => true) fun _ => st) r (st &&& 0x3F)).endRun k r.nextPc
def execMpoll (d : BitVec 6) (g : Guard) (s : State) : Res :=
  uniInstr s g fun s' _ t r => (s', t.uput r d (wordOf (s.wgOf t.w).donePfx), r)

/-- MABORT: fail the workgroup's operations numbered `a` or later; how many. -/
def State.abortOps (s : State) (w a : Nat) : State × Nat :=
  let ms := (s.wgOf w).mops.filter fun m => decide ((m.num + 2 ^ 32 - a) % 2 ^ 32 < 2 ^ 31)
  (ms.foldl (fun s m => s.failOp w m 7) s, ms.length)

end Sys2Proof.Machine
end

