-- ==== Sys2Proof/Machine/Network.lean ====
section
/-! DEFINITION. The network engine and the Kazid Link: command chains (R329..R334), requests sent to peers (R335, R340..R345), requests and
accesses of peers served here (R336..R340, R344, R59), and ports (R341). -/

namespace Sys2Proof.Machine

/-! ### Chains and requests (R329, R330) -/

def State.ncTenant (s : State) (c : Nat) : Nat := natBits (s.reg (oNccfg c)) 0 4
def State.ncAsid (s : State) (c : Nat) : Nat := natBits (s.reg (oNccfg c)) 32 12
def State.ncRun (s : State) (c : Nat) : Bool := natBit (s.reg (oNccfg c)) 8
def State.ncPub (s : State) (c : Nat) : Nat := s.reg (oNcpub c)
def State.ncSeq (s : State) (c : Nat) : Nat := s.reg (oNcseq c)

/-- Bytes of a request. -/
def NReq.f (r : NReq) (off n : Nat) : Nat := (r.req.extractLsb' (8 * off) (8 * n)).toNat
def NReq.op (r : NReq) : Nat := r.f 0 1
def NReq.fnc (r : NReq) : Bool := natBit (r.f 1 1) 0
def NReq.ord (r : NReq) : Bool := natBit (r.f 1 1) 1
def NReq.ntfy (r : NReq) : Bool := natBit (r.f 1 1) 2
def NReq.pix (r : NReq) : Nat := r.f 2 2
def NReq.len (r : NReq) : Nat := r.f 4 4
def NReq.laddr (r : NReq) : Nat := r.f 8 8
def NReq.roff (r : NReq) : Nat := r.f 16 8
def NReq.land (r : NReq) : Nat := r.f 24 2
def NReq.etype (r : NReq) : Nat := r.f 26 1
def NReq.rchain (r : NReq) : Nat := r.f 28 4
def NReq.noff (r : NReq) : Nat := r.f 32 8
def NReq.simm (r : NReq) : Nat := r.f 40 8
def NReq.next (r : NReq) : Nat := r.f 56 8
/-- Element size of a PUTADD. -/
def elemSize (etype : Nat) : Nat := if etype = 3 then 8 else 4

/-- Whether a request breaks R330: a reserved value, a field that its OP does not use, or a misaligned one. -/
def NReq.invalid (r : NReq) : Bool :=
  let op := r.op
  let data := op == 1 || op == 2 || op == 3 || op == 5
  let landed := op == 1 || op == 2 || op == 5
  op == 0 || decide (6 < op) || decide (8 ≤ r.f 1 1) || decide (4096 ≤ r.pix) || decide (1024 ≤ r.land) || r.f 27 1 != 0 || r.f 48 8 != 0 ||
    (!data && (r.pix != 0 || r.ord)) || (!landed && (r.roff != 0 || r.land != 0)) || (op != 5 && r.etype != 0) || (op != 3 && (r.rchain != 0 || r.simm != 0)) ||
    (if op == 6 then r.len != 0 || r.laddr != 0 else r.len == 0 || decide (2 ^ 30 < r.len)) ||
    (if r.ntfy then !(op == 1 || op == 5) || r.noff % 8 != 0 else r.noff != 0) ||
    (op == 5 && (decide (3 < r.etype) || r.laddr % elemSize r.etype != 0 || r.roff % elemSize r.etype != 0 || r.len % elemSize r.etype != 0))

/-- The requests of a chain that have been read, and one of them. -/
def State.chainReqs (s : State) (c : Nat) : SMap NReq := s.nreqs.getD c []
def State.nreq (s : State) (c p : Nat) : Option NReq := (s.chainReqs c).find? p
def State.setNreq (s : State) (c p : Nat) (r : NReq) : State := { s with nreqs := s.nreqs.insert c ((s.chainReqs c).insert p r) }

/-! ### NTAIL, NSEQ and NWAIT (R331..R333) -/

/-- NTAIL: publish `n` positions of chain `c` for a workgroup; the new published count, or 0. The last of them is noted with the launch. -/
def State.ntail (s : State) (w c n : Nat) : State × Nat :=
  let g := s.wgOf w
  let pub := s.ncPub c
  if s.ncTenant c != g.ten || s.ncAsid c != g.asid || !s.ncRun c || n == 0 || decide (256 < n) || decide (4096 + s.ncSeq c < pub + n) then (s, 0)
  else
    ({ s with nends := s.nends.insert c (s.nends.getD c [] ++ [(pub + n, g.q, g.pos)]) }.setReg (oNcpub c) (pub + n), pub + n)

def execNseq (d a : BitVec 6) (g : Guard) (s : State) : Res :=
  uniInstr s g fun s' _ t r => (s', t.uput64 r d (dwordOf (s.chainSeq (s.wgOf t.w).ten ((t.uget r a).toNat % 4096))), r)
def execNwait (a b : BitVec 6) (g : Guard) (s : State) : Res :=
  teamTerminal s g false fun s k t r =>
    if s.chainSeq (s.wgOf t.w).ten ((t.uget r b).toNat % 4096) < (t.uget64 r a).toNat then s.blockRun k 9 else s.endRun k r.nextPc

/-! ### Memory on path N -/

/-- Reach a virtual address of an ASID: translated as for the first core die (R292, R293; log entry 49). -/
def State.netReach (s : State) (asid va : Nat) (need : Need) : State × Reach :=
  if 2 ^ 48 ≤ va then (s, .cause 4) else s.reachGlobal 0 asid va need
/-- Read bytes, block by block. -/
def State.netRead (s : State) (asid va n : Nat) : State × Got (List Byte) :=
  let d := s.dte asid
  Got.andThen (gotList (fun s p =>
    match s.netReach asid p.1 .load with
    | (s, .cause c) => (s, .fault c p.1 none)
    | (s, .at' pl gpa) => let x := s.getPlace (dteTenant d) gpa pl p.2 (dteKtag d); (x.1, .ok x.2.1 x.2.2)) s (cuts (n + 1) va n))
    fun s bs => (s, .ok bs.flatten false)

/-- What stops a write: a fault, or a line that a host holds cached and that is to be read and written as one step (R56). -/
inductive NetStop where
  | fault (cause ea : Nat)
  | held
  deriving DecidableEq, Repr

/-- Write bytes that lie in one block on a path, where `f` is given as what it makes of the bytes there and these, in one step; a poisoned
source poisons the block. -/
def State.netPut (s : State) (path asid va : Nat) (bytes : List Byte) (bad : Bool) (f : Option (List Byte → List Byte → List Byte))
    (need : Need) : State × Option NetStop :=
  let d := s.dte asid
  match s.netReach asid va need with
  | (s, .cause c) => (s, some (.fault c va))
  | (s, .at' p gpa) =>
    if bad then (s.spoilBy { path := path } (dteTenant d) p, none)
    else
      match f with
      | none => (s.putPlace { path := path } (dteTenant d) gpa p bytes (dteKtag d), none)
      | some f =>
        match s.placeHeld p with
        | (s, true) => (s, some .held)
        | (s, false) => (s.putPlace { path := path } (dteTenant d) gpa p (f (s.placeBytes p bytes.length) bytes) (dteKtag d), none)

/-- Add an element of a PUTADD (R339). -/
def addElem (etype : Nat) (old new : List Byte) : List Byte :=
  let m := leNat old
  let x := leNat new
  natLE new.length (match etype with
    | 1 => (fp32.deliver 0 ((fp32.decode m).add 0 (fp32.decode x))).1
    | 2 => ((List.range 2).map fun h =>
        (bf16.deliver 0 ((bf16.decode (natBits m (16 * h) 16)).add 0 (bf16.decode (natBits x (16 * h) 16)))).1 * 2 ^ (16 * h)).sum
    | _ => m + x)

/-- Write bytes from `placed` on: block by block, or, where they are elements to add, each as one step of its own (R339). How many stand
then, and what ended it. -/
def State.netWrite (s : State) (asid va : Nat) (bytes : List Byte) (bad : Bool) (add : Option Nat) :
    Nat → Nat → State × Nat × Option NetStop
  | 0, placed => (s, placed, none)
  | fuel + 1, placed =>
    if bytes.length ≤ placed then (s, placed, none)
    else
      let a := va + placed
      let k := min (bytes.length - placed) (match add with | some e => elemSize e | none => 64 - a % 64)
      match s.netPut 4 asid a ((bytes.drop placed).take k) bad (add.map addElem) .store with
      | (s, some x) => (s, placed, some x)
      | (s, none) => State.netWrite s asid va bytes bad add fuel (placed + k)

/-- A fault of path N for the Stoker. -/
def State.netFault (s : State) (asid va cause : Nat) (need : Need) (who : Waiter) : State :=
  s.submit (dteTenant (s.dte asid)) (s.faultOf asid va cause need who)
/-- Whether a fault of a waiter stands at the Stoker. -/
def State.atStoker (s : State) (ten : Nat) (who : Waiter) : Bool := (s.tenant ten).faults.any fun f => f.waiter == who

/-! ### Ports (R341, R343, R344, R388) -/

/-- The ports in service that reach a node: none before the device has its own node number (R343). -/
def State.ports (s : State) (node : Nat) : List Nat :=
  if natBit (s.reg oKznode) 31 then (List.range 36).filter fun p => Config.portReach p node && !s.portsDown.has p else []
/-- Whether a message may travel: the Kazid Link carries nothing until KZNODE.VALID is 1 (R343). -/
def State.linkOk (s : State) (uet : Bool) : Bool := uet || natBit (s.reg oKznode) 31
/-- A port's source: which port a request meets is the transport's choice (log entry 6). -/
def State.anyPort (s : State) (uet : Bool) : Nat × State :=
  let (n, s) := s.freshNat
  (if uet then 0x0C000000 + n % 10 else srcPort (n % 36), s)

/-- Something that has arrived waits at its port. -/
def State.hold (s : State) (i : Arrival) : State := { s with portHeld := s.portHeld ++ [.arrival i] }
/-- What waits at the ports arrives again. -/
def State.unhold (s : State) : State :=
  if s.portHeld.isEmpty then s else { s with agenda := s.agenda ++ s.portHeld, portHeld := [] }
/-- Whether the core domain is below H0, and no reset holds it. -/
def State.asleep (s : State) : Bool := !s.resetting && s.hst != 0
/-- Traffic that arrives below H0 waits at its port, and wakes the device (R388). -/
def State.holdAsleep (s : State) (i : Arrival) : State :=
  { s.hold i with waking := true, agenda := s.agenda ++ [.event .powerStateExit] }

/-! ### Completion (R334, R345) -/

/-- Whether a status is recorded as an error. -/
def statusError (st : Nat) : Bool := st == 1 || st == 3 || (decide (0x10 ≤ st) && decide (st ≤ 0x16)) || st == 0x20

/-- The completion record of Table 19.8. -/
def ncRecord (c p : Nat) (r : NReq) : List Byte :=
  let m := r.matched.getD (0, 0, 0)
  natLE 4 (srcChain c) ++ natLE 4 r.status ++ natLE 8 p ++ natLE 8 r.bytes ++ natLE 8 r.imm.toNat ++ natLE 2 r.peer ++ natLE 2 0 ++
    natLE 4 m.2.1 ++ natLE 8 m.2.2 ++ natLE 16 0

/-- Cover the contiguous completed positions: each record is written before CSEQ covers it. -/
def State.cover (s : State) (c : Nat) : Nat → State
  | 0 => s
  | fuel + 1 =>
    let p := s.ncSeq c + 1
    match s.nreq c p with
    | none => s
    | some r =>
      if r.st != 3 then s
      else
        let q := s.reg (oNccq c)
        let slot := natBits q 6 42 * 64 + 64 * ((p - 1) % (16 * 2 ^ natBits q 0 4))
        let s := { s with seq := s.seq.setD (srcChain c) (p + 1) 1 }
        let s := match s.writeVa (s.ncAsid c) slot (ncRecord c p r) { path := 4 } with
          | some s => s
          | none => s.lostRecord srcChimney (s.ncTenant c) 7
        let s := { s with
          nreqs := s.nreqs.insert c ((s.chainReqs c).erase p)
          nends := if s.nends.has c then s.nends.insert c ((s.nends.getD c []).filter fun e => decide (p < e.1)) else s.nends }
        State.cover (s.setReg (oNcseq c) p) c fuel

/-- A request has its status: it is finished, a failure noted with the port that met it, over UET or not, or with the Chimney. -/
def State.finish (s : State) (c p : Nat) (r : NReq) (status bytes : Nat) (port : Option Bool) : State :=
  let (src, s) := match port with | some uet => if statusError status then s.anyPort uet else (0, s) | none => (srcChimney, s)
  s.setNreq c p { r with st := 2, status := status, bytes := bytes, refused := false, wait := 0, data := none, src := src }
/-- A finished request completes: its failure is recorded now, since one that a core reset takes before ends with 0x02 and no record (R334). -/
def State.complete (s : State) (c p : Nat) (r : NReq) : State :=
  let s :=
    if statusError r.status then
      s.report r.src { cat := 4, code := 4, ten := some (s.ncTenant c), asid := some (s.ncAsid c), aux0 := r.status, aux1 := p,
                       psrc := srcChain c, pseq := p }
    else s
  (s.setNreq c p { r with st := 3 }).cover c ((s.chainReqs c).length + 1)

/-- A finished request completes, unless a core reset has taken it (R346). -/
def execNetRequestComplete (ch pos : Nat) (s : State) : Res :=
  match s.nreq ch pos with
  | some r => .next (if r.st = 2 && !s.coreDown then s.complete ch pos r else s)
  | none => .next s

/-! ### Reading requests (R332) -/

/-- A request as it is read. -/
def NReq.mk' (req : BitVec 512) : NReq :=
  { req := req, st := 0, status := 0, wait := 0, data := none, acked := [], part := [], poison := false, retries := [], sendRetries := 0,
    refused := false, matched := none, bytes := 0, peer := 0, imm := 0 }

/-- An unreadable request stops the chain: it completes with 0x20, the positions after it with 0x21. -/
def State.unreadable (s : State) (c p : Nat) : State :=
  let pub := s.ncPub c
  let s := s.setReg (oNccfg c) (natPut (s.reg (oNccfg c)) 8 1 0)
  let s := { s with nread := s.nread.insert c pub, nnext := s.nnext.erase c }
  let s := (List.range (pub - p)).foldl (fun s j => s.setNreq c (p + 1 + j) { NReq.mk' 0 with st := 3, status := 0x21 }) s
  let r := { NReq.mk' 0 with st := 2, status := 0x20, src := srcChimney }
  (s.setNreq c p r).complete c p r

/-- Whether a chain has a published position to read, and no fault of that read stands at the Stoker. -/
def State.mayRead (s : State) (ch : Nat) : Bool :=
  !s.coreDown && s.ncRun ch && decide (s.nread.getD ch 0 < s.ncPub ch) && !s.atStoker (s.ncTenant ch) (.read ch)

/-- Read the next published request of a chain: the first of those that an NTAIL published at NCHEAD, each following one at the NEXT of the
one before. After the last of them, NCHEAD is that request's NEXT. -/
def State.readNext (s : State) (ch : Nat) : State :=
  let p := s.nread.getD ch 0 + 1
  let a := match s.nnext.find? ch with | some a => a | none => natBits (s.reg (oNchead ch)) 6 42 * 64
  if decide (2 ^ 48 ≤ a) || a % 64 != 0 then s.unreadable ch p
  else
    match s.netRead (s.ncAsid ch) a 64 with
    | (s, .fault c e _) => if c = 4 then s.unreadable ch p else s.netFault (s.ncAsid ch) e c .load (.read ch)
    | (s, .ok bs bad) =>
      if bad then s.unreadable ch p
      else
        let r := NReq.mk' (BitVec.ofNat 512 (leNat bs))
        let s := { (s.setNreq ch p r) with nread := s.nread.insert ch p }
        if p = s.ncPub ch || (s.nends.getD ch []).any fun e => e.1 == p then
          { s with nnext := s.nnext.erase ch }.setReg (oNchead ch) (natBits r.next 6 42 * 64)
        else { s with nnext := s.nnext.insert ch r.next }

/-- The engine reads the next published request of a chain. -/
def execNetRequestRead (ch : Nat) (s : State) : Res := .next (if s.mayRead ch then s.readNext ch else s)

/-! ### Sending (R334, R335, R340, R342, R343) -/

/-- A peer entry. -/
def State.peerLo (s : State) (ten i : Nat) : Nat := s.reg (oPeer ten i)
def State.peerKind (s : State) (ten i : Nat) : Nat := natBits (s.peerLo ten i) 32 2
def State.peerAddr (s : State) (ten i : Nat) : Nat := natBits (s.peerLo ten i) 0 24
def State.peerKey (s : State) (ten i : Nat) : Nat := natBits (s.reg (oPeer ten i + 8)) 0 16
/-- Whether a chain's request goes over UET. -/
def State.reqUet (s : State) (c : Nat) (r : NReq) : Bool := s.peerKind (s.ncTenant c) r.pix == 2

/-- The requests under ORD before position `p` of a chain that go to the same peer and have not ended: they are started, delivered and,
where SENDs, matched in the order of their positions (R330, R340, R342; log entry 55). -/
def State.ordBefore (s : State) (c p : Nat) (r : NReq) : List (Nat × NReq) :=
  let ten := s.ncTenant c
  let to' := fun (x : NReq) => (s.peerKind ten x.pix, s.peerAddr ten x.pix)
  if r.ord then
    List.filter (fun (x : Nat × NReq) => decide (x.1 < p) && decide (x.2.st ≤ 1) && x.2.ord && !x.2.invalid && to' x.2 == to' r) (s.chainReqs c)
  else []

/-- The message of a request with its payload: which try of a SEND it is of, and the one packet that a GET asks for again (log entry 55). -/
def State.netMsg (s : State) (c p : Nat) (r : NReq) (data : List Byte) (only : Option Nat) : NetMsg :=
  let ten := s.ncTenant c
  let before := s.ordBefore c p r
  let last := fun (xs : List (Nat × NReq)) => match xs.getLast? with | some x => x.1 | none => 0
  { node := s.peerAddr ten r.pix, uet := s.reqUet c r, chain := c, pos := p, op := BitVec.ofNat 8 r.op,
    key := BitVec.ofNat 16 (s.peerKey ten r.pix), land := r.land, roff := r.roff, len := r.len, data := data, poison := false,
    ntfy := if r.ntfy then some r.noff else none, etype := BitVec.ofNat 8 r.etype, rchain := r.rchain, ord := r.ord,
    prev := last before, sprev := last (before.filter fun x => x.2.op == 3 && x.2.rchain == r.rchain), imm := dwordOf r.simm,
    tries := r.sendRetries, only := only }
/-- Offsets and lengths of the packets of a message: up to 4,096 bytes over UET, one transfer over the Kazid Link. -/
def packets (uet : Bool) (len : Nat) : List (Nat × Nat) :=
  if uet then (List.range ((len + 4095) / 4096)).map fun j => (4096 * j, min 4096 (len - 4096 * j)) else [(0, len)]
/-- Send packets of a request with the data they carry; each takes whatever port the spray picks, of the ten of Ethernet or of those that
reach the node. -/
def State.send (s : State) (c p : Nat) (r : NReq) (data : List Byte) (ps : List (Nat × Nat)) (only : Option Nat := none) : State :=
  let ports := if s.reqUet c r then List.range 10 else s.ports (s.peerAddr (s.ncTenant c) r.pix)
  ps.foldl (fun s x =>
    let (n, s) := s.freshNat
    s.emit (.wire (ports.getD (n % ports.length) 0) x.1 (s.netMsg c p r ((data.drop x.1).take x.2) only))) s

/-- Send `ps` of a request, whose local source is read once: poison sends nothing, a fault goes to the Stoker. A GET asks for all its packets,
or again for one that it misses. -/
def State.sendFrom (s : State) (c p : Nat) (r : NReq) (ps : List (Nat × Nat)) : State :=
  let go := fun (s : State) (bs : List Byte) => (s.setNreq c p { r with st := 1, wait := 0, data := some bs }).send c p r bs ps
  if r.op = 2 then
    let s := s.setNreq c p { r with st := 1 }
    if ps.length = (packets (s.reqUet c r) r.len).length then s.send c p r [] [(0, r.len)] else s.send c p r [] ps (ps.head?.map (·.1))
  else
    match r.data with
    | some bs => go s bs
    | none =>
      match s.netRead (s.ncAsid c) r.laddr r.len with
      | (s, .fault cs e _) =>
        if cs = 4 then s.finish c p r 0x11 0 none
        else (s.setNreq c p { r with wait := 1 }).netFault (s.ncAsid c) e cs .load (.net c p)
      | (s, .ok bs bad) => if bad then s.finish c p r 1 0 none else go s bs

/-- Whether a position may start: published, read, fewer than 64 of the chain running, under FNC every earlier one complete, and under
ORD those to the same peer started. -/
def State.mayStart (s : State) (c p : Nat) (r : NReq) : Bool :=
  let rs := s.chainReqs c
  let stopped := rs.any fun x => decide (p < x.1) && x.2.status == 0x20
  !s.coreDown && r.st = 0 && r.wait != 1 && (s.ncRun c || stopped) && decide ((rs.filter fun x => x.2.st == 1).length < 64) &&
    (!r.fnc || (rs.all fun x => decide (p ≤ x.1) || x.2.st == 3)) && ((s.ordBefore c p r).all fun x => x.2.st == 1)

/-- Whether no port leads to a request's peer. -/
def State.noRoute (s : State) (c : Nat) (r : NReq) : Bool :=
  s.peerKind (s.ncTenant c) r.pix == 1 && (s.ports (s.peerAddr (s.ncTenant c) r.pix)).isEmpty

def execNetRequestStart (ch pos : Nat) (s : State) : Res :=
  match s.nreq ch pos with
  | none => .next s
  | some r =>
    if !s.mayStart ch pos r then .next s
    else if r.invalid then .next (s.finish ch pos r 0x10 0 none)
    else
      match r.op with
      | 6 => .next (s.finish ch pos r 0 0 none)
      | 4 => .next (s.setNreq ch pos { r with st := 1 })
      | _ =>
        let ten := s.ncTenant ch
        let kind := s.peerKind ten r.pix
        if kind = 0 || kind = 3 then .next (s.finish ch pos r 0x10 0 none)
        else if kind = 2 && !natBit (s.reg (oFep (s.peerAddr ten r.pix % 4096) + 16)) 56 then .next (s.finish ch pos r 0x10 0 none)
        else if s.noRoute ch r then .next (s.finish ch pos r 0x13 0 none)
        else if r.wait = 2 then .next (s.finish ch pos r 0x11 0 none)
        else .next (s.sendFrom ch pos r (packets (kind == 2) r.len))

/-- Bytes covered by acknowledged ranges, and those acknowledged or placed, of the packets in hand too. -/
def NReq.ackedBytes (r : NReq) : Nat := (r.acked.map (·.2)).sum
def NReq.placed (r : NReq) : Nat := r.ackedBytes + (r.part.map (·.2)).sum

/-- An acknowledgement or refusal arrives from the peer: a range placed, or a status. A refusal for want of a RECV names in `len` the try that
it answers (log entry 55): one of an earlier try says nothing. -/
def execNetAckReceive (ch pos off len : Nat) (st : BitVec 8) (s : State) : Res :=
  match s.nreq ch pos with
  | none => .next (if s.asleep then s.holdAsleep (.ack ch pos off len st) else s)
  | some r =>
    let uet := s.reqUet ch r
    if !s.linkOk uet then .next s
    else if s.asleep then .next (s.holdAsleep (.ack ch pos off len st))
    else if s.coreDown || r.st != 1 || r.op = 4 || (r.op = 2 && st == 0) then .next s
    else
      match st.toNat with
      | 0 =>
        let r := if r.acked.any fun x => x.1 == off then r else { r with acked := r.acked ++ [(off, len)] }
        .next (if r.len ≤ r.ackedBytes then s.finish ch pos r 0 r.len (some uet) else s.setNreq ch pos r)
      | 0x15 =>
        .next (if r.refused || len != r.sendRetries then s
          else if 7 ≤ r.sendRetries then s.finish ch pos r 0x15 0 (some uet) else s.setNreq ch pos { r with refused := true })
      | 0x14 => .next (s.finish ch pos r 0x14 len (some uet))
      | 0x12 => .next (s.finish ch pos r 0x12 0 (some uet))
      | n => .next (if statusError n then s.finish ch pos r n r.placed (some uet) else s)

/-- A packet is not acknowledged in time: it is sent again, 7 times at most (R342). Those of a SEND that has been refused are answered. -/
def execUetRetransmitTimeout (ch pos off : Nat) (s : State) : Res :=
  match s.nreq ch pos with
  | none => .next s
  | some r =>
    let ps := (packets true r.len).filter fun x => x.1 == off
    if s.coreDown || r.st != 1 || r.op = 4 || r.refused || !s.reqUet ch r || ps.isEmpty || r.acked.any (fun x => x.1 == off) then .next s
    else if 7 ≤ r.retries.getD off 0 then .next (s.finish ch pos r 0x13 r.placed (some true))
    else .next (s.sendFrom ch pos { r with retries := r.retries.insert off (r.retries.getD off 0 + 1) } ps)

/-- A refused SEND is tried again (R340), as long as a port leads to its peer: its packets count their retransmissions anew. -/
def execSendRetry (ch pos : Nat) (s : State) : Res :=
  match s.nreq ch pos with
  | some r =>
    .next (if s.coreDown || !r.refused || r.st != 1 then s
      else if s.noRoute ch r then s.finish ch pos r 0x13 0 none
      else s.sendFrom ch pos { r with refused := false, sendRetries := r.sendRetries + 1, retries := [] } (packets (s.reqUet ch r) r.len))
  | none => .next s

/-! ### Requests of peers (R336..R340, R344) -/

/-- A landing entry's words. -/
def State.landWord (s : State) (i j : Nat) : Nat := s.reg (oLand i + 8 * j)
def State.landTenant (s : State) (i : Nat) : Nat := natBits (s.landWord i 0) 4 4
def State.landAsid (s : State) (i : Nat) : Nat := natBits (s.landWord i 0) 20 12
def State.landKey (s : State) (i : Nat) : Nat := natBits (s.landWord i 0) 48 16
def State.landSize (s : State) (i : Nat) : Nat := natBits (s.landWord i 1) 0 24 * 4096
def State.landBase (s : State) (i : Nat) : Nat := natBits (s.landWord i 2) 0 48
/-- The checks of R336: enabled, key, the permission bits (R 2, W 4, A 8) and the extent. -/
def State.landOk (s : State) (i : Nat) (key : BitVec 16) (perm roff len : Nat) : Bool :=
  let e := s.landWord i 0
  decide (i < 1024) && natBit e 0 && s.landKey i == key.toNat && (e &&& perm == perm) && decide (roff + len ≤ s.landSize i)

/-- A request of which nothing has arrived yet. -/
def Incoming.new (uet : Bool) (node ch pos : Nat) : Incoming :=
  { uet := uet, node := node, chain := ch, pos := pos, seen := [], part := [], total := 0, wait := 0, recv := none, deliv := false, fin := none }
/-- Whether an entry is the one of a request. -/
def Incoming.is (e : Incoming) (uet : Bool) (node ch pos : Nat) : Bool := e.uet == uet && e.node == node && e.chain == ch && e.pos == pos
/-- The entry of a request under way. -/
def State.incAt (s : State) (uet : Bool) (node ch pos : Nat) : Incoming :=
  (s.incoming.find? fun e => e.is uet node ch pos).getD (Incoming.new uet node ch pos)
def State.setInc (s : State) (e : Incoming) : State :=
  { s with incoming := s.incoming.filter (fun x => !x.is e.uet e.node e.chain e.pos) ++ [e] }
/-- The entry of a message. -/
def State.incOf (s : State) (m : NetMsg) : Incoming := s.incAt m.uet m.node m.chain m.pos

/-- Answer a peer. -/
def State.answer (s : State) (m : NetMsg) (off len st : Nat) (bytes : List Byte) : State :=
  s.emit (.reply m.uet m.node m.chain m.pos off len st bytes)
/-- An error record to a landing's tenant, from the port. -/
def State.landError (s : State) (m : NetMsg) (ten st : Nat) : State :=
  let (src, s) := s.anyPort m.uet
  s.report src { cat := 4, code := 4, ten := some ten, aux0 := st, aux1 := m.pos }
/-- Refuse a whole request before any byte is placed, with its record. -/
def State.refuse (s : State) (m : NetMsg) (st : Nat) : State :=
  ((s.setInc { s.incOf m with deliv := true, fin := some (0, st) }).landError m (s.landTenant m.land) st).answer m 0 0 st []
/-- Refuse a request with 0x03, for the core reset or for its chain that is stopped: it stays refused, and moves no more (R345, R346). -/
def State.refuseReset (s : State) (m : NetMsg) : State :=
  let e := s.incOf m
  let s := if e.fin.isSome then s else s.setInc { e with wait := 0, deliv := true, fin := some (e.total, 3) }
  s.answer m 0 0 3 []

/-- A tenant's peer index of a sender, or 0xFFFF (Table 19.8). -/
def State.peerIx (s : State) (ten : Nat) (uet : Bool) (node : Nat) : Nat :=
  ((List.range 4096).find? fun i => s.peerKind ten i == (if uet then 2 else 1) && s.peerAddr ten i == node).getD 0xFFFF
/-- A RECV is matched: the sender and its IMM are noted. -/
def State.matchRecv (s : State) (m : NetMsg) (c : Nat) (r : NReq) : NReq :=
  { r with st := 1, matched := some (m.node, m.chain, m.pos), imm := m.imm, peer := s.peerIx (s.ncTenant c) m.uet m.node }
/-- The RECV of a SEND is finished: its status and the bytes placed. -/
def State.recvEnd (s : State) (e : Incoming) (st bytes : Nat) (port : Option Bool) : State :=
  match e.recv with
  | none => s
  | some (c, p) =>
    match s.nreq c p with
    | none => s
    | some r => s.finish c p r st bytes port

/-- Placement stops for good (R340): the sender learns 0x16, a matched RECV completes with 0x11. -/
def State.placeFail (s : State) (m : NetMsg) (e : Incoming) : State :=
  let s := (s.setInc { e with wait := 0, deliv := true, fin := some (e.total, 0x16) }).recvEnd e 0x11 e.total none
  (s.landError m (s.landTenant m.land) 0x16).answer m 0 e.total 0x16 []

/-- Placement, or the reading of a GET's source, stops: a fault goes to the Stoker, unless it is none that the Stoker resolves; the
message waits at its port. -/
def State.stopPlace (s : State) (m : NetMsg) (asid : Nat) (e : Incoming) (i : Arrival) (need : Need) : NetStop → State
  | .held => (s.setInc e).hold i
  | .fault c ea =>
    if c = 4 then s.placeFail m e
    else ((s.setInc { e with wait := 1 }).netFault asid ea c need (.inc m.uet m.node m.chain m.pos)).hold i

/-- The notify add (R338), once every byte is placed. -/
def State.notify (s : State) (m : NetMsg) (tg : Target) : State × Option NetStop :=
  match m.ntfy with
  | none => (s, none)
  | some o => s.netPut 4 tg.asid (tg.va - m.roff + o) (natLE 8 1) false (some (addElem 3)) .store

/-- Place a transfer's bytes at its offset, at most once, in the target found when it was accepted; when all of the message is placed, notify
or complete, and acknowledge. -/
def State.placeAt (s : State) (m : NetMsg) (off : Nat) (tg : Target) (e : Incoming) (i : Arrival) : State :=
  let e := { e with target := some tg }
  let bytes := m.data.take (tg.room - off)
  let had := e.part.getD off 0
  match s.netWrite tg.asid (tg.va + off) bytes m.poison (if m.op == 5 then some m.etype.toNat else none) (bytes.length + 1) had with
  | (s, n, stop) =>
    let e := { e with total := e.total + (n - had) }
    let go := { e with part := e.part.insert off n }
    let fin := { e with seen := off :: e.seen, part := e.part.erase off, wait := 0 }
    match stop with
    | some x => s.stopPlace m tg.asid go i .store x
    | none =>
      if min m.len tg.room ≤ e.total then
        match s.notify m tg with
        | (s, some x) => s.stopPlace m tg.asid go i .store x
        | (s, none) =>
          if tg.room < m.len then
            ((s.setInc { fin with deliv := true, fin := some (tg.room, 0x14) }).recvEnd e 0x14 tg.room (some m.uet)).answer m off tg.room 0x14 []
          else
            ((s.setInc { fin with deliv := true, fin := some (m.len, 0) }).recvEnd e 0 m.len (some m.uet)).answer m off m.data.length 0 []
      else (s.setInc fin).answer m off m.data.length 0 []

/-- Whether a packet under ORD comes in its turn (R342): over UET the request before it is delivered, and its own earlier packets. -/
def State.inTurn (s : State) (m : NetMsg) (off : Nat) (e : Incoming) : Bool :=
  !(m.ord && m.uet) || ((m.prev == 0 || (s.incAt m.uet m.node m.chain m.prev).deliv) && (off == 0 || e.seen.contains (off - 4096)))

/-- What is done is answered again: a GET's packets, or the one asked for again; a transfer's acknowledgement (R344). -/
def State.again (s : State) (m : NetMsg) (off : Nat) (e : Incoming) : State :=
  if e.reply.isEmpty then s.answer m off m.data.length 0 []
  else (e.reply.filter fun x => m.only.all (· == x.1)).foldl (fun s x => s.answer m x.1 x.2.1 (if x.2.2.2 then 1 else 0) x.2.2.1) s
/-- A transfer of a request arrives, as `i`: `go` once its target is known. During a core reset it is refused (R346); below H0
it is held at its port (R388). -/
def State.arrive (s : State) (m : NetMsg) (off : Nat) (i : Arrival) (go : Incoming → State) : State :=
  let e := s.incOf m
  if !s.linkOk m.uet then s
  else if s.resetting then s.refuseReset m
  else if s.coreDown then s.holdAsleep i
  else
    match e.fin with
    | some (n, st) => if st = 0 then s.again m off e else s.answer m off n st []
    | none =>
      if e.seen.contains off then s.answer m off m.data.length 0 []
      else if e.wait = 1 then s.hold i
      else if e.wait = 2 then s.placeFail m e
      else if !s.inTurn m off e then s
      else go e

/-- A PUT or PUTADD, or a packet of one. Its landing is checked when its first packet is accepted, and not again (R336, R344). -/
def State.takePut (s : State) (m : NetMsg) (off : Nat) : State :=
  let i := Arrival.packet m off
  s.arrive m off i fun e =>
    let perm := if m.op == 5 then 8 else 4
    let n := match m.ntfy with | some o => decide (o + 8 ≤ s.landSize m.land) && natBit (s.landWord m.land 0) 2 && o % 8 == 0 | none => true
    match e.target with
    | some tg => s.placeAt m off tg e i
    | none =>
      if !(s.landOk m.land m.key perm m.roff m.len && n) then s.refuse m 0x12
      else s.placeAt m off { asid := s.landAsid m.land, va := s.landBase m.land + m.roff, room := m.len } e i

/-- The lowest unmatched RECV of a chain that a SEND may take, of those read (R340). -/
def State.openRecv (s : State) (c : Nat) : Option Nat :=
  match List.find? (fun (x : Nat × NReq) => x.2.op == 4 && !x.2.invalid && x.2.matched.isNone && decide (x.2.st ≤ 1)) (s.chainReqs c) with
  | some x => if x.2.st == 1 || s.mayStart c x.1 x.2 then some x.1 else none
  | none => none
/-- The same of all that are published: requests are read until there is one. -/
def State.findRecv (s : State) (c : Nat) : Nat → State × Option Nat
  | 0 => (s, s.openRecv c)
  | fuel + 1 =>
    match s.openRecv c with
    | some p => (s, some p)
    | none => if s.mayRead c then State.findRecv (s.readNext c) c fuel else (s, none)

/-- A SEND, or a packet of one: it presents its key to landing 0, and is matched when its first packet is accepted. One that finds no
RECV is refused, with every packet of that try, and so is one under ORD before which another is not matched yet. -/
def State.takeSend (s : State) (m : NetMsg) (off : Nat) : State :=
  let i := Arrival.packet m off
  s.arrive m off i fun e =>
    let c := m.rchain
    let place := fun (s : State) (p : Nat) =>
      match s.nreq c p with
      | none => s.refuseReset m
      | some r =>
        (s.setNreq c p (s.matchRecv m c r)).placeAt m off
          { asid := s.ncAsid c, va := r.laddr, room := r.len } { e with recv := some (c, p) } i
    let none' := fun (s : State) => (s.setInc { e with deliv := true, refused := some (max m.tries (e.refused.getD 0)) }).answer m off m.tries 0x15 []
    let before := s.incAt m.uet m.node m.chain m.sprev
    match e.target with
    | some tg => s.placeAt m off tg e i
    | none =>
      if s.landKey 0 != m.key.toNat || decide (4096 ≤ c) || s.ncTenant c != s.landTenant 0 then s.refuse { m with land := 0 } 0x12
      else if !s.ncRun c then s.refuseReset m
      else if e.refused.any fun n => decide (m.tries ≤ n) then none' s
      else if m.ord && m.sprev != 0 && before.recv.isNone && before.fin.isNone then none' s
      else
        match s.findRecv c (s.ncPub c - s.nread.getD c 0) with
        | (s, some p) => place s p
        | (s, none) =>
          if s.atStoker (s.ncTenant c) (.read c) then s.hold i else if s.ncRun c then none' s else s.refuseReset m

def execIncomingPut (m : NetMsg) (s : State) : Res := .next (s.takePut { m with op := 1 } 0)
def execIncomingPutadd (m : NetMsg) (s : State) : Res := .next (s.takePut { m with op := 5 } 0)
def execIncomingSend (m : NetMsg) (s : State) : Res := .next (s.takeSend { m with op := 3 } 0)

/-- Serve bytes of a landing to a peer, in packets over UET: one with a poisoned block is carried with status 1. -/
def State.serve (s : State) (m : NetMsg) (tg : Target) (e : Incoming) : State :=
  let x := gotList (fun s x =>
    match s.netRead tg.asid (tg.va + x.1) x.2 with
    | (s, .fault c ea g) => (s, Got.fault c ea g)
    | (s, .ok bs bad) => (s, .ok (x.1, x.2, bs, bad) bad)) s (packets m.uet m.len)
  match x with
  | (s, .fault c ea _) => s.stopPlace m tg.asid { e with target := some tg } (.get m) .load (.fault c ea)
  | (s, .ok xs _) =>
    let e := { e with deliv := true, wait := 0, fin := some (m.len, 0), reply := xs }
    (s.setInc e).again m 0 e
/-- A GET arrives, or asks for a packet again. Its landing is checked once. -/
def execIncomingGet (m : NetMsg) (s : State) : Res :=
  let m := { m with op := 2 }
  .next (s.arrive m 0 (.get m) fun e =>
    match e.target with
    | some tg => s.serve m tg e
    | none =>
      if !s.landOk m.land m.key 2 m.roff m.len then s.refuse m 0x12
      else s.serve m { asid := s.landAsid m.land, va := s.landBase m.land + m.roff, room := m.len } e)

/-- Whether GET data comes in its turn: under ORD over UET behind its own earlier packets and the GETs before it to that peer (R342). -/
def State.dataInTurn (s : State) (m : NetMsg) (off : Nat) (r : NReq) : Bool :=
  !(r.ord && m.uet) ||
    (((s.ordBefore m.chain m.pos r).all fun x => x.2.op != 2) && (off == 0 || r.acked.any fun x => x.1 == off - 4096))
/-- GET data arrives for a request of this device: each packet is placed once, over UET acknowledged, and a duplicate acknowledged alone
(R344); poisoned data poisons its destination (R345). -/
def State.takeGet (s : State) (m : NetMsg) (off : Nat) : State :=
  let i := Arrival.packet m off
  let ack := fun (s : State) (n : Nat) => if m.uet then s.answer m off n 0 [] else s
  if s.resetting || !s.linkOk m.uet then s
  else if s.coreDown then s.holdAsleep i
  else
  match s.nreq m.chain m.pos with
  | none => if m.pos ≤ s.ncSeq m.chain then ack s m.data.length else s
  | some r =>
    if r.op != 2 then s
    else
      match r.acked.find? fun x => x.1 == off with
      | some x => ack s x.2
      | none =>
        if r.st != 1 || !s.dataInTurn m off r then s
        else if r.wait = 1 then s.hold i
        else if r.wait = 2 then s.finish m.chain m.pos r 0x11 r.placed none
        else
          let asid := s.ncAsid m.chain
          let bytes := m.data.take (r.len - off)
          match s.netWrite asid (r.laddr + off) bytes m.poison none (bytes.length + 1) (r.part.getD off 0) with
          | (s, n, some (.fault c ea)) =>
            let r := { r with part := r.part.insert off n }
            if c = 4 then s.finish m.chain m.pos r 0x11 r.placed none
            else ((s.setNreq m.chain m.pos { r with wait := 1 }).netFault asid ea c .store (.net m.chain m.pos)).hold i
          | (s, n, _) =>
            let r := { r with acked := r.acked ++ [(off, n)], part := r.part.erase off, poison := r.poison || m.poison }
            ack (if r.len ≤ r.ackedBytes then s.finish m.chain m.pos r (if r.poison then 1 else 0) r.len (some m.uet)
              else s.setNreq m.chain m.pos r) n

/-- A packet arrives: of a peer's PUT, PUTADD or SEND, or the data of a GET of this device. A request for what the transport does not
implement is recorded and discarded (R7; log entry 56). -/
def execUetPacketReceive (m : NetMsg) (off : Nat) (s : State) : Res :=
  match m.op.toNat with
  | 1 => .next (s.takePut m off)
  | 5 => .next (s.takePut m off)
  | 3 => .next (s.takeSend m off)
  | 2 => .next (s.takeGet m off)
  | _ =>
    if !s.linkOk m.uet then .next s
    else if s.resetting then .next (s.refuseReset m)
    else if s.coreDown then .next (s.holdAsleep (.packet m off))
    else
      let (src, s) := s.anyPort m.uet
      .next (s.report src { cat := 7, code := 2, aux0 := m.op.toNat })

/-! ### Accesses of a peer's teams (R59, R337) -/

/-- An atomic by the code a peer's message carries. -/
def atomByCode (code m x : Nat) : Nat :=
  let w := wordOf
  match code with
  | 0 => (w m + w x).toNat
  | 1 => (minI (w m) (w x)).toNat
  | 2 => (maxI (w m) (w x)).toNat
  | 3 => (minN (w m) (w x)).toNat
  | 4 => (maxN (w m) (w x)).toNat
  | 5 => (w m &&& w x).toNat
  | 6 => (w m ||| w x).toNat
  | 7 => (w m ^^^ w x).toNat
  | 8 => x % 2 ^ 32
  | 9 => if m = x % 2 ^ 32 then x / 2 ^ 32 % 2 ^ 32 else m
  | 10 => (m + x) % 2 ^ 64
  | 11 => x % 2 ^ 64
  | 12 => if m = x % 2 ^ 64 then x / 2 ^ 64 % 2 ^ 64 else m
  | 13 => (fp32.deliver 0 ((fp32.decode m).add 0 (fp32.decode x))).1
  | 14 => ((List.range 2).map fun h =>
      (bf16.deliver 0 ((bf16.decode (natBits m (16 * h) 16)).add 0 (bf16.decode (natBits x (16 * h) 16)))).1 * 2 ^ (16 * h)).sum
  | _ => if x ≤ m then 0 else m + 1

/-- A peer's team access: kind 0 a load, 1 a store, else an atomic with code `kind - 2`. It is served at home under the landing's
ASID; a refusal or a translation that fails is answered as refused. A store or an atomic waits while a host holds the line cached: it is
acknowledged when it is performed (R56, R59, R60). -/
def execPeerAccessRequest (m : NetMsg) (kind : BitVec 8) (s : State) : Res :=
  let k := kind.toNat
  let perm := if k = 0 then 2 else if k = 1 then 4 else 6
  let i := Arrival.peer m kind
  if !s.linkOk m.uet then .next s
  else if s.resetting then .next (s.answer m 0 0 3 [])
  else if s.coreDown then .next (s.holdAsleep i)
  else if !s.landOk m.land m.key perm m.roff m.len then
    .next ((s.landError m (s.landTenant m.land) 0x12).answer m 0 0 0x12 [])
  else
    let asid := s.landAsid m.land
    let va := s.landBase m.land + m.roff
    let d := s.dte asid
    let size := if 12 ≤ k && k ≤ 14 then 8 else 4
    if k = 0 then
      match s.netRead asid va m.len with
      | (s, .fault _ _ _) => .next (s.answer m 0 0 0x12 [])
      | (s, .ok bs bad) => .next (s.answer m 0 m.len (if bad then 1 else 0) bs)
    else if k = 1 then
      match s.netPut 0 asid va m.data m.poison (some fun _ b => b) .store with
      | (s, some .held) => .next (s.hold i)
      | (s, some (.fault _ _)) => .next (s.answer m 0 0 0x12 [])
      | (s, none) => .next (s.answer m 0 m.data.length 0 [])
    else
      match s.netReach asid va .atomic with
      | (s, .cause _) => .next (s.answer m 0 0 0x12 [])
      | (s, .at' p gpa) =>
        match s.placeHeld p with
        | (s, true) => .next (s.hold i)
        | (s, false) =>
          match s.getPlace (dteTenant d) gpa p size (dteKtag d) with
          | (s, old, bad) =>
            if bad then .next (s.answer m 0 0 1 [])
            else
              let new := natLE size (atomByCode (k - 2) (leNat old) (leNat m.data))
              .next ((s.putPlace { path := 0 } (dteTenant d) gpa p new (dteKtag d)).answer m 0 size 0 old)

/-- The home device acknowledges an earlier store to peer memory: of a team `k`, any of those it waits for, or, with `k` from 86,016 on,
one of an engine, of path and tenant `k - 86016` (R59, R65; log entry 50). -/
def execPeerStoreAcknowledge (k : Nat) (s : State) : Res :=
  if !s.linkOk false then .next s
  else if s.asleep then .next (s.holdAsleep (.stored k))
  else if k < 86016 then
    let (n, s) := s.freshNat
    .next (s.modTeam k fun t => { t with peerOut := t.peerOut.eraseIdx (n % t.peerOut.length) })
  else .next { s with engOut := s.engOut.setD (k - 86016) (s.engOut.getD (k - 86016) 0 - 1) 0 }

/-- The requests under way to a node that no port reaches end with 0x13 (R341). -/
def State.cutOff (s : State) : State :=
  s.nreqs.foldl (fun s x => x.2.foldl (fun s y =>
    if y.2.st == 1 && y.2.op != 4 && s.noRoute x.1 y.2 then s.finish x.1 y.1 y.2 0x13 y.2.placed (some false) else s) s) s
/-- A Kazid Link port that cannot be retrained leaves service; its record comes from its own source. -/
def execKazidPortLost (port : BitVec 6) (s : State) : Res :=
  if 36 ≤ port.toNat || s.portsDown.has port.toNat then .next s
  else .next ({ s with portsDown := s.portsDown.insert port.toNat () }.report (srcPort port.toNat) { cat := 8, code := 5 }).cutOff

end Sys2Proof.Machine
end

