-- ==== Sys2Proof/Machine/Transform.lean ====
section
/-! DEFINITION. The transform unit: the transforms (R273), the checks at issue (R274, R275), and the run of a queued transform
(R276, R277). -/

namespace Sys2Proof.Machine

/-! ### The transforms (R273) -/

/-- cos and sin (2 pi k / b), rounded to FP32. -/
def twiddleC (b k : Nat) : Num := fp32.decode (fcospiW (.fin false (2 * (k % b)) (-(Nat.log2 b : Int)))).1.toNat
def twiddleS (b k : Nat) : Num := fp32.decode (fsinpiW (.fin false (2 * (k % b)) (-(Nat.log2 b : Int)))).1.toNat

/-- An exact sum of finite numbers; zero is +0. -/
def exactSum (xs : List Num) : Num :=
  let e0 := xs.foldl (fun (m : Int) x => match x with | .fin _ _ e => min m e | _ => m) 0
  let v : Int := (xs.map fun x => x.units e0).sum
  .fin (decide (v < 0)) v.natAbs e0
/-- An exact product. -/
def Num.times (x y : Num) : Num := (x.mul y).1

/-- XFWD of one vector: values, in pairs where the block is complex. -/
def xfwdVec (half : Bool) (b : Nat) (x : List Num) : List Num :=
  let at' := fun i => x.getD i (.fin false 0 0)
  let ts := List.range b
  if half then
    let re := fun f => exactSum (ts.map fun t => (at' t).times (twiddleC b (f * t)))
    let im := fun f => (exactSum (ts.map fun t => (at' t).times (twiddleS b (f * t)))).negate
    [re 0, re (b / 2)] ++ (List.range (b / 2 - 1)).flatMap fun f => [re (f + 1), im (f + 1)]
  else
    ts.flatMap fun f =>
      [exactSum (ts.flatMap fun t => [(at' (2 * t)).times (twiddleC b (f * t)), (at' (2 * t + 1)).times (twiddleS b (f * t))]),
       exactSum (ts.flatMap fun t => [(at' (2 * t + 1)).times (twiddleC b (f * t)), ((at' (2 * t)).times (twiddleS b (f * t))).negate])]
/-- XINV of one vector. -/
def xinvVec (half : Bool) (b : Nat) (x : List Num) : List Num :=
  let at' := fun i => x.getD i (.fin false 0 0)
  let ts := List.range b
  let by' := fun (y : Num) => y.scale (-(Nat.log2 b : Int))
  if half then
    ts.map fun t =>
      let edge := if t % 2 = 0 then at' 1 else (at' 1).negate
      by' (exactSum ([at' 0, edge] ++ (List.range (b / 2 - 1)).flatMap fun f =>
        [((at' (2 * (f + 1))).times (twiddleC b ((f + 1) * t))).scale 1,
         (((at' (2 * (f + 1) + 1)).times (twiddleS b ((f + 1) * t))).negate).scale 1]))
  else
    ts.flatMap fun t =>
      [by' (exactSum (ts.flatMap fun f => [(at' (2 * f)).times (twiddleC b (f * t)), ((at' (2 * f + 1)).times (twiddleS b (f * t))).negate])),
       by' (exactSum (ts.flatMap fun f => [(at' (2 * f)).times (twiddleS b (f * t)), (at' (2 * f + 1)).times (twiddleC b (f * t))]))]

/-- One vector's outputs: NaN throughout where an input is NaN or infinite; an exact zero gives +0. -/
def xfmVec (inv half : Bool) (b : Nat) (f : Fmt) (x : List Num) : List Nat :=
  let odd := x.any fun y => match y with | .fin _ _ _ => false | _ => true
  let out := if inv then xinvVec half b x else xfwdVec half b x
  out.map fun y =>
    if odd then f.canon
    else match y with
      | .fin _ 0 _ => 0
      | _ => (f.deliver 0 (y, 0)).1

/-! ### The block (Table 15.1) -/

def XOp.reg (x : XOp) (i : Nat) : Nat := (x.blk.getD i 0).toNat
def XOp.src (x : XOp) : Nat := natBits (x.reg 0) 0 6
def XOp.dst (x : XOp) : Nat := natBits (x.reg 0) 8 6
def XOp.sfmt (x : XOp) : Nat := natBits (x.reg 0) 16 4
def XOp.dfmt (x : XOp) : Nat := natBits (x.reg 0) 20 4
def XOp.clr (x : XOp) : Bool := natBit (x.reg 0) 24
def XOp.vcnt (x : XOp) : Nat := natBits (x.reg 1) 0 16
/-- An element format and its size. -/
def xfmt (c : Nat) : Fmt := if c = 12 then fp32 else if c = 13 then bf16 else fp16
def xsize (c : Nat) : Nat := if c = 12 then 4 else 2
/-- The domain code of the spectral side. -/
def State.xdom (s : State) (x : XOp) : Nat := (s.tile (coreOfWg x.w) (if x.inv then x.src else x.dst)).dom
/-- Block size and half-spectrum flag of a domain. -/
def domB (d : Nat) : Nat := 2 ^ (d % 8 + 3)
def domHalf (d : Nat) : Bool := natBit d 3
/-- Items of a vector, and elements of an item, of the source and of the destination. -/
def XOp.items (x : XOp) (d : Nat) (src : Bool) : Nat := if domHalf d && src == x.inv then domB d / 2 else domB d
def XOp.elems (x : XOp) (d : Nat) (src : Bool) : Nat := if domHalf d && src != x.inv then 1 else 2
/-- Bytes of an item. -/
def XOp.itemSize (x : XOp) (d : Nat) (src : Bool) : Nat := x.elems d src * xsize (if src then x.sfmt else x.dfmt)
/-- The byte at which item `i` of vector `v` lies. -/
def XOp.itemAt (x : XOp) (src : Bool) (v i : Nat) : Nat :=
  let k := if src then 2 else 5
  x.reg k + v * x.reg (k + 1) + i * x.reg (k + 2)

/-- Whether a run of a team of a workgroup names a tile, the issuing one included (R82). -/
def State.anyRunNames (s : State) (w n : Nat) : Bool := s.teams.any fun x => x.2.w == w && x.2.names n

/-- The status of Table 15.2. -/
def State.xfmStatus (s : State) (x : XOp) : Nat :=
  let c := coreOfWg x.w
  let a := s.tile c x.src
  let b := s.tile c x.dst
  let d := s.xdom x
  let fmtOk := fun f => decide (12 ≤ f) && decide (f ≤ 14)
  let whole := fun (src : Bool) =>
    let k := if src then 2 else 5
    x.reg k % x.itemSize d src == 0 && x.reg (k + 1) % x.itemSize d src == 0 && x.reg (k + 2) % x.itemSize d src == 0
  let last := fun (src : Bool) => x.itemAt src (x.vcnt - 1) (x.items d src - 1) + x.itemSize d src
  let reserved := fun d => decide (4 < d % 8) || d == 8
  if !(a.ownedBy x.w && b.ownedBy x.w) then 1
  else if a.st != 2 || !(b.st == 0 || b.st == 2) || s.opPinned c x.dst || s.anyRunNames x.w x.dst then 2
  else if x.vcnt == 0 || natBits (x.reg 0) 25 7 != 0 || natBits (x.reg 0) 14 2 != 0 || natBits (x.reg 0) 6 2 != 0 ||
      natBits (x.reg 1) 16 16 != 0 || x.src == x.dst then 7
  else if !fmtOk x.sfmt || !fmtOk x.dfmt || reserved a.dom || reserved b.dom then 5
  else if (if x.inv then a.dom == 0 || b.dom != 0 else a.dom != 0 || b.dom == 0) then 6
  else if !(whole true && whole false) then 4
  else if decide (a.size < last true) || decide (b.size < last false) then 3
  else 0

/-- Issue a transform: its status; on 0 it is queued and the destination is FILLING. -/
def State.issueXfm (s : State) (x : XOp) : State × Nat :=
  let c := coreOfWg x.w
  match s.xfmStatus x with
  | 0 => ({ s.setTile c x.dst { s.tile c x.dst with st := 1 } with xq := s.xq.insert c (s.xq.getD c [] ++ [x]) }, 0)
  | n + 1 => (s, n + 1)

/-! ### Running (R276, R277) -/

/-- Replace the transform at the head of a core's queue. -/
def State.setXfm (s : State) (c : Nat) (x : XOp) : State :=
  { s with xq := s.xq.modify c fun q => match q with | _ :: xs => x :: xs | [] => [] }
/-- A place of a core's tile. -/
def State.xPlace (s : State) (c : Nat) (x : XOp) (n o : Nat) : Place := (s.tile c n).place x.w o

/-- The blocks of a transform's destination tile, none for a poisoned one. -/
def State.xTile (s : State) (c : Nat) (x : XOp) : List (Option (List Byte)) :=
  (List.range ((s.tile c x.dst).size / 64)).map fun i =>
    let p := s.xPlace c x x.dst (64 * i)
    if s.placeBad p 0 then none else some (s.placeBytes p 64)
/-- Start the transform at the head; with CLR the destination is zeroed. One that starts again, restored, keeps what stood before. -/
def State.startXfm (s : State) (c : Nat) (x : XOp) : State :=
  let tl := s.tile c x.dst
  let old := if x.old.isEmpty then s.xTile c x else x.old
  let s := if x.clr then s.putPlace { path := 3 } 0 0 (s.xPlace c x x.dst 0) (List.replicate tl.size 0) 0 else s
  s.setXfm c { x with started := true, vec := 0, old := old }

def execTransformStart (c : Nat) (s : State) : Res :=
  match s.xq.getD c [] with
  | x :: _ => .next (if x.started then s else s.startXfm c x)
  | [] => .next s

/-- Whether a vector's source holds a poisoned block. -/
def State.xPoison (s : State) (c : Nat) (x : XOp) (v : Nat) : Bool :=
  let d := s.xdom x
  (List.range (x.items d true)).any fun i => s.placeBad (s.xPlace c x x.src (x.itemAt true v i)) 0
/-- Transform one vector. -/
def State.xVec (s : State) (c : Nat) (x : XOp) (v : Nat) : State :=
  let d := s.xdom x
  let sz := xsize x.sfmt
  let inp := (List.range (x.items d true)).flatMap fun i =>
    let bs := s.placeBytes (s.xPlace c x x.src (x.itemAt true v i)) (x.itemSize d true)
    (List.range (x.elems d true)).map fun j => (xfmt x.sfmt).decode (leNat ((bs.drop (sz * j)).take sz))
  let out := xfmVec x.inv (domHalf d) (domB d) (xfmt x.dfmt) inp
  let n := x.elems d false
  (List.range (x.items d false)).foldl (fun s i =>
    s.putPlace { path := 3 } 0 0 (s.xPlace c x x.dst (x.itemAt false v i))
      ((List.range n).flatMap fun j => natLE (xsize x.dfmt) (out.getD (n * i + j) 0)) 0) s

/-- What the transform at the head of a core's queue meets next. -/
inductive XEnd where
  | ok (s : State)
  | poison (x : XOp)
  | all (x : XOp)
  | idle
/-- Perform one vector. -/
def State.runXfm (s : State) (c : Nat) : XEnd :=
  match s.xq.getD c [] with
  | [] => .idle
  | x :: _ =>
    if !x.started then .idle
    else if x.vcnt ≤ x.vec then .all x
    else if s.xPoison c x x.vec then .poison x
    else .ok ((s.xVec c x x.vec).setXfm c { x with vec := x.vec + 1 })
/-- Perform the remaining vectors. -/
def State.runXfms (s : State) (c : Nat) : Nat → State × XEnd
  | 0 => (s, .idle)
  | fuel + 1 =>
    match s.runXfm c with
    | .ok t => State.runXfms t c fuel
    | e => (s, e)

/-- A running transform stops part-way (R326): each block of its destination holds its old value or the transform's in full; of one whose
source is poisoned, its old value. -/
def State.stopXfm (s : State) (c : Nat) (x : XOp) : State :=
  if !x.started then s
  else
    let new := match s.runXfms c 65536 with | (t, .all _) => t.xTile c x | _ => x.old
    (List.range x.old.length).foldl (fun (s : State) i =>
      let (b, s) := s.freshBit
      let p := s.xPlace c x x.dst (64 * i)
      match (if b then new else x.old).getD i none with
      | some bs => s.putPlace { path := 3 } 0 0 p bs 0
      | none => s.spoil 0 p) s

/-- The transform at the head ends: its destination is READY, and it leaves the queue. -/
def State.endXfm (s : State) (c : Nat) (x : XOp) : State :=
  { s.setTile c x.dst { s.tile c x.dst with st := 2 } with xq := s.xq.modify c (List.drop 1) }

def execTransformComplete (c : Nat) (s : State) : Res :=
  match s.runXfms c 65536 with
  | (t, .all x) => .next (t.endXfm c x)
  | _ => .next s

/-- The blocks of a failed transform's destination: the whole tile with CLR, else those that hold an item. -/
def State.xBlocks (s : State) (c : Nat) (x : XOp) : List Nat :=
  let d := s.xdom x
  if x.clr then (List.range ((s.tile c x.dst).size / 64)).map (64 * ·)
  else ((List.range x.vcnt).flatMap fun v => (List.range (x.items d false)).map fun i => x.itemAt false v i / 64 * 64).eraseDups
/-- A transform fails: its destination is poisoned, and one record is written. -/
def State.failXfm (s : State) (c : Nat) (x : XOp) (cause : Nat) : State :=
  let s := (s.xBlocks c x).foldl (fun s o => s.spoil 0 (s.xPlace c x x.dst o)) s
  let g := s.wgOf x.w
  (s.endXfm c x).report (srcTransform c) { cat := 4, code := 3, ten := some g.ten, asid := some g.asid, aux0 := cause }

/-- A transform fails: its source holds poison, or, where `internal`, the core's integrity check finds an error in its state. -/
def execTransformFail (c : Nat) (internal : Bool) (s : State) : Res :=
  if internal then
    match s.xq.getD c [] with
    | x :: _ => .next (if x.started then s.failXfm c x 0 else s)
    | [] => .next s
  else
    match s.runXfms c 65536 with
    | (t, .poison x) => .next (t.failXfm c x 5)
    | _ => .next s

end Sys2Proof.Machine
end

