-- ==== Sys2Proof/Machine/Once.lean ====
section
/-! DEFINITION. The instructions that act once per run at issue (R185, Table 9.2), held at a full queue or a token limit (R403):
tiles (R200), posts (R16, R201), launches (R202, R312), the first-touch pool (R205, R299), matrix and transform operations (R252,
R255, R274), network publication (R332) and MARK (R372). -/

namespace Sys2Proof.Machine

/-! ### Launch queues (R310..R312) -/

/-- Slots of a queue's ring. -/
def State.lqSlots (s : State) (q : Nat) : Nat := 16 * 2 ^ natBits (s.reg (oLqbase q)) 4 4
/-- Append count, completed prefix, tenant, producer and RUN. -/
def State.lqCount (s : State) (q : Nat) : Nat := s.reg (oLqapp q)
def State.lqPrefix (s : State) (q : Nat) : Nat := s.reg (oLqpfx q)
def State.lqTenant (s : State) (q : Nat) : Nat := natBits (s.reg (oLqcfg q)) 0 4
def State.lqProd (s : State) (q : Nat) : Bool := natBit (s.reg (oLqcfg q)) 7
def State.lqRun (s : State) (q : Nat) : Bool := natBit (s.reg (oLqcfg q)) 8
/-- The guest-physical address of the slot of position `n`, counted from 1. -/
def State.lqSlot (s : State) (q n : Nat) : Nat := natBits (s.reg (oLqbase q)) 8 44 * 256 + 256 * ((n - 1) % s.lqSlots q)

/-- Copy a record's 256 bytes into the slot of position `n`, block by block, a poisoned block as poisoned; none where either side
cannot be reached (R312, log entry 15). -/
def State.copyRecord (s : State) (q n asid va : Nat) : Option State :=
  let d := s.dte asid
  let ten := s.lqTenant q
  (List.range 4).foldl (fun (acc : Option State) i =>
    match acc with
    | none => none
    | some s =>
      if 2 ^ 48 ≤ va + 64 * i then none
      else
        let src := va + 64 * i
        match s.vaTo asid src .load, s.vaTo asid (src + 63) .load, s.gpaTo ten (s.lqSlot q n + 64 * i) .store with
        | some _, some _, some b =>
          match s.readVa asid src 64 with
          | (s, some bs) => some (s.writeSys { path := 6 } (some (dteTenant d)) 0 b bs (s.hostKtag ten))
          | (s, none) => some (s.spoilBy { path := 6 } ten (.sys b))
        | _, _, _ => none) (some s)

/-- LAUNCH (R202, R312): the new append count, or 0 where nothing is appended. -/
def State.launchAppend (s : State) (w q ea : Nat) : State × Nat :=
  let g := s.wgOf w
  if 256 ≤ q || s.lqTenant q != g.ten || !s.lqProd q || !s.lqRun q || decide (s.lqPrefix q + s.lqSlots q ≤ s.lqCount q) then (s, 0)
  else
    let n := s.lqCount q + 1
    match s.copyRecord q n g.asid ea with
    | some s => (s.setReg (oLqapp q) n, n)
    | none => (s, 0)

def execLseq (d b : BitVec 6) (g : Guard) (s : State) : Res :=
  uniInstr s g fun s' _ t r => (s', t.uput64 r d (dwordOf (s.lqSeen (t.uget r b).toNat)), r)
/-- LWAIT: a wait on the own queue at or above the own position is illegal (R213, R214). Loads read what is visible now, so the
acquire that follows has nothing to do (log entry 11). -/
def execLwait (a b : BitVec 6) (g : Guard) (s : State) : Res :=
  teamTerminal s g false fun s k t r =>
    let g := s.wgOf t.w
    if (t.uget r b).toNat = g.q && decide (g.pos ≤ (t.uget64 r a).toNat) then s.illegalWait k t r 2
    else if s.lqSeen (t.uget r b).toNat < (t.uget64 r a).toNat then s.blockRun k 10 else s.endRun k r.nextPc

/-! ### Tiles (R200) -/

/-- TBIND: the status; bound where it is 0. -/
def State.tbind (s : State) (w n desc : Nat) : State × Nat :=
  let c := coreOfWg w
  let tl := s.tile c n
  let lr := (s.wgOf w).lr
  let acc := natBit desc 63
  let size := natBits desc 32 22
  let base := natBits desc 0 32
  let region := if acc then lrAcc lr * 16384 else lrScrBytes lr - lrStackBytes lr
  if tl.owner != 0 && !tl.ownedBy w then (s, 1)
  else if natBits desc 54 9 != 0 then (s, 5)
  else if tl.ownedBy w && tl.st != 0 then (s, 2)
  else if size % 64 != 0 || size == 0 || base % 64 != 0 then (s, 4)
  else if region < base + size then (s, 3)
  else (s.setTile c n { Tile.empty with owner := w % 16 + 1, acc := acc, base := base, size := size }, 0)

/-- TTAG and TDOM: the status; `bad` a reserved code, `f` the write. -/
def State.tmark (s : State) (w n v : Nat) (bad : Nat → Bool) (f : Tile → Tile) : State × Nat :=
  let c := coreOfWg w
  let tl := s.tile c n
  if !tl.ownedBy w then (s, 1)
  else if natBits v 4 28 != 0 || bad (v % 16) then (s, 5)
  else if tl.st = 0 || tl.st = 2 then (s.setTile c n (f tl), 0)
  else (s, 2)

/-! ### Posts (R16, R201) -/

/-- The number of a reel's entry: its launch's queue and position, and its index. -/
def reelKey (q pos idx : Nat) : Nat := (pos * 256 + q) * 2 ^ 32 + idx

/-- The Bellows context that serves a workgroup: its reel's on its core. -/
def State.ctxOfWg (s : State) (w : Nat) : Option Nat :=
  let g := s.wgOf w
  ((s.ctxs.filter fun x => coreOfCtx x.1 == coreOfWg w && x.2.reel == reelKey g.q g.pos g.reel).head?).map (·.1)

/-- Post, arming a token first; none while the queue or the count is full. -/
def State.postTo (s : State) (k : Nat) (t : Team) (token : Option Nat) (x y : DWord) : Option State :=
  let g := s.wgOf t.w
  match s.ctxOfWg t.w with
  | none =>
    some (s.report (srcPart (partOfTeam k))
      { cat := 4, code := 7, ten := some g.ten, asid := some g.asid, aux0 := 0, aux1 := token.getD 0 })
  | some c =>
    let full := match s.ctxs.find? c with | some z => decide (16 ≤ z.posts.length) | none => false
    let limit := match token with | some j => decide (255 ≤ g.tokens.getD j 0) | none => false
    if full || limit then none
    else
      let s := match token with | some j => s.tokenUp t.w j | none => s
      some (s.addPost c { who := { w := t.w, wgid := g.wgid, team := t.id g, ended := false }, x := x, y := y, token := token })

/-! ### The first-touch pool (R299) -/

/-- POOLPOP: a frame of the pool, in no promised order, recorded against the popping context, its launch; 0 where the pool is empty. -/
def State.poolPop (s : State) (w : Nat) : State × Nat :=
  let g := s.wgOf w
  let t := s.tenant g.ten
  let (n, s) := s.freshNat
  match t.pool[n % t.pool.length]? with
  | none => (s, 0)
  | some f => (s.setTenant g.ten { t with pool := t.pool.erase f, popped := t.popped ++ [{ q := g.q, pos := g.pos, asid := g.asid, page := f }] }, f)

/-! ### MARK (R372, R377) -/

/-- MARK: a record with the team's marker in the core's sample buffer. -/
def State.markRec (s : State) (k : Nat) (t : Team) (pc : DWord) (v : Nat) : State :=
  let pt := partOfTeam k
  let ctl := s.reg (oSmpctl (pt / 8))
  if natBit ctl 0 && natBits ctl 32 4 == (s.wgOf t.w).ten then
    s.samplePut (pt / 8) pt fun n => sampleRec n (natBits pc.toNat 2 32) 31 (pt % 8) (slotOfTeam k) (v % 2 ^ 20)
  else s

/-! ### Performing an effect -/

/-- A pair of words of an effect's operands. -/
def Held.pair (h : Held) (i : Nat) : DWord := h.ops.getD (i + 1) 0 ++ h.ops.getD i 0
/-- A word of an effect's operands. -/
def Held.word (h : Held) (i : Nat) : Nat := (h.ops.getD i 0).toNat

/-- Issue into the matrix sequencer, unless its 32 entries are in use (R253). -/
def State.matIssue (s : State) (w : Nat) (h : Held) : Option (State × DWord) :=
  if 32 ≤ s.seqLoad (coreOfWg w) then none
  else
    let r := s.issueOp w h.op h.imm h.ops
    some (r.1, dwordOf r.2)
/-- Issue into the transform queue, unless its 8 entries are in use (R276). -/
def State.xfmIssue (s : State) (w : Nat) (h : Held) : Option (State × DWord) :=
  if 8 ≤ (s.xq.getD (coreOfWg w) []).length then none
  else
    let r := s.issueXfm { w := w, inv := h.op == .xinv, blk := h.ops, started := false, vec := 0, old := [] }
    some (r.1, dwordOf r.2)

/-- Whether an effect is one of a run's completion, held only once a stop has left its run behind. -/
def OnceOp.left : OnceOp → Bool
  | .tfree => true
  | .signal => true
  | .reggive => true
  | .tlbinvVa => true
  | .tlbinvAsid => true
  | _ => false
/-- Perform an effect of a run that a stop has left behind (R195, Table 9.2). -/
def State.leftDo (s : State) (k : Nat) (t : Team) (h : Held) : EffectEnd :=
  match h.op with
  | .signal => s.signalNow k t (h.pair 0) (h.ops.getD 2 0) h.imm
  | .reggive => .done (s.regGive k h.imm)
  | .tlbinvVa => .done (s.tlbinvNow k t (some (h.pair 0)))
  | .tlbinvAsid => .done (s.tlbinvNow k t none)
  | _ => s.tfreeNow k t h.imm

/-- A status beside a state. -/
def statusOf (x : State × Nat) : Option (State × DWord) := some (x.1, dwordOf x.2)

/-- Perform a once-per-run effect: the new state and the destination's value; none while it is blocked. -/
def State.onceDo (s : State) (k : Nat) (t : Team) (h : Held) : Option (State × DWord) :=
  let w := t.w
  match h.op with
  | .bpost => (s.postTo k t none (h.pair 0) (h.pair 2)).map fun s => (s, 0)
  | .bpostw => (s.postTo k t (some h.imm) (h.pair 0) (h.pair 2)).map fun s => (s, 0)
  | .launch => statusOf (s.launchAppend w (h.word 2) (h.pair 0).toNat)
  | .poolpop => statusOf (s.poolPop w)
  | .tbind => statusOf (s.tbind w h.imm (h.pair 0).toNat)
  | .ttag => statusOf (s.tmark w h.imm (h.word 0) fmtReserved fun tl => { tl with fmt := h.word 0 })
  | .tdom => statusOf (s.tmark w h.imm (h.word 0) domReserved fun tl => { tl with dom := h.word 0 })
  | .mark => some (s.markRec k t h.pc (h.word 0), 0)
  | .mldb => s.matIssue w h
  | .mloop => s.matIssue w h
  | .mzero => s.matIssue w h
  | .mst => s.matIssue w h
  | .mld => s.matIssue w h
  | .mabort => statusOf (s.abortOps w (h.word 0))
  | .xfwd => s.xfmIssue w h
  | .xinv => s.xfmIssue w h
  | .ntail => statusOf (s.ntail w (h.word 0 % 4096) (h.word 1 % 512))
  | .tfree => none
  | .signal => none
  | .reggive => none
  | .tlbinvVa => none
  | .tlbinvAsid => none

/-- Write an effect's destination in the lanes that satisfy `p`. -/
def Team.onceWrite (t : Team) (h : Held) (p : Nat → Bool) (v : DWord) : Team :=
  (List.range h.count).foldl (fun t j => t.put (h.reg + j) p fun _ => wordOf (natBits v.toNat (32 * j) 32)) t

/-- A once-per-run instruction: in the first attempt its effect is performed, or held behind what is blocked; later attempts write
the recorded value in the lanes that restart. -/
def onceInstr (s : State) (g : Guard) (op : OnceOp) (imm reg count : Nat) (ops : Team → Run → List Word) : Res :=
  uniInstr s g fun s k t r =>
    let h : Held := { pc := r.pc, op := op, imm := imm, ops := ops t r, reg := reg, count := count, idx := r.idx,
                      inH := t.handler.isSome }
    if r.first then
      let hold := (s, { t with held := t.held ++ [h] }, r)
      if !t.held.isEmpty then hold
      else
        match s.onceDo k t h with
        | some (s, v) => (s, t.onceWrite h r.uniWrites v, { r with once := r.once.insert r.idx v })
        | none => hold
    else
      match r.once.find? r.idx with
      | some v => (s, t.onceWrite h r.uniWrites v, r)
      | none => (s, t, r)

/-- The leader's words of `n` registers from `a`. -/
def Team.leads (t : Team) (r : Run) (a : BitVec 6) (n : Nat) : List Word :=
  (List.range n).map fun j => t.get (a.toNat + j) (r.leader t)

def execTbind (d a b : BitVec 6) (g : Guard) (s : State) : Res :=
  onceInstr s g .tbind a.toNat d.toNat 1 fun t r => t.leads r b 2
def execTtag (d a b : BitVec 6) (g : Guard) (s : State) : Res :=
  onceInstr s g .ttag a.toNat d.toNat 1 fun t r => t.leads r b 1
def execTdom (d a b : BitVec 6) (g : Guard) (s : State) : Res :=
  onceInstr s g .tdom a.toNat d.toNat 1 fun t r => t.leads r b 1
def execBpost (a b : BitVec 6) (g : Guard) (s : State) : Res :=
  onceInstr s g .bpost 0 0 0 fun t r => t.leads r a 2 ++ t.leads r b 2
/-- BPOSTW: `d` is the token. -/
def execBpostw (d a b : BitVec 6) (g : Guard) (s : State) : Res :=
  onceInstr s g .bpostw d.toNat 0 0 fun t r => t.leads r a 2 ++ t.leads r b 2
def execLaunch (d a b : BitVec 6) (g : Guard) (s : State) : Res :=
  onceInstr s g .launch 0 d.toNat 2 fun t r => t.leads r a 2 ++ t.leads r b 1
/-- MLDB: `b` is the B-array. -/
def execMldb (d a b : BitVec 6) (g : Guard) (s : State) : Res :=
  onceInstr s g .mldb b.toNat d.toNat 1 fun t r => t.leads r a 4
def execMloop (d a : BitVec 6) (g : Guard) (s : State) : Res := onceInstr s g .mloop 0 d.toNat 1 fun t r => t.leads r a 8
/-- MZERO: `a` is the tile. -/
def execMzero (d a : BitVec 6) (g : Guard) (s : State) : Res := onceInstr s g .mzero 0 d.toNat 1 fun _ _ => [wordOf a.toNat]
def execMst (d a : BitVec 6) (g : Guard) (s : State) : Res := onceInstr s g .mst 0 d.toNat 1 fun t r => t.leads r a 4
def execMld (d a : BitVec 6) (g : Guard) (s : State) : Res := onceInstr s g .mld 0 d.toNat 1 fun t r => t.leads r a 4
def execMabort (d a : BitVec 6) (g : Guard) (s : State) : Res := onceInstr s g .mabort 0 d.toNat 1 fun t r => t.leads r a 1
def execXfwd (d a : BitVec 6) (g : Guard) (s : State) : Res := onceInstr s g .xfwd 0 d.toNat 1 fun t r => t.leads r a 8
def execXinv (d a : BitVec 6) (g : Guard) (s : State) : Res := onceInstr s g .xinv 0 d.toNat 1 fun t r => t.leads r a 8
def execNtail (d a b : BitVec 6) (g : Guard) (s : State) : Res :=
  onceInstr s g .ntail 0 d.toNat 2 fun t r => t.leads r a 1 ++ t.leads r b 1
def execMark (a : BitVec 6) (g : Guard) (s : State) : Res := onceInstr s g .mark 0 0 0 fun t r => t.leads r a 1
/-- POOLPOP: a supervisor instruction (R102). -/
def execPoolpop (d : BitVec 6) (g : Guard) (s : State) : Res :=
  s.withRun fun k t r =>
    if t.handler.isSome then onceInstr s g .poolpop 0 d.toNat 2 fun _ _ => [] else .next (s.illegalExec k t r 9)

/-- The destination of a held effect takes its value, and the run that issued it keeps the value for its later attempts. While the team is
in the supervisor handler, an effect of the run outside writes v48..v55 and temporaries where they are saved; one that a handler run
issued no longer writes v48..v55 once the handler has returned (R204, R206, R403). -/
def Team.heldWrite (t : Team) (h : Held) (v : DWord) : Team :=
  let note := fun (r : Run) => if r.pc == h.pc then { r with once := r.once.insert h.idx v } else r
  let put := fun (p : Nat → Bool) (m : SMap Row) => (List.range h.count).foldl (fun m j =>
    if p (h.reg + j) then m.insert (h.reg + j) (List.replicate t.nlanes (wordOf (natBits v.toNat (32 * j) 32))) else m) m
  let temp := fun (r : Option Run) n => decide (56 ≤ n) && r.any fun r => r.pc == h.pc
  match t.handler with
  | some hd =>
    if h.inH then { t with v := put (fun n => decide (n < t.alloc) || temp t.run n) t.v, run := t.run.map note }
    else { t with
      v := put (fun n => decide (n < t.alloc) && decide (n < 48)) t.v
      handler := some { hd with
        v48 := put (fun n => decide (n < t.alloc) && decide (48 ≤ n)) hd.v48
        temps := put (temp (some hd.run)) hd.temps
        run := note hd.run } }
  | none => { t with
      v := put (fun n => (decide (n < t.alloc) && !(h.inH && decide (48 ≤ n))) || temp t.run n) t.v
      run := t.run.map note }

/-- Whether an effect of the completion of a held one's run, which has completed, stands before it and is still to be performed: a SIGNAL
between two posts keeps its place (R403). -/
def Team.doneBefore (t : Team) (h : Held) : Bool :=
  t.run.any fun r => r.pc == h.pc && r.bodyDone && r.done.any fun d => decide (d.1 < h.idx)
/-- A held effect is performed: the oldest of a team, as soon as it is no longer blocked (R403). Of a stopped team these are also the
effects of the run that it stopped behind: a SIGNAL waits for its fault, and is dropped, with a record, where it can never act. -/
def execHeldEffectPerform (k : Nat) (s : State) : Res :=
  match s.teams.find? k with
  | none => .next s
  | some t =>
    match t.held with
    | [] => .next s
    | h :: hs =>
      if h.op.left then
        let pop := fun (s : State) => s.modTeam k fun t => { t with held := t.held.drop 1 }
        match s.leftDo k t h with
        | .done s => .next (pop s)
        | .again s => .next s
        | .wait s' _ => .next (if s.atStoker (s.wgOf t.w).ten (.team k) then s else s')
        | .stop s e => .next ((pop s).report (srcPart (partOfTeam k)) (teamErr s t t.pc e))
      else if t.doneBefore h then .next s
      else
        match s.onceDo k t h with
        | none => .next s
        | some (s, v) => .next (s.setTeam k (({ t with held := hs } : Team).heldWrite h v))

end Sys2Proof.Machine
end

