-- ==== Sys2Proof/Machine/Partition.lean ====
section
/-! DEFINITION. What happens in a partition between and around instructions: its choice (R88), run fetch (R105), the end of an attempt
(R80), pending writes (R81), back-off, starvation and claim deadlock (R197, R216..R222), WAITV (R195), and the return of a workgroup's
granules (R84, R224). -/

namespace Sys2Proof.Machine

/-! ### Choice (R88) -/

/-- The share class of a team. -/
def State.classOf (s : State) (t : Team) : Nat := lrScls (s.wgOf t.w).lr
/-- The class that owns a slot-table entry (Table 5.8). -/
def State.slotClass (s : State) (pt e : Nat) : Nat := natBits (s.reg (oSlotTbl pt (e / 8))) (4 * (e % 8)) 3
/-- Effective priority: the launch's less BOFF, at least 0. -/
def State.effPrio (s : State) (t : Team) : Nat := lrPrio (s.wgOf t.w).lr - t.boff.toNat
/-- A launch of the table. -/
def State.launchAt (s : State) (q pos : Nat) : Option Launch := s.launches.find? fun l => l.q == q && l.pos == pos
/-- Whether a workgroup's launch is being ended (R326). -/
def State.ending (s : State) (w : Nat) : Bool :=
  let g := s.wgOf w
  match s.launchAt g.q g.pos with
  | some l => l.status.isSome
  | none => false
/-- The ready teams of a partition; while it steps, only the slot's (R369); those of a launch that is being ended start nothing. -/
def State.readyTeams (s : State) (pt : Nat) : List (Nat × Team) :=
  (s.teamsOf pt).filter fun x =>
    x.2.status == .ready && !s.ending x.2.w && (match (s.part pt).stepSlot with | some sl => x.1 % 16 == sl | none => true)
/-- Whether team `x` is chosen before `y`: one without the yield hint (R83), the higher priority, the longer ready, the lower slot. -/
def State.before (s : State) (x y : Nat × Team) : Bool :=
  if x.2.yielded != y.2.yielded then y.2.yielded
  else if s.effPrio x.2 != s.effPrio y.2 then decide (s.effPrio y.2 < s.effPrio x.2)
  else if x.2.readyAt != y.2.readyAt then decide (x.2.readyAt < y.2.readyAt)
  else decide (x.1 < y.1)
/-- The team chosen among the ready ones of a class. -/
def State.pickOf (s : State) (ts : List (Nat × Team)) (c : Nat) : Option Nat :=
  ((ts.filter fun x => s.classOf x.2 == c).foldl (fun (b : Option (Nat × Team)) x =>
    match b with
    | none => some x
    | some y => if s.before x y then some x else b) none).map (·.1)
/-- The choice: a team and, where the run is lent, the owner of the entry. -/
def State.choose (s : State) (pt : Nat) : Option (Nat × Option Nat) :=
  let ts := s.readyTeams pt
  let e := (s.part pt).pcyc % 64
  let own := s.slotClass pt e
  match s.pickOf ts own with
  | some k => some (k, none)
  | none =>
    if natBit (s.reg (oSlotCtl pt)) 0 then
      ((List.range 63).findSome? fun j => s.pickOf ts (s.slotClass pt ((e + j + 1) % 64))).map fun k => (k, some own)
    else none
/-- An idle cycle, unused by the class that owns the entry (R88, R374). -/
def State.idleCycle (s : State) (pt : Nat) : State :=
  let own := s.slotClass pt ((s.part pt).pcyc % 64)
  let s := (s.cycles pt 1).count (oSlotCnt pt own 3) 1
  if natBit (s.reg (oLcrctl pt)) 0 then s else s.count (oLcridle pt) 32

/-- Whether a team that is issued goes on with an attempt of a run. -/
def Team.attempts (t : Team) : Bool := t.run.any fun r => !r.bodyDone
/-- A poisoned pending write whose register a run touches (R81). -/
def Team.poisonPend (t : Team) (words : List Word) : Option Pend :=
  t.pend.find? fun p => p.poison && words.any fun w =>
    let i := infoOf w
    meets (i.rd ++ i.wr ++ i.own) ((List.range p.count).map (p.reg + ·))
/-- The poison of a pending load is raised at the boundary before the run that touches its register: the team stops there (R81). -/
def State.poisonStop (s : State) (k : Nat) (t : Team) (pc : DWord) (p : Pend) : State :=
  (s.stopTeam k t pc { cat := 3, code := 7, aux0 := 5, pc := p.ia.toNat }).attemptOver k
/-- A choice point: the partition issues the team it chooses, or idles a cycle. A faulted run that a handler's pending load has left poison
for is not retried: its team stops. -/
def execPartitionChoice (pt : Nat) (s : State) : Res :=
  let p := s.part pt
  if p.issuing.isSome || s.stopped pt || !p.stopReq.isEmpty then .next s
  else
    let s := s.settle pt
    match s.choose pt with
    | none => .next (s.idleCycle pt)
    | some (k, lent) =>
      let again := (s.teams.find? k).bind fun t => t.run.bind fun r => if r.again then some (t, r) else none
      let poison := again.bind fun x => (x.1.poisonPend x.2.words).map fun p => (x.1, x.2, p)
      match poison with
      | some (t, r, p) => .next (s.poisonStop k t r.pc p)
      | none =>
        let s := match again with | some (t, r) => s.setTeam k (t.retry r) | none => s
        .next (s.setPart pt { s.part pt with issuing := some k, lentBy := lent, attempt := (s.teams.find? k).any Team.attempts })

/-! ### Run fetch (R76, R81, R105, R370) -/

/-- A run at the start of its first attempt. -/
def Team.newRun (t : Team) (words : List Word) (trailer : Word) (lits : SMap Nat) : Run :=
  let wr := (words.flatMap fun w => (infoOf w).wr).eraseDups
  { pc := t.pc, words := words, trailer := trailer, idx := 0, entry := t.active, todo := t.active, aborted := 0, faults := [],
    stores := [], sdb := [], sdbRows := [], reached := [], late := 0, lits := lits, laneFlags := [], flags := 0, uwrs := [], once := [],
    done := [], first := true, bodyDone := false, saved := wr.foldl (fun m n => m.insert n ((t.v.find? n).getD [])) [],
    savedP := t.p, savedQ := t.q, pendPoison := [], ctl := (List.range 7).map fun i => (0x10 + i, t.control (0x10 + i)), setQ := 0,
    termLeft := none, mark := none, esc := none, watch := none, met := false }
/-- The run starts; what the trailer before it asked of its start has been met (R82). -/
def Team.startRun (t : Team) (words : List Word) (trailer : Word) (lits : SMap Nat) : Team :=
  { t with run := some (t.newRun words trailer lits), status := .ready, stv := 0, kmask := 0 }

/-- The breakpoint of a partition that matches a run (R370). -/
def State.breakpoint (s : State) (pt asid pc : Nat) : Option Nat :=
  (List.range 4).find? fun j =>
    let b := s.reg (oBrkpc pt j)
    natBit b 0 && natBits b 52 12 == asid && natBits b 2 46 * 4 == pc
/-- A request to stop a partition (R367): cause, slot and code. -/
def State.askStop (s : State) (pt cause slot code : Nat) : State :=
  let p := s.part pt
  if s.stopped pt then s else s.setPart pt { p with stopReq := p.stopReq ++ [(cause, slot, code)] }
/-- Run fetch for the team in issue, unless what R82 asks of its run no longer holds: the team then waits, and the partition chooses
afresh. -/
def execRunFetch (k : Nat) (s : State) : Res :=
  let pt := partOfTeam k
  match s.teams.find? k with
  | none => .next s
  | some t =>
    if (s.part pt).issuing != some k || t.run.isSome then .next s
    else
      let g := s.wgOf t.w
      let leave := fun (s : State) => s.setPart pt { s.part pt with issuing := none, lentBy := none }
      match s.heldKind k t with
      | some kind => .next (leave (s.setTeam k { t with status := .waiting kind }))
      | none =>
      match s.breakpoint pt g.asid t.pc.toNat with
      | some j => .next ((leave s).askStop pt 3 (slotOfTeam k) j)
      | none =>
        match s.fetchRun k t with
        | (s, .fault c va) =>
          let s := (s.setTeam k { t with status := .waiting 14 }).attemptOver k
          .next (s.submit g.ten (s.faultOf g.asid va c .fetch (.team k)))
        | (s, .poison _ _) => .next ((s.stopTeam k t t.pc { cat := 3, code := 7, aux0 := 5 }).attemptOver k)
        | (s, .trap reason i w) =>
          .next ((s.stopTeam k t t.pc { cat := 2, code := reason, aux0 := i, aux1 := w.toNat }).attemptOver k)
        | (s, .ok words tr lits) =>
          match t.poisonPend words with
          | some p => .next (s.poisonStop k t t.pc p)
          | none => .next ((s.setTeam k (t.startRun words tr lits)).setPart pt { s.part pt with attempt := true })

/-- The attempt of a run without a terminal has issued its last word: it ends (R80). -/
def execRunAttemptEnd (k : Nat) (s : State) : Res :=
  match s.teams.find? k with
  | none => .next s
  | some t =>
    match t.run with
    | none => .next s
    | some r =>
      if (s.part (partOfTeam k)).issuing == some k && decide (r.words.length ≤ r.idx) then .next (runEnd s k t r) else .next s

/-- A pending write lands in its register; a poisoned one writes nothing (R81). -/
def execPendingWriteLand (k r : Nat) (s : State) : Res :=
  match s.teams.find? k with
  | none => .next s
  | some t =>
    match t.pend.find? fun p => p.reg == r with
    | none => .next s
    | some p =>
      if p.poison then
        .next (s.setTeam k { t with pend := t.pend.map fun q => if q.reg = r then { q with landed := true } else q })
      else .next (s.setTeam k (t.land p))

/-! ### Holds and waits -/

/-- A team whose back-off hold has ended (R197). -/
def State.backoffOver (s : State) (k : Nat) (t : Team) : Bool :=
  t.status == .backoff && decide (((s.part (partOfTeam k)).pcyc + 2 ^ 64 - t.hold) % 2 ^ 64 < 2 ^ 63)
def execBackoffExpiry (k : Nat) (s : State) : Res :=
  match s.teams.find? k with
  | none => .next s
  | some t =>
    if s.backoffOver k t && !s.stopped (partOfTeam k) then .next (s.setTeam k { t with status := .ready, readyAt := s.tick, stv := 0 })
    else .next s

/-- The wait kind whose starvation timer has reached its limit (R216, R217). -/
def State.starved (s : State) (t : Team) : Option Nat :=
  let l := lrStvl (s.wgOf t.w).lr
  match t.status with
  | .waiting w => if decide (1 ≤ l) && decide (l ≤ 22) && decide (w ≤ 14) && decide (2 ^ (l + 11) ≤ t.stv) then some w else none
  | _ => none
/-- The queue that holds an effect, for wait kind 13 (Table 11.6). -/
def State.heldQueue (s : State) (t : Team) : Nat :=
  match t.held with
  | [] => 0
  | h :: _ =>
    match h.op with
    | .bpost => 0
    | .bpostw =>
      let full := match s.ctxOfWg t.w with
        | some c => (match s.ctxs.find? c with | some z => decide (16 ≤ z.posts.length) | none => false)
        | none => false
      if full then 0 else 1
    | .xfwd => 3
    | .xinv => 3
    | _ => 2
/-- Whether a waiting team has left its run behind but for effects of its completion: it stands at its next run (R218, R403). -/
def Run.behind (r : Run) (kind : Nat) : Bool :=
  r.bodyDone && (kind == 13 || (r.words[r.idx]?).isNone || (decide (kind < 4) && !r.done.isEmpty))
/-- Where a waiting team stands, with the first word of the run where that is another (R218, R403). A run that has completed, and waits
for an effect of its completion, stands behind itself where it has no terminal. -/
def Team.waitPc (t : Team) (kind : Nat) : DWord × Option DWord :=
  match t.run with
  | none => (t.pc, none)
  | some r =>
    match r.esc with
    | some (pc, base) => if kind = 14 then (pc, some base) else (r.pc, none)
    | none =>
      if r.behind kind then (t.leaves r).2
      else if r.bodyDone && decide (4 ≤ kind) then (dwordOf r.here, some r.pc)
      else (r.pc, none)
/-- A team stops whose run has completed but for effects of its completion (R195, R403): the one that waits by itself is withdrawn, the others
are performed or stay held, as is one that waits for a held effect. -/
def State.leaveDone (s : State) (k : Nat) (t : Team) (kind : Nat) : State :=
  match t.run with
  | some r =>
    if r.bodyDone && !r.done.isEmpty then
      (s.doneRest k t r (if kind = 13 then r.done else r.done.tail)).modTeam k fun t =>
        (if r.behind kind then (t.leaves r).1 else t).leaveRun
    else s
  | none => s
/-- A starvation timer reaches its limit (R218, R219): a record, and with STVT a stop. -/
def execStarvationExpiry (k : Nat) (s : State) : Res :=
  match s.teams.find? k with
  | none => .next s
  | some t =>
    match s.starved t with
    | none => .next s
    | some kind =>
      if s.stopped (partOfTeam k) then .next s
      else
        let g := s.wgOf t.w
        let src := srcPart (partOfTeam k)
        let at' := t.waitPc kind
        let pc := at'.1
        let qc := if kind = 13 then s.heldQueue t else 0
        let s := s.contextLog k g (lrPlogBuf g.lr) (lrPlogSize g.lr) (fun n =>
          natLE 4 src ++ natLE 4 (kind + 16 * qc) ++ natLE 8 n ++ natLE 8 pc.toNat ++ natLE 4 (t.id g) ++ natLE 4 (lrGrid g.lr)) 2
        if lrStvt g.lr then
          let s := s.leaveDone k t kind
          .next (s.stopTeam k { s.teamAt k t with base := at'.2 } pc { cat := 3, code := 2, aux0 := kind })
        else .next (s.setTeam k { t with stv := 0 })

/-- Claim deadlock (R222): every team that has not exited is blocked in REGCLAIM and the head claim cannot be met. -/
def State.claimDeadlock (s : State) (w : Nat) : Bool :=
  let g := s.wgOf w
  let ts := s.teamsOfWg w
  match g.claims with
  | [] => false
  | c :: _ => decide (g.account < c.2) && !ts.isEmpty && ts.all fun x => x.2.status == .waiting 12
/-- Claim deadlock is raised in every team of the workgroup. What AUX0 of its records holds the spec leaves open: here the wait kind of
REGCLAIM (DESIGN CHOICE, log entry 48). -/
def execClaimDeadlockFault (w : Nat) (s : State) : Res :=
  if s.claimDeadlock w then
    .next ((s.teamsOfWg w).foldl (fun s x =>
      match x.2.run with
      | some r => s.stopTeam x.1 { x.2 with base := some r.pc } (dwordOf r.here) { cat := 3, code := 3, aux0 := 12 }
      | none => s) (s.setWg w { s.wgOf w with claims := [] }))
  else .next s

/-- A WAITV waits again on what its word holds now (R195). -/
def execWaitvRecheck (k : Nat) (s : State) : Res :=
  match s.teams.find? k with
  | none => .next s
  | some t =>
    match t.run, t.status with
    | some r, .waiting 6 =>
      let w := r.words.getLastD 0
      .next (s.waitvTurn k t r (bits w 19 6).toNat (t.get64 (bits w 13 6).toNat (r.entry.leader t.nlanes)).toNat
        (t.get (bits w 7 6).toNat (r.entry.leader t.nlanes)))
    | _, _ => .next s

/-! ### The end of a workgroup (R84, R132, R224) -/

/-- Whether engine work of a workgroup remains: a copy under its tokens, a matrix operation or a transform. -/
def State.engineWork (s : State) (w : Nat) : Bool :=
  s.ctxs.any (fun x => x.2.slots.any fun y => y.2.w == w && coreOfCtx x.1 == coreOfWg w) ||
    !(s.wgOf w).mops.isEmpty || (s.xq.getD (coreOfWg w) []).any fun x => x.w == w

/-- Change a launch. -/
def State.modLaunch (s : State) (q pos : Nat) (f : Launch → Launch) : State :=
  { s with launches := s.launches.map fun l => if l.q == q && l.pos == pos then f l else l }

/-- A reel without workgroups has ended: its launch has one live reel less. -/
def State.endReel (s : State) (rk : Nat) : State :=
  match s.reels.find? rk with
  | none => s
  | some r => { s with reels := s.reels.erase rk }.modLaunch r.q r.pos fun l => { l with live := l.live - 1 }

/-- The posts and the current post of an ended workgroup, in a context. -/
def Ctx.posterEnded (c : Ctx) (w : Nat) : Ctx :=
  let f := fun (p : Poster) => if p.w = w then { p with ended := true } else p
  { c with cur := c.cur.map f, posts := c.posts.map fun p => { p with who := f p.who } }

/-- A workgroup leaves: its tiles are unowned, its regions, arrays and tokens gone, its reel's context freed with the last one of the
reel on its core. -/
def State.freeWg (s : State) (w : Nat) : State :=
  let g := s.wgOf w
  let c := coreOfWg w
  let rk := reelKey g.q g.pos g.reel
  let s := { s with
    wgs := s.wgs.erase w
    tiles := s.tiles.filter fun (x : Nat × Tile) => !(x.1 / 64 == c && x.2.ownedBy w)
    ctxs := s.ctxs.map fun (x : Nat × Ctx) => if coreOfCtx x.1 = c then (x.1, x.2.posterEnded w) else x }
  let left := List.any (s.wgsOf c) fun (x : Nat × Wg) => x.2.q == g.q && x.2.pos == g.pos && x.2.reel == g.reel
  let gone := if left then [] else (s.ctxs.filter fun (x : Nat × Ctx) => coreOfCtx x.1 == c && x.2.reel == rk).map (·.1)
  let s := { s with ctxs := s.ctxs.filter fun (x : Nat × Ctx) => !gone.contains x.1 }.unsubmit g.ten
    fun w => match w with
      | .ctx x => gone.contains x
      | .copy x _ => gone.contains x
      | _ => false
  match s.reels.find? rk with
  | none => s
  | some r =>
    let r := { r with wgs := r.wgs.filter (· != w), ctxs := r.ctxs.filter fun x => s.ctxs.has x }
    let s := { s with reels := s.reels.insert rk r }
    if r.wgs.isEmpty then s.endReel rk else s

/-- The granules of a workgroup return once its last team has exited and its engine work is complete. -/
def execGranuleReturn (w : Nat) (s : State) : Res :=
  if s.wgs.has w && (s.teamsOfWg w).isEmpty && (s.wgOf w).teamsLeft = 0 && !s.engineWork w then .next (s.freeWg w) else .next s

end Sys2Proof.Machine
end

