-- ==== Sys2Proof/Machine/Stoker.lean ====
section
/-! DEFINITION. The Stoker (R297..R306): resolving faults, page requests and replies (R359), the first-touch pool, migration,
compression, shootdowns and the reclaim of popped frames. -/

namespace Sys2Proof.Machine

/-! ### Harts and waiters -/

/-- Whether the hart that serves a tenant runs (R33, R298). -/
def State.hartUp (s : State) (ten : Nat) : Bool := !s.hartsDown.has (ten % 4)

/-- A waiter is retried (R298). A reel that is out finds it resolved when it returns (R325). -/
def State.wake (s : State) (who : Waiter) : State :=
  match who with
  | .team k => s.modTeam k fun t =>
      if t.status == .waiting 14 && !(s.tenants.any fun x => x.2.faults.any fun f => f.waiter == .team k) then
        { t with status := .ready, readyAt := s.tick, stv := 0 }
      else t
  | .ctx x => { s with ctxs := s.ctxs.modify x fun c => { c with stoker := 0 } }
  | .copy x sl => s.modCopy x sl fun c => if c.st = 2 then { c with st := 3 } else c
  | .mop w op =>
    match s.opAt w op with
    | some m => if m.st = 2 then s.setOp w { m with st := 0 } else s
    | none => s
  | .net c p =>
    match s.nreq c p with
    | some r => (s.setNreq c p { r with wait := 0 }).unhold
    | none => s
  | .read _ => s.unhold
  | .inc u n c p => (let e := s.incAt u n c p; if e.wait = 1 then s.setInc { e with wait := 0 } else s).unhold
  | .saved rk who => { s with saved := s.saved.modify rk fun v =>
      match who with
      | .team k => { v with teams := v.teams.modify k fun t => if t.status == .waiting 14 then { t with status := .ready, stv := 0 } else t }
      | .ctx x => { v with ctxs := v.ctxs.modify x fun c => { c with stoker := 0 } }
      | .copy x sl => { v with ctxs := v.ctxs.modify x fun c =>
          { c with slots := c.slots.modify sl fun y => if y.st = 2 then { y with st := 3 } else y } }
      | .mop w op => { v with wgs := v.wgs.modify w fun g =>
          { g with mops := g.mops.map fun m => if m.num = op && m.st = 2 then { m with st := 0 } else m } }
      | _ => v }
  | _ => s

/-- A team's fault cannot be resolved: it stops and reports (R195, R206, R298). A team that has stopped already may have been left a SIGNAL
to perform, which is then dropped. -/
def State.teamLost (s : State) (k : Nat) (f : SFault) : State :=
  match s.teams.find? k with
  | none => s
  | some t =>
    if t.status == .stopped then
      if (t.held.head?.map (·.op)) == some .signal then
        (s.setTeam k { t with held := t.held.drop 1 }).report (srcPart (partOfTeam k))
          (teamErr s t t.pc { cat := 3, code := if f.cause = 5 then 7 else 6, aux0 := f.cause, addr := f.va })
      else s
    else if t.status != .waiting 14 then s
    else
      let e : Err := { cat := 3, code := if f.cause = 5 then 7 else 6, aux0 := f.cause, addr := f.va }
      match t.run with
      | none => s.stopTeam k t t.pc e
      | some r =>
        if !r.bodyDone then s.stopTeam k t r.pc e
        else if r.done.isEmpty then s.stopTeam k { t with base := some r.pc } (dwordOf r.here) { e with pc := r.pc.toNat }
        else
          let s := s.doneRest k t r r.done.tail
          s.stopTeam k (s.teamAt k t).leaveRun r.nextPc { e with pc := r.pc.toNat }

/-- The head of a queue is refused: its record could not be read (R315). -/
def State.refuseHead (s : State) (q pos status : Nat) (lr : BitVec 2048) : State :=
  { s with launches := s.launches ++ [{ q := q, pos := pos, lr := lr, checked := true, eligAt := none, pairs := [], admitted := true,
                                        toPlace := [], live := 0, status := some status, done := false, bad := [], fails := [], preempts := 0, energy := 0 }] }
/-- The position at the head of a queue: the lowest that no launch of the table or the prefix covers (R316). -/
def State.headPos (s : State) (q : Nat) : Nat :=
  let held := (s.launches.filter fun l => l.q == q && l.admitted).map (·.pos)
  (held.foldl max (s.lqPrefix q)) + 1
/-- An unreadable record: refused with 0x10, one error record (R315). -/
def State.headLost (s : State) (q : Nat) : State :=
  let ten := s.lqTenant q
  (s.refuseHead q (s.headPos q) 0x10 0).report srcChimney
    { cat := 7, code := 2, ten := some ten, addr := s.lqSlot q (s.headPos q) }

/-- A waiter whose fault cannot be resolved (R298); what a core reset has taken is not touched (R22). -/
def State.lose (s : State) (ten : Nat) (f : SFault) : State :=
  match f.waiter with
  | .team k => s.teamLost k f
  | .ctx x => { s with ctxs := s.ctxs.modify x fun c => { c with stoker := 2 } }
  | .copy x sl => match s.copyAt x sl with
    | some c => if c.st = 2 then s.copyLost x sl f.va else s
    | none => s
  | .mop w op => match s.opAt w op with
    | some m => if m.st = 2 then s.failOp w m 3 else s
    | none => s
  | .head q => if s.resetting then s else s.headLost q
  | .bellSection q p pg => s.modLaunch q p fun l => { l with bad := l.bad ++ [pg] }
  | .net c p =>
    match s.nreq c p with
    | some r => (s.setNreq c p { r with wait := 2 }).unhold
    | none => s
  | .read c => if s.resetting then s else (s.unreadable c (s.nread.getD c 0 + 1)).unhold
  | .inc u n c p => (let e := s.incAt u n c p; if e.wait = 1 then s.setInc { e with wait := 2 } else s).unhold
  | .saved _ _ => s.setTenant ten { s.tenant ten with faults := (s.tenant ten).faults ++ [{ f with asked := true }] }
  | .lost _ _ => s
  | .none => s

/-- Take faults off a tenant's queue. -/
def State.dropFaults (s : State) (ten : Nat) (p : SFault → Bool) : State :=
  s.setTenant ten { s.tenant ten with faults := (s.tenant ten).faults.filter fun f => !p f }
/-- Faults of a queue are resolved: every waiter is retried, but for those of a reel that is out that cannot be resolved. -/
def State.resolveAll (s : State) (ten : Nat) (p : SFault → Bool) : State :=
  let p := fun f => p f && !f.asked
  let fs := (s.tenant ten).faults.filter p
  fs.foldl (fun s f => s.wake f.waiter) (s.dropFaults ten p)
/-- Faults of a queue are unresolvable. Those of a reel that is out are kept for its return. -/
def State.loseAll (s : State) (ten : Nat) (p : SFault → Bool) : State :=
  let fs := (s.tenant ten).faults.filter p
  fs.foldl (fun s f => s.lose ten f) (s.dropFaults ten p)

/-- Faults on one page, of the cause that stage 2 raises (R298). -/
def onPage (gpa : Nat) (f : SFault) : Bool := f.cause == 3 && f.gpa == gpa

/-! ### The first-touch pool (R299) -/

/-- The first unmapped guest-physical page from `a` on. -/
def State.unmappedFrom (s : State) (ten : Nat) : Nat → Nat → Option Nat
  | 0, _ => none
  | n + 1, a => if s.pageState ten a = 4 then some a else State.unmappedFrom s ten n (a + 4096)
/-- An unmapped page within the grant: which one is free (log entry 16). -/
def State.poolPage (s : State) (ten : Nat) : State × Option Nat :=
  let (n, s) := s.freshNat
  (s, (s.tenant ten).ranges.findSome? fun r =>
    let ps := r.2 / 4096
    let k := if ps = 0 then 0 else n % ps
    match s.unmappedFrom ten (ps - k) (r.1 + 4096 * k) with
    | some a => some a
    | none => s.unmappedFrom ten k r.1)
/-- Map a zeroed frame at a page, under a key (R296): none without a frame. -/
def State.mapZero (s : State) (ten gpa tier ktag : Nat) (desc : Bool) : Option State :=
  match s.takeFrame ten tier with
  | none => none
  | some (f, s) => (s.zeroFrame f ktag).s2Set ten gpa (s2Leaf f 0 desc)
/-- Refill a pool to 64 frames while the grant holds any. -/
def State.refill (s : State) (ten : Nat) : Nat → State
  | 0 => s
  | n + 1 =>
    if 64 ≤ (s.tenant ten).pool.length then s
    else
      match s.poolPage ten with
      | (s, none) => s
      | (s, some g) =>
        match s.mapZero ten g 0 (s.hostKtag ten) false with
        | none => s
        | some s => State.refill (s.setTenant ten { s.tenant ten with pool := (s.tenant ten).pool ++ [g] }) ten n
/-- The Stoker refills a pool that has fallen below 16. -/
def execPoolRefill (ten : BitVec 4) (s : State) : Res :=
  let n := ten.toNat
  if s.hartUp n && decide ((s.tenant n).pool.length < 16) then .next (s.refill n 64) else .next s

/-! ### Pages in the middle of a change (R301, R303) -/

/-- Change a migration. -/
def State.modMig (s : State) (ten gpa : Nat) (f : Mig → Mig) : State :=
  { s with migs := s.migs.map fun m => if m.ten == ten && m.gpa == gpa && !m.switched then f m else m }
/-- The migration of a page that has not switched. -/
def State.migOf (s : State) (ten gpa : Nat) : Option Mig := s.migs.find? fun m => m.ten == ten && m.gpa == gpa && !m.switched
/-- A migration stops: the leaf is the source again, the destination free. -/
def State.abortMig (s : State) (m : Mig) : State :=
  let s := { s with migs := s.migs.filter fun x => !(x.ten == m.ten && x.gpa == m.gpa && !x.switched) }
  let s := (s.s2Set m.ten m.gpa (s2Leaf m.src 0 (natBit (s.s2Get m.ten m.gpa) 59))).getD s
  s.giveFrame m.ten m.dst
/-- A page is ordinary: a migration of it stops, an image of it stands in a frame. -/
def State.plainPage (s : State) (ten gpa : Nat) : State :=
  let s := match s.migOf ten gpa with | some m => s.abortMig m | none => s
  match s.s2Walk 0 (s.tenant ten).s2root gpa with
  | .leaf _ _ _ spa _ => match s.imageAt spa with | some _ => s.decompress (frameOf (s.realSpa spa)) | none => s
  | _ => s

/-- The leaf of a page that is about to be taken out of use: a migration of it has stopped, and an image of it stands, uncompressed, in its
own frame, so that nothing sets the leaf again. -/
def State.lastLeaf (s : State) (ten gpa : Nat) : State × Option Nat :=
  let s := match s.migOf ten gpa with | some m => s.abortMig m | none => s
  match s.s2Walk 0 (s.tenant ten).s2root gpa with
  | .leaf _ _ _ spa _ =>
    let f := frameOf (s.realSpa spa)
    (match s.images.find? f with | some im => s.layOut f im f | none => s, some (frameOf spa))
  | _ => (s, none)

/-! ### Page requests (R359) -/

/-- The staging page `k` of a logical device. -/
def State.stagePage (s : State) (ld k : Nat) : Nat := natBits (s.reg (oPrstage ld)) 18 34 * 2 ^ 18 + 4096 * k
/-- The lowest staging page not in use. -/
def State.freeStage (s : State) (ld : Nat) : Option Nat :=
  (List.range 64).find? fun k => !((s.tenant ld).reqs.any fun r => r.stage == k)
/-- The entry of a page request (Table 21.6). -/
def requestOf (src seq gpa stage id : Nat) : BitVec 512 :=
  BitVec.ofNat 512 (packNat [(4, src), (4, 0), (8, seq), (8, gpa), (8, stage), (4, id % 2 ^ 32)])
/-- The Stoker writes the entries of page requests that found no room before, oldest first, while its hart runs (R33). -/
def State.writeRequests (s : State) (ld : Nat) : State :=
  if !s.hartUp ld then s
  else (s.tenant ld).reqs.foldl (fun s r =>
    let b := s.reg (oEvbase ld)
    if r.written || ringBase b = 0 || s.ringEnd ld (oEvtail ld) - s.reg (oEvhead ld) = ringSize b then s
    else
      let (n, s) := s.takeSeq (srcStoker ld)
      let s := s.evPost ld (requestOf (srcStoker ld) n r.gpa (s.stagePage ld r.stage) r.id) 2
      let t := s.tenant ld
      s.setTenant ld { t with reqs := t.reqs.map fun x => if x.id = r.id then { x with written := true } else x }) s
/-- Ask a tenant's host for a page: a staging page is given a zeroed frame; none while no staging page or frame is free. -/
def State.askHost (s : State) (ten gpa : Nat) : Option State :=
  let t := s.tenant ten
  if t.reqs.any fun r => r.gpa == gpa then some (s.writeRequests ten)
  else
    match s.freeStage ten with
    | none => none
    | some k =>
      let place := s.stagePage ten k
      let s := s.plainPage ten place
      let s' := match s.s2Walk 0 t.s2root place with
        | .leaf _ _ _ spa _ => if natBit spa 47 then none else some (s.zeroFrame (frameOf (s.realSpa spa)) (s.hostKtag ten))
        | _ => s.mapZero ten place 0 (s.hostKtag ten) false
      match s' with
      | none => none
      | some s =>
        let t := s.tenant ten
        some ((s.setTenant ten { t with
          nextId := t.nextId + 1
          reqs := t.reqs ++ [{ id := t.nextId, gpa := gpa, stage := k, written := false }] }).writeRequests ten)
/-- The record of a page request that failed. -/
def State.requestFailed (s : State) (ten gpa id : Nat) : State :=
  s.report (srcStoker ten) { cat := 6, code := 3, ten := some ten, addr := gpa, aux0 := ten % 4, aux1 := id }
/-- A request leaves; its staging page is unmapped, and `keep` tells whether its frame stays in use. -/
def State.endRequest (s : State) (ten : Nat) (r : PReq) (keep : Bool) : State :=
  let place := s.stagePage ten r.stage
  let s := s.plainPage ten place
  let t := s.tenant ten
  let s := s.setTenant ten { t with reqs := t.reqs.filter fun x => x.id != r.id }
  match s.s2Walk 0 t.s2root place with
  | .leaf _ _ _ spa _ =>
    match s.s2Set ten place 0 with
    | none => s
    | some s => s.startShoot (srcStoker ten) (.gpage ten (place / 4096)) (if keep then .nothing else .free ten (frameOf spa) [])
  | _ => s
/-- Answer a request as failure (R306, R353): its faults are unresolvable. -/
def State.failRequest (s : State) (ten : Nat) (r : PReq) : State :=
  (((s.endRequest ten r false).requestFailed ten r.gpa r.id).loseAll ten (onPage r.gpa))

/-! ### Resolving a fault (Table 16.8) -/

/-- Whether a team's fault was escalated, by ERET or for want of a handler. -/
def State.escalated (s : State) (who : Waiter) : Bool :=
  match who with
  | .team k => match s.teams.find? k with
    | some t => t.handler.isNone && (match t.run with | some r => !r.bodyDone && !r.faults.isEmpty | none => false)
    | none => false
  | .saved rk (.team k) => match s.saved.find? rk with
    | some v => match v.teams.find? k with
      | some t => t.handler.isNone && (match t.run with | some r => !r.bodyDone && !r.faults.isEmpty | none => false)
      | none => false
    | none => false
  | _ => false

/-- Whether an access that faulted at a page that is mapped now would fault there again: stage 2 lacks what it needs (R296). -/
def State.lacks (s : State) (ten : Nat) (f : SFault) : Bool :=
  match (match f.asid with | some a => s.walk a f.va f.need | none => s.s2Access s.free (s.tenant ten).s2root f.gpa f.need) with
  | .fault 3 g _ => frameOf g == f.gpa
  | _ => false
/-- A fault of cause 3, by what its page is now: those on a mapped page are resolved, but for one that lacks a permission there, and a write
to a compressed page waits until a frame is free and the page is decompressed, its leaf ordinary. -/
def State.resolvePage (s : State) (ten : Nat) (f : SFault) : State :=
  let t := s.tenant ten
  let fail := s.loseAll ten (onPage f.gpa)
  match s.s2Walk 0 t.s2root f.gpa with
  | .poisoned => fail
  | .leaf _ _ _ spa _ =>
    let s := s.loseAll ten fun x => onPage f.gpa x && s.lacks ten x
    let toWrite := (s.tenant ten).faults.any fun x => onPage f.gpa x && x.need.w
    let s := if toWrite && (s.imageAt spa).isSome && s.canWrite spa then s.decompress (frameOf (s.realSpa spa)) else s
    s.resolveAll ten fun x => onPage f.gpa x && !(x.need.w && !s.canWrite spa)
  | .absent _ _ _ =>
    if s.pageState ten f.gpa = 3 then
      if !s.bound ten || !natBit (s.reg (oPrstage ten)) 0 then
        if t.reqs.any fun r => r.gpa == f.gpa then s else (s.requestFailed ten f.gpa 0).loseAll ten (onPage f.gpa)
      else (s.askHost ten f.gpa).getD s
    else if !t.granted f.gpa then fail
    else
      let kt := match f.asid with | some a => dteKtag (s.dte a) | none => s.hostKtag ten
      match s.mapZero ten f.gpa 0 kt false with
      | some s => s.resolveAll ten (onPage f.gpa)
      | none => fail

/-- The Stoker hart takes a queued fault. -/
def execStokerFaultResolve (ten : BitVec 4) (fi : Nat) (s : State) : Res :=
  let n := ten.toNat
  match (s.tenant n).faults.find? fun f => f.id == fi with
  | none => .next s
  | some f =>
    let out := match f.waiter with | .saved rk _ => s.saved.has rk && f.asked | _ => false
    if !s.hartUp n || out then .next s
    else
      let one := fun (x : SFault) => x.id == fi
      let fail := fun (s : State) => match f.waiter with
        | .saved _ _ => s.setTenant n { s.tenant n with faults := (s.tenant n).faults.map fun x => if x.id = fi then { x with asked := true } else x }
        | _ => s.loseAll n one
      match f.cause with
      | 1 =>
        if f.poolEmpty && s.escalated f.waiter then
          let s' := s.refill n 64
          if (s'.tenant n).pool.isEmpty then .next (fail s) else .next (s'.resolveAll n one)
        else .next (fail s)
      | 3 => .next (s.resolvePage n f)
      | _ => .next (fail s)

/-- A page-request reply (R359, R306). -/
def State.pageReply (s : State) (ld id status : Nat) : State :=
  let t := s.tenant ld
  let refuse := s.report (srcHost ld) { cat := 7, code := 1, ten := some ld, ld := some ld, aux0 := oPrreply ld }
  match t.reqs.find? fun r => r.id == id with
  | none => refuse
  | some r =>
    if status = 1 then s.failRequest ld r
    else if status != 0 then refuse
    else
      let s := s.plainPage ld (s.stagePage ld r.stage)
      let late := ((s.endRequest ld r false).report (srcStoker ld)
        { cat := 6, code := 2, ten := some ld, addr := r.gpa, aux0 := ld % 4, aux1 := id })
      if !(t.faults.any (onPage r.gpa)) || s.pageState ld r.gpa != 3 then late
      else
        match s.s2Walk 0 t.s2root (s.stagePage ld r.stage) with
        | .leaf _ _ _ spa _ =>
          let desc := natBit (s.s2Get ld r.gpa) 59
          match (s.endRequest ld r true).s2Set ld r.gpa (s2Leaf (frameOf spa) 0 desc) with
          | some s => s.resolveAll ld (onPage r.gpa)
          | none => late
        | _ => late
/-- An answer to a page request; while the tenant's hart is stopped it waits (R33). -/
def State.replyIn (s : State) (ld id status : Nat) : State :=
  if s.hartUp ld then s.pageReply ld id status
  else s.setTenant ld { s.tenant ld with replies := (s.tenant ld).replies ++ [(id, status)] }
/-- The answers that waited for a hart. -/
def State.repliesIn (s : State) (ld : Nat) : State :=
  let rs := (s.tenant ld).replies
  if rs.isEmpty then s else rs.foldl (fun s x => s.pageReply ld x.1 x.2) (s.setTenant ld { s.tenant ld with replies := [] })
def execPrreply (ld : BitVec 4) (v : BitVec 64) (s : State) : Res :=
  let n := ld.toNat
  if !s.bound n then .next s
  else .next (s.replyIn n (natBits v.toNat 0 32) (natBits v.toNat 32 8))

/-! ### Migration (R301, R302) -/

/-- A page of a tenant in ordinary state and not in the middle of another change: its frame. -/
def State.plainFrame (s : State) (ten gpa : Nat) : Option Nat :=
  match s.s2Walk 0 (s.tenant ten).s2root gpa with
  | .leaf _ lvl e spa _ =>
    if lvl = 3 && entState e == 0 && !natBit spa 47 && gpa % 4096 == 0 && !(s.migs.any fun m => m.ten == ten && m.gpa == gpa) &&
       !(s.forwards.any fun x => x.2 == frameOf spa) then some (frameOf spa) else none
  | _ => none

def execMigrationStart (ten : BitVec 4) (gpa : Nat) (near : Bool) (s : State) : Res :=
  let n := ten.toNat
  match s.plainFrame n gpa with
  | none => .next s
  | some src =>
    if !s.hartUp n || farFrame src != near then .next s
    else
      match s.takeFrame n (if near then 1 else 2) with
      | none => .next s
      | some (dst, s) =>
        match s.s2Set n gpa (s2Leaf src 1 (natBit (s.s2Get n gpa) 59)) with
        | none => .next s
        | some s =>
          let m : Mig := { ten := n, gpa := gpa, src := src, dst := dst, copied := 0, switched := false, failed := false, erred := false }
          .next { s with migs := s.migs ++ [m] }

/-- The Stoker has carried poison to another frame (R31). -/
def State.poisonKept (s : State) (ten gpa : Nat) : State :=
  s.report (srcStoker ten) { cat := 4, code := 6, ten := some ten, addr := gpa, pois := true }
/-- The copier moves one block of 64 bytes, with its poison and its key. -/
def State.copyBlock (s : State) (src dst i : Nat) : State :=
  let a := src / 64 + i
  let b := dst / 64 + i
  { s with
    mem := (s.mem.clear (64 * b) 64).writeN (64 * b) (s.mem.readN (64 * a) 64)
    poison := if s.poison.has a then s.poison.insert b () else s.poison.erase b
    lineKey := s.lineKey.setD b (s.lineKey.getD a 0) 0 }
/-- The next block of a migration, unless the copy has met a new error (R302); poison that is copied is recorded once (R31, log entry 51). -/
def State.migrateStep (s : State) (ten gpa : Nat) : State :=
  match s.migOf ten gpa with
  | none => s
  | some m =>
    if s.hartUp ten && decide (m.copied < 64) && !m.failed then
      let bad := s.poison.has (m.src / 64 + m.copied)
      let t := (s.copyBlock m.src m.dst m.copied).modMig ten gpa fun m => { m with copied := m.copied + 1, erred := m.erred || bad }
      if bad && !m.erred then t.poisonKept ten (gpa + 64 * m.copied) else t
    else s
/-- The remaining blocks. -/
def State.migrateRest (s : State) (ten gpa : Nat) : Nat → State
  | 0 => s
  | n + 1 => State.migrateRest (s.migrateStep ten gpa) ten gpa n

/-- Copying ends, and the leaf takes the destination, to which accesses by old translations are forwarded; the source is freed when the
page's shootdown completes. -/
def execMigrationSwitch (ten : BitVec 4) (gpa : Nat) (s : State) : Res :=
  let n := ten.toNat
  if !s.hartUp n then .next s
  else
    let s := s.migrateRest n gpa 64
    match s.migOf n gpa with
    | none => .next s
    | some m =>
      if m.failed then .next s
      else
        match s.s2Set n gpa (s2Leaf m.dst 0 (natBit (s.s2Get n gpa) 59)) with
        | none => .next s
        | some s =>
          let s := ({ s with forwards := s.forwards.insert m.src m.dst }.moveCached m.src m.dst).modMig n gpa fun m => { m with switched := true }
          .next (s.startShoot (srcStoker n) (.gpage n (gpa / 4096)) (.free n m.src []))
/-- A migration whose copy has met a new uncorrectable error is aborted. -/
def execMigrationAbort (ten : BitVec 4) (gpa : Nat) (s : State) : Res :=
  let n := ten.toNat
  match s.migOf n gpa with
  | none => .next s
  | some m =>
    if !s.hartUp n || !m.failed then .next s
    else .next ((s.abortMig m).report (srcStoker n) { cat := 6, code := 1, ten := some n, addr := gpa, aux0 := n % 4 })

/-! ### Compression (R303) -/

/-- A far page becomes an image, in a frame of its own; a page whose image would not be smaller stays (log entry 8), and so does one of the
lent map for which no reserve frame would be left (R304). Poison in it is kept and recorded (R31, log entry 51). -/
def execCompressPage (ten : BitVec 4) (gpa : Nat) (s : State) : Res :=
  let n := ten.toNat
  match s.plainFrame n gpa with
  | none => .next s
  | some f =>
    let (small, s) := s.freshBit
    let room := !s.lentPage n gpa || decide (s.reserved n + 1 < (s.tenant n).far.length)
    if !s.hartUp n || !farFrame f || !small || !room then .next s
    else
      match s.takeFrame n 2 with
      | none => .next s
      | some (img, s) =>
        let desc := natBit (s.s2Get n gpa) 59
        let bad := (List.range 64).foldl (fun m i => if s.poison.has (f / 64 + i) then SMap.insert m i () else m) ([] : NSet)
        let keys := (List.range 64).foldl (fun m i => m.setD (img / 64 + i) (s.lineKey.getD (f / 64 + i) 0) 0) s.lineKey
        match s.s2Set n gpa (s2Leaf img 2 desc) with
        | none => .next s
        | some t =>
          let t := ({ t with
            poison := offFrame t.poison img
            images := t.images.insert img { ten := n, gpa := gpa, bytes := s.mem.readN f 4096, bad := bad, lost := [] }
            lineKey := keys
            forwards := t.forwards.insert f img }.moveCached f img).startShoot (srcStoker n) (.gpage n (gpa / 4096)) (.free n f [])
          .next (match bad with | [] => t | c :: _ => t.poisonKept n (gpa + 64 * c.1))

/-! ### Shootdowns (R305) -/

/-- A frame that no translation reaches any more returns to the grant; memory of a peer is none of its frames. A host's cached lines of it are
forgotten, and nothing waits for them any more. -/
def State.freeFrame (s : State) (ten f : Nat) : State :=
  if natBit f 47 then s
  else
    let here := fun (b : BiW) => frameOf (s.realSpa b.spa) == f
    let off := fun (l : Nat) => decide (l < f / 64) || decide (f / 64 + 64 ≤ l)
    let rings := ((s.biWait.filter here).filterMap fun (b : BiW) => b.by'.ring.map fun x => x.1).eraseDups
    let s := { s with
      biWait := s.biWait.filter fun b => !here b
      biAsked := s.biAsked.filter fun (c : Nat × Unit) => off c.1
      hostCached := s.hostCached.filter fun (c : Nat × Nat) => off c.1
      ringsDue := s.ringsDue ++ rings
      migs := s.migs.filter fun m => !(m.switched && m.src == f)
      forwards := s.forwards.erase f
      images := s.images.erase f }
    (s.giveFrame ten f).unhold
/-- The command of a mailbox ends (R391). -/
def State.mailboxEnd (s : State) (ld : Nat) : State :=
  { s with mbox := s.mbox.drop 1 }.setReg (oMbstat ld) (natPut (s.reg (oMbstat ld)) 8 1 0)
/-- What a completed shootdown does. -/
def State.shootDone (s : State) (x : Shoot) : State :=
  let free := fun (s : State) (ten : Nat) (f : Option Nat) => match f with | some f => s.freeFrame ten f | none => s
  let errors := fun (s : State) (ten : Nat) (errs : List Nat) =>
    errs.foldl (fun s a => s.report (srcStoker ten) { cat := 6, code := 4, ten := some ten, addr := a, aux0 := ten % 4, pois := true }) s
  match x.fin with
  | .team k => s.modTeam k fun t => { t with invs := t.invs.filter (· != (x.ini, x.seq)) }
  | .command ld ten f =>
    let s := free s ten f
    if s.shoots.any fun y => match y.fin with | .command l _ _ => l == ld | _ => false then s
    else s.setReg (oSkstat ld) (natPut (s.reg (oSkstat ld)) 8 1 0)
  | .mailbox ld ten f =>
    let s := free s ten f
    if s.shoots.any fun y => match y.fin with | .mailbox l _ _ => l == ld | _ => false then s else s.mailboxEnd ld
  | .free ten f errs => errors (s.freeFrame ten f) ten errs
  | .image ten errs => errors s ten errs
  | .clearAsid ld asid =>
    let s := { s with mem := s.mem.clear (s.dtbase + 32 * asid) 32 }
    s.setReg (oSkstat ld) (natPut (s.reg (oSkstat ld)) 8 1 0)
  | .nothing => s
/-- The tenant whose Stoker hart has something to do when a shootdown completes. -/
def Shoot.servant (x : Shoot) : Option Nat :=
  match x.fin with
  | .command _ ten _ => some ten
  | .free ten _ _ => some ten
  | .image ten _ => some ten
  | .clearAsid ld _ => some ld
  | _ => none
/-- Complete every shootdown that all receivers have echoed, in order; one that a stopped hart is to complete waits for it (R33). -/
def State.shootsEnd (s : State) : Nat → State
  | 0 => s
  | n + 1 =>
    match s.shoots.find? fun x => [0, 1, 2].all x.got.contains && x.servant.all s.hartUp with
    | none => s
    | some x => State.shootsEnd ({ s with shoots := s.shoots.filter (· != x) }.shootDone x) n
/-- Whether a request may concern a workgroup, and its access to an address. -/
def ShootScope.touches (sc : ShootScope) (g : Wg) : Bool :=
  match sc with
  | .page n _ => g.asid == n
  | .asid n => g.asid == n
  | .gpage t _ => g.ten == t
  | .tenant t => g.ten == t
def ShootScope.meets (sc : ShootScope) (g : Wg) (va : Nat) : Bool :=
  sc.touches g && (match sc with | .page _ v => va / 4096 == v | _ => true)
/-- Whether a place was reached by translation. -/
def Place.isGlobal (p : Place) : Bool :=
  match p with
  | .sys _ => true
  | .peer _ _ _ => true
  | _ => false
/-- Stores of a run, and terminals that wait behind them, that stand translated are translated again; a lane of the attempt that no longer
reaches its place aborts there. -/
def State.retranslate (s : State) (k : Nat) (g : Wg) (p : Nat → Bool) (r : Run) : State × Run :=
  let one := fun (x : State × Run × List Store) (st : Store) =>
    if !st.at'.isGlobal || !p st.va then (x.1, x.2.1, x.2.2 ++ [st])
    else
      match x.1.reachGlobal (rcvOfCore (coreOfTeam k)) g.asid st.va .store with
      | (s, .at' pl _) => (s, x.2.1, x.2.2 ++ [{ st with at' := pl }])
      | (s, .cause c) =>
        if r.acting.has st.lane then
          (s, if x.2.1.aborted.has st.lane then x.2.1
              else ({ x.2.1 with idx := st.ix } : Run).abort st.lane c st.va (if st.group.isSome then 3 else 1), x.2.2 ++ [st])
        else (s, x.2.1, x.2.2 ++ [st])
  let y := r.stores.foldl one (s, r, [])
  let z := r.sdb.foldl one (y.1, y.2.1, [])
  let term := fun (x : State × SMap TermAcc) (l : Nat) =>
    match x.2.find? l with
    | some a =>
      if !(a.at'.isGlobal && p a.va) then x
      else match x.1.reachGlobal (rcvOfCore (coreOfTeam k)) g.asid a.va a.need with
        | (s, .at' pl gpa) => (s, x.2.insert l { a with at' := pl, gpa := gpa })
        | (s, .cause _) => (s, x.2)
    | none => x
  let w := (r.late.lanes 1024).foldl term (z.1, z.2.1.reached)
  (w.1, { z.2.1 with stores := y.2.2, sdb := z.2.2, reached := w.2, idx := r.idx })
/-- What a team has under way is settled: the stores of its runs are translated again, and the word that its WAITV watches, which is read
again; where that no longer translates, nothing is watched and the WAITV looks again. -/
def State.settleTeam (s : State) (k : Nat) (g : Wg) (p : Nat → Bool) (t : Team) : State × Team :=
  let go := fun (s : State) (r : Run) => s.retranslate k g p r
  let look := fun (s : State) (r : Run) =>
    match r.watch with
    | some (.sys _, ea, c, v) =>
      if !p ea then (s, r)
      else match s.reachGlobal (rcvOfCore (coreOfTeam k)) g.asid ea .load with
        | (s, .at' pl _) => let r := { r with watch := some (pl, ea, c, v) }; (s.noteWatch r, r)
        | (s, .cause _) => (s, { r with watch := none })
    | _ => (s, r)
  let a := match t.run with | some r => let y := go s r; let z := look y.1 y.2; (z.1, some z.2) | none => (s, none)
  let new := fun l => (a.2.any fun r => r.aborted.has l) && !(t.run.any fun r => r.aborted.has l)
  let b := match a.2 with
    | some r => if (List.range t.nlanes).any new then a.1.scramble t r new else (a.1, t)
    | none => (a.1, t)
  let c := match t.handler with | some h => let y := go b.1 h.run; (y.1, some { h with run := y.2 }) | none => (b.1, none)
  let lost := t.status == .waiting 6 && t.run.any (·.watch.isSome) && a.2.any (·.watch.isNone)
  let u := if lost then { b.2 with status := .ready, readyAt := c.1.tick, stv := 0 } else b.2
  (c.1, { u with run := a.2, handler := c.2 })
/-- What a core die has under way is settled before it echoes (R305): performed stores are made visible, and those of runs, of teams that are
out too, translated again. -/
def State.settleDie (s : State) (rcv : Nat) (p : Wg → Nat → Bool) : State :=
  let mine := fun (k : Nat) => rcvOfCore (coreOfTeam k) == rcv
  let s := (s.teams.filter fun x => mine x.1).foldl (fun (s : State) x =>
    let g := s.wgOf x.2.w
    let s := s.drainAll x.1
    match s.teams.find? x.1 with
    | none => s
    | some t => let y := s.settleTeam x.1 g (p g) t; y.1.setTeam x.1 y.2) s
  s.saved.foldl (fun (s : State) v =>
    (v.2.teams.filter fun x => mine x.1).foldl (fun (s : State) x =>
      let g := v.2.wgs.getD x.2.w Wg.empty
      let y := s.settleTeam x.1 g (p g) x.2
      { y.1 with saved := y.1.saved.modify v.1 fun v => { v with teams := v.teams.insert x.1 y.2 } }) s) s
/-- Whether a per-lane terminal of a die has its access translated and has still to perform it. -/
def State.midTerm (s : State) (rcv : Nat) (xs : List Shoot) : Bool :=
  s.teams.any fun x => rcvOfCore (coreOfTeam x.1) == rcv && (x.2.run.any fun r => r.termLeft.isSome) &&
    xs.any fun y => y.scope.touches (s.wgOf x.2.w)
/-- Whether a team has a kept store, or a terminal behind it, of a lane that has completed, which would not be translated again. -/
def State.blockStuck (s : State) (k : Nat) (g : Wg) (p : Nat → Bool) (t : Team) : Bool :=
  let rs := t.run.toList ++ (t.handler.map (·.run)).toList
  let gone := fun (pl : Place) (va : Nat) (need : Need) => pl.isGlobal && p va &&
    (match s.reachGlobal (rcvOfCore (coreOfTeam k)) g.asid va need with | (_, .cause _) => true | _ => false)
  rs.any fun r =>
    (r.sdb.any fun st => !r.acting.has st.lane && gone st.at' st.va .store) ||
      (r.late.lanes t.nlanes).any fun l => match r.reached.find? l with | some a => gone a.at' a.va a.need | none => false
/-- Whether one of a die has, of teams that are out too: it is performed before the echo (R305). -/
def State.anyStuck (s : State) (rcv : Nat) (p : Wg → Nat → Bool) : Bool :=
  let mine := fun (k : Nat) => rcvOfCore (coreOfTeam k) == rcv
  s.teams.any (fun x => let g := s.wgOf x.2.w; mine x.1 && s.blockStuck x.1 g (p g) x.2) ||
    s.saved.any fun v => v.2.teams.any fun x => let g := v.2.wgs.getD x.2.w Wg.empty; mine x.1 && s.blockStuck x.1 g (p g) x.2
/-- A receiver drops what the requests up to a number cover, and echoes, once no access translated before, by what it drops, is left to be
performed. -/
def State.echo (s : State) (ini sq rcv : Nat) : State :=
  let mine := fun (x : Shoot) => x.ini == ini && decide (x.seq ≤ sq) && !x.got.contains rcv
  let xs := s.shoots.filter mine
  let old := s.tlb.filter fun e => e.rcv == rcv && xs.any fun x => x.scope.covers e
  let p := fun (g : Wg) (va : Nat) => xs.any (fun y => y.scope.meets g va) ||
    old.any fun e => e.kind == 0 && e.who == g.asid && decide (e.base ≤ va) && decide (va < e.base + e.size)
  let d := { s with tlb := s.tlb.filter fun e => !(e.rcv == rcv && xs.any fun x => x.scope.covers e) }
  if s.midTerm rcv xs || (decide (rcv < 2) && d.anyStuck rcv p) then s
  else
    let s := { d with shoots := d.shoots.map fun x => if mine x then { x with got := x.got ++ [rcv] } else x }
    let s := if rcv < 2 && !xs.isEmpty then s.settleDie rcv p else s
    s.shootsEnd s.shoots.length

/-! ### Memory of peers (R337) -/

/-- The Stoker maps a page for memory of a tenant's peer: an unmapped page outside the lent map takes a leaf with the node, the landing
index and the offset, and the key of the peer entry (log entry 57). -/
def State.peerLeaf (s : State) (ten gpn peer land off : Nat) : State :=
  let gpa := 4096 * gpn
  let node := s.peerAddr ten peer
  if decide (16 ≤ ten) || decide (4096 ≤ peer) || !s.hartUp ten || s.peerKind ten peer != 1 || decide (1024 ≤ node) || decide (1024 ≤ land) ||
      decide (2 ^ 27 ≤ off) || off % 4096 != 0 || decide (2 ^ 52 ≤ gpa) || s.lentPage ten gpa || s.pageState ten gpa != 4 then s
  else
    match s.s2Set ten gpa (s2Leaf (2 ^ 47 + node * 2 ^ 37 + land * 2 ^ 27 + off) 0 false) with
    | none => s
    | some s => { s with peerKeys :=
        s.peerKeys.insert ((ten * 2 ^ 20 + node * 2 ^ 10 + land) * 2 ^ 15 + off / 4096) (s.peerKey ten peer) }

/-! ### Reclaim of popped frames (R299) -/

/-- Whether a leaf of a stage-1 tree references a guest-physical page. -/
def State.s1Has (s : State) (ten gpa : Nat) : Nat → Nat → Bool
  | 0, _ => false
  | fuel + 1, tbl =>
    let lvl := 3 - fuel
    match s.gpaTo ten tbl .load with
    | none => false
    | some a =>
      (List.range 512).any fun i =>
        let e := s.entry (a + 8 * i)
        s1Ok lvl e && entV e &&
          (if entLeaf e then decide (entAddr e ≤ gpa) && decide (gpa < entAddr e + leafSize lvl)
           else State.s1Has s ten gpa fuel (entAddr e))
/-- Whether a context remains: its launch is resident, saved, or not yet complete. -/
def State.contextLive (s : State) (q pos : Nat) : Bool :=
  s.wgs.any (fun x => x.2.q == q && x.2.pos == pos) || s.saved.any (fun v => v.2.reel.q == q && v.2.reel.pos == pos) ||
    s.launches.any fun l => l.q == q && l.pos == pos && l.admitted && !l.done
/-- Take a page out of a tenant's stage 2; its frame is freed when the shootdown completes. -/
def State.unmapFree (s : State) (ten gpa : Nat) : State :=
  match s.lastLeaf ten gpa with
  | (s, some f) =>
    match s.s2Set ten gpa 0 with
    | none => s
    | some s => s.startShoot (srcStoker ten) (.gpage ten (gpa / 4096)) (.free ten f [])
  | (s, none) => s
/-- At the end of a context of an ASID, the frames it popped that no leaf of the ASID references return to the grant. -/
def execFrameReclaim (ten : BitVec 4) (asid : BitVec 12) (s : State) : Res :=
  let n := ten.toNat
  let a := asid.toNat
  let ended := fun (p : Popped) => p.asid == a && !s.contextLive p.q p.pos
  let t := s.tenant n
  if !s.hartUp n || !t.popped.any ended then .next s
  else
    let d := s.dte a
    let lost := (t.popped.filter ended).filter fun p => !(dteV d && s.s1Has n p.page 4 (dteS1 d))
    let s := s.setTenant n { t with popped := t.popped.filter fun p => !ended p }
    .next (lost.foldl (fun s p => s.unmapFree n p.page) s)

end Sys2Proof.Machine
end

