-- ==== Sys2Proof/Machine/Scheduler.lean ====
section
/-! DEFINITION. The launch scheduler (R310..R327): queue registers, the checks of a record, admission, placement by two phases,
pre-emption and restore, ending a launch, and completion. -/

namespace Sys2Proof.Machine

/-! ### Agents that write registers -/

/-- The host of a logical device, by agent: 0..15; 16 is the Chimney, any other is no agent of a register. -/
def hostOf (ag : BitVec 5) : Option Nat := if ag.toNat < 16 then some ag.toNat else none
/-- The Chimney. -/
def isChimney (ag : BitVec 5) : Bool := ag.toNat == 16
/-- A refused register write: ignored, with an error record (R310, R351, R366; Table 23.5). -/
def State.refuseReg (s : State) (ag : BitVec 5) (off : Nat) : State :=
  match hostOf ag with
  | some ld => s.report (srcHost ld) { cat := 7, code := 1, ten := some ld, ld := some ld, aux0 := off % 2 ^ 32 }
  | none => s.report srcChimney { cat := 7, code := 1, aux0 := off % 2 ^ 32 }
/-- Whether an agent is the bound host of a tenant. -/
def State.ownsTenant (s : State) (ag : BitVec 5) (ten : Nat) : Bool := hostOf ag == some ten && s.bound ten

/-- Whether the Chimney acts: its core runs (R33), and boot has not failed (R383). -/
def State.chimneyUp (s : State) : Bool := !s.chimneyDown && (s.bootOk || !s.booted)
/-- A write by an agent: a Chimney that does not act writes nothing. -/
def State.byAgent (s : State) (ag : BitVec 5) (f : State → State) : State := if isChimney ag && !s.chimneyUp then s else f s

/-- A wake event takes the device to H0 (R388). -/
def State.wakeUp (s : State) : State := if s.hst = 0 then s else { s with waking := true, agenda := s.agenda ++ [.event .powerStateExit] }

/-! ### Queue registers (R310, R311) -/

/-- LQBASE and PROD may be changed only in a stopped queue whose records have all completed. -/
def State.lqIdle (s : State) (q : Nat) : Bool := !s.lqRun q && s.lqPrefix q == s.lqCount q

/-- LQBASE, by the owner's host. -/
def State.lqbaseWrite (s : State) (ag : BitVec 5) (q v : Nat) : State :=
  let new := regMerge (oLqbase q) (s.reg (oLqbase q)) v
  if !s.ownsTenant ag (s.lqTenant q) || (new != s.reg (oLqbase q) && !s.lqIdle q) then s.refuseReg ag (oLqbase q)
  else s.setReg (oLqbase q) new
/-- LQCFG: a host's write applies RUN alone, and RUN set wakes the device (R388); the Chimney's TENANT and PROD alone, and MR2 is extended
(R382). -/
def State.lqcfgPut (s : State) (ag : BitVec 5) (q v : Nat) : State :=
  let old := s.reg (oLqcfg q)
  if s.ownsTenant ag (s.lqTenant q) then
    let s := s.setReg (oLqcfg q) (natPut old 8 1 (natBits v 8 1))
    let s := if natBit v 8 then s.wakeUp else s
    if natBits v 0 4 != natBits old 0 4 || natBit v 7 != natBit old 7 then s.refuseReg ag (oLqcfg q) else s
  else if isChimney ag then
    let s := s.extendMr 2 (Config.digest (oLqcfg q) v)
    let s' := s.setReg (oLqcfg q) (natPut old 0 4 (natBits v 0 4))
    if natBit v 7 == natBit old 7 then s'
    else if s.lqIdle q then s'.setReg (oLqcfg q) (natPut (s'.reg (oLqcfg q)) 7 1 (natBits v 7 1))
    else s'.refuseReg ag (oLqcfg q)
  else s.refuseReg ag (oLqcfg q)
def execLqcfgWrite (ag : BitVec 5) (q : BitVec 8) (v : BitVec 64) (s : State) : Res := .next (s.byAgent ag (·.lqcfgPut ag q.toNat v.toNat))

/-- LQAPP: COUNT + 1 appends a record to a queue whose producer is the host. -/
def State.lqappPut (s : State) (ag : BitVec 5) (q v : Nat) : State :=
  if s.ownsTenant ag (s.lqTenant q) && !s.lqProd q && v == s.lqCount q + 1 && decide (s.lqCount q < s.lqPrefix q + s.lqSlots q) then
    (s.setReg (oLqapp q) v).wakeUp
  else s.refuseReg ag (oLqapp q)
def execLqappWrite (ag : BitVec 5) (q : BitVec 8) (v : BitVec 64) (s : State) : Res := .next (s.byAgent ag (·.lqappPut ag q.toNat v.toNat))

/-! ### The checks of a record (R315, Table 18.9) -/

/-- Workgroups of a reel on the `j`-th of its cores (R318). -/
def lrShare (lr : BitVec 2048) (j : Nat) : Nat := ((List.range (lrWgpr lr)).filter fun k => k % lrCores lr == j).length
/-- Granules of a workgroup (R84). -/
def lrGranules (lr : BitVec 2048) : Nat := lrReg lr + lrScr lr + lrAcc lr + lrShd lr
/-- Register units that a workgroup's teams declare (R84). -/
def lrNeed (lr : BitVec 2048) : Nat := lrTpw lr * lrVreg lr * (lrLanes lr / 8)
/-- Whether two windows overlap. -/
def overlap (a b : Nat × Nat) : Bool := a.2 != 0 && b.2 != 0 && decide (a.1 < b.1 + b.2) && decide (b.1 < a.1 + a.2)

/-- A reserved or zero field is not zero. -/
def lrReserved (lr : BitVec 2048) : Bool :=
  natBits (lrNat lr 54 2) 12 4 != 0 || lrNat lr 95 1 != 0 || natBits (lrSavap lr) 8 7 != 0 || natBits (lrAttr lr) 22 10 != 0 ||
    natBits (lrAttr lr) 0 3 != 0 || natBits (lrPartw lr) 28 4 != 0 || (List.range 8).any fun j => lrNat lr (132 + 16 * j) 4 != 0
/-- A field lies outside its range, or an address is misaligned. -/
def lrRange (lr : BitVec 2048) : Bool :=
  let within := fun (v a b : Nat) => decide (a ≤ v) && decide (v ≤ b)
  !(within (lrReels lr) 1 (2 ^ 24) && within (lrWgpr lr) 1 16 && within (lrTpw lr) 1 16 && within (lrLanes lr) 8 1024 &&
    lrLanes lr % 8 == 0 && within (lrCores lr) 1 8 && decide (lrCores lr ≤ lrWgpr lr) && decide (lrNdep lr ≤ 8) &&
    decide (lrNbarr lr ≤ 16) && within (lrVreg lr) 1 7 && decide (lrAccg lr ≤ 64) && lrEntry lr % 4 == 0 && lrHandler lr % 4 == 0 &&
    lrCtgt lr % 64 == 0 && (lrBell lr == 0 || (decide (4 ≤ lrBellSize lr) && lrBellSize lr % 4 == 0)))
/-- A window is misaligned, non-canonical or overlaps another, or CLSIZE is neither 0 nor WGPR x S. -/
def lrWindows (lr : BitVec 2048) : Bool :=
  let ws := [(lrLocBase lr, lrLocSize lr), (lrShBase lr, lrShSize lr), (lrClBase lr, lrClSize lr)]
  (ws.any fun w => w.1 % 64 != 0 || w.2 % 64 != 0 || (w.2 != 0 && decide (2 ^ 48 < w.1 + w.2))) ||
    overlap (lrLocBase lr, lrLocSize lr) (lrShBase lr, lrShSize lr) || overlap (lrLocBase lr, lrLocSize lr) (lrClBase lr, lrClSize lr) ||
    overlap (lrShBase lr, lrShSize lr) (lrClBase lr, lrClSize lr) ||
    !(lrClSize lr == 0 || lrClSize lr == lrWgpr lr * lrSegment lr)
/-- The partition word breaks R84, or window storage does not fit. -/
def lrPartition (lr : BitVec 2048) : Bool :=
  lrGranules lr == 0 || decide (64 < lrGranules lr) || decide (lrShd lr < lrAccg lr) || decide (lrReg lr * 64 < lrNeed lr) ||
    decide (lrScrBytes lr < lrShSize lr + lrStackBytes lr)
/-- The progress word breaks R217. -/
def lrProgress (lr : BitVec 2048) : Bool := lrProgw lr / 2 ^ 7 != 0 || decide (22 < lrStvl lr)
/-- Whether a launch names a saved-activation aperture, and which. -/
def lrSavIdx (lr : BitVec 2048) : Option Nat := if natBit (lrSavap lr) 15 then some (natBits (lrSavap lr) 0 8) else none
/-- ASID of an aperture's APBASE. -/
def State.apAsid (s : State) (n : Nat) : Nat := natBits (s.reg (oAp n)) 52 12

/-! ### Shapes on a cluster (R71, R318) -/

/-- Neighbours in the cluster's 2 x 4 grid. -/
def neighbour (a b : Nat) : Bool :=
  (a % 4 == b % 4 && a / 4 != b / 4) || (a / 4 == b / 4 && (a + 1 == b || b + 1 == a))
/-- Those of `ps` that are linked to `seen` through cores of `ps`. -/
def linked (ps : List Nat) : Nat → List Nat → List Nat
  | 0, seen => seen
  | n + 1, seen => linked ps n (ps.filter fun p => seen.contains p || seen.any (neighbour p))
/-- A set of cores of a cluster that is adjacent (R71). -/
def adjacentSet (ps : List Nat) : Bool :=
  match ps with
  | [] => false
  | p :: _ => (linked ps 8 [p]).length == ps.length
/-- The sublists of a list. -/
def sublistsOf : List Nat → List (List Nat)
  | [] => [[]]
  | x :: xs => let r := sublistsOf xs; r.map (x :: ·) ++ r
/-- The adjacent sets of `n` cores of a cluster, each in ascending order. -/
def shapes (n : Nat) : List (List Nat) := (sublistsOf (List.range 8)).filter fun ps => ps.length == n && adjacentSet ps

/-- What a core has or needs: granules, workgroup slots, team slots, B-arrays, Bellows contexts (R319). -/
structure Room where
  gran : Nat
  wgs : Nat
  teams : Nat
  arrs : Nat
  ctxs : Nat
  deriving DecidableEq, Repr
def Room.fits (a b : Room) : Bool :=
  decide (b.gran ≤ a.gran) && decide (b.wgs ≤ a.wgs) && decide (b.teams ≤ a.teams) && decide (b.arrs ≤ a.arrs) && decide (b.ctxs ≤ a.ctxs)
def Room.minus (a b : Room) : Room :=
  { gran := a.gran - b.gran, wgs := a.wgs - b.wgs, teams := a.teams - b.teams, arrs := a.arrs - b.arrs, ctxs := a.ctxs - b.ctxs }
/-- An empty core. -/
def Room.whole : Room := { gran := 64, wgs := 16, teams := 64, arrs := 16, ctxs := 4 }
/-- What a reel needs on the `j`-th of its cores. -/
def lrRoom (lr : BitVec 2048) (j : Nat) : Room :=
  let n := lrShare lr j
  { gran := n * lrGranules lr, wgs := n, teams := n * lrTpw lr, arrs := n * lrNbarr lr, ctxs := if lrBell lr = 0 then 0 else 1 }
/-- The team slots of a partition that are taken, by a team or for a reel whose last workgroup has not ended (R215). -/
def State.seated (s : State) (pt : Nat) : List Nat :=
  ((s.teamsOf pt).map (·.1) ++ s.reels.flatMap fun x => x.2.seats.filter fun k => k / 16 == pt).eraseDups
/-- Team slots taken in a partition, a stopped one counting as full (R368). -/
def State.partLoad (s : State) (pt : Nat) : Nat := if s.stopped pt then 16 else (s.seated pt).length
/-- What a core has free: nothing of a reel is released before its last workgroup ends (R215). -/
def State.roomOf (s : State) (c : Nat) : Room :=
  let used := s.reels.foldl (fun (r : Room) x =>
    match s.launchAt x.2.q x.2.pos, x.2.cores.idxOf? c with
    | some l, some j => r.minus (lrRoom l.lr j)
    | _, _ => r) Room.whole
  { used with teams := 64 - ((List.range 8).map fun p => s.partLoad (8 * c + p)).sum }
/-- Whether a reel fits on cores, in ascending order. -/
def State.fitsOn (s : State) (lr : BitVec 2048) (cores : List Nat) : Bool :=
  cores.zipIdx.all fun x => (s.roomOf x.1).fits (lrRoom lr x.2)
/-- The clusters a tenant may use (R318). -/
def State.clusters (s : State) (ten : Nat) : List Nat := (List.range 84).filter fun c => (s.tenant ten).clusters.getLsbD c
/-- Cores that a reel may be given: an adjacent set of one of the tenant's clusters, ascending. -/
def State.coresOk (s : State) (ten : Nat) (lr : BitVec 2048) (cores : List Nat) : Bool :=
  match cores with
  | [] => false
  | c :: _ => (s.clusters ten).contains (c / 8) && (cores.all fun x => x / 8 == c / 8) && (shapes (lrCores lr)).contains (cores.map (· % 8))
/-- Whether a reel can be placed somewhere now. -/
def State.placeable (s : State) (ten : Nat) (lr : BitVec 2048) : Bool :=
  (s.clusters ten).any fun cl => (shapes (lrCores lr)).any fun ps => s.fitsOn lr (ps.map (8 * cl + ·))

/-- Take a shape off the cores of an empty cluster. -/
def takeShape (caps : List Room) (lr : BitVec 2048) (ps : List Nat) : Option (List Room) :=
  if ps.zipIdx.all fun x => (caps.getD x.1 Room.whole).fits (lrRoom lr x.2) then
    some (caps.zipIdx.map fun c => match ps.idxOf? c.2 with | some j => c.1.minus (lrRoom lr j) | none => c.1)
  else none
/-- The most reels that one cluster holds, over shapes in order. -/
def packMost (lr : BitVec 2048) : Nat → List (List Nat) → List Room → Nat
  | 0, _, _ => 0
  | _ + 1, [], _ => 0
  | n + 1, ps :: rest, caps =>
    let without := packMost lr n rest caps
    match takeShape caps lr ps with
    | some caps' => max without (1 + packMost lr n (ps :: rest) caps')
    | none => without
/-- Whether every reel of a whole launch fits on the tenant's clusters, nothing else resident (R320). -/
def State.wholeFits (s : State) (ten : Nat) (lr : BitVec 2048) : Bool :=
  let sh := shapes (lrCores lr)
  decide (lrReels lr ≤ (s.clusters ten).length * packMost lr (sh.length + 129) sh (List.replicate 8 Room.whole))

/-- The status with which a record is refused, 0 if it passes: the first failing check (Table 18.9). -/
def State.recordStatus (s : State) (q : Nat) (lr : BitVec 2048) : Nat :=
  let ten := s.lqTenant q
  let d := s.dte (lrAsid lr)
  if lrReserved lr || lrRange lr || lrWindows lr then 0x10
  else if lrPartition lr then 0x11
  else if lrProgress lr then 0x12
  else if lrBell lr != 0 && decide (16384 < lrBellSize lr) then 0x13
  else if !dteV d || dteTenant d != ten then 0x14
  else if (match lrSavIdx lr with
      | some n => s.apAlloc.find? n != some (ten, true) || s.apAsid n != lrAsid lr
      | none => false) then 0x18
  else if (List.range (lrNdep lr)).any fun j => let c := lrDepSrc lr j / 2 ^ 24; c != 5 && c != 6 then 0x17
  else if (s.clusters ten).isEmpty || !Room.whole.fits (lrRoom lr 0) then 0x16
  else if lrWhole lr && !s.wholeFits ten lr then 0x15
  else 0

/-- Whether the fault of a waiter is at the Stoker. -/
def State.waitsFor (s : State) (ten : Nat) (who : Waiter) : Bool := (s.tenant ten).faults.any fun f => f.waiter == who

/-- A record reaches the head of its queue (R315): read, checked, and kept there or refused. -/
def execLaunchHeadCheck (q : BitVec 8) (s : State) : Res :=
  let q := q.toNat
  let pos := s.headPos q
  let ten := s.lqTenant q
  if s.coreDown || !s.lqRun q || decide (s.lqCount q < pos) || (s.launchAt q pos).isSome || s.waitsFor ten (.head q) then .next s
  else
    let a := s.lqSlot q pos
    match s.gpaTo ten a .load with
    | none =>
      .next (s.submit ten { id := 0, asid := none, va := a, gpa := frameOf a, cause := 3, need := .load, poolEmpty := false,
                            waiter := .head q, asked := false })
    | some _ =>
      match s.readGpa ten a 256 (s.hostKtag ten) with
      | (s, none) => .next (s.headLost q)
      | (s, some bs) =>
        let lr := BitVec.ofNat 2048 (leNat bs)
        match s.recordStatus q lr with
        | 0 =>
          let l : Launch := { q := q, pos := pos, lr := lr, checked := true, eligAt := none, pairs := [], admitted := false, toPlace := [],
                              live := 0, status := none, done := false, bad := [], fails := [], preempts := 0, energy := 0 }
          .next { s with launches := s.launches ++ [l] }
        | st + 1 => .next (s.refuseHead q pos (st + 1) lr)

/-! ### Admission (R316, R317) -/

/-- Whether a dependence is satisfied: its source has given the number, written or dropped. -/
def State.depMet (s : State) (src n : Nat) : Bool := decide (n < s.seq.getD src 1)
/-- The launches admitted and not complete that name an aperture; a refused record names none. -/
def State.naming (s : State) (n : Nat) : List Launch :=
  s.launches.filter fun l => l.admitted && !l.done && (l.status.all fun c => decide (c < 0x10)) && lrSavIdx l.lr == some n
/-- Whether every dependence of a head is satisfied. -/
def State.depsMet (s : State) (l : Launch) : Bool := (List.range (lrNdep l.lr)).all fun j => s.depMet (lrDepSrc l.lr j) (lrDepSeq l.lr j)
/-- Whether a head is eligible; one whose ASID has no valid entry is not admitted (R288). -/
def State.eligible (s : State) (l : Launch) : Bool :=
  s.lqRun l.q && s.depsMet l && dteV (s.dte (lrAsid l.lr)) &&
    (!lrSer l.lr || decide (l.pos ≤ s.lqPrefix l.q + 1)) &&
    (match lrSavIdx l.lr with
     | some n => (s.naming n).all fun x => lrSact x.lr == lrSact l.lr
     | none => true)
/-- While an admitted launch names an aperture it is enabled, with the XFORM of SACT; after the last, disabled (R243). -/
def State.holdAperture (s : State) (n : Nat) : State :=
  match s.naming n with
  | [] => s.setReg (oAp n) (natPut (s.reg (oAp n)) 0 1 0)
  | l :: _ => s.setReg (oAp n) (natPut (natPut (s.reg (oAp n)) 0 1 1) 2 2 (if lrSact l.lr then 2 else 1))
/-- Hold the aperture that a record names. -/
def State.holdFor (s : State) (lr : BitVec 2048) : State :=
  match lrSavIdx lr with
  | some n => s.holdAperture n
  | none => s
/-- What is noted of a head: the highest numbers seen from its sources once the last of its dependences is satisfied (R317), and since when
it has been eligible (R316). -/
def State.noteHead (s : State) (l : Launch) : Launch :=
  if l.admitted then l
  else
    { l with
      pairs := if l.pairs.isEmpty && s.depsMet l then
          (List.range (lrNdep l.lr)).map fun j => (lrDepSrc l.lr j, s.seq.getD (lrDepSrc l.lr j) 1 - 1) else l.pairs
      eligAt := if s.eligible l then some (l.eligAt.getD s.tick) else none }
/-- What is noted of every head, as each step begins. -/
def State.noteHeads (s : State) : State := { s with launches := s.launches.map s.noteHead }
/-- An eligible head is admitted. -/
def execLaunchAdmit (q : BitVec 8) (s : State) : Res :=
  let q := q.toNat
  match s.launchAt q (s.headPos q) with
  | none => .next s
  | some l =>
    if l.admitted || s.coreDown || !s.eligible l then .next s
    else
      let s := s.modLaunch q l.pos fun l => { s.noteHead l with
        admitted := true, toPlace := List.range (lrReels l.lr), live := lrReels l.lr }
      .next (s.holdFor l.lr)

/-! ### Placement (R319, R320, R224) -/

/-- Priority of a launch, and of a saved reel with its age (R324). -/
def Launch.prio (l : Launch) : Nat := lrPrio l.lr
def State.savedPrio (s : State) (v : Saved) : Nat :=
  match s.launchAt v.reel.q v.reel.pos with
  | some l => min 31 (l.prio + v.aged)
  | none => 0
/-- Whether launch `a` is offered resources before `b` (R316). -/
def Launch.ahead (a b : Launch) : Bool :=
  if a.prio != b.prio then decide (b.prio < a.prio)
  else if a.eligAt != b.eligAt then (match a.eligAt, b.eligAt with | some x, some y => decide (x < y) | _, _ => false)
  else decide (a.q < b.q)
/-- The tenant of a launch. -/
def State.tenOf (s : State) (l : Launch) : Nat := s.lqTenant l.q
/-- Whether a placer backs off for a launch. -/
def State.backsOff (s : State) (l : Launch) : Bool := s.placers.any fun x => x.2.q == l.q && x.2.pos == l.pos && !x.2.ready
/-- Whether a launch can place its next reel now, a whole launch all of them (R320). -/
def State.canPlace (s : State) (l : Launch) : Bool :=
  let ten := s.tenOf l
  if lrWhole l.lr then
    let sh := shapes (lrCores l.lr)
    let most : Nat := ((s.clusters ten).map fun cl =>
      packMost l.lr (sh.length + 129) sh ((List.range 8).map fun i => s.roomOf (8 * cl + i))).sum
    decide (l.toPlace.length ≤ most)
  else s.placeable ten l.lr
/-- Whether a launch wants room. -/
def Launch.wants (l : Launch) : Bool := l.admitted && l.status.isNone && !l.toPlace.isEmpty
/-- The reels of a launch, resident and saved. -/
def State.reelsOf (s : State) (q pos : Nat) : List Nat := (s.reels.filter fun x => x.2.q == q && x.2.pos == pos).map (·.1)
def State.savedOf (s : State) (q pos : Nat) : List Nat := (s.saved.filter fun x => x.2.reel.q == q && x.2.reel.pos == pos).map (·.1)
/-- The core that takes the place of an old one, by its position in the reel. -/
def Saved.coreFor (v : Saved) (cores : List Nat) (c : Nat) : Nat :=
  match v.reel.cores.idxOf? c with
  | some j => cores.getD j c
  | none => c
/-- Whether a saved reel fits on cores: its shape, its room, and the tile numbers its workgroups own (R324). -/
def State.restorable (s : State) (v : Saved) (cores : List Nat) : Bool :=
  match s.launchAt v.reel.q v.reel.pos with
  | none => false
  | some l =>
    s.coresOk (s.tenOf l) l.lr cores && s.fitsOn l.lr cores &&
      v.tiles.all fun x => (s.tile (v.coreFor cores (x.1 / 64)) (x.1 % 64)).owner == 0
/-- Whether a saved reel, or every one of its whole launch, could be restored now. -/
def State.canRestore (s : State) (v : Saved) : Bool :=
  match s.launchAt v.reel.q v.reel.pos with
  | none => false
  | some l =>
    let ten := s.tenOf l
    let one := fun (v : Saved) =>
      (s.clusters ten).any fun cl => (shapes (lrCores l.lr)).any fun ps => s.restorable v (ps.map (8 * cl + ·))
    if lrWhole l.lr then
      let out := (s.savedOf l.q l.pos).filterMap fun rk => s.saved.find? rk
      s.canPlace { l with toPlace := out.map (·.reel.idx) } && out.all one
    else one v
/-- The queue that a team blocked in LWAIT awaits (R213). -/
def State.awaits (s : State) (k : Nat) (t : Team) : Option Nat :=
  match t.status, t.run with
  | .waiting 10, some r =>
    if s.stillWaits k t 10 then some (t.get (bits (r.words.getLastD 0) 7 6).toNat (r.entry.leader t.nlanes)).toNat else none
  | _, _ => none
/-- The queues that the teams of a saved reel, and of its whole launch, await (R213). -/
def State.queuesOf (s : State) (v : Saved) : List Nat :=
  let whole := match s.launchAt v.reel.q v.reel.pos with | some l => lrWhole l.lr | none => false
  ((s.saved.filter fun x => x.2.reel == v.reel || (whole && x.2.reel.q == v.reel.q && x.2.reel.pos == v.reel.pos)).flatMap fun x =>
    x.2.teams.filterMap fun y => s.awaits y.1 y.2).eraseDups
/-- Queues, with those that the saved reels of their launches await in turn. -/
def State.awaitsVia (s : State) : Nat → List Nat → List Nat
  | 0, qs => qs
  | n + 1, qs => State.awaitsVia s n (qs ++ (s.saved.filter fun x => qs.contains x.2.reel.q).flatMap fun x => s.queuesOf x.2).eraseDups
/-- Whether a saved reel awaits a queue, itself or through other saved reels (R213). -/
def State.awaitsOut (s : State) (v : Saved) (q : Nat) : Bool := (s.awaitsVia s.saved.length (s.queuesOf v)).contains q
/-- Where a saved reel stands among launches: ahead of those of its priority (R324). -/
def State.savedRank (s : State) (v : Saved) : Nat := 2 * s.savedPrio v + 1
/-- Where a launch stands: by its priority, or with the saved reels that have room and gave way to its queue, if that is higher (R213, log
entry 25). -/
def State.rank (s : State) (l : Launch) : Nat :=
  s.saved.foldl (fun m x => if s.awaitsOut x.2 l.q && s.canRestore x.2 then max m (s.savedRank x.2) else m) (2 * l.prio)
/-- Whether launch `a` is offered room before `b`. -/
def State.offeredFirst (s : State) (a b : Launch) : Bool :=
  if s.rank a != s.rank b then decide (s.rank b < s.rank a) else a.ahead b
/-- Whether a saved reel comes before a launch that has not started: of equal or higher priority, with room for it (R324), but for one
that gave way to the launch's queue (R213). -/
def State.savedFirst (s : State) (l : Launch) : Bool :=
  l.toPlace.length == lrReels l.lr && s.saved.any fun x => decide (s.rank l < s.savedRank x.2) && s.canRestore x.2

/-- The first page of the section whose translation faults and that the Stoker has not given up. -/
def State.sectionFault (s : State) (l : Launch) : Option Nat :=
  if lrBell l.lr = 0 then none
  else
    (((List.range (lrBellSize l.lr / 4)).map fun i => lrBell l.lr + 4 * i).find? fun va =>
      decide (va < 2 ^ 48) && !l.bad.contains (va / 4096) && (s.vaTo (lrAsid l.lr) va .load).isNone)
/-- Whether a launch's reels wait for a fault of its section at the Stoker. -/
def State.sectionWaits (s : State) (l : Launch) : Bool :=
  match s.sectionFault l with
  | some va => s.waitsFor (s.tenOf l) (.bellSection l.q l.pos (va / 4096))
  | none => false
/-- Whether a launch could place a reel now. -/
def State.takesRoom (s : State) (l : Launch) : Bool := !s.backsOff l && s.canPlace l && !s.savedFirst l && !s.sectionWaits l
/-- Whether a launch, admitted or an eligible head that is about to be, could place a reel now. -/
def State.contends (s : State) (l : Launch) : Bool :=
  if l.admitted then l.wants && s.takesRoom l else s.eligible l && s.takesRoom { l with toPlace := List.range (lrReels l.lr) }
/-- Whether a launch that comes before `l` could place a reel now (R316). -/
def State.outranked (s : State) (l : Launch) : Bool := s.launches.any fun a => s.contends a && s.offeredFirst (s.noteHead a) l
/-- Whether a saved reel waits for a launch that could place a reel now, of higher rank or of a queue it gave way to, or for a saved reel
of such a queue that has room, unless that one awaits its own queue in turn (R213, R324). -/
def State.behind (s : State) (v : Saved) : Bool :=
  (s.launches.any fun a => s.contends a && (decide (s.savedRank v < s.rank a) || s.awaitsOut v a.q)) ||
    s.saved.any fun x => s.awaitsOut v x.2.reel.q && !s.awaitsOut x.2 v.reel.q && s.canRestore x.2 &&
      !(x.2.reel.q == v.reel.q && x.2.reel.pos == v.reel.pos)

/-- The partition of a core that takes the next team: of those with a free slot that with the fewest resident teams, the lowest in a tie
(R71). -/
def State.nextPart (s : State) (c : Nat) : Nat :=
  let ps := ((List.range 8).map (8 * c + ·)).filter fun pt => decide (s.partLoad pt < 16)
  ps.foldl (fun b pt => if (s.teamsOf pt).length < (s.teamsOf b).length then pt else b) (ps.headD (8 * c))
/-- The free team slot of a partition that a team takes: the lowest (DESIGN CHOICE, log entry 71). -/
def State.freeSlot (s : State) (pt : Nat) : Nat := ((List.range 16).find? fun i => !(s.seated pt).contains (16 * pt + i)).getD 16
/-- The lowest free workgroup slot of a core, and the lowest free context. -/
def State.freeWgSlot (s : State) (c : Nat) : Nat := 16 * c + ((List.range 16).find? fun i => !s.wgs.has (16 * c + i)).getD 16
def State.freeCtx (s : State) (c : Nat) : Nat := 4 * c + ((List.range 4).find? fun i => !s.ctxs.has (4 * c + i)).getD 4
/-- A team at its start (R73, R124). -/
def Team.start (w wgteam : Nat) (lr : BitVec 2048) (tick : Nat) : Team :=
  { w := w, nlanes := lrLanes lr, wgteam := wgteam, pc := dwordOf (lrEntry lr), active := maskOf (lrLanes lr) fun _ => true, v := [], p := [],
    q := 0, mstack := [], rstack := [], frm := 0, fsat := 0, qctl := 0xFF03, srseed := 0, flags := 0, ashen := 0, boff := 0,
    alloc := 8 * lrVreg lr, pend := [], kmask := 0, yielded := false, marked := false, stv := 0, readyAt := tick, hold := 0,
    status := .ready, run := none, held := [], handler := none, sbuf := [], peerOut := [], invs := [] }
/-- Give a team the next slot of a core. -/
def State.seatTeam (s : State) (c : Nat) (t : Team) : State × Nat :=
  let pt := s.nextPart c
  let k := 16 * pt + s.freeSlot pt
  (s.setTeam k t, k)
/-- Admit workgroup `i` of a reel on a core, with the slots of its teams: its account opens with the units beyond its teams' needs (R220). -/
def State.seatWg (s : State) (l : Launch) (rl c i : Nat) : State × Nat × List Nat :=
  let w := s.freeWgSlot c
  let lr := l.lr
  let g : Wg := { Wg.empty with
    q := l.q, pos := l.pos, reel := rl, reelwg := i, wgid := rl * lrWgpr lr + i, lr := lr, ten := s.tenOf l, asid := lrAsid lr,
    ktag := dteKtag (s.dte (lrAsid lr)), account := lrReg lr * 64 - lrNeed lr, teamsLeft := lrTpw lr }
  let x := (List.range (lrTpw lr)).foldl (fun (a : State × List Nat) j =>
    let y := a.1.seatTeam c (Team.start w j lr a.1.tick)
    (y.1, a.2 ++ [y.2])) (s.setWg w g, [])
  (x.1, w, x.2)

/-- A word of a Bellows section, by the walk alone: none where it must be copied as zero. -/
def State.sectionWord (s : State) (l : Launch) (o : Nat) : State × Option (List Byte) :=
  let va := lrBell l.lr + o
  if l.bad.contains (va / 4096) then (s, none) else s.readVa (lrAsid l.lr) va 4
/-- Copy the section into a context's quarter: a word that cannot be read is zero, with a record (R224). -/
def State.loadSection (s : State) (x : Nat) (l : Launch) : State :=
  (List.range (lrBellSize l.lr / 4)).foldl (fun s i =>
    match s.sectionWord l (4 * i) with
    | (s, some bs) => { s with ctxs := s.ctxs.modify x fun c => { c with mem := c.mem.writeN (4 * i) bs } }
    | (s, none) => s.report (srcCtx x) { cat := 4, code := 8, ten := some (s.tenOf l), asid := some (lrAsid l.lr), aux0 := 4 * i }) s
/-- A context at its start (Table 12.1). -/
def Ctx.start (rk ten asid : Nat) : Ctx :=
  { reel := rk, ten := ten, asid := asid, pc := 0, g := [], mem := [], posts := [], cur := none, arming := none, slots := [], table := none,
    halted := false, fault := 0, stoker := 0 }
/-- Commit a reel on its cores: its workgroups are seated by ascending %reelwg (DESIGN CHOICE, log entry 71). -/
def State.commitReel (s : State) (l : Launch) (rl : Nat) (cores : List Nat) : State :=
  let rk := reelKey l.q l.pos rl
  let r := (List.range (lrWgpr l.lr)).foldl (fun (acc : State × List Nat × List Nat) i =>
    let y := acc.1.seatWg l rl (cores.getD (i % lrCores l.lr) 0) i
    (y.1, acc.2.1 ++ [y.2.1], acc.2.2 ++ y.2.2)) (s, [], [])
  let z := if lrBell l.lr = 0 then (r.1, []) else
    cores.foldl (fun (acc : State × List Nat) c =>
      let x := acc.1.freeCtx c
      ((acc.1.setCtx x (Ctx.start rk (s.tenOf l) (lrAsid l.lr))).loadSection x l, acc.2 ++ [x])) (r.1, [])
  let reel : Reel := { q := l.q, pos := l.pos, idx := rl, cores := cores, wgs := r.2.1, ctxs := z.2, seats := r.2.2, placedAt := s.tick }
  { z.1 with reels := z.1.reels.insert rk reel }.modLaunch l.q l.pos fun l => { l with toPlace := l.toPlace.filter (· != rl) }

/-- Cut a list of cores into reels. -/
def reelCores (n : Nat) : Nat → List Nat → List (List Nat)
  | 0, _ => []
  | k + 1, cs => cs.take n :: reelCores n k (cs.drop n)
/-- Place reels one after another, each where it fits; none if one does not. -/
def State.placeAll (s : State) (l : Launch) : List (Nat × List Nat) → Option State
  | [] => some s
  | (rl, cores) :: rest =>
    if s.coresOk (s.tenOf l) l.lr cores && s.fitsOn l.lr cores then (s.commitReel l rl cores).placeAll l rest else none

/-- Whether a placer is bound to another reel, which it has failed to place and tries again, now that there is room for it; once its back-off
has ended a launch that is offered room first takes it, and a reel without room binds none (R213, R316, R319). -/
def State.placerBound (s : State) (n q pos rl : Nat) : Bool :=
  match s.placers.find? n with
  | none => false
  | some p => !(p.q == q && p.pos == pos && p.rl == rl) &&
      (match s.launchAt p.q p.pos with
       | some a => a.wants && a.toPlace.contains p.rl && s.takesRoom a && !(match s.launchAt q pos with | some l => s.offeredFirst l a | none => false)
       | none => false)
/-- A placer tries a reel on cores: it commits it, or fails and backs off. A whole launch is placed in one operation, `cores` naming
those of every reel. -/
def execReelPlace (pl : BitVec 3) (q : BitVec 8) (pos rl : Nat) (cores : List Nat) (s : State) : Res :=
  let n := pl.toNat
  match s.launchAt q.toNat pos with
  | none => .next s
  | some l =>
    let other := s.placers.any fun x => x.1 != n && x.2.q == l.q && x.2.pos == pos && x.2.rl == rl
    let held := match s.placers.find? n with | some p => !p.ready | none => false
    if !l.admitted || l.status.isSome || !l.toPlace.contains rl || s.coreDown || other || held || s.placerBound n l.q pos rl ||
        s.outranked l || s.savedFirst l then .next s
    else
      match s.sectionFault l with
      | some va =>
        if s.waitsFor (s.tenOf l) (.bellSection l.q pos (va / 4096)) then .next s
        else
          let c := match s.walk (lrAsid l.lr) va .load with | .fault c _ _ => c | .ok _ _ _ _ _ => 4
          .next (s.submit (s.tenOf l) (s.faultOf (lrAsid l.lr) va c .load (.bellSection l.q pos (va / 4096))))
      | none =>
        let plan := if lrWhole l.lr then l.toPlace.zip (reelCores (lrCores l.lr) l.toPlace.length cores) else [(rl, cores)]
        match s.placeAll l plan with
        | some s => .next { s with placers := s.placers.erase n }
        | none =>
          let fails := l.fails.getD rl 0 + 1
          let (f, s) := s.freshNat
          let p : Placer := { q := l.q, pos := pos, rl := rl, fails := fails, waitCycles := f % (16 * 2 ^ min fails 10), ready := false }
          .next ({ s with placers := s.placers.insert n p }.modLaunch l.q pos fun l => { l with fails := l.fails.insert rl fails })
/-- A placer's back-off ends: it may try again. -/
def execPlacerBackoffExpiry (pl : BitVec 3) (s : State) : Res :=
  .next { s with placers := s.placers.modify pl.toNat fun p => { p with ready := true } }

/-! ### Ending and completion (R326, R327) -/

/-- Take the teams of workgroups out, their performed stores made visible. -/
def State.killTeams (s : State) (ts : List Nat) : State :=
  ts.foldl (fun s k =>
    let s := (s.drainAll k).attemptOver k
    { s with teams := s.teams.erase k }) s
/-- The workgroups of a launch. -/
def State.wgsOfLaunch (s : State) (q pos : Nat) : List Nat := (s.wgs.filter fun x => x.2.q == q && x.2.pos == pos).map (·.1)
/-- The teams of a launch whose attempt is not issuing. -/
def State.idleTeams (s : State) (ws : List Nat) : List Nat :=
  (s.teams.filter fun x => ws.contains x.2.w && (s.part (partOfTeam x.1)).issuing != some x.1).map (·.1)
/-- Whether a waiter belongs to what is being ended. -/
def State.waiterOf (s : State) (ws rks : List Nat) (who : Waiter) : Bool :=
  match who with
  | .team k => match s.teams.find? k with | some t => ws.contains t.w | none => true
  | .ctx x => match s.ctxs.find? x with | some c => rks.contains c.reel | none => true
  | .copy x _ => match s.ctxs.find? x with | some c => rks.contains c.reel | none => true
  | .mop w _ => ws.contains w
  | .saved rk _ => rks.contains rk
  | _ => false
/-- Drop every fault whose waiter is gone. -/
def State.dropWaiters (s : State) (ws rks : List Nat) : State :=
  { s with tenants := s.tenants.map fun x => (x.1, { x.2 with faults := x.2.faults.filter fun f => !s.waiterOf ws rks f.waiter }) }
/-- Free a saved reel's area. -/
def State.freeSaved (s : State) (ten rk : Nat) : State :=
  match s.saved.find? rk with
  | none => s
  | some v => v.frames.foldl (fun s f => s.giveFrame ten f) { s with saved := s.saved.erase rk }

/-- The engine work of workgroups stops (R326): matrix operations fail as under MABORT, copies and transforms are dropped, a running
transform part-way. -/
def State.dropWork (s : State) (ws rks : List Nat) : State :=
  let s := ws.foldl (fun s w => (s.abortOps w ((s.wgOf w).donePfx + 1)).1) s
  let s := s.xq.foldl (fun s x => match x.2 with | o :: _ => if ws.contains o.w then s.stopXfm x.1 o else s | [] => s) s
  { s with
    xq := s.xq.map fun (x : Nat × List XOp) => (x.1, x.2.filter fun o => !ws.contains o.w)
    ctxs := s.ctxs.map fun (x : Nat × Ctx) => if rks.contains x.2.reel then (x.1, { x.2 with slots := [], halted := true, posts := [] }) else x }
/-- End a resident or saved launch: its engine work stops, and every team not in the middle of an attempt is taken out; the others start
nothing more. -/
def State.endLaunch (s : State) (l : Launch) : State :=
  let ws := s.wgsOfLaunch l.q l.pos
  let rks := s.reelsOf l.q l.pos
  let out := s.savedOf l.q l.pos
  let s := (s.dropWaiters ws (rks ++ out)).dropWork ws rks
  let s := out.foldl (fun s rk => s.freeSaved (s.tenOf l) rk) s
  let s := s.killTeams (s.idleTeams ws)
  s.modLaunch l.q l.pos fun l => { l with status := some 1, toPlace := [] }
/-- LQEND: a position that is admitted and not complete is ended; any other write by the owner is ignored, and so is one during a core reset,
to which the launch is lost (R22). -/
def State.lqendPut (s : State) (ag : BitVec 5) (q v : Nat) : State :=
  if !s.ownsTenant ag (s.lqTenant q) then s.refuseReg ag (oLqend q)
  else
    match s.launchAt q v with
    | some l => if l.admitted && l.status.isNone && !l.done && !s.resetting then s.endLaunch l else s
    | none => s
def execLqendWrite (ag : BitVec 5) (q : BitVec 8) (v : BitVec 64) (s : State) : Res := .next (s.byAgent ag (·.lqendPut ag q.toNat v.toNat))

/-- The completion record (Table 18.10). -/
def completionRec (l : Launch) (st seq : Nat) : List Byte :=
  let head := natLE 4 (srcQueue l.q) ++ natLE 4 st ++ natLE 8 seq ++ natLE 8 l.pos ++ natLE 4 (lrGrid l.lr) ++ natLE 4 l.pairs.length ++
    natLE 8 l.energy ++ natLE 4 l.preempts ++ natLE 20 0
  padTo 192 (head ++ l.pairs.flatMap fun p => natLE 4 p.1 ++ natLE 4 0 ++ natLE 8 p.2)
/-- PREFIX advances over every contiguous completed position whose record is performed at system scope (R327). -/
def State.advancePrefix (s : State) (q : Nat) : Nat → State
  | 0 => s
  | n + 1 =>
    let p := s.lqPrefix q + 1
    match s.launchAt q p with
    | some l =>
      if l.done && !(s.ringWaits (32 + q)).contains p then
        State.advancePrefix ({ s with launches := s.launches.filter fun x => !(x.q == q && x.pos == p) }.setReg (oLqpfx q) p) q n
      else s
    | none => s
/-- Record a launch's completion: its number is taken, its record written at CTGT or lost, and PREFIX advances (R327). -/
def State.completeLaunch (s : State) (l : Launch) (st : Nat) : State :=
  let (n, s) := s.takeSeq (srcQueue l.q)
  let s := s.modLaunch l.q l.pos fun l => { l with status := some st, done := true, toPlace := [] }
  let s := if st < 0x10 then s.holdFor l.lr else s
  let s :=
    if lrCtgt l.lr = 0 then s
    else match s.writeVa (lrAsid l.lr) (lrCtgt l.lr) (completionRec l st n) { path := 6, ring := some (32 + l.q, l.pos) } with
      | some s => s
      | none => s.lostRecord srcChimney (s.tenOf l) 8
  s.advancePrefix l.q (s.launches.length + 1)

/-- A launch completes: its last reel has ended, it was refused, or what it was ended with has stopped, what its teams issued since among
it. During a core reset none does (R22). -/
def execLaunchComplete (q : BitVec 8) (pos : Nat) (s : State) : Res :=
  match s.launchAt q.toNat pos with
  | none => .next s
  | some l =>
    if !l.admitted || l.done || s.resetting then .next s
    else
      match l.status with
      | none => if l.live = 0 && l.toPlace.isEmpty then .next (s.completeLaunch l 0) else .next s
      | some st =>
        let ws := s.wgsOfLaunch l.q pos
        let ts := (s.teams.filter fun x => ws.contains x.2.w).map (·.1)
        let idle := s.idleTeams ws
        if ts.length != idle.length then .next s
        else
          let s := (s.killTeams ts).dropWork ws (s.reelsOf l.q pos)
          let s := ws.foldl (fun s w => s.freeWg w) s
          .next (s.completeLaunch l st)

end Sys2Proof.Machine
end

