-- ==== Sys2Proof/Machine/Preempt.lean ====
section
/-! DEFINITION. Pre-emption, restore and ageing of reels (R213, R322..R325). -/

namespace Sys2Proof.Machine

/-! ### Which reels are pre-empted (R322) -/

/-- The sublists of `n` elements, earlier elements first. -/
def choicesOf {α : Type} : Nat → List α → List (List α)
  | 0, _ => [[]]
  | _ + 1, [] => []
  | n + 1, x :: xs => (choicesOf n xs).map (x :: ·) ++ choicesOf (n + 1) xs
/-- Put an element into an ordered list, behind its equals. -/
def insertBy {α : Type} (lt : α → α → Bool) (x : α) : List α → List α
  | [] => [x]
  | y :: ys => if lt x y then x :: y :: ys else y :: insertBy lt x ys
/-- The teams of a reel. -/
def State.teamsOfReel (s : State) (r : Reel) : SMap Team := s.teams.filter fun x => r.wgs.contains x.2.w
/-- The reels that are pre-empted with one: all of its launch when that is whole. -/
def State.unitOf (s : State) (rk : Nat) : List Nat :=
  match s.reels.find? rk with
  | none => []
  | some r =>
    match s.launchAt r.q r.pos with
    | some l => if lrWhole l.lr then s.reelsOf r.q r.pos else [rk]
    | none => []
/-- Whether a reel may be pre-empted: its launch goes on, no stopped context, no team on a stopped partition (R325, R368). -/
def State.reelMay (s : State) (r : Reel) : Bool :=
  !s.coreDown && (match s.launchAt r.q r.pos with | some l => l.status.isNone && !l.done | none => false) &&
    ((s.teamsOfReel r).all fun x => x.2.status != .stopped && !s.stopped (partOfTeam x.1)) &&
    r.ctxs.all fun x => match s.ctxs.find? x with | some c => c.fault == 0 | none => true
/-- Whether every reel of a unit may be pre-empted. -/
def State.unitMay (s : State) (u : List Nat) : Bool :=
  u.all fun rk => match s.reels.find? rk with | some r => s.reelMay r | none => false
/-- Whether every team of a unit is at a choice point, awaiting no invalidation (R323). -/
def State.unitStops (s : State) (u : List Nat) : Bool :=
  u.all fun rk => match s.reels.find? rk with
    | some r => (s.teamsOfReel r).all fun x => (s.part (partOfTeam x.1)).issuing != some x.1 && x.2.invs.isEmpty
    | none => false
/-- The machine with reels taken out. -/
def State.without (s : State) (rks : List Nat) : State :=
  let rs := rks.filterMap fun rk => s.reels.find? rk
  let ws := rs.flatMap (·.wgs)
  let cs := rs.flatMap (·.ctxs)
  { s with
    teams := s.teams.filter fun (x : Nat × Team) => !ws.contains x.2.w
    wgs := s.wgs.filter fun (x : Nat × Wg) => !ws.contains x.1
    ctxs := s.ctxs.filter fun (x : Nat × Ctx) => !cs.contains x.1
    tiles := s.tiles.filter fun (x : Nat × Tile) => !(ws.any fun w => coreOfWg w == x.1 / 64 && x.2.ownedBy w)
    xq := s.xq.map fun (x : Nat × List XOp) => (x.1, x.2.filter fun o => !ws.contains o.w)
    reels := s.reels.filter fun (x : Nat × Reel) => !rks.contains x.1 }
/-- Priority of a resident reel's launch. -/
def State.reelPrio (s : State) (rk : Nat) : Nat :=
  match s.reels.find? rk with
  | some r => (match s.launchAt r.q r.pos with | some l => l.prio | none => 0)
  | none => 0
/-- When a unit was last placed. -/
def State.unitPlaced (s : State) (u : List Nat) : Nat :=
  (u.map fun rk => match s.reels.find? rk with | some r => r.placedAt | none => 0).foldl max 0
/-- Take frames for a save area: the Stoker allocates it, by a hart that runs (R33). -/
def State.takeFrames (s : State) (ten : Nat) : Nat → Option (List Nat × State)
  | 0 => some ([], s)
  | n + 1 =>
    match if s.hartUp ten then s.takeFrame ten 0 else none with
    | none => none
    | some (f, s) => (State.takeFrames s ten n).map fun x => (f :: x.1, x.2)
/-- Frames of a reel's save area: its granules of 16 KiB, and one for the rest (log entry 17). -/
def State.areaFrames (s : State) (r : Reel) : Nat :=
  let gs : Nat := (r.wgs.map fun w => lrGranules (s.wgOf w).lr).sum
  4 * gs + 1
/-- Whether the save areas of reels can be allocated, one after another (R322). -/
def State.areasFor (s : State) : List Nat → Bool
  | [] => true
  | rk :: rest =>
    match s.reels.find? rk with
    | none => State.areasFor s rest
    | some r => match s.takeFrames (s.lqTenant r.q) (s.areaFrames r) with
      | some (_, s) => State.areasFor s rest
      | none => false
/-- The units below a priority that may be pre-empted, lowest priority first, then the most recently placed. -/
def State.unitsBelow (s : State) (p : Nat) : List (List Nat) :=
  let us := ((s.reels.keys.map s.unitOf).eraseDups).filter fun u => !u.isEmpty && decide (s.reelPrio (u.headD 0) < p) && s.unitMay u
  us.foldl (fun out u => insertBy (fun a b =>
    let x := s.reelPrio (a.headD 0)
    let y := s.reelPrio (b.headD 0)
    if x != y then decide (x < y) else decide (s.unitPlaced b < s.unitPlaced a)) u out) []
/-- The fewest units whose leaving gives room, of those whose save areas can be allocated. -/
def State.fewest (s : State) (p : Nat) (room : State → Bool) : List (List Nat) :=
  let us := s.unitsBelow p
  ((List.range (us.length + 1)).findSome? fun n => (choicesOf n us).find? fun c => room (s.without c.flatten) && s.areasFor c.flatten).getD []
/-- The reels pre-empted for room: for every launch, and every saved reel, that lacks it (R322, R324). -/
def State.victims (s : State) : List Nat :=
  (s.launches.flatMap fun l => if l.wants && !s.canPlace l then (s.fewest l.prio fun s => s.canPlace l).flatten else []) ++
    s.saved.flatMap fun x => if s.canRestore x.2 then [] else (s.fewest (s.savedPrio x.2) fun s => s.canRestore x.2).flatten
/-- Whether a unit may give way: a team of it awaits a queue that has a launch, to be placed or saved, without room (R213). -/
def State.givesWay (s : State) (u : List Nat) : Bool :=
  u.any fun rk =>
    match s.reels.find? rk with
    | none => false
    | some r => (s.teamsOfReel r).any fun x =>
      match s.awaits x.1 x.2 with
      | some q => (s.launches.any fun l => l.q == q && l.wants && !s.canPlace l) || s.saved.any fun y => y.2.reel.q == q && !s.canRestore y.2
      | none => false

/-! ### Saving (R323, Table 18.8) -/

/-- Pending loads complete (R52); a poisoned write still waits for its use (R81). -/
def Team.settleLoads (t : Team) : Team :=
  t.pend.foldl (fun t p =>
    if p.poison then { t with pend := t.pend.map fun q => if q.reg = p.reg then { q with landed := true } else q } else t.land p) t
/-- What is saved of a team: a back-off as the cycles that remain. -/
def Team.saved (t : Team) (pcyc : Nat) : Team :=
  let t := t.settleLoads
  if t.status == .backoff then { t with hold := (t.hold + 2 ^ 64 - pcyc) % 2 ^ 64 } else t
/-- What is saved of a workgroup: a running MLOOP at its step, other operations at their beginning (R265). -/
def Wg.saved (g : Wg) : Wg :=
  { g with mops := g.mops.map fun m =>
    if m.st != 1 then m else if m.op == .mloop then { m with st := 0 } else { m with st := 0, step := 0, flags := 0 } }
/-- A waiter of a reel that leaves. -/
def Waiter.away (who : Waiter) (rk : Nat) (ks ws cs : List Nat) : Waiter :=
  match who with
  | .team k => if ks.contains k then .saved rk who else who
  | .ctx x => if cs.contains x then .saved rk who else who
  | .copy x _ => if cs.contains x then .saved rk who else who
  | .mop w _ => if ws.contains w then .saved rk who else who
  | _ => who
/-- Save a reel: none where its save area cannot be allocated. -/
def State.saveReel (s : State) (rk : Nat) : Option State :=
  match s.reels.find? rk with
  | none => none
  | some r =>
    let ten := s.lqTenant r.q
    match s.takeFrames ten (s.areaFrames r) with
    | none => none
    | some (fs, s) =>
      let ts := s.teamsOfReel r
      let v : Saved := {
        reel := r
        teams := ts.map fun (x : Nat × Team) => (x.1, x.2.saved (s.part (partOfTeam x.1)).pcyc)
        wgs := (s.wgs.filter fun (x : Nat × Wg) => r.wgs.contains x.1).map fun (x : Nat × Wg) => (x.1, x.2.saved)
        ctxs := s.ctxs.filter fun (x : Nat × Ctx) => r.ctxs.contains x.1
        tiles := s.tiles.filter fun (x : Nat × Tile) => r.wgs.any fun w => coreOfWg w == x.1 / 64 && x.2.ownedBy w
        xq := s.xq.flatMap fun (x : Nat × List XOp) =>
          (x.2.filter fun (o : XOp) => r.wgs.contains o.w).map fun (o : XOp) => { o with started := false, vec := 0, old := [] }
        aged := 0
        frames := fs }
      let s := s.without [rk]
      let away := fun (f : SFault) => { f with waiter := f.waiter.away rk (ts.map (·.1)) r.wgs r.ctxs }
      some ({ s with
        saved := s.saved.insert rk v
        tenants := s.tenants.map fun (x : Nat × Tenant) => (x.1, { x.2 with faults := x.2.faults.map away })
      }.modLaunch r.q r.pos fun l => { l with preempts := l.preempts + 1 })
/-- Make every performed store of a unit's teams visible (R52). -/
def State.drainUnit (s : State) (u : List Nat) : State :=
  u.foldl (fun s rk =>
    match s.reels.find? rk with
    | some r => (s.teamsOfReel r).foldl (fun s x => s.drainAll x.1) s
    | none => s) s
/-- Whether a store of a unit still waits outside the device, at a peer or for a back-invalidate. -/
def State.unitHeld (s : State) (u : List Nat) : Bool :=
  u.any fun rk =>
    match s.reels.find? rk with
    | some r => (s.teamsOfReel r).any fun x => !x.2.peerOut.isEmpty || s.biWait.any fun b => b.by'.team == some x.1
    | none => false
/-- Save every reel of a unit, or none. -/
def State.saveUnit (s : State) : List Nat → Option State
  | [] => some s
  | rk :: rest =>
    match s.saveReel rk with
    | none => none
    | some s => State.saveUnit s rest

/-- A reel is stopped at choice points, saved and released; a whole launch whole. Until each of its teams is at one, it waits for them. -/
def execReelPreempt (rk : Nat) (s : State) : Res :=
  let u := s.unitOf rk
  if u.isEmpty || !s.unitMay u || !s.unitStops u || !(s.victims.contains rk || s.givesWay u) then .next s
  else
    let d := s.drainUnit u
    if d.unitHeld u then .next s else .next ((d.saveUnit u).getD s)

/-! ### Restoring (R324) -/

/-- The new name of a numbered thing. -/
def renamed (m : List (Nat × Nat)) (n : Nat) : Nat := match m.find? fun x => x.1 == n with | some x => x.2 | none => n
/-- A place in a workgroup that has moved. -/
def Place.moved (p : Place) (wm : List (Nat × Nat)) : Place :=
  match p with
  | .scr w o => .scr (renamed wm w) o
  | .acc w o => .acc (renamed wm w) o
  | _ => p
/-- A run of a team that has moved. -/
def Run.moved (r : Run) (wm : List (Nat × Nat)) : Run :=
  let f := fun (st : Store) => { st with at' := st.at'.moved wm }
  { r with
    stores := r.stores.map f
    sdb := r.sdb.map f
    reached := r.reached.map fun (x : Nat × TermAcc) => (x.1, { x.2 with at' := x.2.at'.moved wm })
    watch := r.watch.map fun (x : Place × Nat × Nat × Word) => (x.1.moved wm, x.2) }
/-- A team that has moved to a partition. -/
def Team.moved (t : Team) (wm : List (Nat × Nat)) (pcyc tick : Nat) : Team :=
  { t with
    w := renamed wm t.w
    run := t.run.map (·.moved wm)
    handler := t.handler.map fun h => { h with run := h.run.moved wm }
    readyAt := tick
    hold := if t.status == .backoff then (t.hold + pcyc) % 2 ^ 64 else t.hold }
/-- A workgroup that has moved. -/
def Wg.moved (g : Wg) (km : List (Nat × Nat)) : Wg :=
  { g with
    claims := g.claims.map fun x => (renamed km x.1, x.2)
    rdv := g.rdv.map fun (x : Nat × List Rdv) => (x.1, x.2.map fun (d : Rdv) => { d with k := renamed km d.k }) }
/-- A context that has moved. -/
def Ctx.moved (c : Ctx) (wm : List (Nat × Nat)) : Ctx :=
  let f := fun (p : Poster) => if p.ended then p else { p with w := renamed wm p.w }
  { c with
    cur := c.cur.map f
    posts := c.posts.map fun p => { p with who := f p.who }
    slots := c.slots.map fun (x : Nat × Copy) => (x.1, { x.2 with w := renamed wm x.2.w }) }
/-- A waiter of a reel that has returned. -/
def Waiter.back (who : Waiter) (km wm cm : List (Nat × Nat)) : Waiter :=
  match who with
  | .team k => .team (renamed km k)
  | .ctx x => .ctx (renamed cm x)
  | .copy x sl => .copy (renamed cm x) sl
  | .mop w op => .mop (renamed wm w) op
  | _ => who
/-- Faults of a reel that has returned: what could not be resolved meanwhile is lost now (R325). -/
def State.faultsBack (s : State) (ten rk : Nat) (km wm cm : List (Nat × Nat)) : State :=
  let back := fun (f : SFault) =>
    match f.waiter with
    | .saved r who => if r = rk then { f with waiter := who.back km wm cm } else f
    | _ => f
  let lost := ((s.tenant ten).faults.filter fun f => f.asked && back f != f).map back
  let s := s.setTenant ten { s.tenant ten with faults := ((s.tenant ten).faults.filter fun f => !f.asked || back f == f).map back }
  lost.foldl (fun s f => s.lose ten f) s

/-- The slots of a reel's teams that have exited stay held (R215). -/
def State.holdSeats (s : State) (rk : Nat) (v : Saved) (cores : List Nat) : State :=
  let gone := v.reel.seats.filter fun k => !v.teams.has k
  gone.foldl (fun s k =>
    let pt := s.nextPart (v.coreFor cores (coreOfTeam k))
    let n := 16 * pt + s.freeSlot pt
    { s with reels := s.reels.modify rk fun r => { r with seats := r.seats ++ [n] } }) s
/-- Bring a saved reel back on cores: the words that its WAITVs watch are read again. -/
def State.restoreReel (s : State) (rk : Nat) (v : Saved) (cores : List Nat) : State :=
  let ten := s.lqTenant v.reel.q
  let s := v.frames.foldl (fun s f => s.giveFrame ten f) { s with saved := s.saved.erase rk }
  let seatW := v.wgs.foldl (fun (a : State × List (Nat × Nat)) x =>
    let w := a.1.freeWgSlot (v.coreFor cores (coreOfWg x.1))
    (a.1.setWg w x.2, a.2 ++ [(x.1, w)])) (s, [])
  let wm := seatW.2
  let seatT := v.teams.foldl (fun (a : State × List (Nat × Nat)) x =>
    let y := a.1.seatTeam (v.coreFor cores (coreOfTeam x.1)) x.2
    (y.1, a.2 ++ [(x.1, y.2)])) (seatW.1, [])
  let km := seatT.2
  let seatC := v.ctxs.foldl (fun (a : State × List (Nat × Nat)) x =>
    let c := a.1.freeCtx (v.coreFor cores (coreOfCtx x.1))
    (a.1.setCtx c (x.2.moved wm), a.2 ++ [(x.1, c)])) (seatT.1, [])
  let cm := seatC.2
  let s := seatC.1
  let s := km.foldl (fun s x => s.modTeam x.2 fun t => t.moved wm (s.part (partOfTeam x.2)).pcyc s.tick) s
  let s := wm.foldl (fun s x => s.setWg x.2 ((s.wgOf x.2).moved km)) s
  let s := v.tiles.foldl (fun s x =>
    let old := (x.1 / 64) * 16 + (x.2.owner - 1)
    s.setTile (v.coreFor cores ((x.1 / 64))) (x.1 % 64)
      { x.2 with owner := renamed wm old % 16 + 1, openBy := x.2.openBy.map (renamed cm) }) s
  let s := v.xq.foldl (fun s o =>
    let w := renamed wm o.w
    { s with xq := SMap.insert s.xq (coreOfWg w) ((s.xq.getD (coreOfWg w) []) ++ [{ o with w := w }]) }) s
  let reel : Reel := { v.reel with cores := cores, wgs := wm.map (·.2), ctxs := cm.map (·.2), seats := km.map (·.2), placedAt := s.tick }
  let s := km.foldl (fun s x => match (s.teams.find? x.2).bind (·.run) with | some r => s.noteWatch r | none => s) s
  ({ s with reels := s.reels.insert rk reel }.holdSeats rk v cores).faultsBack ten rk km wm cm
/-- Restore reels one after another, each where it fits; none if one does not. -/
def State.restoreAll (s : State) : List (Nat × List Nat) → Option State
  | [] => some s
  | (rk, cores) :: rest =>
    match s.saved.find? rk with
    | none => none
    | some v => if s.restorable v cores then (s.restoreReel rk v cores).restoreAll rest else none

/-- A saved reel is reserved and restored whole, on its former cores where they have room; `cores` names those of every reel of a whole
launch. -/
def execReelRestore (rk : Nat) (cores : List Nat) (s : State) : Res :=
  match s.saved.find? rk with
  | none => .next s
  | some v =>
    match s.launchAt v.reel.q v.reel.pos with
    | none => .next s
    | some l =>
      if s.coreDown || l.status.isSome || s.behind v then .next s
      else
        let rks := if lrWhole l.lr then s.savedOf l.q l.pos else [rk]
        let former := rks.map fun r => (r, match s.saved.find? r with | some v => v.reel.cores | none => [])
        let plan := if (s.restoreAll former).isSome then former else rks.zip (reelCores (lrCores l.lr) rks.length cores)
        .next ((s.restoreAll plan).getD s)

/-- 2^20 core cycles have passed for a reel that is out: its priority rises by 1 (R324). -/
def execPriorityAgeing (rk : Nat) (s : State) : Res :=
  .next { s with saved := s.saved.modify rk fun v => { v with aged := min 31 (v.aged + 1) } }

end Sys2Proof.Machine
end

