-- ==== Sys2Proof/Machine/Debug.lean ====
section
/-! DEFINITION. Observation (R366..R379): observation registers, stops and steps, breakpoints, stall samples and core dumps; and the
metering of energy (R328). -/

namespace Sys2Proof.Machine

/-! ### Stops (R367..R371) -/

/-- BRK: a team terminal; where DBGCTL names the team's tenant its partition stops, with the team behind the trailer. -/
def execBrk (a : BitVec 6) (g : Guard) (s : State) : Res :=
  teamTerminal s g false fun s k t r =>
    let pt := partOfTeam k
    let on := natBit (s.reg (oDbgctl pt)) (48 + (s.wgOf t.w).ten)
    let s := s.endRun k r.nextPc
    if on then s.askStop pt 2 (slotOfTeam k) a.toNat else s

/-- RESUME clears STOPPED, and the partition chooses again. -/
def State.resume (s : State) (pt : Nat) : State :=
  if s.stopped pt then s.setReg (oDbgstat pt) (natPut (s.reg (oDbgstat pt)) 0 1 0) else s
/-- STEP: the partition runs, choosing only the team in a slot, for one attempt; ignored unless it is stopped and the slot holds a team. -/
def State.stepTeam (s : State) (pt sl : Nat) : State :=
  if s.stopped pt && s.teams.has (16 * pt + sl) then
    let s := s.setPart pt { s.part pt with stepSlot := some sl }
    s.setReg (oDbgstat pt) (natPut (s.reg (oDbgstat pt)) 0 1 0)
  else s
/-- Of competing causes, the lowest, then the lowest slot, then the first (R367). -/
def firstCause : List (Nat × Nat × Nat) → Option (Nat × Nat × Nat)
  | [] => none
  | x :: xs =>
    match firstCause xs with
    | none => some x
    | some y => if y.1 < x.1 || (y.1 == x.1 && decide (y.2.1 < x.2.1)) then some y else some x
/-- A stop takes effect once no attempt issues: every resident team is frozen. -/
def execPartitionStopTakeEffect (pt : Nat) (s : State) : Res :=
  let p := s.part pt
  match firstCause p.stopReq with
  | none => .next s
  | some c =>
    if p.issuing.isSome || s.stopped pt then .next s
    else
      .next ((s.setPart pt { p with stopReq := [], stepSlot := none }).setReg (oDbgstat pt)
        (c.2.2 % 256 * 2 ^ 24 + c.2.1 % 16 * 2 ^ 20 + c.1 % 16 * 2 ^ 16 + 1))

/-! ### Observation registers (R366, Tables 22.1, 22.2) -/

/-- Whether an offset lies in an observation block or a tenant's dump block. -/
def obsReg (off : Nat) : Bool := decide (0x2000000 ≤ off) && decide (off < 0x3000400) && off % 8 == 0
/-- The partition of an observation register, none for a core's sampling registers and the dump registers. -/
def obsPart (off : Nat) : Option Nat :=
  let o := (off - 0x2000000) % 0x4000
  if decide (off < 0x3000000) && decide (0x1000 ≤ o) && decide (o < 0x3000) then
    some ((off - 0x2000000) / 0x4000 * 8 + (o - 0x1000) / 0x400)
  else none
/-- Whether a write enables a stop, a breakpoint or a dump (R382). -/
def obsEnables (off v : Nat) : Bool :=
  match obsPart off with
  | some _ =>
    let p := (off - 0x2000000) % 0x400
    (p == 0 && (natBit v 0 || natBit v 2 || natBits v 48 16 != 0)) || (decide (0x10 ≤ p) && decide (p < 0x30) && natBit v 0)
  | none => decide (0x3000000 ≤ off) && off % 0x40 == 0 && natBit v 0
/-- Whether a sampling register may take a value: SMPBASE, SMPSIZE and TENANT stand still while sampling is on (R366). -/
def State.obsFree (s : State) (off v : Nat) : Bool :=
  let o := (off - 0x2000000) % 0x4000
  if decide (0x3000000 ≤ off) || decide (0x1000 ≤ o) then true
  else
    let c := (off - 0x2000000) / 0x4000
    let on := natBit (s.reg (oSmpctl c)) 0
    !on || (if o = 0 then natBits v 32 4 == natBits (s.reg off) 32 4 else regMerge off (s.reg off) v == s.reg off)
/-- The write of an observation register by the Chimney; none where it is refused. -/
def State.obsPut (s : State) (off v : Nat) : Option State :=
  if !obsReg off || regRW off = 0 || !s.obsFree off v then none
  else
    let old := s.reg off
    let new := regMerge off old v
    let smp := decide (off < 0x3000000) && (off - 0x2000000) % 0x4000 == 0
    let new := if smp && decide (natBits new 8 24 < 16) then natPut new 8 24 (natBits old 8 24) else new
    let s := s.setReg off new
    let s := if obsEnables off v then s.extendMr 4 (Config.digest off v) else s
    match obsPart off with
    | none => some s
    | some pt =>
      if (off - 0x2000000) % 0x400 != 0 then some s
      else
        let s := if natBit v 0 then s.askStop pt 1 0 0 else s
        let s := if natBit v 1 then s.resume pt else s
        some (if natBit v 2 then s.stepTeam pt (natBits v 8 4) else s)
/-! ### Samples (R376) -/

/-- The sample of a cycle that has not been sampled; those of later cycles are taken as they pass. -/
def execStallSample (pt : Nat) (s : State) : Res :=
  let p := s.part pt
  let ctl := s.reg (oSmpctl (pt / 8))
  let n := natBits ctl 8 24
  if natBit ctl 0 && decide (16 ≤ n) && !s.stopped pt && p.pcyc % n == 0 && p.sampAt != p.pcyc + 1 then
    .next ((s.setPart pt { p with sampAt := p.pcyc + 1 }).takeSample pt s.nextMark)
  else .next s

/-! ### Sections (R367, R373) -/

/-- The Chimney gives a tenant the section of a frozen team of its own. -/
def State.readSection (s : State) (ld k : Nat) : State :=
  match s.teams.find? k with
  | some t => if s.chimneyUp && s.stopped (partOfTeam k) && (s.wgOf t.w).ten == ld && s.bound ld then s.emit (.teamState ld (sectionOf s t (t.reason false))) else s
  | none => s

/-! ### Core dumps (R378, R379) -/

/-- Bytes of a dump: header, section, and the secondary records (Table 22.8). -/
def Dump.bytes (d : Dump) : List Byte :=
  let more := d.more.flatMap fun m => natLE 4 m.1 ++ natLE 4 0 ++ natLE 8 m.2.1 ++ m.2.2
  let n := 64 + d.sec.length + more.length
  padTo 64 (natLE 4 d.src ++ natLE 4 d.more.length ++ natLE 8 d.seq ++ natLE 8 n ++ natLE 4 d.grid ++ natLE 4 d.asid ++ natLE 4 d.lost) ++
    d.sec ++ more
/-- A dump buffer: its base, and a dword of its header. -/
def State.dumpAt (s : State) (ten : Nat) : Nat := natBits (s.reg (oDumpbase ten)) 6 46 * 64
def State.dumpWord (s : State) (ten o : Nat) : Option Nat := ((s.readGpa ten (s.dumpAt ten + o) 8 (s.hostKtag ten)).2).map leNat
/-- The dropped count of a dump buffer rises, where it can be written. -/
def State.dumpDropped (s : State) (ten : Nat) : State :=
  match s.dumpWord ten 8 with
  | some n => (s.writeGpa ten (s.dumpAt ten + 8) (natLE 8 (n + 1)) (s.hostKtag ten)).getD s
  | none => s
/-- What names a dump's lines among those that wait for a host. -/
def Dump.mark (d : Dump) : Nat × Nat := (512 + d.ten, d.seq * 2 ^ 32 + d.src)
/-- The dump in progress is over once all of it is performed: the buffer's header then takes its counts (R378, R379). -/
def State.dumpOver (s : State) : State :=
  match s.dumps with
  | [] => s
  | d :: ds =>
    match d.wrote with
    | none => s
    | some (n, used) =>
      if (s.ringWaits d.mark.1).contains d.mark.2 then s
      else
        let kt := s.hostKtag d.ten
        let base := s.dumpAt d.ten
        let s := { s with dumps := ds }
        ((s.writeGpa d.ten base (natLE 8 n) kt).bind fun s => s.writeGpa d.ten (base + 16) (natLE 8 used) kt).getD (s.lostRecord d.src d.ten 4)
/-- Write the dump in progress at the first free 64-byte offset: without room it is dropped; one that cannot be written is lost whole
(R402). -/
def State.writeDump (s : State) (d : Dump) (ds : List Dump) : State :=
  let kt := s.hostKtag d.ten
  let bs := d.bytes
  let gone := { s with dumps := ds }
  match s.dumpWord d.ten 0, s.dumpWord d.ten 16 with
  | some n, some used =>
    let at' := (used + 63) / 64 * 64
    if s.reg (oDumpsize d.ten) % 2 ^ 32 < 64 + at' + bs.length then gone.dumpDropped d.ten
    else
      match s.writeGpa d.ten (s.dumpAt d.ten + 64 + at') bs kt { path := 6, ring := some d.mark } with
      | none => (gone.dumpDropped d.ten).lostRecord d.src d.ten 4
      | some s => { s with dumps := { d with wrote := some (n + 1, at' + bs.length) } :: ds }.dumpOver
  | _, _ => gone.lostRecord d.src d.ten 4
/-- The dump in progress, of a team that has stopped, is written. -/
def execCoreDump (k : Nat) (s : State) : Res :=
  match s.dumps with
  | [] => .next s
  | d :: ds => if d.src = srcPart (partOfTeam k) && d.wrote.isNone then .next (s.writeDump d ds) else .next s
/-- A core reset abandons every dump (R379). -/
def State.dropDumps (s : State) : State := s.dumps.foldl (fun s d => s.dumpDropped d.ten) { s with dumps := [] }

/-! ### Energy (R328) -/

/-- Charge a launch; what no launch of the table can take goes to the device-idle account. -/
def State.charge (s : State) (q pos e : Nat) : State :=
  if (s.launchAt q pos).isSome then s.modLaunch q pos fun l => { l with energy := l.energy + e } else { s with idleEnergy := s.idleEnergy + e }
/-- Divide energy among launches by weight; the remainder of the divisions stays in the device-idle account (log entry 18). -/
def State.divide (s : State) (ws : List (Nat × Nat × Nat)) (e : Nat) : State :=
  let sum : Nat := (ws.map fun x => x.2.2).sum
  if sum = 0 then { s with idleEnergy := s.idleEnergy + e }
  else
    let parts := ws.map fun x => (x.1, x.2.1, e * x.2.2 / sum)
    let given : Nat := (parts.map fun x => x.2.2).sum
    let s := parts.foldl (fun s x => s.charge x.1 x.2.1 x.2.2) s
    { s with idleEnergy := s.idleEnergy + (e - given) }
/-- The launches of a class that issued passes on a partition in the interval, with their passes. -/
def State.metered (s : State) (pt cls : Nat) : List (Nat × Nat × Nat) :=
  ((s.meter.getD pt []).filter fun x => x.1 % 8 == cls).map fun x => (x.1 / 8 % 256, x.1 / 2048, x.2)
/-- The resident launches of a class on a partition, each once. -/
def State.residentOf (s : State) (pt cls : Nat) : List (Nat × Nat × Nat) :=
  (((s.teamsOf pt).filter fun x => s.classOf x.2 == cls).map fun x => let g := s.wgOf x.2.w; (g.q, g.pos, 1)).eraseDups
/-- Slot-table entries that a class owns on a partition. -/
def State.slotsOwned (s : State) (pt cls : Nat) : Nat := ((List.range 64).filter fun e => s.slotClass pt e == cls).length
/-- The agents that may draw energy now (R328), each with its core, its code and its launch: of code 8 n a team n, by its accesses, 8 n + 1
a workgroup n, by its matrix and transform work, 8 n + 2 a Bellows context n, 8 n + 3 the saving and restoring of a reel n, and, as core 672,
8 n + 4 chain n, by the positions of an NTAIL that have not all completed. -/
def State.drawing (s : State) : List (Nat × Nat × Nat × Nat) :=
  (s.teams.map fun x => let g := s.wgOf x.2.w; (coreOfTeam x.1, 8 * x.1, g.q, g.pos)) ++
    (s.wgs.map fun x => (coreOfWg x.1, 8 * x.1 + 1, x.2.q, x.2.pos)) ++
    (s.reels.flatMap fun x => x.2.ctxs.map fun c => (coreOfCtx c, 8 * c + 2, x.2.q, x.2.pos)) ++
    (s.saved.flatMap fun x => x.2.reel.cores.map fun c => (c, 8 * x.1 + 3, x.2.reel.q, x.2.reel.pos)) ++
    s.nends.flatMap fun x => x.2.map fun e => (672, 8 * x.1 + 4, e.2)
/-- What may draw energy is noted as each step begins, so that a launch gone before the interval ends is still charged. -/
def State.noteDrew (s : State) : State := { s with drew := (s.drew ++ s.drawing).eraseDups }
/-- The launch of an agent on a core, the `nth` that had its number in the interval (R328): the network's ends with that of core 671. -/
def State.drawer (s : State) (c agent nth : Nat) : Option (Nat × Nat) :=
  ((s.drew.filter fun x => (x.1 == c || x.1 == 672 && c == 671) && x.2.1 == agent)[nth]?).map fun x => x.2.2
/-- The end of a metering interval on a core: `dyn` the dynamic energy of each class of each partition in turn, `idle` the core's idle and
leakage energy, `eng` what agents drew by engine, network and memory work and by saving and restoring: the agent, which of those that had its
number, and the energy. It is charged to that agent's launch, or to none where there was no such agent (R328; log entry 18). -/
def execMeteringInterval (c : Nat) (dyn : List Nat) (idle : Nat) (eng : List (Nat × Nat × Nat)) (s : State) : Res :=
  let cells := (List.range 64).map fun i => (8 * c + i / 8, i % 8, i)
  let s := cells.foldl (fun s x => s.divide (s.metered x.1 x.2.1) (dyn.getD x.2.2 0)) s
  let share := fun (s : State) (pt cls : Nat) => idle / 8 * s.slotsOwned pt cls / 64
  let left := fun (s : State) => idle - (cells.map fun x => share s x.1 x.2.1).sum
  let s := cells.foldl (fun s x => s.divide (s.residentOf x.1 x.2.1) (share s x.1 x.2.1)) { s with idleEnergy := s.idleEnergy + left s }
  let s := eng.foldl (fun s x => match s.drawer c x.1 x.2.1 with
    | some l => s.charge l.1 l.2 x.2.2
    | none => { s with idleEnergy := s.idleEnergy + x.2.2 }) s
  .next { s with
    meter := s.meter.filter fun (x : Nat × SMap Nat) => x.1 / 8 != c
    drew := s.drew.filter fun x => x.1 != c && !(x.1 == 672 && c == 671) }

end Sys2Proof.Machine
end

