-- ==== Sys2Proof/Machine/HostPort.lean ====
section
/-! DEFINITION. Hosts at their logical devices (R350..R359): CXL.mem reads and writes, back-invalidates, binding and unbinding, and the
registers of the LD block. -/

namespace Sys2Proof.Machine

/-! ### CXL.mem accesses (R60, R354, R355) -/

/-- Where a host access lands, or the case of Table 21.3 with the address that its record carries. -/
inductive HostAt where
  | bad (code addr : Nat)
  | at' (spa gpa : Nat)
  deriving DecidableEq, Repr

/-- Translate a host access. -/
def State.hostReach (s : State) (ld dpa : Nat) (need : Need) : State × HostAt :=
  if !s.bound ld then (s, .bad 7 dpa)
  else
    match dpaToGpa (s.lentMap ld) dpa with
    | none => (s, .bad 1 dpa)
    | some gpa =>
      match s.hostXlate ld gpa need with
      | (s, .fault _ _ _) => (s, .bad (if s.s2Walk s.free (s.tenant ld).s2root gpa = .poisoned then 3 else 2) gpa)
      | (s, .ok spa _ _ _ _) => (s, if natBit spa 47 then .bad 2 gpa else .at' spa gpa)
/-- The record of a host access without valid data. -/
def State.hostError (s : State) (ld code addr : Nat) : State :=
  s.report (srcHost ld) { cat := 5, code := code, ten := some ld, ld := some ld, addr := addr }
/-- An access that took longer than the ceiling completes, and is counted and recorded (R354). -/
def State.overrun (s : State) (ld addr us : Nat) : State :=
  if us ≤ s.ceil ld then s
  else
    let n := s.reg (oLdstat ld) % 2 ^ 32
    (s.setReg (oLdstat ld) (min (n + 1) (2 ^ 32 - 1))).report (srcHost ld)
      { cat := 5, code := 6, ten := some ld, ld := some ld, addr := addr, aux1 := us }
/-- Whether a run of bytes is one access: it lies in one line. -/
def inLine (dpa n : Nat) : Bool := decide (0 < n) && decide (dpa % 64 + n ≤ 64)
/-- Whether the block of an address gives no valid data to a host, with the case; a mismatch is marked and recorded. -/
def State.hostBlock (s : State) (ld gpa spa : Nat) : State × Option Nat :=
  let kt := s.hostKtag ld
  if s.sysBad spa then (s, some 4)
  else if s.tagBad spa kt then (s.tagFail (some ld) (gpa / 64 * 64) (spa / 64 * 64), some 5)
  else (s, none)

/-- A host reads; `us` is what the access took. Whether the host caches the line is its choice (R60). -/
def execHostRead (ld : BitVec 4) (dpa len us : Nat) (s : State) : Res :=
  let n := ld.toNat
  if !inLine dpa len then .next s
  else
    match s.hostReach n dpa .load with
    | (s, .bad c a) =>
      let s := (s.hostError n c a).emit (.host n true [])
      .next (if c = 7 then s else s.overrun n a us)
    | (s, .at' spa gpa) =>
      match s.hostBlock n gpa spa with
      | (s, some c) => .next (((s.hostError n c gpa).emit (.host n true [])).overrun n gpa us)
      | (s, none) =>
        let (b, s) := s.freshBit
        let s := if b then { s with hostCached := s.hostCached.insert (s.realSpa spa / 64) n } else s
        .next ((s.emit (.host n false (s.sysBytes spa len))).overrun n gpa us)

/-- What is left to be done of a waiting write once bytes of a later one are performed over it: it precedes them in coherence order (R60,
R62). -/
def State.trimWait (s : State) (spa n : Nat) (b : BiW) : List BiW :=
  let a := s.realSpa spa
  let p := s.realSpa b.spa
  if b.bad then (if n = 64 && a / 64 = p / 64 then [{ b with bad := false }] else [b])
  else if decide (a + n ≤ p) || decide (p + b.bytes.length ≤ a) then [b]
  else { b with bytes := b.bytes.take (a - p) } ::
    (if a + n < p + b.bytes.length then [{ b with spa := b.spa + (a + n - p), bytes := b.bytes.drop (a + n - p) }] else [])
/-- A host's write is performed. -/
def State.hostPut (s : State) (spa : Nat) (bytes : List Byte) (ktag : Nat) : State :=
  { s with biWait := s.biWait.flatMap (s.trimWait spa bytes.length) }.putSys spa bytes ktag
/-- A host writes: performed at system scope, or dropped; either way it completes. A full line replaces a block without valid data, which
is recorded all the same (Table 21.3). -/
def execHostWrite (ld : BitVec 4) (dpa : Nat) (bytes : List (BitVec 8)) (us : Nat) (s : State) : Res :=
  let n := ld.toNat
  if !inLine dpa bytes.length then .next s
  else
    match s.hostReach n dpa .store with
    | (s, .bad c a) =>
      let s := (s.hostError n c a).emit (.hostDone n)
      .next (if c = 7 then s else s.overrun n a us)
    | (s, .at' spa gpa) =>
      let s :=
        match s.hostBlock n gpa spa with
        | (s, some c) =>
          let s := s.hostError n c gpa
          if bytes.length = 64 then s.hostPut spa bytes (s.hostKtag n) else s
        | (s, none) => s.hostPut spa bytes (s.hostKtag n)
      .next ((s.emit (.hostDone n)).overrun n gpa us)

/-! ### Back-invalidates and binding (R60, R352, R353) -/

/-- The writes that wait for a line are done again, over what the host returned. -/
def State.redo (s : State) (line : Nat) : State :=
  (s.biWait.filter fun b => s.lineOf b.spa == line).foldl (fun s b =>
    if b.bad then s.spoil 0 (.sys b.spa) else s.putSys b.spa b.bytes b.ktag) s
/-- What a ring, a queue or a buffer counts as written rises over the entries that no longer wait (R327, R357, R362, R366, R378). -/
def State.raiseRing (s : State) (ring : Nat) : State :=
  if ring < 16 then s.raiseEvents ring (s.ringEnd ring (oEvtail ring))
  else if ring < 32 then s.raiseCalls (ring - 16) (s.ringEnd ring (oSqtail (ring - 16)))
  else if ring < 512 then s.advancePrefix (ring - 32) (s.launches.length + 1)
  else if ring < 1024 then s.dumpOver
  else
    match s.bufs.find? ring with
    | none => s
    | some (src, n) =>
      let ten := (ring - 1024) % 16
      (s.coverBuf src ten ((ring - 1024) / 16) n).getD (s.lostRecord src ten 3)
/-- A line is no longer cached: the writes that waited for it are performed, and what waits at the ports may go on. -/
def State.lineBack (s : State) (line : Nat) : State :=
  let mine := s.biWait.filter fun b => s.lineOf b.spa == line
  let rings := (mine.filterMap fun b => b.by'.ring.map (·.1)).eraseDups
  let s := { s with
    hostCached := s.hostCached.erase line
    biAsked := s.biAsked.erase line
    biWait := s.biWait.filter fun b => s.lineOf b.spa != line }
  (rings.foldl State.raiseRing s).unhold
/-- The host answers a back-invalidate, returning the line where it had modified it; the line is where its content stands now. -/
def execBackInvalidateResponse (line : Nat) (dirty : Option (List (BitVec 8))) (s : State) : Res :=
  let line := s.lineOf (64 * line)
  match s.hostCached.find? line with
  | none => .next s
  | some ld =>
    match dirty with
    | none => .next (s.lineBack line)
    | some bs => if bs.length = 64 then .next (((s.putSys (64 * line) bs (s.hostKtag ld)).redo line).lineBack line) else .next s
/-- Forget up to `n` lines that a host held cached, each as it is named when its turn comes: one before it may have moved it. -/
def State.forgetFrom (s : State) (ld : Nat) : Nat → State
  | 0 => s
  | n + 1 =>
    match List.find? (fun (c : Nat × Nat) => c.2 == ld) s.hostCached with
    | some c => (s.lineBack c.1).forgetFrom ld n
    | none => s
/-- The host agent forgets every line that a host held cached. -/
def State.forgetLines (s : State) (ld : Nat) : State := s.forgetFrom ld s.hostCached.length

/-- The pages of the lent map. -/
def State.lentPages (s : State) (ld : Nat) : List Nat :=
  (s.lentMap ld).flatMap fun r => (List.range (r.2 / 4096)).map fun i => r.1 + 4096 * i
/-- Map every page of the lent map that is not mapped, zeroed; none where a frame lacks (R352) or the hart that maps is stopped (R33). -/
def State.mapLent (s : State) (ld : Nat) : List Nat → Option State
  | [] => some s
  | g :: gs =>
    if s.pageState ld g < 3 then s.mapLent ld gs
    else if !s.hartUp ld then none
    else match s.mapZero ld g 0 (s.hostKtag ld) false with
      | some s => s.mapLent ld gs
      | none => none
/-- A host is bound to a logical device that boot has reported ready. -/
def execLdBind (ld : BitVec 4) (s : State) : Res :=
  let n := ld.toNat
  if !s.booted || !s.bootOk || s.bound n || !s.tenants.has n then .next s
  else
    match s.mapLent n (s.lentPages n) with
    | none => .next s
    | some s => .next (s.setReg (oLdctl n) (natPut (s.reg (oLdctl n)) 8 1 1))
/-- A host leaves: every page request fails and its cached lines are forgotten. -/
def execLdUnbind (ld : BitVec 4) (s : State) : Res :=
  let n := ld.toNat
  if !s.bound n then .next s
  else
    let s := (s.tenant n).reqs.foldl (fun s r => s.replyIn n r.id 1) s
    .next ((s.forgetLines n).setReg (oLdctl n) (natPut (s.reg (oLdctl n)) 8 1 0))
/-- A host is reset: its cached lines are forgotten. -/
def execHostReset (ld : BitVec 4) (s : State) : Res := .next (s.forgetLines ld.toNat)

/-! ### The LD block (Table 21.2) -/

/-- Whether an agent may write a logical device's block. -/
def State.mayLd (s : State) (ag : BitVec 5) (ld : Nat) : Bool := s.ownsTenant ag ld || isChimney ag
/-- LDCTL: TOL and CEIL; a reserved ceiling keeps the field (R6). -/
def State.ldctlPut (s : State) (ag : BitVec 5) (ld v : Nat) : State :=
  if !s.mayLd ag ld then s.refuseReg ag (oLdctl ld)
  else
    let old := s.reg (oLdctl ld)
    let new := regMerge (oLdctl ld) old v
    let c := natBits v 0 5
    s.setReg (oLdctl ld) (if decide (2 ≤ c) && decide (c ≤ 16) then new else natPut new 0 5 (natBits old 0 5))
def execLdctlWrite (ag : BitVec 5) (ld : BitVec 4) (v : BitVec 64) (s : State) : Res := .next (s.byAgent ag (·.ldctlPut ag ld.toNat v.toNat))
/-- EVHEAD or SQHEAD: between its value and the matching tail (R351). -/
def State.headPut (s : State) (ag : BitVec 5) (ld hd tl v : Nat) : State :=
  if !s.mayLd ag ld || decide (v < s.reg hd) || decide (s.reg tl < v) then s.refuseReg ag hd else s.setReg hd v
/-- The host consumes event entries; page requests that waited for room are written. -/
def State.evheadPut (s : State) (ag : BitVec 5) (ld v : Nat) : State := (s.headPut ag ld (oEvhead ld) (oEvtail ld) v).writeRequests ld
def execEvheadWrite (ag : BitVec 5) (ld : BitVec 4) (v : BitVec 64) (s : State) : Res := .next (s.byAgent ag (·.evheadPut ag ld.toNat v.toNat))
/-- The host consumes service entries. -/
def State.sqheadPut (s : State) (ag : BitVec 5) (ld v : Nat) : State := s.headPut ag ld (oSqhead ld) (oSqtail ld) v
def execSqheadWrite (ag : BitVec 5) (ld : BitVec 4) (v : BitVec 64) (s : State) : Res := .next (s.byAgent ag (·.sqheadPut ag ld.toNat v.toNat))
/-- EVBASE, SQBASE and PRSTAGE change only while their ring is empty or no page request is outstanding. -/
def State.ringPut (s : State) (ag : BitVec 5) (ld off v : Nat) (free : Bool) : State :=
  let new := regMerge off (s.reg off) v
  if !s.mayLd ag ld || (new != s.reg off && !free) then s.refuseReg ag off else (s.setReg off new).writeRequests ld

end Sys2Proof.Machine
end

