-- ==== Sys2Proof/Machine/Commands.lean ====
section
/-! DEFINITION. The Stoker's command blocks (R356, Tables 21.4, 21.5): memory ranges, address spaces, landing regions and transform
apertures (R241, R243, R287, R288, R336). -/

namespace Sys2Proof.Machine

/-- Bytes `o .. o+n-1` of a block, as a number. -/
def blkNat (b : List Byte) (o n : Nat) : Nat := leNat ((b.drop o).take n)
/-- Whether bytes of a block are all zero. -/
def blkZero (b : List Byte) (o n : Nat) : Bool := ((b.drop o).take n).all (· == 0)
def cmdOp (b : List Byte) : Nat := blkNat b 0 1
def cmdFl (b : List Byte) : Nat := blkNat b 1 1
def cmdAddr (b : List Byte) : Nat := blkNat b 8 8
def cmdSize (b : List Byte) : Nat := blkNat b 16 8
/-- The pages of a command's range. -/
def cmdPages (b : List Byte) : List Nat := (List.range (cmdSize b / 4096)).map fun i => cmdAddr b + 4096 * i

/-- What a command does: a status, its result and the state. -/
abbrev CmdOut := State × Nat × Nat

/-! ### Ranges of pages -/

/-- A range command whose block is well formed and whose pages are all in one of the required states; otherwise its status. -/
def rangeCmd (s : State) (ld : Nat) (b : List Byte) (flags states : List Nat) (f : State → Option State) : CmdOut :=
  if !flags.contains (cmdFl b) || !blkZero b 2 6 || !blkZero b 24 32 || cmdAddr b % 4096 != 0 || cmdSize b % 4096 != 0 || cmdSize b = 0 then
    (s, 3, 0)
  else if 2 ^ 52 < cmdAddr b + cmdSize b then (s, 2, 0)
  else if !((cmdPages b).all fun g => states.contains (s.pageState ld g)) then (s, 2, 0)
  else
    match f s with
    | some s => (s, 0, 0)
    | none => (s, 1, 0)
/-- Apply a change page by page. -/
def eachPage (f : State → Nat → Option State) : State → List Nat → Option State
  | s, [] => some s
  | s, g :: gs =>
    match f s g with
    | some s => eachPage f s gs
    | none => none
/-- MAP: zeroed frames of a tier from the grant. -/
def cmdMap (s : State) (ld : Nat) (b : List Byte) : CmdOut :=
  let fl := cmdFl b
  rangeCmd s ld b [0, 1, 2, 4, 5, 6] [3, 4] fun s =>
    eachPage (fun s g => s.mapZero ld g (fl % 4) (s.hostKtag ld) (natBit fl 2)) s (cmdPages b)
/-- Take a page out of use: its leaf becomes `e`, and its frame is freed when the shootdown completes. -/
def State.takeOut (s : State) (ld g e : Nat) (fin : Option Nat → ShootDone) : Option State :=
  let s := s.setTenant ld { s.tenant ld with
    pool := (s.tenant ld).pool.filter (· != g)
    popped := (s.tenant ld).popped.filter fun p => p.page != g }
  match s.lastLeaf ld g with
  | (s, some f) => (s.s2Set ld g e).map fun s => s.startShoot (srcStoker ld) (.gpage ld (g / 4096)) (fin (some f))
  | (s, none) => s.s2Set ld g e
/-- UNMAP. -/
def cmdUnmap (s : State) (ld : Nat) (b : List Byte) : CmdOut :=
  rangeCmd s ld b [0] [0, 1, 2, 3] fun s => eachPage (fun s g => s.takeOut ld g 0 (.command ld ld)) s (cmdPages b)
/-- BACK: the pages become host-backed and absent. -/
def cmdBack (s : State) (ld : Nat) (b : List Byte) : CmdOut :=
  rangeCmd s ld b [0] [0, 1, 2] fun s =>
    eachPage (fun s g => s.takeOut ld g (s2HostLeaf (natBit (s.s2Get ld g) 59)) (.command ld ld)) s (cmdPages b)
/-- DESC: an attribute of the leaves; it changes no access. -/
def cmdDesc (s : State) (ld : Nat) (b : List Byte) : CmdOut :=
  rangeCmd s ld b [0, 4] [0, 1, 2, 3] fun s =>
    eachPage (fun s g => s.s2Set ld g (natPut (s.s2Get ld g) 59 1 (natBits (cmdFl b) 2 1))) s (cmdPages b)

/-! ### Address spaces (R287, R288) -/

/-- A device-table entry. -/
def dteBytes (s1 s2 ten ktag : Nat) : List Byte := natLE 8 s1 ++ natLE 8 s2 ++ natLE 1 ten ++ natLE 1 ktag ++ natLE 1 1 ++ natLE 13 0
/-- Whether a key tag may be used by a tenant: none, or one of its own. -/
def State.ktagOf (s : State) (ld k : Nat) : Bool := k == 0 || s.keys.find? k == some ld
/-- Whether an ASID is assigned to a tenant. -/
def State.asidOf (s : State) (ld a : Nat) : Bool := decide (a < 4096) && dteV (s.dte a) && dteTenant (s.dte a) == ld
/-- ASID: the lowest unassigned address space takes a root and a key tag. -/
def cmdAsid (s : State) (ld : Nat) (b : List Byte) : CmdOut :=
  if cmdFl b != 0 || !blkZero b 2 6 || !blkZero b 24 32 || decide (256 ≤ cmdSize b) || cmdAddr b % 4096 != 0 then (s, 3, 0)
  else if 2 ^ 52 ≤ cmdAddr b then (s, 2, 0)
  else if !s.ktagOf ld (cmdSize b) then (s, 3, 0)
  else
    match (List.range 4096).find? fun a => !dteV (s.dte a) with
    | none => (s, 4, 0)
    | some a =>
      ({ s with mem := s.mem.writeN (s.dtbase + 32 * a) (dteBytes (cmdAddr b) (s.tenant ld).s2root ld (cmdSize b)) }, 0, a)
/-- FREEASID: a whole-ASID shootdown, after which the entry is cleared. -/
def cmdFreeasid (s : State) (ld : Nat) (b : List Byte) : CmdOut :=
  if cmdFl b != 0 || !blkZero b 2 6 || !blkZero b 24 32 || !s.asidOf ld (cmdAddr b) then (s, 3, 0)
  else (s.startShoot (srcStoker ld) (.asid (cmdAddr b)) (.clearAsid ld (cmdAddr b)), 0, 0)

/-! ### Landing regions and apertures (R241, R243, R336) -/

/-- The fields of a landing entry, by dword (Table 19.10). -/
def landFields (j : Nat) : Nat := if j = 0 then 0xFFFF0000FFF000FF else if j = 1 then 0xFFFFFF else if j = 2 then 0xFFFFFFFFFFC0 else 0
/-- LAND: write a landing entry of the tenant, unless another tenant's region holds its index. -/
def cmdLand (s : State) (ld : Nat) (b : List Byte) : CmdOut :=
  let i := cmdAddr b
  let w := blkNat b 24 8
  if cmdFl b != 0 || !blkZero b 2 6 || natBits w 4 4 != ld || (natBit w 0 && !s.asidOf ld (natBits w 20 12)) then (s, 3, 0)
  else if decide (1024 ≤ i) || (natBit (s.landWord i 0) 0 && s.landTenant i != ld) then (s, 4, 0)
  else
    ((List.range 4).foldl (fun s j =>
      s.setReg (oLand i + 8 * j) (BitVec.ofNat 64 (blkNat b (24 + 8 * j) 8) &&& BitVec.ofNat 64 (landFields j)).toNat) s, 0, 0)
/-- APERT: the lowest free aperture. -/
def cmdApert (s : State) (ld : Nat) (b : List Byte) : CmdOut :=
  let sav := natBit (cmdFl b) 3
  let back := blkNat b 24 8
  let asid := blkNat b 32 2
  let xf := if sav then 0 else blkNat b 34 1
  if natPut (cmdFl b) 3 1 0 != 0 || !blkZero b 2 6 || !blkZero b 35 21 || cmdAddr b % 4096 != 0 || cmdSize b % 4096 != 0 || cmdSize b = 0 ||
      decide (2 ^ 36 ≤ cmdSize b) || back % 64 != 0 || decide (2 ^ 52 ≤ back) || decide (3 < xf) || !s.asidOf ld asid then (s, 3, 0)
  else if 2 ^ 48 < cmdAddr b + cmdSize b then (s, 2, 0)
  else
    match (List.range 256).find? fun n => !s.apAlloc.has n with
    | none => (s, 4, 0)
    | some n =>
      let base := asid * 2 ^ 52 + cmdAddr b + xf * 4 + (if sav then 0 else 1)
      let s := ((s.setReg (oAp n) base).setReg (oAp n + 8) (cmdSize b)).setReg (oAp n + 16) back
      ({ s with apAlloc := s.apAlloc.insert n (ld, sav) }, 0, n)
/-- APFREE: an aperture of the tenant that no admitted launch names. -/
def cmdApfree (s : State) (ld : Nat) (b : List Byte) : CmdOut :=
  let n := cmdAddr b
  if cmdFl b != 0 || !blkZero b 2 6 || !blkZero b 24 32 then (s, 3, 0)
  else
    match s.apAlloc.find? n with
    | some (t, _) =>
      if t = ld && (s.naming n).isEmpty then
        ({ s with apAlloc := s.apAlloc.erase n }.setReg (oAp n) (natPut (s.reg (oAp n)) 0 1 0), 0, 0)
      else (s, 2, 0)
    | none => (s, 2, 0)

/-! ### Carrying a command out -/

/-- Each command by its OP; a reserved one is malformed. -/
def stokerCmd (s : State) (ld : Nat) (b : List Byte) : CmdOut :=
  match cmdOp b with
  | 1 => cmdMap s ld b
  | 2 => cmdUnmap s ld b
  | 3 => cmdBack s ld b
  | 4 => cmdDesc s ld b
  | 5 => cmdAsid s ld b
  | 6 => cmdFreeasid s ld b
  | 7 => cmdLand s ld b
  | 8 => cmdApert s ld b
  | 9 => cmdApfree s ld b
  | _ => (s, 3, 0)
/-- Whether shootdowns of a host's command are still under way. -/
def State.cmdPending (s : State) (ld : Nat) : Bool :=
  s.shoots.any fun y => match y.fin with | .command l _ _ => l == ld | .clearAsid l _ => l == ld | _ => false
/-- The Stoker carries out the command of a block: BUSY stays until every shootdown of the command has completed. -/
def State.skRun (s : State) (ld a : Nat) : State :=
  match s.readGpa ld a 64 (s.hostKtag ld) with
  | (s, none) =>
    (s.setReg (oSkstat ld) 3).report (srcStoker ld) { cat := 7, code := 2, ten := some ld, ld := some ld, addr := a }
  | (s, some b) =>
    let r := stokerCmd s ld b
    let s := (r.1.writeGpa ld (a + 56) (natLE 8 r.2.2) (r.1.hostKtag ld)).getD r.1
    s.setReg (oSkstat ld) (r.2.1 + if s.cmdPending ld then 256 else 0)
/-- SKCMD with a block's address; while the tenant's hart is stopped the command waits, BUSY (R33). -/
def State.skcmd (s : State) (ag : BitVec 5) (ld v : Nat) : State :=
  let a := natBits v 6 46 * 64
  if !s.mayLd ag ld || natBit (s.reg (oSkstat ld)) 8 then s.refuseReg ag (oSkcmd ld)
  else if s.hartUp ld then s.skRun ld a
  else { s with skWait := s.skWait.insert ld a }.setReg (oSkstat ld) (natPut (s.reg (oSkstat ld)) 8 1 1)
/-- Shootdowns that waited for a hart complete, commands and answers to page requests that waited are carried out, and page requests
written. -/
def State.skResume (s : State) (hart : Nat) : State :=
  let s := s.shootsEnd s.shoots.length
  let s := (s.skWait.filter fun x => x.1 % 4 == hart).foldl (fun s x => { s with skWait := s.skWait.erase x.1 }.skRun x.1 x.2) s
  ((List.range 16).filter fun n => n % 4 == hart).foldl (fun s n => (s.repliesIn n).writeRequests n) s
/-- The OP of the block at an address, as the host that wrote it knows it. -/
def State.opOf (s : State) (ld blk : Nat) : Option Nat :=
  match s.gpaTo ld (blk / 64 * 64) .load with
  | some a => if s.sysBad a then none else some (s.sysByte a).toNat
  | none => none
/-- A host gives a command whose block has an OP. -/
def State.command (s : State) (ld : BitVec 4) (blk op : Nat) : State :=
  if s.opOf ld.toNat blk == some op then s.skcmd (ld.setWidth 5) ld.toNat blk else s

def execMap (ld : BitVec 4) (blk : Nat) (s : State) : Res := .next (s.command ld blk 1)
def execUnmap (ld : BitVec 4) (blk : Nat) (s : State) : Res := .next (s.command ld blk 2)
def execBack (ld : BitVec 4) (blk : Nat) (s : State) : Res := .next (s.command ld blk 3)
def execDesc (ld : BitVec 4) (blk : Nat) (s : State) : Res := .next (s.command ld blk 4)
def execAsid (ld : BitVec 4) (blk : Nat) (s : State) : Res := .next (s.command ld blk 5)
def execFreeasid (ld : BitVec 4) (blk : Nat) (s : State) : Res := .next (s.command ld blk 6)
def execLand (ld : BitVec 4) (blk : Nat) (s : State) : Res := .next (s.command ld blk 7)
def execApert (ld : BitVec 4) (blk : Nat) (s : State) : Res := .next (s.command ld blk 8)
def execApfree (ld : BitVec 4) (blk : Nat) (s : State) : Res := .next (s.command ld blk 9)

end Sys2Proof.Machine
end

