-- ==== Sys2Proof/Machine/Reset.lean ====
section
/-! DEFINITION. Boot and the three resets (R20..R22, R346, R358, R382, R383), clocks and power states (R19, R23, R387, R388), and errors
of memory and of the Stoker's own state (R30..R33). -/

namespace Sys2Proof.Machine

/-! ### Boot (R382, R383, R352) -/

/-- A register that the management configuration sets: ADMIN and the lent maps, with its fields. -/
def bootField (off : Nat) : Option Nat :=
  if off = oAdmin then some 0xFFFF
  else if decide (0x1000 ≤ off) && decide (off < 0x2000) && decide (0x80 ≤ off % 0x100) then
    if off % 0x10 = 0 then some 0xFFFFFFFFFF001 else if off % 0x10 = 8 then some 0xFFFFFF000 else none
  else none
/-- Apply the configuration. -/
def State.configure (s : State) (cfg : BootCfg) : State :=
  let s := cfg.regs.foldl (fun s x =>
    match bootField x.1 with
    | some m => s.setReg x.1 (x.2 &&& BitVec.ofNat 64 m).toNat
    | none => s) s
  cfg.tenants.foldl (fun s t => if t.ten < 16 then s.setTenant t.ten { Tenant.empty with
    s2root := t.s2root, ranges := t.ranges, near := t.near, far := t.far, tables := t.tables } else s) { s with dtbase := cfg.dtbase }
/-- RCAUSE. -/
def State.setCause (s : State) (c : Nat) : State := s.setReg oChstat (natPut (s.reg oChstat) 0 8 c)
/-- The boot sequence; a verification that fails ends it there, before the Stoker's harts are started. -/
def State.boot (s : State) (cfg : BootCfg) : State :=
  let d := fun (k : Nat) (s : State) => s.extendMr k (cfg.digests.getD k 0)
  let s := { s with booted := true }
  let failed := fun (s : State) => { s.setCause 4 with hartsDown := (List.range 4).map fun h => (h, ()) }
  if cfg.fail = 1 then failed s
  else if cfg.fail = 2 then failed (d 0 s)
  else { (d 3 (d 2 (d 1 (d 0 s)))).configure cfg with bootOk := true }
/-- Every domain cleared: what the model itself counts goes on. -/
def State.cleared (s : State) : State :=
  { State.reset with flash := s.flash, outs := s.outs, agenda := s.agenda, tick := s.tick, free := s.free, cur := s.cur, curCtx := s.curCtx }
/-- Application of power. -/
def execPowerOn (cfg : BootCfg) (s : State) : Res :=
  let c := s.flash.getD cfg
  .next ({ s.cleared with flash := some c }.boot c)
/-- Hearth reset, keeping DEVID and the reset cause: by command (2) or for a failure of the Chimney's firmware (3). -/
def State.hearthReset (s : State) (cause : Nat) (cfg : BootCfg) : State := (s.cleared.setCause cause).boot (s.flash.getD cfg)
def execHearthReset (cause : BitVec 8) (cfg : BootCfg) (s : State) : Res :=
  if s.booted && (cause == 2 || cause == 3) then .next (s.hearthReset cause.toNat cfg) else .next s
/-- After a failed verification the Chimney takes new images, from which the next reset boots. -/
def execFirmwareUpdate (cfg : BootCfg) (s : State) : Res :=
  if s.booted && !s.bootOk then .next { s with flash := some cfg } else .next s

/-! ### Slot tables (R89, R321) -/

/-- Whether an offset is a register of some partition's slot table. -/
def slotReg (off : Nat) : Bool := decide (0x1000000 ≤ off) && decide (off < 0x1000000 + 0x1000 * 672) && decide (off % 0x200 ≤ 0x20)
/-- Copy the slot template into every partition. -/
def State.loadTemplate (s : State) : State :=
  let s := { s with mgmt := s.mgmt.filter fun (x : Nat × DWord) => !slotReg x.1 }
  if (List.range 9).all fun i => s.reg (oTemplate i) == (mgmtReset (oTemplate i)).toNat then s
  else
    (List.range 5376).foldl (fun s pt => (List.range 9).foldl (fun s i => s.setReg (oSlotTbl pt i) (s.reg (oTemplate i))) s) s

/-! ### Core reset (R20..R22, R245, R346, R358, R379) -/

/-- The block that a store to memory lies in. -/
def Place.block : Place → Option (Nat × Nat)
  | .sys a => some (0, a / 64)
  | .peer n l o => some (1 + n * 1024 + l, o / 64)
  | _ => none
/-- Performed stores that are not yet visible: of each block the last may be lost (R21). -/
def State.cutStores (s : State) : List (Nat × Store) → State
  | [] => s
  | (k, st) :: rest =>
    if st.at'.block.isNone then s.cutStores rest
    else if rest.any fun x => x.2.at'.block == st.at'.block then (s.commit k st).cutStores rest
    else
      let (b, s) := s.freshBit
      (if b then s.commit k st else s).cutStores rest
/-- RUN is cleared in every queue and chain. -/
def State.stopQueues (s : State) : State :=
  let run := fun (o : Nat) => (decide (0x10000 ≤ o) && decide (o < 0x14000) && o % 0x40 == 8) ||
    (decide (0x100000 ≤ o) && decide (o < 0x140000) && o % 0x40 == 0)
  (s.mgmt.keys.filter run).foldl (fun s o => s.setReg o (natPut (s.reg o) 8 1 0)) s
/-- A device event: a record at the collector, and an entry of a type with the same source and number at every bound device (R358). -/
def State.deviceEvent (s : State) (code typ : Nat) : State :=
  let (s, r) := s.collect srcChimney { cat := 8, code := code }
  ((List.range 16).filter s.bound).foldl (fun s ld => s.evPost ld (r &&& BitVec.ofNat 512 (2 ^ 128 - 1)) typ) s
/-- The launch whose context a fault is of. -/
def State.launchOf (s : State) : Waiter → Option (Nat × Nat)
  | .team k => (s.teams.find? k).bind fun t => (s.wgs.find? t.w).map fun g => (g.q, g.pos)
  | .ctx x => (s.ctxs.find? x).bind fun c => (s.reels.find? c.reel).map fun r => (r.q, r.pos)
  | .copy x _ => (s.ctxs.find? x).bind fun c => (s.reels.find? c.reel).map fun r => (r.q, r.pos)
  | .mop w _ => (s.wgs.find? w).map fun g => (g.q, g.pos)
  | .saved rk _ => (s.saved.find? rk).map fun v => (v.reel.q, v.reel.pos)
  | .bellSection q p _ => some (q, p)
  | .lost q p => some (q, p)
  | _ => none
/-- The faults of the core domain stand for its lost contexts from now on. -/
def State.lostFaults (s : State) : State :=
  let one := fun (f : SFault) => match s.launchOf f.waiter with | some l => { f with waiter := .lost l.1 l.2 } | none => f
  { s with tenants := s.tenants.map fun (x : Nat × Tenant) => (x.1, { x.2 with faults := x.2.faults.map one }) }
/-- A request that is lost (R346): what was placed of it stays counted. -/
def State.lostReq (s : State) (c p : Nat) (r : NReq) : NReq :=
  let placed := match s.incoming.find? fun e => e.recv == some (c, p) with | some e => e.total | none => 0
  if r.st = 3 then r
  else { NReq.mk' r.req with
      st := 3, status := 2, bytes := (if r.op = 4 then placed else r.placed), matched := r.matched, peer := r.peer, imm := r.imm }
/-- What stands in the core domain for other devices is answered: requests under way are refused, and what waits at the ports meets the reset.
What has ended stays ended: it is answered as it was, and not done twice (R344). -/
def State.incomingLost (s : State) : State :=
  let s := (s.incoming.filter fun e => e.fin.isNone).foldl (fun s e => s.emit (.reply e.uet e.node e.chain e.pos 0 0 3 [])) s
  { s with incoming := s.incoming.map fun (e : Incoming) => if e.fin.isNone then { e with wait := 0, deliv := true, fin := some (e.total, 3) } else e }.unhold
/-- The core domain and its work are lost: the ports' state and the network engine's among it. -/
def State.coreLost (s : State) : State :=
  let s := s.dropDumps
  let s := s.cutStores (s.teams.flatMap fun x => x.2.sbuf.map fun st => (x.1, st))
  let s := s.lostFaults
  let s := s.saved.foldl (fun s x => s.freeSaved (s.lqTenant x.2.reel.q) x.1) s
  let s := { s with nreqs := s.nreqs.map fun (x : Nat × SMap NReq) => (x.1, x.2.map fun (y : Nat × NReq) => (y.1, s.lostReq x.1 y.1 y.2)) }.incomingLost
  let s := { s with
    mgmt := s.mgmt.filter fun (x : Nat × DWord) => !coreDomainReg x.1
    teams := [], parts := [], wgs := [], tiles := [], xq := [], ctxs := [], reels := [], saved := [], placers := []
    launches := s.launches.filter fun l => l.admitted
    nread := [], nnext := [], portsDown := [], engOut := [], meter := []
    biWait := s.biWait.map fun (b : BiW) => { b with by' := { b.by' with team := none } }
    tlb := s.tlb.filter fun e => e.rcv == 2
    shoots := s.shoots.map fun (x : Shoot) => { x with got := x.got ++ [0, 1].filter fun r => !x.got.contains r } }
  s.shootsEnd s.shoots.length
/-- A core reset begins. -/
def State.coreResetBegin (s : State) : State :=
  ({ (s.coreLost.stopQueues) with resetting := true }.setCause 5).deviceEvent 3 3
/-- Whether a fault was raised from the core domain: every waiter is of it. -/
def Waiter.ofCore : Waiter → Bool
  | .none => false
  | _ => true
/-- Pending faults of the core domain are discarded, with one record for each context, that is, each launch (R22): also those of a tenant
whose Stoker hart is stopped, which R33 keeps pending (DESIGN CHOICE, log entry 24). -/
def State.discardFaults (s : State) (ten : Nat) : State :=
  let t := s.tenant ten
  let one := t.faults.foldl (fun (acc : List ((Nat × Nat) × SFault)) f =>
    match f.waiter with
    | .lost q p => if acc.any fun x => x.1 == (q, p) then acc else acc ++ [((q, p), f)]
    | _ => acc) []
  one.foldl (fun s x =>
    let id := match (t.reqs.find? fun r => r.gpa == x.2.gpa) with | some r => r.id | none => 0
    s.report (srcStoker ten) { cat := 6, code := 6, ten := some ten, asid := x.2.asid, addr := x.2.va, aux0 := ten % 4, aux1 := id })
    (s.dropFaults ten fun f => f.waiter.ofCore)
/-- Every published position of a chain that has not completed completes with 0x02, in order (R346). -/
def State.chainLost (s : State) (ch : Nat) : State :=
  let pub := s.ncPub ch
  let seq := s.ncSeq ch
  let s := (List.range (pub - seq)).foldl (fun s j =>
    let p := seq + 1 + j
    s.setNreq ch p (s.lostReq ch p ((s.nreq ch p).getD (NReq.mk' 0)))) s
  { s with nread := if pub = 0 then s.nread else s.nread.insert ch pub }.cover ch (pub - seq + 1)
/-- The chains that have published anything. -/
def State.chains (s : State) : List Nat :=
  (s.mgmt.keys.filter fun o => decide (0x100000 ≤ o) && decide (o < 0x140000) && o % 0x40 == 0x18).map fun o => (o - 0x100000) / 0x40
/-- Launches that were resident or admitted complete as lost; refused ones keep their status. -/
def State.launchesLost (s : State) : State :=
  let ls := s.launches.filter fun l => l.admitted && !l.done
  ls.foldl (fun s l =>
    let st := match l.status with | some c => if c < 0x10 then 2 else c | none => 2
    s.completeLaunch l st) s
/-- A core reset ends: faults, launches, chains, the slot tables, the last event, and the command that asked for it. -/
def State.coreResetOver (s : State) : State :=
  if !s.resetting then s
  else
    let s := (List.range 16).foldl State.discardFaults s
    let s := s.launchesLost
    let s := s.chains.foldl State.chainLost s
    let s := ({ s with resetting := false }.loadTemplate).deviceEvent 4 4
    match s.mbox with | (ld, _) :: _ => s.mailboxEnd ld | [] => s

/-! ### Clock and power (R19, R387, R388) -/

/-- The granted core clock changes. -/
def execClockChange (mhz : BitVec 16) (s : State) : Res :=
  if natBits (s.reg oChstat) 32 16 = mhz.toNat then .next s
  else .next ((s.setReg oChstat (natPut (s.reg oChstat) 32 16 mhz.toNat)).report srcChimney { cat := 8, code := 1, aux1 := mhz.toNat })
/-- Whether a request of another device is under way here. -/
def Incoming.busy (e : Incoming) : Bool := e.fin.isNone && (e.wait == 1 || !e.seen.isEmpty || !e.part.isEmpty)
/-- Whether a chain, running or stopped, has positions published that are not read yet. -/
def State.chainQueued (s : State) (c : Nat) : Bool := decide (s.nread.getD c 0 < s.ncPub c)
/-- Whether the core domain is idle: no team, no engine work, and every record of a launch queue done with (log entry 19). -/
def State.coreIdle (s : State) : Bool :=
  !s.resetting && s.teams.isEmpty && s.saved.isEmpty && s.launches.all (fun l => l.done) &&
    s.ctxs.all (fun x => x.2.slots.isEmpty) && s.wgs.all (fun x => x.2.mops.isEmpty) && s.xq.all (fun x => x.2.isEmpty) &&
    s.nreqs.all (fun x => x.2.all fun y => y.2.st == 3) && !(List.range 4096).any s.chainQueued &&
    !s.incoming.any Incoming.busy && s.portHeld.isEmpty && (List.range 256).all fun q => decide (s.lqCount q < s.headPos q)
/-- The smallest tolerance of the bound devices, none where none is bound. -/
def State.tolerance (s : State) : Option Nat :=
  ((List.range 16).filter s.bound).foldl (fun (m : Option Nat) ld => some (match m with | some a => min a (s.tol ld) | none => s.tol ld)) none
/-- Whether a power state is eligible (Table 23.3). -/
def State.eligibleState (s : State) (h : Nat) : Bool :=
  let run := (s.mgmt.keys.filter fun o => decide (0x100000 ≤ o) && decide (o < 0x140000) && o % 0x40 == 0).any fun o => natBit (s.reg o) 8
  h == 0 || (s.coreIdle && (h == 1 || !run) && (h != 3 || ((List.range 16).filter s.bound).all fun ld => decide (8 ≤ s.ceil ld)))
/-- Declared exits (Table 23.3). -/
def exitOf (h : Nat) : Nat := match h with | 0 => 0 | 1 => 10 | 2 => 200 | _ => 220
/-- The deepest eligible state within the tolerance. -/
def State.powerChoice (s : State) : Nat :=
  ([3, 2, 1].find? fun h => s.eligibleState h && (match s.tolerance with | some t => decide (exitOf h ≤ t) | none => true)).getD 0
/-- Go to a power state: in H2 and H3 the core dies hold no translations, leaving these the core domain starts at its Reset values, and in H0
what waits at the ports is served. -/
def State.toState (s : State) (h : Nat) : State :=
  let off := decide (2 ≤ s.hst) && decide (h < 2)
  let s := if off then { s with mgmt := s.mgmt.filter fun (x : Nat × DWord) => !coreDomainReg x.1, parts := [], portsDown := [] }.loadTemplate else s
  let s := if 2 ≤ h then { s with tlb := s.tlb.filter fun e => e.rcv == 2 } else s
  let s := (s.setReg oChstat (natPut (s.reg oChstat) 8 2 h)).report srcChimney { cat := 8, code := 2, aux1 := h }
  if h = 0 then { s with waking := false }.unhold else s
/-- The Chimney chooses a power state below H0; a wake event abandons the entry. -/
def execPowerStateEnter (s : State) : Res :=
  let h := s.powerChoice
  if s.booted && s.bootOk && !s.chimneyDown && !s.waking && h != 0 && h != s.hst then .next (s.toState h) else .next s
/-- A wake event takes the device to H0, and so does a choice that no other state is left to. -/
def execPowerStateExit (s : State) : Res := if s.hst != 0 && s.chimneyUp && (s.waking || s.powerChoice == 0) then .next (s.toState 0) else .next s

/-! ### Errors (R30, R32, R33, R390) -/

/-- An uncorrectable error in the Chimney's own state stops its core, and every bound host is told (log entry 58): until a Hearth reset it
carries out no command, answers no request of SPDM or of the CXL mailbox, and chooses no power state. -/
def State.chimneyFails (s : State) : State :=
  if !s.booted || s.chimneyDown then s else { s with chimneyDown := true }.report srcChimney { cat := 1, code := 2 }

/-- An uncorrectable error in the Stoker's own state stops a hart, and every bound host is told. -/
def execStokerHartStop (hart : BitVec 2) (s : State) : Res :=
  let h := hart.toNat
  if s.hartsDown.has h then .next s
  else .next ({ s with hartsDown := s.hartsDown.insert h () }.report (srcStoker h) { cat := 6, code := 5, aux0 := h })
/-- The guest-physical address that a tenant's stage 2 maps to an address of memory. -/
def State.gpaAt (s : State) (spa : Nat) : Nat → Nat → Nat → Option Nat
  | 0, _, _ => none
  | fuel + 1, tbl, base =>
    let lvl := 3 - fuel
    (List.range (if lvl = 0 then 8192 else 512)).findSome? fun i =>
      let e := s.entry (tbl + 8 * i)
      let g := base + i * leafSize lvl
      if !s2Ok lvl e || !entV e then none
      else if entLeaf e then
        if decide (s2Addr e ≤ spa) && decide (spa < s2Addr e + leafSize lvl) then some (g + (spa - s2Addr e)) else none
      else State.gpaAt s spa fuel (s2Addr e) g
/-- The tenant whose memory holds an address, and its address there. -/
def State.holder (s : State) (spa : Nat) : Option (Nat × Nat) :=
  s.tenants.findSome? fun x => (s.gpaAt spa 4 x.2.s2root 0).map fun g => (x.1, g)
/-- Poison the block of an address as memory holds it; in a compressed image a chunk is lost, which one the image's layout decides, and the
block itself keeps its mark while the image stands there. -/
def State.poisonBlock (s : State) (spa : Nat) : State :=
  let s := { s with poison := s.poison.insert (spa / 64) () }
  match s.images.find? (frameOf spa) with
  | some im =>
    let (n, s) := s.freshNat
    { s with images := s.images.insert (frameOf spa) { im with lost := im.lost.insert (n % 16) () } }
  | none => s
/-- A migration whose frames an error lies in is to be aborted: its copy finds it (R302). -/
def State.spoilCopy (s : State) (spa : Nat) : State :=
  { s with migs := s.migs.map fun m => if !m.switched && (m.src == frameOf spa || m.dst == frameOf spa) then { m with failed := true } else m }
/-- The controller that holds a block finds an error in it: `kind` 1 corrected, 2 uncorrectable, 3 an integrity mismatch. -/
def execMemoryErrorDetect (ctl spa : Nat) (kind : BitVec 2) (s : State) : Res :=
  if ctl != ctlOf spa || decide (2 ^ 47 ≤ spa) || kind == 0 then .next s
  else
    let own := s.holder spa
    let e : Err := { cat := 1, code := kind.toNat, ten := own.map (·.1), addr := match own with | some o => o.2 | none => spa,
                     aux0 := s.corrected.getD ctl 0 }
    if kind == 1 then
      let n := s.corrected.getD ctl 0 + 1
      let s := { s with corrected := s.corrected.insert ctl n }
      let thr := s.reg oCethr
      .next (if thr != 0 && n % thr == 0 then s.report (srcMem ctl) { e with aux0 := n } else s)
    else if s.poison.has (spa / 64) then .next s
    else .next (((s.poisonBlock spa).spoilCopy spa).report (srcMem ctl) { e with pois := true })

end Sys2Proof.Machine
end

