-- ==== Sys2Proof/Machine/Chimney.lean ====
section
/-! DEFINITION. The Chimney: register writes by every agent (R2, R5, R6, R310, R329, R351), mailbox commands (R391, Table 23.7), and the
SPDM and CXL mailbox responders (R350, R384..R386). -/

namespace Sys2Proof.Machine

/-! ### Chain registers (R329) -/

/-- Whether a chain stands still: NCHEAD, NCCQ, ASID and TENANT may change. -/
def State.ncIdle (s : State) (c : Nat) : Bool := !s.ncRun c && s.ncPub c == s.ncSeq c
/-- Whether the rules of a chain's registers refuse a value: `r` the register's offset in its block. -/
def State.ncRefuses (s : State) (c r v : Nat) : Bool :=
  let off := oNc c + r
  let new := regMerge off (s.reg off) v
  match r with
  | 0x00 => (natPut new 8 1 0 != natPut (s.reg off) 8 1 0 && !s.ncIdle c) || !s.asidOf (natBits new 0 4) (natBits new 32 12)
  | 0x08 => new != s.reg off && !s.ncIdle c
  | 0x10 => new != s.reg off && !s.ncIdle c
  | _ => true
/-- A chain's register takes a value; RUN set wakes the device (R388). -/
def State.ncSet (s : State) (c r v : Nat) : State :=
  let off := oNc c + r
  let s := s.setReg off (regMerge off (s.reg off) v)
  let s := if r = 8 then { s with nnext := s.nnext.erase c } else s
  if r = 0 && s.ncRun c then s.wakeUp else s
/-- A write of a chain's register, by its tenant's host or the Chimney, whose writes extend MR2 (R382). -/
def State.ncPut (s : State) (ag : BitVec 5) (c r v : Nat) : State :=
  let s := if isChimney ag && decide (r ≤ 0x10) then s.extendMr 2 (Config.digest (oNc c + r) v) else s
  if !(s.ownsTenant ag (s.ncTenant c) || isChimney ag) || s.ncRefuses c r v then s.refuseReg ag (oNc c + r) else s.ncSet c r v

/-! ### Registers that only the Chimney writes (R310, R321, R329, R335, R343, R390) -/

/-- Whether CFGWRITE reaches an offset. -/
def cfgReg (off : Nat) : Bool :=
  off == oCethr || off == oKznode || (decide (0x9000 ≤ off) && decide (off ≤ 0x9020) && off % 4 == 0) ||
    (decide (0x10000 ≤ off) && decide (off < 0x14000) && off % 0x40 == 8) ||
    (decide (0x100000 ≤ off) && decide (off < 0x140000) && off % 8 == 0 && decide (off % 0x40 ≤ 0x10)) ||
    (decide (0x200000 ≤ off) && decide (off < 0x300000) && off % 8 == 0) ||
    (decide (0x320000 ≤ off) && decide (off < 0x340000) && off % 8 == 0) || (slotReg off && off % 4 == 0)
/-- Whether the target's own rule refuses the Chimney's write. -/
def State.cfgRefuses (s : State) (off v : Nat) : Bool :=
  if decide (0x10000 ≤ off) && decide (off < 0x14000) then
    natBit v 7 != natBit (s.reg off) 7 && !s.lqIdle ((off - 0x10000) / 0x40)
  else if decide (0x100000 ≤ off) && decide (off < 0x140000) then s.ncRefuses ((off - 0x100000) / 0x40) (off % 0x40) v
  else false
/-- The fields of peer and endpoint entries (Tables 19.9, 19.13). -/
def tableFields (off : Nat) : Nat :=
  if off < 0x300000 then (if off % 0x10 = 0 then 0x300FFFFFF else 0xFFFF)
  else match off % 0x20 with | 0x10 => 0x01FFFFFFFFFFFFFF | 0x18 => 0 | _ => 2 ^ 64 - 1
/-- In H0, in which the core domain has its registers. -/
def State.atH0 (s : State) : State := if s.hst = 0 then s else s.toState 0
/-- The Chimney writes a register of its own, and extends MR2 (R382); a reserved KIND keeps the field (R6). Without a node
number the Kazid requests under way end (R343). -/
def State.cfgPut (s : State) (off v : Nat) : State :=
  let ag : BitVec 5 := 16
  let mr := fun (s : State) => s.extendMr 2 (Config.digest off v)
  if decide (0x10000 ≤ off) && decide (off < 0x14000) then s.lqcfgPut ag ((off - 0x10000) / 0x40) v
  else if decide (0x100000 ≤ off) && decide (off < 0x140000) then s.ncPut ag ((off - 0x100000) / 0x40) (off % 0x40) v
  else if decide (0x200000 ≤ off) && decide (off < 0x340000) then
    let new := (BitVec.ofNat 64 v &&& BitVec.ofNat 64 (tableFields off)).toNat
    let keep := decide (off < 0x300000) && off % 0x10 == 0 && natBits new 32 2 == 3
    mr (s.setReg off (if keep then natPut new 32 2 (natBits (s.reg off) 32 2) else new))
  else
    let tmpl := decide (0x9000 ≤ off) && decide (off ≤ 0x9020)
    let s := mr (if coreDomainReg off || tmpl then s.atH0 else s)
    let s := s.setReg off (regMerge off (s.reg off) v)
    if tmpl then s.loadTemplate else if off = oKznode && !natBit (s.reg oKznode) 31 then s.cutOff else s

/-- The Chimney writes DBGCTL, with a value made from the one it holds, in H0 (R366, R388). -/
def State.dbgPut (s : State) (pt : Nat) (f : Nat → Nat) : State :=
  if decide (pt < 5376) && !s.resetting && s.chimneyUp then
    let s := s.atH0
    (s.obsPut (oDbgctl pt) (f (s.reg (oDbgctl pt)))).getD s
  else s
def execDbgStop (pt : Nat) (s : State) : Res := .next (s.dbgPut pt (· + 1))
def execDbgResume (pt : Nat) (s : State) : Res := .next (s.dbgPut pt (· + 2))
def execDbgStep (pt : Nat) (slot : BitVec 4) (s : State) : Res := .next (s.dbgPut pt fun v => natPut v 8 4 slot.toNat + 4)

/-! ### Mailbox commands (R391, Table 23.7) -/

/-- The pages of a tenant's stage 2 that are mapped or host-backed. -/
def State.leavesOf (s : State) : Nat → Nat → Nat → List Nat
  | 0, _, _ => []
  | fuel + 1, tbl, base =>
    let lvl := 3 - fuel
    (List.range (if lvl = 0 then 8192 else 512)).flatMap fun i =>
      let e := s.entry (tbl + 8 * i)
      let g := base + i * leafSize lvl
      if !s2Ok lvl e then []
      else if entLeaf e then (if entV e || entState e == 3 then [g] else [])
      else if entV e then State.leavesOf s fuel (s2Addr e) g else []
/-- Zero a page of the lent map where it is mapped: a migration of it stops, a compressed page is restored to a frame first. -/
def State.zeroPage (s : State) (ten g : Nat) : State :=
  let s := match s.migOf ten g with | some m => s.abortMig m | none => s
  match s.s2Walk 0 (s.tenant ten).s2root g with
  | .leaf _ _ _ spa _ =>
    let s := match s.imageAt spa with | some _ => s.decompress (frameOf (s.realSpa spa)) | none => s
    s.zeroFrame (frameOf (s.realSpa spa)) (s.hostKtag ten)
  | _ => s
/-- SCRUB: `ld` is the mailbox that asked. -/
def State.scrub (s : State) (ld ten : Nat) : State :=
  let ps := s.leavesOf 4 (s.tenant ten).s2root 0
  let s := (ps.filter fun g => !s.lentPage ten g).foldl (fun s g => (s.takeOut ten g 0 (.mailbox ld ten)).getD s) s
  (ps.filter fun g => s.lentPage ten g).foldl (fun s g => s.zeroPage ten g) s
/-- Whether a command is permitted only to the devices of ADMIN.LDMASK. -/
def cmdAdmin (op : Nat) : Bool := [1, 2, 3, 4, 5, 8, 9].contains op
/-- Whether an LD may give the commands marked A. -/
def State.isAdmin (s : State) (ld : Nat) : Bool := natBit (s.reg oAdmin) ld
/-- Copy records to a buffer, up to the first that cannot be written: the state and how many were copied. -/
def State.copyRecords (s : State) (ld a : Nat) : List (BitVec 512) → State × Nat
  | [] => (s, 0)
  | r :: rs =>
    match s.writeGpa ld a (blockBytes r) (s.hostKtag ld) with
    | none => (s, 0)
    | some s => let x := s.copyRecords ld (a + 64) rs; (x.1, x.2 + 1)
/-- OBSWRITE permitted without A: the tenant's own dump block, and SMPCTL that names it. -/
def obsOwn (ld off v : Nat) : Bool :=
  (decide (0x3000000 + 0x40 * ld ≤ off) && decide (off < 0x3000040 + 0x40 * ld)) ||
    (decide (0x2000000 ≤ off) && decide (off < 0x3000000) && (off - 0x2000000) % 0x4000 == 0 && natBits v 32 4 == ld)
/-- What a command of a block does: the state, its status, and whether effects are still under way. -/
def State.mbDo (s : State) (ld a : Nat) (b : List Byte) : State × Nat × Bool :=
  let op := cmdOp b
  let x := blkNat b 8 8
  let y := blkNat b 16 8
  let n := blkNat b 8 1
  if !(decide (1 ≤ op) && decide (op ≤ 9)) then (s, 1, false)
  else if cmdAdmin op && !s.isAdmin ld then (s, 2, false)
  else
    match op with
    | 1 => (s.atH0.coreResetBegin, 0, true)
    | 3 =>
      if 16 ≤ n then (s, 1, false)
      else (s.setTenant n { s.tenant n with clusters := BitVec.ofNat 88 (blkNat b 16 11 % 2 ^ 84) }, 0, false)
    | 4 =>
      if 4 ≤ n then (s, 1, false)
      else if !s.hartsDown.has n then (s, 3, false)
      else ({ s with hartsDown := s.hartsDown.erase n }.skResume n, 0, false)
    | 5 =>
      if 16 ≤ n then (s, 1, false)
      else if s.bound n then (s, 3, false)
      else
        let s := s.scrub ld n
        (s, 0, s.shoots.any fun z => match z.fin with | .mailbox l _ _ => l == ld | _ => false)
    | 6 =>
      if !s.isAdmin ld && !obsOwn ld x y then (s, 2, false)
      else if !obsReg x then (s, 1, false)
      else
        let s := if coreDomainReg x then s.atH0 else s
        match s.obsPut x y with
        | some s => (s, 0, false)
        | none => (s.report srcChimney { cat := 7, code := 1, ten := some ld, ld := some ld, aux0 := x % 2 ^ 32 }, 4, false)
    | 7 =>
      let own := s.records.filter fun r => s.isAdmin ld || (r.extractLsb' 152 8).toNat == 128 + ld
      let rs := own.drop (own.length - min y own.length)
      let r := s.copyRecords ld x rs
      ((r.1.writeGpa ld (a + 120) (natLE 8 r.2) (r.1.hostKtag ld)).getD r.1, if r.2 = rs.length then 0 else 1, false)
    | 8 =>
      if n != 6 && n != 7 then (s, 1, false) else (s.extendMr n (BitVec.ofNat 512 (blkNat b 64 64)), 0, false)
    | _ => if !cfgReg x then (s, 1, false) else (s.cfgPut x y, if s.cfgRefuses x y then 4 else 0, false)
/-- Carry out the command at the head: a refused one is recorded (Table 23.5). True while effects are under way. -/
def State.mbRun (s : State) (ld a : Nat) : State × Bool :=
  let done := fun (s : State) (st : Nat) => s.setReg (oMbstat ld) (256 + st)
  match s.readGpa ld a 128 (s.hostKtag ld) with
  | (s, none) => (done (s.report srcChimney { cat := 7, code := 2, ten := some ld, ld := some ld, addr := a }) 1, false)
  | (s, some b) =>
    if cmdOp b = 2 && s.isAdmin ld then
      match s.flash with
      | some cfg => (s.hearthReset 2 cfg, true)
      | none => (done s 3, false)
    else
      match s.mbDo ld a b with
      | (s, st, on) =>
        let s := if decide (1 ≤ st) && decide (st ≤ 3) then
            s.report srcChimney { cat := 7, code := 2, ten := some ld, ld := some ld, aux0 := cmdOp b }
          else s
        (done s st, on)
/-- Commands of every mailbox, one at a time in the order of their writes, while the Chimney acts (R33, R383). -/
def State.mbNext (s : State) : Nat → State
  | 0 => s
  | n + 1 =>
    match s.mbox with
    | [] => s
    | (ld, a) :: _ =>
      if !s.chimneyUp then s
      else match s.mbRun ld a with
        | (s, true) => s
        | (s, false) => State.mbNext (s.mailboxEnd ld) n
/-- A command may have ended: the next one is carried out. -/
def State.mbAfter (s : State) (old : Nat) : State := if s.mbox.length < old then s.mbNext (s.mbox.length + 1) else s
/-- MBCMD, by the host of the logical device. -/
def State.mbcmd (s : State) (ag : BitVec 5) (ld v : Nat) : State :=
  if !s.ownsTenant ag ld || natBit (s.reg (oMbstat ld)) 8 then s.refuseReg ag (oMbcmd ld)
  else
    let idle := s.mbox.isEmpty
    let s := { s with mbox := s.mbox ++ [(ld, natBits v 6 46 * 64)] }.setReg (oMbstat ld) (natPut (s.reg (oMbstat ld)) 8 1 1)
    if idle then s.mbNext 1 else s
/-- A host gives a mailbox command whose block has an OP. -/
def State.mailCommand (s : State) (ld : BitVec 4) (blk op : Nat) : State :=
  if s.opOf ld.toNat blk == some op then s.mbcmd (ld.setWidth 5) ld.toNat blk else s

def execCorereset (ld : BitVec 4) (blk : Nat) (s : State) : Res := .next (s.mailCommand ld blk 1)
def execHearthreset (ld : BitVec 4) (blk : Nat) (cfg : BootCfg) (s : State) : Res :=
  .next ({ s with flash := some (s.flash.getD cfg) }.mailCommand ld blk 2)
def execClmask (ld : BitVec 4) (blk : Nat) (s : State) : Res := .next (s.mailCommand ld blk 3)
def execStarthart (ld : BitVec 4) (blk : Nat) (s : State) : Res := .next (s.mailCommand ld blk 4)
def execScrub (ld : BitVec 4) (blk : Nat) (s : State) : Res := .next (s.mailCommand ld blk 5)
def execObswrite (ld : BitVec 4) (blk : Nat) (s : State) : Res := .next (s.mailCommand ld blk 6)
/-- ERRREAD. After a failed boot it is answered on the management bus, with what the collector holds (R383; log entry 59). -/
def execErrread (ld : BitVec 4) (blk : Nat) (s : State) : Res :=
  .next (if s.booted && !s.bootOk then s.emit (.mgmtBus s.records) else s.mailCommand ld blk 7)
def execExtend (ld : BitVec 4) (blk : Nat) (s : State) : Res := .next (s.mailCommand ld blk 8)
def execCfgwrite (ld : BitVec 4) (blk : Nat) (s : State) : Res := .next (s.mailCommand ld blk 9)

/-- A core reset ends (R22). -/
def execCoreResetEnd (s : State) : Res := .next (s.coreResetOver.mbAfter s.mbox.length)
/-- A receiver echoes a shootdown (R305). -/
def execShootdownEcho (ini sq rcv : Nat) (s : State) : Res :=
  if decide (rcv < 3) && s.shoots.any fun x => x.ini == ini && x.seq == sq then .next ((s.echo ini sq rcv).mbAfter s.mbox.length) else .next s

/-! ### Register writes (R2, R5, R310, R329, R351) -/

/-- A write in an LD block, by its offset there. -/
def State.ldPut (s : State) (ag : BitVec 5) (ld r v : Nat) : State :=
  match r with
  | 0x00 => s.ldctlPut ag ld v
  | 0x10 => s.ringPut ag ld (oEvbase ld) v (s.reg (oEvhead ld) == s.reg (oEvtail ld))
  | 0x18 => s.evheadPut ag ld v
  | 0x28 => s.ringPut ag ld (oSqbase ld) v (s.reg (oSqhead ld) == s.reg (oSqtail ld))
  | 0x30 => s.sqheadPut ag ld v
  | 0x40 => s.ringPut ag ld (oPrstage ld) v (s.tenant ld).reqs.isEmpty
  | 0x48 => if s.mayLd ag ld then s.replyIn ld (natBits v 0 32) (natBits v 32 8) else s.refuseReg ag (oPrreply ld)
  | 0x50 => s.skcmd ag ld v
  | _ => s.refuseReg ag (oLd ld + r)
/-- A write of a queue's register. -/
def State.lqPut (s : State) (ag : BitVec 5) (q r v : Nat) : State :=
  match r with
  | 0x00 => s.lqbaseWrite ag q v
  | 0x08 => s.lqcfgPut ag q v
  | 0x10 => s.lqappPut ag q v
  | 0x20 => s.lqendPut ag q v
  | _ => s.refuseReg ag (oLq q + r)
/-- A write of a management register by an agent: 0..15 the hosts, 16 the Chimney. One to DEVID has no effect and leaves no record (R2), also
a host's (DEDUCED, log entry 65). -/
def State.regWrite (s : State) (ag : BitVec 5) (off v : Nat) : State :=
  if decide (16 < ag.toNat) || off == oDevid || (isChimney ag && (!s.chimneyUp || (coreDomainReg off && s.resetting))) then s
  else if isChimney ag && cfgReg off then s.cfgPut off v
  else if decide (0x1000 ≤ off) && decide (off < 0x2000) then s.ldPut ag ((off - 0x1000) / 0x100) (off % 0x100) v
  else if decide (0x8000 ≤ off) && decide (off < 0x8100) then
    if off % 0x10 = 0 then s.mbcmd ag ((off - 0x8000) / 0x10) v else s.refuseReg ag off
  else if decide (0x10000 ≤ off) && decide (off < 0x14000) then s.lqPut ag ((off - 0x10000) / 0x40) (off % 0x40) v
  else if decide (0x100000 ≤ off) && decide (off < 0x140000) then s.ncPut ag ((off - 0x100000) / 0x40) (off % 0x40) v
  else if !isChimney ag then s.refuseReg ag off
  else
    let s := if coreDomainReg off then s.atH0 else s
    match s.obsPut off v with
    | some s => s
    | none => s.refuseReg ag off
def execRegisterWrite (ag : BitVec 5) (off : Nat) (v : BitVec 64) (s : State) : Res := .next (s.regWrite ag off v.toNat)

/-! ### SPDM (R384..R386) and the CXL mailbox (R350) -/

/-- Response codes of SPDM 1.3 (log entry 20). -/
def spdmVersion : Nat := 0x04
def spdmError : Nat := 0x7F
def errUnsupported : Nat := 0x07
def errVersion : Nat := 0x41
def errSession : Nat := 0x0B
def errLimit : Nat := 0x0A
def errInvalid : Nat := 0x01
/-- Send an error response. -/
def State.spdmFail (s : State) (ld code : Nat) : State := s.emit (.spdm ld spdmError [BitVec.ofNat 8 code])
/-- A response whose content the spec leaves open behind its first bytes: certificates, signatures, nonces and parameters (log entry 6). -/
def State.spdmFree (s : State) (ld code : Nat) (head : List Byte := []) : State :=
  { s with free := s.free + 1 }.emit (.spdm ld code (head ++ Config.freeBytes s.free))
/-- What CAPABILITIES says (Table 23.2; log entry 20): certificates, challenge, signed measurements, encryption, key exchange, heartbeat and
key update; no mutual authentication, PSK, chunking, SET_CERTIFICATE or GET_CSR. -/
def spdmFlags : List Byte := natLE 4 0x62D6
/-- What ALGORITHMS selects (Table 23.2; log entry 20): SHA-512 for measurements, ECDSA P-521, SHA-512, secp521r1, AES-256-GCM. -/
def spdmAlgorithms : List Byte := natLE 4 0x08 ++ natLE 4 0x100 ++ natLE 4 0x04 ++ natLE 2 0x20 ++ natLE 2 0x02
/-- A request in the supported version; any other version is answered as a mismatch. The responder runs once boot has succeeded. -/
def spdm (s : State) (ver : BitVec 8) (ld : BitVec 4) (f : State → Nat → State) : Res :=
  if !s.bootOk || s.chimneyDown then .next s
  else if ver != 0x13 then .next (s.spdmFail ld.toNat errVersion)
  else .next (f s ld.toNat)
/-- Whether a session of a logical device is established. -/
def State.secure (s : State) (ld sid : Nat) : Bool := s.sessions.contains (ld, sid, true)
/-- A request that acts within a session. -/
def inSession (s : State) (ver : BitVec 8) (ld : BitVec 4) (sid : Nat) (f : State → Nat → State) : Res :=
  spdm s ver ld fun s n => if s.secure n sid then f s n else s.spdmFail n errSession

def execGetVersion (ld : BitVec 4) (ver : BitVec 8) (s : State) : Res := spdm s ver ld fun s n => s.emit (.spdm n spdmVersion [0x13])
def execGetCapabilities (ld : BitVec 4) (ver : BitVec 8) (s : State) : Res := spdm s ver ld fun s n => s.spdmFree n 0x61 spdmFlags
def execNegotiateAlgorithms (ld : BitVec 4) (ver : BitVec 8) (s : State) : Res := spdm s ver ld fun s n => s.emit (.spdm n 0x63 spdmAlgorithms)
/-- A request, its version and slot, on a certificate slot: slot 0 holds the only chain. -/
def spdmSlot (s : State) (req : BitVec 8 × BitVec 8) (ld : BitVec 4) (f : State → Nat → State) : Res :=
  spdm s req.1 ld fun s n => if req.2 == 0 then f s n else s.spdmFail n errInvalid
/-- The slots that hold a chain, then its digest. -/
def execGetDigests (ld : BitVec 4) (ver : BitVec 8) (s : State) : Res := spdm s ver ld fun s n => s.spdmFree n 0x01 [1]
def execGetCertificate (ld : BitVec 4) (req : BitVec 8 × BitVec 8) (s : State) : Res := spdmSlot s req ld fun s n => s.spdmFree n 0x02 [0]
def execChallenge (ld : BitVec 4) (req : BitVec 8 × BitVec 8) (s : State) : Res := spdmSlot s req ld fun s n => s.spdmFree n 0x03 [0]
/-- One measurement: MR0..MR7, the lent map, the tenant's key tags. -/
def State.measurement (s : State) (ld ix : Nat) : List Byte :=
  if ix ≤ 8 then blockBytes (s.mr.getD (ix - 1) 0)
  else if ix = 9 then (List.range 16).flatMap fun j => natLE 8 (s.reg (oLent ld (j / 2) + 8 * (j % 2)))
  else (s.keys.filter fun k => k.2 == ld).map fun k => BitVec.ofNat 8 k.1
def execGetMeasurements (ld : BitVec 4) (ver ix : BitVec 8) (s : State) : Res :=
  spdm s ver ld fun s n =>
    let i := ix.toNat
    if decide (1 ≤ i) && decide (i ≤ 10) then s.emit (.spdm n 0x60 (s.measurement n i))
    else if i = 0xFF then s.emit (.spdm n 0x60 ((List.range 10).flatMap fun j => s.measurement n (j + 1)))
    else s.spdmFail n errInvalid
/-- A new session: at most four of a logical device. -/
def execKeyExchange (ld : BitVec 4) (ver : BitVec 8) (s : State) : Res :=
  spdm s ver ld fun s n =>
    let mine := s.sessions.filter fun x => x.1 == n
    if 4 ≤ mine.length then s.spdmFail n errLimit
    else
      let (f, s) := s.freshNat
      let sid := ((List.range 5).find? fun i => !(mine.any fun x => x.2.1 == f + i)).getD 0 + f
      { s with sessions := s.sessions ++ [(n, sid, false)] }.spdmFree n 0x64
/-- The handshake of a session ends. -/
def execFinish (ld : BitVec 4) (ver : BitVec 8) (sid : Nat) (s : State) : Res :=
  spdm s ver ld fun s n =>
    if s.sessions.contains (n, sid, false) then
      { s with sessions := s.sessions.map fun x => if x = (n, sid, false) then (n, sid, true) else x }.spdmFree n 0x65
    else s.spdmFail n errSession
def execEndSession (ld : BitVec 4) (ver : BitVec 8) (sid : Nat) (s : State) : Res :=
  inSession s ver ld sid fun s n => { s with sessions := s.sessions.filter (· != (n, sid, true)) }.spdmFree n 0x6C
def execKeyUpdate (ld : BitVec 4) (ver : BitVec 8) (sid : Nat) (s : State) : Res := inSession s ver ld sid fun s n => s.spdmFree n 0x69
def execHeartbeat (ld : BitVec 4) (ver : BitVec 8) (sid : Nat) (s : State) : Res := inSession s ver ld sid fun s n => s.spdmFree n 0x68
/-- KEYGEN: the lowest free key tag; with HOST it becomes the tag of host accesses. -/
def execKeygen (ld : BitVec 4) (ver : BitVec 8) (sid : Nat) (host : Bool) (s : State) : Res :=
  inSession s ver ld sid fun s n =>
    match (List.range 255).find? fun i => !s.keys.has (i + 1) with
    | none => s.emit (.spdm n 0x7E [1])
    | some i =>
      let k := i + 1
      let s := { s with keys := s.keys.insert k n }.extendMr 5 (Config.digest n k)
      let s := if host then s.setReg (oLdctl n) (natPut (s.reg (oLdctl n)) 40 8 k) else s
      s.emit (.spdm n 0x7E [0, BitVec.ofNat 8 k])
/-- KEYDEL: lines written under the tag fail their check from now on; a tag that is not the tenant's is refused (log entry 20). -/
def execKeydel (ld : BitVec 4) (ver : BitVec 8) (sid : Nat) (kt : BitVec 8) (s : State) : Res :=
  inSession s ver ld sid fun s n =>
    let k := kt.toNat
    if s.keys.find? k != some n then s.emit (.spdm n 0x7E [1])
    else
      let s := { s with
        keys := s.keys.erase k
        lineKey := s.lineKey.map fun (x : Nat × Nat) => if x.2 = k then (x.1, 256) else x }.extendMr 5 (Config.digest n k)
      let s := if s.hostKtag n = k then s.setReg (oLdctl n) (natPut (s.reg (oLdctl n)) 40 8 0) else s
      s.emit (.spdm n 0x7E [0])
/-- Any other request. -/
def execSpdmUnsupportedRequest (ld : BitVec 4) (ver : BitVec 8) (s : State) : Res := spdm s ver ld fun s n => s.spdmFail n errUnsupported

/-- Whether the CXL mailbox answers: boot has reported its device ready, and the Chimney's core runs (R33, R383). -/
def State.mailboxUp (s : State) : Bool := s.bootOk && !s.chimneyDown
/-- Identify Memory Device: the capacity is the sum of the lent ranges (R352). -/
def execIdentifyMemoryDevice (ld : BitVec 4) (s : State) : Res :=
  .next (if s.mailboxUp then s.emit (.identify ld.toNat ((s.lentMap ld.toNat).map (·.2)).sum) else s)
/-- Get Health Info, whose content the spec leaves open. -/
def execGetHealthInfo (ld : BitVec 4) (s : State) : Res :=
  .next (if s.mailboxUp then { s with free := s.free + 1 }.emit (.health ld.toNat (Config.freeBytes s.free)) else s)
/-- Any other command of the CXL mailbox, by its opcode, is answered as unsupported (R7, R350; log entry 20). -/
def State.cxlUnsupported (s : State) (ld op : Nat) : State :=
  if s.mailboxUp && decide (ld < 16) && op != 0x4000 && op != 0x4200 then s.emit (.unsupported ld op) else s

end Sys2Proof.Machine
end

