-- ==== Sys2Proof/Machine/Dispatch.lean ====
section
/-! DEFINITION. The meaning of every instruction and event: one arm each. -/

namespace Sys2Proof.Machine

open Host

def exec (i : Instr) (s : State) : Host.Outcome State Fault Refusal :=
  match i with
  | .powerOn cfg => Sys2Proof.Machine.execPowerOn cfg s
  | .hearthReset cause cfg => Sys2Proof.Machine.execHearthReset cause cfg s
  | .coreResetEnd => Sys2Proof.Machine.execCoreResetEnd s
  | .clockChange mhz => Sys2Proof.Machine.execClockChange mhz s
  | .powerStateEnter => Sys2Proof.Machine.execPowerStateEnter s
  | .powerStateExit => Sys2Proof.Machine.execPowerStateExit s
  | .stokerHartStop hart => Sys2Proof.Machine.execStokerHartStop hart s
  | .memoryErrorDetect ctl spa kind => Sys2Proof.Machine.execMemoryErrorDetect ctl spa kind s
  | .runFetch k => Sys2Proof.Machine.execRunFetch k s
  | .partitionChoice pt => Sys2Proof.Machine.execPartitionChoice pt s
  | .runAttemptEnd k => Sys2Proof.Machine.execRunAttemptEnd k s
  | .pendingWriteLand k r => Sys2Proof.Machine.execPendingWriteLand k r s
  | .heldEffectPerform k => Sys2Proof.Machine.execHeldEffectPerform k s
  | .backoffExpiry k => Sys2Proof.Machine.execBackoffExpiry k s
  | .starvationExpiry k => Sys2Proof.Machine.execStarvationExpiry k s
  | .claimDeadlockFault w => Sys2Proof.Machine.execClaimDeadlockFault w s
  | .waitvRecheck k => Sys2Proof.Machine.execWaitvRecheck k s
  | .granuleReturn w => Sys2Proof.Machine.execGranuleReturn w s
  | .add d a b g => Sys2Proof.Machine.execAdd d a b g s
  | .sub d a b g => Sys2Proof.Machine.execSub d a b g s
  | .addsatI32 d a b g => Sys2Proof.Machine.execAddsatI32 d a b g s
  | .addsatN32 d a b g => Sys2Proof.Machine.execAddsatN32 d a b g s
  | .subsatI32 d a b g => Sys2Proof.Machine.execSubsatI32 d a b g s
  | .subsatN32 d a b g => Sys2Proof.Machine.execSubsatN32 d a b g s
  | .absdiffI32 d a b g => Sys2Proof.Machine.execAbsdiffI32 d a b g s
  | .absdiffN32 d a b g => Sys2Proof.Machine.execAbsdiffN32 d a b g s
  | .addi d a im g => Sys2Proof.Machine.execAddi d a im g s
  | .mul d a b g => Sys2Proof.Machine.execMul d a b g s
  | .mulhiI32 d a b g => Sys2Proof.Machine.execMulhiI32 d a b g s
  | .mulhiN32 d a b g => Sys2Proof.Machine.execMulhiN32 d a b g s
  | .mad d a b g => Sys2Proof.Machine.execMad d a b g s
  | .dot4I8 d a b g => Sys2Proof.Machine.execDot4I8 d a b g s
  | .dot4N8 d a b g => Sys2Proof.Machine.execDot4N8 d a b g s
  | .dot8I4 d a b g => Sys2Proof.Machine.execDot8I4 d a b g s
  | .sad4N8 d a b g => Sys2Proof.Machine.execSad4N8 d a b g s
  | .minI32 d a b g => Sys2Proof.Machine.execMinI32 d a b g s
  | .maxI32 d a b g => Sys2Proof.Machine.execMaxI32 d a b g s
  | .minN32 d a b g => Sys2Proof.Machine.execMinN32 d a b g s
  | .maxN32 d a b g => Sys2Proof.Machine.execMaxN32 d a b g s
  | .absI32 d a g => Sys2Proof.Machine.execAbsI32 d a g s
  | .negI32 d a g => Sys2Proof.Machine.execNegI32 d a g s
  | .and d a b g => Sys2Proof.Machine.execAnd d a b g s
  | .or d a b g => Sys2Proof.Machine.execOr d a b g s
  | .xor d a b g => Sys2Proof.Machine.execXor d a b g s
  | .andn d a b g => Sys2Proof.Machine.execAndn d a b g s
  | .orn d a b g => Sys2Proof.Machine.execOrn d a b g s
  | .xnor d a b g => Sys2Proof.Machine.execXnor d a b g s
  | .not d a g => Sys2Proof.Machine.execNot d a g s
  | .mov d a g => Sys2Proof.Machine.execMov d a g s
  | .andi d a im g => Sys2Proof.Machine.execAndi d a im g s
  | .ori d a im g => Sys2Proof.Machine.execOri d a im g s
  | .xori d a im g => Sys2Proof.Machine.execXori d a im g s
  | .movi d im g => Sys2Proof.Machine.execMovi d im g s
  | .shl d a b g => Sys2Proof.Machine.execShl d a b g s
  | .shr d a b g => Sys2Proof.Machine.execShr d a b g s
  | .sra d a b g => Sys2Proof.Machine.execSra d a b g s
  | .rol d a b g => Sys2Proof.Machine.execRol d a b g s
  | .ror d a b g => Sys2Proof.Machine.execRor d a b g s
  | .shlf d a b g => Sys2Proof.Machine.execShlf d a b g s
  | .shrf d a b g => Sys2Proof.Machine.execShrf d a b g s
  | .shli d a c g => Sys2Proof.Machine.execShli d a c g s
  | .shri d a c g => Sys2Proof.Machine.execShri d a c g s
  | .srai d a c g => Sys2Proof.Machine.execSrai d a c g s
  | .roli d a c g => Sys2Proof.Machine.execRoli d a c g s
  | .rori d a c g => Sys2Proof.Machine.execRori d a c g s
  | .popc d a g => Sys2Proof.Machine.execPopc d a g s
  | .clz d a g => Sys2Proof.Machine.execClz d a g s
  | .ctz d a g => Sys2Proof.Machine.execCtz d a g s
  | .brev d a g => Sys2Proof.Machine.execBrev d a g s
  | .bxtI32 d a b g => Sys2Proof.Machine.execBxtI32 d a b g s
  | .bxtN32 d a b g => Sys2Proof.Machine.execBxtN32 d a b g s
  | .bins d a b g => Sys2Proof.Machine.execBins d a b g s
  | .bsel d a b g => Sys2Proof.Machine.execBsel d a b g s
  | .eq m p a b g => Sys2Proof.Machine.execEq m p a b g s
  | .ne m p a b g => Sys2Proof.Machine.execNe m p a b g s
  | .ltI32 m p a b g => Sys2Proof.Machine.execLtI32 m p a b g s
  | .leI32 m p a b g => Sys2Proof.Machine.execLeI32 m p a b g s
  | .gtI32 m p a b g => Sys2Proof.Machine.execGtI32 m p a b g s
  | .geI32 m p a b g => Sys2Proof.Machine.execGeI32 m p a b g s
  | .ltN32 m p a b g => Sys2Proof.Machine.execLtN32 m p a b g s
  | .geN32 m p a b g => Sys2Proof.Machine.execGeN32 m p a b g s
  | .sel d a b g => Sys2Proof.Machine.execSel d a b g s
  | .p2v d r g => Sys2Proof.Machine.execP2v d r g s
  | .v2p m p a g => Sys2Proof.Machine.execV2p m p a g s
  | .pand m p r sr g => Sys2Proof.Machine.execPand m p r sr g s
  | .por m p r sr g => Sys2Proof.Machine.execPor m p r sr g s
  | .pxor m p r sr g => Sys2Proof.Machine.execPxor m p r sr g s
  | .pnot m p r g => Sys2Proof.Machine.execPnot m p r g s
  | .wfromCluster d a g => Sys2Proof.Machine.execWfromCluster d a g s
  | .wspace d a g => Sys2Proof.Machine.execWspace d a g s
  | .add64 d a b g => Sys2Proof.Machine.execAdd64 d a b g s
  | .sub64 d a b g => Sys2Proof.Machine.execSub64 d a b g s
  | .leaN d a b g => Sys2Proof.Machine.execLeaN d a b g s
  | .leaI d a b g => Sys2Proof.Machine.execLeaI d a b g s
  | .lea4N d a b g => Sys2Proof.Machine.execLea4N d a b g s
  | .lea4I d a b g => Sys2Proof.Machine.execLea4I d a b g s
  | .mulwI32 d a b g => Sys2Proof.Machine.execMulwI32 d a b g s
  | .mulwN32 d a b g => Sys2Proof.Machine.execMulwN32 d a b g s
  | .wtestLocal d a g => Sys2Proof.Machine.execWtestLocal d a g s
  | .wtestShared d a g => Sys2Proof.Machine.execWtestShared d a g s
  | .wtestCluster d a g => Sys2Proof.Machine.execWtestCluster d a g s
  | .wtoLocal d a g => Sys2Proof.Machine.execWtoLocal d a g s
  | .wtoShared d a g => Sys2Proof.Machine.execWtoShared d a g s
  | .wtoCluster d a g => Sys2Proof.Machine.execWtoCluster d a g s
  | .wfromLocal d a g => Sys2Proof.Machine.execWfromLocal d a g s
  | .wfromShared d a g => Sys2Proof.Machine.execWfromShared d a g s
  | .fadd d a b g => Sys2Proof.Machine.execFadd d a b g s
  | .fsub d a b g => Sys2Proof.Machine.execFsub d a b g s
  | .fmul d a b g => Sys2Proof.Machine.execFmul d a b g s
  | .fmac d a b g => Sys2Proof.Machine.execFmac d a b g s
  | .fmsc d a b g => Sys2Proof.Machine.execFmsc d a b g s
  | .fnmac d a b g => Sys2Proof.Machine.execFnmac d a b g s
  | .fmin d a b g => Sys2Proof.Machine.execFmin d a b g s
  | .fmax d a b g => Sys2Proof.Machine.execFmax d a b g s
  | .fabs d a g => Sys2Proof.Machine.execFabs d a g s
  | .fneg d a g => Sys2Proof.Machine.execFneg d a g s
  | .fcopysign d a b g => Sys2Proof.Machine.execFcopysign d a b g s
  | .fclass d a g => Sys2Proof.Machine.execFclass d a g s
  | .frint d a g => Sys2Proof.Machine.execFrint d a g s
  | .ffloor d a g => Sys2Proof.Machine.execFfloor d a g s
  | .fceil d a g => Sys2Proof.Machine.execFceil d a g s
  | .ftrunc d a g => Sys2Proof.Machine.execFtrunc d a g s
  | .feq m p a b g => Sys2Proof.Machine.execFeq m p a b g s
  | .fne m p a b g => Sys2Proof.Machine.execFne m p a b g s
  | .flt m p a b g => Sys2Proof.Machine.execFlt m p a b g s
  | .fle m p a b g => Sys2Proof.Machine.execFle m p a b g s
  | .fgt m p a b g => Sys2Proof.Machine.execFgt m p a b g s
  | .fge m p a b g => Sys2Proof.Machine.execFge m p a b g s
  | .fun m p a b g => Sys2Proof.Machine.execFun m p a b g s
  | .ford m p a b g => Sys2Proof.Machine.execFord m p a b g s
  | .addBf16x2 d a b g => Sys2Proof.Machine.execAddBf16x2 d a b g s
  | .mulBf16x2 d a b g => Sys2Proof.Machine.execMulBf16x2 d a b g s
  | .fmacBf16x2 d a b g => Sys2Proof.Machine.execFmacBf16x2 d a b g s
  | .addF16x2 d a b g => Sys2Proof.Machine.execAddF16x2 d a b g s
  | .mulF16x2 d a b g => Sys2Proof.Machine.execMulF16x2 d a b g s
  | .fmacF16x2 d a b g => Sys2Proof.Machine.execFmacF16x2 d a b g s
  | .minBf16x2 d a b g => Sys2Proof.Machine.execMinBf16x2 d a b g s
  | .maxBf16x2 d a b g => Sys2Proof.Machine.execMaxBf16x2 d a b g s
  | .addE4m3x4 d a b g => Sys2Proof.Machine.execAddE4m3x4 d a b g s
  | .mulE4m3x4 d a b g => Sys2Proof.Machine.execMulE4m3x4 d a b g s
  | .addE5m2x4 d a b g => Sys2Proof.Machine.execAddE5m2x4 d a b g s
  | .mulE5m2x4 d a b g => Sys2Proof.Machine.execMulE5m2x4 d a b g s
  | .dot4E4m3 d a b g => Sys2Proof.Machine.execDot4E4m3 d a b g s
  | .dot4E5m2 d a b g => Sys2Proof.Machine.execDot4E5m2 d a b g s
  | .maxE4m3x4 d a b g => Sys2Proof.Machine.execMaxE4m3x4 d a b g s
  | .minE4m3x4 d a b g => Sys2Proof.Machine.execMinE4m3x4 d a b g s
  | .cvtF32I32 d a g => Sys2Proof.Machine.execCvtF32I32 d a g s
  | .cvtF32N32 d a g => Sys2Proof.Machine.execCvtF32N32 d a g s
  | .cvtI32F32 d a g => Sys2Proof.Machine.execCvtI32F32 d a g s
  | .cvtN32F32 d a g => Sys2Proof.Machine.execCvtN32F32 d a g s
  | .cvtBf16x2F32 d a b g => Sys2Proof.Machine.execCvtBf16x2F32 d a b g s
  | .cvtF16x2F32 d a b g => Sys2Proof.Machine.execCvtF16x2F32 d a b g s
  | .cvtF32Bf16 d a g => Sys2Proof.Machine.execCvtF32Bf16 d a g s
  | .cvtF32F16 d a g => Sys2Proof.Machine.execCvtF32F16 d a g s
  | .cvtE4m3F32 d a g => Sys2Proof.Machine.execCvtE4m3F32 d a g s
  | .cvtE5m2F32 d a g => Sys2Proof.Machine.execCvtE5m2F32 d a g s
  | .cvtF32E4m3 d a g => Sys2Proof.Machine.execCvtF32E4m3 d a g s
  | .cvtF32E5m2 d a g => Sys2Proof.Machine.execCvtF32E5m2 d a g s
  | .cvtF32E2m1 d a g => Sys2Proof.Machine.execCvtF32E2m1 d a g s
  | .cvtF32E2m3 d a g => Sys2Proof.Machine.execCvtF32E2m3 d a g s
  | .cvtF32E3m2 d a g => Sys2Proof.Machine.execCvtF32E3m2 d a g s
  | .cvtF32Int4 d a g => Sys2Proof.Machine.execCvtF32Int4 d a g s
  | .qamax16 d a la => Sys2Proof.Machine.execQamax16 d a la s
  | .qamax32 d a la => Sys2Proof.Machine.execQamax32 d a la s
  | .qscale d a la => Sys2Proof.Machine.execQscale d a la s
  | .qcvt d a b la => Sys2Proof.Machine.execQcvt d a b la s
  | .qdeq d a b la => Sys2Proof.Machine.execQdeq d a b la s
  | .qesc d a la => Sys2Proof.Machine.execQesc d a la s
  | .qside d a b la => Sys2Proof.Machine.execQside d a b la s
  | .frcp d a la => Sys2Proof.Machine.execFrcp d a la s
  | .frsq d a la => Sys2Proof.Machine.execFrsq d a la s
  | .fsqrt d a la => Sys2Proof.Machine.execFsqrt d a la s
  | .fexp2 d a la => Sys2Proof.Machine.execFexp2 d a la s
  | .flog2 d a la => Sys2Proof.Machine.execFlog2 d a la s
  | .fsinpi d a la => Sys2Proof.Machine.execFsinpi d a la s
  | .fcospi d a la => Sys2Proof.Machine.execFcospi d a la s
  | .fdiv d a b la => Sys2Proof.Machine.execFdiv d a b la s
  | .divI32 d a b la => Sys2Proof.Machine.execDivI32 d a b la s
  | .divN32 d a b la => Sys2Proof.Machine.execDivN32 d a b la s
  | .remI32 d a b la => Sys2Proof.Machine.execRemI32 d a b la s
  | .remN32 d a b la => Sys2Proof.Machine.execRemN32 d a b la s
  | .lpick d a b la => Sys2Proof.Machine.execLpick d a b la s
  | .lslide d a b la => Sys2Proof.Machine.execLslide d a b la s
  | .lrot d a b la => Sys2Proof.Machine.execLrot d a b la s
  | .lswap d a b la => Sys2Proof.Machine.execLswap d a b la s
  | .lbits d a la => Sys2Proof.Machine.execLbits d a la s
  | .lall d a la => Sys2Proof.Machine.execLall d a la s
  | .redaddI32 d a la => Sys2Proof.Machine.execRedaddI32 d a la s
  | .redmaxI32 d a la => Sys2Proof.Machine.execRedmaxI32 d a la s
  | .vtrn8 d la => Sys2Proof.Machine.execVtrn8 d la s
  | .vtrn16 d la => Sys2Proof.Machine.execVtrn16 d la s
  | .vtrn32 d la => Sys2Proof.Machine.execVtrn32 d la s
  | .xsend d a => Sys2Proof.Machine.execXsend d a s
  | .xrecv d a => Sys2Proof.Machine.execXrecv d a s
  | .xsend64 d a => Sys2Proof.Machine.execXsend64 d a s
  | .xrecv64 d a => Sys2Proof.Machine.execXrecv64 d a s
  | .cmul d a b la => Sys2Proof.Machine.execCmul d a b la s
  | .cmac d a b la => Sys2Proof.Machine.execCmac d a b la s
  | .cmulc d a b la => Sys2Proof.Machine.execCmulc d a b la s
  | .cmacc d a b la => Sys2Proof.Machine.execCmacc d a b la s
  | .cadd d a b la => Sys2Proof.Machine.execCadd d a b la s
  | .movs d a g => Sys2Proof.Machine.execMovs d a g s
  | .ldI8 d a o la => Sys2Proof.Machine.execLdI8 d a o la s
  | .ldN8 d a o la => Sys2Proof.Machine.execLdN8 d a o la s
  | .ldI16 d a o la => Sys2Proof.Machine.execLdI16 d a o la s
  | .ldN16 d a o la => Sys2Proof.Machine.execLdN16 d a o la s
  | .ld32 d a o la => Sys2Proof.Machine.execLd32 d a o la s
  | .ld64 d a o la => Sys2Proof.Machine.execLd64 d a o la s
  | .ld128 d a o la => Sys2Proof.Machine.execLd128 d a o la s
  | .ldNt128 d a o la => Sys2Proof.Machine.execLdNt128 d a o la s
  | .ldt32 d t o la => Sys2Proof.Machine.execLdt32 d t o la s
  | .ldt64 d t o la => Sys2Proof.Machine.execLdt64 d t o la s
  | .ldt128 d t o la => Sys2Proof.Machine.execLdt128 d t o la s
  | .ldtSdb d t o la => Sys2Proof.Machine.execLdtSdb d t o la s
  | .ldtI8 d t o la => Sys2Proof.Machine.execLdtI8 d t o la s
  | .ldtN8 d t o la => Sys2Proof.Machine.execLdtN8 d t o la s
  | .ldtI16 d t o la => Sys2Proof.Machine.execLdtI16 d t o la s
  | .ldtN16 d t o la => Sys2Proof.Machine.execLdtN16 d t o la s
  | .st8 sr a o c g => Sys2Proof.Machine.execSt8 sr a o c g s
  | .st16 sr a o c g => Sys2Proof.Machine.execSt16 sr a o c g s
  | .st32 sr a o c g => Sys2Proof.Machine.execSt32 sr a o c g s
  | .st64 sr a o c g => Sys2Proof.Machine.execSt64 sr a o c g s
  | .st128 sr a o c g => Sys2Proof.Machine.execSt128 sr a o c g s
  | .stNt128 sr a o c g => Sys2Proof.Machine.execStNt128 sr a o c g s
  | .sdbst sr a o c g => Sys2Proof.Machine.execSdbst sr a o c g s
  | .stt32 sr t x c g => Sys2Proof.Machine.execStt32 sr t x c g s
  | .stt64 sr t x c g => Sys2Proof.Machine.execStt64 sr t x c g s
  | .stt128 sr t x c g => Sys2Proof.Machine.execStt128 sr t x c g s
  | .aadd d a b la => Sys2Proof.Machine.execAadd d a b la s
  | .aminI32 d a b la => Sys2Proof.Machine.execAminI32 d a b la s
  | .amaxI32 d a b la => Sys2Proof.Machine.execAmaxI32 d a b la s
  | .aminN32 d a b la => Sys2Proof.Machine.execAminN32 d a b la s
  | .amaxN32 d a b la => Sys2Proof.Machine.execAmaxN32 d a b la s
  | .aand d a b la => Sys2Proof.Machine.execAand d a b la s
  | .aor d a b la => Sys2Proof.Machine.execAor d a b la s
  | .axor d a b la => Sys2Proof.Machine.execAxor d a b la s
  | .aaddSys d a b la => Sys2Proof.Machine.execAaddSys d a b la s
  | .aminI32Sys d a b la => Sys2Proof.Machine.execAminI32Sys d a b la s
  | .amaxI32Sys d a b la => Sys2Proof.Machine.execAmaxI32Sys d a b la s
  | .aminN32Sys d a b la => Sys2Proof.Machine.execAminN32Sys d a b la s
  | .amaxN32Sys d a b la => Sys2Proof.Machine.execAmaxN32Sys d a b la s
  | .aandSys d a b la => Sys2Proof.Machine.execAandSys d a b la s
  | .aorSys d a b la => Sys2Proof.Machine.execAorSys d a b la s
  | .axorSys d a b la => Sys2Proof.Machine.execAxorSys d a b la s
  | .axch d a b la => Sys2Proof.Machine.execAxch d a b la s
  | .acas d a b la => Sys2Proof.Machine.execAcas d a b la s
  | .aadd64 d a b la => Sys2Proof.Machine.execAadd64 d a b la s
  | .axch64 d a b la => Sys2Proof.Machine.execAxch64 d a b la s
  | .acas64 d a b la => Sys2Proof.Machine.execAcas64 d a b la s
  | .afadd d a b la => Sys2Proof.Machine.execAfadd d a b la s
  | .afaddBf16x2 d a b la => Sys2Proof.Machine.execAfaddBf16x2 d a b la s
  | .aincw d a b la => Sys2Proof.Machine.execAincw d a b la s
  | .scall d a b la => Sys2Proof.Machine.execScall d a b la s
  | .fcall d a b la => Sys2Proof.Machine.execFcall d a b la s
  | .uadd d a b g => Sys2Proof.Machine.execUadd d a b g s
  | .usub d a b g => Sys2Proof.Machine.execUsub d a b g s
  | .umul d a b g => Sys2Proof.Machine.execUmul d a b g s
  | .uand d a b g => Sys2Proof.Machine.execUand d a b g s
  | .uor d a b g => Sys2Proof.Machine.execUor d a b g s
  | .uxor d a b g => Sys2Proof.Machine.execUxor d a b g s
  | .ushl d a b g => Sys2Proof.Machine.execUshl d a b g s
  | .ushr d a b g => Sys2Proof.Machine.execUshr d a b g s
  | .usra d a b g => Sys2Proof.Machine.execUsra d a b g s
  | .uminI32 d a b g => Sys2Proof.Machine.execUminI32 d a b g s
  | .umaxI32 d a b g => Sys2Proof.Machine.execUmaxI32 d a b g s
  | .uminN32 d a b g => Sys2Proof.Machine.execUminN32 d a b g s
  | .umaxN32 d a b g => Sys2Proof.Machine.execUmaxN32 d a b g s
  | .umulhiN32 d a b g => Sys2Proof.Machine.execUmulhiN32 d a b g s
  | .uadd64 d a b g => Sys2Proof.Machine.execUadd64 d a b g s
  | .usub64 d a b g => Sys2Proof.Machine.execUsub64 d a b g s
  | .uaddi d a im => Sys2Proof.Machine.execUaddi d a im s
  | .umovi d im => Sys2Proof.Machine.execUmovi d im s
  | .umovh d im => Sys2Proof.Machine.execUmovh d im s
  | .ueq m p a b g => Sys2Proof.Machine.execUeq m p a b g s
  | .une m p a b g => Sys2Proof.Machine.execUne m p a b g s
  | .ultI32 m p a b g => Sys2Proof.Machine.execUltI32 m p a b g s
  | .uleI32 m p a b g => Sys2Proof.Machine.execUleI32 m p a b g s
  | .ugtI32 m p a b g => Sys2Proof.Machine.execUgtI32 m p a b g s
  | .ugeI32 m p a b g => Sys2Proof.Machine.execUgeI32 m p a b g s
  | .ultN32 m p a b g => Sys2Proof.Machine.execUltN32 m p a b g s
  | .ugeN32 m p a b g => Sys2Proof.Machine.execUgeN32 m p a b g s
  | .ldl32 d dp la => Sys2Proof.Machine.execLdl32 d dp la s
  | .ldl64 d dp la => Sys2Proof.Machine.execLdl64 d dp la s
  | .ldl128 d dp la => Sys2Proof.Machine.execLdl128 d dp la s
  | .bra g dp => Sys2Proof.Machine.execBra g dp s
  | .call g dp => Sys2Proof.Machine.execCall g dp s
  | .ret g => Sys2Proof.Machine.execRet g s
  | .jmpr a g => Sys2Proof.Machine.execJmpr a g s
  | .callr a g => Sys2Proof.Machine.execCallr a g s
  | .exit g => Sys2Proof.Machine.execExit g s
  | .trap a g => Sys2Proof.Machine.execTrap a g s
  | .nop g => Sys2Proof.Machine.execNop g s
  | .divif g dp => Sys2Proof.Machine.execDivif g dp s
  | .divelse dp => Sys2Proof.Machine.execDivelse dp s
  | .divjoin => Sys2Proof.Machine.execDivjoin s
  | .divloop g dp => Sys2Proof.Machine.execDivloop g dp s
  | .fence c sr k la => Sys2Proof.Machine.execFence c sr k la s
  | .divbrk g dp => Sys2Proof.Machine.execDivbrk g dp s
  | .barWg g => Sys2Proof.Machine.execBarWg g s
  | .barReel g => Sys2Proof.Machine.execBarReel g s
  | .signal a b g => Sys2Proof.Machine.execSignal a b g s
  | .yield g => Sys2Proof.Machine.execYield g s
  | .backoff k a g => Sys2Proof.Machine.execBackoff k a g s
  | .regclaim a g => Sys2Proof.Machine.execRegclaim a g s
  | .reggive a g => Sys2Proof.Machine.execReggive a g s
  | .waitv d a b g => Sys2Proof.Machine.execWaitv d a b g s
  | .tfree a g => Sys2Proof.Machine.execTfree a g s
  | .tstate d a g => Sys2Proof.Machine.execTstate d a g s
  | .tbind d a b g => Sys2Proof.Machine.execTbind d a b g s
  | .ttag d a b g => Sys2Proof.Machine.execTtag d a b g s
  | .tdom d a b g => Sys2Proof.Machine.execTdom d a b g s
  | .bpost a b g => Sys2Proof.Machine.execBpost a b g s
  | .bpostw d a b g => Sys2Proof.Machine.execBpostw d a b g s
  | .kwait a g => Sys2Proof.Machine.execKwait a g s
  | .kpoll d a g => Sys2Proof.Machine.execKpoll d a g s
  | .mldb d a b g => Sys2Proof.Machine.execMldb d a b g s
  | .mloop d a g => Sys2Proof.Machine.execMloop d a g s
  | .mzero d a g => Sys2Proof.Machine.execMzero d a g s
  | .mwait d a g => Sys2Proof.Machine.execMwait d a g s
  | .mst d a g => Sys2Proof.Machine.execMst d a g s
  | .mld d a g => Sys2Proof.Machine.execMld d a g s
  | .mpoll d g => Sys2Proof.Machine.execMpoll d g s
  | .mabort d a g => Sys2Proof.Machine.execMabort d a g s
  | .xfwd d a g => Sys2Proof.Machine.execXfwd d a g s
  | .xinv d a g => Sys2Proof.Machine.execXinv d a g s
  | .ntail d a b g => Sys2Proof.Machine.execNtail d a b g s
  | .nseq d a g => Sys2Proof.Machine.execNseq d a g s
  | .nwait a b g => Sys2Proof.Machine.execNwait a b g s
  | .launch d a b g => Sys2Proof.Machine.execLaunch d a b g s
  | .lwait a b g => Sys2Proof.Machine.execLwait a b g s
  | .lseq d b g => Sys2Proof.Machine.execLseq d b g s
  | .usr d a g => Sys2Proof.Machine.execUsr d a g s
  | .uwr a b g => Sys2Proof.Machine.execUwr a b g s
  | .vform d a g => Sys2Proof.Machine.execVform d a g s
  | .poolpop d g => Sys2Proof.Machine.execPoolpop d g s
  | .tlbinvVa a g => Sys2Proof.Machine.execTlbinvVa a g s
  | .tlbinvAsid g => Sys2Proof.Machine.execTlbinvAsid g s
  | .eret g => Sys2Proof.Machine.execEret g s
  | .eretEsc g => Sys2Proof.Machine.execEretEsc g s
  | .rdfault d a g => Sys2Proof.Machine.execRdfault d a g s
  | .brk a g => Sys2Proof.Machine.execBrk a g s
  | .mark a g => Sys2Proof.Machine.execMark a g s
  | .bellowsAdd d a b => Sys2Proof.Machine.execBellowsAdd d a b s
  | .bellowsSub d a b => Sys2Proof.Machine.execBellowsSub d a b s
  | .bellowsAnd d a b => Sys2Proof.Machine.execBellowsAnd d a b s
  | .bellowsOr d a b => Sys2Proof.Machine.execBellowsOr d a b s
  | .bellowsXor d a b => Sys2Proof.Machine.execBellowsXor d a b s
  | .bellowsShl d a b => Sys2Proof.Machine.execBellowsShl d a b s
  | .bellowsShr d a b => Sys2Proof.Machine.execBellowsShr d a b s
  | .bellowsMul d a b => Sys2Proof.Machine.execBellowsMul d a b s
  | .bellowsAddi d a im => Sys2Proof.Machine.execBellowsAddi d a im s
  | .bellowsMovi d im => Sys2Proof.Machine.execBellowsMovi d im s
  | .insh d im => Sys2Proof.Machine.execInsh d im s
  | .beq a b im => Sys2Proof.Machine.execBeq a b im s
  | .bne a b im => Sys2Proof.Machine.execBne a b im s
  | .bltu a b im => Sys2Proof.Machine.execBltu a b im s
  | .bgeu a b im => Sys2Proof.Machine.execBgeu a b im s
  | .jmp im => Sys2Proof.Machine.execJmp im s
  | .jr a => Sys2Proof.Machine.execJr a s
  | .bellowsLd d a o => Sys2Proof.Machine.execBellowsLd d a o s
  | .bellowsLdG d a o => Sys2Proof.Machine.execBellowsLdG d a o s
  | .bellowsSt a b o => Sys2Proof.Machine.execBellowsSt a b o s
  | .bellowsStG a b o => Sys2Proof.Machine.execBellowsStG a b o s
  | .recv d a => Sys2Proof.Machine.execRecv d a s
  | .copy d a b len => Sys2Proof.Machine.execCopy d a b len s
  | .copyDesc d a b p => Sys2Proof.Machine.execCopyDesc d a b p s
  | .copyt d a b len => Sys2Proof.Machine.execCopyt d a b len s
  | .copytDesc d a b p => Sys2Proof.Machine.execCopytDesc d a b p s
  | .gath d a b p => Sys2Proof.Machine.execGath d a b p s
  | .scat d a b p => Sys2Proof.Machine.execScat d a b p s
  | .deco d a b p => Sys2Proof.Machine.execDeco d a b p s
  | .ldct d a => Sys2Proof.Machine.execLdct d a s
  | .tsetClose d a => Sys2Proof.Machine.execTsetClose d a s
  | .tsetTag d a => Sys2Proof.Machine.execTsetTag d a s
  | .fenceb => Sys2Proof.Machine.execFenceb s
  | .waitc d m => Sys2Proof.Machine.execWaitc d m s
  | .stat d im => Sys2Proof.Machine.execStat d im s
  | .resume d sl => Sys2Proof.Machine.execResume d sl s
  | .resumeDrop d sl => Sys2Proof.Machine.execResumeDrop d sl s
  | .halt => Sys2Proof.Machine.execHalt s
  | .bellowsIssueResume x => Sys2Proof.Machine.execBellowsIssueResume x s
  | .bellowsCopyComplete x sl => Sys2Proof.Machine.execBellowsCopyComplete x sl s
  | .copyFaultStop x sl => Sys2Proof.Machine.execCopyFaultStop x sl s
  | .matrixOpStart w op => Sys2Proof.Machine.execMatrixOpStart w op s
  | .matrixOpComplete w op => Sys2Proof.Machine.execMatrixOpComplete w op s
  | .matrixOpFault w op => Sys2Proof.Machine.execMatrixOpFault w op s
  | .transformStart c => Sys2Proof.Machine.execTransformStart c s
  | .transformComplete c => Sys2Proof.Machine.execTransformComplete c s
  | .transformFail c internal => Sys2Proof.Machine.execTransformFail c internal s
  | .netRequestRead ch => Sys2Proof.Machine.execNetRequestRead ch s
  | .netRequestStart ch pos => Sys2Proof.Machine.execNetRequestStart ch pos s
  | .netRequestComplete ch pos => Sys2Proof.Machine.execNetRequestComplete ch pos s
  | .netAckReceive ch pos off len st => Sys2Proof.Machine.execNetAckReceive ch pos off len st s
  | .uetPacketReceive m off => Sys2Proof.Machine.execUetPacketReceive m off s
  | .uetRetransmitTimeout ch pos off => Sys2Proof.Machine.execUetRetransmitTimeout ch pos off s
  | .sendRetry ch pos => Sys2Proof.Machine.execSendRetry ch pos s
  | .incomingPut m => Sys2Proof.Machine.execIncomingPut m s
  | .incomingPutadd m => Sys2Proof.Machine.execIncomingPutadd m s
  | .incomingGet m => Sys2Proof.Machine.execIncomingGet m s
  | .incomingSend m => Sys2Proof.Machine.execIncomingSend m s
  | .peerAccessRequest m kind => Sys2Proof.Machine.execPeerAccessRequest m kind s
  | .kazidPortLost port => Sys2Proof.Machine.execKazidPortLost port s
  | .lqappWrite ag q v => Sys2Proof.Machine.execLqappWrite ag q v s
  | .lqcfgWrite ag q v => Sys2Proof.Machine.execLqcfgWrite ag q v s
  | .lqendWrite ag q v => Sys2Proof.Machine.execLqendWrite ag q v s
  | .launchHeadCheck q => Sys2Proof.Machine.execLaunchHeadCheck q s
  | .launchAdmit q => Sys2Proof.Machine.execLaunchAdmit q s
  | .reelPlace pl q pos rl cores => Sys2Proof.Machine.execReelPlace pl q pos rl cores s
  | .placerBackoffExpiry pl => Sys2Proof.Machine.execPlacerBackoffExpiry pl s
  | .reelPreempt rk => Sys2Proof.Machine.execReelPreempt rk s
  | .reelRestore rk cores => Sys2Proof.Machine.execReelRestore rk cores s
  | .priorityAgeing rk => Sys2Proof.Machine.execPriorityAgeing rk s
  | .launchComplete q pos => Sys2Proof.Machine.execLaunchComplete q pos s
  | .frameReclaim ten asid => Sys2Proof.Machine.execFrameReclaim ten asid s
  | .stokerFaultResolve ten fi => Sys2Proof.Machine.execStokerFaultResolve ten fi s
  | .poolRefill ten => Sys2Proof.Machine.execPoolRefill ten s
  | .migrationStart ten gpa near => Sys2Proof.Machine.execMigrationStart ten gpa near s
  | .migrationSwitch ten gpa => Sys2Proof.Machine.execMigrationSwitch ten gpa s
  | .migrationAbort ten gpa => Sys2Proof.Machine.execMigrationAbort ten gpa s
  | .compressPage ten gpa => Sys2Proof.Machine.execCompressPage ten gpa s
  | .shootdownEcho ini sq rcv => Sys2Proof.Machine.execShootdownEcho ini sq rcv s
  | .hostRead ld dpa len us => Sys2Proof.Machine.execHostRead ld dpa len us s
  | .hostWrite ld dpa bytes us => Sys2Proof.Machine.execHostWrite ld dpa bytes us s
  | .ldBind ld => Sys2Proof.Machine.execLdBind ld s
  | .ldUnbind ld => Sys2Proof.Machine.execLdUnbind ld s
  | .hostReset ld => Sys2Proof.Machine.execHostReset ld s
  | .ldctlWrite ag ld v => Sys2Proof.Machine.execLdctlWrite ag ld v s
  | .evheadWrite ag ld v => Sys2Proof.Machine.execEvheadWrite ag ld v s
  | .sqheadWrite ag ld v => Sys2Proof.Machine.execSqheadWrite ag ld v s
  | .prreply ld v => Sys2Proof.Machine.execPrreply ld v s
  | .map ld blk => Sys2Proof.Machine.execMap ld blk s
  | .unmap ld blk => Sys2Proof.Machine.execUnmap ld blk s
  | .back ld blk => Sys2Proof.Machine.execBack ld blk s
  | .desc ld blk => Sys2Proof.Machine.execDesc ld blk s
  | .asid ld blk => Sys2Proof.Machine.execAsid ld blk s
  | .freeasid ld blk => Sys2Proof.Machine.execFreeasid ld blk s
  | .land ld blk => Sys2Proof.Machine.execLand ld blk s
  | .apert ld blk => Sys2Proof.Machine.execApert ld blk s
  | .apfree ld blk => Sys2Proof.Machine.execApfree ld blk s
  | .corereset ld blk => Sys2Proof.Machine.execCorereset ld blk s
  | .hearthreset ld blk cfg => Sys2Proof.Machine.execHearthreset ld blk cfg s
  | .clmask ld blk => Sys2Proof.Machine.execClmask ld blk s
  | .starthart ld blk => Sys2Proof.Machine.execStarthart ld blk s
  | .scrub ld blk => Sys2Proof.Machine.execScrub ld blk s
  | .obswrite ld blk => Sys2Proof.Machine.execObswrite ld blk s
  | .errread ld blk => Sys2Proof.Machine.execErrread ld blk s
  | .extend ld blk => Sys2Proof.Machine.execExtend ld blk s
  | .cfgwrite ld blk => Sys2Proof.Machine.execCfgwrite ld blk s
  | .getVersion ld ver => Sys2Proof.Machine.execGetVersion ld ver s
  | .getCapabilities ld ver => Sys2Proof.Machine.execGetCapabilities ld ver s
  | .negotiateAlgorithms ld ver => Sys2Proof.Machine.execNegotiateAlgorithms ld ver s
  | .getDigests ld ver => Sys2Proof.Machine.execGetDigests ld ver s
  | .getCertificate ld req => Sys2Proof.Machine.execGetCertificate ld req s
  | .challenge ld req => Sys2Proof.Machine.execChallenge ld req s
  | .getMeasurements ld ver ix => Sys2Proof.Machine.execGetMeasurements ld ver ix s
  | .keyExchange ld ver => Sys2Proof.Machine.execKeyExchange ld ver s
  | .finish ld ver sid => Sys2Proof.Machine.execFinish ld ver sid s
  | .endSession ld ver sid => Sys2Proof.Machine.execEndSession ld ver sid s
  | .keyUpdate ld ver sid => Sys2Proof.Machine.execKeyUpdate ld ver sid s
  | .heartbeat ld ver sid => Sys2Proof.Machine.execHeartbeat ld ver sid s
  | .keygen ld ver sid host => Sys2Proof.Machine.execKeygen ld ver sid host s
  | .keydel ld ver sid kt => Sys2Proof.Machine.execKeydel ld ver sid kt s
  | .spdmUnsupportedRequest ld ver => Sys2Proof.Machine.execSpdmUnsupportedRequest ld ver s
  | .identifyMemoryDevice ld => Sys2Proof.Machine.execIdentifyMemoryDevice ld s
  | .getHealthInfo ld => Sys2Proof.Machine.execGetHealthInfo ld s
  | .dbgStop pt => Sys2Proof.Machine.execDbgStop pt s
  | .dbgResume pt => Sys2Proof.Machine.execDbgResume pt s
  | .dbgStep pt slot => Sys2Proof.Machine.execDbgStep pt slot s
  | .partitionStopTakeEffect pt => Sys2Proof.Machine.execPartitionStopTakeEffect pt s
  | .stallSample pt => Sys2Proof.Machine.execStallSample pt s
  | .coreDump k => Sys2Proof.Machine.execCoreDump k s
  | .registerWrite ag off v => Sys2Proof.Machine.execRegisterWrite ag off v s
  | .meteringInterval c dyn idle eng => Sys2Proof.Machine.execMeteringInterval c dyn idle eng s
  | .peerStoreAcknowledge k => Sys2Proof.Machine.execPeerStoreAcknowledge k s
  | .backInvalidateResponse line dirty => Sys2Proof.Machine.execBackInvalidateResponse line dirty s
  | .firmwareUpdate cfg => Sys2Proof.Machine.execFirmwareUpdate cfg s

end Sys2Proof.Machine
end

