-- ==== Sys2Proof/Machine/Sched.lean ====
section
/-! DEFINITION. What the agent that moves next does: the event or instruction that a partition, a Bellows context, a matrix
sequencer, a transform unit, a store buffer or a migration comes to (R72, R88, R225, R239, R253, R276, R301, R403). -/

namespace Sys2Proof.Machine

/-! ### Partitions -/

/-- Whether the word in issue waits for a held effect of its own run: it reads or writes that effect's destination, or it is the held
instruction itself in a later attempt (R403). -/
def Team.stalled (t : Team) (r : Run) (w : Word) : Bool :=
  let i := infoOf w
  t.held.any fun h =>
    meets (i.rd ++ i.wr ++ i.own) ((List.range h.count).map (h.reg + ·)) || (!r.first && h.idx == r.idx && h.pc == r.pc)

/-- A cycle of its run in which the team in issue waits for a held effect, as wait kind 13. -/
def State.stallCycle (s : State) (k : Nat) (t : Team) : State :=
  let t := { t with status := .waiting 13 }
  (s.setTeam k t).runCycle k t

/-- The move of a team in issue: it fetches its run, issues the next word, or ends its attempt. -/
noncomputable def teamMove (s : State) (pt k : Nat) : State × Option Instr :=
  match s.teams.find? k with
  | none => (s, some (.partitionChoice pt))
  | some t =>
    match t.run with
    | none => (s, some (.runFetch k))
    | some r =>
      match r.words[r.idx]? with
      | none => (s, some (.runAttemptEnd k))
      | some w =>
        if t.stalled r w then (s.stallCycle k t, none)
        else
          let s := match t.status with
            | .waiting 13 => s.modTeam k fun t => { t with status := .ready, stv := 0 }
            | _ => s
          match decode w with
          | .ok i => ({ s with cur := k }, some i)
          | .error _ => (s, none)

/-- The next move of a partition. Holds and timers that have run out come first; then a requested stop at a choice point (R367),
the choice (R88), and the team in issue. -/
noncomputable def partitionMove (s : State) (pt : Nat) : State × Option Instr :=
  let ts : List (Nat × Team) := s.teamsOf pt
  if s.stopped pt then (s, none)
  else
    match ts.find? fun x => s.backoffOver x.1 x.2 with
    | some x => (s, some (.backoffExpiry x.1))
    | none =>
      match ts.find? fun x => (s.starved x.2).isSome with
      | some x => (s, some (.starvationExpiry x.1))
      | none =>
        match (s.part pt).issuing with
        | some k => teamMove s pt k
        | none => (s, some (if (s.part pt).stopReq.isEmpty then .partitionChoice pt else .partitionStopTakeEffect pt))

/-! ### The Bellows and the engines -/

/-- The next move of a Bellows context: nothing while halted, faulted or held at the Stoker; else the word at its program counter
(R225), of which TSET's operation stands in a register (R231). -/
noncomputable def ctxMove (s : State) (x : Nat) : State × Option Instr :=
  match s.ctxs.find? x with
  | none => (s, none)
  | some c =>
    if c.halted || c.fault != 0 || c.stoker == 1 then (s, none)
    else if 0x4000 ≤ c.pc.toNat then (s.ctxFault x c 7, none)
    else
      match decodeBellows c.word with
      | none => (s.ctxFault x c c.badWord, none)
      | some (.tsetClose d a) =>
        ({ s with curCtx := x }, some (if natBits (c.get a).toNat 8 2 = 1 then .tsetTag d a else .tsetClose d a))
      | some i => ({ s with curCtx := x }, some i)

/-- A copy performs its next unit, completes, or stops at a fault. -/
noncomputable def copyMove (s : State) (x sl : Nat) : State × Option Instr :=
  match s.runUnit x sl with
  | .ok t => (t, none)
  | .all => (s, some (.bellowsCopyComplete x sl))
  | .fault _ _ _ _ => (s, some (.copyFaultStop x sl))
  | .idle => (s, none)

/-- A matrix operation starts, performs its next step, completes, or meets a fault. -/
noncomputable def matrixMove (s : State) (w op : Nat) : State × Option Instr :=
  match s.opAt w op with
  | none => (s, none)
  | some m =>
    if m.st = 0 then (s, some (.matrixOpStart w op))
    else
      match s.runOp w op with
      | .ok t => (t, none)
      | .all => (s, some (.matrixOpComplete w op))
      | .fault _ _ _ => (s, some (.matrixOpFault w op))
      | .idle => (s, none)

/-- The transform at the head of a core's queue starts, performs its next vector, completes, or fails on poison. -/
noncomputable def transformMove (s : State) (c : Nat) : State × Option Instr :=
  match s.runXfm c with
  | .ok t => (t, none)
  | .all _ => (s, some (.transformComplete c))
  | .poison _ => (s, some (.transformFail c false))
  | .idle => (s, if (s.xq.getD c []).isEmpty then none else some (.transformStart c))

/-- A stored value leaves a team's buffer, behind the earlier ones to its location (R35). -/
def drainMove (s : State) (k n : Nat) : State :=
  match s.teams.find? k with
  | none => s
  | some t =>
    match t.sbuf[n]? with
    | none => s
    | some st => s.drain k (· == st)

/-- What an agent does: the state it acts in, and the instruction or event it comes to, if any. While the core domain is down its
agents do nothing (R387, R388). -/
noncomputable def actorMove (s : State) (a : Actor) : State × Option Instr :=
  match a with
  | .event e => (s, some e)
  | .partition pt => if s.coreDown then (s, none) else partitionMove s pt
  | .bellows x => if s.coreDown then (s, none) else ctxMove s x
  | .copyUnit x sl => if s.coreDown then (s, none) else copyMove s x sl
  | .matrixStep w op => if s.coreDown then (s, none) else matrixMove s w op
  | .transformWrite c => if s.coreDown then (s, none) else transformMove s c
  | .drain k n => (drainMove s k n, none)
  | .migrateBlock ten gpa => (s.migrateStep ten gpa, none)
  | .arrival (.packet m off) => (s, some (.uetPacketReceive m off))
  | .arrival (.get m) => (s, some (.incomingGet m))
  | .arrival (.peer m kind) => (s, some (.peerAccessRequest m kind))
  | .arrival (.ack ch pos off len st) => (s, some (.netAckReceive ch pos off len st))
  | .arrival (.stored k) => (s, some (.peerStoreAcknowledge k))
  | .readSection ld k => (s.readSection ld k, none)
  | .peerLeaf ten gpn peer land off => (s.peerLeaf ten gpn peer land off, none)
  | .chimneyError => (s.chimneyFails, none)
  | .unsupportedMailbox ld op => (s.cxlUnsupported ld op, none)

/-- What counts entries of rings rises over those whose frame has been freed since (R357, R362). -/
def State.settleRings (s : State) : State :=
  if s.ringsDue.isEmpty then s else s.ringsDue.foldl State.raiseRing { s with ringsDue := [] }
/-- What is settled before anyone moves: waits of frozen teams that have ended (R369), entries of freed frames, watched words written since
(R195), and what is noted of the queues' heads (R316, R317). -/
def State.settleAll (s : State) : State := s.settleFrozen.settleRings.settleWatch.noteHeads.noteDrew

/-! ### A word placed where it is executed next -/

/-- The record of the launch that a placed word runs in: one reel of one workgroup of one team of 8 lanes, with or without FAC. -/
def placedRecord (fac : Bool) : BitVec 2048 :=
  (8#2048 <<< 400) ||| (1#2048 <<< 392) ||| (1#2048 <<< 384) ||| (1#2048 <<< 320) ||| (1#2048 <<< 352) ||| (1#2048 <<< 416) |||
    (if fac then 1#2048 <<< 292 else 0)
/-- Its workgroup. -/
def placedWg (fac : Bool) : Wg := { Wg.empty with pos := 1, lr := placedRecord fac, teamsLeft := 1 }
/-- A team of 8 lanes of which lane 0 is active, at its first run, with 56 registers that all read zero. -/
def placedTeam : Team :=
  { w := 0, nlanes := 8, wgteam := 0, pc := 0, active := 1, v := [], p := [], q := 0, mstack := [], rstack := [], frm := 0, fsat := 0,
    qctl := 0xFF03, srseed := 0, flags := 0, ashen := 0, boff := 0, alloc := 56, pend := [], kmask := 0, yielded := false,
    marked := false, stv := 0, readyAt := 0, hold := 0, status := .ready, run := none, held := [], handler := none, sbuf := [],
    peerOut := [], invs := [] }
/-- The same with a run of one word, whose literal is 0; a supervisor instruction stands in the handler. -/
def placedRun (w : Word) : Team :=
  let i := infoOf w
  let t := placedTeam.startRun [w] 0xFFFFE000 (if i.lit.isSome then [(0, 0)] else [])
  if i.supv then
    { t with handler := some { v48 := [], p := [], q := 0, flags := 0, depth := 0, faulted := 1, run := placedTeam.newRun [] 0xFFFFE000 [],
                                temps := [], pre := [] } }
  else t
/-- A Bellows context at program counter 0, with one word in its private memory. -/
def placedCtx (w : Word) : Ctx :=
  { reel := 0, ten := 0, asid := 0, pc := 0, g := [], mem := Memory.writeN [] 0 (natLE 4 w.toNat), posts := [], cur := none,
    arming := none, slots := [], table := none, halted := false, fault := 0, stoker := 0 }
/-- A word in issue on partition 0 of core 0. -/
def State.placeDelmer (s : State) (w : Word) : State :=
  let s := { s with teams := SMap.insert (s.teams.filter fun (x : Nat × Team) => x.1 / 16 != 0) 0 (placedRun w)
                    wgs := s.wgs.insert 0 (placedWg ((infoOf w).fac == some true))
                    resetting := false
                    agenda := [.partition 0] }
  ((s.setPart 0 { s.part 0 with issuing := some 0 }).setReg (oDbgstat 0) 0).setReg oChstat 0
/-- A word at the program counter of context 0 of core 0. -/
def State.placeBellows (s : State) (w : Word) : State :=
  { s with ctxs := s.ctxs.insert 0 (placedCtx w), resetting := false, agenda := [.bellows 0] }.setReg oChstat 0

end Sys2Proof.Machine
end

