-- ==== Sys2Proof/Machine/Step.lean ====
section
/-! DEFINITION. One step of the machine: the agent that the agenda names, or a free choice, moves (log entry 1). -/

namespace Sys2Proof.Machine

/-- Who moves next. -/
def nextActor (s : State) : Actor :=
  match s.agenda with
  | a :: _ => a
  | [] => Config.schedule s.tick

/-- The state in which the chosen agent moves: its place on the agenda is used up, and what has ended by itself is settled. -/
def State.begin (s : State) : State := { s with agenda := s.agenda.drop 1, tick := s.tick + 1 }.settleAll

/-- One step. -/
noncomputable def step (s : State) : Host.Outcome State Fault Refusal :=
  match actorMove s.begin (nextActor s) with
  | (s, some i) => exec i s
  | (s, none) => .next s

/-- `s` with a word where the next step executes it: in issue on a partition, or at a Bellows context's program counter if it is no
Delmer instruction. It stands for the launch that brings a program to run (log entry 21). -/
noncomputable def State.withFetchWord (s : State) (_nbits w : Nat) : State :=
  match decode (BitVec.ofNat 32 w) with
  | .ok _ => s.placeDelmer (BitVec.ofNat 32 w)
  | .error _ =>
    match decodeBellows (BitVec.ofNat 32 w) with
    | some _ => s.placeBellows (BitVec.ofNat 32 w)
    | none => s.placeDelmer (BitVec.ofNat 32 w)

end Sys2Proof.Machine
end

