-- ==== Sys2Proof/Safety.lean ====
section
/-! DEFINITION. What a statement about the machine says of a step: who acts, that an instruction completes, what it writes, and what it
leaves alone. -/

namespace Sys2Proof.Machine

/-! ### Who acts -/

/-- Team `k`, with run `r` in issue, is the one that acts. -/
def State.HasRun (s : State) (k : Nat) (t : Team) (r : Run) : Prop := s.cur = k ∧ s.teams.find? k = some t ∧ t.run = some r
/-- Bellows context `x` is the one that acts. -/
def State.HasCtx (s : State) (x : Nat) (c : Ctx) : Prop := s.curCtx = x ∧ s.ctxs.find? x = some c
/-- No sample falls due on the core of partition `pt`: sampling is off there (R376). -/
def State.Unsampled (s : State) (pt : Nat) : Prop := natBit (s.reg (oSmpctl (pt / 8))) 0 = false

/-- Whether an instruction is one of the Bellows (Table 12.2). -/
def ofBellows : Instr → Bool
  | .bellowsAdd _ _ _ => true
  | .bellowsSub _ _ _ => true
  | .bellowsAnd _ _ _ => true
  | .bellowsOr _ _ _ => true
  | .bellowsXor _ _ _ => true
  | .bellowsShl _ _ _ => true
  | .bellowsShr _ _ _ => true
  | .bellowsMul _ _ _ => true
  | .bellowsAddi _ _ _ => true
  | .bellowsMovi _ _ => true
  | .insh _ _ => true
  | .beq _ _ _ => true
  | .bne _ _ _ => true
  | .bltu _ _ _ => true
  | .bgeu _ _ _ => true
  | .jmp _ => true
  | .jr _ => true
  | .bellowsLdG _ _ _ => true
  | .bellowsLd _ _ _ => true
  | .bellowsStG _ _ _ => true
  | .bellowsSt _ _ _ => true
  | .recv _ _ => true
  | .copyDesc _ _ _ _ => true
  | .copy _ _ _ _ => true
  | .copytDesc _ _ _ _ => true
  | .copyt _ _ _ _ => true
  | .gath _ _ _ _ => true
  | .scat _ _ _ _ => true
  | .deco _ _ _ _ => true
  | .ldct _ _ => true
  | .tsetClose _ _ => true
  | .fenceb => true
  | .waitc _ _ => true
  | .stat _ _ => true
  | .resumeDrop _ _ => true
  | .resume _ _ => true
  | .halt => true
  | .tsetTag _ _ => true
  | _ => false

/-! ### Completion -/

/-- The instruction answers a next state that satisfies `p`. -/
def Completes (i : Instr) (s : State) (p : State → Prop) : Prop := ∃ s', exec i s = .next s' ∧ p s'
/-- Team `k` stands in the state as `t`. -/
def State.TeamIs (s : State) (k : Nat) (t : Team) : Prop := s.teams.find? k = some t
/-- Context `x` stands in the state as `c`. -/
def State.CtxIs (s : State) (x : Nat) (c : Ctx) : Prop := s.ctxs.find? x = some c

/-! ### What an instruction leaves alone -/

/-- Registers that an instruction's issue may count in: the slot counters and the lane-cycle record of partition `pt` (R321, R374). -/
def counterReg (pt off : Nat) : Prop :=
  (∃ c < 8, ∃ j < 4, off = oSlotCnt pt c j) ∨ (∃ r < 16, ∃ j < 4, off = oLcrcnt pt r j) ∨ (∃ j < 4, off = oLcroth pt j) ∨
    off = oLcridle pt
/-- What the issue of an instruction on the partition of team `k` may touch: that partition's cycle count, the waits and timers of its
other teams, its counters and the metered passes. All memory, every register but the counters, and everything else stays. -/
def IssueFrame (s s' : State) (k : Nat) : Prop :=
  s' = { s with teams := s'.teams, parts := s'.parts, mgmt := s'.mgmt, meter := s'.meter } ∧
  (∀ j, j ≠ k → ∀ t', s'.teams.find? j = some t' →
    ∃ t, s.teams.find? j = some t ∧ t' = { t with status := t'.status, stv := t'.stv, readyAt := t'.readyAt }) ∧
  (∀ off, ¬ counterReg (partOfTeam k) off → s'.reg off = s.reg off)

/-! ### What a lane-set or uniform-set instruction writes -/

/-- Nothing but `d` is written, with `f l` in lane `l`. -/
def toReg (d : Nat) (f : Nat → Word) (n l : Nat) : Option Word := if n = d then some (f l) else none
/-- Nothing but the pair `d`, `d+1` is written. -/
def toPair (d : Nat) (f : Nat → DWord) (n l : Nat) : Option Word :=
  if n = d + 1 then some ((f l).extractLsb' 32 32) else if n = d then some ((f l).extractLsb' 0 32) else none
/-- No flag is raised. -/
def noFlag (_ : Nat) : Word := 0

/-- The lane-set instruction `i` completes for the team in issue. In each lane that acts, register `n` takes what `w n l` names and the
flags `fl l` are raised; every other lane and register, and everything else of the team and of its run, stays, but that the run
goes on to its next word; beyond the team nothing changes but what the issue touches. -/
def LaneWrites (i : Instr) (s : State) (k : Nat) (t : Team) (r : Run) (g : Guard) (w : Nat → Nat → Option Word) (fl : Nat → Word) : Prop :=
  Completes i s fun s' => (∃ t' r', s'.TeamIs k t' ∧
    t' = { t with v := t'.v, run := some r', stv := 0 } ∧ r' = { r with idx := r.idx + 1, laneFlags := r'.laneFlags } ∧
    ∀ l < t.nlanes,
      (∀ n, t'.get n l = if t.acts r g l then (w n l).getD (t.get n l) else t.get n l) ∧
      r'.laneFlags.getD l 0 = r.laneFlags.getD l 0 ||| (if t.acts r g l then fl l else 0)) ∧
    (s.Unsampled (partOfTeam k) → IssueFrame s s' k)

/-- The lane-set instruction `i` completes and writes lane predicate `p` alone: in each lane that acts it takes `f l`, combined under
`m` with its old value (R96). A team has at most 1024 lanes (R70). -/
def LanePredWrites (i : Instr) (s : State) (k : Nat) (t : Team) (r : Run) (g : Guard) (m p : BitVec 3) (f : Nat → Bool)
    (fl : Nat → Word) : Prop :=
  Completes i s fun s' => (∃ t' r', s'.TeamIs k t' ∧
    t' = { t with p := t'.p, run := some r', stv := 0 } ∧ r' = { r with idx := r.idx + 1, laneFlags := r'.laneFlags } ∧
    ∀ l < t.nlanes, l < 1024 →
      (∀ n, t'.pred n l = if t.acts r g l && n == p.toNat then combine m (t.pred n l) (f l) else t.pred n l) ∧
      r'.laneFlags.getD l 0 = r.laneFlags.getD l 0 ||| (if t.acts r g l then fl l else 0)) ∧
    (s.Unsampled (partOfTeam k) → IssueFrame s s' k)

/-- The uniform-set instruction `i` completes. Where its guard holds, register `n` takes what `w n` names, in every lane, in a later
attempt in the lanes that restart (R80, R99); everything else of the team stays, and the run goes on to its next word. -/
def UniWrites (i : Instr) (s : State) (k : Nat) (t : Team) (r : Run) (g : Guard) (w : Nat → Option Word) : Prop :=
  Completes i s fun s' => (∃ t', s'.TeamIs k t' ∧
    t' = { t with v := t'.v, run := some { r with idx := r.idx + 1 }, stv := 0 } ∧
    ∀ l < t.nlanes, ∀ n, t'.get n l = if t.guardQ g && (r.first || r.todo.getLsbD l) then (w n).getD (t.get n l) else t.get n l) ∧
    (s.Unsampled (partOfTeam k) → IssueFrame s s' k)
/-- Nothing but `d` is written. -/
def toUReg (d : Nat) (v : Word) (n : Nat) : Option Word := if n = d then some v else none
/-- Nothing but the pair is written. -/
def toUPair (d : Nat) (v : DWord) (n : Nat) : Option Word :=
  if n = d + 1 then some (v.extractLsb' 32 32) else if n = d then some (v.extractLsb' 0 32) else none

/-! ### Memory instructions, for a lane alone -/

/-- Of the team's lanes, `l` alone acts. -/
def OnlyLane (t : Team) (r : Run) (g : Guard) (l : Nat) : Prop := l < t.nlanes ∧ ∀ j < t.nlanes, t.acts r g j = decide (j = l)
/-- What bytes loaded to `d` leave in register `q`: a value narrower than a register is extended, a wider one fills the registers behind. -/
def loadedReg (d : Nat) (sx : Bool) (bs : List Byte) (q : Nat) : Option Word :=
  if bs.length < 4 then
    if q = d then
      some (if sx then (BitVec.ofNat (8 * bs.length) (leNat bs)).signExtend 32 else (BitVec.ofNat (8 * bs.length) (leNat bs)).setWidth 32)
    else none
  else if d ≤ q ∧ q < d + bs.length / 4 then some (wordOf (leNat ((bs.drop (4 * (q - d))).take 4))) else none
/-- A run at the end of a first attempt that stores nothing, leaves nothing pending and raised no flag, its terminal still to act. -/
def Run.Plain (r : Run) : Prop :=
  r.bodyDone = false ∧ r.termLeft = none ∧ r.aborted = 0 ∧ r.stores = [] ∧ r.sdb = [] ∧ r.late = 0 ∧ r.done = [] ∧ r.uwrs = [] ∧ r.flags = 0 ∧ r.laneFlags = [] ∧
    bits r.trailer 19 6 = 63 ∧ bits r.trailer 13 6 = 63
/-- Lane `l` aborts at the instruction in issue, with a cause of Table 9.1 for address `ea` (R80, Table 9.17). -/
def Aborts (i : Instr) (s : State) (k : Nat) (r : Run) (l cause ea kind : Nat) : Prop :=
  Completes i s fun s' => ∃ t' r', s'.TeamIs k t' ∧ t'.run = some r' ∧ r'.aborted = r.aborted ||| laneMask l ∧ r'.idx = r.idx + 1 ∧
    r'.faults.find? l = some { cause := cause, ea := dwordOf ea, kind := kind, ia := dwordOf r.here }
/-- Every byte of memory, of the scratchpads and of the accumulators reads as before. -/
def MemoryKept (s s' : State) : Prop :=
  (∀ a, s'.sysByte a = s.sysByte a) ∧
  (∀ w o, (s'.wgOf w).scr.read o = (s.wgOf w).scr.read o ∧ (s'.wgOf w).acc.read o = (s.wgOf w).acc.read o)

/-! ### Terminals -/

/-- The run's body and its effects are done: `s1` is the state in which the terminal takes effect, with the team as `t1` and its run
as `r1` (R79). `defer` tells whether the flags wait for the terminal's own (R261). -/
def State.BodyDone (s : State) (k : Nat) (t : Team) (r : Run) (defer : Bool) (s1 : State) (t1 : Team) (r1 : Run) : Prop :=
  (if r.bodyDone then s else s.uniIssue k t).bodyEnd k t r defer noTerm noAtt = (s1, true) ∧ s1.TeamIs k t1 ∧ t1.run = some r1
/-- The team as its run ends, at `pc`: the registers that the trailer names left pending, the temporaries empty (R78, R79, R81). -/
def Team.ended (t : Team) (pc : DWord) (now : Nat) : Team :=
  { t.leaveRun with pc := pc, run := none, status := .ready, readyAt := now, stv := 0 }
/-- The terminal `i` ends the run and leaves the team as `t'`. -/
def EndsAs (i : Instr) (s : State) (k : Nat) (t' : Team) : Prop := Completes i s fun s' => s'.TeamIs k t'
/-- The terminal `i` leaves the team waiting in its run, with a wait kind of Table 11.4. -/
def WaitsAs (i : Instr) (s : State) (k : Nat) (t : Team) (kind : Nat) : Prop :=
  Completes i s fun s' => s'.TeamIs k { t with status := .waiting kind }
/-- What a terminal that only moves its team leaves alone: everything but that team and what its partition issues. -/
def TerminalFrame (s1 s' : State) (k : Nat) : Prop :=
  s' = { s1 with teams := s'.teams, parts := s'.parts } ∧ (∀ j, j ≠ k → s'.teams.find? j = s1.teams.find? j) ∧
    (∀ pt, pt ≠ partOfTeam k → s'.part pt = s1.part pt)
/-- The terminal `i`, whose effect takes place in `s1`, ends the run, leaves the team as `t'`, and changes nothing else. -/
def EndsFrom (i : Instr) (s s1 : State) (k : Nat) (t' : Team) : Prop :=
  Completes i s fun s' => s'.TeamIs k t' ∧ TerminalFrame s1 s' k
/-- The terminal `i`, whose effect takes place in `s1`, leaves the team waiting in its run, and changes nothing else. -/
def WaitsFrom (i : Instr) (s s1 : State) (k : Nat) (t : Team) (kind : Nat) : Prop :=
  Completes i s fun s' => s'.TeamIs k { t with status := .waiting kind } ∧ TerminalFrame s1 s' k
/-- The instruction `i` stops the team at itself; the run in which it stands is kept beside it (R29, Table 22.5). -/
def StopsAs (i : Instr) (s : State) (k : Nat) (t : Team) (r : Run) : Prop :=
  Completes i s fun s' => s'.TeamIs k { t with pc := dwordOf r.here, status := .stopped, run := none, base := some r.pc }

/-! ### Error records -/

/-- No logical device has an event ring: a record goes to the collector alone. -/
def State.Quiet (s : State) : Prop := ∀ ld < 16, ringBase (s.reg (oEvbase ld)) = 0
/-- Exactly one record has been collected, from `src`, with its next number; of 4,096 the oldest makes room (R390). -/
def Reports (s s' : State) (src : Nat) (e : Err) : Prop :=
  s'.records = (if 4096 ≤ s.records.length then s.records.drop 1 else s.records) ++ [recordOf src (s.seq.getD src 1) e]

end Sys2Proof.Machine
end

