-- ==== Sys2Proof/Certificates/Slice0/Obligations.lean ====
section
/-! DEFINITION. The obligations: what the numbered rules of spec/ say that instructions, events and the machine do. -/

open Sys2Proof Sys2Proof.Machine

/-! ### The lane set: integers (R108..R120) -/

/-- R110, Table 7.2: the IADD variants; SA is raised where the exact result lay outside the range and was clamped. -/
def Obligations.IaddResults : Prop :=
  ∀ (s : State) (k : Nat) (t : Team) (r : Run), s.HasRun k t r → ∀ (d a b : BitVec 6) (g : Guard),
    let x : Nat → Word := fun l => t.get a.toNat l
    let y : Nat → Word := fun l => t.get b.toNat l
    let clamp := fun (lo hi v : Int) => max lo (min hi v)
    let sa := fun (lo hi v : Int) => if v < lo ∨ hi < v then flSA else (0 : Word)
    let lo : Int := -2147483648
    let hi : Int := 2147483647
    let top : Int := 4294967295
    LaneWrites (.add d a b g) s k t r g (toReg d.toNat fun l => x l + y l) noFlag ∧
    LaneWrites (.sub d a b g) s k t r g (toReg d.toNat fun l => x l - y l) noFlag ∧
    LaneWrites (.addsatI32 d a b g) s k t r g (toReg d.toNat fun l => BitVec.ofInt 32 (clamp lo hi ((x l).toInt + (y l).toInt)))
      (fun l => sa lo hi ((x l).toInt + (y l).toInt)) ∧
    LaneWrites (.addsatN32 d a b g) s k t r g (toReg d.toNat fun l => BitVec.ofInt 32 (clamp 0 top ((x l).toNat + (y l).toNat)))
      (fun l => sa 0 top ((x l).toNat + (y l).toNat)) ∧
    LaneWrites (.subsatI32 d a b g) s k t r g (toReg d.toNat fun l => BitVec.ofInt 32 (clamp lo hi ((x l).toInt - (y l).toInt)))
      (fun l => sa lo hi ((x l).toInt - (y l).toInt)) ∧
    LaneWrites (.subsatN32 d a b g) s k t r g (toReg d.toNat fun l => BitVec.ofInt 32 (clamp 0 top ((x l).toNat - (y l).toNat)))
      (fun l => sa 0 top ((x l).toNat - (y l).toNat)) ∧
    LaneWrites (.absdiffI32 d a b g) s k t r g (toReg d.toNat fun l => BitVec.ofNat 32 ((x l).toInt - (y l).toInt).natAbs) noFlag ∧
    LaneWrites (.absdiffN32 d a b g) s k t r g
      (toReg d.toNat fun l => BitVec.ofNat 32 (((x l).toNat : Int) - (y l).toNat).natAbs) noFlag

/-- R112, Table 7.3: the IMUL variants; products and sums are exact and no flag is raised. -/
def Obligations.ImulResults : Prop :=
  ∀ (s : State) (k : Nat) (t : Team) (r : Run), s.HasRun k t r → ∀ (d a b : BitVec 6) (g : Guard),
    let x : Nat → Word := fun l => t.get a.toNat l
    let y : Nat → Word := fun l => t.get b.toNat l
    let byte := fun (w : Word) k => w.extractLsb' (8 * k) 8
    let nib := fun (w : Word) k => w.extractLsb' (4 * k) 4
    LaneWrites (.mul d a b g) s k t r g (toReg d.toNat fun l => BitVec.ofInt 32 ((x l).toInt * (y l).toInt)) noFlag ∧
    LaneWrites (.mulhiI32 d a b g) s k t r g
      (toReg d.toNat fun l => (BitVec.ofInt 64 ((x l).toInt * (y l).toInt)).extractLsb' 32 32) noFlag ∧
    LaneWrites (.mulhiN32 d a b g) s k t r g (toReg d.toNat fun l => BitVec.ofNat 32 ((x l).toNat * (y l).toNat / 2 ^ 32)) noFlag ∧
    LaneWrites (.mad d a b g) s k t r g (toReg d.toNat fun l => x l * y l + t.get (b.toNat + 1) l) noFlag ∧
    LaneWrites (.dot4I8 d a b g) s k t r g (toReg d.toNat fun l =>
      BitVec.ofInt 32 ((List.range 4).map fun k => (byte (x l) k).toInt * (byte (y l) k).toInt).sum) noFlag ∧
    LaneWrites (.dot4N8 d a b g) s k t r g (toReg d.toNat fun l =>
      BitVec.ofNat 32 ((List.range 4).map fun k => (byte (x l) k).toNat * (byte (y l) k).toNat).sum) noFlag ∧
    LaneWrites (.dot8I4 d a b g) s k t r g (toReg d.toNat fun l =>
      BitVec.ofInt 32 ((List.range 8).map fun k => (nib (x l) k).toInt * (nib (y l) k).toInt).sum) noFlag ∧
    LaneWrites (.sad4N8 d a b g) s k t r g (toReg d.toNat fun l =>
      BitVec.ofNat 32 ((List.range 4).map fun k => (((byte (x l) k).toNat : Int) - (byte (y l) k).toNat).natAbs).sum) noFlag

/-- R113, R114, Tables 7.4 and 7.5: minima and maxima, ABS and NEG, and division; a zero divisor gives all ones or the dividend, and
DZ. -/
def Obligations.MinMaxAndDivision : Prop :=
  ∀ (s : State) (k : Nat) (t : Team) (r : Run), s.HasRun k t r → ∀ (d a b : BitVec 6) (la : BitVec 4) (g : Guard),
    let x : Nat → Word := fun l => t.get a.toNat l
    let y : Nat → Word := fun l => t.get b.toNat l
    let dz := fun l => if y l = 0 then flDZ else (0 : Word)
    LaneWrites (.minI32 d a b g) s k t r g (toReg d.toNat fun l => if (x l).toInt ≤ (y l).toInt then x l else y l) noFlag ∧
    LaneWrites (.maxI32 d a b g) s k t r g (toReg d.toNat fun l => if (x l).toInt ≤ (y l).toInt then y l else x l) noFlag ∧
    LaneWrites (.minN32 d a b g) s k t r g (toReg d.toNat fun l => if (x l).toNat ≤ (y l).toNat then x l else y l) noFlag ∧
    LaneWrites (.maxN32 d a b g) s k t r g (toReg d.toNat fun l => if (x l).toNat ≤ (y l).toNat then y l else x l) noFlag ∧
    LaneWrites (.absI32 d a g) s k t r g (toReg d.toNat fun l => if 0 ≤ (x l).toInt then x l else 0 - x l) noFlag ∧
    LaneWrites (.negI32 d a g) s k t r g (toReg d.toNat fun l => 0 - x l) noFlag ∧
    LaneWrites (.divI32 d a b la) s k t r Guard.always
      (toReg d.toNat fun l => if y l = 0 then 0xFFFFFFFF else BitVec.ofInt 32 ((x l).toInt.tdiv (y l).toInt)) dz ∧
    LaneWrites (.divN32 d a b la) s k t r Guard.always
      (toReg d.toNat fun l => if y l = 0 then 0xFFFFFFFF else BitVec.ofNat 32 ((x l).toNat / (y l).toNat)) dz ∧
    LaneWrites (.remI32 d a b la) s k t r Guard.always
      (toReg d.toNat fun l => if y l = 0 then x l else BitVec.ofInt 32 ((x l).toInt.tmod (y l).toInt)) dz ∧
    LaneWrites (.remN32 d a b la) s k t r Guard.always
      (toReg d.toNat fun l => if y l = 0 then x l else BitVec.ofNat 32 ((x l).toNat % (y l).toNat)) dz

/-- R111, R115, Table 7.6: logic, moves and the immediate forms; an immediate is sign-extended, and no flag is raised. -/
def Obligations.LogicAndImmediates : Prop :=
  ∀ (s : State) (k : Nat) (t : Team) (r : Run), s.HasRun k t r → ∀ (d a b : BitVec 6) (im : BitVec 9) (g : Guard),
    let x : Nat → Word := fun l => t.get a.toNat l
    let y : Nat → Word := fun l => t.get b.toNat l
    let n := BitVec.ofInt 32 im.toInt
    LaneWrites (.addi d a im g) s k t r g (toReg d.toNat fun l => x l + n) noFlag ∧
    LaneWrites (.and d a b g) s k t r g (toReg d.toNat fun l => x l &&& y l) noFlag ∧
    LaneWrites (.or d a b g) s k t r g (toReg d.toNat fun l => x l ||| y l) noFlag ∧
    LaneWrites (.xor d a b g) s k t r g (toReg d.toNat fun l => x l ^^^ y l) noFlag ∧
    LaneWrites (.andn d a b g) s k t r g (toReg d.toNat fun l => x l &&& ~~~(y l)) noFlag ∧
    LaneWrites (.orn d a b g) s k t r g (toReg d.toNat fun l => x l ||| ~~~(y l)) noFlag ∧
    LaneWrites (.xnor d a b g) s k t r g (toReg d.toNat fun l => ~~~(x l ^^^ y l)) noFlag ∧
    LaneWrites (.not d a g) s k t r g (toReg d.toNat fun l => ~~~(x l)) noFlag ∧
    LaneWrites (.mov d a g) s k t r g (toReg d.toNat x) noFlag ∧
    LaneWrites (.andi d a im g) s k t r g (toReg d.toNat fun l => x l &&& n) noFlag ∧
    LaneWrites (.ori d a im g) s k t r g (toReg d.toNat fun l => x l ||| n) noFlag ∧
    LaneWrites (.xori d a im g) s k t r g (toReg d.toNat fun l => x l ^^^ n) noFlag ∧
    LaneWrites (.movi d im g) s k t r g (toReg d.toNat fun _ => n) noFlag

/-- R116, Table 7.7: shifts by a register count, by an immediate, and of a pair. -/
def Obligations.ShiftResults : Prop :=
  ∀ (s : State) (k : Nat) (t : Team) (r : Run), s.HasRun k t r → ∀ (d a b : BitVec 6) (c : BitVec 5) (g : Guard),
    let x : Nat → Word := fun l => t.get a.toNat l
    let xx : Nat → DWord := fun l => t.get64 a.toNat l
    let n := fun l => (t.get b.toNat l).toNat
    LaneWrites (.shl d a b g) s k t r g (toReg d.toNat fun l => x l <<< n l) noFlag ∧
    LaneWrites (.shr d a b g) s k t r g (toReg d.toNat fun l => x l >>> n l) noFlag ∧
    LaneWrites (.sra d a b g) s k t r g (toReg d.toNat fun l => (x l).sshiftRight (min (n l) 31)) noFlag ∧
    LaneWrites (.rol d a b g) s k t r g (toReg d.toNat fun l => (x l).rotateLeft (n l)) noFlag ∧
    LaneWrites (.ror d a b g) s k t r g (toReg d.toNat fun l => (x l).rotateRight (n l)) noFlag ∧
    LaneWrites (.shlf d a b g) s k t r g (toReg d.toNat fun l => (xx l <<< (n l % 64)).extractLsb' 32 32) noFlag ∧
    LaneWrites (.shrf d a b g) s k t r g (toReg d.toNat fun l => (xx l >>> (n l % 64)).extractLsb' 0 32) noFlag ∧
    LaneWrites (.shli d a c g) s k t r g (toReg d.toNat fun l => x l <<< c.toNat) noFlag ∧
    LaneWrites (.shri d a c g) s k t r g (toReg d.toNat fun l => x l >>> c.toNat) noFlag ∧
    LaneWrites (.srai d a c g) s k t r g (toReg d.toNat fun l => (x l).sshiftRight c.toNat) noFlag ∧
    LaneWrites (.roli d a c g) s k t r g (toReg d.toNat fun l => (x l).rotateLeft c.toNat) noFlag ∧
    LaneWrites (.rori d a c g) s k t r g (toReg d.toNat fun l => (x l).rotateRight c.toNat) noFlag

/-- R117, Table 7.8: counts of bits, bit reversal, fields and byte selection. A field starts at bits 7:0 of its control word and has the
width of bits 15:8, cut at bit 32; BSEL takes a byte, reversed or not, its sign, zeros or ones for each selector byte. -/
def Obligations.BitResults : Prop :=
  ∀ (s : State) (k : Nat) (t : Team) (r : Run), s.HasRun k t r → ∀ (d a b : BitVec 6) (g : Guard),
    let x : Nat → Word := fun l => t.get a.toNat l
    let y : Nat → Word := fun l => t.get b.toNat l
    let z : Nat → Word := fun l => t.get (b.toNat + 1) l
    let pos := fun (c : Word) => c.toNat % 256
    let len := fun (c : Word) => min (c.toNat / 256 % 256) (32 - pos c)
    let field := fun l => (x l).toNat / 2 ^ pos (y l) % 2 ^ len (y l)
    let sel := fun (v : DWord) (c : Nat) =>
      let b := v.toNat / 2 ^ (8 * (c % 8)) % 256
      match c / 8 % 4 with
      | 0 => if c / 32 % 2 = 1 then ((List.range 8).map fun i => if b.testBit (7 - i) then 2 ^ i else 0).sum else b
      | 1 => if 128 ≤ b then 255 else 0
      | 2 => 0
      | _ => 255
    LaneWrites (.popc d a g) s k t r g
      (toReg d.toNat fun l => BitVec.ofNat 32 ((List.range 32).countP fun i => (x l).getLsbD i)) noFlag ∧
    LaneWrites (.clz d a g) s k t r g
      (toReg d.toNat fun l => BitVec.ofNat 32 ((List.range 32).takeWhile fun i => !(x l).getLsbD (31 - i)).length) noFlag ∧
    LaneWrites (.ctz d a g) s k t r g
      (toReg d.toNat fun l => BitVec.ofNat 32 ((List.range 32).takeWhile fun i => !(x l).getLsbD i).length) noFlag ∧
    LaneWrites (.brev d a g) s k t r g (toReg d.toNat fun l => (x l).reverse) noFlag ∧
    LaneWrites (.bxtN32 d a b g) s k t r g (toReg d.toNat fun l => BitVec.ofNat 32 (field l)) noFlag ∧
    LaneWrites (.bxtI32 d a b g) s k t r g (toReg d.toNat fun l =>
      if len (y l) = 0 then 0
      else BitVec.ofInt 32 (if 2 ^ (len (y l) - 1) ≤ field l then (field l : Int) - 2 ^ len (y l) else field l)) noFlag ∧
    LaneWrites (.bins d a b g) s k t r g (toReg d.toNat fun l => BitVec.ofNat 32 ((List.range 32).map fun i =>
      if (if pos (z l) ≤ i ∧ i < pos (z l) + len (z l) then (y l).getLsbD (i - pos (z l)) else (x l).getLsbD i) then 2 ^ i else 0).sum) noFlag ∧
    LaneWrites (.bsel d a b g) s k t r g (toReg d.toNat fun l =>
      BitVec.ofNat 32 ((List.range 4).map fun j => sel (t.get64 a.toNat l) ((y l).toNat / 2 ^ (8 * j) % 256) * 2 ^ (8 * j)).sum) noFlag

/-- R118, R119, R96, Tables 7.9 and 7.10: compares and predicate logic write one predicate, combined under the mode. -/
def Obligations.PredicateResults : Prop :=
  ∀ (s : State) (k : Nat) (t : Team) (r : Run), s.HasRun k t r → ∀ (m p q1 q2 : BitVec 3) (a b : BitVec 6) (g : Guard),
    let x : Nat → Word := fun l => t.get a.toNat l
    let y : Nat → Word := fun l => t.get b.toNat l
    let P := fun (i : Instr) (f : Nat → Bool) => LanePredWrites i s k t r g m p f noFlag
    P (.eq m p a b g) (fun (l : Nat) => decide (x l = y l)) ∧ P (.ne m p a b g) (fun (l : Nat) => !decide (x l = y l)) ∧
    P (.ltI32 m p a b g) (fun (l : Nat) => decide ((x l).toInt < (y l).toInt)) ∧
    P (.leI32 m p a b g) (fun (l : Nat) => decide ((x l).toInt ≤ (y l).toInt)) ∧
    P (.gtI32 m p a b g) (fun (l : Nat) => decide ((x l).toInt > (y l).toInt)) ∧
    P (.geI32 m p a b g) (fun (l : Nat) => decide ((x l).toInt ≥ (y l).toInt)) ∧
    P (.ltN32 m p a b g) (fun (l : Nat) => decide ((x l).toNat < (y l).toNat)) ∧
    P (.geN32 m p a b g) (fun (l : Nat) => decide ((x l).toNat ≥ (y l).toNat)) ∧
    P (.v2p m p a g) (fun (l : Nat) => !decide (x l = 0)) ∧
    P (.pand m p q1 q2 g) (fun l => t.pred q1.toNat l && t.pred q2.toNat l) ∧
    P (.por m p q1 q2 g) (fun l => t.pred q1.toNat l || t.pred q2.toNat l) ∧
    P (.pxor m p q1 q2 g) (fun l => xor (t.pred q1.toNat l) (t.pred q2.toNat l)) ∧
    P (.pnot m p q1 g) (fun (l : Nat) => !t.pred q1.toNat l)

/-- R119, R120, Tables 7.10 and 7.11: SEL takes a where its selector holds, P2V gives 1 or 0, and pairs are added and multiplied
modulo 2^64. -/
def Obligations.SelectAndPairs : Prop :=
  ∀ (s : State) (k : Nat) (t : Team) (r : Run), s.HasRun k t r → ∀ (d a b : BitVec 6) (p : BitVec 3) (g : Guard),
    let x : Nat → Word := fun l => t.get a.toNat l
    let y : Nat → Word := fun l => t.get b.toNat l
    let xx : Nat → DWord := fun l => t.get64 a.toNat l
    let yy : Nat → DWord := fun l => t.get64 b.toNat l
    let P := fun (i : Instr) (f : Nat → DWord) => LaneWrites i s k t r g (toPair d.toNat f) noFlag
    LaneWrites (.sel d a b g) s k t r Guard.always
      (toReg d.toNat fun l => if g.g = 0 ∨ t.pred g.g.toNat l ≠ g.n then x l else y l) noFlag ∧
    LaneWrites (.p2v d p g) s k t r g (toReg d.toNat fun l => if t.pred p.toNat l then 1 else 0) noFlag ∧
    P (.add64 d a b g) (fun l => xx l + yy l) ∧ P (.sub64 d a b g) (fun l => xx l - yy l) ∧
    P (.leaN d a b g) (fun l => xx l + BitVec.ofNat 64 (y l).toNat) ∧
    P (.leaI d a b g) (fun l => xx l + BitVec.ofInt 64 (y l).toInt) ∧
    P (.lea4N d a b g) (fun l => xx l + BitVec.ofNat 64 (4 * (y l).toNat)) ∧
    P (.lea4I d a b g) (fun l => xx l + BitVec.ofInt 64 (4 * (y l).toInt)) ∧
    P (.mulwI32 d a b g) (fun l => BitVec.ofInt 64 ((x l).toInt * (y l).toInt)) ∧
    P (.mulwN32 d a b g) (fun l => BitVec.ofNat 64 ((x l).toNat * (y l).toNat))

/-- R122, R123, Table 7.12: window tests, offsets and addresses against the launch record's windows, and special registers; MOVS
reads the value that stands before the instruction's own cycles pass. -/
def Obligations.WindowsAndSpecials : Prop :=
  ∀ (s : State) (k : Nat) (t : Team) (r : Run), s.HasRun k t r → ∀ (d a : BitVec 6) (g : Guard),
    let lr := (s.wgOf t.w).lr
    let ea := fun l => (t.get64 a.toNat l).toNat
    let o := fun l => (t.get a.toNat l).toNat
    let W := fun (it io ifr : Instr) (base size : Nat) =>
      LaneWrites it s k t r g (toReg d.toNat fun l => if base ≤ ea l ∧ ea l < base + size then 1 else 0) noFlag ∧
      LaneWrites io s k t r g
        (toReg d.toNat fun l => if base ≤ ea l ∧ ea l < base + size then BitVec.ofNat 32 (ea l - base) else 0xFFFFFFFF) noFlag ∧
      LaneWrites ifr s k t r g
        (toPair d.toNat fun l => if o l < size then BitVec.ofNat 64 (base + o l) else 0xFFFFFFFFFFFFFFFF) noFlag
    W (.wtestLocal d a g) (.wtoLocal d a g) (.wfromLocal d a g) (lrLocBase lr) (lrLocSize lr) ∧
    W (.wtestShared d a g) (.wtoShared d a g) (.wfromShared d a g) (lrShBase lr) (lrShSize lr) ∧
    W (.wtestCluster d a g) (.wtoCluster d a g) (.wfromCluster d a g) (lrClBase lr) (lrClSize lr) ∧
    LaneWrites (.wspace d a g) s k t r g (toReg d.toNat fun l => BitVec.ofNat 32 (spaceOf lr (ea l))) noFlag ∧
    (a.toNat ∈ [0x0B, 0x0C, 0x13] → LaneWrites (.movs d a g) s k t r g (toPair d.toNat fun l => s.special k t a.toNat l) noFlag) ∧
    (a.toNat ∉ [0x0B, 0x0C, 0x13] →
      LaneWrites (.movs d a g) s k t r g (toReg d.toNat fun l => (s.special k t a.toNat l).setWidth 32) noFlag)

/-! ### The lane set: cross-lane and floating point (R140..R183, R282) -/

/-- R140, R141: a lane takes the register of one position of its group of 32, 0 beyond the team's lanes; or a value of the positions
of its group that take part. -/
def Obligations.CrossLaneResults : Prop :=
  ∀ (s : State) (k : Nat) (t : Team) (r : Run), s.HasRun k t r → ∀ (d a b : BitVec 6) (la : BitVec 4),
    let at' : Nat → Nat → Word := fun l j => if l / 32 * 32 + j < t.nlanes then t.get a.toNat (l / 32 * 32 + j) else 0
    let n : Nat → Nat := fun l => (t.get b.toNat l).toNat
    let P := fun (i : Instr) (f : Nat → Word) => LaneWrites i s k t r Guard.always (toReg d.toNat f) noFlag
    let part : Nat → List Nat := fun l =>
      (List.range 32).filter fun j => decide (l / 32 * 32 + j < t.nlanes) && r.entry.getLsbD (l / 32 * 32 + j)
    P (.lpick d a b la) (fun l => at' l (n l % 32)) ∧
    P (.lrot d a b la) (fun l => at' l ((l + n l) % 32)) ∧
    P (.lswap d a b la) (fun l => at' l ((l % 32) ^^^ (n l % 32))) ∧
    P (.lslide d a b la) (fun l =>
      let j : Int := (l % 32 : Nat) - (t.get b.toNat l).toInt
      if 0 ≤ j ∧ j < 32 then at' l j.toNat else 0) ∧
    P (.lbits d a la) (fun l => BitVec.ofNat 32 ((part l).map fun j => if t.get a.toNat (l / 32 * 32 + j) = 0 then 0 else 2 ^ j).sum) ∧
    P (.lall d a la) (fun l => if (part l).all (fun j => t.get a.toNat (l / 32 * 32 + j) != 0) then 1 else 0) ∧
    P (.redaddI32 d a la) (fun l => (part l).foldl (fun m j => m + t.get a.toNat (l / 32 * 32 + j)) 0) ∧
    P (.redmaxI32 d a la) (fun l => (part l).foldl (fun m j => maxI m (t.get a.toNat (l / 32 * 32 + j))) 0x80000000) ∧
    (∀ x ∈ [(Instr.lpick d a b la, 0), (.lslide d a b la, 1), (.lrot d a b la, 2), (.lswap d a b la, 3)],
      encode x.1 = some (0#1 ++ 0x1C#6 ++ d ++ a ++ b ++ BitVec.ofNat 3 x.2 ++ la)) ∧
    (∀ x ∈ [(Instr.lbits d a la, 4), (.lall d a la, 5), (.redaddI32 d a la, 6), (.redmaxI32 d a la, 7)],
      encode x.1 = some (0#1 ++ 0x1C#6 ++ d ++ a ++ 0#6 ++ BitVec.ofNat 3 x.2 ++ la))

/-- R142: VTRN of elements of `e` bits transposes the eight registers from d among groups of 256/e lanes: element h of register q in
lane m of a group takes element m of the lane q (32/e) + h of the group, as they stood before. -/
def Obligations.TransposeResults : Prop :=
  ∀ (s : State) (k : Nat) (t : Team) (r : Run), s.HasRun k t r → ∀ (d : BitVec 6) (la : BitVec 4),
    let V := fun (i : Instr) (e : Nat) => LaneWrites i s k t r Guard.always
      (fun n l => if d.toNat ≤ n ∧ n < d.toNat + 8 then
          some (wordOf ((List.range (32 / e)).map fun h =>
            t.element d.toNat e (l % (256 / e)) (l / (256 / e) * (256 / e) + (n - d.toNat) * (32 / e) + h) * 2 ^ (e * h)).sum)
        else none) noFlag
    V (.vtrn8 d la) 8 ∧ V (.vtrn16 d la) 16 ∧ V (.vtrn32 d la) 32

/-- R164: FARITH delivers the exact result of its operands, rounded once under FRM, with the flags of both; FMIN and FMAX deliver
minimumNumber and maximumNumber. That a quiet NaN raises nothing beside an infinity times zero is the model's reading (log entry
34). -/
def Obligations.FloatArithmetic : Prop :=
  ∀ (s : State) (k : Nat) (t : Team) (r : Run), s.HasRun k t r → ∀ (d a b : BitVec 6) (g : Guard),
    let x : Nat → Machine.Num := fun l => fp32.decode (t.get a.toNat l).toNat
    let y : Nat → Machine.Num := fun l => fp32.decode (t.get b.toNat l).toNat
    let z : Nat → Machine.Num := fun l => fp32.decode (t.get (b.toNat + 1) l).toNat
    let P := fun (i : Instr) (v : Nat → Nat × Word) =>
      LaneWrites i s k t r g (toReg d.toNat fun l => BitVec.ofNat 32 (v l).1) (fun l => (v l).2)
    let R := fun (i : Instr) (e : Nat → Machine.Num × Word) => P i fun l => fp32.deliver t.mode (e l)
    R (.fadd d a b g) (fun l => (x l).add t.mode (y l)) ∧
    R (.fsub d a b g) (fun l => (x l).add t.mode (y l).negate) ∧
    R (.fmul d a b g) (fun l => (x l).mul (y l)) ∧
    R (.fmac d a b g) (fun l => Machine.Num.fma t.mode (x l) (y l) (z l)) ∧
    R (.fmsc d a b g) (fun l => Machine.Num.fma t.mode (x l) (y l) (z l).negate) ∧
    R (.fnmac d a b g) (fun l => Machine.Num.fma t.mode (x l).negate (y l) (z l)) ∧
    P (.fmin d a b g) (fun l => fp32.minMax false (t.get a.toNat l).toNat (t.get b.toNat l).toNat) ∧
    P (.fmax d a b g) (fun l => fp32.minMax true (t.get a.toNat l).toNat (t.get b.toNat l).toNat)

/-- R165, R166: sign operations give the canonical NaN for a NaN and else change the sign bit alone; FCLASS names the class and
raises nothing; the roundings to an integral value, of which FRINT alone raises NX; and the compares, of which the four
orderings raise NV for any NaN and the others for a signalling one. That FCLASS raises nothing is the model's reading (log entry
34). -/
def Obligations.FloatMiscAndCompares : Prop :=
  ∀ (s : State) (k : Nat) (t : Team) (r : Run), s.HasRun k t r → ∀ (d a b : BitVec 6) (m p : BitVec 3) (g : Guard),
    let w : Nat → Word := fun l => t.get a.toNat l
    let u : Nat → Word := fun l => t.get b.toNat l
    let x : Nat → Machine.Num := fun l => fp32.decode (w l).toNat
    let y : Nat → Machine.Num := fun l => fp32.decode (u l).toNat
    let S := fun (i : Instr) (f : Nat → Word) =>
      LaneWrites i s k t r g (toReg d.toNat fun l => if (x l).isNan then 0x7FC00000 else f l) (fun l => if (x l).isSig then flNV else 0)
    let whole := fun (mode : Nat) (n : Bool) (m j : Nat) =>
      let q := m / 2 ^ j
      let rest := m % 2 ^ j
      if mode = 0 ∧ (2 ^ j < 2 * rest ∨ 2 * rest = 2 ^ j ∧ q % 2 = 1) ∨ mode = 2 ∧ rest ≠ 0 ∧ n = false ∨ mode = 3 ∧ rest ≠ 0 ∧ n = true then q + 1
      else q
    let I := fun (i : Instr) (mode : Nat) (nx : Bool) => LaneWrites i s k t r g
      (toReg d.toNat fun l => match x l with
        | .nan _ => 0x7FC00000
        | .inf _ => w l
        | .fin n m e => if 0 ≤ e then w l else BitVec.ofNat 32 (fp32.deliver 0 (.fin n (whole mode n m (-e).toNat) 0, 0)).1)
      (fun l => match x l with
        | .nan sig => if sig then flNV else 0
        | .inf _ => 0
        | .fin _ m e => if nx ∧ e < 0 ∧ m % 2 ^ (-e).toNat ≠ 0 then flNX else 0)
    let cls := fun (c : Word) =>
      let ex := c.toNat / 2 ^ 23 % 256
      let ma := c.toNat % 2 ^ 23
      let n := decide (2 ^ 31 ≤ c.toNat)
      if ex = 255 then (if ma = 0 then (if n then 0x001 else 0x080) else if ma < 2 ^ 22 then 0x100 else 0x200)
      else if ex = 0 then (if ma = 0 then (if n then 0x008 else 0x010) else if n then 0x004 else 0x020)
      else (if n then 0x002 else (0x040 : Word))
    let C := fun (i : Instr) (loud : Bool) (f : Nat → Bool) => LanePredWrites i s k t r g m p f fun l =>
      if (if loud then (x l).isNan || (y l).isNan else (x l).isSig || (y l).isSig) then flNV else 0
    S (.fabs d a g) (fun l => w l &&& 0x7FFFFFFF) ∧ S (.fneg d a g) (fun l => w l ^^^ 0x80000000) ∧
    S (.fcopysign d a b g) (fun l => (w l &&& 0x7FFFFFFF) ||| (u l &&& 0x80000000)) ∧
    LaneWrites (.fclass d a g) s k t r g (toReg d.toNat fun l => cls (w l)) noFlag ∧
    I (.frint d a g) t.mode true ∧ I (.ffloor d a g) 3 false ∧ I (.fceil d a g) 2 false ∧ I (.ftrunc d a g) 1 false ∧
    C (.feq m p a b g) false (fun l => (x l).eq (y l)) ∧ C (.fne m p a b g) false (fun l => !(x l).eq (y l)) ∧
    C (.flt m p a b g) true (fun l => (x l).lt (y l)) ∧ C (.fle m p a b g) true (fun l => (x l).lt (y l) || (x l).eq (y l)) ∧
    C (.fgt m p a b g) true (fun l => (y l).lt (x l)) ∧ C (.fge m p a b g) true (fun l => (y l).lt (x l) || (x l).eq (y l)) ∧
    C (.fun m p a b g) false (fun l => (x l).isNan || (y l).isNan) ∧
    C (.ford m p a b g) false (fun l => !((x l).isNan || (y l).isNan))

/-- R168, R169, R170: packed halves are rounded each under FRM, packed bytes settled each by the FP8 overflow rule, and DOT4 is the
exact sum of four products, rounded once to FP32. The sign of an exact zero of DOT4 is the model's reading (log entry 34). -/
def Obligations.PackedArithmetic : Prop :=
  ∀ (s : State) (k : Nat) (t : Team) (r : Run), s.HasRun k t r → ∀ (d a b : BitVec 6) (g : Guard),
    let w : Nat → Word := fun l => t.get a.toNat l
    let u : Nat → Word := fun l => t.get b.toNat l
    let v : Nat → Word := fun l => t.get (b.toNat + 1) l
    let P := fun (i : Instr) (f : Nat → Word × Word) => LaneWrites i s k t r g (toReg d.toNat fun l => (f l).1) (fun l => (f l).2)
    let H := fun (i : Instr) (f : Fmt) (op : Machine.Num → Machine.Num → Machine.Num → Machine.Num × Word) => P i fun l => packed 2 16 fun h =>
      f.deliver t.mode (op (f.part (w l) 16 h) (f.part (u l) 16 h) (f.part (v l) 16 h))
    let Q := fun (i : Instr) (f : Fmt) (op : Machine.Num → Machine.Num → Machine.Num × Word) => P i fun l => packed 4 8 fun j =>
      f.fp8 t.mode t.nanov (op (f.part (w l) 8 j) (f.part (u l) 8 j))
    let M := fun (i : Instr) (f : Fmt) (n wd : Nat) (max' : Bool) => P i fun l => packed n wd fun j =>
      f.minMax max' (natBits (w l).toNat (wd * j) wd) (natBits (u l).toNat (wd * j) wd)
    let D := fun (i : Instr) (f : Fmt) => P i fun l =>
      (BitVec.ofNat 32 (fp32.deliver t.mode (dot4 f t.mode (w l) (u l))).1, (fp32.deliver t.mode (dot4 f t.mode (w l) (u l))).2)
    H (.addBf16x2 d a b g) bf16 (fun x y _ => x.add t.mode y) ∧ H (.mulBf16x2 d a b g) bf16 (fun x y _ => x.mul y) ∧
    H (.fmacBf16x2 d a b g) bf16 (Machine.Num.fma t.mode) ∧
    H (.addF16x2 d a b g) fp16 (fun x y _ => x.add t.mode y) ∧ H (.mulF16x2 d a b g) fp16 (fun x y _ => x.mul y) ∧
    H (.fmacF16x2 d a b g) fp16 (Machine.Num.fma t.mode) ∧
    M (.minBf16x2 d a b g) bf16 2 16 false ∧ M (.maxBf16x2 d a b g) bf16 2 16 true ∧
    Q (.addE4m3x4 d a b g) e4m3 (fun x y => x.add t.mode y) ∧ Q (.mulE4m3x4 d a b g) e4m3 (fun x y => x.mul y) ∧
    Q (.addE5m2x4 d a b g) e5m2 (fun x y => x.add t.mode y) ∧ Q (.mulE5m2x4 d a b g) e5m2 (fun x y => x.mul y) ∧
    M (.minE4m3x4 d a b g) e4m3 4 8 false ∧ M (.maxE4m3x4 d a b g) e4m3 4 8 true ∧
    D (.dot4E4m3 d a b g) e4m3 ∧ D (.dot4E5m2 d a b g) e5m2

/-- R171, R172: conversions between FP32, integers, halves and the narrow formats: the exact value delivered in the destination
format. -/
def Obligations.ConversionResults : Prop :=
  ∀ (s : State) (k : Nat) (t : Team) (r : Run), s.HasRun k t r → ∀ (d a b : BitVec 6) (g : Guard),
    let w : Nat → Word := fun l => t.get a.toNat l
    let x : Nat → Machine.Num := fun l => fp32.decode (w l).toNat
    let P := fun (i : Instr) (f : Nat → Word × Word) => LaneWrites i s k t r g (toReg d.toNat fun l => (f l).1) (fun l => (f l).2)
    let N := fun (i : Instr) (f : Nat → Nat × Word) => P i fun l => (BitVec.ofNat 32 (f l).1, (f l).2)
    let T := fun (i : Instr) (lo hi : Int) => P i fun l =>
      (BitVec.ofInt 32 ((x l).toInteger t.mode lo hi).1, ((x l).toInteger t.mode lo hi).2)
    let W := fun (i : Instr) (f : Fmt) (n : Nat) => N i fun l =>
      fp32.deliver 0 (f.part (w l) n 0, if (f.part (w l) n 0).isSig then flNV else 0)
    let H := fun (i : Instr) (f : Fmt) => P i fun l => packed 2 16 fun h =>
      f.deliver t.mode (fp32.decode (t.get (if h = 0 then a.toNat else b.toNat) l).toNat,
        if (fp32.decode (t.get (if h = 0 then a.toNat else b.toNat) l).toNat).isSig then flNV else 0)
    let E := fun (i : Instr) (f : Fmt) => N i fun l => f.fp8 t.mode t.nanov (x l, if (x l).isSig then flNV else 0)
    N (.cvtF32I32 d a g) (fun l => fp32.deliver t.mode (Machine.Num.ofInt (w l).toInt, 0)) ∧
    N (.cvtF32N32 d a g) (fun l => fp32.deliver t.mode (Machine.Num.ofInt (w l).toNat, 0)) ∧
    T (.cvtI32F32 d a g) (-2147483648) 2147483647 ∧ T (.cvtN32F32 d a g) 0 4294967295 ∧
    H (.cvtBf16x2F32 d a b g) bf16 ∧ H (.cvtF16x2F32 d a b g) fp16 ∧
    W (.cvtF32Bf16 d a g) bf16 16 ∧ W (.cvtF32F16 d a g) fp16 16 ∧
    E (.cvtE4m3F32 d a g) e4m3 ∧ E (.cvtE5m2F32 d a g) e5m2 ∧
    W (.cvtF32E4m3 d a g) e4m3 8 ∧ W (.cvtF32E5m2 d a g) e5m2 8 ∧ W (.cvtF32E2m1 d a g) e2m1 4 ∧
    W (.cvtF32E2m3 d a g) e2m3 6 ∧ W (.cvtF32E3m2 d a g) e3m2 6 ∧
    N (.cvtF32Int4 d a g) (fun l => fp32.deliver 0 ((Elem.int 4).decode (w l).toNat, 0))

/-- R167, R282, Table 8.14: the special functions of FP32 numbers, and complex products and sums, a part each. Quotients and roots are the
exact values rounded to nearest, and the special values of every function are those of the table; the other values of FEXP2, FLOG2,
FSINPI and FCOSPI are those of the model's series (log entry 12). -/
def Obligations.SpecialAndComplex : Prop :=
  ∀ (s : State) (k : Nat) (t : Team) (r : Run), s.HasRun k t r → ∀ (d a b : BitVec 6) (la : BitVec 4),
    let x : Nat → Machine.Num := fun l => fp32.decode (t.get a.toNat l).toNat
    let P := fun (i : Instr) (f : Nat → Word × Word) =>
      LaneWrites i s k t r Guard.always (toReg d.toNat fun l => (f l).1) (fun l => (f l).2)
    let nan : Word → Word × Word := fun fl => (0x7FC00000, fl)
    let inf : Bool → Word := fun n => if n then 0xFF800000 else 0x7F800000
    let zero : Bool → Word := fun n => if n then 0x80000000 else 0
    let rnd : Bool → Nat → Int → Bool → Word × Word := fun n m e more =>
      (BitVec.ofNat 32 (fp32.ieee 0 n m e more).1, (fp32.ieee 0 n m e more).2)
    let quo : Machine.Num → Machine.Num → Word × Word := fun x y => match x, y with
      | .nan sx, y => nan (if sx || y.isSig then flNV else 0)
      | x, .nan sy => nan (if x.isSig || sy then flNV else 0)
      | .inf _, .inf _ => nan flNV
      | .inf n, .fin n' _ _ => (inf (n != n'), 0)
      | .fin n _ _, .inf n' => (zero (n != n'), 0)
      | .fin n m e, .fin n' m' e' =>
        if m' = 0 then (if m = 0 then nan flNV else (inf (n != n'), flDZ))
        else if m = 0 then (zero (n != n'), 0)
        else rnd (n != n') (m * 2 ^ 64 / m') (e - e' - 64) (m * 2 ^ 64 % m' != 0)
    let C := fun (i : Instr) (n : Nat) (f : (BitVec 6 → Nat → Machine.Num) → List (Machine.Num × Word) × List (Machine.Num × Word)) =>
      let rd : Nat → BitVec 6 → Nat → Machine.Num := fun l q h => fp32.decode (t.get (q.toNat + h) l).toNat
      let xs : Nat → List Machine.Num := fun l => [rd l a 0, rd l a 1] ++ (List.range n).map (rd l b)
      let out : Nat → List (Machine.Num × Word) → Word × Word := fun l ts =>
        if (xs l).any Machine.Num.isNan then (0x7FC00000, if (xs l).any Machine.Num.isSig then flNV else 0)
        else (BitVec.ofNat 32 (fp32.deliver t.mode (sumNum t.mode ts)).1, (fp32.deliver t.mode (sumNum t.mode ts)).2)
      LaneWrites i s k t r Guard.always
        (fun q l => if q = d.toNat + 1 then some (out l (f (rd l)).2).1 else if q = d.toNat then some (out l (f (rd l)).1).1 else none)
        (fun l => (out l (f (rd l)).1).2 ||| (out l (f (rd l)).2).2)
    P (.frcp d a la) (fun l => quo (.fin false 1 0) (x l)) ∧
    P (.fdiv d a b la) (fun l => quo (x l) (fp32.decode (t.get b.toNat l).toNat)) ∧
    P (.fsqrt d a la) (fun l => match x l with
      | .nan sig => nan (if sig then flNV else 0)
      | .inf n => if n then nan flNV else (0x7F800000, 0)
      | .fin n m e => if m = 0 then (zero n, 0) else if n then nan flNV
        else
          let v := (if e % 2 = 0 then m else 2 * m) * 2 ^ 64
          rnd false (Nat.sqrt v) (((if e % 2 = 0 then e else e - 1) - 64) / 2) (Nat.sqrt v * Nat.sqrt v != v)) ∧
    P (.frsq d a la) (fun l => match x l with
      | .nan sig => nan (if sig then flNV else 0)
      | .inf n => if n then nan flNV else (0, 0)
      | .fin n m e => if m = 0 then (inf n, flDZ) else if n then nan flNV
        else
          let v := if e % 2 = 0 then m else 2 * m
          let q := Nat.sqrt (2 ^ 150 / v)
          rnd false q (-((if e % 2 = 0 then e else e - 1) / 2) - 75) (q * q * v != 2 ^ 150)) ∧
    P (.fexp2 d a la) (fun l => match x l with
      | .nan sig => nan (if sig then flNV else 0)
      | .inf n => (if n then 0 else 0x7F800000, 0)
      | .fin n m e =>
        if e < 0 ∧ m % 2 ^ (-e).toNat = 0 ∧ m / 2 ^ (-e).toNat < 150 then
          rnd false 1 (if n then -((m / 2 ^ (-e).toNat : Nat) : Int) else (m / 2 ^ (-e).toNat : Nat)) false
        else fexp2W (.fin n m e)) ∧
    P (.flog2 d a la) (fun l => match x l with
      | .nan sig => nan (if sig then flNV else 0)
      | .inf n => if n then nan flNV else (0x7F800000, 0)
      | .fin n m e => if m = 0 then (0xFF800000, flDZ) else if n then nan flNV
        else if t.get a.toNat l = 0x3F800000 then (0, 0) else flog2W (.fin n m e)) ∧
    P (.fsinpi d a la) (fun l => match x l with
      | .nan sig => nan (if sig then flNV else 0)
      | .inf _ => nan flNV
      | .fin n m e => if 0 ≤ e ∨ m % 2 ^ (-e).toNat = 0 then (zero n, 0) else fsinpiW (.fin n m e)) ∧
    P (.fcospi d a la) (fun l => match x l with
      | .nan sig => nan (if sig then flNV else 0)
      | .inf _ => nan flNV
      | .fin n m e => if e < 0 ∧ m % 2 ^ (-e).toNat = 2 ^ ((-e).toNat - 1) then (0, 0) else fcospiW (.fin n m e)) ∧
    C (.cmul d a b la) 2 (cplxTerms a b false false) ∧ C (.cmac d a b la) 4 (cplxTerms a b false true) ∧
    C (.cmulc d a b la) 2 (cplxTerms a b true false) ∧ C (.cmacc d a b la) 4 (cplxTerms a b true true) ∧
    C (.cadd d a b la) 2 (fun rd => ([(rd a 0, 0), (rd b 0, 0)], [(rd a 1, 0), (rd b 1, 0)]))

/-- R177..R183: the quantiser: the largest magnitude of a group, its scale, codes, sides and escapes under QCTL, and the way back. -/
def Obligations.QuantiserResults : Prop :=
  ∀ (s : State) (k : Nat) (t : Team) (r : Run), s.HasRun k t r → ∀ (d a b : BitVec 6) (la : BitVec 4),
    let w : Nat → Word := fun l => t.get a.toNat l
    let sc : Nat → Nat := fun l => (t.get b.toNat l).toNat % 256
    let e : Nat → Word := fun l => t.get (d.toNat + 1) l
    let P := fun (i : Instr) (f : Nat → Word × Word) =>
      LaneWrites i s k t r Guard.always (toReg d.toNat fun l => (f l).1) (fun l => (f l).2)
    let num : Word → Machine.Num := fun c => fp32.decode c.toNat
    let A := fun (i : Instr) (n : Nat) => LaneWrites i s k t r Guard.always (toReg d.toNat fun l =>
      let xs := ((List.range n).filter fun j => r.entry.getLsbD (l / n * n + j) && decide (l / n * n + j < t.nlanes)).map fun j => w (l / n * n + j)
      if xs.any fun c => (num c).isNan then 0x7FC00000 else BitVec.ofNat 32 ((xs.map fun c => c.toNat % 2 ^ 31).foldl max 0)) noFlag
    let F := elemOf (t.qctl.toNat % 16)
    let rd : Word → Rounding := fun e => if t.qctl.getLsbD 4 then .sr (mix t.srseed e) else .rne
    let wide : Word → Bool := fun c => match num c with
      | .fin _ m e => decide (t.qctl.toNat / 256 % 256 ≠ 255 ∧ m ≠ 0 ∧ (t.qctl.toNat / 256 % 256 : Nat) - 127 ≤ floorLog m e)
      | _ => true
    A (.qamax16 d a la) 16 ∧ A (.qamax32 d a la) 32 ∧
    LaneWrites (.qscale d a la) s k t r Guard.always (toReg d.toNat fun l => BitVec.ofNat 32 (scaleOf (num (w l)) F)) noFlag ∧
    LaneWrites (.qesc d a la) s k t r Guard.always (toReg d.toNat fun l =>
      if t.qctl.getLsbD 5 ∧ t.qctl.toNat % 16 ∈ [2, 4] ∧ (wide (w l) ∨ wide (t.get (a.toNat + 1) l)) then 1 else 0) noFlag ∧
    P (.qcvt d a b la) (fun l =>
      if sc l = 255 then (0, 0)
      else if (num (w l)).isNan then
        (if t.qctl.toNat % 16 = 8 then 0x7E else if t.qctl.toNat % 16 ∈ [1, 2, 3, 4, 5, 6, 9] then 0 else 0x7F, 0)
      else
        let z := F.quantise (rd (e l)) ((num (w l)).scale (127 - (sc l : Int)))
        if t.qctl.toNat % 16 = 4 ∧ (e l).toNat % 2 = 0 ∧ z.1 = 8 then (0, z.2)
        else if t.qctl.toNat % 16 = 2 ∧ (e l).toNat % 2 = 0 ∧ z.1 = 8 then (9, z.2 ||| flSA ||| flNX)
        else (BitVec.ofNat 32 z.1, z.2)) ∧
    P (.qside d a b la) (fun l =>
      let v : Nat → Nat × Word := fun h =>
        let c := t.get (a.toNat + h) l
        if (num c).isNan ∨ sc l = 255 then (0x7F, 0)
        else (Elem.flt e4m3).quantise (rd (e l + BitVec.ofNat 32 h)) ((num c).scale (127 - (sc l : Int)))
      (BitVec.ofNat 32 ((v 0).1 + 256 * (v 1).1), (v 0).2 ||| (v 1).2)) ∧
    P (.qdeq d a b la) (fun l =>
      let q := (if (t.get b.toNat l).getLsbD 8 then Elem.flt e4m3 else F).decode (w l).toNat
      if sc l = 255 then (0x7FC00000, 0)
      else (BitVec.ofNat 32 (fp32.deliver 0 (q.scale ((sc l : Int) - 127), 0)).1, (fp32.deliver 0 (q.scale ((sc l : Int) - 127), 0)).2))

/-! ### Memory (R184..R191, R203) -/

/-- R184, R186: LD in a lane alone. Where the check of the address passes, d takes the bytes that the lane sees there, narrow ones
extended, and no byte of memory changes; the buffered stores of other lanes that it reads are noted, for the releases of its team
(R57). Where the check does not pass, the lane aborts with its cause. -/
def Obligations.LoadResults : Prop :=
  ∀ (s : State) (k : Nat) (t : Team) (r : Run) (l : Nat), s.HasRun k t r → OnlyLane t r Guard.always l → ∀ (d a o : BitVec 6) (la : BitVec 4),
    let s0 := s.laneIssue k t r Guard.always
    let L := fun (i : Instr) (n : Nat) (sx : Bool) =>
      let ea := (t.get64 a.toNat l + BitVec.ofInt 64 (o.toInt * n)).toNat
      match s0.check k t r l ea n .load with
      | (s1, .at' p _) => Completes i s fun s' => ∃ t', s'.TeamIs k t' ∧
          t' = { t with v := t'.v, run := some { r with idx := r.idx + 1 }, stv := 0
                        sbuf := t.sbuf.map fun st => if s1.overlaps st p n then st.readBy l else st } ∧
          (∀ j < t.nlanes, ∀ q, t'.get q j =
            if j = l then (loadedReg d.toNat sx (s1.laneBytes t r l p n) q).getD (t.get q j) else t.get q j) ∧
          (s.Unsampled (partOfTeam k) → MemoryKept s s')
      | (_, .cause c) => r.pends = none ∨ c ≠ 5 → Aborts i s k r l c ea 0
    L (.ldI8 d a o la) 1 true ∧ L (.ldN8 d a o la) 1 false ∧ L (.ldI16 d a o la) 2 true ∧ L (.ldN16 d a o la) 2 false ∧
    L (.ld32 d a o la) 4 false ∧ L (.ld64 d a o la) 8 false ∧ L (.ld128 d a o la) 16 false ∧ L (.ldNt128 d a o la) 16 false

/-- R189, R190: LDT in a lane alone: the bytes at the offset in the tile, or with SDB the element that the offset names, delivered
as FP32; a tile of another workgroup, an offset off its alignment, one beyond the tile or poison aborts the lane. -/
def Obligations.TileLoadResults : Prop :=
  ∀ (s : State) (k : Nat) (t : Team) (r : Run) (l : Nat), s.HasRun k t r → OnlyLane t r Guard.always l → ∀ (d tl o : BitVec 6) (la : BitVec 4),
    let s0 := s.laneIssue k t r Guard.always
    let off := (t.get o.toNat l).toNat
    let L := fun (i : Instr) (n : Nat) (sx : Bool) =>
      match s0.tileRead k t r l tl.toNat off n with
      | .at' p _ => Completes i s fun s' => ∃ t', s'.TeamIs k t' ∧
          t' = { t with v := t'.v, run := some { r with idx := r.idx + 1 }, stv := 0
                        sbuf := t.sbuf.map fun st => if s0.overlaps st p n then st.readBy l else st } ∧
          (∀ j < t.nlanes, ∀ q, t'.get q j =
            if j = l then (loadedReg d.toNat sx (s0.laneBytes t r l p n) q).getD (t.get q j) else t.get q j) ∧
          (s.Unsampled (partOfTeam k) → MemoryKept s s')
      | .cause c => r.pends = none ∨ c ≠ 5 → Aborts i s k r l c off 4
    L (.ldt32 d tl o la) 4 false ∧ L (.ldt64 d tl o la) 8 false ∧ L (.ldt128 d tl o la) 16 false ∧
    L (.ldtI8 d tl o la) 1 true ∧ L (.ldtN8 d tl o la) 1 false ∧ L (.ldtI16 d tl o la) 2 true ∧ L (.ldtN16 d tl o la) 2 false ∧
    (match s0.tileRead k t r l tl.toNat (off / 512 * 64) 64 with
      | .at' p _ => sdbPoison (s0.laneBytes t r l p 64) = false → Completes (.ldtSdb d tl o la) s fun s' => ∃ t', s'.TeamIs k t' ∧
          (∀ j < t.nlanes, ∀ q, t'.get q j = if j = l ∧ q = d.toNat then
              (if (sdbLayout ((s0.laneBytes t r l p 64).getD 0 0).toNat).2.2 ≤ off % 512 then 0x7FC00000
               else BitVec.ofNat 32 (deliverElem (sdbDec (s0.laneBytes t r l p 64) (off % 512))).1)
            else t.get q j)
      | .cause c => r.pends = none ∨ c ≠ 5 → Aborts (.ldtSdb d tl o la) s k r l c off 4)

/-- R184, R187, R189: a store in a lane alone is recorded in its run where the check of the address passes: the low bytes of the
source, at that place, in its colour; nothing is stored before the lane completes. Else the lane aborts with the cause. Which
stores wait in a buffer is the model's choice (log entry 11). -/
def Obligations.StoreRecords : Prop :=
  ∀ (s : State) (k : Nat) (t : Team) (r : Run) (l : Nat), s.HasRun k t r → ∀ (sr a tl x : BitVec 6) (o : BitVec 4) (c g3 : BitVec 3) (g : Guard),
    let bytes : Nat → List Byte := fun n => ((List.range ((n + 3) / 4)).flatMap fun j => natLE 4 (t.get (sr.toNat + j) l).toNat).take n
    let R := fun (i : Instr) (ea : Nat) (p : Place) (n kt : Nat) => Completes i s fun s' =>
      s'.TeamIs k { t with stv := 0, run := some { r with
        idx := r.idx + 1
        stores := r.stores ++ [{ lane := l, va := ea, at' := p, bytes := bytes n, col := c.toNat, ktag := kt, group := none, ix := r.idx }] } } ∧
      (s.Unsampled (partOfTeam k) → MemoryKept s s')
    let S := fun (i : Instr) (n : Nat) => OnlyLane t r ⟨g3, false⟩ l →
      let s0 := s.laneIssue k t r ⟨g3, false⟩
      let ea := (t.get64 a.toNat l + BitVec.ofInt 64 (o.toInt * n)).toNat
      match s0.check k t r l ea n .store with
      | (_, .at' p _) => R i ea p n (s0.wgOf t.w).ktag
      | (_, .cause cs) => Aborts i s k r l cs ea 1
    let T := fun (i : Instr) (n : Nat) => OnlyLane t r g l →
      match (s.laneIssue k t r g).tileReach k t tl.toNat (t.get x.toNat l).toNat n with
      | .at' p _ => R i (t.get x.toNat l).toNat p n 0
      | .cause cs => Aborts i s k r l cs (t.get x.toNat l).toNat 4
    S (.st8 sr a o c g3) 1 ∧ S (.st16 sr a o c g3) 2 ∧ S (.st32 sr a o c g3) 4 ∧ S (.st64 sr a o c g3) 8 ∧
    S (.st128 sr a o c g3) 16 ∧ S (.stNt128 sr a o c g3) 16 ∧
    T (.stt32 sr tl x c g) 4 ∧ T (.stt64 sr tl x c g) 8 ∧ T (.stt128 sr tl x c g) 16

/-- R188: SDBST completes, and the lanes' values of its source are kept for the blocks, which are stored, 64 bytes each, by the first
lane, acting, of every group of as many lanes as QCTL's format has elements. Where the head of one group acts alone, in the first
attempt, the block of the values of its group is recorded at its address where the check passes, and performed for the group as a
whole; else the lane aborts. That a block takes each lane's latest value is the model's reading (log entry 35). -/
def Obligations.BlockStoreRecords : Prop :=
  (∀ (s : State) (k : Nat) (t : Team) (r : Run), s.HasRun k t r → ∀ (sr a : BitVec 6) (o : BitVec 4) (c g3 : BitVec 3),
    Completes (.sdbst sr a o c g3) s fun s' => ∃ t' r', s'.TeamIs k t' ∧ t'.run = some r' ∧ r'.idx = r.idx + 1 ∧
      (r'.sdbRows.getD r.idx []).length = t.nlanes ∧
      (∀ j < t.nlanes, (r.first = true ∨ r.todo.getLsbD j = true) → (r'.sdbRows.getD r.idx []).getD j 0 = t.get sr.toNat j) ∧
      (∃ new, r'.stores = r.stores ++ new ∧ ∀ st ∈ new, st.bytes.length = 64 ∧ st.ix = r.idx ∧ st.col = c.toNat ∧
        st.lane % (sdbLayout (natBits t.qctl.toNat 0 4)).2.2 = 0 ∧ t.acts r ⟨g3, false⟩ st.lane = true)) ∧
  ∀ (s : State) (k : Nat) (t : Team) (r : Run) (l : Nat), s.HasRun k t r → ∀ (sr a : BitVec 6) (o : BitVec 4) (c g3 : BitVec 3),
    OnlyLane t r ⟨g3, false⟩ l → r.first = true → r.sdb = [] →
    let fmt := natBits t.qctl.toNat 0 4
    let n := (sdbLayout fmt).2.2
    let row := (List.range t.nlanes).map fun j => t.get sr.toNat j
    let ea := (t.get64 a.toNat l + BitVec.ofInt 64 (o.toInt * 64)).toNat
    let s0 := s.laneIssue k t r ⟨g3, false⟩
    l % n = 0 →
    match s0.check k t r l ea 64 .store with
    | (_, .at' p _) => Completes (.sdbst sr a o c g3) s fun s' => s'.TeamIs k { t with stv := 0, run := some { r with
        idx := r.idx + 1
        sdbRows := r.sdbRows.insert r.idx row
        stores := r.stores ++ [{ lane := l, va := ea, at' := p, col := c.toNat, ktag := (s0.wgOf t.w).ktag, ix := r.idx
                                 bytes := sdbBlock fmt (if natBit t.qctl.toNat 6 then 1 else 0) fun e => (row.getD (l + e) 0).toNat
                                 group := some (maskOf t.nlanes fun j => decide (l ≤ j ∧ j < l + n)) }] } } ∧
        (s.Unsampled (partOfTeam k) → MemoryKept s s')
    | (_, .cause cs) => Aborts (.sdbst sr a o c g3) s k r l cs ea 3

/-- R191: an atomic in a lane alone, at the end of a plain run whose team has no store buffered, on a place of this device whose
check passes: in a scratchpad, or in main memory where no page is compressed, on the move or moved and no host holds a line. The
old value goes to d; the place then holds the operation's result, and no other byte of the scratchpad or of memory changes; the
team goes on behind the trailer. That a performed store is visible at once to all is the model's choice (log entry 11). -/
def Obligations.AtomicResults : Prop :=
  ∀ (s : State) (k : Nat) (t : Team) (r : Run) (l : Nat), s.HasRun k t r → OnlyLane t r Guard.always l → r.Plain → r.todo = laneMask l → r.entry = laneMask l → t.sbuf = [] → t.pend.length ≤ 8 →
    ∀ (d a b : BitVec 6) (la : BitVec 4) (w off gpa : Nat),
    let s0 := s.laneIssue k t r Guard.always
    let ea := (t.get64 a.toNat l).toNat
    let A := fun (i : Instr) (n m : Nat) (f : Nat → Nat → Nat) =>
      d.toNat + n / 4 ≤ 56 →
      let x := leNat ((List.range m).flatMap fun j => natLE 4 (t.get (b.toNat + j) l).toNat)
      let D := fun (old : List Byte) (p : State → Prop) => Completes i s fun s' => (∃ t', s'.TeamIs k t' ∧ t'.pc = r.nextPc ∧
        t'.run = none ∧ t'.status = .ready ∧ ∀ j < n / 4, t'.get (d.toNat + j) l = wordOf (leNat ((old.drop (4 * j)).take 4))) ∧ p s'
      (∀ s1, s0.check k t r l ea n .atomic = (s1, .at' (.scr w off) gpa) → (s1.wgs.find? w).isSome → off / 64 = (off + n - 1) / 64 →
        (s1.wgOf w).pscr.has (off / 64) = false →
        let old := (s1.wgOf w).scr.readN off n
        D old fun s' => ∀ q, (s'.wgOf w).scr.read q =
          if off ≤ q ∧ q < off + n then (natLE n (f (leNat old) x)).getD (q - off) 0 else (s1.wgOf w).scr.read q) ∧
      (∀ s1, s0.check k t r l ea n .atomic = (s1, .at' (.sys off) gpa) → s1.hostCached = [] → s1.images = [] → s1.forwards = [] →
        s1.migs = [] → s1.sysBad off = false → s1.tagBad off (s1.wgOf t.w).ktag = false → off % 64 + n ≤ 64 →
        let old := s1.sysBytes off n
        D old fun s' => ∀ q, s'.sysByte q =
          if off ≤ q ∧ q < off + n then (natLE n (f (leNat old) x)).getD (q - off) 0 else s1.sysByte q)
    let W := fun (i : Instr) (f : Word → Word → Word) => A i 4 1 fun m x => (f (wordOf m) (wordOf x)).toNat
    W (.aadd d a b la) (fun m x => m + x) ∧ W (.aaddSys d a b la) (fun m x => m + x) ∧
    W (.aminI32 d a b la) (fun m x => if m.toInt ≤ x.toInt then m else x) ∧
    W (.aminI32Sys d a b la) (fun m x => if m.toInt ≤ x.toInt then m else x) ∧
    W (.amaxI32 d a b la) (fun m x => if m.toInt ≤ x.toInt then x else m) ∧
    W (.amaxI32Sys d a b la) (fun m x => if m.toInt ≤ x.toInt then x else m) ∧
    W (.aminN32 d a b la) (fun m x => if m.toNat ≤ x.toNat then m else x) ∧
    W (.aminN32Sys d a b la) (fun m x => if m.toNat ≤ x.toNat then m else x) ∧
    W (.amaxN32 d a b la) (fun m x => if m.toNat ≤ x.toNat then x else m) ∧
    W (.amaxN32Sys d a b la) (fun m x => if m.toNat ≤ x.toNat then x else m) ∧
    W (.aand d a b la) (fun m x => m &&& x) ∧ W (.aandSys d a b la) (fun m x => m &&& x) ∧
    W (.aor d a b la) (fun m x => m ||| x) ∧ W (.aorSys d a b la) (fun m x => m ||| x) ∧
    W (.axor d a b la) (fun m x => m ^^^ x) ∧ W (.axorSys d a b la) (fun m x => m ^^^ x) ∧
    W (.axch d a b la) (fun _ x => x) ∧ W (.aincw d a b la) (fun m x => if x.toNat ≤ m.toNat then 0 else m + 1) ∧
    W (.afadd d a b la) (fun m x => wordOf (fp32.deliver 0 ((fp32.decode m.toNat).add 0 (fp32.decode x.toNat))).1) ∧
    W (.afaddBf16x2 d a b la)
      (fun m x => (packed 2 16 fun h => bf16.deliver 0 ((bf16.part m 16 h).add 0 (bf16.part x 16 h))).1) ∧
    A (.acas d a b la) 4 2 (fun m x => if m = x % 2 ^ 32 then x / 2 ^ 32 else m) ∧
    A (.aadd64 d a b la) 8 2 (fun m x => (m + x) % 2 ^ 64) ∧ A (.axch64 d a b la) 8 2 (fun _ x => x) ∧
    A (.acas64 d a b la) 8 4 (fun m x => if m = x % 2 ^ 64 then x / 2 ^ 64 else m)

/-- R203, R362: SCALL and FCALL in a lane alone, at the end of a plain run whose team has no store buffered nor on its way to a peer,
where the check of the argument passes and no host holds or owes a line. The status goes to d: 2 where the tenant's service ring has
no base, 1 where it is full, and the tail then stays; else 0, with the entry written and the tail one higher. The team goes on
behind the trailer. That the request is checked as a load is the model's reading (log entry 35). -/
def Obligations.CallResults : Prop :=
  ∀ (s : State) (k : Nat) (t : Team) (r : Run) (l : Nat), s.HasRun k t r → OnlyLane t r Guard.always l → r.Plain → r.todo = laneMask l →
    r.entry = laneMask l → t.sbuf = [] → t.peerOut = [] → s.biWait = [] → s.hostCached = [] → t.pend.length ≤ 8 →
    s.Unsampled (partOfTeam k) → ∀ (d a b : BitVec 6) (la : BitVec 4), d.toNat < 56 →
    let s0 := s.laneIssue k t r Guard.always
    let ld := (s.wgOf t.w).ten
    let base := s.reg (oSqbase ld)
    let tail := s.reg (oSqtail ld)
    let used := (tail + 2 ^ 64 - s.reg (oSqhead ld)) % 2 ^ 64
    let ea := (t.get64 a.toNat l).toNat
    let C := fun (i : Instr) (kind : Nat) => ∀ s1 p gpa, s0.check k t r l ea 64 .load = (s1, .at' p gpa) → ld < 16 →
      s.ringNext.find? (16 + ld) = none →
      Completes i s fun s' => ∃ t', s'.TeamIs k t' ∧ t'.pc = r.nextPc ∧ t'.run = none ∧ t'.status = .ready ∧
        t'.get d.toNat l = (if ringBase base = 0 then 2 else if used = ringSize base then 1 else 0) ∧
        (ringBase base = 0 ∨ used = ringSize base → s'.reg (oSqtail ld) = tail) ∧
        (ringBase base ≠ 0 → used ≠ ringSize base → s'.reg (oSqtail ld) = (tail + 1) % 2 ^ 64 ∧
          ∃ fr ts, s'.mem = (({ s1 with free := fr, teams := ts } : State).postCall k t l kind ea gpa (t.get b.toNat l)).1.mem)
    C (.scall d a b la) 0 ∧ C (.fcall d a b la) 1

/-! ### The uniform set (R12, R86, R99, R124..R128) -/

/-- R126, R127, Table 7.17: uniform arithmetic on the leader's values, in uniform form; UMOVH keeps bits 12:0 of its destination. -/
def Obligations.UniformArithmetic : Prop :=
  ∀ (s : State) (k : Nat) (t : Team) (r : Run), s.HasRun k t r → ∀ (d a b : BitVec 6) (im : BitVec 13) (im19 : BitVec 19) (g : Guard),
    let l := r.todo.leader t.nlanes
    let x : Word := t.get a.toNat l
    let y : Word := t.get b.toNat l
    let P := fun (i : Instr) (v : Word) => UniWrites i s k t r g (toUReg d.toNat v)
    let A := fun (i : Instr) (v : Word) => UniWrites i s k t r Guard.always (toUReg d.toNat v)
    P (.uadd d a b g) (x + y) ∧ P (.usub d a b g) (x - y) ∧ P (.umul d a b g) (x * y) ∧
    P (.uand d a b g) (x &&& y) ∧ P (.uor d a b g) (x ||| y) ∧ P (.uxor d a b g) (x ^^^ y) ∧
    P (.ushl d a b g) (x <<< y.toNat) ∧ P (.ushr d a b g) (x >>> y.toNat) ∧ P (.usra d a b g) (x.sshiftRight (min y.toNat 31)) ∧
    P (.uminI32 d a b g) (if x.toInt ≤ y.toInt then x else y) ∧ P (.umaxI32 d a b g) (if x.toInt ≤ y.toInt then y else x) ∧
    P (.uminN32 d a b g) (if x.toNat ≤ y.toNat then x else y) ∧ P (.umaxN32 d a b g) (if x.toNat ≤ y.toNat then y else x) ∧
    P (.umulhiN32 d a b g) (BitVec.ofNat 32 (x.toNat * y.toNat / 2 ^ 32)) ∧
    UniWrites (.uadd64 d a b g) s k t r g (toUPair d.toNat (t.get64 a.toNat l + t.get64 b.toNat l)) ∧
    UniWrites (.usub64 d a b g) s k t r g (toUPair d.toNat (t.get64 a.toNat l - t.get64 b.toNat l)) ∧
    A (.uaddi d a im) (x + BitVec.ofInt 32 im.toInt) ∧ A (.umovi d im19) (BitVec.ofInt 32 im19.toInt) ∧
    (r.wroteReg d.toNat = true → A (.umovh d im19) (im19 ++ (t.get d.toNat l).extractLsb' 0 13)) ∧
    (r.wroteReg d.toNat = false → A (.umovh d im19) (im19 ++ ((r.saved.getD d.toNat []).getD l 0).extractLsb' 0 13))

/-- R96, R128: a uniform compare of the leader's values writes one uniform predicate, combined under the mode with its value at run
entry, or with what an earlier instruction of the attempt wrote. -/
def Obligations.UniformCompares : Prop :=
  ∀ (s : State) (k : Nat) (t : Team) (r : Run), s.HasRun k t r → ∀ (m p : BitVec 3) (a b : BitVec 6) (g : Guard),
    let l := r.todo.leader t.nlanes
    let x : Word := t.get a.toNat l
    let y : Word := t.get b.toNat l
    let old := if r.setQ.getLsbD p.toNat then t.q.getLsbD p.toNat else r.savedQ.getLsbD p.toNat
    let set := if t.guardQ g then r.setQ ||| BitVec.shiftLeft 1 p.toNat else r.setQ
    let P := fun (i : Instr) (v : Bool) => Completes i s fun s' => (∃ t', s'.TeamIs k t' ∧
      t' = { t with q := t'.q, run := some { r with idx := r.idx + 1, setQ := set }, stv := 0 } ∧
      ∀ j < 8, t'.q.getLsbD j = if t.guardQ g && j == p.toNat then combine m old v else t.q.getLsbD j) ∧
      (s.Unsampled (partOfTeam k) → IssueFrame s s' k)
    P (.ueq m p a b g) (decide (x = y)) ∧ P (.une m p a b g) (!decide (x = y)) ∧
    P (.ultI32 m p a b g) (decide (x.toInt < y.toInt)) ∧ P (.uleI32 m p a b g) (decide (x.toInt ≤ y.toInt)) ∧
    P (.ugtI32 m p a b g) (decide (y.toInt < x.toInt)) ∧ P (.ugeI32 m p a b g) (decide (y.toInt ≤ x.toInt)) ∧
    P (.ultN32 m p a b g) (decide (x.toNat < y.toNat)) ∧ P (.ugeN32 m p a b g) (decide (y.toNat ≤ x.toNat)) ∧
    (∀ x ∈ [(Instr.ueq m p a b g, 0), (.une m p a b g, 1), (.ultI32 m p a b g, 2), (.uleI32 m p a b g, 3), (.ugtI32 m p a b g, 4),
        (.ugeI32 m p a b g, 5), (.ultN32 m p a b g, 6), (.ugeN32 m p a b g, 7)],
      encode x.1 = some (1#1 ++ 6#6 ++ m ++ p ++ a ++ b ++ BitVec.ofNat 3 x.2 ++ g.g ++ BitVec.ofBool g.n))

/-- R12, R86, R124, R125, R200, R201, R255, R261, R334: literals fetched with the run, special registers as they stand and control
registers as they stood when the run was fetched, forms,
tile states, free tokens, and the completed prefixes of a chain, of a queue and of the matrix operations, in uniform form. -/
def Obligations.UniformReads : Prop :=
  ∀ (s : State) (k : Nat) (t : Team) (r : Run), s.HasRun k t r →
    ∀ (d a b : BitVec 6) (dp : BitVec 15) (la : BitVec 4) (g : Guard),
    let l := r.todo.leader t.nlanes
    let x : Nat := (t.get a.toNat l).toNat
    let wg := s.wgOf t.w
    let lit : Nat → Nat → Option Word := fun n q =>
      if d.toNat ≤ q ∧ q < d.toNat + n then some (wordOf (natBits (r.lits.getD r.idx 0) (32 * (q - d.toNat)) 32)) else none
    let v := if a.toNat < 16 then s.special k t a.toNat l else r.ctl.getD a.toNat (s.control t a.toNat)
    let P := fun (i : Instr) (v : Word) => UniWrites i s k t r g (toUReg d.toNat v)
    let Q := fun (i : Instr) (v : Nat) => UniWrites i s k t r g (toUPair d.toNat (BitVec.ofNat 64 v))
    UniWrites (.ldl32 d dp la) s k t r Guard.always (lit 1) ∧ UniWrites (.ldl64 d dp la) s k t r Guard.always (lit 2) ∧
    UniWrites (.ldl128 d dp la) s k t r Guard.always (lit 4) ∧
    (a.toNat ∈ [0x0B, 0x0C, 0x13] → UniWrites (.usr d a g) s k t r g (toUPair d.toNat v)) ∧
    (a.toNat ∉ [0x0B, 0x0C, 0x13] → P (.usr d a g) (v.setWidth 32)) ∧
    P (.vform d a g) (BitVec.ofNat 32 (formOf t.nlanes (t.get a.toNat))) ∧
    P (.tstate d a g) (tileState (s.tile (k / 128) a.toNat) t.w) ∧
    P (.kpoll d a g)
      (wordOf ((List.range 8).map fun i => if natBit x i && wg.tokens.getD i 0 == 0 then 2 ^ i else 0).sum) ∧
    P (.mpoll d g) (BitVec.ofNat 32 wg.donePfx) ∧
    Q (.nseq d a g) (s.chainSeq wg.ten (x % 4096)) ∧
    UniWrites (.lseq d b g) s k t r g (toUPair d.toNat (BitVec.ofNat 64 (s.lqSeen (t.get b.toNat l).toNat)))

/-- R125, R131, R185, R195, R200, R198, R102, R205: NOP changes nothing but the run's place. In the first attempt, where the guard
holds, UWR notes its value for the end of the run, and SIGNAL, TFREE, REGGIVE and, in handler mode, the invalidations note their
effects; a give that would leave fewer than eight registers stops the team. RDFAULT reads an item of the faulted run in each
active lane. -/
def Obligations.DeferredEffects : Prop :=
  ∀ (s : State) (k : Nat) (t : Team) (r : Run), s.HasRun k t r → ∀ (d a b : BitVec 6) (g : Guard),
    let l := r.todo.leader t.nlanes
    let on := t.guardQ g && r.first
    let N := fun (i : Instr) (r' : Run) => Completes i s fun s' =>
      s'.TeamIs k { t with run := some { r' with idx := r.idx + 1 }, stv := 0 } ∧ (s.Unsampled (partOfTeam k) → IssueFrame s s' k)
    let D := fun (i : Instr) (e : Done) => N i (if on then { r with done := r.done ++ [(r.idx, e)] } else r)
    N (.nop g) r ∧
    N (.uwr a b g) (if on then { r with uwrs := r.uwrs ++
      [(a.toNat, if a.toNat ∈ [0x0B, 0x0C, 0x13] then t.get64 b.toNat l else (t.get b.toNat l).setWidth 64)] } else r) ∧
    D (.signal a b g) (.signal (t.get64 a.toNat l) (t.get b.toNat l) l) ∧
    D (.tfree a g) (.tfree a.toNat) ∧
    (8 * (r.given + a.toNat) + 8 ≤ t.alloc → D (.reggive a g) (.reggive a.toNat)) ∧
    (t.alloc < 8 * (r.given + a.toNat) + 8 → on = true → StopsAs (.reggive a g) s k t r) ∧
    (∀ h, t.handler = some h →
      D (.tlbinvVa a g) (.tlbinvVa (t.get64 a.toNat l)) ∧ D (.tlbinvAsid g) .tlbinvAsid ∧
      Completes (.rdfault d a g) s fun s' => (∃ t', s'.TeamIs k t' ∧
        t' = { t with v := t'.v, run := some { r with idx := r.idx + 1 }, stv := 0 } ∧
        ∀ j < t.nlanes, ∀ q, t'.get q j =
          if t.guardQ g && (q == d.toNat && (r.todo &&& ~~~r.aborted).getLsbD j) then faultItem h a.toNat j else t.get q j) ∧
        (s.Unsampled (partOfTeam k) → IssueFrame s s' k))

/-- R185, R200..R202, R205, R252, R253, R274, R276, R312, R332, R377, R403: a once-per-run effect acts at issue, in the first attempt,
where its guard holds: behind an effect that is held, or where its own queue is full, it is held with its operands; else it is
performed, its status goes to its destination and is kept for later attempts. With no effect held and the instruction's one cycle
passed, TBIND, TTAG and TDOM write a tile or answer a status of Table 9.13 (that TBIND gives a size of 0 status 4 is the model's
reading, log entry 37); a post enters its context's queue, and BPOSTW's token
counts it; LAUNCH appends the record it can read; a matrix operation takes the next number, and enters the sequencer where its issue
checks pass; a transform enters its core's queue; NTAIL publishes; MARK writes its record where its tenant samples; and POOLPOP takes
a frame. -/
def Obligations.OnceEffects : Prop :=
  ∀ (s : State) (k : Nat) (t : Team) (r : Run), s.HasRun k t r → ∀ (d a b : BitVec 6) (g : Guard), t.guardQ g = true → r.first = true →
    let l := r.todo.leader t.nlanes
    let s0 := s.uniIssue k t
    let ws : BitVec 6 → Nat → List Word := fun x n => (List.range n).map fun j => t.get (x.toNat + j) l
    let O := fun (i : Instr) (op : OnceOp) (imm reg count : Nat) (ops : List Word) =>
      let h : Held := { pc := r.pc, op := op, imm := imm, ops := ops, reg := reg, count := count, idx := r.idx, inH := t.handler.isSome }
      ((t.held ≠ [] ∨ s0.onceDo k t h = none) → Completes i s fun s' =>
        s'.TeamIs k { t with held := t.held ++ [h], run := some { r with idx := r.idx + 1 }, stv := 0 }) ∧
      (t.held = [] → ∀ s1 v, s0.onceDo k t h = some (s1, v) → Completes i s fun s' => ∃ t' r', s'.TeamIs k t' ∧ t'.run = some r' ∧
        r'.once.find? r.idx = some v ∧ r'.idx = r.idx + 1 ∧
        ∀ j < t.nlanes, ∀ q, t'.get q j =
          if reg ≤ q ∧ q < reg + count then wordOf (natBits v.toNat (32 * (q - reg)) 32) else t.get q j)
    O (.tbind d a b g) .tbind a.toNat d.toNat 1 (ws b 2) ∧ O (.ttag d a b g) .ttag a.toNat d.toNat 1 (ws b 1) ∧
    O (.tdom d a b g) .tdom a.toNat d.toNat 1 (ws b 1) ∧ O (.bpost a b g) .bpost 0 0 0 (ws a 2 ++ ws b 2) ∧
    O (.bpostw d a b g) .bpostw d.toNat 0 0 (ws a 2 ++ ws b 2) ∧ O (.launch d a b g) .launch 0 d.toNat 2 (ws a 2 ++ ws b 1) ∧
    O (.mldb d a b g) .mldb b.toNat d.toNat 1 (ws a 4) ∧ O (.mloop d a g) .mloop 0 d.toNat 1 (ws a 8) ∧
    O (.mzero d a g) .mzero 0 d.toNat 1 [wordOf a.toNat] ∧ O (.mst d a g) .mst 0 d.toNat 1 (ws a 4) ∧
    O (.mld d a g) .mld 0 d.toNat 1 (ws a 4) ∧ O (.mabort d a g) .mabort 0 d.toNat 1 (ws a 1) ∧
    O (.xfwd d a g) .xfwd 0 d.toNat 1 (ws a 8) ∧ O (.xinv d a g) .xinv 0 d.toNat 1 (ws a 8) ∧
    O (.ntail d a b g) .ntail 0 d.toNat 2 (ws a 1 ++ ws b 1) ∧ O (.mark a g) .mark 0 0 0 (ws a 1) ∧
    (t.handler.isSome = true → O (.poolpop d g) .poolpop 0 d.toNat 2 []) ∧
    (t.held = [] →
      let core := t.w / 16
      let own := t.w % 16 + 1
      let wg := s0.wgOf t.w
      let does := fun (i : Instr) (reg count : Nat) (v : DWord) (p : State → Prop) => Completes i s fun s' =>
        (∃ t' r', s'.TeamIs k t' ∧ t'.run = some r' ∧ r'.once.find? r.idx = some v ∧ r'.idx = r.idx + 1 ∧
          ∀ j < t.nlanes, ∀ q, t'.get q j =
            if reg ≤ q ∧ q < reg + count then wordOf (natBits v.toNat (32 * (q - reg)) 32) else t.get q j) ∧ p s'
      let tl := s0.tile core a.toNat
      let tile := fun (i : Instr) (status : Nat) (tl' : Tile) =>
        does i d.toNat 1 (dwordOf status) fun s' => s'.tile core a.toNat = tl'
      let desc := (t.get64 b.toNat l).toNat
      let size := natBits desc 32 22
      let base := natBits desc 0 32
      let region := if natBit desc 63 then lrAcc wg.lr * 16384 else lrScrBytes wg.lr - lrStackBytes wg.lr
      let v := (t.get b.toNat l).toNat
      let mark := fun (i : Instr) (reserved : Bool) (tl' : Tile) =>
        (tl.owner ≠ own → tile i 1 tl) ∧
        (tl.owner = own → (16 ≤ v ∨ reserved = true → tile i 5 tl) ∧
          (v < 16 → reserved = false → (tl.st = 0 ∨ tl.st = 2 → tile i 0 tl') ∧ (tl.st ≠ 0 → tl.st ≠ 2 → tile i 2 tl)))
      let post := fun (i : Instr) (token : Option Nat) =>
        ∀ c z, s0.ctxOfWg t.w = some c → s0.ctxs.find? c = some z → z.posts.length < 16 →
          (∀ j, token = some j → wg.tokens.getD j 0 < 255) → (s0.wgs.find? t.w).isSome →
          does i 0 0 0 fun s' => s'.CtxIs c { z with
              posts := z.posts ++ [{ who := { w := t.w, wgid := wg.wgid, team := t.id wg, ended := false }, x := t.get64 a.toNat l,
                                     y := t.get64 b.toNat l, token := token }]
              pc := if z.halted then 0 else z.pc, halted := false } ∧
            ∀ j, (s'.wgOf t.w).tokens.getD j 0 = wg.tokens.getD j 0 + (if token = some j then 1 else 0)
      let queue := (t.get b.toNat l).toNat
      let num := (wg.lastOp + 1) % 2 ^ 32
      let mat := fun (i : Instr) (op : OnceOp) (arr : Nat) (blk : List Word) =>
        let m : MOp := { num := num, op := op, arr := arr, blk := blk, st := 0, step := 0, flags := 0, shadow := [] }
        let s2 := s0.setWg t.w { wg with lastOp := num }
        s0.seqLoad core < 32 →
          (s2.issueCause t.w m = 0 → does i d.toNat 1 (dwordOf num) fun s' =>
            (s'.wgOf t.w).lastOp = num ∧ (s'.wgOf t.w).mops = wg.mops ++ [m] ∧ s'.mem = s0.mem) ∧
          (s2.issueCause t.w m ≠ 0 → does i d.toNat 1 (dwordOf num) fun s' =>
            (s'.wgOf t.w).lastOp = num ∧ natBit (s'.wgOf t.w).mstat.toNat 8 = true)
      let xfm := fun (i : Instr) (inv : Bool) =>
        let x : XOp := { w := t.w, inv := inv, blk := ws a 8, started := false, vec := 0, old := [] }
        let q := s0.xq.getD core []
        q.length < 8 → does i d.toNat 1 (dwordOf (s0.xfmStatus x)) fun s' => s'.mem = s0.mem ∧
          (s0.xfmStatus x = 0 → s'.xq.getD core [] = q ++ [x] ∧ s'.tile core x.dst = { s0.tile core x.dst with st := 1 }) ∧
          (s0.xfmStatus x ≠ 0 → s'.xq = s0.xq ∧ s'.tiles = s0.tiles)
      let ch := (t.get a.toNat l).toNat % 4096
      let n := (t.get b.toNat l).toNat % 512
      let pub := s0.reg (oNcpub ch)
      let may := s0.ncTenant ch = wg.ten ∧ s0.ncAsid ch = wg.asid ∧ s0.ncRun ch = true ∧ 0 < n ∧ n ≤ 256 ∧ pub + n ≤ 4096 + s0.ncSeq ch
      let ctl := s0.reg (oSmpctl (partOfTeam k / 8))
      let pool := (s0.tenant wg.ten).pool
      ((tl.owner ≠ 0 → tl.owner ≠ own → tile (.tbind d a b g) 1 tl) ∧
        (tl.owner = 0 ∨ tl.owner = own →
          (natBits desc 54 9 ≠ 0 → tile (.tbind d a b g) 5 tl) ∧
          (natBits desc 54 9 = 0 →
            (tl.owner = own → tl.st ≠ 0 → tile (.tbind d a b g) 2 tl) ∧
            (tl.owner = 0 ∨ tl.st = 0 →
              (size % 64 ≠ 0 ∨ size = 0 ∨ base % 64 ≠ 0 → tile (.tbind d a b g) 4 tl) ∧
              (size % 64 = 0 → size ≠ 0 → base % 64 = 0 →
                (region < base + size → tile (.tbind d a b g) 3 tl) ∧
                (base + size ≤ region → tile (.tbind d a b g) 0
                  { Tile.empty with owner := own, acc := natBit desc 63, base := base, size := size })))))) ∧
      mark (.ttag d a b g) (decide (v = 15)) { tl with fmt := v } ∧ mark (.tdom d a b g) (decide (4 < v % 8 ∨ v = 8)) { tl with dom := v } ∧
      post (.bpost a b g) none ∧ post (.bpostw d a b g) (some d.toNat) ∧
      ((256 ≤ queue ∨ s0.lqTenant queue ≠ wg.ten ∨ s0.lqProd queue = false ∨ s0.lqRun queue = false ∨
          s0.lqPrefix queue + s0.lqSlots queue ≤ s0.lqCount queue) →
        does (.launch d a b g) d.toNat 2 0 fun s' => ∀ q, s'.lqCount q = s0.lqCount q) ∧
      (∀ s1, queue < 256 → s0.lqTenant queue = wg.ten → s0.lqProd queue = true → s0.lqRun queue = true →
        s0.lqCount queue < s0.lqPrefix queue + s0.lqSlots queue →
        s0.copyRecord queue (s0.lqCount queue + 1) wg.asid (t.get64 a.toNat l).toNat = some s1 →
        does (.launch d a b g) d.toNat 2 (dwordOf (s0.lqCount queue + 1)) fun s' =>
          s'.lqCount queue = s0.lqCount queue + 1 ∧ s'.mem = s1.mem) ∧
      mat (.mldb d a b g) .mldb b.toNat (ws a 4) ∧ mat (.mloop d a g) .mloop 0 (ws a 8) ∧
      mat (.mzero d a g) .mzero 0 [wordOf a.toNat] ∧ mat (.mst d a g) .mst 0 (ws a 4) ∧ mat (.mld d a g) .mld 0 (ws a 4) ∧
      (let from' := (t.get a.toNat l).toNat
        let gone := fun (m : MOp) => decide ((m.num + 2 ^ 32 - from') % 2 ^ 32 < 2 ^ 31)
        does (.mabort d a g) d.toNat 1 (dwordOf (wg.mops.filter gone).length) fun s' =>
          (s'.wgOf t.w).mops = wg.mops.filter fun m => !gone m) ∧
      xfm (.xfwd d a g) false ∧ xfm (.xinv d a g) true ∧
      (may → does (.ntail d a b g) d.toNat 2 (dwordOf (pub + n)) fun s' => s'.reg (oNcpub ch) = pub + n ∧ s'.mem = s0.mem) ∧
      (¬ may → does (.ntail d a b g) d.toNat 2 0 fun s' => s'.reg (oNcpub ch) = pub ∧ s'.mem = s0.mem) ∧
      (natBit ctl 0 = false ∨ natBits ctl 32 4 ≠ wg.ten → does (.mark a g) 0 0 0 fun s' => s'.mem = s0.mem) ∧
      (natBit ctl 0 = true → natBits ctl 32 4 = wg.ten → does (.mark a g) 0 0 0 fun s' => s'.mem =
        (s0.samplePut (partOfTeam k / 8) (partOfTeam k) fun n => sampleRec n (natBits r.pc.toNat 2 32) 31 (partOfTeam k % 8) (k % 16)
          ((t.get a.toNat l).toNat % 2 ^ 20)).mem) ∧
      (t.handler.isSome = true →
        (pool = [] → does (.poolpop d g) d.toNat 2 0 fun s' => s'.mem = s0.mem) ∧
        (pool ≠ [] → ∃ f ∈ pool, does (.poolpop d g) d.toNat 2 (dwordOf f) fun s' => (s'.tenant wg.ten).pool = pool.erase f ∧ s'.mem = s0.mem)))

/-! ### The end of a run and its terminals (R29, R79..R83, R129..R139, R144..R146, R192..R206) -/

/-- R79, R81, R83, R125: an attempt in which every lane completes, with no effect left to perform, ends the run's body: the lanes of
the entry mask are active, the recorded stores have entered the team's buffer lane by lane, flags accumulate in FLAGS, and the
trailer's hints stand for the next run; registers stand as the lanes left them until the terminal has acted, and the temporaries v56
and above are gone, and read 0 (log entry 44), when the team leaves the run. The buffer is the model's form of R45 (log entry 11). -/
def Obligations.RunBodyEnds : Prop :=
  ∀ (s : State) (k : Nat) (t : Team) (r : Run), s.HasRun k t r → r.bodyDone = false → r.left = 0 → r.done = [] → r.termLeft = none →
    let sts := (List.range t.nlanes).flatMap fun l => (r.sdb ++ r.stores.filter fun st => r.acting.getLsbD st.lane).filter fun st => st.lane == l
    (∀ st ∈ sts, s.inStack st.at' = false) →
    ∃ s1 t1 r1, s.BodyDone k t r false s1 t1 r1 ∧
      t1.pc = t.pc ∧ t1.active = r.entry ∧ t1.mstack = t.mstack ∧ t1.rstack = t.rstack ∧ t1.pend = t.pend ∧ t1.p = t.p ∧ t1.alloc = t.alloc ∧
      t1.kmask = bits r.trailer 5 8 ∧ t1.yielded = r.trailer.getLsbD 0 ∧ t1.marked = r.trailer.getLsbD 1 ∧
      t1.sbuf = t.sbuf ++ sts.map (fun st => { st with group := none, ix := 0 }) ∧
      (∀ n l, t1.get n l = t.get n l) ∧
      (bits r.trailer 19 6 = 63 → bits r.trailer 13 6 = 63 → t.pend.length ≤ 8 → ∀ pc now, (t1.ended pc now).pend = t.pend ∧
        ∀ n l, (t1.ended pc now).get n l = if n < 56 then t.get n l else 0) ∧
      (r.uwrs = [] → t1.flags = t.flags ||| (r.acting.lanes t.nlanes).foldl (fun f l => f ||| r.laneFlags.getD l 0) r.flags) ∧
      r1.bodyDone = true ∧ r1.todo = r.entry ∧ r1.words = r.words ∧ r1.pc = r.pc ∧ r1.idx = r.idx

/-- R129, R130, R131, R196, R199, R371: once the run's body is done, a branch, a call, a return, a yield or a breakpoint goes on
where it says; with its guard false every one of these terminals, and every wait, goes on behind the trailer. A call at depth 16
and a return at depth 0 stop the team at themselves, and so does TRAP. -/
def Obligations.BranchTerminals : Prop :=
  ∀ (s : State) (k : Nat) (t t1 : Team) (r r1 : Run) (s1 : State), s.HasRun k t r → s.BodyDone k t r false s1 t1 r1 →
    ∀ (kq : BitVec 3) (d a b : BitVec 6) (dp : BitVec 21) (g : Guard),
    let jump := dwordOf r1.here + dp.signExtend 64 * 4
    let now := s1.readySince k t1
    let reg := t1.get64 a.toNat (r1.todo.leader t1.nlanes) &&& ~~~3
    (t1.guardQ g = false → ∀ i ∈ [Instr.bra g dp, .call g dp, .ret g, .jmpr a g, .callr a g, .yield g, .trap a g, .exit g, .barWg g,
        .barReel g, .backoff kq a g, .regclaim a g, .waitv d a b g, .kwait a g, .nwait a b g, .lwait a b g, .eret g, .eretEsc g,
        .brk a g], EndsFrom i s s1 k (t1.ended r1.nextPc now)) ∧
    (t1.guardQ g = true →
      EndsFrom (.bra g dp) s s1 k (t1.ended jump now) ∧ EndsFrom (.jmpr a g) s s1 k (t1.ended reg now) ∧
      EndsFrom (.yield g) s s1 k (t1.ended r1.nextPc now) ∧ EndsFrom (.brk a g) s s1 k (t1.ended r1.nextPc now) ∧
      (t1.rstack.length < 16 →
        EndsFrom (.call g dp) s s1 k ({ t1 with rstack := r1.nextPc :: t1.rstack }.ended jump now) ∧
        EndsFrom (.callr a g) s s1 k ({ t1 with rstack := r1.nextPc :: t1.rstack }.ended reg now)) ∧
      (16 ≤ t1.rstack.length → StopsAs (.call g dp) s k t1 r1 ∧ StopsAs (.callr a g) s k t1 r1) ∧
      (∀ pc st, t1.rstack = pc :: st → EndsFrom (.ret g) s s1 k ({ t1 with rstack := st }.ended pc now)) ∧
      (t1.rstack = [] → StopsAs (.ret g) s k t1 r1) ∧ StopsAs (.trap a g) s k t1 r1)

/-- R133..R139: the divergence terminals over the entry mask and the mask stack; at depth 32, at depth 0 and at an entry of the
other kind they stop the team at themselves. -/
def Obligations.DivergenceTerminals : Prop :=
  ∀ (s : State) (k : Nat) (t t1 : Team) (r r1 : Run) (s1 : State), s.HasRun k t r → s.BodyDone k t r false s1 t1 r1 →
    ∀ (dp : BitVec 21) (p : Guard) (m : Mask),
    (∀ l < 1024, m.getLsbD l = (decide (l < t1.nlanes) && r1.entry.getLsbD l && (p.g == 0 || t1.pred p.g.toNat l != p.n))) →
    let jump := dwordOf r1.here + dp.signExtend 64 * 4
    let now := s1.readySince k t1
    let E := fun (i : Instr) (active : Mask) (st : List StackEntry) (pc : DWord) =>
      EndsFrom i s s1 k ({ t1 with active := active, mstack := st }.ended pc now)
    let branch : StackEntry := { loop := false, mask := r1.entry, wait := r1.entry &&& ~~~m, start := 0 }
    let loop : StackEntry := { loop := true, mask := r1.entry, wait := 0, start := r1.nextPc }
    (t1.mstack.length < 32 →
      (m ≠ 0 → E (.divif p dp) m (branch :: t1.mstack) r1.nextPc) ∧
      (m = 0 → E (.divif p dp) (r1.entry &&& ~~~m) ({ branch with wait := 0 } :: t1.mstack) jump)) ∧
    (32 ≤ t1.mstack.length → StopsAs (.divif p dp) s k t1 r1) ∧
    (t1.mstack = [] → StopsAs (.divelse dp) s k t1 r1 ∧ StopsAs .divjoin s k t1 r1 ∧ StopsAs (.divbrk p dp) s k t1 r1 ∧
      (m ≠ 0 → E (.divloop p dp) m [loop] r1.nextPc) ∧ (m = 0 → E (.divloop p dp) r1.entry [] jump)) ∧
    (∀ e st, t1.mstack = e :: st →
      (e.loop = false → StopsAs (.divbrk p dp) s k t1 r1 ∧ E .divjoin e.mask st r1.nextPc ∧
        (e.wait ≠ 0 → E (.divelse dp) e.wait ({ e with wait := 0 } :: st) r1.nextPc) ∧
        (e.wait = 0 → EndsFrom (.divelse dp) s s1 k (t1.ended jump now))) ∧
      (e.loop = true → StopsAs (.divelse dp) s k t1 r1 ∧ StopsAs .divjoin s k t1 r1 ∧
        (m = r1.entry → E (.divbrk p dp) e.mask st jump) ∧
        (m ≠ r1.entry → E (.divbrk p dp) (r1.entry &&& ~~~m) t1.mstack r1.nextPc)) ∧
      (e.loop = true → e.start = r1.nextPc →
        (m ≠ 0 → E (.divloop p dp) m (e :: st) r1.nextPc) ∧ (m = 0 → E (.divloop p dp) e.mask st jump)) ∧
      (e.loop = false ∨ e.start ≠ r1.nextPc →
        (t1.mstack.length < 32 → (m ≠ 0 → E (.divloop p dp) m (loop :: t1.mstack) r1.nextPc) ∧
          (m = 0 → E (.divloop p dp) r1.entry t1.mstack jump)) ∧
        (32 ≤ t1.mstack.length → StopsAs (.divloop p dp) s k t1 r1)))

/-- R194, R220: a team at a barrier has made its stores visible; it waits while another team of the workgroup, or of the reel, has
not arrived, and goes on with all of them when it is the last. EXIT frees the team's slot and credits its registers; with the
mask stack not empty it stops the team instead, and it waits for the team's held effects (R403). That EXIT waits for held
effects is the model's reading of R403 (log entry 35), and that it ends a team in handler mode too is its choice (log entry 52). -/
def Obligations.BarriersAndExit : Prop :=
  ∀ (s : State) (k : Nat) (t t1 t2 : Team) (r r1 : Run) (s1 : State), s.HasRun k t r → s.BodyDone k t r false s1 t1 r1 →
    ∀ (g : Guard), t1.guardQ g = true →
    let s2 := s1.drainAll k
    (s2.TeamIs k t2 → t2.run = some r1 → s2.teams.rising = true → (s2.wgs.find? t2.w).isSome →
      (t2.sbuf = []) ∧
      ((∃ x ∈ s2.teams, x.1 ≠ k ∧ x.2.w = t2.w ∧ x.2.status ≠ .waiting 4) → WaitsAs (.barWg g) s k t2 4) ∧
      ((∀ x ∈ s2.teams, x.1 ≠ k → x.2.w = t2.w → x.2.status = .waiting 4) →
        Completes (.barWg g) s fun s' => s'.TeamIs k (t2.ended r1.nextPc s1.tick) ∧
          ∀ j t' r', s2.TeamIs j t' → j ≠ k → t'.w = t2.w → t'.run = some r' → s'.TeamIs j (t'.ended r'.nextPc s1.tick)) ∧
      ((∃ x ∈ s2.teams, x.1 ≠ k ∧ x.2.w ∈ s2.reelOf t2.w ∧ x.2.status ≠ .waiting 5) → WaitsAs (.barReel g) s k t2 5) ∧
      ((∀ x ∈ s2.teams, x.1 ≠ k → x.2.w ∈ s2.reelOf t2.w → x.2.status = .waiting 5) →
        Completes (.barReel g) s fun s' => s'.TeamIs k (t2.ended r1.nextPc s1.tick) ∧
          ∀ j t' r', s2.TeamIs j t' → j ≠ k → t'.w ∈ s2.reelOf t2.w → t'.run = some r' → s'.TeamIs j (t'.ended r'.nextPc s1.tick))) ∧
    (t1.mstack ≠ [] → StopsAs (.exit g) s k t1 r1) ∧
    (t1.mstack = [] → t1.held ≠ [] → WaitsAs (.exit g) s k t1 13) ∧
    (t1.mstack = [] → t1.held = [] → Completes (.exit g) s fun s' =>
      s'.teams.find? k = none ∧ (s'.part (partOfTeam k)).issuing ≠ some k ∧
      (s'.wgOf t1.w).teamsLeft = (s1.wgOf t1.w).teamsLeft - 1 ∧
      ((s1.wgOf t1.w).claims = [] → (s'.wgOf t1.w).account = (s1.wgOf t1.w).account + t1.alloc / 8 * (t1.nlanes / 8)))

/-- R197, R198, R201, R213, R214, R221, R334: BACKOFF raises or clears its level and holds the team 32 cycles a level; REGCLAIM gets
registers when the account holds them and no claim stands before it; KWAIT, NWAIT and LWAIT wait while what they name has not
come, and a wait on the own queue at or above the own position stops the team. -/
def Obligations.WaitTerminals : Prop :=
  ∀ (s : State) (k : Nat) (t t1 : Team) (r r1 : Run) (s1 : State), s.HasRun k t r → s.BodyDone k t r false s1 t1 r1 →
    ∀ (kq : BitVec 3) (a b : BitVec 6) (g : Guard), t1.guardQ g = true →
    let l := r1.todo.leader t1.nlanes
    let x := t1.get a.toNat l
    let y := (t1.get b.toNat l).toNat
    let wg := s1.wgOf t1.w
    let now := s1.readySince k t1
    let go := fun (i : Instr) => EndsFrom i s s1 k (t1.ended r1.nextPc now)
    let lvl := min (t1.boff.toNat + 1) 31
    let all := maskOf t1.nlanes (fun j => r1.entry.getLsbD j && (a.setWidth 3 == (0 : BitVec 3) || t1.pred (a.toNat % 8) j)) == r1.entry
    (all = true → EndsFrom (.backoff kq a g) s s1 k ({ t1.putQ kq.toNat true with boff := 0 }.ended r1.nextPc now)) ∧
    (all = false → EndsFrom (.backoff kq a g) s s1 k { ({ t1.putQ kq.toNat false with boff := BitVec.ofNat 32 lvl }.ended r1.nextPc now) with
      status := .backoff, hold := ((s1.part (partOfTeam k)).pcyc + 32 * lvl) % 2 ^ 64 }) ∧
    (56 < t1.alloc + 8 * a.toNat → StopsAs (.regclaim a g) s k t1 r1) ∧
    (t1.alloc + 8 * a.toNat ≤ 56 → 8 ≤ t1.nlanes →
      (wg.claims = [] → a.toNat * (t1.nlanes / 8) ≤ wg.account → Completes (.regclaim a g) s fun s' =>
        s'.TeamIs k ({ t1 with alloc := t1.alloc + 8 * a.toNat }.ended r1.nextPc s1.tick) ∧
        (s'.wgOf t1.w).account = wg.account - a.toNat * (t1.nlanes / 8) ∧ (s'.wgOf t1.w).claims = []) ∧
      (wg.claims = [] → wg.account < a.toNat * (t1.nlanes / 8) → WaitsAs (.regclaim a g) s k t1 12) ∧
      (∀ c cs, wg.claims = c :: cs → wg.account < c.2 → WaitsAs (.regclaim a g) s k t1 12)) ∧
    ((∃ j < 8, x.toNat / 2 ^ j % 2 = 1 ∧ wg.tokens.getD j 0 ≠ 0) → WaitsFrom (.kwait a g) s s1 k t1 7) ∧
    ((∀ j < 8, x.toNat / 2 ^ j % 2 = 1 → wg.tokens.getD j 0 = 0) → go (.kwait a g)) ∧
    (s1.chainSeq wg.ten (y % 4096) < (t1.get64 a.toNat l).toNat → WaitsFrom (.nwait a b g) s s1 k t1 9) ∧
    ((t1.get64 a.toNat l).toNat ≤ s1.chainSeq wg.ten (y % 4096) → go (.nwait a b g)) ∧
    (y = wg.q → wg.pos ≤ (t1.get64 a.toNat l).toNat → StopsAs (.lwait a b g) s k t1 r1) ∧
    ((y ≠ wg.q ∨ (t1.get64 a.toNat l).toNat < wg.pos) →
      (s1.lqSeen y < (t1.get64 a.toNat l).toNat → WaitsFrom (.lwait a b g) s s1 k t1 10) ∧
      ((t1.get64 a.toNat l).toNat ≤ s1.lqSeen y → go (.lwait a b g)))

/-- R195, R212, R214: WAITV goes on when the word it names meets its condition, or has met it at a write to its block since it last
looked, and waits, watching the block, while it does not; buffered stores of other lanes that it reads are noted (R57). The word may lie
in the shared window, in a segment of the cluster window, or in global memory. A misaligned address, one of the local window, of a
dead segment or beyond 48 bits, a poisoned word, and a global word in a launch without PROGW's WHOLE stop the team; a translation
fault of another cause waits for the Stoker. The order of the checks is the model's choice (log entry 60). -/
def Obligations.ValueWaits : Prop :=
  ∀ (s : State) (k : Nat) (t t1 : Team) (r r1 : Run) (s1 : State), s.HasRun k t r → s.BodyDone k t r false s1 t1 r1 →
    ∀ (d a b : BitVec 6) (g : Guard), t1.guardQ g = true →
    let l := r1.todo.leader t1.nlanes
    let ea := (t1.get64 a.toNat l).toNat
    let v := t1.get b.toNat l
    let wg := s1.wgOf t1.w
    let i := Instr.waitv d a b g
    let holds : Word → Prop := fun w => (d.toNat = 0 ∧ w = v) ∨ (d.toNat = 1 ∧ w ≠ v) ∨ (d.toNat = 2 ∧ v.toNat ≤ w.toNat) ∨
      (d.toNat = 3 ∧ v.toInt ≤ w.toInt)
    let L := fun (s2 : State) (p : Place) => d.toNat < 4 → ∀ w, w = BitVec.ofNat 32 (leNat (s2.laneBytes t1 r1 t1.nlanes p 4)) →
      let t2 := { t1 with sbuf := t1.sbuf.map fun st => if s2.overlaps st p 4 then st.readBy l else st }
      (holds w → EndsAs i s k (t2.ended r1.nextPc (s2.readySince k t1))) ∧
      (¬ holds w → EndsAs i s k { t2 with status := .waiting 6, run := some { r1 with watch := some (p, ea, d.toNat, v) } })
    (r1.met = true → EndsFrom i s s1 k (t1.ended r1.nextPc (s1.readySince k t1))) ∧ (r1.met = false →
    (spaceOf wg.lr ea = 1 ∨ spaceOf wg.lr ea = 4 → StopsAs i s k t1 r1) ∧
    (spaceOf wg.lr ea = 0 → lrWhole wg.lr = false → StopsAs i s k t1 r1) ∧
    (ea % 4 ≠ 0 → StopsAs i s k t1 r1) ∧
    (ea % 4 = 0 → spaceOf wg.lr ea = 2 →
      (wg.pscr.has ((ea - lrShBase wg.lr) / 64) = true → StopsAs i s k t1 r1) ∧
      (wg.pscr.has ((ea - lrShBase wg.lr) / 64) = false → L s1 (.scr t1.w (ea - lrShBase wg.lr)))) ∧
    (ea % 4 = 0 → spaceOf wg.lr ea = 3 →
      match s1.segmentWg t1.w ((ea - lrClBase wg.lr) / lrSegment wg.lr) with
      | none => StopsAs i s k t1 r1
      | some w =>
        let o := (ea - lrClBase wg.lr) % lrSegment wg.lr
        ((s1.wgOf w).pscr.has (o / 64) = true → StopsAs i s k t1 r1) ∧ ((s1.wgOf w).pscr.has (o / 64) = false → L s1 (.scr w o))) ∧
    (ea % 4 = 0 → spaceOf wg.lr ea = 0 → lrWhole wg.lr = true →
      match s1.reachGlobal (rcvOfCore (k / 128)) wg.asid ea .load with
      | (s2, .at' p _) =>
        (s2.placeBad p wg.ktag = true → StopsAs i s k t1 r1) ∧ (s2.placeBad p wg.ktag = false → L s2 p)
      | (_, .cause c) => (c = 4 → StopsAs i s k t1 r1) ∧ (c ≠ 4 → WaitsAs i s k t1 14)))

/-- R261, R46, R51, R59, R61, R65, R192: MWAIT waits until the operation named is reached; then MSTAT goes to d and is cleared, and its
flags join the run's. FENCE with a release half on path T beyond the team makes the buffered stores of its colours, and those that another lane of the team
has read (R57), visible before the team goes on; at system scope it waits while a peer owes an acknowledgement for a store of its
colours or for engine writes on a path it names, and, where it names H, while a host owes a line that such a write waits for. That an acquire half changes nothing is the model's
choice (log entry 11), and so is which engine writes of the tenant a fence waits for (log entry 50). -/
def Obligations.MatrixWaitAndFence : Prop :=
  ∀ (s : State) (k : Nat) (t t1 : Team) (r r1 : Run) (s1 : State), s.HasRun k t r → s1.TeamIs k t1 → t1.run = some r1 →
    (s.BodyDone k t r true s1 t1 r1 → ∀ (d a : BitVec 6) (g : Guard),
      let x := (t1.get a.toNat (r1.todo.leader t1.nlanes)).toNat
      let wg := s1.wgOf t1.w
      let behind := (x + 2 ^ 32 - wg.donePfx) % 2 ^ 32
      (t1.guardQ g = true → x ≠ 0 → behind ≠ 0 → behind < 2 ^ 31 → WaitsAs (.mwait d a g) s k t1 8) ∧
      (t1.guardQ g = true → (x = 0 ∨ behind = 0 ∨ 2 ^ 31 ≤ behind) → Completes (.mwait d a g) s fun s' => ∃ t', s'.TeamIs k t' ∧
        t'.pc = r1.nextPc ∧ t'.run = none ∧ t'.status = .ready ∧ (s'.wgOf t1.w).mstat = 0 ∧
        (bits r1.trailer 19 6 = 63 → bits r1.trailer 13 6 = 63 → t1.pend.length ≤ 8 → d.toNat < 56 →
          ∀ j < t1.nlanes, ∀ q < 56, t'.get q j = if q = d.toNat then wg.mstat else t1.get q j) ∧
        (r1.uwrs = [] → t'.flags = t1.flags ||| (r1.flags ||| (wg.mstat &&& 0x3F)))) ∧
      (t1.guardQ g = false → r1.uwrs = [] → Completes (.mwait d a g) s fun s' => ∃ t', s'.TeamIs k t' ∧
        t'.pc = r1.nextPc ∧ t'.run = none ∧ t'.flags = t1.flags ||| r1.flags)) ∧
    (∀ (c : BitVec 8) (sr : BitVec 3) (kd : BitVec 2) (la : BitVec 6),
      let rel := kd != 0 && la.getLsbD 0 && decide (2 ≤ sr.toNat)
      let ten := (s1.wgOf t1.w).ten
      let publish : State → State × Bool := fun s =>
        let s := if rel then (s.drain k fun st => c.getLsbD st.col || st.carried).markRun k else s
        (s, rel && sr == 6 && (s.teams.find? k).any fun t => s.stillWaits k t 16)
      let owed := t1.peerOut.any (fun n => decide (8 ≤ n) || c.getLsbD n) || [1, 2, 3, 4].any (fun p => la.getLsbD p && s1.engOut.getD (p * 16 + ten % 16) 0 != 0) ||
        la.getLsbD 5 && s1.biWait.any fun b => decide (b.num < r1.mark.getD 0) &&
          (if b.by'.team = some k then c.getLsbD b.by'.col || b.by'.carried else b.ten == some ten && decide (b.by'.path ≤ 4) && la.getLsbD b.by'.path)
      (if r.bodyDone || r.termLeft.isSome then s else s.uniIssue k t).bodyEnd k t r false noTerm publish = (s1, true) →
      encode (.fence c sr kd la) = some (r1.words.getLastD 0) →
      (r.bodyDone = false → r.termLeft = none → r.acting ≠ 0 → r.done = [] → rel = true →
        ∀ st ∈ t1.sbuf, c.getLsbD st.col = false ∧ st.carried = false) ∧
      ((rel && sr == 6 && owed) = true → WaitsAs (.fence c sr kd la) s k t1 16) ∧
      ((rel && sr == 6 && owed) = false → EndsAs (.fence c sr kd la) s k (t1.ended r1.nextPc (s1.readySince k t1))))

/-- R144, R145, R146: a rendezvous waits at its slot while no partner of the other direction does; with one of its own width each
lane of the receiver's entry mask takes the sender's register as its run left it, 0 above the sender's lanes, and both go on; with one
of the other width both stop. -/
def Obligations.RendezvousResults : Prop :=
  ∀ (s : State) (k : Nat) (t t1 : Team) (r r1 : Run) (s1 : State), s.HasRun k t r →
    (if r.bodyDone then s else s.laneIssue k t r Guard.always).bodyEnd k t r false noTerm noAtt = (s1, true) → s1.TeamIs k t1 →
    t1.run = some r1 → ∀ (slot reg : BitVec 6),
    let q := (s1.wgOf t1.w).rdv.getD slot.toNat []
    let moved : Team → Team → Run → Nat → Nat → Nat → Nat → Word := fun src dst rd from' to' n j =>
      if rd.entry.getLsbD j && decide (n = to') then (if j < src.nlanes then src.get from' j else 0) else dst.get n j
    let R := fun (i : Instr) (send wide : Bool) =>
      ((∀ x ∈ q, x.send = send) → Completes i s fun s' => s'.TeamIs k { t1 with status := .waiting 11 } ∧
        (s'.wgOf t1.w).rdv.getD slot.toNat [] = q ++ [{ k := k, send := send, wide := wide, reg := reg.toNat }]) ∧
      (∀ x tx rx, q.find? (fun x => x.send != send) = some x → x.k ≠ k → s1.TeamIs x.k tx → tx.run = some rx →
        (x.wide ≠ wide → (∀ c ∈ (s1.wgOf t1.w).claims ++ (s1.wgOf tx.w).claims, c.1 ≠ k ∧ c.1 ≠ x.k) → Completes i s fun s' =>
          s'.TeamIs k { t1 with pc := dwordOf r1.here, status := .stopped, run := none, base := some r1.pc } ∧
          s'.TeamIs x.k { tx with pc := dwordOf rx.here, status := .stopped, run := none, base := some rx.pc }) ∧
        (x.wide = wide → Completes i s fun s' => ∃ t2 tx2 : Team, t2 = { t1 with v := t2.v } ∧ tx2 = { tx with v := tx2.v } ∧
          s'.TeamIs k (t2.ended r1.nextPc (s1.readySince k t1)) ∧ s'.TeamIs x.k (tx2.ended rx.nextPc s1.tick) ∧
          (send = true → t2.v = t1.v ∧ ∀ j < tx.nlanes, ∀ n, n ≠ x.reg + 1 → tx2.get n j = moved t1 tx rx reg.toNat x.reg n j) ∧
          (send = false → tx2.v = tx.v ∧ ∀ j < t1.nlanes, ∀ n, n ≠ reg.toNat + 1 → t2.get n j = moved tx t1 r1 x.reg reg.toNat n j) ∧
          (send = true → ∀ j < tx.nlanes, tx2.get (x.reg + 1) j =
            if wide then moved t1 tx rx (reg.toNat + 1) (x.reg + 1) (x.reg + 1) j else tx.get (x.reg + 1) j) ∧
          (send = false → ∀ j < t1.nlanes, t2.get (reg.toNat + 1) j =
            if wide then moved tx t1 r1 (x.reg + 1) (reg.toNat + 1) (reg.toNat + 1) j else t1.get (reg.toNat + 1) j)))
    R (.xsend slot reg) true false ∧ R (.xrecv reg slot) false false ∧ R (.xsend64 slot reg) true true ∧
    R (.xrecv64 reg slot) false true

/-- R206: the return from the supervisor handler restores the predicates, v48..v55 of the registers that the team still holds, FLAGS and the
faulted lanes, leaves v0..v47 as the handler left them (where no load lands at the end of its run), and the faulted run is tried again, or its faults go to the Stoker; at another
mask-stack depth the return stops the team. -/
def Obligations.HandlerReturn : Prop :=
  ∀ (s : State) (k : Nat) (t t1 : Team) (r r1 : Run) (s1 : State), s.HasRun k t r → s.BodyDone k t r false s1 t1 r1 →
    ∀ (g : Guard) (h : Handler), t1.guardQ g = true → t1.handler = some h →
    let restored := fun (t' : Team) => t'.handler = none ∧ t'.pc = h.run.pc ∧ t'.active = h.faulted ∧ t'.p = h.p ∧ t'.q = h.q ∧
      t'.flags = h.flags ∧
      (bits r1.trailer 19 6 = 63 → bits r1.trailer 13 6 = 63 → t1.pend.length ≤ 8 →
        (∀ n, 48 ≤ n → n < 56 → ∀ l, t'.get n l = if n < t1.alloc then ((h.v48.find? n).getD []).getD l 0 else 0) ∧
        ∀ n < 48, ∀ l, t'.get n l = t1.get n l)
    (t1.mstack.length ≠ h.depth → StopsAs (.eret g) s k t1 r1 ∧ StopsAs (.eretEsc g) s k t1 r1) ∧
    (t1.mstack.length = h.depth →
      (Completes (.eret g) s fun s' => ∃ t', s'.TeamIs k t' ∧ restored t' ∧ t'.run = some h.run ∧ t'.status = .ready) ∧
      (Completes (.eretEsc g) s fun s' => ∃ t', s'.TeamIs k t' ∧ restored t' ∧
        t'.run = some { h.run with esc := some (dwordOf r1.here, r1.pc) } ∧ t'.status = .waiting 14))

/-- R80, R204: an attempt that ends with faulted lanes enters the supervisor handler with them: the faulted mask, v48..v55, the uniform
and the lane predicates, FLAGS and the mask-stack depth are saved with the run, which restarts in those lanes only, and the program counter is the
launch's handler address. In the handler, or without one, the team waits for the Stoker. -/
def Obligations.HandlerEntry : Prop :=
  ∀ (s : State) (k : Nat) (t : Team) (r : Run), s.TeamIs k t → t.run = some r → (s.part (partOfTeam k)).issuing = some k →
    r.words.length ≤ r.idx → r.bodyDone = false → r.left ≠ 0 →
    (t.handler = none → lrHandler (s.wgOf t.w).lr ≠ 0 → Completes (.runAttemptEnd k) s fun s' => ∃ t' h, s'.TeamIs k t' ∧
      t'.handler = some h ∧ t'.active = r.left ∧ t'.pc = BitVec.ofNat 64 (lrHandler (s.wgOf t.w).lr) ∧ t'.run = none ∧
      t'.status = .ready ∧ t'.kmask = 0 ∧ t'.q = t.q ∧ t'.mstack = t.mstack ∧
      h.faulted = r.left ∧ h.q = t.q ∧ h.p = t'.p ∧ h.flags = t.flags ∧ h.depth = t.mstack.length ∧
      (∀ n, 48 ≤ n → n < 56 → h.v48.find? n = t'.v.find? n) ∧
      (∀ l < t.nlanes, l < 1024 → ∀ n, (r.left.getLsbD l = false ∨ n ∉ r.writesP) → t'.pred n l = t.pred n l) ∧
      h.run.pc = r.pc ∧ h.run.todo = r.left ∧ h.run.entry = r.entry ∧ h.run.idx = 0 ∧ h.run.first = false ∧ h.run.aborted = 0 ∧
      (∀ l < t.nlanes, ∀ n, (r.left.getLsbD l = false ∨ n ∉ r.writes) → t'.get n l = t.get n l)) ∧
    (t.handler.isSome ∨ lrHandler (s.wgOf t.w).lr = 0 → Completes (.runAttemptEnd k) s fun s' => ∃ t' r', s'.TeamIs k t' ∧
      t'.status = .waiting 14 ∧ t'.pc = t.pc ∧ t'.run = some r' ∧ r'.todo = r.left ∧ r'.idx = 0 ∧ r'.first = false)

/-- R29, R32, R139, R145, R195, R206, R213, R214, R221, R390: a team that a terminal stops writes one record, with the tenant, the ASID, the
address, the category and code of the stop and its detail, and %team: TRAP, a call or return and a divergence terminal at a wrong depth
or kind of entry, EXIT with the mask stack not empty, a REGCLAIM too large, a return from the handler outside it or at another depth, an
LWAIT on the own position, and a WAITV on a word that it may not or cannot read; two partners of a rendezvous of two widths write one each.
Here the tenant's event ring and core dumps are off and the collector has room. The order of WAITV's checks, of which each clause meets one
alone, and of the partners' records are the model's choice (log entries 60 and 35). -/
def Obligations.StopRecords : Prop :=
  (∀ (s : State) (k : Nat) (t t1 : Team) (r r1 : Run) (s1 : State), s.HasRun k t r → s.BodyDone k t r false s1 t1 r1 →
    let wg := s1.wgOf t1.w
    s1.records.length < 4096 → ringBase (s1.reg (oEvbase wg.ten)) = 0 → natBit (s1.reg (oDumpbase wg.ten)) 0 = false → wg.ten < 16 →
    ∀ (a b d : BitVec 6) (dp : BitVec 21) (g p : Guard), t1.guardQ g = true →
    let l := r1.todo.leader t1.nlanes
    let here := (dwordOf r1.here).toNat
    let record := fun (i : Instr) (e : Err) => Completes i s fun s' => s'.records = s1.records ++
      [recordOf (srcPart (partOfTeam k)) (s1.seq.getD (srcPart (partOfTeam k)) 1)
        { e with cat := 3, ten := some wg.ten, asid := some wg.asid, aux1 := t1.id wg }]
    let R := fun (i : Instr) (code aux0 : Nat) => record i { cat := 3, code := code, aux0 := aux0, pc := here }
    let ea := (t1.get64 a.toNat l).toNat
    let sp := spaceOf wg.lr ea
    let V := fun (code cause : Nat) => record (.waitv d a b g)
      { cat := 3, code := code, aux0 := cause, addr := ea, pc := if r1.pc = 0 then here else r1.pc.toNat }
    R (.trap a g) 5 a.toNat ∧ (16 ≤ t1.rstack.length → R (.call g dp) 4 4 ∧ R (.callr a g) 4 4) ∧ (t1.rstack = [] → R (.ret g) 4 5) ∧
    (32 ≤ t1.mstack.length → R (.divif p dp) 4 0 ∧
      ((∀ e st, t1.mstack = e :: st → e.loop = false ∨ e.start ≠ r1.nextPc) → R (.divloop p dp) 4 0)) ∧
    (t1.mstack = [] → R (.divelse dp) 4 1 ∧ R .divjoin 4 1 ∧ R (.divbrk p dp) 4 1) ∧
    (∀ e st, t1.mstack = e :: st → (e.loop = true → R (.divelse dp) 4 2 ∧ R .divjoin 4 2) ∧ (e.loop = false → R (.divbrk p dp) 4 2)) ∧
    (t1.mstack ≠ [] → R (.exit g) 4 3) ∧ (56 < t1.alloc + 8 * a.toNat → R (.regclaim a g) 8 4) ∧
    (t1.handler = none → R (.eret g) 8 9 ∧ R (.eretEsc g) 8 9) ∧
    (∀ h, t1.handler = some h → t1.mstack.length ≠ h.depth → R (.eret g) 4 2 ∧ R (.eretEsc g) 4 2) ∧
    ((t1.get b.toNat l).toNat = wg.q → wg.pos ≤ ea → R (.lwait a b g) 1 2) ∧
    (r1.met = false →
      (sp = 1 ∨ sp = 4 → V 6 4) ∧ (sp = 0 → lrWhole wg.lr = false → R (.waitv d a b g) 1 1) ∧
      (ea % 4 ≠ 0 → sp = 2 ∨ sp = 3 ∨ sp = 0 ∧ lrWhole wg.lr = true → V 6 6) ∧
      (ea % 4 = 0 → sp = 2 → wg.pscr.has ((ea - lrShBase wg.lr) / 64) = true → V 7 5) ∧
      (ea % 4 = 0 → sp = 3 → match s1.segmentWg t1.w ((ea - lrClBase wg.lr) / lrSegment wg.lr) with
        | none => V 6 4
        | some w => (s1.wgOf w).pscr.has ((ea - lrClBase wg.lr) % lrSegment wg.lr / 64) = true → V 7 5))) ∧
  (∀ (s : State) (k : Nat) (t t1 : Team) (r r1 : Run) (s1 : State), s.HasRun k t r →
    (if r.bodyDone then s else s.laneIssue k t r Guard.always).bodyEnd k t r false noTerm noAtt = (s1, true) → s1.TeamIs k t1 →
    t1.run = some r1 → ∀ (slot reg : BitVec 6) (x : Rdv) (tx : Team) (rx : Run),
    let wg := s1.wgOf t1.w
    let one := fun (j n : Nat) (u : Team) (ru : Run) => recordOf (srcPart (partOfTeam j)) n
      { cat := 3, code := 4, ten := some wg.ten, asid := some wg.asid, pc := (dwordOf ru.here).toNat, aux0 := 6, aux1 := u.id wg }
    let next := fun (j : Nat) => s1.seq.getD (srcPart (partOfTeam j)) 1
    s1.records.length < 4095 → ringBase (s1.reg (oEvbase wg.ten)) = 0 → natBit (s1.reg (oDumpbase wg.ten)) 0 = false → wg.ten < 16 →
    s1.TeamIs x.k tx → tx.run = some rx → x.k ≠ k → tx.w = t1.w → (∀ c ∈ wg.claims, c.1 ≠ k ∧ c.1 ≠ x.k) →
    let M := fun (i : Instr) (send wide : Bool) =>
      (wg.rdv.getD slot.toNat []).find? (fun y => y.send != send) = some x → x.wide ≠ wide → Completes i s fun s' =>
        s'.records = s1.records ++ [one x.k (next x.k) tx rx, one k (next k + if partOfTeam x.k = partOfTeam k then 1 else 0) t1 r1]
    M (.xsend slot reg) true false ∧ M (.xrecv reg slot) false false ∧ M (.xsend64 slot reg) true true ∧ M (.xrecv64 reg slot) false true)

/-- R30, R37, R45: a store that becomes visible writes its bytes and no others: in a scratchpad region, and in a block of main
memory that is neither poisoned, compressed, migrating nor cached by a host and that is held under the store's key. A partial
store to a poisoned block of a region leaves it as it is, and a full block clears the poison. Draining empties the team's
buffer. That visibility is one order is the model's choice (log entry 11). -/
def Obligations.StoresBecomeVisible : Prop :=
  ∀ (s : State) (k : Nat) (st : Store) (o : Nat), 0 < st.bytes.length → o / 64 = (o + st.bytes.length - 1) / 64 →
    let n := st.bytes.length
    (∀ w, st.at' = .scr w o → (s.wgs.find? w).isSome →
      (n = 64 ∨ (s.wgOf w).pscr.has (o / 64) = false →
        (∀ q, ((s.commit k st).wgOf w).scr.read q = if o ≤ q ∧ q < o + n then st.bytes.getD (q - o) 0 else (s.wgOf w).scr.read q) ∧
        (n = 64 → ((s.commit k st).wgOf w).pscr.has (o / 64) = false)) ∧
      (n ≠ 64 → (s.wgOf w).pscr.has (o / 64) = true → ((s.commit k st).wgOf w).scr = (s.wgOf w).scr) ∧
      (s.commit k st).mem = s.mem ∧ (∀ w', w' ≠ w → (s.commit k st).wgOf w' = s.wgOf w')) ∧
    (st.at' = .sys o → s.images = [] → s.forwards = [] → s.migs = [] → s.hostCached = [] → s.poison.has (o / 64) = false →
      s.lineKey.getD (o / 64) 0 = st.ktag →
      (∀ q, (s.commit k st).sysByte q = if o ≤ q ∧ q < o + n then st.bytes.getD (q - o) 0 else s.sysByte q) ∧
      (∀ w, (s.commit k st).wgOf w = s.wgOf w)) ∧
    (∀ t, s.TeamIs k t → ∃ t', (s.drainAll k).TeamIs k t' ∧ t' = { t with sbuf := [], peerOut := t'.peerOut })

/-! ### The Bellows (R224..R240) -/

/-- R225, Tables 12.13, 12.14: the computing and branching instructions of a Bellows context change its register or its program
counter and nothing else of the machine; shifts take six bits of their count and a branch counts words from itself. -/
def Obligations.BellowsScalarResults : Prop :=
  ∀ (s : State) (x : Nat) (c : Ctx), s.HasCtx x c → ∀ (d a b : BitVec 4) (im : BitVec 14),
    let p : DWord := c.g.getD a.toNat 0
    let q : DWord := c.g.getD b.toNat 0
    let old : DWord := c.g.getD d.toNat 0
    let only := fun (i : Instr) (c' : Ctx) => exec i s = .next { s with ctxs := s.ctxs.insert x c' }
    let R := fun (i : Instr) (v : DWord) => only i { c with g := c.g.setD d.toNat v 0, pc := c.pc + 4 }
    let B := fun (i : Instr) (taken : Bool) => only i { c with pc := if taken then c.pc + im.signExtend 64 * 4 else c.pc + 4 }
    R (.bellowsAdd d a b) (p + q) ∧ R (.bellowsSub d a b) (p - q) ∧ R (.bellowsAnd d a b) (p &&& q) ∧ R (.bellowsOr d a b) (p ||| q) ∧
    R (.bellowsXor d a b) (p ^^^ q) ∧ R (.bellowsShl d a b) (BitVec.ofNat 64 (p.toNat * 2 ^ (q.toNat % 64))) ∧
    R (.bellowsShr d a b) (BitVec.ofNat 64 (p.toNat / 2 ^ (q.toNat % 64))) ∧ R (.bellowsMul d a b) (BitVec.ofNat 64 (p.toNat * q.toNat)) ∧
    R (.bellowsAddi d a im) (BitVec.ofInt 64 (p.toInt + im.toInt)) ∧ R (.bellowsMovi d im) (BitVec.ofInt 64 im.toInt) ∧
    R (.insh d im) (BitVec.ofNat 64 (old.toNat * 2 ^ 14 + im.toNat)) ∧
    B (.beq a b im) (decide (p = q)) ∧ B (.bne a b im) (decide (p ≠ q)) ∧ B (.bltu a b im) (decide (p.toNat < q.toNat)) ∧
    B (.bgeu a b im) (decide (q.toNat ≤ p.toNat)) ∧ B (.jmp im) true ∧ only (.jr a) { c with pc := p &&& ~~~3 }

/-- R225, R226, R235: RECV takes the oldest post into its two registers, with its workgroup as the current one and its token as the
arming, and holds while there is none; HALT stops the context behind itself. Both release an arming that no copy consumed. RECV
into one register twice is a context fault. That a context that halts with posts queued idles until the next one arrives is the model's
reading (log entry 36). -/
def Obligations.BellowsPosts : Prop :=
  ∀ (s : State) (x : Nat) (c : Ctx), s.HasCtx x c → ∀ (d a : BitVec 4),
    let at' := fun (i : Instr) (c' : Ctx) => Completes i s fun s' => s'.CtxIs x c' ∧
      (∀ y, y ≠ x → s'.ctxs.find? y = s.ctxs.find? y) ∧ s'.teams = s.teams ∧ s'.mem = s.mem ∧
      (∀ k p, c.arming = some k → c.cur = some p → p.ended = false → (s.wgs.find? p.w).isSome →
        (s'.wgOf p.w).tokens.getD k 0 = (s.wgOf p.w).tokens.getD k 0 - 1)
    (d ≠ a → c.posts = [] → at' (.recv d a) { c with arming := none }) ∧
    (d ≠ a → ∀ p ps, c.posts = p :: ps → at' (.recv d a) { c with
      posts := ps, cur := some p.who, arming := p.token, g := (c.g.setD d.toNat p.x 0).setD a.toNat p.y 0, pc := c.pc + 4 }) ∧
    at' .halt { c with arming := none, halted := true, pc := c.pc + 4 } ∧
    (d = a → Completes (.recv d a) s fun s' => s'.CtxIs x { c with fault := 1, stoker := 0 })

/-- R227, R235: private loads and stores move eight bytes, least significant first, within the context's own memory, and raise cause
2 off alignment or beyond 16 KiB; generic ones reach the current workgroup's space, raise cause 3 without one, 4 for a window
that cannot be reached, 8 where the access is refused or cannot be resolved and 9 on poison, and hold while the Stoker resolves
a fault. What a peer answers is free (log entry 10); that a generic access off alignment raises cause 2 also without a current workgroup is
the model's choice (log entry 54). -/
def Obligations.BellowsLoadsAndStores : Prop :=
  ∀ (s : State) (x : Nat) (c : Ctx), s.HasCtx x c → ∀ (d a b : BitVec 4) (o : BitVec 13),
    let ea := ((c.g.getD a.toNat 0 : DWord) + BitVec.ofInt 64 o.toInt).toNat
    let v : DWord := c.g.getD b.toNat 0
    let only := fun (i : Instr) (c' : Ctx) => exec i s = .next { s with ctxs := s.ctxs.insert x c' }
    let F := fun (i : Instr) (cause : Nat) => Completes i s fun s' => s'.CtxIs x { c with fault := cause, stoker := 0 }
    (ea % 8 = 0 → ea < 0x4000 →
      only (.bellowsLd d a o) { c with g := c.g.setD d.toNat (BitVec.ofNat 64 (leNat (c.mem.readN ea 8))) 0, pc := c.pc + 4 } ∧
      ∃ m, only (.bellowsSt a b o) { c with mem := m, pc := c.pc + 4 } ∧
        ∀ q, m.read q = if ea ≤ q ∧ q < ea + 8 then v.extractLsb' (8 * (q - ea)) 8 else c.mem.read q) ∧
    (ea % 8 ≠ 0 ∨ 0x4000 ≤ ea → F (.bellowsLd d a o) 2 ∧ F (.bellowsSt a b o) 2) ∧
    (ea % 8 ≠ 0 → F (.bellowsLdG d a o) 2 ∧ F (.bellowsStG a b o) 2) ∧
    (ea % 8 = 0 → c.wg? = none → F (.bellowsLdG d a o) 3 ∧ F (.bellowsStG a b o) 3) ∧
    (∀ w, ea % 8 = 0 → c.wg? = some w →
      let sp := spaceOf (s.wgOf w).lr ea
      (c.stoker = 2 → F (.bellowsLdG d a o) 8 ∧ F (.bellowsStG a b o) 8) ∧
      (c.stoker ≠ 2 → sp = 1 → F (.bellowsLdG d a o) 4 ∧ F (.bellowsStG a b o) 4) ∧
      (c.stoker ≠ 2 → (match s.engReach w ea .load with
        | (s1, .at' p _) => (∀ n l f, p ≠ .peer n l f) →
          (s1.placeBad p (s1.wgOf w).ktag = true → F (.bellowsLdG d a o) 9) ∧
          (s1.placeBad p (s1.wgOf w).ktag = false → Completes (.bellowsLdG d a o) s fun s' => s'.CtxIs x { c with
            g := c.g.setD d.toNat (BitVec.ofNat 64 (leNat (s1.placeBytes p 8))) 0, pc := c.pc + 4 })
        | (_, .cause cs) => (sp ≠ 0 → F (.bellowsLdG d a o) 4) ∧ (sp = 0 → cs = 4 → F (.bellowsLdG d a o) 8) ∧
          (sp = 0 → cs ≠ 4 → Completes (.bellowsLdG d a o) s fun s' => s'.CtxIs x { c with stoker := 1 }))) ∧
      (c.stoker ≠ 2 → (match s.engReach w ea .store with
        | (s1, .at' p _) => Completes (.bellowsStG a b o) s fun s' => s'.CtxIs x { c with pc := c.pc + 4 } ∧
          (∀ w' f, p = .scr w' f → f % 8 = 0 → (s1.wgs.find? w').isSome → (s1.wgOf w').pscr.has (f / 64) = false → ∀ q,
            (s'.wgOf w').scr.read q = if f ≤ q ∧ q < f + 8 then v.extractLsb' (8 * (q - f)) 8 else (s1.wgOf w').scr.read q)
        | (_, .cause cs) => (sp ≠ 0 → F (.bellowsStG a b o) 4) ∧ (sp = 0 → cs = 4 → F (.bellowsStG a b o) 8) ∧
          (sp = 0 → cs ≠ 4 → Completes (.bellowsStG a b o) s fun s' => s'.CtxIs x { c with stoker := 1 }))))

/-- R228..R232, R235, R238: a copy-family instruction checks its token (cause 1), its workgroup (3), its tile word and descriptor
(5), the code table (6) and its extent (4); it holds, changing nothing, while no slot is free, its token is full or its tile is
busy; else it takes the lowest free slot, running, its token counts it, and its tile fills or drains. A held one issues when its
cause clears. The order of the checks is the model's reading (log entry 36). -/
def Obligations.CopyIssue : Prop :=
  ∀ (s : State) (x : Nat) (c : Ctx), s.HasCtx x c → ∀ (d a b : BitVec 4) (len : BitVec 13) (p : BitVec 9),
    let k := b.toNat
    let desc := c.mem.readN (32 * p.toNat) 32
    let plain := natLE 4 (if len.toNat = 0 then 8192 else len.toNat) ++ natLE 2 1 ++ natLE 2 1 ++ List.replicate 24 (0 : Byte)
    let I := fun (i : Instr) (op : CopyOp) (bytes : List Byte) =>
      let F := fun (cause : Nat) => Completes i s fun s' => s'.CtxIs x { c with fault := cause, stoker := 0 }
      (8 ≤ k → F 1) ∧ (k < 8 → c.wg? = none → F 3) ∧
      (∀ w, k < 8 → c.wg? = some w →
        let y : Copy := { op := op, w := w, token := k, to' := c.g.getD d.toNat 0, frm := c.g.getD a.toNat 0, desc := bytes,
                          table := if op = .deco then c.table else none, off := 0, cause := 0, st := 1, erred := false }
        (y.ctlOk = false ∨ y.descOk = false → F 5) ∧
        (y.ctlOk = true → y.descOk = true →
          (op = .deco → c.table = none → F 6) ∧
          ((op = .deco → c.table ≠ none) → s.extentOk x w y = false → F 4) ∧
          ((op = .deco → c.table ≠ none) → s.extentOk x w y = true →
            ((∀ j < 8, c.slots.has j = true) ∨ s.tileFree x y = false ∨ (c.arming ≠ some k ∧ 255 ≤ (s.wgOf w).tokens.getD k 0) →
              exec i s = .next s) ∧
            (∀ sl < 8, c.slots.has sl = false → (∀ j < sl, c.slots.has j = true) → s.tileFree x y = true →
              (c.arming = some k ∨ (s.wgOf w).tokens.getD k 0 < 255) → (s.wgs.find? w).isSome →
              Completes i s fun s' => s'.CtxIs x { c with
                  pc := c.pc + 4, slots := c.slots.insert sl y, arming := if c.arming = some k then none else c.arming } ∧
                (s'.wgOf w).tokens.getD k 0 = (s.wgOf w).tokens.getD k 0 + (if c.arming = some k then 0 else 1) ∧
                (∀ n, y.tile = some n → s'.tile (x / 4) n =
                  let tl := s.tile (x / 4) n
                  if y.out then { tl with st := 3, live := tl.live + 1, back := y.hold }
                  else { tl with st := 1, live := tl.live + 1, openBy := if y.hold then some x else none }) ∧
                s'.mem = s.mem ∧ s'.teams = s.teams))))
    I (.copy d a b len) .copy plain ∧ I (.copyDesc d a b p) .copy desc ∧ I (.copyt d a b len) .copyt plain ∧
    I (.copytDesc d a b p) .copyt desc ∧ I (.gath d a b p) .gath desc ∧ I (.scat d a b p) .scat desc ∧ I (.deco d a b p) .deco desc ∧
    (c.halted = false → c.fault = 0 → c.stoker = 0 → c.word.extractLsb' 13 19 = 0x21#6 ++ d ++ a ++ b ++ 1#1 →
      c.word.extractLsb' 0 9 = p → I (.bellowsIssueResume x) .copy desc)

/-- R231, R234, R236, R240: TSET, the code table, FENCEB, WAITC, STAT and RESUME; a copy that RESUME drops leaves its token and its tile,
and, where it writes one row to the shared window, poisons every block of it not yet written. The statement fixes no order of a slot's faults
(log entry 36); that TSET with a reserved operand bit raises cause 5 also without a current post is the model's choice (log entry 54). -/
def Obligations.BellowsControl : Prop :=
  ∀ (s : State) (x : Nat) (c : Ctx), s.HasCtx x c → ∀ (d a : BitVec 4) (m : BitVec 8) (n : BitVec 14) (sl : BitVec 3),
    let v := (c.g.getD a.toNat 0 : DWord).toNat
    let F := fun (i : Instr) (cause : Nat) => Completes i s fun s' => s'.CtxIs x { c with fault := cause, stoker := 0 }
    let puts := fun (i : Instr) (c' : Ctx) => exec i s = .next { s with ctxs := s.ctxs.insert x c' }
    let only := fun (i : Instr) (v : DWord) => puts i { c with g := c.g.setD d.toNat v 0, pc := c.pc + 4 }
    let lens := (List.range 16).map fun i => natBits (leNat (c.mem.readN v 8)) (4 * i) 4
    let running := fun (p : Copy → Bool) => c.slots.any fun y => y.2.st == 1 && p y.2
    let mask := fun (p : Copy → Bool) => dwordOf ((c.slots.filter fun y => p y.2).map fun y => 2 ^ y.1).sum
    (v % 8 ≠ 0 ∨ 0x4000 ≤ v → F (.ldct d a) 2) ∧
    (v % 8 = 0 → v < 0x4000 →
      ((∀ l ∈ lens, l ≤ 11) → (lens.map fun l => if l = 0 then 0 else 2 ^ (11 - l)).sum = 2048 →
        puts (.ldct d a) { c with table := some lens, g := c.g.setD d.toNat 0 0, pc := c.pc + 4 }) ∧
      (¬ ((∀ l ∈ lens, l ≤ 11) ∧ (lens.map fun l => if l = 0 then 0 else 2 ^ (11 - l)).sum = 2048) → only (.ldct d a) 1)) ∧
    (v / 64 % 4 ≠ 0 ∨ v / 1024 % 64 ≠ 0 ∨ 2 ^ 24 ≤ v → F (.tsetClose d a) 5 ∧ F (.tsetTag d a) 5) ∧
    (v / 256 % 4 ≠ 1 → v / 65536 % 256 ≠ 0 → F (.tsetClose d a) 5 ∧ F (.tsetTag d a) 5) ∧
    (v / 64 % 4 = 0 → v / 1024 % 64 = 0 → v < 2 ^ 24 →
      let tl := s.tile (x / 4) (v % 64)
      let put := fun (i : Instr) (tl' : Tile) (st : DWord) => Completes i s fun s' => s'.tile (x / 4) (v % 64) = tl' ∧
        s'.CtxIs x { c with g := c.g.setD d.toNat st 0, pc := c.pc + 4 }
      (c.wg? = none → v / 256 % 4 = 1 ∨ v < 2 ^ 16 → F (.tsetClose d a) 3 ∧ F (.tsetTag d a) 3) ∧
      (∀ w, c.wg? = some w → v < 2 ^ 16 → 2 ≤ v / 256 % 4 →
        (tl.owner ≠ w % 16 + 1 → put (.tsetClose d a) tl 1) ∧ (tl.owner = w % 16 + 1 → put (.tsetClose d a) tl 5)) ∧
      (∀ w, c.wg? = some w → v < 2 ^ 16 → v / 256 % 4 = 0 →
        (tl.owner ≠ w % 16 + 1 → put (.tsetClose d a) tl 1) ∧
        (tl.owner = w % 16 + 1 → tl.st = 1 → tl.openBy = some x →
          put (.tsetClose d a) (if tl.live = 0 then { tl with openBy := none, st := 2 } else { tl with openBy := none }) 0) ∧
        (tl.owner = w % 16 + 1 → tl.st ≠ 1 ∨ tl.openBy ≠ some x → put (.tsetClose d a) tl 2)) ∧
      (∀ w, c.wg? = some w → v / 256 % 4 = 1 →
        let f := v / 65536 % 16
        let dm := v / 1048576 % 16
        (tl.owner ≠ w % 16 + 1 → put (.tsetTag d a) tl 1) ∧
        (tl.owner = w % 16 + 1 → (f = 15 ∨ 4 < dm % 8 ∨ dm = 8) → put (.tsetTag d a) tl 5) ∧
        (tl.owner = w % 16 + 1 → f ≠ 15 → dm % 8 ≤ 4 → dm ≠ 8 →
          (tl.st = 0 ∨ tl.st = 1 → put (.tsetTag d a) { tl with fmt := f, dom := dm } 0) ∧
          (tl.st ≠ 0 → tl.st ≠ 1 → put (.tsetTag d a) tl 2)))) ∧
    (running (fun _ => true) = true → exec .fenceb s = .next s) ∧
    (running (fun _ => true) = false → puts .fenceb { c with pc := c.pc + 4 }) ∧
    (running (fun y => m.getLsbD y.token) = true → exec (.waitc d m) s = .next s) ∧
    (running (fun y => m.getLsbD y.token) = false →
      only (.waitc d m) (mask fun y => y.st != 1 && (m == 0 || m.getLsbD y.token))) ∧
    (n = 0 → only (.stat d n) (dwordOf c.posts.length)) ∧ (n = 1 → c.cur = none → only (.stat d n) (~~~0)) ∧
    (n = 1 → ∀ p, c.cur = some p → only (.stat d n) (dwordOf (p.wgid % 2 ^ 16 + p.team % 2 ^ 16 * 2 ^ 32))) ∧
    (n = 2 → only (.stat d n) (mask fun y => y.st != 1)) ∧ (n = 3 → only (.stat d n) (if c.table.isSome then 1 else 0)) ∧
    (n = 4 → only (.stat d n) (dwordOf (srcCtx x))) ∧
    (8 ≤ n.toNat → n.toNat < 16 → (c.slots.has (n.toNat - 8) = false → only (.stat d n) 0) ∧
      (∀ y, c.slots.find? (n.toNat - 8) = some y → only (.stat d n) (dwordOf (y.off * 2 ^ 32 + y.cause * 256 + y.token * 16 + y.st)))) ∧
    ((4 < n.toNat ∧ n.toNat < 8 ∨ 16 ≤ n.toNat) → F (.stat d n) 1) ∧
    (c.slots.has sl.toNat = false → only (.resume d sl) 1 ∧ only (.resumeDrop d sl) 1) ∧
    (∀ y, c.slots.find? sl.toNat = some y →
      (y.st < 2 → only (.resume d sl) 1 ∧ only (.resumeDrop d sl) 1) ∧ (y.st = 2 → exec (.resume d sl) s = .next s) ∧
      (y.st = 3 → puts (.resume d sl) { c with
        slots := c.slots.insert sl.toNat { y with st := 1, cause := 0 }, g := c.g.setD d.toNat 0 0, pc := c.pc + 4 }) ∧
      (y.st = 4 → only (.resume d sl) 2) ∧
      (2 ≤ y.st → Completes (.resumeDrop d sl) s fun s' => s'.CtxIs x { c with
          slots := c.slots.erase sl.toNat, g := c.g.setD d.toNat 3 0, pc := c.pc + 4 } ∧
        ((s.wgs.find? y.w).isSome → (s'.wgOf y.w).tokens.getD y.token 0 = (s.wgOf y.w).tokens.getD y.token 0 - 1) ∧
        (∀ n, y.tile = some n → (s'.tile (x / 4) n).live = (s.tile (x / 4) n).live - 1) ∧
        (let lr := (s.wgOf y.w).lr
         let to' := y.to'.toNat
         y.op = .copy → y.rows = 1 → (s.wgs.find? y.w).isSome → s.rowOk y.w to' y.rowLen true = true → spaceOf lr to' = 2 →
          lrShBase lr % 64 = 0 → (∀ o < y.total, spaceOf lr (to' + o) = 2) →
          ∀ o, y.off ≤ o → o < y.total → (s'.wgOf y.w).pscr.has ((to' + o - lrShBase lr) / 64) = true)))

/-! ### What the device does of itself (R20..R22, R30..R33, R81, R88, R105, R195..R222, R239..R264, R276, R331..R346, R387) -/

/-- R20, R382, R383: power-on and a Hearth reset clear every domain and boot: no memory, team, launch or error record of before stands, and
no tenant's tables but those of the configuration, every register that the configuration does not set reads its Reset value, RCAUSE
says which reset it was or that the verification failed, and the measurement registers hold four extensions; the Stoker's harts start
where it passed. A device whose boot failed takes new images. What the boot configuration sets is the model's reading (log entry 28),
and so is that the Chimney acts again (log entry 58). -/
def Obligations.BootEvents : Prop :=
  ∀ (s : State) (cfg : BootCfg) (cause : BitVec 8),
    let c := s.flash.getD cfg
    let failed := c.fail = 1 ∨ c.fail = 2
    let B := fun (s' : State) (rcause : Nat) => s'.booted = true ∧ (s'.bootOk = true ↔ ¬ failed) ∧ s'.mem = [] ∧ s'.teams = [] ∧
      s'.wgs = [] ∧ s'.ctxs = [] ∧ s'.launches = [] ∧ s'.records = [] ∧ s'.poison = [] ∧ s'.sessions = [] ∧ s'.resetting = false ∧
      s'.chimneyDown = false ∧ (∀ h < 4, s'.hartsDown.has h = true ↔ failed) ∧
      (failed → ∀ n, s'.tenant n = Tenant.empty) ∧ (¬ failed → ∀ n, (∀ x ∈ c.tenants, x.ten ≠ n) → s'.tenant n = Tenant.empty) ∧
      s'.reg oDevid = 0x96725C10 ∧ natBits (s'.reg oChstat) 32 16 = 1900 ∧ natBits (s'.reg oChstat) 8 2 = 0 ∧
      (failed → natBits (s'.reg oChstat) 0 8 = 4) ∧ (¬ failed → natBits (s'.reg oChstat) 0 8 = rcause) ∧
      (∀ off, bootField off = none → off ≠ oChstat → s'.reg off = (mgmtReset off).toNat) ∧
      (¬ failed → ∀ i < 4, s'.mr.getD i 0 = extendDigest 0 (c.digests.getD i 0)) ∧
      (¬ failed → s'.dtbase = c.dtbase)
    Completes (.powerOn cfg) s (fun s' => B s' 1) ∧
    (s.booted = true → (cause = 2 ∨ cause = 3) → Completes (.hearthReset cause cfg) s fun s' => B s' cause.toNat) ∧
    (s.booted = true → s.bootOk = false → exec (.firmwareUpdate cfg) s = .next { s with flash := some cfg })

/-- R21, R22, R31..R33, R387, R390: a clock change and a stopped hart are recorded; an uncorrectable memory error poisons its block
and a corrected one is counted; the device goes to the deepest power state whose conditions hold and whose exit every bound device
tolerates (R388), and a wake event takes it to H0. When the core domain is idle, and the tenant of a memory error, are the model's
readings (log entries 19, 30 and 31), and so is that a Chimney in error chooses no power state (log entry 58). -/
def Obligations.DeviceEvents : Prop :=
  ∀ (s : State) (mhz : BitVec 16) (hart : BitVec 2) (ctl spa : Nat),
    (natBits (s.reg oChstat) 32 16 ≠ mhz.toNat → Completes (.clockChange mhz) s fun s' => natBits (s'.reg oChstat) 32 16 = mhz.toNat ∧
      (s.Quiet → Reports s s' srcChimney { cat := 8, code := 1, aux1 := mhz.toNat })) ∧
    (s.hartsDown.has hart.toNat = false → Completes (.stokerHartStop hart) s fun s' => s'.hartsDown.has hart.toNat = true ∧
      (s.Quiet → Reports s s' (srcStoker hart.toNat) { cat := 6, code := 5, aux0 := hart.toNat })) ∧
    (ctl = ctlOf spa → spa < 2 ^ 47 →
      let own := s.holder spa
      let e : Err := { cat := 1, code := 2, ten := own.map (·.1), addr := match own with | some o => o.2 | none => spa }
      let n := s.corrected.getD ctl 0 + 1
      (Completes (.memoryErrorDetect ctl spa 1) s fun s' => s'.corrected.getD ctl 0 = n ∧ (s.Quiet → s'.poison = s.poison ∧
          (s.reg oCethr ≠ 0 ∧ n % s.reg oCethr = 0 → Reports s s' (srcMem ctl) { e with code := 1, aux0 := n }) ∧
          (s.reg oCethr = 0 ∨ n % s.reg oCethr ≠ 0 → s'.records = s.records))) ∧
      (s.poison.has (spa / 64) = false → s.images.find? (frameOf spa) = none → (∀ ld, ringBase (s.reg (oEvbase ld)) = 0) →
        ∀ kind ∈ [(2 : BitVec 2), 3], Completes (.memoryErrorDetect ctl spa kind) s fun s' => s'.poison.has (spa / 64) = true ∧
          (∀ m ∈ s'.migs, m.switched = false → m.src = frameOf spa ∨ m.dst = frameOf spa → m.failed = true) ∧
          Reports s s' (srcMem ctl) { e with code := kind.toNat, pois := true, aux0 := s.corrected.getD ctl 0 })) ∧
    (let fits := fun (h : Nat) => s.coreIdle = true ∧ (h = 1 ∨ ∀ c < 4096, natBit (s.reg (0x100000 + 0x40 * c)) 8 = false) ∧
        ∀ ld < 16, s.bound ld = true → (if h = 1 then 10 else if h = 2 then 200 else 220) ≤ s.tol ld ∧ (h = 3 → 8 ≤ s.ceil ld)
      let none' := ¬ fits 1 ∧ ¬ fits 2 ∧ ¬ fits 3
      (s.booted = true → s.bootOk = true → s.chimneyDown = false → s.waking = false → ∀ h, 1 ≤ h → h ≤ 3 → fits h →
        (∀ h', h < h' → h' ≤ 3 → ¬ fits h') → s.hst ≠ h → Completes .powerStateEnter s fun s' => s' = s.toState h ∧ s'.hst = h ∧
          (s.Quiet → s'.mem = s.mem)) ∧
      (s.waking = true ∨ none' → exec .powerStateEnter s = .next s) ∧
      (s.hst ≠ 0 → s.chimneyDown = false → s.bootOk = true → s.waking = true ∨ none' → Completes .powerStateExit s fun s' =>
        s' = s.toState 0 ∧ s'.hst = 0 ∧ s'.waking = false ∧ (s.Quiet → s'.mem = s.mem))) ∧
    (s.chimneyDown = true → exec .powerStateEnter s = .next s ∧ exec .powerStateExit s = .next s)

/-- R76, R81, R82, R88, R105, R370: at a choice point the partition issues a ready team of the class that owns the entry, else, lending, one
of another class, else it idles a cycle; the team in issue fetches its run, and traps, waits for the Stoker or meets a
breakpoint where the fetch says so; where a condition of R82 has ceased to hold it waits, and the partition chooses again; a later attempt of a
run that touches a register whose pending write was poisoned stops its team (R81). What a cycle counts is the model's choice (log entry 40). -/
def Obligations.ChoiceAndFetch : Prop :=
  (∀ (s : State) (pt : Nat), (s.part pt).issuing = none → s.stopped pt = false → (s.part pt).stopReq = [] →
    let s0 := s.settle pt
    let own := s0.slotClass pt ((s0.part pt).pcyc % 64)
    let poisoned := fun (k : Nat) => ∃ t r p, s0.TeamIs k t ∧ t.run = some r ∧ r.again = true ∧ t.poisonPend r.words = some p
    (∀ k lent t r p, s0.choose pt = some (k, lent) → s0.TeamIs k t → t.run = some r → r.again = true → t.poisonPend r.words = some p →
      Completes (.partitionChoice pt) s fun s' => s'.TeamIs k { t with pc := r.pc, status := .stopped, run := none }) ∧
    (∀ k lent, s0.choose pt = some (k, lent) → ¬ poisoned k → Completes (.partitionChoice pt) s fun s' =>
      (s'.part pt).issuing = some k ∧ (s'.part pt).lentBy = lent ∧ s'.mem = s.mem ∧
      ∃ t, (k, t) ∈ s0.readyTeams pt ∧ (lent = none → s0.classOf t = own) ∧
        (∀ o, lent = some o → o = own ∧ natBit (s0.reg (oSlotCtl pt)) 0 = true ∧ ∀ x ∈ s0.readyTeams pt, s0.classOf x.2 ≠ own)) ∧
    (s0.choose pt = none → Completes (.partitionChoice pt) s fun s' =>
      (s'.part pt).issuing = none ∧ (s'.part pt).pcyc = ((s.part pt).pcyc + 1) % 2 ^ 64)) ∧
  (∀ (s : State) (k : Nat) (t : Team), s.TeamIs k t → (s.part (k / 16)).issuing = some k → t.run = none →
    let asid := (s.wgOf t.w).asid
    (∀ kind, s.heldKind k t = some kind → Completes (.runFetch k) s fun s' =>
      s'.TeamIs k { t with status := .waiting kind } ∧ (s'.part (k / 16)).issuing = none ∧ s'.mem = s.mem) ∧ (s.heldKind k t = none →
    (∀ j, s.breakpoint (k / 16) asid t.pc.toNat = some j → Completes (.runFetch k) s fun s' =>
      s'.TeamIs k t ∧ (s'.part (k / 16)).issuing = none ∧
      (s.stopped (k / 16) = false → (s'.part (k / 16)).stopReq = (s.part (k / 16)).stopReq ++ [(3, k % 16, j)])) ∧
    (s.breakpoint (k / 16) asid t.pc.toNat = none →
      match (s.fetchRun k t).2 with
      | .ok ws tr lits => t.poisonPend ws = none → Completes (.runFetch k) s fun s' => ∃ r, s'.TeamIs k { t with
          run := some r, status := .ready, stv := 0, kmask := 0 } ∧ r.pc = t.pc ∧ r.words = ws ∧ r.trailer = tr ∧ r.lits = lits ∧ r.idx = 0 ∧
          r.entry = t.active ∧ r.todo = t.active ∧ r.aborted = 0 ∧ r.first = true ∧ r.bodyDone = false ∧ r.savedP = t.p ∧ r.savedQ = t.q
      | .trap _ _ _ => Completes (.runFetch k) s fun s' => s'.TeamIs k { t with status := .stopped }
      | .poison _ _ => Completes (.runFetch k) s fun s' => s'.TeamIs k { t with status := .stopped }
      | .fault _ _ => Completes (.runFetch k) s fun s' => s'.TeamIs k { t with status := .waiting 14 })))

/-- R79, R81, R195, R197, R216..R222, R403: the end of a completing attempt, a pending write that lands, a back-off that ends, a
starvation timer at its limit, a claim deadlock, a value wait that looks again, and a held effect that is performed. The program
counter of a starvation stop is the model's reading (log entry 32). -/
def Obligations.TeamEvents : Prop :=
  ∀ (s : State) (k : Nat) (t : Team), s.TeamIs k t →
    (∀ r s1 t1 r1, t.run = some r → (s.part (k / 16)).issuing = some k → r.words.length ≤ r.idx →
      s.bodyEnd k t r false noTerm noAtt = (s1, true) → s1.TeamIs k t1 → t1.run = some r1 →
      EndsAs (.runAttemptEnd k) s k (t1.ended r1.nextPc (s1.readySince k t1))) ∧
    (∀ n p, t.pend.find? (fun p => p.reg == n) = some p →
      (p.poison = false → p.rows.length = p.count → Completes (.pendingWriteLand k n) s fun s' => ∃ t', s'.TeamIs k t' ∧
        t' = { t with v := t'.v, pend := t.pend.filter fun x => x.reg != n, handler := t'.handler } ∧
        ∀ q, t'.v.find? q = if n ≤ q ∧ q < n + p.count then p.rows[q - n]? else t.v.find? q) ∧
      (p.poison = true → Completes (.pendingWriteLand k n) s fun s' => ∃ t', s'.TeamIs k t' ∧ t' = { t with pend := t'.pend })) ∧
    (s.backoffOver k t = true → s.stopped (k / 16) = false →
      EndsAs (.backoffExpiry k) s k { t with status := .ready, readyAt := s.tick, stv := 0 }) ∧
    (∀ kind, s.starved t = some kind → s.stopped (k / 16) = false →
      (lrStvt (s.wgOf t.w).lr = true → 
        ((∀ r, t.run = some r → r.bodyDone = true → r.done = []) → EndsAs (.starvationExpiry k) s k
          { t with pc := (t.waitPc kind).1, base := (t.waitPc kind).2, status := .stopped, run := none }) ∧
        Completes (.starvationExpiry k) s fun s' => ∃ t', s'.TeamIs k t' ∧ t'.pc = (t.waitPc kind).1 ∧ t'.base = (t.waitPc kind).2 ∧
          t'.status = .stopped ∧ t'.run = none) ∧
      (lrStvt (s.wgOf t.w).lr = false → EndsAs (.starvationExpiry k) s k { t with stv := 0 })) ∧
    (∀ r, t.run = some r → s.claimDeadlock t.w = true → s.teams.rising = true →
      EndsAs (.claimDeadlockFault t.w) s k
        { t with pc := dwordOf r.here, status := .stopped, run := none, base := some r.pc }) ∧
    (∀ r, t.run = some r → t.status = .waiting 6 →
      let w := r.words.getLastD 0
      let c := (bits w 19 6).toNat
      let l := r.entry.leader t.nlanes
      let wg := s.wgOf t.w
      let ea := (t.get64 (bits w 13 6).toNat l).toNat
      let v := t.get (bits w 7 6).toNat l
      let i := Instr.waitvRecheck k
      let L := fun (s2 : State) (p : Place) => s2.placeBad p wg.ktag = false → c < 4 →
        let x : Word := BitVec.ofNat 32 (leNat (s2.laneBytes t r t.nlanes p 4))
        let met := c = 0 ∧ x = v ∨ c = 1 ∧ x ≠ v ∨ c = 2 ∧ v.toNat ≤ x.toNat ∨ c = 3 ∧ v.toInt ≤ x.toInt
        let t2 := { t with sbuf := t.sbuf.map fun st => if s2.overlaps st p 4 then st.readBy (r.todo.leader t.nlanes) else st }
        (met → EndsAs i s k (t2.ended r.nextPc (s2.readySince k t))) ∧
        (¬ met → EndsAs i s k { t2 with run := some { r with watch := some (p, ea, c, v) } })
      (r.met = true → EndsAs i s k (t.ended r.nextPc (s.readySince k t))) ∧
      (r.met = false → ea % 4 = 0 →
        (spaceOf wg.lr ea = 2 → L s (.scr t.w (ea - lrShBase wg.lr))) ∧
        (∀ w', spaceOf wg.lr ea = 3 → s.segmentWg t.w ((ea - lrClBase wg.lr) / lrSegment wg.lr) = some w' →
          L s (.scr w' ((ea - lrClBase wg.lr) % lrSegment wg.lr))) ∧
        (spaceOf wg.lr ea = 0 → lrWhole wg.lr = true → match s.reachGlobal (rcvOfCore (k / 128)) wg.asid ea .load with
          | (s2, .at' p _) => L s2 p
          | (_, .cause cs) => cs ≠ 4 → WaitsAs i s k t 14))) ∧
    (∀ h hs s1 v, t.held = h :: hs → t.handler = none → h.inH = false → t.doneBefore h = false → s.onceDo k t h = some (s1, v) → Completes (.heldEffectPerform k) s fun s' =>
      ∃ t', s'.TeamIs k t' ∧ t'.held = hs ∧ t'.pc = t.pc ∧ t'.status = t.status ∧
        ∀ l < t.nlanes, ∀ q < t.alloc, t'.get q l =
          if h.reg ≤ q ∧ q < h.reg + h.count then BitVec.ofNat 32 (natBits v.toNat (32 * (q - h.reg)) 32) else t.get q l)

/-- R84, R228, R239, R253, R257, R258, R262..R264, R276, R297: engine work starts, completes and fails. A copy that has written all
frees its slot and lowers its token; one that meets a fault stops there, with the fault at the Stoker or, where no resolution can come,
lost; a matrix operation and a transform start when they may, leave the sequencer or the queue when done, and a failed one is noted in
MSTAT or poisons its destination; a matrix operation that meets a fault of the walk waits for the Stoker; an ended workgroup leaves
with its tiles. Causes that several checks share are the model's reading (log entry 37), and so is that a copy fault of cause 4, which no
resolution can end, leaves its slot at once as one whose resolution has failed (log entry 36). -/
def Obligations.EngineEvents : Prop :=
  (∀ (s t u : State) (x sl : Nat) (c : Ctx) (y : Copy), c.slots.find? sl = some y →
    (s.runUnits x sl (s.unitFuel x sl) = (t, .all) → t.CtxIs x c → Completes (.bellowsCopyComplete x sl) s fun s' =>
      s'.CtxIs x { c with slots := c.slots.erase sl } ∧ s'.mem = t.mem ∧
      ((t.wgs.find? y.w).isSome → (s'.wgOf y.w).tokens.getD y.token 0 = (t.wgOf y.w).tokens.getD y.token 0 - 1)) ∧
    (s.CtxIs x c → y.st = 1 → y.total ≤ y.off → (s.wgs.find? y.w).isSome → Completes (.bellowsCopyComplete x sl) s fun s' =>
      s'.CtxIs x { c with slots := c.slots.erase sl } ∧ s'.mem = s.mem ∧ s'.teams = s.teams ∧
      (s'.wgOf y.w).tokens.getD y.token 0 = (s.wgOf y.w).tokens.getD y.token 0 - 1 ∧
      ∀ n, y.tile = some n → (s'.tile (x / 4) n).live = (s.tile (x / 4) n).live - 1) ∧
    (∀ cause ea gpa, s.runUnits x sl (s.unitFuel x sl) = (t, .fault u cause ea gpa) → (t.copyAt x sl).isSome → u.CtxIs x c →
      Completes (.copyFaultStop x sl) s fun s' => s'.CtxIs x { c with
        slots := c.slots.insert sl { y with st := if cause = 4 then 4 else 2, cause := cause } } ∧
        (cause ≠ 4 → ∃ f ∈ (s'.tenant (u.wgOf y.w).ten).faults, f.waiter = .copy x sl ∧ f.cause = cause))) ∧
  (∀ (s t u : State) (w op : Nat) (m : MOp), (s.wgs.find? w).isSome →
    (s.opAt w op = some m → s.canStart w m = true → (s.wgOf w).startCause m = 0 → Completes (.matrixOpStart w op) s fun s' =>
      ∃ m', s'.opAt w op = some m' ∧ m'.st = 1 ∧ m'.num = m.num ∧ m'.blk = m.blk ∧ m'.step = m.step) ∧
    (s.opAt w op = some m → s.canStart w m = true → (s.wgOf w).startCause m ≠ 0 → Completes (.matrixOpStart w op) s fun s' =>
      natBit (s'.wgOf w).mstat.toNat 8 = true ∧ s'.opAt w op = none) ∧
    (s.runOps w op (s.opFuel w op) = (t, .all) → t.opAt w op = some m → Completes (.matrixOpComplete w op) s fun s' =>
      s'.opAt w op = none ∧ (s'.wgOf w).mstat = (t.wgOf w).mstat ||| wordOf m.flags) ∧
    (s.opAt w op = some m → m.st = 1 → m.length ≤ m.step → Completes (.matrixOpComplete w op) s fun s' =>
      s'.opAt w op = none ∧ (s'.wgOf w).mstat = (s.wgOf w).mstat ||| wordOf m.flags ∧ s'.mem = s.mem ∧ s'.teams = s.teams) ∧
    (∀ cause ea, s.runOps w op (s.opFuel w op) = (t, .fault u cause ea) → t.opAt w op = some m →
      (16 ≤ cause ∨ cause = 4 → Completes (.matrixOpFault w op) s fun s' =>
        natBit (s'.wgOf w).mstat.toNat 8 = true ∧ s'.opAt w op = none) ∧
      (cause < 16 → cause ≠ 4 → u.opAt w op = some m → Completes (.matrixOpFault w op) s fun s' =>
        s'.opAt w op = some { m with st := 2, step := 0, flags := 0 } ∧
        ∃ f ∈ (s'.tenant (u.wgOf w).ten).faults, f.waiter = .mop w op ∧ f.cause = cause))) ∧
  (∀ (s t : State) (c : Nat) (x : XOp) (xs : List XOp),
    let tl := s.tile c x.dst
    (s.xq.find? c = some (x :: xs) → x.started = false → Completes (.transformStart c) s fun s' =>
      (∃ old, s'.xq.find? c = some ({ x with started := true, vec := 0, old := old } :: xs)) ∧ s'.mem = s.mem ∧
      (x.clr = true → tl.base % 64 = 0 → tl.size % 64 = 0 → (s.wgs.find? x.w).isSome →
        s'.placeBytes (s.xPlace c x x.dst 0) tl.size = List.replicate tl.size 0)) ∧
    (s.xq.find? c = some (x :: xs) → x.started = true → Completes (.transformFail c true) s fun s' => s'.xq.find? c = some xs ∧
      (s'.tile c x.dst).st = 2) ∧
    (t.xq.find? c = some (x :: xs) → s.runXfms c 65536 = (t, .all x) → Completes (.transformComplete c) s fun s' =>
      s'.xq.find? c = some xs ∧ s'.tile c x.dst = { t.tile c x.dst with st := 2 } ∧ s'.wgs = t.wgs) ∧
    (s.xq.find? c = some (x :: xs) → x.started = true → x.vcnt ≤ x.vec → Completes (.transformComplete c) s fun s' =>
      s'.xq.find? c = some xs ∧ s'.tile c x.dst = { tl with st := 2 } ∧ s'.wgs = s.wgs ∧ s'.mem = s.mem) ∧
    (t.xq.find? c = some (x :: xs) → s.runXfms c 65536 = (t, .poison x) → Completes (.transformFail c false) s fun s' =>
      s'.xq.find? c = some xs ∧ (s'.tile c x.dst).st = 2) ∧
    (s.xq.find? c = some (x :: xs) → x.started = true → x.vec < x.vcnt → s.xPoison c x x.vec = true → (s.wgs.find? x.w).isSome →
      Completes (.transformFail c false) s fun s' => s'.xq.find? c = some xs ∧ (s'.tile c x.dst).st = 2 ∧
        ∀ o ∈ s.xBlocks c x, s'.placeBad (s.xPlace c x x.dst o) 0 = true)) ∧
  (∀ (s : State) (w : Nat), s.wgs.has w = true → (s.teamsOfWg w).isEmpty = true → (s.wgOf w).teamsLeft = 0 → s.engineWork w = false →
    Completes (.granuleReturn w) s fun s' => s'.wgs.find? w = none ∧ (∀ n < 64, (s'.tile (w / 16) n).ownedBy w = false) ∧
      s'.mem = s.mem ∧ s'.teams = s.teams)

/-- R7, R331..R346: the network engine reads requests in order, starts those that may, sends their bytes, completes them with a record,
resends what is not acknowledged, at most 7 times, and serves the requests of peers: one that a landing does not allow is refused with
0x12, one that arrives during a core reset is answered 3, a transfer is placed at most once, and one of an operation that the transport
does not implement is recorded. A landing is checked when a request is accepted and not again, one that is refused stays refused, and what arrives
below H0 waits at its port and wakes the device (R388). A request to a node that no port reaches any more ends. The answer during a core reset, the walk of each
access, the RECV that a SEND meets, the order under ORD, what a retry answers, the numbering of acknowledgements and the codes of that
record are the model's readings (log entries 14, 38, 49, 50, 55 and 56). -/
def Obligations.NetworkEvents : Prop :=
  (∀ (s : State) (ch pos : Nat) (r : NReq), s.nreq ch pos = some r →
    let ten := s.ncTenant ch
    let kind := s.peerKind ten r.pix
    let start := s.mayStart ch pos r = true ∧ r.invalid = false
    let failure : Err := { cat := 4, code := 4, ten := some ten, asid := some (s.ncAsid ch), aux0 := r.status, aux1 := pos, psrc := srcChain ch, pseq := pos }
    let ends := fun (i : Instr) (status : Nat) => Completes i s fun s' => ∃ r', s'.nreq ch pos = some r' ∧ r'.st = 2 ∧ r'.status = status
    let packets := fun (i : Instr) (r' : NReq) (bs : List Byte) => Completes i s fun s' => s'.nreq ch pos = some r' ∧
      ∃ ms, s'.outs = s.outs ++ ms ∧ ms.length = (r.len + 4095) / 4096 ∧ ∀ j < ms.length, ∃ port < 10, ∃ msg,
        ms[j]? = some (Out.wire port (4096 * j) msg) ∧ msg.op = BitVec.ofNat 8 r.op ∧ msg.chain = ch ∧ msg.pos = pos ∧
          msg.data = (bs.drop (4096 * j)).take (min 4096 (r.len - 4096 * j))
    (start → r.op = 4 → Completes (.netRequestStart ch pos) s fun s' => s'.nreq ch pos = some { r with st := 1 } ∧ s'.outs = s.outs) ∧
    (start → r.op = 6 → ends (.netRequestStart ch pos) 0) ∧
    (s.mayStart ch pos r = true → r.invalid = true → ends (.netRequestStart ch pos) 0x10) ∧
    (start → r.op ≠ 4 → r.op ≠ 6 →
      (kind = 0 ∨ kind = 3 → ends (.netRequestStart ch pos) 0x10) ∧
      (kind = 1 → s.ports (s.peerAddr ten r.pix) = [] → ends (.netRequestStart ch pos) 0x13) ∧
      (kind = 1 → s.ports (s.peerAddr ten r.pix) ≠ [] → r.wait ≠ 2 →
        (r.op = 2 → Completes (.netRequestStart ch pos) s fun s' => s'.nreq ch pos = some { r with st := 1 } ∧
          ∃ port ∈ s.ports (s.peerAddr ten r.pix), ∃ msg, s'.outs = s.outs ++ [.wire port 0 msg] ∧ msg.op = 2 ∧ msg.chain = ch ∧
            msg.pos = pos ∧ msg.len = r.len ∧ msg.roff = r.roff ∧ msg.land = r.land ∧ msg.data = []) ∧
        (∀ s1 bs, r.op ≠ 2 → r.data = none → s.netRead (s.ncAsid ch) r.laddr r.len = (s1, .ok bs false) → s1.outs = s.outs →
          Completes (.netRequestStart ch pos) s fun s' => s'.nreq ch pos = some { r with st := 1, wait := 0, data := some bs } ∧
            ∃ port msg, s'.outs = s.outs ++ [.wire port 0 msg] ∧ msg.op = BitVec.ofNat 8 r.op ∧ msg.chain = ch ∧ msg.pos = pos ∧
              msg.data = bs.take r.len)) ∧
      (kind = 2 → natBit (s.reg (oFep (s.peerAddr ten r.pix % 4096) + 16)) 56 = false → ends (.netRequestStart ch pos) 0x10) ∧
      (kind = 2 → natBit (s.reg (oFep (s.peerAddr ten r.pix % 4096) + 16)) 56 = true → r.wait ≠ 2 →
        (r.op = 2 → Completes (.netRequestStart ch pos) s fun s' => s'.nreq ch pos = some { r with st := 1 } ∧
          ∃ port < 10, ∃ msg, s'.outs = s.outs ++ [.wire port 0 msg] ∧ msg.op = 2 ∧ msg.chain = ch ∧ msg.pos = pos ∧
            msg.len = r.len ∧ msg.roff = r.roff ∧ msg.land = r.land ∧ msg.data = []) ∧
        (∀ s1 bs, r.op ≠ 2 → r.data = none → s.netRead (s.ncAsid ch) r.laddr r.len = (s1, .ok bs false) → s1.outs = s.outs →
          packets (.netRequestStart ch pos) { r with st := 1, wait := 0, data := some bs } bs))) ∧
    (s.coreDown = false →
      (r.st = 2 → statusError r.status = false ∨ s.Quiet → pos ≠ s.ncSeq ch + 1 →
        (∀ p, s.nreq ch (s.ncSeq ch + 1) = some p → p.st ≠ 3) →
        Completes (.netRequestComplete ch pos) s fun s' => s'.nreq ch pos = some { r with st := 3 } ∧
          s'.reg (oNcseq ch) = s.reg (oNcseq ch) ∧ (statusError r.status = false → s'.records = s.records) ∧
          (statusError r.status = true → Reports s s' r.src failure)) ∧
      (r.st = 2 → statusError r.status = false → ch < 4096 → pos = s.ncSeq ch + 1 → pos + 1 < 2 ^ 64 → s.nreq ch (pos + 1) = none →
        let ring := s.reg (oNccq ch)
        let s0 : State := { s.setNreq ch pos { r with st := 3 } with seq := s.seq.setD (srcChain ch) (pos + 1) 1 }
        Completes (.netRequestComplete ch pos) s fun s' => s'.reg (oNcseq ch) = pos ∧ s'.nreq ch pos = none ∧
          ∀ s1, s0.writeVa (s.ncAsid ch) (natBits ring 6 42 * 64 + 64 * ((pos - 1) % (16 * 2 ^ natBits ring 0 4)))
            (ncRecord ch pos { r with st := 3 }) { path := 4 } = some s1 → s'.mem = s1.mem) ∧
      (r.st = 1 → r.op ≠ 4 → s.linkOk (s.reqUet ch r) = true → ∀ off len,
        (r.op ≠ 2 → (r.acked.any fun x => x.1 == off) = false →
          ((r.acked.map (·.2)).sum + len < r.len → Completes (.netAckReceive ch pos off len 0) s fun s' =>
            s'.nreq ch pos = some { r with acked := r.acked ++ [(off, len)] }) ∧
          (r.len ≤ (r.acked.map (·.2)).sum + len → ends (.netAckReceive ch pos off len 0) 0)) ∧
        (r.refused = false → r.sendRetries < 7 → Completes (.netAckReceive ch pos off r.sendRetries 0x15) s fun s' =>
          s'.nreq ch pos = some { r with refused := true }) ∧
        (r.refused = false → 7 ≤ r.sendRetries → ends (.netAckReceive ch pos off r.sendRetries 0x15) 0x15) ∧
        (r.refused = true ∨ len ≠ r.sendRetries → exec (.netAckReceive ch pos off len 0x15) s = .next s) ∧
        ends (.netAckReceive ch pos off len 0x12) 0x12 ∧ ends (.netAckReceive ch pos off len 0x14) 0x14) ∧
      (∀ off, r.st = 1 → r.op ≠ 4 → r.refused = false → kind = 2 → off < r.len → off % 4096 = 0 → (r.acked.any fun x => x.1 == off) = false →
        (7 ≤ r.retries.getD off 0 → ends (.uetRetransmitTimeout ch pos off) 0x13) ∧
        (r.retries.getD off 0 < 7 → (r.op = 2 ∨ r.data.isSome) → Completes (.uetRetransmitTimeout ch pos off) s fun s' =>
          (∃ r', s'.nreq ch pos = some r' ∧ r'.st = 1 ∧ r'.retries.getD off 0 = r.retries.getD off 0 + 1) ∧
          ∃ port < 10, ∃ msg, s'.outs = s.outs ++ [.wire port off msg] ∧ msg.chain = ch ∧ msg.pos = pos ∧
            msg.only = if r.op = 2 ∧ 4096 < r.len then some off else none)) ∧
      (∀ bs, r.refused = true → r.st = 1 → r.op = 3 → r.data = some bs →
        (kind = 2 → packets (.sendRetry ch pos) { r with refused := false, sendRetries := r.sendRetries + 1, retries := [], wait := 0 } bs) ∧
        (kind = 1 → s.ports (s.peerAddr ten r.pix) = [] → ends (.sendRetry ch pos) 0x13) ∧
        (kind = 1 → s.ports (s.peerAddr ten r.pix) ≠ [] → Completes (.sendRetry ch pos) s fun s' =>
          s'.nreq ch pos = some { r with refused := false, sendRetries := r.sendRetries + 1, retries := [], wait := 0 } ∧
          ∃ port msg, s'.outs = s.outs ++ [.wire port 0 msg] ∧ msg.op = 3 ∧ msg.data = bs.take r.len)))) ∧
  (∀ (s : State) (ch : Nat), s.coreDown = false → s.ncRun ch = true → s.nread.getD ch 0 < s.ncPub ch →
    s.atStoker (s.ncTenant ch) (.read ch) = false → ∀ bs s1, s.nnext.find? ch = none →
    s.netRead (s.ncAsid ch) (natBits (s.reg (oNchead ch)) 6 42 * 64) 64 = (s1, .ok bs false) →
    Completes (.netRequestRead ch) s fun s' => s'.nread.getD ch 0 = s.nread.getD ch 0 + 1 ∧ ∃ r, s'.nreq ch (s.nread.getD ch 0 + 1) = some r ∧
      r.st = 0 ∧ r.req = BitVec.ofNat 512 (leNat bs) ∧
      (let last := s.nread.getD ch 0 + 1 = s1.ncPub ch ∨ ∃ e ∈ s1.nends.getD ch [], e.1 = s.nread.getD ch 0 + 1
       (last → s'.nnext.find? ch = none ∧ s'.reg (oNchead ch) = natBits r.next 6 42 * 64) ∧ (¬ last → s'.nnext.find? ch = some r.next))) ∧
  (∀ (s : State) (m : NetMsg) (kind : BitVec 8) (port : BitVec 6) (k : Nat) (t : Team),
    let e := s.incAt m.uet m.node m.chain m.pos
    let reply := fun (off len st : Nat) (bs : List Byte) => Out.reply m.uet m.node m.chain m.pos off len st bs
    let lost := [Instr.incomingPut m, .incomingPutadd m, .incomingGet m, .incomingSend { m with ord := false },
      .uetPacketReceive { m with op := 1 } 0, .uetPacketReceive { m with op := 3 } 0, .uetPacketReceive { m with op := 9 } 0]
    let refused := fun (i : Instr) => Completes i s fun s' => s'.outs = s.outs ++ [reply 0 0 3 []] ∧ s'.mem = s.mem ∧ s'.nreqs = s.nreqs ∧
      (s'.incAt m.uet m.node m.chain m.pos).fin = match e.fin with | some f => some f | none => some (e.total, 3)
    (s.linkOk m.uet = true → s.resetting = true → (∀ i ∈ lost, refused i) ∧
      exec (.peerAccessRequest m kind) s = .next { s with outs := s.outs ++ [reply 0 0 3 []] }) ∧
    (s.linkOk m.uet = true → s.coreDown = false → ∀ n st, st ≠ 0 → e.fin = some (n, st) → ∀ i ∈ [Instr.incomingPut m, .incomingPutadd m,
      .incomingGet m, .incomingSend m], exec i s = .next { s with outs := s.outs ++ [reply 0 n st []] }) ∧
    (s.linkOk m.uet = true → s.asleep = true →
      (∀ off, Completes (.uetPacketReceive m off) s fun s' => s'.waking = true ∧ s'.portHeld = s.portHeld ++ [.arrival (.packet m off)] ∧
        s'.nreqs = s.nreqs ∧ s'.mem = s.mem ∧ s'.outs = s.outs) ∧
      (∀ ch pos off len st r, s.nreq ch pos = some r → s.reqUet ch r = m.uet → Completes (.netAckReceive ch pos off len st) s fun s' =>
        s'.waking = true ∧ s'.portHeld = s.portHeld ++ [.arrival (.ack ch pos off len st)] ∧ s'.nreqs = s.nreqs) ∧
      (m.uet = false → Completes (.peerStoreAcknowledge k) s fun s' => s'.waking = true ∧
        s'.portHeld = s.portHeld ++ [.arrival (.stored k)] ∧ s'.teams = s.teams ∧ s'.engOut = s.engOut)) ∧
    (s.linkOk m.uet = true → s.coreDown = false → e.fin = none → e.wait = 0 → e.seen.contains 0 = false → s.inTurn m 0 e = true →
      (∀ tg s1 n, e.target = some tg → m.ntfy = none → e.part.getD 0 0 = 0 → (let d := m.data.take tg.room
        s.netWrite tg.asid tg.va d m.poison none (d.length + 1) 0 = (s1, n, none)) →
        Completes (.incomingPut m) s fun s' => s'.mem = s1.mem) ∧
      (m.ord = false → e.target = none → s.landKey 0 = m.key.toNat → m.rchain < 4096 → s.ncTenant m.rchain = s.landTenant 0 →
        s.ncRun m.rchain = false → refused (.incomingSend m))) ∧
    (s.linkOk m.uet = true → s.coreDown = false → e.fin = none → e.wait = 0 →
      (e.seen.contains 0 = true → exec (.incomingPut m) s = .next { s with outs := s.outs ++ [reply 0 m.data.length 0 []] }) ∧
      (e.seen.contains 0 = false → s.inTurn m 0 e = true → e.target = none →
        (s.landOk m.land m.key 4 m.roff m.len = false → ∀ i ∈ [Instr.incomingPut m, .uetPacketReceive { m with op := 1 } 0],
          Completes i s fun s' => s'.outs.getLast? = some (reply 0 0 0x12 []) ∧ (s.Quiet → s'.mem = s.mem)) ∧
        (s.landOk m.land m.key 8 m.roff m.len = false → Completes (.incomingPutadd m) s fun s' =>
          s'.outs.getLast? = some (reply 0 0 0x12 []) ∧ (s.Quiet → s'.mem = s.mem)) ∧
        (s.landOk m.land m.key 2 m.roff m.len = false → Completes (.incomingGet m) s fun s' =>
          s'.outs.getLast? = some (reply 0 0 0x12 []) ∧ (s.Quiet → s'.mem = s.mem)))) ∧
    (s.linkOk m.uet = true → s.coreDown = false → ∀ n, e.fin = some (n, 0) → e.reply ≠ [] → m.only = none →
      exec (.incomingGet m) s = .next { s with
        outs := s.outs ++ e.reply.map fun x => reply x.1 x.2.1 (if x.2.2.2 then 1 else 0) x.2.2.1 }) ∧
    (s.linkOk m.uet = true → s.coreDown = false → e = Incoming.new m.uet m.node m.chain m.pos → s.inTurn m 0 e = true →
      let asid := s.landAsid m.land
      let va := s.landBase m.land + m.roff
      let placed := fun (i : Instr) => Completes i s fun s' =>
        s'.outs.getLast? = some (reply 0 m.data.length 0 []) ∧ (s'.incAt m.uet m.node m.chain m.pos).seen = [0]
      (∀ s1 n, s.landOk m.land m.key 4 m.roff m.len = true → m.ntfy = none → m.len ≤ n →
        s.netWrite asid va (m.data.take m.len) m.poison none ((m.data.take m.len).length + 1) 0 = (s1, n, none) →
        placed (.incomingPut m) ∧ placed (.uetPacketReceive { m with op := 1 } 0) ∧
        Completes (.incomingPut m) s fun s' => s'.mem = s1.mem) ∧
      (∀ s1 n, s.landOk m.land m.key 8 m.roff m.len = true → m.ntfy = none → m.len ≤ n →
        s.netWrite asid va (m.data.take m.len) m.poison (some m.etype.toNat) ((m.data.take m.len).length + 1) 0 = (s1, n, none) →
        placed (.incomingPutadd m) ∧ Completes (.incomingPutadd m) s fun s' => s'.mem = s1.mem) ∧
      (∀ s1 bs bad, m.uet = false → m.only = none → s.landOk m.land m.key 2 m.roff m.len = true → s.netRead asid va m.len = (s1, .ok bs bad) →
        (Completes (.incomingGet m) s fun s' =>
          s'.outs.getLast? = some (reply 0 m.len (if bad then 1 else 0) bs) ∧ s'.mem = s1.mem) ∧
        exec (.peerAccessRequest m 0) s = .next { s1 with outs := s1.outs ++ [reply 0 m.len (if bad then 1 else 0) bs] }) ∧
      (∀ s1, s.landOk m.land m.key 4 m.roff m.len = true →
        s.netPut 0 asid va m.data m.poison (some fun _ b => b) .store = (s1, none) → exec (.peerAccessRequest m 1) s =
          .next { s1 with outs := s1.outs ++ [reply 0 m.data.length 0 []] }) ∧
      (∀ s1 s2 p gpa old, s.landOk m.land m.key 6 m.roff m.len = true → s.netReach asid va .atomic = (s1, .at' p gpa) →
        s1.placeHeld p = (s1, false) → s1.getPlace (dteTenant (s.dte asid)) gpa p 4 (dteKtag (s.dte asid)) = (s2, old, false) →
        exec (.peerAccessRequest m 2) s = .next ((s2.putPlace { path := 0 } (dteTenant (s.dte asid)) gpa p
          (natLE 4 (wordOf (leNat old) + wordOf (leNat m.data)).toNat) (dteKtag (s.dte asid))).emit (reply 0 4 0 old))) ∧
      (∀ p r s1 n, m.ord = false → s.landKey 0 = m.key.toNat → m.rchain < 4096 → s.ncTenant m.rchain = s.landTenant 0 →
        s.ncRun m.rchain = true → s.openRecv m.rchain = some p → s.nreq m.rchain p = some r → m.len ≤ r.len → m.len ≤ n →
        let r1 := { r with st := 1, matched := some (m.node, m.chain, m.pos), imm := m.imm, peer := s.peerIx (s.ncTenant m.rchain) m.uet m.node }
        (s.setNreq m.rchain p r1).netWrite (s.ncAsid m.rchain) r.laddr (m.data.take r.len) m.poison none
          ((m.data.take r.len).length + 1) 0 = (s1, n, none) → s1.nreq m.rchain p = some r1 → m.ntfy = none →
        placed (.incomingSend m) ∧ Completes (.incomingSend m) s fun s' => s'.mem = s1.mem ∧
          ∃ r', s'.nreq m.rchain p = some r' ∧ r'.st = 2 ∧ r'.status = 0 ∧ r'.bytes = m.len ∧ r'.imm = m.imm)) ∧
    (s.linkOk m.uet = true → s.coreDown = false →
      (∀ r s1 n, s.nreq m.chain m.pos = some r → r.st = 1 → r.op = 2 → r.wait = 0 → r.acked = [] → r.part = [] → r.len ≤ n →
        (r.ord = true → ∀ x ∈ s.ordBefore m.chain m.pos r, x.2.op ≠ 2) →
        s.netWrite (s.ncAsid m.chain) r.laddr (m.data.take r.len) m.poison none ((m.data.take r.len).length + 1) 0 = (s1, n, none) →
        Completes (.uetPacketReceive { m with op := 2 } 0) s fun s' => ∃ r', s'.nreq m.chain m.pos = some r' ∧ r'.st = 2 ∧
          r'.status = (if r.poison || m.poison then 1 else 0) ∧ r'.bytes = r.len) ∧
      (m.op ≠ 1 → m.op ≠ 2 → m.op ≠ 3 → m.op ≠ 5 → s.Quiet → Completes (.uetPacketReceive m 0) s fun s' =>
        s'.outs = s.outs ∧ s'.mem = s.mem ∧ ∃ src, Reports s s' src { cat := 7, code := 2, aux0 := m.op.toNat })) ∧
    (s.linkOk false = true → s.asleep = false →
      (s.TeamIs k t → k < 86016 → t.peerOut ≠ [] → Completes (.peerStoreAcknowledge k) s fun s' =>
        ∃ i < t.peerOut.length, s'.TeamIs k { t with peerOut := t.peerOut.eraseIdx i }) ∧
      (86016 ≤ k → Completes (.peerStoreAcknowledge k) s fun s' =>
        s'.engOut.getD (k - 86016) 0 = s.engOut.getD (k - 86016) 0 - 1 ∧ s'.teams = s.teams)) ∧
    (port.toNat < 36 → s.portsDown.has port.toNat = false →
      let s2 : State := { s with portsDown := s.portsDown.insert port.toNat () }
      Completes (.kazidPortLost port) s fun s' => s'.portsDown.has port.toNat = true ∧
        (∀ ch pos r, s.nreq ch pos = some r → r.st = 1 → r.op ≠ 4 → s2.noRoute ch r = true →
          ∃ r', s'.nreq ch pos = some r' ∧ r'.st = 2 ∧ r'.status = 0x13) ∧
        (s.Quiet → Reports s s' (srcPort port.toNat) { cat := 8, code := 5 })))

/-! ### The scheduler, the Stoker, hosts, commands and the Chimney (R213, R297..R327, R350..R359, R366..R379, R384..R391) -/

/-- R310..R327: a host appends to its queue, stops it and ends a launch; the head of a running queue is read, refused or kept; an
eligible head is admitted, holding its aperture and the numbers seen; a reel is placed where it fits, else its placer backs off for
fewer than 16 x 2^min(f, 10) cycles; a reel is saved, ages and is restored; and a completed launch takes its queue's next number and
moves PREFIX. An append below H0 wakes the device (R388); that POWER_STATE_EXIT then stands at the end of the agenda is the model's reading
(log entry 30), as are the order of placement (log entry 25) and that a Chimney in error writes no register (log entry 58). -/
def Obligations.SchedulerEvents : Prop :=
  (∀ (s : State) (ag : BitVec 5) (q : BitVec 8) (v : BitVec 64),
    let n := q.toNat
    (s.ownsTenant ag (s.lqTenant n) = true → s.lqProd n = false → v.toNat = s.lqCount n + 1 → s.lqCount n < s.lqPrefix n + s.lqSlots n →
      exec (.lqappWrite ag q v) s = .next (s.setReg (oLqapp n) v.toNat).wakeUp ∧
      Completes (.lqappWrite ag q v) s fun s' => s'.lqCount n = s.lqCount n + 1 ∧ s'.mem = s.mem ∧ s'.launches = s.launches ∧
        (s.hst ≠ 0 → s'.agenda = s.agenda ++ [.event .powerStateExit])) ∧
    (¬ (s.ownsTenant ag (s.lqTenant n) = true ∧ s.lqProd n = false ∧ v.toNat = s.lqCount n + 1 ∧
        s.lqCount n < s.lqPrefix n + s.lqSlots n) →
      Completes (.lqappWrite ag q v) s fun s' => s'.lqCount n = s.lqCount n) ∧
    (s.ownsTenant ag (s.lqTenant n) = true → Completes (.lqcfgWrite ag q v) s fun s' =>
      s'.lqRun n = natBit v.toNat 8 ∧ s'.lqTenant n = s.lqTenant n ∧ s'.lqProd n = s.lqProd n ∧ s'.mr = s.mr) ∧
    (s.chimneyUp = false → exec (.lqcfgWrite 16 q v) s = .next s) ∧
    (s.chimneyUp = true → ag = 16 → natBit v.toNat 7 = s.lqProd n → Completes (.lqcfgWrite ag q v) s fun s' =>
      s'.lqTenant n = natBits v.toNat 0 4 ∧ s'.lqRun n = s.lqRun n ∧ s'.lqProd n = s.lqProd n ∧
      s'.mr = (s.extendMr 2 (Config.digest (oLqcfg n) v.toNat)).mr) ∧
    (∀ l, s.ownsTenant ag (s.lqTenant n) = true → s.launchAt n v.toNat = some l → l.admitted = true → l.status = none →
      l.done = false → s.resetting = false → exec (.lqendWrite ag q v) s = .next (s.endLaunch l) ∧
      Completes (.lqendWrite ag q v) s fun s' => ∃ l', s'.launchAt n v.toNat = some l' ∧ l'.status = some 1 ∧
        l'.toPlace = [] ∧ l'.lr = l.lr)) ∧
  (∀ (s s1 : State) (q : BitVec 8) (bs : List Byte),
    let n := q.toNat
    let pos := s.headPos n
    let ten := s.lqTenant n
    let lr := BitVec.ofNat 2048 (leNat bs)
    let l : Launch := {
      q := n, pos := pos, lr := lr, checked := true, eligAt := none, pairs := [], admitted := false, toPlace := [], live := 0, status := none, done := false, bad := [], fails := [], preempts := 0, energy := 0 }
    s.coreDown = false → s.lqRun n = true → pos ≤ s.lqCount n → s.launchAt n pos = none → s.waitsFor ten (.head n) = false →
      (s.gpaTo ten (s.lqSlot n pos) .load).isSome → s.readGpa ten (s.lqSlot n pos) 256 (s.hostKtag ten) = (s1, some bs) →
      (s1.recordStatus n lr = 0 → exec (.launchHeadCheck q) s = .next { s1 with launches := s1.launches ++ [l] }) ∧
      (s1.recordStatus n lr ≠ 0 → exec (.launchHeadCheck q) s = .next { s1 with
        launches := s1.launches ++ [{ l with admitted := true, status := some (s1.recordStatus n lr) }] })) ∧
  (∀ (s : State) (q : BitVec 8) (l : Launch),
    let pos := s.headPos q.toNat
    s.launchAt q.toNat pos = some l → (∀ x ∈ s.launches, x.q = q.toNat → x.pos = pos → x = l) → l.admitted = false → l.status = none →
    l.done = false → s.coreDown = false → s.eligible l = true → Completes (.launchAdmit q) s fun s' =>
      s'.launchAt q.toNat pos = some { l with
        admitted := true
        eligAt := some (l.eligAt.getD s.tick)
        pairs := if l.pairs = [] then (List.range (lrNdep l.lr)).map fun j => (lrDepSrc l.lr j, s.seq.getD (lrDepSrc l.lr j) 1 - 1)
          else l.pairs
        toPlace := List.range (lrReels l.lr)
        live := lrReels l.lr } ∧
      (∀ n, lrSavIdx l.lr = some n → natBit (s'.reg (oAp n)) 0 = true ∧
        natBits (s'.reg (oAp n)) 2 2 = if lrSact l.lr then 2 else 1)) ∧
  (∀ (s : State) (pl : BitVec 3) (q : BitVec 8) (pos rl : Nat) (cores : List Nat) (l : Launch),
    let n := pl.toNat
    let fails := l.fails.getD rl 0 + 1
    s.launchAt q.toNat pos = some l → l.admitted = true → l.status = none → l.toPlace.contains rl = true → s.coreDown = false →
      (s.placers.any fun x => x.1 != n && x.2.q == l.q && x.2.pos == pos && x.2.rl == rl) = false →
      (∀ p, s.placers.find? n = some p → p.ready = true) → s.placerBound n l.q pos rl = false → s.outranked l = false →
      s.savedFirst l = false → s.sectionFault l = none → lrWhole l.lr = false →
      (s.coresOk (s.tenOf l) l.lr cores = true → s.fitsOn l.lr cores = true →
        let t := s.commitReel l rl cores
        exec (.reelPlace pl q pos rl cores) s = .next { t with placers := t.placers.erase n } ∧
        Completes (.reelPlace pl q pos rl cores) s fun s' =>
          (∃ r, s'.reels.find? (reelKey q.toNat pos rl) = some r ∧ r.cores = cores ∧ r.wgs.length = lrWgpr l.lr ∧
            r.seats.length = lrWgpr l.lr * lrTpw l.lr ∧ r.placedAt = s.tick) ∧ s'.placers.find? n = none ∧
          s'.launchAt q.toNat pos = some { l with toPlace := l.toPlace.filter (· != rl) }) ∧
      (s.fitsOn l.lr cores = false → Completes (.reelPlace pl q pos rl cores) s fun s' => s'.reels = s.reels ∧ s'.teams = s.teams ∧
        s'.launchAt q.toNat pos = some { l with fails := l.fails.insert rl fails } ∧
        ∃ p, s'.placers.find? n = some p ∧ p.q = q.toNat ∧ p.pos = pos ∧ p.rl = rl ∧ p.ready = false ∧ p.fails = fails ∧
          p.waitCycles < 16 * 2 ^ min fails 10)) ∧
  (∀ (s : State) (pl : BitVec 3) (p : Placer), s.placers.find? pl.toNat = some p →
    exec (.placerBackoffExpiry pl) s = .next { s with placers := s.placers.insert pl.toNat { p with ready := true } }) ∧
  (∀ (s t : State) (rk : Nat) (r : Reel),
    let d := s.drainUnit [rk]
    s.unitOf rk = [rk] → s.unitMay [rk] = true → s.unitStops [rk] = true → (s.victims.contains rk || s.givesWay [rk]) = true →
    d.unitHeld [rk] = false → d.reels.find? rk = some r → d.saveReel rk = some t → exec (.reelPreempt rk) s = .next t ∧
      t.reels.find? rk = none ∧
      (∃ v, t.saved.find? rk = some v ∧ v.reel = r ∧ v.aged = 0 ∧ v.teams.map (·.1) = (d.teamsOfReel r).map (·.1)) ∧
      (∀ x ∈ t.teams, r.wgs.contains x.2.w = false) ∧ (∀ w ∈ r.wgs, t.wgs.find? w = none) ∧
      (∀ l, d.launchAt r.q r.pos = some l → t.launchAt r.q r.pos = some { l with preempts := l.preempts + 1 })) ∧
  (∀ (s : State) (rk : Nat) (cores : List Nat) (v : Saved) (l : Launch), s.saved.find? rk = some v →
    (s.launchAt v.reel.q v.reel.pos = some l → s.coreDown = false → l.status = none → lrWhole l.lr = false →
      s.behind v = false →
      s.restorable v v.reel.cores = true → exec (.reelRestore rk cores) s = .next (s.restoreReel rk v v.reel.cores) ∧
      ((∀ f ∈ (s.tenant (s.lqTenant v.reel.q)).faults, ∀ who, f.waiter ≠ .saved rk who) → Completes (.reelRestore rk cores) s fun s' =>
        s'.saved.find? rk = none ∧ (s'.reels.find? rk).map (·.cores) = some v.reel.cores)) ∧
    exec (.priorityAgeing rk) s = .next { s with saved := s.saved.insert rk { v with aged := min 31 (v.aged + 1) } }) ∧
  (∀ (s : State) (q : BitVec 8) (pos st : Nat) (l : Launch), s.launchAt q.toNat pos = some l → l.admitted = true → l.done = false →
    s.resetting = false → lrCtgt l.lr = 0 →
    (l.status = none ∧ l.live = 0 ∧ l.toPlace = [] ∧ st = 0 ∨
      l.status = some st ∧ s.wgsOfLaunch q.toNat pos = [] ∧ s.reelsOf q.toNat pos = []) →
    Completes (.launchComplete q pos) s fun s' =>
      s'.seq.getD (srcQueue q.toNat) 1 = s.seq.getD (srcQueue q.toNat) 1 + 1 ∧ s'.mem = s.mem ∧
      (pos = s.lqPrefix q.toNat + 1 → pos < 2 ^ 64 → s.launchAt q.toNat (pos + 1) = none → (s.ringWaits (32 + q.toNat)).contains pos = false →
        s'.lqPrefix q.toNat = pos ∧ s'.launchAt q.toNat pos = none) ∧
      (s.launchAt q.toNat (s.lqPrefix q.toNat + 1) = none →
        s'.launchAt q.toNat pos = some { l with status := some st, done := true, toPlace := [] }))

/-- R297..R306, R350..R359, R22: the Stoker resolves faults, refills pools, migrates, compresses, ends shootdowns and reclaims
frames; a host reads, writes, answers, binds, leaves and writes the registers of its logical device; and a core reset ends, its faults
discarded, its launches and its chains' requests completed as lost, and the slot template loaded. Which frame is taken, a host's
caching and how a fault is resolved are the model's choices or readings (log entries 8, 16, 26 and 33); so are that a Chimney that is not up
writes no LDCTL, EVHEAD or SQHEAD (log entries 58 and 59), and that the end of a core reset discards the faults of a tenant whose hart is
stopped as well (log entry 24). -/
def Obligations.StokerAndHostEvents : Prop :=
  (∀ (s : State) (ten : BitVec 4) (gpa fi : Nat) (near : Bool) (asid : BitVec 12),
    let n := ten.toNat
    s.hartUp n = true →
    ((s.tenant n).pool.length < 16 → exec (.poolRefill ten) s = .next (s.refill n 64) ∧ Completes (.poolRefill ten) s fun s' =>
      (∃ new, (s'.tenant n).pool = (s.tenant n).pool ++ new) ∧ (s'.tenant n).pool.length ≤ 64) ∧
    (∀ f x c, (s.tenant n).faults.filter (fun f => f.id == fi) = [f] → f.waiter = .ctx x → f.cause ≠ 1 → f.cause ≠ 3 → s.CtxIs x c →
      Completes (.stokerFaultResolve ten fi) s fun s' => s'.CtxIs x { c with stoker := 2 } ∧
        (s'.tenant n).faults = (s.tenant n).faults.filter fun f => !(f.id == fi)) ∧
    (∀ f k t a lvl e spa d, (s.tenant n).faults.find? (fun f => f.id == fi) = some f → f.cause = 3 → f.waiter = .team k → s.TeamIs k t →
      t.status = .waiting 14 → s.s2Walk 0 (s.tenant n).s2root f.gpa = .leaf a lvl e spa d →
      (∀ x ∈ (s.tenant n).faults, onPage f.gpa x = true → s.lacks n x = false ∧ x.need.w = false ∧ x.asked = false ∧ ∃ j, x.waiter = .team j) →
      ((s.dropFaults n (onPage f.gpa)).tenants.any fun z => z.2.faults.any fun x => x.waiter == .team k) = false →
      Completes (.stokerFaultResolve ten fi) s fun s' => (s'.tenant n).faults = (s.tenant n).faults.filter (fun x => !onPage f.gpa x) ∧
        s'.TeamIs k { t with status := .ready, readyAt := s.tick, stv := 0 }) ∧
    (∀ src dst s1 s2, s.plainFrame n gpa = some src → farFrame src = near →
      s.takeFrame n (if near then 1 else 2) = some (dst, s1) →
      s1.s2Set n gpa (s2Leaf src 1 (natBit (s1.s2Get n gpa) 59)) = some s2 → exec (.migrationStart ten gpa near) s = .next { s2 with
        migs := s2.migs ++ [{ ten := n, gpa := gpa, src := src, dst := dst, copied := 0, switched := false, failed := false, erred := false }] }) ∧
    (∀ m s2,
      let s1 := s.migrateRest n gpa 64
      s1.migOf n gpa = some m → m.failed = false → s1.s2Set n gpa (s2Leaf m.dst 0 (natBit (s1.s2Get n gpa) 59)) = some s2 →
      exec (.migrationSwitch ten gpa) s = .next ((({ s2 with forwards := s2.forwards.insert m.src m.dst }.moveCached m.src m.dst).modMig n gpa
        fun m => { m with switched := true }).startShoot (srcStoker n) (.gpage n (gpa / 4096)) (.free n m.src [])) ∧
      Completes (.migrationSwitch ten gpa) s fun s' => s'.migOf n gpa = none ∧ s'.forwards.find? m.src = some m.dst ∧
        ∃ x, s'.shoots = s2.shoots ++ [x] ∧ x.fin = .free n m.src [] ∧ x.scope = .gpage n (gpa / 4096)) ∧
    (∀ m, s.migOf n gpa = some m → m.failed = true →
      let e : Err := { cat := 6, code := 1, ten := some n, addr := gpa, aux0 := n % 4 }
      exec (.migrationAbort ten gpa) s = .next ((s.abortMig m).report (srcStoker n) e) ∧
      Completes (.migrationAbort ten gpa) s fun s' => s'.migOf n gpa = none ∧ (s.Quiet → Reports s s' (srcStoker n) e)) ∧
    (∀ f img s1 t, s.Quiet → s.plainFrame n gpa = some f → farFrame f = true →
      (!s.lentPage n gpa || decide (s.reserved n + 1 < (s.tenant n).far.length)) = true →
      ({ s with free := s.free + 1 } : State).takeFrame n 2 = some (img, s1) →
      s1.s2Set n gpa (s2Leaf img 2 (natBit (s1.s2Get n gpa) 59)) = some t → Completes (.compressPage ten gpa) s fun s' =>
        s' = { s with free := s.free + 1 } ∨ s'.forwards.find? f = some img ∧ (∃ im, s'.images.find? img = some im ∧ im.ten = n ∧
          im.gpa = gpa ∧ im.bytes = s.mem.readN f 4096 ∧ im.lost = []) ∧
          ∃ x, s'.shoots = t.shoots ++ [x] ∧ x.fin = .free n f [] ∧ x.scope = .gpage n (gpa / 4096)) ∧
    (let ended := fun (p : Popped) => p.asid == asid.toNat && !s.contextLive p.q p.pos
     Completes (.frameReclaim ten asid) s (fun s' => (s'.tenant n).popped = (s.tenant n).popped.filter fun p => !ended p) ∧
      ((∀ p ∈ (s.tenant n).popped, ended p = true → dteV (s.dte asid.toNat) = false) → (s.tenant n).popped.any ended = true →
        exec (.frameReclaim ten asid) s = .next (((s.tenant n).popped.filter ended).foldl (fun s p => s.unmapFree n p.page)
          (s.setTenant n { s.tenant n with popped := (s.tenant n).popped.filter fun p => !ended p }))))) ∧
  (∀ (s : State) (x : Shoot), s.shoots = [x] → s.mbox = [] →
    (∀ k t, x.got = [0, 1] → x.fin = .team k → s.TeamIs k t →
      Completes (.shootdownEcho x.ini x.seq 2) s fun s' => s'.shoots = [] ∧
        s'.TeamIs k { t with invs := t.invs.filter (· != (x.ini, x.seq)) } ∧ ∀ e ∈ s'.tlb, e.rcv = 2 → x.scope.covers e = false) ∧
    (∀ rcv < 3, x.got = [] → s.saved = [] → (s.teams.filter fun y => rcvOfCore (coreOfTeam y.1) == rcv) = [] →
      exec (.shootdownEcho x.ini x.seq rcv) s = .next { s with
        tlb := s.tlb.filter fun e => !(e.rcv == rcv && x.scope.covers e)
        shoots := [{ x with got := [rcv] }] })) ∧
  (∀ (s s1 : State) (ld : BitVec 4) (dpa len us : Nat) (bytes : List (BitVec 8)),
    let n := ld.toNat
    us ≤ s.ceil n →
    (∀ spa gpa, inLine dpa len = true → s.hostReach n dpa .load = (s1, .at' spa gpa) → (s1.hostBlock n gpa spa).2 = none →
      let t := { s1 with free := s1.free + 1 }.emit (.host n false (s1.sysBytes spa len))
      Completes (.hostRead ld dpa len us) s fun s' => s' = t ∨ s' = { t with hostCached := t.hostCached.insert (s1.realSpa spa / 64) n }) ∧
    (∀ c a, inLine dpa len = true → s.hostReach n dpa .load = (s1, .bad c a) →
      exec (.hostRead ld dpa len us) s = .next ((s1.hostError n c a).emit (.host n true []))) ∧
    (∀ c a, inLine dpa bytes.length = true → s.hostReach n dpa .store = (s1, .bad c a) →
      exec (.hostWrite ld dpa bytes us) s = .next ((s1.hostError n c a).emit (.hostDone n))) ∧
    (∀ spa gpa, inLine dpa bytes.length = true → s.hostReach n dpa .store = (s1, .at' spa gpa) →
      ((s1.hostBlock n gpa spa).2 = none →
        exec (.hostWrite ld dpa bytes us) s = .next ((s1.hostPut spa bytes (s.hostKtag n)).emit (.hostDone n))) ∧
      (∀ s2 c, s1.hostBlock n gpa spa = (s2, some c) → exec (.hostWrite ld dpa bytes us) s =
        .next ((if bytes.length = 64 then (s2.hostError n c gpa).hostPut spa bytes (s.hostKtag n) else s2.hostError n c gpa).emit
          (.hostDone n))))) ∧
  (∀ (s : State) (ld : BitVec 4) (line : Nat),
    let n := ld.toNat
    let at' := s.lineOf (64 * line)
    (∀ j, s.portHeld = [] → s.biWait = [] → s.hostCached.find? at' = some j →
      let back := fun (s : State) => { s with hostCached := s.hostCached.erase at', biAsked := s.biAsked.erase at' }
      exec (.backInvalidateResponse line none) s = .next (back s) ∧
      ∀ bs, bs.length = 64 → exec (.backInvalidateResponse line (some bs)) s = .next (back (s.putSys (64 * at') bs (s.hostKtag j)))) ∧
    (∀ s1, s.booted = true → s.bootOk = true → s.bound n = false → s.tenants.has n = true → s.mapLent n (s.lentPages n) = some s1 →
      exec (.ldBind ld) s = .next (s1.setReg (oLdctl n) (natPut (s1.reg (oLdctl n)) 8 1 1)) ∧
      Completes (.ldBind ld) s fun s' => s'.bound n = true) ∧
    (s.bound n = true → Completes (.ldUnbind ld) s fun s' => s'.bound n = false) ∧
    (s.bound n = true → (s.tenant n).reqs = [] →
      exec (.ldUnbind ld) s = .next ((s.forgetLines n).setReg (oLdctl n) (natPut (s.reg (oLdctl n)) 8 1 0))) ∧
    exec (.hostReset ld) s = .next (s.forgetLines n) ∧
    (s.biWait = [] → Completes (.hostReset ld) s fun s' => (∀ c ∈ s'.hostCached, c.2 ≠ n) ∧ s'.mem = s.mem)) ∧
  (∀ (s : State) (ag : BitVec 5) (ld : BitVec 4) (v : BitVec 64),
    let n := ld.toNat
    let id := natBits v.toNat 0 32
    let may := s.mayLd ag n = true ∧ (ag = 16 → s.chimneyUp = true)
    (s.chimneyUp = false → ∀ i ∈ [Instr.ldctlWrite 16 ld v, .evheadWrite 16 ld v, .sqheadWrite 16 ld v], exec i s = .next s) ∧
    (may → 2 ≤ natBits v.toNat 0 5 → natBits v.toNat 0 5 ≤ 16 → Completes (.ldctlWrite ag ld v) s fun s' =>
      s'.ceil n = natBits v.toNat 0 5 ∧ s'.tol n = natBits v.toNat 16 16 ∧ s'.bound n = s.bound n ∧ s'.hostKtag n = s.hostKtag n) ∧
    (may → s.reg (oEvhead n) ≤ v.toNat → v.toNat ≤ s.reg (oEvtail n) → (s.tenant n).reqs = [] →
      exec (.evheadWrite ag ld v) s = .next (s.setReg (oEvhead n) v.toNat)) ∧
    (may → s.reg (oSqhead n) ≤ v.toNat → v.toNat ≤ s.reg (oSqtail n) →
      exec (.sqheadWrite ag ld v) s = .next (s.setReg (oSqhead n) v.toNat)) ∧
    (s.bound n = true → s.hartUp n = false → exec (.prreply ld v) s = .next (s.setTenant n { s.tenant n with
      replies := (s.tenant n).replies ++ [(id, natBits v.toNat 32 8)] })) ∧
    (∀ r, s.bound n = true → s.hartUp n = true → (s.tenant n).reqs.find? (fun r => r.id == id) = some r →
      (natBits v.toNat 32 8 = 1 → exec (.prreply ld v) s = .next (s.failRequest n r)) ∧
      (natBits v.toNat 32 8 = 1 → (∀ x ∈ (s.tenant n).faults, onPage r.gpa x = false) → Completes (.prreply ld v) s fun s' =>
        ∀ x ∈ (s'.tenant n).reqs, x.id ≠ id) ∧
      (∀ a lvl e spa d s1, let s0 := s.plainPage n (s.stagePage n r.stage)
        natBits v.toNat 32 8 = 0 → (s.tenant n).faults.any (onPage r.gpa) = true → s0.pageState n r.gpa = 3 →
        s0.s2Walk 0 (s.tenant n).s2root (s0.stagePage n r.stage) = .leaf a lvl e spa d →
        (s0.endRequest n r true).s2Set n r.gpa (s2Leaf (frameOf spa) 0 (natBit (s0.s2Get n r.gpa) 59)) = some s1 →
        exec (.prreply ld v) s = .next (s1.resolveAll n (onPage r.gpa))))) ∧
  (∀ s : State, s.resetting = true → s.mbox = [] →
    let s1 := ((List.range 16).foldl State.discardFaults s).launchesLost
    exec .coreResetEnd s = .next (({ s1.chains.foldl State.chainLost s1 with resetting := false }.loadTemplate).deviceEvent 4 4) ∧
    Completes .coreResetEnd s fun s' => s'.resetting = false ∧ (∀ ld < 16, ∀ f ∈ (s'.tenant ld).faults, f.waiter = .none) ∧
      (∀ l ∈ s'.launches, l.admitted = true → l.done = true) ∧
      (∀ ch < 4096, 0 < s.ncPub ch → s.ncSeq ch ≤ s.ncPub ch → s.nreq ch (s.ncPub ch + 1) = none → s'.ncSeq ch = s.ncPub ch))

/-- R2, R5, R310, R356, R391, Tables 21.4, 21.5, 23.7: a Stoker command does what its block asks and ends with its status, BUSY while its
shootdowns go on; a mailbox command, alone, does what Table 23.7 says and ends with its status, recorded where it is refused, or stays
BUSY while its effects go on; HEARTHRESET boots the device; and a register write reaches the registers its writer may write. Operands
and statuses that the tables do not place are the model's readings (log entries 24, 27 and 28), and so are the answer of ERRREAD on the management bus
after a failed boot (log entry 59), that a Chimney that does not run writes nothing (log entry 58), and that a host's write to DEVID leaves no
record (log entry 65). -/
def Obligations.CommandEvents : Prop :=
  (∀ (s s1 : State) (ld : BitVec 4) (blk : Nat) (b : List Byte),
    let n := ld.toNat
    let a := natBits blk 6 46 * 64
    s.bound n = true → natBit (s.reg (oSkstat n)) 8 = false → s.hartUp n = true → s.readGpa n a 64 (s.hostKtag n) = (s1, some b) →
      ∀ x ∈ [(Instr.map ld blk, 1, cmdMap s1 n b), (.unmap ld blk, 2, cmdUnmap s1 n b), (.back ld blk, 3, cmdBack s1 n b),
          (.desc ld blk, 4, cmdDesc s1 n b), (.asid ld blk, 5, cmdAsid s1 n b), (.freeasid ld blk, 6, cmdFreeasid s1 n b),
          (.land ld blk, 7, cmdLand s1 n b), (.apert ld blk, 8, cmdApert s1 n b), (.apfree ld blk, 9, cmdApfree s1 n b)],
        s.opOf n blk = some x.2.1 → cmdOp b = x.2.1 →
        let t := x.2.2.1
        let t' := (t.writeGpa n (a + 56) (natLE 8 x.2.2.2.2) (t.hostKtag n)).getD t
        exec x.1 s = .next (t'.setReg (oSkstat n) (x.2.2.2.1 + if t'.cmdPending n then 256 else 0)) ∧
        Completes x.1 s fun s' => natBits (s'.reg (oSkstat n)) 0 8 = x.2.2.2.1 ∧ natBit (s'.reg (oSkstat n)) 8 = s'.cmdPending n ∧
          s'.apAlloc = t.apAlloc) ∧
  (∀ (s s1 s2 : State) (ld : BitVec 4) (blk st : Nat) (b : List Byte) (on : Bool),
    let n := ld.toNat
    let a := natBits blk 6 46 * 64
    let s0 := { s with mbox := [(n, a)] }.setReg (oMbstat n) (natPut (s.reg (oMbstat n)) 8 1 1)
    s.bound n = true → s.bootOk = true → s.chimneyDown = false → natBit (s.reg (oMbstat n)) 8 = false → s.mbox = [] →
      s0.readGpa n a 128 (s0.hostKtag n) = (s1, some b) → s1.mbDo n a b = (s2, st, on) →
      ∀ x ∈ [(Instr.corereset ld blk, 1), (.clmask ld blk, 3), (.starthart ld blk, 4), (.scrub ld blk, 5), (.obswrite ld blk, 6),
          (.errread ld blk, 7), (.extend ld blk, 8), (.cfgwrite ld blk, 9)], s.opOf n blk = some x.2 → cmdOp b = x.2 →
        let t := if 1 ≤ st ∧ st ≤ 3 then s2.report srcChimney { cat := 7, code := 2, ten := some n, ld := some n, aux0 := x.2 } else s2
        exec x.1 s = .next (if on then t.setReg (oMbstat n) (256 + st) else (t.setReg (oMbstat n) (256 + st)).mailboxEnd n) ∧
        Completes x.1 s fun s' => s'.reg (oMbstat n) = st + (if on then 256 else 0) ∧ s'.resetting = s2.resetting ∧ s'.mr = s2.mr ∧
          s'.hartsDown = s2.hartsDown ∧ ∀ k, (s'.tenant k).clusters = (s2.tenant k).clusters) ∧
  (∀ (s : State) (n a : Nat) (b : List Byte),
    let x := blkNat b 8 8
    let y := blkNat b 16 8
    let d := blkNat b 8 1
    s.isAdmin n = true →
    (cmdOp b = 1 → s.mbDo n a b = (s.atH0.coreResetBegin, 0, true)) ∧
    (cmdOp b = 3 → d < 16 → s.mbDo n a b =
      (s.setTenant d { s.tenant d with clusters := BitVec.ofNat 88 (blkNat b 16 11 % 2 ^ 84) }, 0, false)) ∧
    (cmdOp b = 4 → d < 4 → s.mbDo n a b =
      if s.hartsDown.has d then ({ s with hartsDown := s.hartsDown.erase d }.skResume d, 0, false) else (s, 3, false)) ∧
    (cmdOp b = 5 → d < 16 → s.bound d = true → s.mbDo n a b = (s, 3, false)) ∧
    (cmdOp b = 5 → d < 16 → s.bound d = false → (s.mbDo n a b).1 = s.scrub n d ∧ (s.mbDo n a b).2.1 = 0) ∧
    (cmdOp b = 6 → ∀ t, obsReg x = true → (if coreDomainReg x then s.atH0 else s).obsPut x y = some t → s.mbDo n a b = (t, 0, false)) ∧
    (cmdOp b = 7 → ∀ t, s.copyRecords n x (s.records.drop (s.records.length - min y s.records.length)) = (t, y) →
      y ≤ s.records.length → s.mbDo n a b = ((t.writeGpa n (a + 120) (natLE 8 y) (t.hostKtag n)).getD t, 0, false)) ∧
    (cmdOp b = 8 → s.mbDo n a b =
      if d = 6 ∨ d = 7 then (s.extendMr d (BitVec.ofNat 512 (blkNat b 64 64)), 0, false) else (s, 1, false)) ∧
    (cmdOp b = 9 → s.mbDo n a b =
      if cfgReg x then (s.cfgPut x y, if s.cfgRefuses x y then 4 else 0, false) else (s, 1, false))) ∧
  (∀ (s : State) (ld : BitVec 4) (blk : Nat), s.booted = true → s.bootOk = false →
    exec (.errread ld blk) s = .next (s.emit (.mgmtBus s.records))) ∧
  (∀ (s s1 : State) (ld : BitVec 4) (blk : Nat) (b : List Byte) (cfg : BootCfg),
    let n := ld.toNat
    let a := natBits blk 6 46 * 64
    let c := s.flash.getD cfg
    let s0 := { s with flash := some c, mbox := [(n, a)] }.setReg (oMbstat n) (natPut (s.reg (oMbstat n)) 8 1 1)
    s.bound n = true → s.chimneyUp = true → natBit (s.reg (oMbstat n)) 8 = false → s.mbox = [] →
      s0.readGpa n a 128 (s0.hostKtag n) = (s1, some b) → s.opOf n blk = some 2 → cmdOp b = 2 → s1.isAdmin n = true →
      exec (.hearthreset ld blk cfg) s = .next (s1.hearthReset 2 c) ∧
      (c.fail ≠ 1 → c.fail ≠ 2 → Completes (.hearthreset ld blk cfg) s fun s' => s'.bootOk = true ∧ natBits (s'.reg oChstat) 0 8 = 2 ∧
        s'.teams = [] ∧ s'.launches = [] ∧ s'.mem = [])) ∧
  (∀ (s : State) (ag : BitVec 5) (off : Nat) (v : BitVec 64),
    (16 < ag.toNat ∨ off = oDevid ∨ ag = 16 ∧ s.chimneyUp = false → exec (.registerWrite ag off v) s = .next s) ∧
    (ag = 16 → s.chimneyUp = true → off = oCethr → Completes (.registerWrite ag off v) s fun s' => natBits (s'.reg oCethr) 0 16 = natBits v.toNat 0 16 ∧
      s'.mr = (s.extendMr 2 (Config.digest oCethr v.toNat)).mr ∧ s'.mem = s.mem) ∧
    (ag.toNat < 16 → off = oCethr → Completes (.registerWrite ag off v) s fun s' => s'.reg oCethr = s.reg oCethr))

/-- R350, R366..R379, R328, R384..R386: the SPDM responder answers in its one version while the Chimney's core runs after a boot that
succeeded, with what Table 23.2 fixes, keeps at most four sessions of a device, makes and deletes key tags; a mailbox answers; and the
Chimney stops, resumes and steps partitions, which stop at their choice points, sample, dump and are metered, every unit of energy
going to a launch or to the device-idle account. The response and error codes are those of log entry 20. Which stop cause wins, and when a
dump is written, are read under log entry 41; that energy is conserved to the unit, what a division leaves going to the device-idle account, is
read under log entry 18; that the mailboxes, SPDM and the debug registers stand still while the Chimney's core is down is read
under log entry 58. -/
def Obligations.SecurityAndDebug : Prop :=
  (∀ (s : State) (ld : BitVec 4) (sid : Nat) (ix kt slot : BitVec 8) (host : Bool),
    let n := ld.toNat
    let free := fun (i : Instr) (code : Nat) (head : List Byte) (ss : List (Nat × Nat × Bool)) => exec i s =
      .next ({ s with free := s.free + 1, sessions := ss }.emit (.spdm n code (head ++ Config.freeBytes s.free)))
    let answers := fun (i : Instr) (code : Nat) (bs : List Byte) => exec i s = .next (s.emit (.spdm n code bs))
    let fails := fun (i : Instr) (code : Nat) => answers i 0x7F [BitVec.ofNat 8 code]
    s.bootOk = true → s.chimneyDown = false →
    (∀ ver : BitVec 8, ver ≠ 0x13 → ∀ i ∈ [Instr.getVersion ld ver, .getCapabilities ld ver, .negotiateAlgorithms ld ver, .getDigests ld ver,
        .getCertificate ld (ver, slot), .challenge ld (ver, slot), .getMeasurements ld ver ix, .keyExchange ld ver, .finish ld ver sid,
        .endSession ld ver sid, .keyUpdate ld ver sid, .heartbeat ld ver sid, .keygen ld ver sid host, .keydel ld ver sid kt,
        .spdmUnsupportedRequest ld ver], fails i 0x41) ∧
    answers (.getVersion ld 0x13) 0x04 [0x13] ∧ free (.getCapabilities ld 0x13) 0x61 (natLE 4 0x62D6) s.sessions ∧
    answers (.negotiateAlgorithms ld 0x13) 0x63 (natLE 4 0x08 ++ natLE 4 0x100 ++ natLE 4 0x04 ++ natLE 2 0x20 ++ natLE 2 0x02) ∧
    free (.getDigests ld 0x13) 0x01 [1] s.sessions ∧ free (.getCertificate ld (0x13, 0)) 0x02 [0] s.sessions ∧
    free (.challenge ld (0x13, 0)) 0x03 [0] s.sessions ∧
    (slot ≠ 0 → fails (.getCertificate ld (0x13, slot)) 0x01 ∧ fails (.challenge ld (0x13, slot)) 0x01) ∧
    (1 ≤ ix.toNat → ix.toNat ≤ 8 → answers (.getMeasurements ld 0x13 ix) 0x60 (natLE 64 (s.mr.getD (ix.toNat - 1) 0).toNat)) ∧
    (ix = 10 → answers (.getMeasurements ld 0x13 ix) 0x60 ((s.keys.filter fun k => k.2 == n).map fun k => BitVec.ofNat 8 k.1)) ∧
    (ix = 0 ∨ 10 < ix.toNat ∧ ix ≠ 0xFF → fails (.getMeasurements ld 0x13 ix) 0x01) ∧
    ((s.sessions.filter fun x => x.1 == n).length < 4 → Completes (.keyExchange ld 0x13) s fun s' => ∃ id bs,
      s'.sessions = s.sessions ++ [(n, id, false)] ∧ (∀ x ∈ s.sessions, x.1 = n → x.2.1 ≠ id) ∧ s'.outs = s.outs ++ [.spdm n 0x64 bs]) ∧
    (4 ≤ (s.sessions.filter fun x => x.1 == n).length → fails (.keyExchange ld 0x13) 0x0A) ∧
    (s.sessions.contains (n, sid, false) = true → free (.finish ld 0x13 sid) 0x65 []
      (s.sessions.map fun x => if x = (n, sid, false) then (n, sid, true) else x)) ∧
    (s.sessions.contains (n, sid, true) = true →
      free (.endSession ld 0x13 sid) 0x6C [] (s.sessions.filter (· != (n, sid, true))) ∧
      free (.keyUpdate ld 0x13 sid) 0x69 [] s.sessions ∧ free (.heartbeat ld 0x13 sid) 0x68 [] s.sessions ∧
      (∀ i, (List.range 255).find? (fun i => !s.keys.has (i + 1)) = some i → Completes (.keygen ld 0x13 sid host) s fun s' =>
        s'.keys = s.keys.insert (i + 1) n ∧ (host = true → s'.hostKtag n = i + 1) ∧ (host = false → s'.hostKtag n = s.hostKtag n) ∧
        s'.mr = (s.extendMr 5 (Config.digest n (i + 1))).mr ∧ s'.outs = s.outs ++ [.spdm n 0x7E [0, BitVec.ofNat 8 (i + 1)]]) ∧
      (kt ≠ 0 → s.keys.find? kt.toNat = some n → Completes (.keydel ld 0x13 sid kt) s fun s' => s'.keys = s.keys.erase kt.toNat ∧
        (∀ line, s.lineKey.getD line 0 = kt.toNat → s'.lineKey.getD line 0 = 256) ∧
        (s.hostKtag n = kt.toNat → s'.hostKtag n = 0) ∧ s'.mr = (s.extendMr 5 (Config.digest n kt.toNat)).mr ∧
        s'.outs = s.outs ++ [.spdm n 0x7E [0]])) ∧
    (s.sessions.contains (n, sid, true) = false → ∀ i ∈ [Instr.endSession ld 0x13 sid, .keyUpdate ld 0x13 sid, .heartbeat ld 0x13 sid,
      .keygen ld 0x13 sid host, .keydel ld 0x13 sid kt], fails i 0x0B) ∧
    fails (.spdmUnsupportedRequest ld 0x13) 0x07 ∧
    exec (.identifyMemoryDevice ld) s = .next (s.emit (.identify n ((s.lentMap n).map (·.2)).sum)) ∧
    exec (.getHealthInfo ld) s = .next ({ s with free := s.free + 1 }.emit (.health n (Config.freeBytes s.free)))) ∧
  (∀ (s : State) (ld : BitVec 4), s.bootOk = false ∨ s.chimneyDown = true →
    exec (.identifyMemoryDevice ld) s = .next s ∧ exec (.getHealthInfo ld) s = .next s ∧ exec (.getVersion ld 0x13) s = .next s) ∧
  (∀ (s : State) (pt : Nat) (slot : BitVec 4),
    (s.chimneyUp = false → ∀ i ∈ [Instr.dbgStop pt, .dbgResume pt, .dbgStep pt slot], exec i s = .next s) ∧
    (pt < 5376 → s.resetting = false → s.chimneyUp = true →
      exec (.dbgStop pt) s = .next ((s.atH0.obsPut (oDbgctl pt) (s.atH0.reg (oDbgctl pt) + 1)).getD s.atH0))) ∧
  (∀ (s : State) (pt : Nat) (slot : BitVec 4), pt < 5376 → s.resetting = false → s.chimneyUp = true → s.hst = 0 →
    s.reg (oDbgctl pt) % 8 = 0 →
    (s.stopped pt = false → Completes (.dbgStop pt) s fun s' => (s'.part pt).stopReq = (s.part pt).stopReq ++ [(1, 0, 0)] ∧
      s'.mr = (s.extendMr 4 (Config.digest (oDbgctl pt) (s.reg (oDbgctl pt) + 1))).mr ∧ s'.teams = s.teams ∧ s'.mem = s.mem) ∧
    (s.stopped pt = true → Completes (.dbgResume pt) s fun s' => s'.stopped pt = false ∧ s'.teams = s.teams ∧ s'.mem = s.mem) ∧
    (s.stopped pt = true → s.teams.has (16 * pt + slot.toNat) = true → Completes (.dbgStep pt slot) s fun s' => s'.stopped pt = false ∧
      (s'.part pt).stepSlot = some slot.toNat ∧ s'.teams = s.teams ∧ s'.mem = s.mem)) ∧
  (∀ (s : State) (pt cause slot code : Nat), firstCause (s.part pt).stopReq = some (cause, slot, code) → (s.part pt).issuing = none →
    s.stopped pt = false → cause < 16 → slot < 16 → code < 256 → Completes (.partitionStopTakeEffect pt) s fun s' =>
      s'.reg (oDbgstat pt) = code * 2 ^ 24 + slot * 2 ^ 20 + cause * 2 ^ 16 + 1 ∧ (s'.part pt).stopReq = [] ∧
      (s'.part pt).stepSlot = none ∧ s'.teams = s.teams ∧ s'.mem = s.mem) ∧
  (∀ (s : State) (pt : Nat), natBit (s.reg (oSmpctl (pt / 8))) 0 = true → 16 ≤ natBits (s.reg (oSmpctl (pt / 8))) 8 24 →
    s.stopped pt = false → (s.part pt).pcyc % natBits (s.reg (oSmpctl (pt / 8))) 8 24 = 0 → (s.part pt).sampAt ≠ (s.part pt).pcyc + 1 →
    exec (.stallSample pt) s = .next ((s.setPart pt { s.part pt with sampAt := (s.part pt).pcyc + 1 }).takeSample pt s.nextMark) ∧
    Completes (.stallSample pt) s fun s' => (s'.part pt).sampAt = (s.part pt).pcyc + 1 ∧ s'.teams = s.teams) ∧
  (∀ (s : State) (k : Nat) (d : Dump) (ds : List Dump), s.dumps = d :: ds → d.src = srcPart (k / 16) → d.wrote = none →
    exec (.coreDump k) s = .next (s.writeDump d ds) ∧
    Completes (.coreDump k) s fun s' => (s'.dumps = ds ∨ ∃ w, s'.dumps = { d with wrote := some w } :: ds) ∧ s'.teams = s.teams ∧
      (s.hostCached = [] → s.biWait = [] → s'.dumps = ds)) ∧
  (∀ (s : State) (c idle : Nat) (dyn : List Nat) (eng : List (Nat × Nat × Nat)),
    let total := fun (s : State) => (s.launches.map (·.energy)).sum + s.idleEnergy
    (∀ l ∈ s.launches, (s.launches.filter fun x => x.q == l.q && x.pos == l.pos) = [l]) →
    Completes (.meteringInterval c dyn idle eng) s fun s' => s'.meter = s.meter.filter (fun x => x.1 / 8 != c) ∧
      total s' = total s + ((List.range 64).map fun i => dyn.getD i 0).sum + idle + (eng.map fun x => x.2.2).sum ∧
      s'.mem = s.mem ∧ s'.teams = s.teams)

/-! ### The machine as a whole -/

/-- Words that the manual itself gives with their meaning (Tables 6.8, 9.16, 13.3, 19.7 and 22.4, and the examples of R51, R165,
R166, R225, R286 and others) decode to the instruction they stand for. -/
def Obligations.DecodedWords : Prop :=
  decode 0x04288010 = .ok (.addi 5 4 1 ⟨0, false⟩) ∧
  decode 0x16384030 = .ok (.shli 7 2 3 ⟨0, false⟩) ∧
  decode 0x1A084220 = .ok (.ltI32 0 1 2 4 ⟨0, false⟩) ∧
  decode 0x24302130 = .ok (.fmac 6 1 2 ⟨0, false⟩) ∧
  decode 0x34288001 = .ok (.frcp 5 4 1) ∧
  decode 0x403140D0 = .ok (.ld64 6 10 1 0) ∧
  decode 0x44419C63 = .ok (.st128 8 12 14 1 3) ∧
  decode 0x52314100 = .ok (.scall 6 10 2 0) ∧
  decode 0x881FFFFB = .ok (.umovi 3 0x7FFFB) ∧
  decode 0x941FFFFD = .ok (.bra ⟨0, false⟩ 0x1FFFFD) ∧
  decode 0xA202B040 = .ok (.fence 1 2 3 1) ∧
  decode 0xA610C170 = .ok (.waitv 2 6 2 ⟨0, false⟩) ∧
  decode 0xAC198280 = .ok (.mldb 3 12 5 ⟨0, false⟩) ∧
  decode 0xAF940000 = .ok (.xfwd 50 32 ⟨0, false⟩) ∧
  decode 0xB0204180 = .ok (.ntail 4 2 3 ⟨0, false⟩) ∧
  decode 0xB800A000 = .ok (.brk 5 ⟨0, false⟩) ∧
  decode 0x1B5800A0 = .error 7 ∧
  decodeBellows 0x80480000 = some (.recv 1 2) ∧
  decodeBellows 0x84840020 = some (.copy 2 1 0 32) ∧
  decodeBellows 0x50003FFE = some (.jmp 0x3FFE)

/-- R72, R88, R225: a step at a partition whose team in issue has reached a word that decodes runs that word on that team; a step at
a Bellows context that can go on runs the word at its program counter; a step at an event runs the event. Which agent moves is a
place on the agenda, which the step uses up before what has ended by itself is settled (log entry 1, DESIGN CHOICE). -/
def Obligations.StepRunsDecoded : Prop :=
  (∀ (s : State) (pt k : Nat) (rest : List Actor) (t : Team) (r : Run) (w : Word) (i : Instr),
    let b := s.begin
    s.agenda = .partition pt :: rest → b.coreDown = false → b.stopped pt = false →
    (∀ (x : Nat × Team), List.Mem x (b.teamsOf pt) → b.backoffOver x.1 x.2 = false) →
    (∀ (x : Nat × Team), List.Mem x (b.teamsOf pt) → (b.starved x.2).isSome = false) →
    (b.part pt).issuing = some k → b.TeamIs k t → t.run = some r → r.words[r.idx]? = some w → t.stalled r w = false →
    t.status ≠ .waiting 13 → decode w = .ok i → step s = exec i { b with cur := k }) ∧
  (∀ (s : State) (x : Nat) (rest : List Actor) (c : Ctx) (i : Instr),
    let b := s.begin
    s.agenda = .bellows x :: rest → b.coreDown = false → b.CtxIs x c → c.halted = false → c.fault = 0 → c.stoker ≠ 1 →
    c.pc.toNat < 0x4000 → decodeBellows c.word = some i → (∀ d a, i ≠ .tsetClose d a) → step s = exec i { b with curCtx := x }) ∧
  (∀ (s : State) (x : Nat) (rest : List Actor) (c : Ctx) (d a : BitVec 4),
    let b := s.begin
    s.agenda = .bellows x :: rest → b.coreDown = false → b.CtxIs x c → c.halted = false → c.fault = 0 → c.stoker ≠ 1 →
    c.pc.toNat < 0x4000 → decodeBellows c.word = some (.tsetClose d a) →
    step s = exec (if natBits (c.get a).toNat 8 2 = 1 then .tsetTag d a else .tsetClose d a) { b with curCtx := x }) ∧
  (∀ (s : State) (rest : List Actor) (e : Instr), s.agenda = .event e :: rest → step s = exec e s.begin)

/-- R90 to R104, R225: decoding the word of a well-formed instruction gives that instruction back, with every operand at every value
its field holds. (TSET is one word for two rows; its operation stands in a register, so its word decodes to one of them.) -/
def Obligations.RoundTrip : Prop :=
  ∀ (i : Instr) (w : Word), encode i = some w →
    (ofBellows i = false → WellFormed i = true → decode w = .ok i) ∧
    (ofBellows i = true → (∀ d a, i ≠ .tsetTag d a) → decodeBellows w = some i)

/-- The model's own invariant: memory stays in its one canonical form through every step of every agent. -/
def Obligations.MemoryFormKept : Prop :=
  ∀ (s s' : State), step s = .next s' → s.mem.wf = true → s'.mem.wf = true

/-- R20, R25: what power-on leaves: the Reset values of the registers (Tables 0.1, 5.9, 18.2, 21.2 and 23.6), no agent at work, and
every source's counter at 1. That memory which nothing has written reads as 0 is the model's choice (log entry 2, DESIGN
CHOICE). -/
def Obligations.ResetState : Prop :=
  State.reset.mem.wf = true ∧ (∀ a, Memory.read State.reset.mem a = 0) ∧
  State.reset.reg oDevid = 0x96725C10 ∧
  natBits (State.reset.reg oChstat) 32 16 = 1900 ∧ natBits (State.reset.reg oChstat) 0 4 = 1 ∧
  State.reset.reg oCethr = 0x100 ∧
  (∀ ld < 16, State.reset.reg (oLdctl ld) = 0x640004) ∧
  (∀ pt < 5376, State.reset.reg (oSlotCtl pt) = 1) ∧
  (∀ i < 8, State.reset.reg (oTemplate i) = 0) ∧
  (∀ q < 256, State.reset.lqCount q = 0 ∧ State.reset.lqPrefix q = 0 ∧ State.reset.lqRun q = false) ∧
  (∀ src, State.reset.seq.getD src 1 = 1) ∧
  State.reset.teams = [] ∧ State.reset.ctxs = [] ∧ State.reset.launches = [] ∧ State.reset.tiles = [] ∧ State.reset.bootOk = false
end

