-- ==== Sys2Proof/Laws/Tables.lean ====
section
/-! SUPPORT. Tables and memory: a read after a write, and the canonical form, which every operation keeps. -/

namespace Sys2Proof.Machine

variable {α : Type}

/-! ### A read after a write -/

theorem SMap.find_insert_self (m : SMap α) (k : Nat) (v : α) : (m.insert k v).find? k = some v := by
  induction m with
  | nil => simp [SMap.insert, SMap.find?]
  | cons c m ih =>
    obtain ⟨k', v'⟩ := c
    simp only [SMap.insert]
    split
    · simp [SMap.find?]
    · split
      · simp [SMap.find?]
      · simp [SMap.find?, *]

theorem SMap.find_insert_ne (m : SMap α) {k j : Nat} (v : α) (h : j ≠ k) : (m.insert k v).find? j = m.find? j := by
  induction m with
  | nil => simp [SMap.insert, SMap.find?, h]
  | cons c m ih =>
    obtain ⟨k', v'⟩ := c
    simp only [SMap.insert]
    split
    · simp [SMap.find?, h]
    · split
      · subst_vars; simp [SMap.find?, h]
      · simp only [SMap.find?, ih]

theorem SMap.find_insert (m : SMap α) (k j : Nat) (v : α) : (m.insert k v).find? j = if j = k then some v else m.find? j := by
  split
  · subst_vars; exact SMap.find_insert_self m _ v
  · exact SMap.find_insert_ne m v ‹_›

theorem SMap.find_erase (m : SMap α) (k j : Nat) : (m.erase k).find? j = if j = k then none else m.find? j := by
  induction m with
  | nil => simp [SMap.erase, SMap.find?]
  | cons c m ih =>
    obtain ⟨k', v'⟩ := c
    simp only [SMap.erase]
    split
    · subst_vars; rw [ih]; split <;> simp [SMap.find?, *]
    · simp only [SMap.find?, ih]; split <;> simp_all [eq_comm]

theorem SMap.getD_insert (m : SMap α) (k j : Nat) (v d : α) : (m.insert k v).getD j d = if j = k then v else m.getD j d := by
  simp only [SMap.getD, SMap.find_insert]; split <;> rfl

theorem SMap.getD_setD [DecidableEq α] (m : SMap α) (k j : Nat) (v d : α) :
    (m.setD k v d).getD j d = if j = k then v else m.getD j d := by
  simp only [SMap.setD]
  split
  · simp only [SMap.getD, SMap.find_erase]; split <;> simp_all
  · exact SMap.getD_insert m k j v d

theorem SMap.find_modify (m : SMap α) (k j : Nat) (f : α → α) :
    (m.modify k f).find? j = if j = k then (m.find? k).map f else m.find? j := by
  simp only [SMap.modify]
  cases h : m.find? k with
  | none => simp; intro hj; rw [hj, h]
  | some v => simp [SMap.find_insert]

/-! ### The canonical form -/

/-- A bound that a key is above. -/
def SMap.below (o : Option Nat) (k : Nat) : Bool := match o with | none => true | some n => decide (n < k)

theorem SMap.risingFrom_cons (o : Option Nat) (c : Nat × α) (m : SMap α) :
    SMap.risingFrom o (c :: m) = (SMap.below o c.1 && SMap.risingFrom (some c.1) m) := by
  obtain ⟨k, v⟩ := c
  cases o <;> simp [SMap.risingFrom, SMap.below]

theorem SMap.risingFrom_insert (m : SMap α) (o : Option Nat) (k : Nat) (v : α) (hk : SMap.below o k = true)
    (h : SMap.risingFrom o m = true) : SMap.risingFrom o (m.insert k v) = true := by
  induction m generalizing o with
  | nil => simp [SMap.insert, SMap.risingFrom_cons, SMap.risingFrom, hk]
  | cons c m ih =>
    obtain ⟨k', v'⟩ := c
    simp only [SMap.risingFrom_cons, Bool.and_eq_true] at h
    simp only [SMap.insert]
    split
    · rw [SMap.risingFrom_cons, SMap.risingFrom_cons, hk, h.2]; simp [SMap.below, *]
    · split
      · subst_vars; simp [SMap.risingFrom_cons, h]
      · simp only [SMap.risingFrom_cons, Bool.and_eq_true]
        exact ⟨h.1, ih _ (by simp [SMap.below]; omega) h.2⟩

theorem SMap.risingFrom_weaken (m : SMap α) (a b : Option Nat) (hab : ∀ k, SMap.below b k = true → SMap.below a k = true)
    (h : SMap.risingFrom b m = true) : SMap.risingFrom a m = true := by
  cases m with
  | nil => simp [SMap.risingFrom]
  | cons c m =>
    simp only [SMap.risingFrom_cons, Bool.and_eq_true] at h ⊢
    exact ⟨hab _ h.1, h.2⟩

theorem SMap.risingFrom_filter (m : SMap α) (o : Option Nat) (p : Nat × α → Bool) (h : SMap.risingFrom o m = true) :
    SMap.risingFrom o (m.filter p) = true := by
  induction m generalizing o with
  | nil => simp [SMap.risingFrom]
  | cons c m ih =>
    simp only [SMap.risingFrom_cons, Bool.and_eq_true] at h
    simp only [List.filter]
    split
    · simp only [SMap.risingFrom_cons, Bool.and_eq_true]; exact ⟨h.1, ih _ h.2⟩
    · refine ih _ (SMap.risingFrom_weaken m _ _ ?_ h.2)
      intro k hk
      cases o <;> simp_all [SMap.below]; omega

theorem SMap.erase_eq_filter (m : SMap α) (k : Nat) : m.erase k = m.filter fun c => !decide (k = c.1) := by
  induction m with
  | nil => rfl
  | cons c m ih => obtain ⟨k', v⟩ := c; simp only [SMap.erase, List.filter, ih]; split <;> simp_all

/-- A blank byte is not listed, and the addresses rise. -/
theorem Memory.wf_nil : Memory.wf [] = true := by decide

theorem Memory.mem_insert (m : Memory) (a : Nat) (b : Byte) (c : Host.Cell) (h : c ∈ SMap.insert m a b) : c = (a, b) ∨ c ∈ m := by
  induction m with
  | nil => simp_all [SMap.insert]
  | cons c' m ih =>
    obtain ⟨k', v'⟩ := c'
    simp only [SMap.insert] at h
    split at h
    · simp_all
    · split at h
      · simp_all; tauto
      · simp at h; rcases h with h | h
        · simp [h]
        · rcases ih h with h | h <;> simp [h]

theorem Memory.wf_write (m : Memory) (a : Nat) (b : Byte) (h : m.wf = true) : (m.write a b).wf = true := by
  simp only [Memory.wf, Bool.and_eq_true] at h ⊢
  simp only [Memory.write, SMap.setD]
  split
  · rw [SMap.erase_eq_filter]
    refine ⟨SMap.risingFrom_filter _ _ _ h.1, ?_⟩
    simp only [List.all_eq_true] at h ⊢
    exact fun c hc => h.2 c (List.mem_of_mem_filter hc)
  · refine ⟨SMap.risingFrom_insert _ _ _ _ rfl h.1, ?_⟩
    simp only [List.all_eq_true] at h ⊢
    intro c hc
    rcases Memory.mem_insert m a b c hc with rfl | hc
    · simpa using ‹¬ _›
    · exact h.2 c hc

theorem Memory.wf_writeN (m : Memory) (a : Nat) (bs : List Byte) (h : m.wf = true) : (m.writeN a bs).wf = true := by
  induction bs generalizing m a with
  | nil => exact h
  | cons b bs ih => exact ih _ _ (Memory.wf_write m a b h)

theorem Memory.wf_filter (m : Memory) (p : Host.Cell → Bool) (h : m.wf = true) : Memory.wf (m.filter p) = true := by
  simp only [Memory.wf, Bool.and_eq_true, List.all_eq_true] at h ⊢
  exact ⟨SMap.risingFrom_filter _ _ _ h.1, fun c hc => h.2 c (List.mem_of_mem_filter hc)⟩

/-! ### Reading memory -/

theorem Memory.read_write (m : Memory) (a j : Nat) (b : Byte) : (m.write a b).read j = if j = a then b else m.read j :=
  SMap.getD_setD m a j b Memory.blank

/-- A write of bytes changes exactly the bytes from its address on. -/
theorem Memory.read_writeN (m : Memory) (a j : Nat) (bs : List Byte) :
    (m.writeN a bs).read j = if a ≤ j ∧ j < a + bs.length then bs.getD (j - a) 0 else m.read j := by
  induction bs generalizing m a with
  | nil => simp [Memory.writeN]
  | cons b bs ih =>
    simp only [Memory.writeN, ih, Memory.read_write, List.length_cons]
    by_cases h : j = a
    · subst h; simp
    · by_cases h' : a + 1 ≤ j ∧ j < a + 1 + bs.length
      · rw [if_pos h', if_pos (by omega)]
        obtain ⟨d, hd⟩ : ∃ d, j - a = d + 1 := ⟨j - a - 1, by omega⟩
        rw [hd, List.getD_cons_succ, show j - (a + 1) = d by omega]
      · rw [if_neg h', if_neg h, if_neg (by omega)]

theorem Memory.readN_length (m : Memory) (a n : Nat) : (m.readN a n).length = n := by
  induction n generalizing a with
  | zero => rfl
  | succ n ih => simp [Memory.readN, ih]

end Sys2Proof.Machine
end

