-- ==== Sys2Proof/Laws/Memory.lean ====
section
/-! SUPPORT. Every operation on system memory keeps its canonical form. -/

namespace Sys2Proof.Machine

/-- A fold keeps what each of its steps keeps. -/
theorem foldl_keeps {α β : Type} (P : β → Prop) (f : β → α → β) (hf : ∀ b a, P b → P (f b a)) (l : List α) (b : β) (h : P b) :
    P (l.foldl f b) := by
  induction l generalizing b with
  | nil => exact h
  | cons a l ih => exact ih _ (hf b a h)

theorem Memory.wf_clear (m : Memory) (a n : Nat) (h : m.wf = true) : (m.clear a n).wf = true := Memory.wf_filter m _ h

/-! ### Registers -/

theorem toNat_dwordOf (v : Nat) : (dwordOf v).toNat = v % 2 ^ 64 := BitVec.toNat_ofNat v 64

/-- A register reads what was set; every other one stays. -/
theorem State.reg_setReg (s : State) (off o v : Nat) : (s.setReg off v).reg o = if o = off then v % 2 ^ 64 else s.reg o := by
  by_cases h : o = off
  · subst h
    simp only [State.reg, State.setReg, SMap.getD_setD, if_true]
    exact toNat_dwordOf v
  · simp only [State.reg, State.setReg, if_neg h]
    congr 1
    simp only [SMap.setD]
    split
    · simp only [SMap.getD, SMap.find_erase, if_neg h]
    · simp only [SMap.getD, SMap.find_insert_ne _ _ h]

/-! ### Blocks -/

theorem mem_putBlock (s : State) (spa : Nat) (bytes : List Byte) (kt : Nat) (h : s.mem.wf = true) :
    (s.putBlock spa bytes kt).mem.wf = true := by
  unfold State.putBlock
  dsimp only
  split
  · exact Memory.wf_writeN _ _ _ h
  · split
    · exact h
    · split
      · exact Memory.wf_writeN _ _ _ h
      · exact h

theorem mem_putMirrored (s : State) (spa : Nat) (bytes : List Byte) (kt : Nat) (h : s.mem.wf = true) :
    (s.putMirrored spa bytes kt).mem.wf = true :=
  foldl_keeps (fun t : State => t.mem.wf = true) _ (fun _ _ hb => mem_putBlock _ _ _ _ hb) _ _ (mem_putBlock _ _ _ _ h)

theorem mem_zeroFrame (s : State) (f kt : Nat) (h : s.mem.wf = true) : (s.zeroFrame f kt).mem.wf = true := Memory.wf_clear _ _ _ h

theorem mem_putEntry (s : State) (a e : Nat) (h : s.mem.wf = true) : (s.putEntry a e).mem.wf = true := by
  unfold State.putEntry
  split
  · exact h
  · exact Memory.wf_writeN _ _ _ h

theorem mem_copyBlock (s : State) (src dst i : Nat) (h : s.mem.wf = true) : (s.copyBlock src dst i).mem.wf = true :=
  Memory.wf_writeN _ _ _ (Memory.wf_clear _ _ _ h)

/-! ### Frames and tables -/

theorem mem_takeTable (s s' : State) (ten f : Nat) (he : s.takeTable ten = some (f, s')) (h : s.mem.wf = true) : s'.mem.wf = true := by
  unfold State.takeTable at he
  split at he
  · cases he
  · injection he with he
    injection he with _ he
    exact he ▸ mem_zeroFrame _ _ _ h

theorem mem_s2Slot (ten gpa fuel tbl a : Nat) (s s' : State) (he : s.s2Slot ten gpa fuel tbl = some (a, s'))
    (h : s.mem.wf = true) : s'.mem.wf = true := by
  induction fuel generalizing s tbl with
  | zero => cases he
  | succ n ih =>
    unfold State.s2Slot at he
    dsimp only at he
    split at he
    · cases he
    · split at he
      · injection he with he; injection he with _ he; exact he ▸ h
      · split at he
        · split at he
          · cases he
          · exact ih _ _ he h
        · split at he
          · cases he
          · rename_i f t ht
            exact ih _ _ he (mem_putEntry _ _ _ (mem_takeTable _ _ _ _ ht h))

theorem mem_s2Set (s s' : State) (ten gpa e : Nat) (he : s.s2Set ten gpa e = some s') (h : s.mem.wf = true) : s'.mem.wf = true := by
  unfold State.s2Set at he
  split at he
  · rename_i a t ht
    injection he with he
    exact he ▸ mem_putEntry _ _ _ (mem_s2Slot _ _ _ _ _ _ _ ht h)
  · cases he

theorem mem_s2Set_getD (s : State) (ten gpa e : Nat) (h : s.mem.wf = true) : ((s.s2Set ten gpa e).getD s).mem.wf = true := by
  cases he : s.s2Set ten gpa e with
  | none => exact h
  | some t => exact mem_s2Set _ _ _ _ _ he h

theorem mem_takeFrame (s s' : State) (ten tier f : Nat) (he : s.takeFrame ten tier = some (f, s')) : s'.mem = s.mem := by
  unfold State.takeFrame at he
  dsimp only at he
  repeat' split at he
  all_goals cases he <;> rfl

theorem mem_takeReserve (s s' : State) (ten : Nat) (l : Bool) (f : Nat) (he : s.takeReserve ten l = some (f, s')) : s'.mem = s.mem := by
  unfold State.takeReserve at he
  dsimp only at he
  repeat' split at he
  all_goals cases he <;> rfl

@[simp] theorem mem_giveFrame (s : State) (ten f : Nat) : (s.giveFrame ten f).mem = s.mem := by
  unfold State.giveFrame
  dsimp only
  split <;> rfl
@[simp] theorem mem_startShoot (s : State) (ini : Nat) (sc : ShootScope) (fin : ShootDone) : (s.startShoot ini sc fin).mem = s.mem := rfl
@[simp] theorem mem_markBad (s : State) (spa : Nat) : (s.markBad spa).mem = s.mem := by
  unfold State.markBad
  split <;> rfl

theorem mem_unpack (s : State) (img : Nat) (im : Image) (f : Nat) (h : s.mem.wf = true) : (s.unpack img im f).mem.wf = true := by
  unfold State.unpack
  dsimp only
  exact mem_s2Set_getD _ _ _ _ (Memory.wf_writeN _ _ _ (Memory.wf_clear _ _ _ h))

@[simp] theorem mem_moveCached (s : State) (src dst : Nat) : (s.moveCached src dst).mem = s.mem := by
  simp only [State.moveCached]

theorem mem_decompress (s : State) (img : Nat) (h : s.mem.wf = true) : (s.decompress img).mem.wf = true := by
  unfold State.decompress
  split
  · exact h
  · dsimp only
    split
    · rw [mem_startShoot]
      exact mem_unpack _ _ _ _ h
    · rename_i f t ht
      rw [mem_startShoot, mem_moveCached]
      refine mem_unpack _ _ _ _ ?_
      exact mem_takeReserve _ _ _ _ _ ht ▸ h

theorem mem_putSys (s : State) (spa : Nat) (bytes : List Byte) (kt : Nat) (h : s.mem.wf = true) :
    (s.putSys spa bytes kt).mem.wf = true := by
  unfold State.putSys
  refine foldl_keeps (fun t : State => t.mem.wf = true) _ (fun t p hb => ?_) _ _ h
  dsimp only
  refine mem_putMirrored _ _ _ _ ?_
  split
  · exact mem_decompress _ _ hb
  · exact hb

/-! ### Records and accesses of agents -/

@[simp] theorem mem_collect (s : State) (src : Nat) (e : Err) : (s.collect src e).1.mem = s.mem := by
  cases s; rfl
@[simp] theorem mem_emit (s : State) (o : Out) : (s.emit o).mem = s.mem := rfl
@[simp] theorem mem_setReg (s : State) (off v : Nat) : (s.setReg off v).mem = s.mem := rfl

@[simp] theorem mem_askLine (s : State) (line : Nat) : (s.askLine line).mem = s.mem := by
  unfold State.askLine
  split <;> rfl
@[simp] theorem mem_hostWait (s : State) (w : Writer) (ten : Option Nat) (spa : Nat) (bytes : List Byte) (kt : Nat) :
    (s.hostWait w ten spa bytes kt).mem = s.mem := by
  unfold State.hostWait
  split
  · exact mem_askLine _ _
  · rfl
@[simp] theorem mem_raiseEvents (s : State) (ld next : Nat) : (s.raiseEvents ld next).mem = s.mem := by
  have h (n : SMap Nat) (c : Prop) [Decidable c] (v : Nat) :
      (if c then { s with ringNext := n } else ({ s with ringNext := n }.setReg (oEvtail ld) v).emit (.msix ld 0)).mem = s.mem := by
    split <;> rfl
  unfold State.raiseEvents State.raiseTail
  exact h _ _ _

theorem mem_writeHost (s : State) (w : Writer) (ten : Option Nat) (spa : Nat) (bytes : List Byte) (kt : Nat) (h : s.mem.wf = true) :
    (s.writeHost w ten spa bytes kt).mem.wf = true := by
  unfold State.writeHost
  refine mem_putSys _ _ _ _ (foldl_keeps (fun t : State => t.mem.wf = true) _ (fun t p hb => ?_) _ _ h)
  rw [mem_hostWait]
  exact hb

theorem mem_evPut (s : State) (ld : Nat) (r : BitVec 512) (h : s.mem.wf = true) : (s.evPut ld r).1.mem.wf = true := by
  unfold State.evPut
  dsimp only
  split
  · exact h
  · split
    · rw [mem_raiseEvents]
      exact mem_writeHost _ _ _ _ _ _ h
    · rw [mem_raiseEvents]
      exact h

theorem mem_evPost (s : State) (ld : Nat) (r : BitVec 512) (typ : Nat) (h : s.mem.wf = true) : (s.evPost ld r typ).mem.wf = true := by
  have e := mem_evPut s ld (eventOf r typ) h
  unfold State.evPost
  split
  · rename_i t ht; rw [ht] at e; exact e
  · rename_i t ht; rw [ht] at e; rw [mem_collect]; exact e

theorem mem_report (s : State) (src : Nat) (e : Err) (h : s.mem.wf = true) : (s.report src e).mem.wf = true := by
  have hc := mem_collect s src e
  unfold State.report
  generalize s.collect src e = x at *
  obtain ⟨t, r⟩ := x
  exact foldl_keeps (fun t : State => t.mem.wf = true) _ (fun _ _ hb => mem_evPost _ _ _ _ hb) _ _ (by
    rw [show t.mem = s.mem from hc]; exact h)

theorem mem_tagFail (s : State) (ten : Option Nat) (gpa spa : Nat) (h : s.mem.wf = true) : (s.tagFail ten gpa spa).mem.wf = true :=
  mem_report _ _ _ (by rw [mem_markBad]; exact h)

theorem mem_writeSys (s : State) (w : Writer) (ten : Option Nat) (gpa spa : Nat) (bytes : List Byte) (kt : Nat) (h : s.mem.wf = true) :
    (s.writeSys w ten gpa spa bytes kt).mem.wf = true := by
  refine mem_writeHost _ _ _ _ _ _ (foldl_keeps (fun t : State => t.mem.wf = true) _ (fun t p hb => ?_) _ _ h)
  split
  · exact mem_tagFail _ _ _ _ hb
  · exact hb

theorem mem_readSys (s : State) (ten : Option Nat) (gpa spa n kt : Nat) (h : s.mem.wf = true) :
    (s.readSys ten gpa spa n kt).1.mem.wf = true := by
  unfold State.readSys
  dsimp only
  have e : ((linesOf spa n).foldl (fun (t : State) l =>
      if (!t.sysBad (l * 64) && t.tagBad (l * 64) kt) = true then t.tagFail ten (gpa / 64 * 64 + (l * 64 - spa / 64 * 64)) (l * 64)
      else t) s).mem.wf = true := by
    refine foldl_keeps (fun t : State => t.mem.wf = true) _ (fun t p hb => ?_) _ _ h
    split
    · exact mem_tagFail _ _ _ _ hb
    · exact hb
  split <;> exact e

theorem mem_readGpa (s : State) (ten gpa n kt : Nat) (h : s.mem.wf = true) : (s.readGpa ten gpa n kt).1.mem.wf = true := by
  refine foldl_keeps (fun x : State × Option (List Byte) => x.1.mem.wf = true) _ (fun x p hb => ?_) _ _ h
  obtain ⟨t, o⟩ := x
  cases o with
  | none => exact hb
  | some bs =>
    dsimp only
    split
    · rename_i a _
      have e := mem_readSys t (some ten) p.1 a p.2 kt hb
      split <;> (rename_i he; rw [he] at e; exact e)
    · exact hb

theorem mem_readVa (s : State) (asid va n : Nat) (h : s.mem.wf = true) : (s.readVa asid va n).1.mem.wf = true := by
  refine foldl_keeps (fun x : State × Option (List Byte) => x.1.mem.wf = true) _ (fun x p hb => ?_) _ _ h
  obtain ⟨t, o⟩ := x
  cases o with
  | none => exact hb
  | some bs =>
    dsimp only
    split
    · rename_i a _
      have e := mem_readSys t (some (dteTenant (s.dte asid))) (t.gpaOf asid p.1) a p.2 (dteKtag (s.dte asid)) hb
      split <;> (rename_i he; rw [he] at e; exact e)
    · exact hb

theorem mem_writeGpa (s s' : State) (ten gpa : Nat) (bytes : List Byte) (kt : Nat) (w : Writer)
    (he : s.writeGpa ten gpa bytes kt w = some s')
    (h : s.mem.wf = true) : s'.mem.wf = true := by
  unfold State.writeGpa at he
  dsimp only at he
  split at he
  · injection he with he
    subst he
    refine foldl_keeps (fun t : State => t.mem.wf = true) _ (fun t p hb => ?_) _ _ h
    split
    · exact mem_writeSys _ _ _ _ _ _ _ hb
    · exact hb
  · cases he

theorem mem_writeVa (s s' : State) (asid va : Nat) (bytes : List Byte) (w : Writer) (he : s.writeVa asid va bytes w = some s')
    (h : s.mem.wf = true) : s'.mem.wf = true := by
  unfold State.writeVa at he
  dsimp only at he
  split at he
  · injection he with he
    subst he
    refine foldl_keeps (fun t : State => t.mem.wf = true) _ (fun t p hb => ?_) _ _ h
    split
    · exact mem_writeSys _ _ _ _ _ _ _ hb
    · exact hb
  · cases he

/-! ### What memory and record operations leave alone -/

/-- Only memory and what goes with it differ: poison, keys, images, grants, shootdowns, cached lines, translations, records and their
numbers, what is noted of the writes, the entries of event rings not yet covered, what is sent out, the free counter, and the registers
that count records and event entries. -/
def MemorySide (s s' : State) : Prop :=
  s' = { s with
    mgmt := s'.mgmt, mem := s'.mem, poison := s'.poison, lineKey := s'.lineKey, seq := s'.seq, records := s'.records
    tenants := s'.tenants, images := s'.images, forwards := s'.forwards, tlb := s'.tlb, shoots := s'.shoots, invSeq := s'.invSeq
    hostCached := s'.hostCached, wrote := s'.wrote, biWait := s'.biWait, biAsked := s'.biAsked, biNext := s'.biNext
    ringNext := s'.ringNext, outs := s'.outs, free := s'.free } ∧
  ∀ off, off ≠ oElstat → (∀ ld, off ≠ oEvtail ld) → s'.reg off = s.reg off

theorem MemorySide.rfl' (s : State) : MemorySide s s := ⟨rfl, fun _ _ _ => rfl⟩

theorem MemorySide.trans {a b c : State} (h : MemorySide a b) (h' : MemorySide b c) : MemorySide a c := by
  refine ⟨?_, fun off h1 h2 => (h'.2 off h1 h2).trans (h.2 off h1 h2)⟩
  have e := h'.1
  rw [h.1] at e
  exact e

theorem MemorySide.foldl {α : Type} (f : State → α → State) (hf : ∀ b a, MemorySide b (f b a)) (l : List α) (s : State) :
    MemorySide s (l.foldl f s) :=
  foldl_keeps (MemorySide s) f (fun _ _ h => h.trans (hf _ _)) l s (.rfl' s)

theorem side_putBlock (s : State) (spa : Nat) (bytes : List Byte) (kt : Nat) : MemorySide s (s.putBlock spa bytes kt) := by
  unfold State.putBlock
  dsimp only
  split
  · exact ⟨rfl, fun _ _ _ => rfl⟩
  · split
    · exact .rfl' s
    · split <;> exact ⟨rfl, fun _ _ _ => rfl⟩

theorem side_putMirrored (s : State) (spa : Nat) (bytes : List Byte) (kt : Nat) : MemorySide s (s.putMirrored spa bytes kt) :=
  (side_putBlock s spa bytes kt).trans (.foldl _ (fun _ _ => side_putBlock _ _ _ _) _ _)

theorem side_zeroFrame (s : State) (f kt : Nat) : MemorySide s (s.zeroFrame f kt) := ⟨rfl, fun _ _ _ => rfl⟩
theorem side_setTenant (s : State) (n : Nat) (t : Tenant) : MemorySide s (s.setTenant n t) := ⟨rfl, fun _ _ _ => rfl⟩
theorem side_putEntry (s : State) (a e : Nat) : MemorySide s (s.putEntry a e) := by
  unfold State.putEntry
  split
  · exact .rfl' s
  · exact ⟨rfl, fun _ _ _ => rfl⟩

theorem side_takeTable (s s' : State) (ten f : Nat) (he : s.takeTable ten = some (f, s')) : MemorySide s s' := by
  unfold State.takeTable at he
  split at he
  · cases he
  · injection he with he
    injection he with _ he
    exact he ▸ (side_setTenant _ _ _).trans (side_zeroFrame _ _ _)

theorem side_s2Slot (ten gpa fuel tbl a : Nat) (s s' : State) (he : s.s2Slot ten gpa fuel tbl = some (a, s')) : MemorySide s s' := by
  induction fuel generalizing s tbl with
  | zero => cases he
  | succ n ih =>
    unfold State.s2Slot at he
    dsimp only at he
    split at he
    · cases he
    · split at he
      · injection he with he; injection he with _ he; exact he ▸ .rfl' s
      · split at he
        · split at he
          · cases he
          · exact ih _ _ he
        · split at he
          · cases he
          · rename_i f t ht
            exact ((side_takeTable _ _ _ _ ht).trans (side_putEntry _ _ _)).trans (ih _ _ he)

theorem side_s2Set (s s' : State) (ten gpa e : Nat) (he : s.s2Set ten gpa e = some s') : MemorySide s s' := by
  unfold State.s2Set at he
  split at he
  · rename_i a t ht
    injection he with he
    exact he ▸ (side_s2Slot _ _ _ _ _ _ _ ht).trans (side_putEntry _ _ _)
  · cases he

theorem side_s2Set_getD (s : State) (ten gpa e : Nat) : MemorySide s ((s.s2Set ten gpa e).getD s) := by
  cases he : s.s2Set ten gpa e with
  | none => exact .rfl' s
  | some t => exact side_s2Set _ _ _ _ _ he

theorem side_takeFrame (s s' : State) (ten tier f : Nat) (he : s.takeFrame ten tier = some (f, s')) : MemorySide s s' := by
  unfold State.takeFrame at he
  dsimp only at he
  repeat' split at he
  all_goals cases he <;> exact side_setTenant _ _ _

theorem side_takeReserve (s s' : State) (ten : Nat) (l : Bool) (f : Nat) (he : s.takeReserve ten l = some (f, s')) : MemorySide s s' := by
  unfold State.takeReserve at he
  dsimp only at he
  repeat' split at he
  all_goals cases he <;> exact side_setTenant _ _ _

theorem side_giveFrame (s : State) (ten f : Nat) : MemorySide s (s.giveFrame ten f) := by
  unfold State.giveFrame
  dsimp only
  split <;> exact side_setTenant _ _ _
theorem side_startShoot (s : State) (ini : Nat) (sc : ShootScope) (fin : ShootDone) : MemorySide s (s.startShoot ini sc fin) :=
  ⟨rfl, fun _ _ _ => rfl⟩
theorem side_markBad (s : State) (spa : Nat) : MemorySide s (s.markBad spa) := by
  unfold State.markBad
  split <;> exact ⟨rfl, fun _ _ _ => rfl⟩

theorem side_unpack (s : State) (img : Nat) (im : Image) (f : Nat) : MemorySide s (s.unpack img im f) := by
  have h (m : Memory) (p : NSet) (k : SMap Nat) (i : SMap Image) : MemorySide s
      { s with mem := m, poison := p, lineKey := k, images := i } := ⟨rfl, fun _ _ _ => rfl⟩
  unfold State.unpack
  dsimp only
  exact (h _ _ _ _).trans (side_s2Set_getD _ _ _ _)

theorem side_moveCached (s : State) (src dst : Nat) : MemorySide s (s.moveCached src dst) := by
  have h (c : SMap Nat) (a : NSet) (b : List BiW) (o : List Out) : MemorySide s
      { s with hostCached := c, biAsked := a, biWait := b, outs := o } := ⟨rfl, fun _ _ _ => rfl⟩
  simp only [State.moveCached]
  exact h _ _ _ _

theorem side_forwards (s : State) (f : SMap Nat) : MemorySide s { s with forwards := f } := ⟨rfl, fun _ _ _ => rfl⟩
theorem side_wrote (s : State) (w : List (Place × List Byte)) : MemorySide s { s with wrote := w } := ⟨rfl, fun _ _ _ => rfl⟩

theorem side_decompress (s : State) (img : Nat) : MemorySide s (s.decompress img) := by
  unfold State.decompress
  split
  · exact .rfl' s
  · dsimp only
    split
    · exact (side_unpack _ _ _ _).trans (side_startShoot _ _ _ _)
    · rename_i f t ht
      exact ((((side_takeReserve _ _ _ _ _ ht).trans (side_forwards _ _)).trans (side_unpack _ _ _ _)).trans
        (side_moveCached _ _ _)).trans (side_startShoot _ _ _ _)

/-- A write at a system-physical address. -/
theorem side_putSys (s : State) (spa : Nat) (bytes : List Byte) (kt : Nat) : MemorySide s (s.putSys spa bytes kt) := by
  unfold State.putSys
  refine .foldl _ (fun t p => ?_) _ _
  dsimp only
  refine MemorySide.trans (MemorySide.trans ?_ (side_putMirrored _ _ _ _)) (side_wrote _ _)
  split
  · exact side_decompress _ _
  · exact .rfl' t

theorem side_emit (s : State) (o : Out) : MemorySide s (s.emit o) := ⟨rfl, fun _ _ _ => rfl⟩

theorem side_askLine (s : State) (line : Nat) : MemorySide s (s.askLine line) := by
  unfold State.askLine
  split
  · exact .rfl' s
  · exact ⟨rfl, fun _ _ _ => rfl⟩

theorem side_hostWait (s : State) (w : Writer) (ten : Option Nat) (spa : Nat) (bytes : List Byte) (kt : Nat) :
    MemorySide s (s.hostWait w ten spa bytes kt) := by
  unfold State.hostWait
  split
  · exact (side_askLine s _).trans ⟨rfl, fun _ _ _ => rfl⟩
  · exact .rfl' s

theorem side_writeHost (s : State) (w : Writer) (ten : Option Nat) (spa : Nat) (bytes : List Byte) (kt : Nat) :
    MemorySide s (s.writeHost w ten spa bytes kt) := by
  unfold State.writeHost
  exact (MemorySide.foldl _ (fun _ _ => side_hostWait _ _ _ _ _ _) _ _).trans (side_putSys _ _ _ _)

theorem side_setReg (s : State) (off v : Nat) (h : off = oElstat ∨ ∃ ld, off = oEvtail ld) : MemorySide s (s.setReg off v) := by
  refine ⟨rfl, fun o h1 h2 => ?_⟩
  rw [State.reg_setReg, if_neg]
  rintro rfl
  rcases h with h | ⟨ld, h⟩
  · exact h1 h
  · exact h2 ld h

theorem side_collect (s : State) (src : Nat) (e : Err) : MemorySide s (s.collect src e).1 := by
  have h (r : List (BitVec 512)) (q : SMap Nat) (v : Nat) :
      MemorySide s ({ s with seq := q, records := r }.setReg oElstat v) :=
    MemorySide.trans ⟨rfl, fun _ _ _ => rfl⟩ (side_setReg _ _ _ (.inl rfl))
  unfold State.collect
  exact h _ _ _

theorem side_raiseEvents (s : State) (ld next : Nat) : MemorySide s (s.raiseEvents ld next) := by
  have h (n : SMap Nat) : MemorySide s { s with ringNext := n } := ⟨rfl, fun _ _ _ => rfl⟩
  have h' (n : SMap Nat) (c : Prop) [Decidable c] (v : Nat) : MemorySide s
      (if c then { s with ringNext := n } else ({ s with ringNext := n }.setReg (oEvtail ld) v).emit (.msix ld 0)) := by
    split
    · exact h _
    · exact ((h _).trans (side_setReg _ _ _ (.inr ⟨ld, rfl⟩))).trans (side_emit _ _)
  unfold State.raiseEvents State.raiseTail
  exact h' _ _ _

theorem side_evPut (s : State) (ld : Nat) (r : BitVec 512) : MemorySide s (s.evPut ld r).1 := by
  unfold State.evPut
  dsimp only
  split
  · exact .rfl' s
  · split
    · exact (side_writeHost _ _ _ _ _ _).trans (side_raiseEvents _ _ _)
    · exact side_raiseEvents _ _ _

theorem side_evPost (s : State) (ld : Nat) (r : BitVec 512) (typ : Nat) : MemorySide s (s.evPost ld r typ) := by
  have e := side_evPut s ld (eventOf r typ)
  unfold State.evPost
  split
  · rename_i t ht; rw [ht] at e; exact e
  · rename_i t ht; rw [ht] at e; exact e.trans (side_collect _ _ _)

/-- An error record is written. -/
theorem side_report (s : State) (src : Nat) (e : Err) : MemorySide s (s.report src e) := by
  have hc := side_collect s src e
  unfold State.report
  generalize s.collect src e = x at *
  obtain ⟨t, r⟩ := x
  exact hc.trans (.foldl _ (fun _ _ => side_evPost _ _ _ _) _ _)

theorem side_tagFail (s : State) (ten : Option Nat) (gpa spa : Nat) : MemorySide s (s.tagFail ten gpa spa) :=
  (side_markBad s spa).trans (side_report _ _ _)

theorem side_writeSys (s : State) (w : Writer) (ten : Option Nat) (gpa spa : Nat) (bytes : List Byte) (kt : Nat) :
    MemorySide s (s.writeSys w ten gpa spa bytes kt) := by
  refine MemorySide.trans (.foldl _ (fun t p => ?_) _ _) (side_writeHost _ _ _ _ _ _)
  split
  · exact side_tagFail _ _ _ _
  · exact .rfl' t

theorem side_readSys (s : State) (ten : Option Nat) (gpa spa n kt : Nat) : MemorySide s (s.readSys ten gpa spa n kt).1 := by
  unfold State.readSys
  dsimp only
  have e : MemorySide s ((linesOf spa n).foldl (fun (t : State) l =>
      if (!t.sysBad (l * 64) && t.tagBad (l * 64) kt) = true then t.tagFail ten (gpa / 64 * 64 + (l * 64 - spa / 64 * 64)) (l * 64)
      else t) s) := by
    refine .foldl _ (fun t p => ?_) _ _
    split
    · exact side_tagFail _ _ _ _
    · exact .rfl' t
  split <;> exact e

theorem side_readGpa (s : State) (ten gpa n kt : Nat) : MemorySide s (s.readGpa ten gpa n kt).1 := by
  refine foldl_keeps (fun x : State × Option (List Byte) => MemorySide s x.1) _ (fun x p hb => ?_) _ _ (.rfl' s)
  obtain ⟨t, o⟩ := x
  cases o with
  | none => exact hb
  | some bs =>
    dsimp only
    split
    · rename_i a _
      have e := side_readSys t (some ten) p.1 a p.2 kt
      split <;> (rename_i he; rw [he] at e; exact hb.trans e)
    · exact hb

theorem side_writeGpa (s s' : State) (ten gpa : Nat) (bytes : List Byte) (kt : Nat) (w : Writer)
    (he : s.writeGpa ten gpa bytes kt w = some s') :
    MemorySide s s' := by
  unfold State.writeGpa at he
  dsimp only at he
  split at he
  · injection he with he
    subst he
    refine .foldl _ (fun t p => ?_) _ _
    split
    · exact side_writeSys _ _ _ _ _ _ _
    · exact .rfl' t
  · cases he

theorem side_writeVa (s s' : State) (asid va : Nat) (bytes : List Byte) (w : Writer) (he : s.writeVa asid va bytes w = some s') :
    MemorySide s s' := by
  unfold State.writeVa at he
  dsimp only at he
  split at he
  · injection he with he
    subst he
    refine .foldl _ (fun t p => ?_) _ _
    split
    · exact side_writeSys _ _ _ _ _ _ _
    · exact .rfl' t
  · cases he

end Sys2Proof.Machine
end

