-- ==== Sys2Proof/Laws/State.lean ====
section
/-! SUPPORT. One lemma for each update of the state and each of its fields. -/

namespace Sys2Proof.Machine

variable (s : State)

@[simp] theorem State.setTeam_mgmt (k : Nat) (t : Team) : (s.setTeam k t).mgmt = s.mgmt := rfl
@[simp] theorem State.setTeam_mem (k : Nat) (t : Team) : (s.setTeam k t).mem = s.mem := rfl
@[simp] theorem State.setTeam_poison (k : Nat) (t : Team) : (s.setTeam k t).poison = s.poison := rfl
@[simp] theorem State.setTeam_lineKey (k : Nat) (t : Team) : (s.setTeam k t).lineKey = s.lineKey := rfl
@[simp] theorem State.setTeam_keys (k : Nat) (t : Team) : (s.setTeam k t).keys = s.keys := rfl
@[simp] theorem State.setTeam_dtbase (k : Nat) (t : Team) : (s.setTeam k t).dtbase = s.dtbase := rfl
@[simp] theorem State.setTeam_seq (k : Nat) (t : Team) : (s.setTeam k t).seq = s.seq := rfl
@[simp] theorem State.setTeam_records (k : Nat) (t : Team) : (s.setTeam k t).records = s.records := rfl
@[simp] theorem State.setTeam_mr (k : Nat) (t : Team) : (s.setTeam k t).mr = s.mr := rfl
@[simp] theorem State.setTeam_bootOk (k : Nat) (t : Team) : (s.setTeam k t).bootOk = s.bootOk := rfl
@[simp] theorem State.setTeam_booted (k : Nat) (t : Team) : (s.setTeam k t).booted = s.booted := rfl
@[simp] theorem State.setTeam_tenants (k : Nat) (t : Team) : (s.setTeam k t).tenants = s.tenants := rfl
@[simp] theorem State.setTeam_hartsDown (k : Nat) (t : Team) : (s.setTeam k t).hartsDown = s.hartsDown := rfl
@[simp] theorem State.setTeam_apAlloc (k : Nat) (t : Team) : (s.setTeam k t).apAlloc = s.apAlloc := rfl
@[simp] theorem State.setTeam_images (k : Nat) (t : Team) : (s.setTeam k t).images = s.images := rfl
@[simp] theorem State.setTeam_forwards (k : Nat) (t : Team) : (s.setTeam k t).forwards = s.forwards := rfl
@[simp] theorem State.setTeam_migs (k : Nat) (t : Team) : (s.setTeam k t).migs = s.migs := rfl
@[simp] theorem State.setTeam_tlb (k : Nat) (t : Team) : (s.setTeam k t).tlb = s.tlb := rfl
@[simp] theorem State.setTeam_shoots (k : Nat) (t : Team) : (s.setTeam k t).shoots = s.shoots := rfl
@[simp] theorem State.setTeam_invSeq (k : Nat) (t : Team) : (s.setTeam k t).invSeq = s.invSeq := rfl
@[simp] theorem State.setTeam_hostCached (k : Nat) (t : Team) : (s.setTeam k t).hostCached = s.hostCached := rfl
@[simp] theorem State.setTeam_wrote (k : Nat) (t : Team) : (s.setTeam k t).wrote = s.wrote := rfl
@[simp] theorem State.setTeam_biWait (k : Nat) (t : Team) : (s.setTeam k t).biWait = s.biWait := rfl
@[simp] theorem State.setTeam_biAsked (k : Nat) (t : Team) : (s.setTeam k t).biAsked = s.biAsked := rfl
@[simp] theorem State.setTeam_biNext (k : Nat) (t : Team) : (s.setTeam k t).biNext = s.biNext := rfl
@[simp] theorem State.setTeam_ringNext (k : Nat) (t : Team) : (s.setTeam k t).ringNext = s.ringNext := rfl
@[simp] theorem State.setTeam_engOut (k : Nat) (t : Team) : (s.setTeam k t).engOut = s.engOut := rfl
@[simp] theorem State.setTeam_sessions (k : Nat) (t : Team) : (s.setTeam k t).sessions = s.sessions := rfl
@[simp] theorem State.setTeam_corrected (k : Nat) (t : Team) : (s.setTeam k t).corrected = s.corrected := rfl
@[simp] theorem State.setTeam_mbox (k : Nat) (t : Team) : (s.setTeam k t).mbox = s.mbox := rfl
@[simp] theorem State.setTeam_skWait (k : Nat) (t : Team) : (s.setTeam k t).skWait = s.skWait := rfl
@[simp] theorem State.setTeam_flash (k : Nat) (t : Team) : (s.setTeam k t).flash = s.flash := rfl
@[simp] theorem State.setTeam_meter (k : Nat) (t : Team) : (s.setTeam k t).meter = s.meter := rfl
@[simp] theorem State.setTeam_resetting (k : Nat) (t : Team) : (s.setTeam k t).resetting = s.resetting := rfl
@[simp] theorem State.setTeam_teams (k : Nat) (t : Team) : (s.setTeam k t).teams = s.teams.insert k t := rfl
@[simp] theorem State.setTeam_parts (k : Nat) (t : Team) : (s.setTeam k t).parts = s.parts := rfl
@[simp] theorem State.setTeam_wgs (k : Nat) (t : Team) : (s.setTeam k t).wgs = s.wgs := rfl
@[simp] theorem State.setTeam_tiles (k : Nat) (t : Team) : (s.setTeam k t).tiles = s.tiles := rfl
@[simp] theorem State.setTeam_xq (k : Nat) (t : Team) : (s.setTeam k t).xq = s.xq := rfl
@[simp] theorem State.setTeam_ctxs (k : Nat) (t : Team) : (s.setTeam k t).ctxs = s.ctxs := rfl
@[simp] theorem State.setTeam_reels (k : Nat) (t : Team) : (s.setTeam k t).reels = s.reels := rfl
@[simp] theorem State.setTeam_saved (k : Nat) (t : Team) : (s.setTeam k t).saved = s.saved := rfl
@[simp] theorem State.setTeam_launches (k : Nat) (t : Team) : (s.setTeam k t).launches = s.launches := rfl
@[simp] theorem State.setTeam_placers (k : Nat) (t : Team) : (s.setTeam k t).placers = s.placers := rfl
@[simp] theorem State.setTeam_nreqs (k : Nat) (t : Team) : (s.setTeam k t).nreqs = s.nreqs := rfl
@[simp] theorem State.setTeam_nread (k : Nat) (t : Team) : (s.setTeam k t).nread = s.nread := rfl
@[simp] theorem State.setTeam_nnext (k : Nat) (t : Team) : (s.setTeam k t).nnext = s.nnext := rfl
@[simp] theorem State.setTeam_nends (k : Nat) (t : Team) : (s.setTeam k t).nends = s.nends := rfl
@[simp] theorem State.setTeam_drew (k : Nat) (t : Team) : (s.setTeam k t).drew = s.drew := rfl
@[simp] theorem State.setTeam_bufs (k : Nat) (t : Team) : (s.setTeam k t).bufs = s.bufs := rfl
@[simp] theorem State.setTeam_waking (k : Nat) (t : Team) : (s.setTeam k t).waking = s.waking := rfl
@[simp] theorem State.setTeam_ringsDue (k : Nat) (t : Team) : (s.setTeam k t).ringsDue = s.ringsDue := rfl
@[simp] theorem State.setTeam_incoming (k : Nat) (t : Team) : (s.setTeam k t).incoming = s.incoming := rfl
@[simp] theorem State.setTeam_portHeld (k : Nat) (t : Team) : (s.setTeam k t).portHeld = s.portHeld := rfl
@[simp] theorem State.setTeam_portsDown (k : Nat) (t : Team) : (s.setTeam k t).portsDown = s.portsDown := rfl
@[simp] theorem State.setTeam_peerKeys (k : Nat) (t : Team) : (s.setTeam k t).peerKeys = s.peerKeys := rfl
@[simp] theorem State.setTeam_chimneyDown (k : Nat) (t : Team) : (s.setTeam k t).chimneyDown = s.chimneyDown := rfl
@[simp] theorem State.setTeam_idleEnergy (k : Nat) (t : Team) : (s.setTeam k t).idleEnergy = s.idleEnergy := rfl
@[simp] theorem State.setTeam_dumps (k : Nat) (t : Team) : (s.setTeam k t).dumps = s.dumps := rfl
@[simp] theorem State.setTeam_outs (k : Nat) (t : Team) : (s.setTeam k t).outs = s.outs := rfl
@[simp] theorem State.setTeam_agenda (k : Nat) (t : Team) : (s.setTeam k t).agenda = s.agenda := rfl
@[simp] theorem State.setTeam_tick (k : Nat) (t : Team) : (s.setTeam k t).tick = s.tick := rfl
@[simp] theorem State.setTeam_free (k : Nat) (t : Team) : (s.setTeam k t).free = s.free := rfl
@[simp] theorem State.setTeam_cur (k : Nat) (t : Team) : (s.setTeam k t).cur = s.cur := rfl
@[simp] theorem State.setTeam_curCtx (k : Nat) (t : Team) : (s.setTeam k t).curCtx = s.curCtx := rfl

@[simp] theorem State.setWg_mgmt (w : Nat) (g : Wg) : (s.setWg w g).mgmt = s.mgmt := rfl
@[simp] theorem State.setWg_mem (w : Nat) (g : Wg) : (s.setWg w g).mem = s.mem := rfl
@[simp] theorem State.setWg_poison (w : Nat) (g : Wg) : (s.setWg w g).poison = s.poison := rfl
@[simp] theorem State.setWg_lineKey (w : Nat) (g : Wg) : (s.setWg w g).lineKey = s.lineKey := rfl
@[simp] theorem State.setWg_keys (w : Nat) (g : Wg) : (s.setWg w g).keys = s.keys := rfl
@[simp] theorem State.setWg_dtbase (w : Nat) (g : Wg) : (s.setWg w g).dtbase = s.dtbase := rfl
@[simp] theorem State.setWg_seq (w : Nat) (g : Wg) : (s.setWg w g).seq = s.seq := rfl
@[simp] theorem State.setWg_records (w : Nat) (g : Wg) : (s.setWg w g).records = s.records := rfl
@[simp] theorem State.setWg_mr (w : Nat) (g : Wg) : (s.setWg w g).mr = s.mr := rfl
@[simp] theorem State.setWg_bootOk (w : Nat) (g : Wg) : (s.setWg w g).bootOk = s.bootOk := rfl
@[simp] theorem State.setWg_booted (w : Nat) (g : Wg) : (s.setWg w g).booted = s.booted := rfl
@[simp] theorem State.setWg_tenants (w : Nat) (g : Wg) : (s.setWg w g).tenants = s.tenants := rfl
@[simp] theorem State.setWg_hartsDown (w : Nat) (g : Wg) : (s.setWg w g).hartsDown = s.hartsDown := rfl
@[simp] theorem State.setWg_apAlloc (w : Nat) (g : Wg) : (s.setWg w g).apAlloc = s.apAlloc := rfl
@[simp] theorem State.setWg_images (w : Nat) (g : Wg) : (s.setWg w g).images = s.images := rfl
@[simp] theorem State.setWg_forwards (w : Nat) (g : Wg) : (s.setWg w g).forwards = s.forwards := rfl
@[simp] theorem State.setWg_migs (w : Nat) (g : Wg) : (s.setWg w g).migs = s.migs := rfl
@[simp] theorem State.setWg_tlb (w : Nat) (g : Wg) : (s.setWg w g).tlb = s.tlb := rfl
@[simp] theorem State.setWg_shoots (w : Nat) (g : Wg) : (s.setWg w g).shoots = s.shoots := rfl
@[simp] theorem State.setWg_invSeq (w : Nat) (g : Wg) : (s.setWg w g).invSeq = s.invSeq := rfl
@[simp] theorem State.setWg_hostCached (w : Nat) (g : Wg) : (s.setWg w g).hostCached = s.hostCached := rfl
@[simp] theorem State.setWg_wrote (w : Nat) (g : Wg) : (s.setWg w g).wrote = s.wrote := rfl
@[simp] theorem State.setWg_biWait (w : Nat) (g : Wg) : (s.setWg w g).biWait = s.biWait := rfl
@[simp] theorem State.setWg_biAsked (w : Nat) (g : Wg) : (s.setWg w g).biAsked = s.biAsked := rfl
@[simp] theorem State.setWg_biNext (w : Nat) (g : Wg) : (s.setWg w g).biNext = s.biNext := rfl
@[simp] theorem State.setWg_ringNext (w : Nat) (g : Wg) : (s.setWg w g).ringNext = s.ringNext := rfl
@[simp] theorem State.setWg_engOut (w : Nat) (g : Wg) : (s.setWg w g).engOut = s.engOut := rfl
@[simp] theorem State.setWg_sessions (w : Nat) (g : Wg) : (s.setWg w g).sessions = s.sessions := rfl
@[simp] theorem State.setWg_corrected (w : Nat) (g : Wg) : (s.setWg w g).corrected = s.corrected := rfl
@[simp] theorem State.setWg_mbox (w : Nat) (g : Wg) : (s.setWg w g).mbox = s.mbox := rfl
@[simp] theorem State.setWg_skWait (w : Nat) (g : Wg) : (s.setWg w g).skWait = s.skWait := rfl
@[simp] theorem State.setWg_flash (w : Nat) (g : Wg) : (s.setWg w g).flash = s.flash := rfl
@[simp] theorem State.setWg_meter (w : Nat) (g : Wg) : (s.setWg w g).meter = s.meter := rfl
@[simp] theorem State.setWg_resetting (w : Nat) (g : Wg) : (s.setWg w g).resetting = s.resetting := rfl
@[simp] theorem State.setWg_teams (w : Nat) (g : Wg) : (s.setWg w g).teams = s.teams := rfl
@[simp] theorem State.setWg_parts (w : Nat) (g : Wg) : (s.setWg w g).parts = s.parts := rfl
@[simp] theorem State.setWg_wgs (w : Nat) (g : Wg) : (s.setWg w g).wgs = s.wgs.insert w g := rfl
@[simp] theorem State.setWg_tiles (w : Nat) (g : Wg) : (s.setWg w g).tiles = s.tiles := rfl
@[simp] theorem State.setWg_xq (w : Nat) (g : Wg) : (s.setWg w g).xq = s.xq := rfl
@[simp] theorem State.setWg_ctxs (w : Nat) (g : Wg) : (s.setWg w g).ctxs = s.ctxs := rfl
@[simp] theorem State.setWg_reels (w : Nat) (g : Wg) : (s.setWg w g).reels = s.reels := rfl
@[simp] theorem State.setWg_saved (w : Nat) (g : Wg) : (s.setWg w g).saved = s.saved := rfl
@[simp] theorem State.setWg_launches (w : Nat) (g : Wg) : (s.setWg w g).launches = s.launches := rfl
@[simp] theorem State.setWg_placers (w : Nat) (g : Wg) : (s.setWg w g).placers = s.placers := rfl
@[simp] theorem State.setWg_nreqs (w : Nat) (g : Wg) : (s.setWg w g).nreqs = s.nreqs := rfl
@[simp] theorem State.setWg_nread (w : Nat) (g : Wg) : (s.setWg w g).nread = s.nread := rfl
@[simp] theorem State.setWg_nnext (w : Nat) (g : Wg) : (s.setWg w g).nnext = s.nnext := rfl
@[simp] theorem State.setWg_nends (w : Nat) (g : Wg) : (s.setWg w g).nends = s.nends := rfl
@[simp] theorem State.setWg_drew (w : Nat) (g : Wg) : (s.setWg w g).drew = s.drew := rfl
@[simp] theorem State.setWg_bufs (w : Nat) (g : Wg) : (s.setWg w g).bufs = s.bufs := rfl
@[simp] theorem State.setWg_waking (w : Nat) (g : Wg) : (s.setWg w g).waking = s.waking := rfl
@[simp] theorem State.setWg_ringsDue (w : Nat) (g : Wg) : (s.setWg w g).ringsDue = s.ringsDue := rfl
@[simp] theorem State.setWg_incoming (w : Nat) (g : Wg) : (s.setWg w g).incoming = s.incoming := rfl
@[simp] theorem State.setWg_portHeld (w : Nat) (g : Wg) : (s.setWg w g).portHeld = s.portHeld := rfl
@[simp] theorem State.setWg_portsDown (w : Nat) (g : Wg) : (s.setWg w g).portsDown = s.portsDown := rfl
@[simp] theorem State.setWg_peerKeys (w : Nat) (g : Wg) : (s.setWg w g).peerKeys = s.peerKeys := rfl
@[simp] theorem State.setWg_chimneyDown (w : Nat) (g : Wg) : (s.setWg w g).chimneyDown = s.chimneyDown := rfl
@[simp] theorem State.setWg_idleEnergy (w : Nat) (g : Wg) : (s.setWg w g).idleEnergy = s.idleEnergy := rfl
@[simp] theorem State.setWg_dumps (w : Nat) (g : Wg) : (s.setWg w g).dumps = s.dumps := rfl
@[simp] theorem State.setWg_outs (w : Nat) (g : Wg) : (s.setWg w g).outs = s.outs := rfl
@[simp] theorem State.setWg_agenda (w : Nat) (g : Wg) : (s.setWg w g).agenda = s.agenda := rfl
@[simp] theorem State.setWg_tick (w : Nat) (g : Wg) : (s.setWg w g).tick = s.tick := rfl
@[simp] theorem State.setWg_free (w : Nat) (g : Wg) : (s.setWg w g).free = s.free := rfl
@[simp] theorem State.setWg_cur (w : Nat) (g : Wg) : (s.setWg w g).cur = s.cur := rfl
@[simp] theorem State.setWg_curCtx (w : Nat) (g : Wg) : (s.setWg w g).curCtx = s.curCtx := rfl

@[simp] theorem State.setPart_mgmt (pt : Nat) (p : Part) : (s.setPart pt p).mgmt = s.mgmt := rfl
@[simp] theorem State.setPart_mem (pt : Nat) (p : Part) : (s.setPart pt p).mem = s.mem := rfl
@[simp] theorem State.setPart_poison (pt : Nat) (p : Part) : (s.setPart pt p).poison = s.poison := rfl
@[simp] theorem State.setPart_lineKey (pt : Nat) (p : Part) : (s.setPart pt p).lineKey = s.lineKey := rfl
@[simp] theorem State.setPart_keys (pt : Nat) (p : Part) : (s.setPart pt p).keys = s.keys := rfl
@[simp] theorem State.setPart_dtbase (pt : Nat) (p : Part) : (s.setPart pt p).dtbase = s.dtbase := rfl
@[simp] theorem State.setPart_seq (pt : Nat) (p : Part) : (s.setPart pt p).seq = s.seq := rfl
@[simp] theorem State.setPart_records (pt : Nat) (p : Part) : (s.setPart pt p).records = s.records := rfl
@[simp] theorem State.setPart_mr (pt : Nat) (p : Part) : (s.setPart pt p).mr = s.mr := rfl
@[simp] theorem State.setPart_bootOk (pt : Nat) (p : Part) : (s.setPart pt p).bootOk = s.bootOk := rfl
@[simp] theorem State.setPart_booted (pt : Nat) (p : Part) : (s.setPart pt p).booted = s.booted := rfl
@[simp] theorem State.setPart_tenants (pt : Nat) (p : Part) : (s.setPart pt p).tenants = s.tenants := rfl
@[simp] theorem State.setPart_hartsDown (pt : Nat) (p : Part) : (s.setPart pt p).hartsDown = s.hartsDown := rfl
@[simp] theorem State.setPart_apAlloc (pt : Nat) (p : Part) : (s.setPart pt p).apAlloc = s.apAlloc := rfl
@[simp] theorem State.setPart_images (pt : Nat) (p : Part) : (s.setPart pt p).images = s.images := rfl
@[simp] theorem State.setPart_forwards (pt : Nat) (p : Part) : (s.setPart pt p).forwards = s.forwards := rfl
@[simp] theorem State.setPart_migs (pt : Nat) (p : Part) : (s.setPart pt p).migs = s.migs := rfl
@[simp] theorem State.setPart_tlb (pt : Nat) (p : Part) : (s.setPart pt p).tlb = s.tlb := rfl
@[simp] theorem State.setPart_shoots (pt : Nat) (p : Part) : (s.setPart pt p).shoots = s.shoots := rfl
@[simp] theorem State.setPart_invSeq (pt : Nat) (p : Part) : (s.setPart pt p).invSeq = s.invSeq := rfl
@[simp] theorem State.setPart_hostCached (pt : Nat) (p : Part) : (s.setPart pt p).hostCached = s.hostCached := rfl
@[simp] theorem State.setPart_wrote (pt : Nat) (p : Part) : (s.setPart pt p).wrote = s.wrote := rfl
@[simp] theorem State.setPart_biWait (pt : Nat) (p : Part) : (s.setPart pt p).biWait = s.biWait := rfl
@[simp] theorem State.setPart_biAsked (pt : Nat) (p : Part) : (s.setPart pt p).biAsked = s.biAsked := rfl
@[simp] theorem State.setPart_biNext (pt : Nat) (p : Part) : (s.setPart pt p).biNext = s.biNext := rfl
@[simp] theorem State.setPart_ringNext (pt : Nat) (p : Part) : (s.setPart pt p).ringNext = s.ringNext := rfl
@[simp] theorem State.setPart_engOut (pt : Nat) (p : Part) : (s.setPart pt p).engOut = s.engOut := rfl
@[simp] theorem State.setPart_sessions (pt : Nat) (p : Part) : (s.setPart pt p).sessions = s.sessions := rfl
@[simp] theorem State.setPart_corrected (pt : Nat) (p : Part) : (s.setPart pt p).corrected = s.corrected := rfl
@[simp] theorem State.setPart_mbox (pt : Nat) (p : Part) : (s.setPart pt p).mbox = s.mbox := rfl
@[simp] theorem State.setPart_skWait (pt : Nat) (p : Part) : (s.setPart pt p).skWait = s.skWait := rfl
@[simp] theorem State.setPart_flash (pt : Nat) (p : Part) : (s.setPart pt p).flash = s.flash := rfl
@[simp] theorem State.setPart_meter (pt : Nat) (p : Part) : (s.setPart pt p).meter = s.meter := rfl
@[simp] theorem State.setPart_resetting (pt : Nat) (p : Part) : (s.setPart pt p).resetting = s.resetting := rfl
@[simp] theorem State.setPart_teams (pt : Nat) (p : Part) : (s.setPart pt p).teams = s.teams := rfl
@[simp] theorem State.setPart_parts (pt : Nat) (p : Part) : (s.setPart pt p).parts = s.parts.setD pt p Part.empty := rfl
@[simp] theorem State.setPart_wgs (pt : Nat) (p : Part) : (s.setPart pt p).wgs = s.wgs := rfl
@[simp] theorem State.setPart_tiles (pt : Nat) (p : Part) : (s.setPart pt p).tiles = s.tiles := rfl
@[simp] theorem State.setPart_xq (pt : Nat) (p : Part) : (s.setPart pt p).xq = s.xq := rfl
@[simp] theorem State.setPart_ctxs (pt : Nat) (p : Part) : (s.setPart pt p).ctxs = s.ctxs := rfl
@[simp] theorem State.setPart_reels (pt : Nat) (p : Part) : (s.setPart pt p).reels = s.reels := rfl
@[simp] theorem State.setPart_saved (pt : Nat) (p : Part) : (s.setPart pt p).saved = s.saved := rfl
@[simp] theorem State.setPart_launches (pt : Nat) (p : Part) : (s.setPart pt p).launches = s.launches := rfl
@[simp] theorem State.setPart_placers (pt : Nat) (p : Part) : (s.setPart pt p).placers = s.placers := rfl
@[simp] theorem State.setPart_nreqs (pt : Nat) (p : Part) : (s.setPart pt p).nreqs = s.nreqs := rfl
@[simp] theorem State.setPart_nread (pt : Nat) (p : Part) : (s.setPart pt p).nread = s.nread := rfl
@[simp] theorem State.setPart_nnext (pt : Nat) (p : Part) : (s.setPart pt p).nnext = s.nnext := rfl
@[simp] theorem State.setPart_nends (pt : Nat) (p : Part) : (s.setPart pt p).nends = s.nends := rfl
@[simp] theorem State.setPart_drew (pt : Nat) (p : Part) : (s.setPart pt p).drew = s.drew := rfl
@[simp] theorem State.setPart_bufs (pt : Nat) (p : Part) : (s.setPart pt p).bufs = s.bufs := rfl
@[simp] theorem State.setPart_waking (pt : Nat) (p : Part) : (s.setPart pt p).waking = s.waking := rfl
@[simp] theorem State.setPart_ringsDue (pt : Nat) (p : Part) : (s.setPart pt p).ringsDue = s.ringsDue := rfl
@[simp] theorem State.setPart_incoming (pt : Nat) (p : Part) : (s.setPart pt p).incoming = s.incoming := rfl
@[simp] theorem State.setPart_portHeld (pt : Nat) (p : Part) : (s.setPart pt p).portHeld = s.portHeld := rfl
@[simp] theorem State.setPart_portsDown (pt : Nat) (p : Part) : (s.setPart pt p).portsDown = s.portsDown := rfl
@[simp] theorem State.setPart_peerKeys (pt : Nat) (p : Part) : (s.setPart pt p).peerKeys = s.peerKeys := rfl
@[simp] theorem State.setPart_chimneyDown (pt : Nat) (p : Part) : (s.setPart pt p).chimneyDown = s.chimneyDown := rfl
@[simp] theorem State.setPart_idleEnergy (pt : Nat) (p : Part) : (s.setPart pt p).idleEnergy = s.idleEnergy := rfl
@[simp] theorem State.setPart_dumps (pt : Nat) (p : Part) : (s.setPart pt p).dumps = s.dumps := rfl
@[simp] theorem State.setPart_outs (pt : Nat) (p : Part) : (s.setPart pt p).outs = s.outs := rfl
@[simp] theorem State.setPart_agenda (pt : Nat) (p : Part) : (s.setPart pt p).agenda = s.agenda := rfl
@[simp] theorem State.setPart_tick (pt : Nat) (p : Part) : (s.setPart pt p).tick = s.tick := rfl
@[simp] theorem State.setPart_free (pt : Nat) (p : Part) : (s.setPart pt p).free = s.free := rfl
@[simp] theorem State.setPart_cur (pt : Nat) (p : Part) : (s.setPart pt p).cur = s.cur := rfl
@[simp] theorem State.setPart_curCtx (pt : Nat) (p : Part) : (s.setPart pt p).curCtx = s.curCtx := rfl

@[simp] theorem State.setTile_mgmt (c n : Nat) (t : Tile) : (s.setTile c n t).mgmt = s.mgmt := rfl
@[simp] theorem State.setTile_mem (c n : Nat) (t : Tile) : (s.setTile c n t).mem = s.mem := rfl
@[simp] theorem State.setTile_poison (c n : Nat) (t : Tile) : (s.setTile c n t).poison = s.poison := rfl
@[simp] theorem State.setTile_lineKey (c n : Nat) (t : Tile) : (s.setTile c n t).lineKey = s.lineKey := rfl
@[simp] theorem State.setTile_keys (c n : Nat) (t : Tile) : (s.setTile c n t).keys = s.keys := rfl
@[simp] theorem State.setTile_dtbase (c n : Nat) (t : Tile) : (s.setTile c n t).dtbase = s.dtbase := rfl
@[simp] theorem State.setTile_seq (c n : Nat) (t : Tile) : (s.setTile c n t).seq = s.seq := rfl
@[simp] theorem State.setTile_records (c n : Nat) (t : Tile) : (s.setTile c n t).records = s.records := rfl
@[simp] theorem State.setTile_mr (c n : Nat) (t : Tile) : (s.setTile c n t).mr = s.mr := rfl
@[simp] theorem State.setTile_bootOk (c n : Nat) (t : Tile) : (s.setTile c n t).bootOk = s.bootOk := rfl
@[simp] theorem State.setTile_booted (c n : Nat) (t : Tile) : (s.setTile c n t).booted = s.booted := rfl
@[simp] theorem State.setTile_tenants (c n : Nat) (t : Tile) : (s.setTile c n t).tenants = s.tenants := rfl
@[simp] theorem State.setTile_hartsDown (c n : Nat) (t : Tile) : (s.setTile c n t).hartsDown = s.hartsDown := rfl
@[simp] theorem State.setTile_apAlloc (c n : Nat) (t : Tile) : (s.setTile c n t).apAlloc = s.apAlloc := rfl
@[simp] theorem State.setTile_images (c n : Nat) (t : Tile) : (s.setTile c n t).images = s.images := rfl
@[simp] theorem State.setTile_forwards (c n : Nat) (t : Tile) : (s.setTile c n t).forwards = s.forwards := rfl
@[simp] theorem State.setTile_migs (c n : Nat) (t : Tile) : (s.setTile c n t).migs = s.migs := rfl
@[simp] theorem State.setTile_tlb (c n : Nat) (t : Tile) : (s.setTile c n t).tlb = s.tlb := rfl
@[simp] theorem State.setTile_shoots (c n : Nat) (t : Tile) : (s.setTile c n t).shoots = s.shoots := rfl
@[simp] theorem State.setTile_invSeq (c n : Nat) (t : Tile) : (s.setTile c n t).invSeq = s.invSeq := rfl
@[simp] theorem State.setTile_hostCached (c n : Nat) (t : Tile) : (s.setTile c n t).hostCached = s.hostCached := rfl
@[simp] theorem State.setTile_wrote (c n : Nat) (t : Tile) : (s.setTile c n t).wrote = s.wrote := rfl
@[simp] theorem State.setTile_biWait (c n : Nat) (t : Tile) : (s.setTile c n t).biWait = s.biWait := rfl
@[simp] theorem State.setTile_biAsked (c n : Nat) (t : Tile) : (s.setTile c n t).biAsked = s.biAsked := rfl
@[simp] theorem State.setTile_biNext (c n : Nat) (t : Tile) : (s.setTile c n t).biNext = s.biNext := rfl
@[simp] theorem State.setTile_ringNext (c n : Nat) (t : Tile) : (s.setTile c n t).ringNext = s.ringNext := rfl
@[simp] theorem State.setTile_engOut (c n : Nat) (t : Tile) : (s.setTile c n t).engOut = s.engOut := rfl
@[simp] theorem State.setTile_sessions (c n : Nat) (t : Tile) : (s.setTile c n t).sessions = s.sessions := rfl
@[simp] theorem State.setTile_corrected (c n : Nat) (t : Tile) : (s.setTile c n t).corrected = s.corrected := rfl
@[simp] theorem State.setTile_mbox (c n : Nat) (t : Tile) : (s.setTile c n t).mbox = s.mbox := rfl
@[simp] theorem State.setTile_skWait (c n : Nat) (t : Tile) : (s.setTile c n t).skWait = s.skWait := rfl
@[simp] theorem State.setTile_flash (c n : Nat) (t : Tile) : (s.setTile c n t).flash = s.flash := rfl
@[simp] theorem State.setTile_meter (c n : Nat) (t : Tile) : (s.setTile c n t).meter = s.meter := rfl
@[simp] theorem State.setTile_resetting (c n : Nat) (t : Tile) : (s.setTile c n t).resetting = s.resetting := rfl
@[simp] theorem State.setTile_teams (c n : Nat) (t : Tile) : (s.setTile c n t).teams = s.teams := rfl
@[simp] theorem State.setTile_parts (c n : Nat) (t : Tile) : (s.setTile c n t).parts = s.parts := rfl
@[simp] theorem State.setTile_wgs (c n : Nat) (t : Tile) : (s.setTile c n t).wgs = s.wgs := rfl
@[simp] theorem State.setTile_tiles (c n : Nat) (t : Tile) : (s.setTile c n t).tiles = s.tiles.setD (c * 64 + n) t Tile.empty := rfl
@[simp] theorem State.setTile_xq (c n : Nat) (t : Tile) : (s.setTile c n t).xq = s.xq := rfl
@[simp] theorem State.setTile_ctxs (c n : Nat) (t : Tile) : (s.setTile c n t).ctxs = s.ctxs := rfl
@[simp] theorem State.setTile_reels (c n : Nat) (t : Tile) : (s.setTile c n t).reels = s.reels := rfl
@[simp] theorem State.setTile_saved (c n : Nat) (t : Tile) : (s.setTile c n t).saved = s.saved := rfl
@[simp] theorem State.setTile_launches (c n : Nat) (t : Tile) : (s.setTile c n t).launches = s.launches := rfl
@[simp] theorem State.setTile_placers (c n : Nat) (t : Tile) : (s.setTile c n t).placers = s.placers := rfl
@[simp] theorem State.setTile_nreqs (c n : Nat) (t : Tile) : (s.setTile c n t).nreqs = s.nreqs := rfl
@[simp] theorem State.setTile_nread (c n : Nat) (t : Tile) : (s.setTile c n t).nread = s.nread := rfl
@[simp] theorem State.setTile_nnext (c n : Nat) (t : Tile) : (s.setTile c n t).nnext = s.nnext := rfl
@[simp] theorem State.setTile_nends (c n : Nat) (t : Tile) : (s.setTile c n t).nends = s.nends := rfl
@[simp] theorem State.setTile_drew (c n : Nat) (t : Tile) : (s.setTile c n t).drew = s.drew := rfl
@[simp] theorem State.setTile_bufs (c n : Nat) (t : Tile) : (s.setTile c n t).bufs = s.bufs := rfl
@[simp] theorem State.setTile_waking (c n : Nat) (t : Tile) : (s.setTile c n t).waking = s.waking := rfl
@[simp] theorem State.setTile_ringsDue (c n : Nat) (t : Tile) : (s.setTile c n t).ringsDue = s.ringsDue := rfl
@[simp] theorem State.setTile_incoming (c n : Nat) (t : Tile) : (s.setTile c n t).incoming = s.incoming := rfl
@[simp] theorem State.setTile_portHeld (c n : Nat) (t : Tile) : (s.setTile c n t).portHeld = s.portHeld := rfl
@[simp] theorem State.setTile_portsDown (c n : Nat) (t : Tile) : (s.setTile c n t).portsDown = s.portsDown := rfl
@[simp] theorem State.setTile_peerKeys (c n : Nat) (t : Tile) : (s.setTile c n t).peerKeys = s.peerKeys := rfl
@[simp] theorem State.setTile_chimneyDown (c n : Nat) (t : Tile) : (s.setTile c n t).chimneyDown = s.chimneyDown := rfl
@[simp] theorem State.setTile_idleEnergy (c n : Nat) (t : Tile) : (s.setTile c n t).idleEnergy = s.idleEnergy := rfl
@[simp] theorem State.setTile_dumps (c n : Nat) (t : Tile) : (s.setTile c n t).dumps = s.dumps := rfl
@[simp] theorem State.setTile_outs (c n : Nat) (t : Tile) : (s.setTile c n t).outs = s.outs := rfl
@[simp] theorem State.setTile_agenda (c n : Nat) (t : Tile) : (s.setTile c n t).agenda = s.agenda := rfl
@[simp] theorem State.setTile_tick (c n : Nat) (t : Tile) : (s.setTile c n t).tick = s.tick := rfl
@[simp] theorem State.setTile_free (c n : Nat) (t : Tile) : (s.setTile c n t).free = s.free := rfl
@[simp] theorem State.setTile_cur (c n : Nat) (t : Tile) : (s.setTile c n t).cur = s.cur := rfl
@[simp] theorem State.setTile_curCtx (c n : Nat) (t : Tile) : (s.setTile c n t).curCtx = s.curCtx := rfl

@[simp] theorem State.setCtx_mgmt (x : Nat) (c : Ctx) : (s.setCtx x c).mgmt = s.mgmt := rfl
@[simp] theorem State.setCtx_mem (x : Nat) (c : Ctx) : (s.setCtx x c).mem = s.mem := rfl
@[simp] theorem State.setCtx_poison (x : Nat) (c : Ctx) : (s.setCtx x c).poison = s.poison := rfl
@[simp] theorem State.setCtx_lineKey (x : Nat) (c : Ctx) : (s.setCtx x c).lineKey = s.lineKey := rfl
@[simp] theorem State.setCtx_keys (x : Nat) (c : Ctx) : (s.setCtx x c).keys = s.keys := rfl
@[simp] theorem State.setCtx_dtbase (x : Nat) (c : Ctx) : (s.setCtx x c).dtbase = s.dtbase := rfl
@[simp] theorem State.setCtx_seq (x : Nat) (c : Ctx) : (s.setCtx x c).seq = s.seq := rfl
@[simp] theorem State.setCtx_records (x : Nat) (c : Ctx) : (s.setCtx x c).records = s.records := rfl
@[simp] theorem State.setCtx_mr (x : Nat) (c : Ctx) : (s.setCtx x c).mr = s.mr := rfl
@[simp] theorem State.setCtx_bootOk (x : Nat) (c : Ctx) : (s.setCtx x c).bootOk = s.bootOk := rfl
@[simp] theorem State.setCtx_booted (x : Nat) (c : Ctx) : (s.setCtx x c).booted = s.booted := rfl
@[simp] theorem State.setCtx_tenants (x : Nat) (c : Ctx) : (s.setCtx x c).tenants = s.tenants := rfl
@[simp] theorem State.setCtx_hartsDown (x : Nat) (c : Ctx) : (s.setCtx x c).hartsDown = s.hartsDown := rfl
@[simp] theorem State.setCtx_apAlloc (x : Nat) (c : Ctx) : (s.setCtx x c).apAlloc = s.apAlloc := rfl
@[simp] theorem State.setCtx_images (x : Nat) (c : Ctx) : (s.setCtx x c).images = s.images := rfl
@[simp] theorem State.setCtx_forwards (x : Nat) (c : Ctx) : (s.setCtx x c).forwards = s.forwards := rfl
@[simp] theorem State.setCtx_migs (x : Nat) (c : Ctx) : (s.setCtx x c).migs = s.migs := rfl
@[simp] theorem State.setCtx_tlb (x : Nat) (c : Ctx) : (s.setCtx x c).tlb = s.tlb := rfl
@[simp] theorem State.setCtx_shoots (x : Nat) (c : Ctx) : (s.setCtx x c).shoots = s.shoots := rfl
@[simp] theorem State.setCtx_invSeq (x : Nat) (c : Ctx) : (s.setCtx x c).invSeq = s.invSeq := rfl
@[simp] theorem State.setCtx_hostCached (x : Nat) (c : Ctx) : (s.setCtx x c).hostCached = s.hostCached := rfl
@[simp] theorem State.setCtx_wrote (x : Nat) (c : Ctx) : (s.setCtx x c).wrote = s.wrote := rfl
@[simp] theorem State.setCtx_biWait (x : Nat) (c : Ctx) : (s.setCtx x c).biWait = s.biWait := rfl
@[simp] theorem State.setCtx_biAsked (x : Nat) (c : Ctx) : (s.setCtx x c).biAsked = s.biAsked := rfl
@[simp] theorem State.setCtx_biNext (x : Nat) (c : Ctx) : (s.setCtx x c).biNext = s.biNext := rfl
@[simp] theorem State.setCtx_ringNext (x : Nat) (c : Ctx) : (s.setCtx x c).ringNext = s.ringNext := rfl
@[simp] theorem State.setCtx_engOut (x : Nat) (c : Ctx) : (s.setCtx x c).engOut = s.engOut := rfl
@[simp] theorem State.setCtx_sessions (x : Nat) (c : Ctx) : (s.setCtx x c).sessions = s.sessions := rfl
@[simp] theorem State.setCtx_corrected (x : Nat) (c : Ctx) : (s.setCtx x c).corrected = s.corrected := rfl
@[simp] theorem State.setCtx_mbox (x : Nat) (c : Ctx) : (s.setCtx x c).mbox = s.mbox := rfl
@[simp] theorem State.setCtx_skWait (x : Nat) (c : Ctx) : (s.setCtx x c).skWait = s.skWait := rfl
@[simp] theorem State.setCtx_flash (x : Nat) (c : Ctx) : (s.setCtx x c).flash = s.flash := rfl
@[simp] theorem State.setCtx_meter (x : Nat) (c : Ctx) : (s.setCtx x c).meter = s.meter := rfl
@[simp] theorem State.setCtx_resetting (x : Nat) (c : Ctx) : (s.setCtx x c).resetting = s.resetting := rfl
@[simp] theorem State.setCtx_teams (x : Nat) (c : Ctx) : (s.setCtx x c).teams = s.teams := rfl
@[simp] theorem State.setCtx_parts (x : Nat) (c : Ctx) : (s.setCtx x c).parts = s.parts := rfl
@[simp] theorem State.setCtx_wgs (x : Nat) (c : Ctx) : (s.setCtx x c).wgs = s.wgs := rfl
@[simp] theorem State.setCtx_tiles (x : Nat) (c : Ctx) : (s.setCtx x c).tiles = s.tiles := rfl
@[simp] theorem State.setCtx_xq (x : Nat) (c : Ctx) : (s.setCtx x c).xq = s.xq := rfl
@[simp] theorem State.setCtx_ctxs (x : Nat) (c : Ctx) : (s.setCtx x c).ctxs = s.ctxs.insert x c := rfl
@[simp] theorem State.setCtx_reels (x : Nat) (c : Ctx) : (s.setCtx x c).reels = s.reels := rfl
@[simp] theorem State.setCtx_saved (x : Nat) (c : Ctx) : (s.setCtx x c).saved = s.saved := rfl
@[simp] theorem State.setCtx_launches (x : Nat) (c : Ctx) : (s.setCtx x c).launches = s.launches := rfl
@[simp] theorem State.setCtx_placers (x : Nat) (c : Ctx) : (s.setCtx x c).placers = s.placers := rfl
@[simp] theorem State.setCtx_nreqs (x : Nat) (c : Ctx) : (s.setCtx x c).nreqs = s.nreqs := rfl
@[simp] theorem State.setCtx_nread (x : Nat) (c : Ctx) : (s.setCtx x c).nread = s.nread := rfl
@[simp] theorem State.setCtx_nnext (x : Nat) (c : Ctx) : (s.setCtx x c).nnext = s.nnext := rfl
@[simp] theorem State.setCtx_nends (x : Nat) (c : Ctx) : (s.setCtx x c).nends = s.nends := rfl
@[simp] theorem State.setCtx_drew (x : Nat) (c : Ctx) : (s.setCtx x c).drew = s.drew := rfl
@[simp] theorem State.setCtx_bufs (x : Nat) (c : Ctx) : (s.setCtx x c).bufs = s.bufs := rfl
@[simp] theorem State.setCtx_waking (x : Nat) (c : Ctx) : (s.setCtx x c).waking = s.waking := rfl
@[simp] theorem State.setCtx_ringsDue (x : Nat) (c : Ctx) : (s.setCtx x c).ringsDue = s.ringsDue := rfl
@[simp] theorem State.setCtx_incoming (x : Nat) (c : Ctx) : (s.setCtx x c).incoming = s.incoming := rfl
@[simp] theorem State.setCtx_portHeld (x : Nat) (c : Ctx) : (s.setCtx x c).portHeld = s.portHeld := rfl
@[simp] theorem State.setCtx_portsDown (x : Nat) (c : Ctx) : (s.setCtx x c).portsDown = s.portsDown := rfl
@[simp] theorem State.setCtx_peerKeys (x : Nat) (c : Ctx) : (s.setCtx x c).peerKeys = s.peerKeys := rfl
@[simp] theorem State.setCtx_chimneyDown (x : Nat) (c : Ctx) : (s.setCtx x c).chimneyDown = s.chimneyDown := rfl
@[simp] theorem State.setCtx_idleEnergy (x : Nat) (c : Ctx) : (s.setCtx x c).idleEnergy = s.idleEnergy := rfl
@[simp] theorem State.setCtx_dumps (x : Nat) (c : Ctx) : (s.setCtx x c).dumps = s.dumps := rfl
@[simp] theorem State.setCtx_outs (x : Nat) (c : Ctx) : (s.setCtx x c).outs = s.outs := rfl
@[simp] theorem State.setCtx_agenda (x : Nat) (c : Ctx) : (s.setCtx x c).agenda = s.agenda := rfl
@[simp] theorem State.setCtx_tick (x : Nat) (c : Ctx) : (s.setCtx x c).tick = s.tick := rfl
@[simp] theorem State.setCtx_free (x : Nat) (c : Ctx) : (s.setCtx x c).free = s.free := rfl
@[simp] theorem State.setCtx_cur (x : Nat) (c : Ctx) : (s.setCtx x c).cur = s.cur := rfl
@[simp] theorem State.setCtx_curCtx (x : Nat) (c : Ctx) : (s.setCtx x c).curCtx = s.curCtx := rfl

@[simp] theorem State.setTenant_mgmt (n : Nat) (t : Tenant) : (s.setTenant n t).mgmt = s.mgmt := rfl
@[simp] theorem State.setTenant_mem (n : Nat) (t : Tenant) : (s.setTenant n t).mem = s.mem := rfl
@[simp] theorem State.setTenant_poison (n : Nat) (t : Tenant) : (s.setTenant n t).poison = s.poison := rfl
@[simp] theorem State.setTenant_lineKey (n : Nat) (t : Tenant) : (s.setTenant n t).lineKey = s.lineKey := rfl
@[simp] theorem State.setTenant_keys (n : Nat) (t : Tenant) : (s.setTenant n t).keys = s.keys := rfl
@[simp] theorem State.setTenant_dtbase (n : Nat) (t : Tenant) : (s.setTenant n t).dtbase = s.dtbase := rfl
@[simp] theorem State.setTenant_seq (n : Nat) (t : Tenant) : (s.setTenant n t).seq = s.seq := rfl
@[simp] theorem State.setTenant_records (n : Nat) (t : Tenant) : (s.setTenant n t).records = s.records := rfl
@[simp] theorem State.setTenant_mr (n : Nat) (t : Tenant) : (s.setTenant n t).mr = s.mr := rfl
@[simp] theorem State.setTenant_bootOk (n : Nat) (t : Tenant) : (s.setTenant n t).bootOk = s.bootOk := rfl
@[simp] theorem State.setTenant_booted (n : Nat) (t : Tenant) : (s.setTenant n t).booted = s.booted := rfl
@[simp] theorem State.setTenant_tenants (n : Nat) (t : Tenant) : (s.setTenant n t).tenants = s.tenants.insert n t := rfl
@[simp] theorem State.setTenant_hartsDown (n : Nat) (t : Tenant) : (s.setTenant n t).hartsDown = s.hartsDown := rfl
@[simp] theorem State.setTenant_apAlloc (n : Nat) (t : Tenant) : (s.setTenant n t).apAlloc = s.apAlloc := rfl
@[simp] theorem State.setTenant_images (n : Nat) (t : Tenant) : (s.setTenant n t).images = s.images := rfl
@[simp] theorem State.setTenant_forwards (n : Nat) (t : Tenant) : (s.setTenant n t).forwards = s.forwards := rfl
@[simp] theorem State.setTenant_migs (n : Nat) (t : Tenant) : (s.setTenant n t).migs = s.migs := rfl
@[simp] theorem State.setTenant_tlb (n : Nat) (t : Tenant) : (s.setTenant n t).tlb = s.tlb := rfl
@[simp] theorem State.setTenant_shoots (n : Nat) (t : Tenant) : (s.setTenant n t).shoots = s.shoots := rfl
@[simp] theorem State.setTenant_invSeq (n : Nat) (t : Tenant) : (s.setTenant n t).invSeq = s.invSeq := rfl
@[simp] theorem State.setTenant_hostCached (n : Nat) (t : Tenant) : (s.setTenant n t).hostCached = s.hostCached := rfl
@[simp] theorem State.setTenant_wrote (n : Nat) (t : Tenant) : (s.setTenant n t).wrote = s.wrote := rfl
@[simp] theorem State.setTenant_biWait (n : Nat) (t : Tenant) : (s.setTenant n t).biWait = s.biWait := rfl
@[simp] theorem State.setTenant_biAsked (n : Nat) (t : Tenant) : (s.setTenant n t).biAsked = s.biAsked := rfl
@[simp] theorem State.setTenant_biNext (n : Nat) (t : Tenant) : (s.setTenant n t).biNext = s.biNext := rfl
@[simp] theorem State.setTenant_ringNext (n : Nat) (t : Tenant) : (s.setTenant n t).ringNext = s.ringNext := rfl
@[simp] theorem State.setTenant_engOut (n : Nat) (t : Tenant) : (s.setTenant n t).engOut = s.engOut := rfl
@[simp] theorem State.setTenant_sessions (n : Nat) (t : Tenant) : (s.setTenant n t).sessions = s.sessions := rfl
@[simp] theorem State.setTenant_corrected (n : Nat) (t : Tenant) : (s.setTenant n t).corrected = s.corrected := rfl
@[simp] theorem State.setTenant_mbox (n : Nat) (t : Tenant) : (s.setTenant n t).mbox = s.mbox := rfl
@[simp] theorem State.setTenant_skWait (n : Nat) (t : Tenant) : (s.setTenant n t).skWait = s.skWait := rfl
@[simp] theorem State.setTenant_flash (n : Nat) (t : Tenant) : (s.setTenant n t).flash = s.flash := rfl
@[simp] theorem State.setTenant_meter (n : Nat) (t : Tenant) : (s.setTenant n t).meter = s.meter := rfl
@[simp] theorem State.setTenant_resetting (n : Nat) (t : Tenant) : (s.setTenant n t).resetting = s.resetting := rfl
@[simp] theorem State.setTenant_teams (n : Nat) (t : Tenant) : (s.setTenant n t).teams = s.teams := rfl
@[simp] theorem State.setTenant_parts (n : Nat) (t : Tenant) : (s.setTenant n t).parts = s.parts := rfl
@[simp] theorem State.setTenant_wgs (n : Nat) (t : Tenant) : (s.setTenant n t).wgs = s.wgs := rfl
@[simp] theorem State.setTenant_tiles (n : Nat) (t : Tenant) : (s.setTenant n t).tiles = s.tiles := rfl
@[simp] theorem State.setTenant_xq (n : Nat) (t : Tenant) : (s.setTenant n t).xq = s.xq := rfl
@[simp] theorem State.setTenant_ctxs (n : Nat) (t : Tenant) : (s.setTenant n t).ctxs = s.ctxs := rfl
@[simp] theorem State.setTenant_reels (n : Nat) (t : Tenant) : (s.setTenant n t).reels = s.reels := rfl
@[simp] theorem State.setTenant_saved (n : Nat) (t : Tenant) : (s.setTenant n t).saved = s.saved := rfl
@[simp] theorem State.setTenant_launches (n : Nat) (t : Tenant) : (s.setTenant n t).launches = s.launches := rfl
@[simp] theorem State.setTenant_placers (n : Nat) (t : Tenant) : (s.setTenant n t).placers = s.placers := rfl
@[simp] theorem State.setTenant_nreqs (n : Nat) (t : Tenant) : (s.setTenant n t).nreqs = s.nreqs := rfl
@[simp] theorem State.setTenant_nread (n : Nat) (t : Tenant) : (s.setTenant n t).nread = s.nread := rfl
@[simp] theorem State.setTenant_nnext (n : Nat) (t : Tenant) : (s.setTenant n t).nnext = s.nnext := rfl
@[simp] theorem State.setTenant_nends (n : Nat) (t : Tenant) : (s.setTenant n t).nends = s.nends := rfl
@[simp] theorem State.setTenant_drew (n : Nat) (t : Tenant) : (s.setTenant n t).drew = s.drew := rfl
@[simp] theorem State.setTenant_bufs (n : Nat) (t : Tenant) : (s.setTenant n t).bufs = s.bufs := rfl
@[simp] theorem State.setTenant_waking (n : Nat) (t : Tenant) : (s.setTenant n t).waking = s.waking := rfl
@[simp] theorem State.setTenant_ringsDue (n : Nat) (t : Tenant) : (s.setTenant n t).ringsDue = s.ringsDue := rfl
@[simp] theorem State.setTenant_incoming (n : Nat) (t : Tenant) : (s.setTenant n t).incoming = s.incoming := rfl
@[simp] theorem State.setTenant_portHeld (n : Nat) (t : Tenant) : (s.setTenant n t).portHeld = s.portHeld := rfl
@[simp] theorem State.setTenant_portsDown (n : Nat) (t : Tenant) : (s.setTenant n t).portsDown = s.portsDown := rfl
@[simp] theorem State.setTenant_peerKeys (n : Nat) (t : Tenant) : (s.setTenant n t).peerKeys = s.peerKeys := rfl
@[simp] theorem State.setTenant_chimneyDown (n : Nat) (t : Tenant) : (s.setTenant n t).chimneyDown = s.chimneyDown := rfl
@[simp] theorem State.setTenant_idleEnergy (n : Nat) (t : Tenant) : (s.setTenant n t).idleEnergy = s.idleEnergy := rfl
@[simp] theorem State.setTenant_dumps (n : Nat) (t : Tenant) : (s.setTenant n t).dumps = s.dumps := rfl
@[simp] theorem State.setTenant_outs (n : Nat) (t : Tenant) : (s.setTenant n t).outs = s.outs := rfl
@[simp] theorem State.setTenant_agenda (n : Nat) (t : Tenant) : (s.setTenant n t).agenda = s.agenda := rfl
@[simp] theorem State.setTenant_tick (n : Nat) (t : Tenant) : (s.setTenant n t).tick = s.tick := rfl
@[simp] theorem State.setTenant_free (n : Nat) (t : Tenant) : (s.setTenant n t).free = s.free := rfl
@[simp] theorem State.setTenant_cur (n : Nat) (t : Tenant) : (s.setTenant n t).cur = s.cur := rfl
@[simp] theorem State.setTenant_curCtx (n : Nat) (t : Tenant) : (s.setTenant n t).curCtx = s.curCtx := rfl

@[simp] theorem State.setReg_mgmt (off v : Nat) : (s.setReg off v).mgmt = s.mgmt.setD off (dwordOf v) (mgmtReset off) := rfl
@[simp] theorem State.setReg_mem (off v : Nat) : (s.setReg off v).mem = s.mem := rfl
@[simp] theorem State.setReg_poison (off v : Nat) : (s.setReg off v).poison = s.poison := rfl
@[simp] theorem State.setReg_lineKey (off v : Nat) : (s.setReg off v).lineKey = s.lineKey := rfl
@[simp] theorem State.setReg_keys (off v : Nat) : (s.setReg off v).keys = s.keys := rfl
@[simp] theorem State.setReg_dtbase (off v : Nat) : (s.setReg off v).dtbase = s.dtbase := rfl
@[simp] theorem State.setReg_seq (off v : Nat) : (s.setReg off v).seq = s.seq := rfl
@[simp] theorem State.setReg_records (off v : Nat) : (s.setReg off v).records = s.records := rfl
@[simp] theorem State.setReg_mr (off v : Nat) : (s.setReg off v).mr = s.mr := rfl
@[simp] theorem State.setReg_bootOk (off v : Nat) : (s.setReg off v).bootOk = s.bootOk := rfl
@[simp] theorem State.setReg_booted (off v : Nat) : (s.setReg off v).booted = s.booted := rfl
@[simp] theorem State.setReg_tenants (off v : Nat) : (s.setReg off v).tenants = s.tenants := rfl
@[simp] theorem State.setReg_hartsDown (off v : Nat) : (s.setReg off v).hartsDown = s.hartsDown := rfl
@[simp] theorem State.setReg_apAlloc (off v : Nat) : (s.setReg off v).apAlloc = s.apAlloc := rfl
@[simp] theorem State.setReg_images (off v : Nat) : (s.setReg off v).images = s.images := rfl
@[simp] theorem State.setReg_forwards (off v : Nat) : (s.setReg off v).forwards = s.forwards := rfl
@[simp] theorem State.setReg_migs (off v : Nat) : (s.setReg off v).migs = s.migs := rfl
@[simp] theorem State.setReg_tlb (off v : Nat) : (s.setReg off v).tlb = s.tlb := rfl
@[simp] theorem State.setReg_shoots (off v : Nat) : (s.setReg off v).shoots = s.shoots := rfl
@[simp] theorem State.setReg_invSeq (off v : Nat) : (s.setReg off v).invSeq = s.invSeq := rfl
@[simp] theorem State.setReg_hostCached (off v : Nat) : (s.setReg off v).hostCached = s.hostCached := rfl
@[simp] theorem State.setReg_wrote (off v : Nat) : (s.setReg off v).wrote = s.wrote := rfl
@[simp] theorem State.setReg_biWait (off v : Nat) : (s.setReg off v).biWait = s.biWait := rfl
@[simp] theorem State.setReg_biAsked (off v : Nat) : (s.setReg off v).biAsked = s.biAsked := rfl
@[simp] theorem State.setReg_biNext (off v : Nat) : (s.setReg off v).biNext = s.biNext := rfl
@[simp] theorem State.setReg_ringNext (off v : Nat) : (s.setReg off v).ringNext = s.ringNext := rfl
@[simp] theorem State.setReg_engOut (off v : Nat) : (s.setReg off v).engOut = s.engOut := rfl
@[simp] theorem State.setReg_sessions (off v : Nat) : (s.setReg off v).sessions = s.sessions := rfl
@[simp] theorem State.setReg_corrected (off v : Nat) : (s.setReg off v).corrected = s.corrected := rfl
@[simp] theorem State.setReg_mbox (off v : Nat) : (s.setReg off v).mbox = s.mbox := rfl
@[simp] theorem State.setReg_skWait (off v : Nat) : (s.setReg off v).skWait = s.skWait := rfl
@[simp] theorem State.setReg_flash (off v : Nat) : (s.setReg off v).flash = s.flash := rfl
@[simp] theorem State.setReg_meter (off v : Nat) : (s.setReg off v).meter = s.meter := rfl
@[simp] theorem State.setReg_resetting (off v : Nat) : (s.setReg off v).resetting = s.resetting := rfl
@[simp] theorem State.setReg_teams (off v : Nat) : (s.setReg off v).teams = s.teams := rfl
@[simp] theorem State.setReg_parts (off v : Nat) : (s.setReg off v).parts = s.parts := rfl
@[simp] theorem State.setReg_wgs (off v : Nat) : (s.setReg off v).wgs = s.wgs := rfl
@[simp] theorem State.setReg_tiles (off v : Nat) : (s.setReg off v).tiles = s.tiles := rfl
@[simp] theorem State.setReg_xq (off v : Nat) : (s.setReg off v).xq = s.xq := rfl
@[simp] theorem State.setReg_ctxs (off v : Nat) : (s.setReg off v).ctxs = s.ctxs := rfl
@[simp] theorem State.setReg_reels (off v : Nat) : (s.setReg off v).reels = s.reels := rfl
@[simp] theorem State.setReg_saved (off v : Nat) : (s.setReg off v).saved = s.saved := rfl
@[simp] theorem State.setReg_launches (off v : Nat) : (s.setReg off v).launches = s.launches := rfl
@[simp] theorem State.setReg_placers (off v : Nat) : (s.setReg off v).placers = s.placers := rfl
@[simp] theorem State.setReg_nreqs (off v : Nat) : (s.setReg off v).nreqs = s.nreqs := rfl
@[simp] theorem State.setReg_nread (off v : Nat) : (s.setReg off v).nread = s.nread := rfl
@[simp] theorem State.setReg_nnext (off v : Nat) : (s.setReg off v).nnext = s.nnext := rfl
@[simp] theorem State.setReg_nends (off v : Nat) : (s.setReg off v).nends = s.nends := rfl
@[simp] theorem State.setReg_drew (off v : Nat) : (s.setReg off v).drew = s.drew := rfl
@[simp] theorem State.setReg_bufs (off v : Nat) : (s.setReg off v).bufs = s.bufs := rfl
@[simp] theorem State.setReg_waking (off v : Nat) : (s.setReg off v).waking = s.waking := rfl
@[simp] theorem State.setReg_ringsDue (off v : Nat) : (s.setReg off v).ringsDue = s.ringsDue := rfl
@[simp] theorem State.setReg_incoming (off v : Nat) : (s.setReg off v).incoming = s.incoming := rfl
@[simp] theorem State.setReg_portHeld (off v : Nat) : (s.setReg off v).portHeld = s.portHeld := rfl
@[simp] theorem State.setReg_portsDown (off v : Nat) : (s.setReg off v).portsDown = s.portsDown := rfl
@[simp] theorem State.setReg_peerKeys (off v : Nat) : (s.setReg off v).peerKeys = s.peerKeys := rfl
@[simp] theorem State.setReg_chimneyDown (off v : Nat) : (s.setReg off v).chimneyDown = s.chimneyDown := rfl
@[simp] theorem State.setReg_idleEnergy (off v : Nat) : (s.setReg off v).idleEnergy = s.idleEnergy := rfl
@[simp] theorem State.setReg_dumps (off v : Nat) : (s.setReg off v).dumps = s.dumps := rfl
@[simp] theorem State.setReg_outs (off v : Nat) : (s.setReg off v).outs = s.outs := rfl
@[simp] theorem State.setReg_agenda (off v : Nat) : (s.setReg off v).agenda = s.agenda := rfl
@[simp] theorem State.setReg_tick (off v : Nat) : (s.setReg off v).tick = s.tick := rfl
@[simp] theorem State.setReg_free (off v : Nat) : (s.setReg off v).free = s.free := rfl
@[simp] theorem State.setReg_cur (off v : Nat) : (s.setReg off v).cur = s.cur := rfl
@[simp] theorem State.setReg_curCtx (off v : Nat) : (s.setReg off v).curCtx = s.curCtx := rfl

@[simp] theorem State.emit_mgmt (o : Out) : (s.emit o).mgmt = s.mgmt := rfl
@[simp] theorem State.emit_mem (o : Out) : (s.emit o).mem = s.mem := rfl
@[simp] theorem State.emit_poison (o : Out) : (s.emit o).poison = s.poison := rfl
@[simp] theorem State.emit_lineKey (o : Out) : (s.emit o).lineKey = s.lineKey := rfl
@[simp] theorem State.emit_keys (o : Out) : (s.emit o).keys = s.keys := rfl
@[simp] theorem State.emit_dtbase (o : Out) : (s.emit o).dtbase = s.dtbase := rfl
@[simp] theorem State.emit_seq (o : Out) : (s.emit o).seq = s.seq := rfl
@[simp] theorem State.emit_records (o : Out) : (s.emit o).records = s.records := rfl
@[simp] theorem State.emit_mr (o : Out) : (s.emit o).mr = s.mr := rfl
@[simp] theorem State.emit_bootOk (o : Out) : (s.emit o).bootOk = s.bootOk := rfl
@[simp] theorem State.emit_booted (o : Out) : (s.emit o).booted = s.booted := rfl
@[simp] theorem State.emit_tenants (o : Out) : (s.emit o).tenants = s.tenants := rfl
@[simp] theorem State.emit_hartsDown (o : Out) : (s.emit o).hartsDown = s.hartsDown := rfl
@[simp] theorem State.emit_apAlloc (o : Out) : (s.emit o).apAlloc = s.apAlloc := rfl
@[simp] theorem State.emit_images (o : Out) : (s.emit o).images = s.images := rfl
@[simp] theorem State.emit_forwards (o : Out) : (s.emit o).forwards = s.forwards := rfl
@[simp] theorem State.emit_migs (o : Out) : (s.emit o).migs = s.migs := rfl
@[simp] theorem State.emit_tlb (o : Out) : (s.emit o).tlb = s.tlb := rfl
@[simp] theorem State.emit_shoots (o : Out) : (s.emit o).shoots = s.shoots := rfl
@[simp] theorem State.emit_invSeq (o : Out) : (s.emit o).invSeq = s.invSeq := rfl
@[simp] theorem State.emit_hostCached (o : Out) : (s.emit o).hostCached = s.hostCached := rfl
@[simp] theorem State.emit_wrote (o : Out) : (s.emit o).wrote = s.wrote := rfl
@[simp] theorem State.emit_biWait (o : Out) : (s.emit o).biWait = s.biWait := rfl
@[simp] theorem State.emit_biAsked (o : Out) : (s.emit o).biAsked = s.biAsked := rfl
@[simp] theorem State.emit_biNext (o : Out) : (s.emit o).biNext = s.biNext := rfl
@[simp] theorem State.emit_ringNext (o : Out) : (s.emit o).ringNext = s.ringNext := rfl
@[simp] theorem State.emit_engOut (o : Out) : (s.emit o).engOut = s.engOut := rfl
@[simp] theorem State.emit_sessions (o : Out) : (s.emit o).sessions = s.sessions := rfl
@[simp] theorem State.emit_corrected (o : Out) : (s.emit o).corrected = s.corrected := rfl
@[simp] theorem State.emit_mbox (o : Out) : (s.emit o).mbox = s.mbox := rfl
@[simp] theorem State.emit_skWait (o : Out) : (s.emit o).skWait = s.skWait := rfl
@[simp] theorem State.emit_flash (o : Out) : (s.emit o).flash = s.flash := rfl
@[simp] theorem State.emit_meter (o : Out) : (s.emit o).meter = s.meter := rfl
@[simp] theorem State.emit_resetting (o : Out) : (s.emit o).resetting = s.resetting := rfl
@[simp] theorem State.emit_teams (o : Out) : (s.emit o).teams = s.teams := rfl
@[simp] theorem State.emit_parts (o : Out) : (s.emit o).parts = s.parts := rfl
@[simp] theorem State.emit_wgs (o : Out) : (s.emit o).wgs = s.wgs := rfl
@[simp] theorem State.emit_tiles (o : Out) : (s.emit o).tiles = s.tiles := rfl
@[simp] theorem State.emit_xq (o : Out) : (s.emit o).xq = s.xq := rfl
@[simp] theorem State.emit_ctxs (o : Out) : (s.emit o).ctxs = s.ctxs := rfl
@[simp] theorem State.emit_reels (o : Out) : (s.emit o).reels = s.reels := rfl
@[simp] theorem State.emit_saved (o : Out) : (s.emit o).saved = s.saved := rfl
@[simp] theorem State.emit_launches (o : Out) : (s.emit o).launches = s.launches := rfl
@[simp] theorem State.emit_placers (o : Out) : (s.emit o).placers = s.placers := rfl
@[simp] theorem State.emit_nreqs (o : Out) : (s.emit o).nreqs = s.nreqs := rfl
@[simp] theorem State.emit_nread (o : Out) : (s.emit o).nread = s.nread := rfl
@[simp] theorem State.emit_nnext (o : Out) : (s.emit o).nnext = s.nnext := rfl
@[simp] theorem State.emit_nends (o : Out) : (s.emit o).nends = s.nends := rfl
@[simp] theorem State.emit_drew (o : Out) : (s.emit o).drew = s.drew := rfl
@[simp] theorem State.emit_bufs (o : Out) : (s.emit o).bufs = s.bufs := rfl
@[simp] theorem State.emit_waking (o : Out) : (s.emit o).waking = s.waking := rfl
@[simp] theorem State.emit_ringsDue (o : Out) : (s.emit o).ringsDue = s.ringsDue := rfl
@[simp] theorem State.emit_incoming (o : Out) : (s.emit o).incoming = s.incoming := rfl
@[simp] theorem State.emit_portHeld (o : Out) : (s.emit o).portHeld = s.portHeld := rfl
@[simp] theorem State.emit_portsDown (o : Out) : (s.emit o).portsDown = s.portsDown := rfl
@[simp] theorem State.emit_peerKeys (o : Out) : (s.emit o).peerKeys = s.peerKeys := rfl
@[simp] theorem State.emit_chimneyDown (o : Out) : (s.emit o).chimneyDown = s.chimneyDown := rfl
@[simp] theorem State.emit_idleEnergy (o : Out) : (s.emit o).idleEnergy = s.idleEnergy := rfl
@[simp] theorem State.emit_dumps (o : Out) : (s.emit o).dumps = s.dumps := rfl
@[simp] theorem State.emit_outs (o : Out) : (s.emit o).outs = s.outs ++ [o] := rfl
@[simp] theorem State.emit_agenda (o : Out) : (s.emit o).agenda = s.agenda := rfl
@[simp] theorem State.emit_tick (o : Out) : (s.emit o).tick = s.tick := rfl
@[simp] theorem State.emit_free (o : Out) : (s.emit o).free = s.free := rfl
@[simp] theorem State.emit_cur (o : Out) : (s.emit o).cur = s.cur := rfl
@[simp] theorem State.emit_curCtx (o : Out) : (s.emit o).curCtx = s.curCtx := rfl

@[simp] theorem State.modTeam_mgmt (k : Nat) (f : Team → Team) : (s.modTeam k f).mgmt = s.mgmt := rfl
@[simp] theorem State.modTeam_mem (k : Nat) (f : Team → Team) : (s.modTeam k f).mem = s.mem := rfl
@[simp] theorem State.modTeam_poison (k : Nat) (f : Team → Team) : (s.modTeam k f).poison = s.poison := rfl
@[simp] theorem State.modTeam_lineKey (k : Nat) (f : Team → Team) : (s.modTeam k f).lineKey = s.lineKey := rfl
@[simp] theorem State.modTeam_keys (k : Nat) (f : Team → Team) : (s.modTeam k f).keys = s.keys := rfl
@[simp] theorem State.modTeam_dtbase (k : Nat) (f : Team → Team) : (s.modTeam k f).dtbase = s.dtbase := rfl
@[simp] theorem State.modTeam_seq (k : Nat) (f : Team → Team) : (s.modTeam k f).seq = s.seq := rfl
@[simp] theorem State.modTeam_records (k : Nat) (f : Team → Team) : (s.modTeam k f).records = s.records := rfl
@[simp] theorem State.modTeam_mr (k : Nat) (f : Team → Team) : (s.modTeam k f).mr = s.mr := rfl
@[simp] theorem State.modTeam_bootOk (k : Nat) (f : Team → Team) : (s.modTeam k f).bootOk = s.bootOk := rfl
@[simp] theorem State.modTeam_booted (k : Nat) (f : Team → Team) : (s.modTeam k f).booted = s.booted := rfl
@[simp] theorem State.modTeam_tenants (k : Nat) (f : Team → Team) : (s.modTeam k f).tenants = s.tenants := rfl
@[simp] theorem State.modTeam_hartsDown (k : Nat) (f : Team → Team) : (s.modTeam k f).hartsDown = s.hartsDown := rfl
@[simp] theorem State.modTeam_apAlloc (k : Nat) (f : Team → Team) : (s.modTeam k f).apAlloc = s.apAlloc := rfl
@[simp] theorem State.modTeam_images (k : Nat) (f : Team → Team) : (s.modTeam k f).images = s.images := rfl
@[simp] theorem State.modTeam_forwards (k : Nat) (f : Team → Team) : (s.modTeam k f).forwards = s.forwards := rfl
@[simp] theorem State.modTeam_migs (k : Nat) (f : Team → Team) : (s.modTeam k f).migs = s.migs := rfl
@[simp] theorem State.modTeam_tlb (k : Nat) (f : Team → Team) : (s.modTeam k f).tlb = s.tlb := rfl
@[simp] theorem State.modTeam_shoots (k : Nat) (f : Team → Team) : (s.modTeam k f).shoots = s.shoots := rfl
@[simp] theorem State.modTeam_invSeq (k : Nat) (f : Team → Team) : (s.modTeam k f).invSeq = s.invSeq := rfl
@[simp] theorem State.modTeam_hostCached (k : Nat) (f : Team → Team) : (s.modTeam k f).hostCached = s.hostCached := rfl
@[simp] theorem State.modTeam_wrote (k : Nat) (f : Team → Team) : (s.modTeam k f).wrote = s.wrote := rfl
@[simp] theorem State.modTeam_biWait (k : Nat) (f : Team → Team) : (s.modTeam k f).biWait = s.biWait := rfl
@[simp] theorem State.modTeam_biAsked (k : Nat) (f : Team → Team) : (s.modTeam k f).biAsked = s.biAsked := rfl
@[simp] theorem State.modTeam_biNext (k : Nat) (f : Team → Team) : (s.modTeam k f).biNext = s.biNext := rfl
@[simp] theorem State.modTeam_ringNext (k : Nat) (f : Team → Team) : (s.modTeam k f).ringNext = s.ringNext := rfl
@[simp] theorem State.modTeam_engOut (k : Nat) (f : Team → Team) : (s.modTeam k f).engOut = s.engOut := rfl
@[simp] theorem State.modTeam_sessions (k : Nat) (f : Team → Team) : (s.modTeam k f).sessions = s.sessions := rfl
@[simp] theorem State.modTeam_corrected (k : Nat) (f : Team → Team) : (s.modTeam k f).corrected = s.corrected := rfl
@[simp] theorem State.modTeam_mbox (k : Nat) (f : Team → Team) : (s.modTeam k f).mbox = s.mbox := rfl
@[simp] theorem State.modTeam_skWait (k : Nat) (f : Team → Team) : (s.modTeam k f).skWait = s.skWait := rfl
@[simp] theorem State.modTeam_flash (k : Nat) (f : Team → Team) : (s.modTeam k f).flash = s.flash := rfl
@[simp] theorem State.modTeam_meter (k : Nat) (f : Team → Team) : (s.modTeam k f).meter = s.meter := rfl
@[simp] theorem State.modTeam_resetting (k : Nat) (f : Team → Team) : (s.modTeam k f).resetting = s.resetting := rfl
@[simp] theorem State.modTeam_teams (k : Nat) (f : Team → Team) : (s.modTeam k f).teams = s.teams.modify k f := rfl
@[simp] theorem State.modTeam_parts (k : Nat) (f : Team → Team) : (s.modTeam k f).parts = s.parts := rfl
@[simp] theorem State.modTeam_wgs (k : Nat) (f : Team → Team) : (s.modTeam k f).wgs = s.wgs := rfl
@[simp] theorem State.modTeam_tiles (k : Nat) (f : Team → Team) : (s.modTeam k f).tiles = s.tiles := rfl
@[simp] theorem State.modTeam_xq (k : Nat) (f : Team → Team) : (s.modTeam k f).xq = s.xq := rfl
@[simp] theorem State.modTeam_ctxs (k : Nat) (f : Team → Team) : (s.modTeam k f).ctxs = s.ctxs := rfl
@[simp] theorem State.modTeam_reels (k : Nat) (f : Team → Team) : (s.modTeam k f).reels = s.reels := rfl
@[simp] theorem State.modTeam_saved (k : Nat) (f : Team → Team) : (s.modTeam k f).saved = s.saved := rfl
@[simp] theorem State.modTeam_launches (k : Nat) (f : Team → Team) : (s.modTeam k f).launches = s.launches := rfl
@[simp] theorem State.modTeam_placers (k : Nat) (f : Team → Team) : (s.modTeam k f).placers = s.placers := rfl
@[simp] theorem State.modTeam_nreqs (k : Nat) (f : Team → Team) : (s.modTeam k f).nreqs = s.nreqs := rfl
@[simp] theorem State.modTeam_nread (k : Nat) (f : Team → Team) : (s.modTeam k f).nread = s.nread := rfl
@[simp] theorem State.modTeam_nnext (k : Nat) (f : Team → Team) : (s.modTeam k f).nnext = s.nnext := rfl
@[simp] theorem State.modTeam_nends (k : Nat) (f : Team → Team) : (s.modTeam k f).nends = s.nends := rfl
@[simp] theorem State.modTeam_drew (k : Nat) (f : Team → Team) : (s.modTeam k f).drew = s.drew := rfl
@[simp] theorem State.modTeam_bufs (k : Nat) (f : Team → Team) : (s.modTeam k f).bufs = s.bufs := rfl
@[simp] theorem State.modTeam_waking (k : Nat) (f : Team → Team) : (s.modTeam k f).waking = s.waking := rfl
@[simp] theorem State.modTeam_ringsDue (k : Nat) (f : Team → Team) : (s.modTeam k f).ringsDue = s.ringsDue := rfl
@[simp] theorem State.modTeam_incoming (k : Nat) (f : Team → Team) : (s.modTeam k f).incoming = s.incoming := rfl
@[simp] theorem State.modTeam_portHeld (k : Nat) (f : Team → Team) : (s.modTeam k f).portHeld = s.portHeld := rfl
@[simp] theorem State.modTeam_portsDown (k : Nat) (f : Team → Team) : (s.modTeam k f).portsDown = s.portsDown := rfl
@[simp] theorem State.modTeam_peerKeys (k : Nat) (f : Team → Team) : (s.modTeam k f).peerKeys = s.peerKeys := rfl
@[simp] theorem State.modTeam_chimneyDown (k : Nat) (f : Team → Team) : (s.modTeam k f).chimneyDown = s.chimneyDown := rfl
@[simp] theorem State.modTeam_idleEnergy (k : Nat) (f : Team → Team) : (s.modTeam k f).idleEnergy = s.idleEnergy := rfl
@[simp] theorem State.modTeam_dumps (k : Nat) (f : Team → Team) : (s.modTeam k f).dumps = s.dumps := rfl
@[simp] theorem State.modTeam_outs (k : Nat) (f : Team → Team) : (s.modTeam k f).outs = s.outs := rfl
@[simp] theorem State.modTeam_agenda (k : Nat) (f : Team → Team) : (s.modTeam k f).agenda = s.agenda := rfl
@[simp] theorem State.modTeam_tick (k : Nat) (f : Team → Team) : (s.modTeam k f).tick = s.tick := rfl
@[simp] theorem State.modTeam_free (k : Nat) (f : Team → Team) : (s.modTeam k f).free = s.free := rfl
@[simp] theorem State.modTeam_cur (k : Nat) (f : Team → Team) : (s.modTeam k f).cur = s.cur := rfl
@[simp] theorem State.modTeam_curCtx (k : Nat) (f : Team → Team) : (s.modTeam k f).curCtx = s.curCtx := rfl

end Sys2Proof.Machine
end

