-- ==== Sys2Proof/Laws/Ops.lean ====
section
/-! SUPPORT. What the shared operations of the team instructions can do. -/

namespace Sys2Proof.Machine

/-! ### Registers, predicates and flags of a lane -/

theorem getD_map_range {α : Type} (n l : Nat) (f : Nat → α) (d : α) (h : l < n) : ((List.range n).map f).getD l d = f l := by
  simp [List.getD, h]

/-- A register write: the lanes that satisfy `p` take the value. -/
theorem Team.get_put (t : Team) (d n l : Nat) (p : Nat → Bool) (f : Nat → Word) (h : l < t.nlanes) :
    (t.put d p f).get n l = if n = d then (if p l then f l else t.get d l) else t.get n l := by
  simp only [Team.put, Team.get, SMap.find_insert]
  split
  · exact getD_map_range _ _ _ _ h
  · rfl

@[simp] theorem Team.put_nlanes (t : Team) (d : Nat) (p : Nat → Bool) (f : Nat → Word) : (t.put d p f).nlanes = t.nlanes := rfl
@[simp] theorem Team.put_p (t : Team) (d : Nat) (p : Nat → Bool) (f : Nat → Word) : (t.put d p f).p = t.p := rfl

/-- A pair write: two registers. -/
theorem Team.get_put64 (t : Team) (d n l : Nat) (p : Nat → Bool) (f : Nat → DWord) (h : l < t.nlanes) :
    (t.put64 d p f).get n l = if p l then (toPair d f n l).getD (t.get n l) else t.get n l := by
  simp only [Team.put64, toPair]
  rw [Team.get_put _ _ _ _ _ _ (by simpa using h), Team.get_put _ _ _ _ _ _ h, Team.get_put _ _ _ _ _ _ h]
  by_cases hp : p l = true <;> by_cases h1 : n = d + 1 <;> by_cases h2 : n = d <;> simp [hp, h1, h2]

theorem getLsbD_oneBit (l n : Nat) (h : l < 1024) : (BitVec.shiftLeft (1 : Mask) n).getLsbD l = decide (l = n) := by
  rw [show BitVec.shiftLeft (1 : Mask) n = (1 : Mask) <<< n from rfl, BitVec.getLsbD_shiftLeft]
  by_cases hl : l < n
  · simp [hl]; omega
  · by_cases he : l = n
    · subst he; simp [h]
    · have : l - n ≠ 0 := by omega
      simp [this, he]

theorem testBit_maskOf (n l : Nat) (p : Nat → Bool) (h : l < 1024) :
    (maskOf n p).getLsbD l = (decide (l < n) && p l) := by
  simp only [maskOf]
  induction n with
  | zero => exact BitVec.getLsbD_zero
  | succ n ih =>
    rw [List.range_succ, List.foldl_append, List.foldl_cons, List.foldl_nil]
    have e : decide (l < n + 1) = (decide (l < n) || decide (l = n)) := by
      rw [← Bool.decide_or]; exact decide_eq_decide.mpr (by omega)
    split
    · rename_i hp
      rw [BitVec.getLsbD_or, ih, getLsbD_oneBit l n h, e]
      by_cases he : l = n
      · subst he; simp [hp]
      · simp [he]
    · rename_i hp
      rw [ih, e]
      by_cases he : l = n
      · subst he; simp [hp]
      · simp [he]

/-- A predicate write. -/
theorem Team.pred_putPred (t : Team) (d n l : Nat) (p : Nat → Bool) (f : Nat → Bool) (h : l < t.nlanes) (h' : l < 1024) :
    (t.putPred d p f).pred n l = if n = d then (if p l then f l else t.pred d l) else t.pred n l := by
  simp only [Team.putPred, Team.pred, SMap.getD_setD]
  split
  · rw [testBit_maskOf _ _ _ h', decide_eq_true h, Bool.true_and]
  · rfl

/-- What a lane raises is added to what it raised before. -/
theorem Run.raise_flags (r : Run) (n l : Nat) (p : Nat → Bool) (f : Nat → Word) (h : l < n) :
    (r.raise n p f).laneFlags.getD l 0 = r.laneFlags.getD l 0 ||| (if p l then f l else 0) := by
  have H : ∀ (k : Nat) (m : SMap Word), SMap.getD ((List.range k).foldl (fun m l =>
      if p l && f l != 0 then m.insert l (m.getD l 0 ||| f l) else m) m) l 0 =
        m.getD l 0 ||| (if l < k ∧ p l = true then f l else 0) := by
    intro k m
    induction k with
    | zero => simp
    | succ k ih =>
      rw [List.range_succ, List.foldl_append]
      simp only [List.foldl_cons, List.foldl_nil]
      by_cases hl : l = k
      · subst hl
        by_cases hp : p l = true <;> by_cases hf : f l = 0 <;>
          simp_all [SMap.getD_insert]
      · have e : (l < k + 1) ↔ (l < k) := by omega
        split
        · rw [SMap.getD_insert, if_neg hl, ih]; simp [e]
        · rw [ih]; simp [e]
  rw [Run.raise, H]; simp [h]

/-! ### The frame of an issue -/

/-- Only counters of partition `pt` differ. -/
def CountsOnly (pt : Nat) (s s' : State) : Prop :=
  s' = { s with mgmt := s'.mgmt } ∧ ∀ off, ¬ counterReg pt off → s'.reg off = s.reg off

theorem CountsOnly.rfl' (pt : Nat) (s : State) : CountsOnly pt s s := ⟨rfl, fun _ _ => rfl⟩

theorem CountsOnly.trans {pt : Nat} {a b c : State} (h : CountsOnly pt a b) (h' : CountsOnly pt b c) : CountsOnly pt a c := by
  refine ⟨?_, fun off ho => (h'.2 off ho).trans (h.2 off ho)⟩
  have e := h'.1
  rw [h.1] at e
  exact e

theorem CountsOnly.count {pt : Nat} (s : State) (off n : Nat) (h : counterReg pt off) : CountsOnly pt s (s.count off n) := by
  unfold State.count
  split
  · exact CountsOnly.rfl' pt s
  · refine ⟨rfl, fun o ho => ?_⟩
    rw [State.reg_setReg, if_neg]
    rintro rfl
    exact ho h

theorem counterReg_slot (pt c j : Nat) (hc : c < 8) (hj : j < 4) : counterReg pt (oSlotCnt pt c j) := .inl ⟨c, hc, j, hj, rfl⟩
theorem counterReg_idle (pt : Nat) : counterReg pt (oLcridle pt) := .inr (.inr (.inr rfl))
theorem counterReg_at (s : State) (pt asid ia j : Nat) (hj : j < 4) : counterReg pt (s.lcrAt pt asid ia j) := by
  unfold State.lcrAt
  split
  · rename_i r h
    exact .inr (.inl ⟨r, List.mem_range.mp (List.mem_of_find?_eq_some h), j, hj, rfl⟩)
  · exact .inr (.inr (.inl ⟨j, hj, rfl⟩))

theorem lrScls_lt (lr : BitVec 2048) : lrScls lr < 8 := Nat.mod_lt _ (by decide)

theorem CountsOnly.chargeRun {pt : Nat} (s : State) (cls n : Nat) (h : cls < 8) : CountsOnly pt s (s.chargeRun pt cls n) := by
  unfold State.chargeRun
  split
  · exact .count _ _ _ (counterReg_slot _ _ _ h (by decide))
  · rename_i o _
    exact (CountsOnly.count _ _ _ (counterReg_slot _ _ _ (Nat.mod_lt o (by decide)) (by decide))).trans
      (.count _ _ _ (counterReg_slot _ _ _ h (by decide)))

theorem CountsOnly.countLanes (s : State) (k : Nat) (t : Team) (r : Run) (g : Guard) (n : Nat) :
    CountsOnly (partOfTeam k) s (s.countLanes k t r g n) := by
  unfold State.countLanes
  simp only
  split
  · exact .rfl' _ _
  · exact (((CountsOnly.count _ _ _ (counterReg_at _ _ _ _ _ (by decide))).trans
      (.count _ _ _ (counterReg_at _ _ _ _ _ (by decide)))).trans
      (.count _ _ _ (counterReg_at _ _ _ _ _ (by decide)))).trans (.count _ _ _ (counterReg_at _ _ _ _ _ (by decide)))

/-- An entry of a table whose values were changed in place. -/
theorem SMap.find_map {α : Type} (m : SMap α) (g : Nat × α → Nat × α) (hg : ∀ x, (g x).1 = x.1) (j : Nat) (v : α)
    (h : SMap.find? (m.map g) j = some v) : ∃ u, m.find? j = some u ∧ v = (g (j, u)).2 := by
  induction m with
  | nil => simp [SMap.find?] at h
  | cons c m ih =>
    obtain ⟨k, u⟩ := c
    have e : g (k, u) = (k, (g (k, u)).2) := Prod.ext (hg _) rfl
    rw [List.map_cons, e] at h
    simp only [SMap.find?] at h ⊢
    split at h
    · rename_i hk
      subst hk
      exact ⟨u, if_pos rfl, (Option.some.inj h).symm⟩
    · rename_i hk
      rw [if_neg hk]
      exact ih h

/-- What the cycles of a partition may touch where no sample falls due: its cycle count, and the waits and timers of its teams. -/
def CyclesOnly (s s' : State) : Prop :=
  s' = { s with teams := s'.teams, parts := s'.parts } ∧
  ∀ j t', s'.teams.find? j = some t' →
    ∃ t, s.teams.find? j = some t ∧ t' = { t with status := t'.status, stv := t'.stv, readyAt := t'.readyAt }

theorem CyclesOnly.settle (s : State) (pt : Nat) : CyclesOnly s (s.settle pt) := by
  refine ⟨rfl, fun j t' h => ?_⟩
  obtain ⟨u, hu, rfl⟩ := SMap.find_map s.teams _ (fun x => by dsimp only; split <;> (try split) <;> rfl) j t' h
  refine ⟨u, hu, ?_⟩
  dsimp only
  split <;> (try split) <;> rfl

/-- Cycles in which no sample falls due. -/
theorem passCycles_eq (s : State) (pt n : Nat) (mark : Nat → Team → Bool) (h : natBit (s.reg (oSmpctl (pt / 8))) 0 = false) :
    s.passCycles pt n mark = { s.setPart pt { s.part pt with pcyc := ((s.part pt).pcyc + n) % 2 ^ 64 } with
      teams := s.teams.map fun x =>
        if x.1 / 16 = pt then
          (x.1, { x.2 with stv := match x.2.status with
            | .waiting w => if w = 16 || w = 17 then 0 else x.2.stv + n
            | .ready => 0
            | _ => x.2.stv })
        else x } := by
  unfold State.passCycles
  refine if_neg ?_
  change ¬ ((natBit (s.reg (oSmpctl (pt / 8))) 0 && _) = true)
  rw [h]
  simp

theorem CyclesOnly.cycles (s : State) (pt n : Nat) (h : s.Unsampled pt) : CyclesOnly s (s.cycles pt n) := by
  have hc := CyclesOnly.settle s pt
  rw [show s.cycles pt n = (s.settle pt).passCycles pt n (s.settle pt).nextMark from rfl,
    passCycles_eq (s.settle pt) pt n _ h]
  refine ⟨rfl, fun j t' ht => ?_⟩
  obtain ⟨u, hu, rfl⟩ := SMap.find_map _ _ (fun x => by dsimp only; split <;> rfl) j t' ht
  obtain ⟨v, hv, e⟩ := hc.2 j u hu
  refine ⟨v, hv, ?_⟩
  dsimp only
  split
  · rw [e]
  · exact e

/-- A lane-set instruction's issue touches nothing but what `IssueFrame` names. -/
theorem laneIssue_frame (s : State) (k : Nat) (t t1 : Team) (r r1 : Run) (g : Guard) (h : s.Unsampled (partOfTeam k)) :
    IssueFrame s ((s.laneIssue k t r g).advance k t1 r1) k := by
  unfold State.laneIssue
  dsimp only
  generalize (r.todo.octets t.nlanes + 3) / 4 = n
  have h1 := CyclesOnly.cycles s (partOfTeam k) n h
  generalize s.cycles (partOfTeam k) n = a at h1
  have h2 : CountsOnly (partOfTeam k) a _ := CountsOnly.chargeRun a (lrScls (s.wgOf t.w).lr) n (lrScls_lt _)
  generalize a.chargeRun (partOfTeam k) (lrScls (s.wgOf t.w).lr) n = b at h2
  have h3 := CountsOnly.countLanes (b.meterPasses (partOfTeam k) (lrScls (s.wgOf t.w).lr) (s.wgOf t.w) n) k t r g n
  generalize (b.meterPasses (partOfTeam k) (lrScls (s.wgOf t.w).lr) (s.wgOf t.w) n).countLanes k t r g n = c at h3
  have ea := h1.1
  have eb := h2.1
  have ec := h3.1
  refine ⟨?_, ?_, ?_⟩
  · rw [ec, eb, ea]; rfl
  · intro j hj t' ht
    refine h1.2 j t' ?_
    have : ((c.advance k t1 r1).teams).find? j = a.teams.find? j := by
      rw [ec, eb]
      exact SMap.find_insert_ne _ _ hj
    rw [← this]; exact ht
  · intro off ho
    have e1 : a.reg off = s.reg off := by rw [ea]; rfl
    rw [← e1, ← h2.2 off ho]
    exact h3.2 off ho

/-- A uniform-set instruction's issue likewise. -/
theorem uniIssue_frame (s : State) (k : Nat) (t t1 : Team) (r1 : Run) (h : s.Unsampled (partOfTeam k)) :
    IssueFrame s ((s.uniIssue k t).advance k t1 r1) k := by
  unfold State.uniIssue
  dsimp only
  have h1 := CyclesOnly.cycles s (partOfTeam k) 1 h
  generalize s.cycles (partOfTeam k) 1 = a at h1
  have h2 : CountsOnly (partOfTeam k) a _ := CountsOnly.chargeRun a (lrScls (s.wgOf t.w).lr) 1 (lrScls_lt _)
  generalize a.chargeRun (partOfTeam k) (lrScls (s.wgOf t.w).lr) 1 = b at h2
  have h3 : CountsOnly (partOfTeam k) b (if natBit (b.reg (oLcrctl (partOfTeam k))) 0 then b else b.count (oLcridle (partOfTeam k)) 32) := by
    split
    · exact .rfl' _ _
    · exact .count _ _ _ (counterReg_idle _)
  generalize (if natBit (b.reg (oLcrctl (partOfTeam k))) 0 then b else b.count (oLcridle (partOfTeam k)) 32) = c at h3
  have h4 := h2.trans h3
  have ea := h1.1
  have ec := h4.1
  refine ⟨?_, ?_, ?_⟩
  · rw [ec, ea]; rfl
  · intro j hj t' ht
    refine h1.2 j t' ?_
    have : ((c.advance k t1 r1).teams).find? j = a.teams.find? j := by
      rw [ec]
      exact SMap.find_insert_ne _ _ hj
    rw [← this]; exact ht
  · intro off ho
    have e1 : a.reg off = s.reg off := by rw [ea]; rfl
    rw [← e1]
    exact h4.2 off ho

/-! ### The lane set -/

theorem withRun_eq {s : State} {k : Nat} {t : Team} {r : Run} (h : s.HasRun k t r) (f : Nat → Team → Run → Res) :
    s.withRun f = f k t r := by
  obtain ⟨rfl, ht, hr⟩ := h
  simp [State.withRun, ht, hr]

theorem laneCalc_eq {s : State} {k : Nat} {t : Team} {r : Run} (h : s.HasRun k t r) (g : Guard)
    (f : Team → Run → (Nat → Bool) → Team × Run) :
    laneCalc s g f = .next ((s.laneIssue k t r g).advance k (f t r (t.acts r g)).1 (f t r (t.acts r g)).2) := by
  rw [laneCalc, laneInstr, withRun_eq h]

theorem advance_team (s : State) (k : Nat) (t : Team) (r : Run) :
    (s.advance k t r).TeamIs k { t with run := some { r with idx := r.idx + 1 }, stv := 0 } := by
  simp [State.advance, State.TeamIs, SMap.find_insert_self]

/-- A lane-set instruction that writes one register, with flags. -/
theorem laneFlagOp_writes {i : Instr} {s : State} {k : Nat} {t : Team} {r : Run} {g : Guard} (h : s.HasRun k t r) (d : BitVec 6)
    (f : Team → Nat → Word × Word) (hi : exec i s = laneFlagOp s g d f) :
    LaneWrites i s k t r g (toReg d.toNat fun l => (f t l).1) (fun l => (f t l).2) := by
  refine ⟨_, hi.trans (laneCalc_eq h g _), ⟨_, _, advance_team _ _ _ _, rfl, rfl, ?_⟩, laneIssue_frame _ _ _ _ _ _ _⟩
  intro l hl
  refine ⟨?_, Run.raise_flags r _ l _ _ hl⟩
  intro n
  change (t.put d.toNat (t.acts r g) fun l => (f t l).1).get n l = _
  rw [Team.get_put _ _ _ _ _ _ hl]
  by_cases ha : t.acts r g l = true <;> by_cases hn : n = d.toNat <;> simp [toReg, ha, hn]

/-- A lane-set instruction that writes one register. -/
theorem laneOp_writes {i : Instr} {s : State} {k : Nat} {t : Team} {r : Run} {g : Guard} (h : s.HasRun k t r) (d : BitVec 6)
    (f : Team → Nat → Word) (hi : exec i s = laneOp s g d f) : LaneWrites i s k t r g (toReg d.toNat (f t)) noFlag := by
  refine ⟨_, hi.trans (laneCalc_eq h g _), ⟨_, _, advance_team _ _ _ _, rfl, rfl, ?_⟩, laneIssue_frame _ _ _ _ _ _ _⟩
  intro l hl
  refine ⟨?_, by simp [noFlag]⟩
  intro n
  change (t.put d.toNat (t.acts r g) (f t)).get n l = _
  rw [Team.get_put _ _ _ _ _ _ hl]
  by_cases ha : t.acts r g l = true <;> by_cases hn : n = d.toNat <;> simp [toReg, ha, hn]

/-- A lane-set instruction that writes a pair. -/
theorem laneOp64_writes {i : Instr} {s : State} {k : Nat} {t : Team} {r : Run} {g : Guard} (h : s.HasRun k t r) (d : BitVec 6)
    (f : Team → Nat → DWord) (hi : exec i s = laneOp64 s g d f) : LaneWrites i s k t r g (toPair d.toNat (f t)) noFlag := by
  refine ⟨_, hi.trans (laneCalc_eq h g _), ⟨_, _, advance_team _ _ _ _, rfl, rfl, ?_⟩, laneIssue_frame _ _ _ _ _ _ _⟩
  intro l hl
  refine ⟨?_, by simp [noFlag]⟩
  intro n
  exact Team.get_put64 t d.toNat n l _ (f t) hl

/-- A lane-set instruction that writes a predicate, with flags. -/
theorem lanePredFlag_writes {i : Instr} {s : State} {k : Nat} {t : Team} {r : Run} {g : Guard} (h : s.HasRun k t r) (m p : BitVec 3)
    (f : Team → Nat → Bool × Word) (hi : exec i s = lanePredFlag s g m p f) :
    LanePredWrites i s k t r g m p (fun l => (f t l).1) (fun l => (f t l).2) := by
  refine ⟨_, hi.trans (laneCalc_eq h g _), ⟨_, _, advance_team _ _ _ _, rfl, rfl, ?_⟩, laneIssue_frame _ _ _ _ _ _ _⟩
  intro l hl hn
  refine ⟨?_, Run.raise_flags r _ l _ _ hl⟩
  intro n
  change (t.putPred p.toNat (t.acts r g) fun l => combine m (t.pred p.toNat l) (f t l).1).pred n l = _
  rw [Team.pred_putPred _ _ _ _ _ _ hl hn]
  by_cases ha : t.acts r g l = true <;> by_cases hq : n = p.toNat <;> simp [ha, hq]

/-- A lane-set instruction that reads the state beside the team, and writes one register. -/
theorem laneState_writes {i : Instr} {s : State} {k : Nat} {t : Team} {r : Run} {g : Guard} (h : s.HasRun k t r) (d : BitVec 6)
    (f : Nat → Word)
    (hi : exec i s = laneInstr s g fun s' _ t r act => (s', t.put d.toNat act f, r)) :
    LaneWrites i s k t r g (toReg d.toNat f) noFlag := by
  refine ⟨_, hi.trans (withRun_eq h _), ⟨_, _, advance_team _ _ _ _, rfl, rfl, ?_⟩, laneIssue_frame _ _ _ _ _ _ _⟩
  intro l hl
  refine ⟨?_, by simp [noFlag]⟩
  intro n
  change (t.put d.toNat (t.acts r g) f).get n l = _
  rw [Team.get_put _ _ _ _ _ _ hl]
  by_cases ha : t.acts r g l = true <;> by_cases hn : n = d.toNat <;> simp [toReg, ha, hn]

/-! ### The uniform set -/

/-- A uniform-set instruction that writes one register, with a value of the team and the state. -/
theorem uniOp_writes {i : Instr} {s : State} {k : Nat} {t : Team} {r : Run} {g : Guard} (h : s.HasRun k t r) (d : BitVec 6) (v : Word)
    (f : State → Nat → Team → Run → Word) (hv : ∀ s', f s' k t r = v)
    (hi : exec i s = uniInstr s g fun s' k t r => (s', t.uput r d (f s' k t r), r)) :
    UniWrites i s k t r g (toUReg d.toNat v) := by
  have e : exec i s = _ := hi.trans (withRun_eq h _)
  by_cases hg : t.guardQ g = true
  · simp only [hg, if_true, hv] at e
    refine ⟨_, e, ⟨_, advance_team _ _ _ _, rfl, ?_⟩, uniIssue_frame _ _ _ _ _⟩
    intro l hl n
    change (t.put d.toNat r.uniWrites fun _ => v).get n l = _
    rw [Team.get_put _ _ _ _ _ _ hl]
    by_cases ha : (r.first || r.todo.getLsbD l) = true <;> by_cases hn : n = d.toNat <;>
      simp_all [toUReg, Run.uniWrites, Mask.has]
  · simp only [hg, Bool.false_eq_true, if_false] at e
    refine ⟨_, e, ⟨_, advance_team _ _ _ _, rfl, ?_⟩, uniIssue_frame _ _ _ _ _⟩
    intro l _ n
    simp [hg, Team.get]

/-- The same for a pair. -/
theorem uniOp64_writes {i : Instr} {s : State} {k : Nat} {t : Team} {r : Run} {g : Guard} (h : s.HasRun k t r) (d : BitVec 6) (v : DWord)
    (f : State → Nat → Team → Run → DWord) (hv : ∀ s', f s' k t r = v)
    (hi : exec i s = uniInstr s g fun s' k t r => (s', t.uput64 r d (f s' k t r), r)) :
    UniWrites i s k t r g (toUPair d.toNat v) := by
  have e : exec i s = _ := hi.trans (withRun_eq h _)
  by_cases hg : t.guardQ g = true
  · simp only [hg, if_true, hv] at e
    refine ⟨_, e, ⟨_, advance_team _ _ _ _, rfl, ?_⟩, uniIssue_frame _ _ _ _ _⟩
    intro l hl n
    change (t.put64 d.toNat r.uniWrites fun _ => v).get n l = _
    rw [Team.get_put64 _ _ _ _ _ _ hl]
    by_cases ha : (r.first || r.todo.getLsbD l) = true <;> simp_all [toUPair, toPair, Run.uniWrites, Mask.has]
  · simp only [hg, Bool.false_eq_true, if_false] at e
    refine ⟨_, e, ⟨_, advance_team _ _ _ _, rfl, ?_⟩, uniIssue_frame _ _ _ _ _⟩
    intro l _ n
    simp [hg, Team.get]

/-! ### How a run ends -/

@[simp] theorem attemptOver_teams (s : State) (k : Nat) : (s.attemptOver k).teams = s.teams := by
  unfold State.attemptOver
  dsimp only
  split
  · rfl
  · split <;> rfl

theorem modTeam_team (s : State) (k : Nat) (t : Team) (f : Team → Team) (h : s.TeamIs k t) : (s.modTeam k f).TeamIs k (f t) := by
  unfold State.TeamIs at h ⊢
  simp [State.modTeam, SMap.find_modify, h]

/-- A run that ends leaves the team ready at its new program counter. -/
theorem endRun_team (s : State) (k : Nat) (t : Team) (pc : DWord) (h : s.TeamIs k t) :
    (s.endRun k pc).TeamIs k (t.ended pc (s.readySince k t)) := by
  have e := modTeam_team s k t (fun t => t.nextRun pc (s.readySince k t)) h
  unfold State.endRun State.TeamIs at *
  rw [attemptOver_teams]
  exact e

/-- A terminal that holds leaves the team waiting. -/
theorem blockRun_team (s : State) (k kind : Nat) (t : Team) (h : s.TeamIs k t) :
    (s.blockRun k kind).TeamIs k { t with status := .waiting kind } := by
  have e := modTeam_team s k t (fun t => { t with status := .waiting kind }) h
  unfold State.blockRun State.TeamIs at *
  rw [attemptOver_teams]
  exact e

theorem side_teams {s s' : State} (h : MemorySide s s') : s'.teams = s.teams := by rw [h.1]

@[simp] theorem queueDump_teams (s : State) (k : Nat) (t : Team) (n : Nat) : (s.queueDump k t n).teams = s.teams := by
  unfold State.queueDump
  dsimp only
  split
  · rfl
  · split
    · split
      · rfl
      · split
        · split
          · rename_i b _
            cases hw : s.writeGpa (s.wgOf t.w).ten _ _ _ with
            | none => rfl
            | some u => exact side_teams (side_writeGpa _ _ _ _ _ _ _ hw)
          · rfl
        · rfl
    · rfl

/-- A team that stops stands at `pc`, in no run. -/
theorem stopTeam_team (s : State) (k : Nat) (t : Team) (pc : DWord) (e : Err) :
    (s.stopTeam k t pc e).TeamIs k { t with pc := pc, status := .stopped, run := none } := by
  unfold State.stopTeam State.TeamIs
  dsimp only
  rw [queueDump_teams, side_teams (side_report _ _ _), attemptOver_teams]
  exact SMap.find_insert_self _ _ _

/-- A team terminal whose run is done takes its effect where its guard holds. -/
theorem teamTerminal_eq {s s1 : State} {k : Nat} {t t1 : Team} {r r1 : Run} (h : s.HasRun k t r) (g : Guard) (defer : Bool)
    (f : State → Nat → Team → Run → State) (hb : s.BodyDone k t r defer s1 t1 r1) (hg : t1.guardQ g = true) :
    teamTerminal s g defer f = .next (f s1 k t1 r1) := by
  obtain ⟨hb, ht, hr⟩ := hb
  have ht' : s1.teams.find? k = some t1 := ht
  rw [teamTerminal, withRun_eq h]
  simp only [hb, State.afterBody, ht', hr, hg, if_true]

/-! ### The Bellows -/

theorem withCtx_eq {s : State} {x : Nat} {c : Ctx} (h : s.HasCtx x c) (f : Nat → Ctx → Res) : s.withCtx f = f x c := by
  obtain ⟨rfl, hc⟩ := h
  simp [State.withCtx, hc]

theorem setCtx_ctx (s : State) (x : Nat) (c : Ctx) : (s.setCtx x c).CtxIs x c := SMap.find_insert_self _ _ _

/-- A computing instruction of the Bellows changes its context alone. -/
theorem bellowsOp_eq {s : State} {x : Nat} {c : Ctx} (h : s.HasCtx x c) (d : BitVec 4) (f : Ctx → DWord) :
    bellowsOp s d f = .next (s.setCtx x (c.set d (f c)).next) := withCtx_eq h _

/-- A branch of the Bellows changes the program counter alone. -/
theorem bellowsBranch_eq {s : State} {x : Nat} {c : Ctx} (h : s.HasCtx x c) (im : BitVec 14) (p : Ctx → Bool) :
    bellowsBranch s im p = .next (s.setCtx x (if p c then { c with pc := c.pc + im.signExtend 64 * 4 } else c.next)) := withCtx_eq h _

end Sys2Proof.Machine
end

