-- ==== Sys2Proof/Tests/Slice0.lean ====
section
/-! SUPPORT. Tests: ill-formed terms, words of the manual, witnesses of the statements' hypotheses, and single steps against the
manual's worked examples. -/

open Sys2Proof Sys2Proof.Machine

namespace Sys2Proof.Tests

set_option Elab.async false

/-! ### Small states -/

/-- A number placed in a launch record. -/
def field (off v : Nat) : BitVec 2048 := BitVec.ofNat 2048 v <<< (8 * off)
/-- A record of one reel of one workgroup of one team of 8 lanes with a scratchpad of one granule behind a shared window at 2^40. -/
def rec0 : BitVec 2048 :=
  field 44 1 ||| field 48 1 ||| field 49 1 ||| field 50 8 ||| field 52 1 ||| field 36 64 ||| field 28 (1 + 128 + 2 ^ 14) ||| field 76 4096 |||
    field 80 (2 ^ 40)
def wg0 : Wg := { Wg.empty with pos := 1, lr := rec0, teamsLeft := 1 }
/-- A run of the words given, with nothing in its trailer. -/
def run0 (ws : List Word) : Run := placedTeam.newRun ws 0xFFFFE000 []
/-- A run whose body is done. -/
def bodyOver (ws : List Word) : Run := { run0 ws with bodyDone := true }
def team0 (r : Run) : Team := { placedTeam with run := some r }
/-- A team on partition 0 of core 0, in its workgroup. -/
def st (t : Team) (g : Wg) : State := { State.reset with teams := [(0, t)], wgs := [(0, g)] }
/-- The same in issue. -/
def busy (t : Team) (g : Wg) : State := { st t g with parts := [(0, { Part.empty with issuing := some 0 })] }
/-- A context. -/
def ctx0 : Ctx := { placedCtx 0 with cur := some { w := 0, wgid := 0, team := 0, ended := false } }
def cst (c : Ctx) : State := { State.reset with ctxs := [(0, c)], wgs := [(0, wg0)] }
/-- The register of a lane after a step. -/
def regOf (o : Host.Outcome State Fault Refusal) (n l : Nat) : Option Word :=
  match o with
  | .next s => (s.teams.find? 0).map fun t => t.get n l
  | _ => none
/-- A team whose registers 1, 2, 4 and 5 hold the words given in every lane. -/
def withRegs (t : Team) (vs : List (Nat × Word)) : Team := { t with v := vs.map fun x => (x.1, List.replicate 8 x.2) }

/-! ### Witnesses: states and operands that meet the hypotheses of the statements -/

/-- For the statements about one instruction of a run (`HasRun` alone). -/
theorem witness_hasRun : (st (team0 (run0 [0x02182100])) wg0).HasRun 0 (team0 (run0 [0x02182100])) (run0 [0x02182100]) := ⟨rfl, rfl, rfl⟩
theorem witness_IaddResults : ∃ s k t r, State.HasRun s k t r := ⟨_, _, _, _, witness_hasRun⟩
theorem witness_ImulResults : ∃ s k t r, State.HasRun s k t r := ⟨_, _, _, _, witness_hasRun⟩
theorem witness_MinMaxAndDivision : ∃ s k t r, State.HasRun s k t r := ⟨_, _, _, _, witness_hasRun⟩
theorem witness_LogicAndImmediates : ∃ s k t r, State.HasRun s k t r := ⟨_, _, _, _, witness_hasRun⟩
theorem witness_ShiftResults : ∃ s k t r, State.HasRun s k t r := ⟨_, _, _, _, witness_hasRun⟩
theorem witness_BitResults : ∃ s k t r, State.HasRun s k t r := ⟨_, _, _, _, witness_hasRun⟩
theorem witness_PredicateResults : ∃ s k t r, State.HasRun s k t r := ⟨_, _, _, _, witness_hasRun⟩
theorem witness_SelectAndPairs : ∃ s k t r, State.HasRun s k t r := ⟨_, _, _, _, witness_hasRun⟩
theorem witness_WindowsAndSpecials : (∃ s k t r, State.HasRun s k t r) ∧ (0x0B ∈ [0x0B, 0x0C, 0x13]) ∧ (0x0A ∉ [0x0B, 0x0C, 0x13]) :=
  ⟨⟨_, _, _, _, witness_hasRun⟩, by decide +kernel, by decide +kernel⟩
theorem witness_CrossLaneResults : ∃ s k t r, State.HasRun s k t r := ⟨_, _, _, _, witness_hasRun⟩
theorem witness_TransposeResults : ∃ s k t r, State.HasRun s k t r := ⟨_, _, _, _, witness_hasRun⟩
theorem witness_FloatArithmetic : ∃ s k t r, State.HasRun s k t r := ⟨_, _, _, _, witness_hasRun⟩
theorem witness_FloatMiscAndCompares : ∃ s k t r, State.HasRun s k t r := ⟨_, _, _, _, witness_hasRun⟩
theorem witness_PackedArithmetic : ∃ s k t r, State.HasRun s k t r := ⟨_, _, _, _, witness_hasRun⟩
theorem witness_ConversionResults : ∃ s k t r, State.HasRun s k t r := ⟨_, _, _, _, witness_hasRun⟩
theorem witness_SpecialAndComplex : ∃ s k t r, State.HasRun s k t r := ⟨_, _, _, _, witness_hasRun⟩
theorem witness_QuantiserResults : ∃ s k t r, State.HasRun s k t r := ⟨_, _, _, _, witness_hasRun⟩

/-- Lane 0 alone acts in these states; registers read 0, so the shared window is reached through a pair that holds 2^40. -/
def lone : Team := { team0 (run0 [0x40311F43]) with v := [(11, List.replicate 8 0x100)] }
theorem witness_onlyLane : OnlyLane lone (run0 [0x40311F43]) Guard.always 0 ∧ OnlyLane lone (run0 [0x40311F43]) ⟨0, false⟩ 0 :=
  ⟨⟨by decide +kernel, by decide +kernel⟩, ⟨by decide +kernel, by decide +kernel⟩⟩
/-- The address passes at the window's last word, and is turned away where it is misaligned. -/
theorem witness_LoadResults : (st lone wg0).HasRun 0 lone (run0 [0x40311F43]) ∧
    ((((st lone wg0).laneIssue 0 lone (run0 [0x40311F43]) Guard.always).check 0 lone (run0 [0x40311F43]) 0 (2 ^ 40 + 4092) 4 .load).2 =
      .at' (.scr 0 4092) 0) ∧
    ((((st lone wg0).laneIssue 0 lone (run0 [0x40311F43]) Guard.always).check 0 lone (run0 [0x40311F43]) 0 (2 ^ 40 + 2) 4 .load).2 =
      .cause 6) ∧ (run0 [0x40311F43]).pends = none := ⟨⟨rfl, rfl, rfl⟩, by decide +kernel, by decide +kernel, by decide +kernel⟩
/-- A tile of 64 bytes, its own and another workgroup's. -/
def tiled (o : Nat) : State := { st lone { wg0 with scr := [(0, 4), (1, 0x7F)] } with tiles := [(0, { Tile.empty with owner := o, st := 2, size := 64 })] }
theorem witness_TileLoadResults : (tiled 1).HasRun 0 lone (run0 [0x40311F43]) ∧
    (tiled 1).tileRead 0 lone (run0 [0x40311F43]) 0 0 60 4 = .at' (.scr 0 60) 0 ∧
    (tiled 1).tileRead 0 lone (run0 [0x40311F43]) 0 0 0 64 = .at' (.scr 0 0) 0 ∧
    sdbPoison ((tiled 1).laneBytes lone (run0 [0x40311F43]) 0 (.scr 0 0) 64) = false ∧
    (tiled 1).tileRead 0 lone (run0 [0x40311F43]) 0 0 64 4 = .cause 4 ∧
    (tiled 2).tileRead 0 lone (run0 [0x40311F43]) 0 0 0 4 = .cause 4 :=
  ⟨⟨rfl, rfl, rfl⟩, by decide +kernel, by decide +kernel, by decide +kernel, by decide +kernel, by decide +kernel⟩
theorem witness_StoreRecords : (tiled 1).HasRun 0 lone (run0 [0x40311F43]) ∧
    (((tiled 1).laneIssue 0 lone (run0 [0x40311F43]) ⟨0, false⟩).check 0 lone (run0 [0x40311F43]) 0 (2 ^ 40) 16 .store).2 = .at' (.scr 0 0) 0 ∧
    (((tiled 1).laneIssue 0 lone (run0 [0x40311F43]) ⟨0, false⟩).check 0 lone (run0 [0x40311F43]) 0 (2 ^ 48) 16 .store).2 = .cause 4 ∧
    ((tiled 1).laneIssue 0 lone (run0 [0x40311F43]) ⟨0, false⟩).tileReach 0 lone 0 48 16 = .at' (.scr 0 48) 0 ∧
    ((tiled 1).laneIssue 0 lone (run0 [0x40311F43]) ⟨0, false⟩).tileReach 0 lone 0 52 16 = .cause 6 :=
  ⟨⟨rfl, rfl, rfl⟩, by decide +kernel, by decide +kernel, by decide +kernel, by decide +kernel⟩
/-- Lane 0 heads its group of every format; its block passes in the first window of the launch and is turned away beyond every one. -/
theorem witness_BlockStoreRecords : (tiled 1).HasRun 0 lone (run0 [0x40311F43]) ∧ OnlyLane lone (run0 [0x40311F43]) ⟨0, false⟩ 0 ∧
    (run0 [0x40311F43]).first = true ∧ (run0 [0x40311F43]).sdb = [] ∧ (∀ f < 16, 0 % (sdbLayout f).2.2 = 0) ∧
    (((tiled 1).laneIssue 0 lone (run0 [0x40311F43]) ⟨0, false⟩).check 0 lone (run0 [0x40311F43]) 0 (2 ^ 40 + 4032) 64 .store).2 =
      .at' (.scr 0 4032) 0 ∧
    (((tiled 1).laneIssue 0 lone (run0 [0x40311F43]) ⟨0, false⟩).check 0 lone (run0 [0x40311F43]) 0 (2 ^ 40 + 4064) 64 .store).2 = .cause 6 :=
  ⟨⟨rfl, rfl, rfl⟩, witness_onlyLane.2, by decide +kernel, rfl, by decide +kernel, by decide +kernel, by decide +kernel⟩
theorem witness_plain : (run0 [0x40311F43]).Plain ∧ (run0 [0x40311F43]).todo = laneMask 0 ∧ (run0 [0x40311F43]).entry = laneMask 0 ∧
    lone.sbuf = [] ∧ lone.pend.length ≤ 8 := by
  refine ⟨⟨rfl, rfl, rfl, rfl, rfl, rfl, rfl, rfl, rfl, by decide +kernel, by decide +kernel⟩, by decide +kernel, by decide +kernel, rfl, by decide +kernel⟩
theorem witness_AtomicResults : (st lone wg0).HasRun 0 lone (run0 [0x40311F43]) ∧
    (((st lone wg0).laneIssue 0 lone (run0 [0x40311F43]) Guard.always).check 0 lone (run0 [0x40311F43]) 0 (2 ^ 40 + 56) 8 .atomic).2 =
      .at' (.scr 0 56) 0 ∧ ((st lone wg0).wgs.find? 0).isSome ∧ 56 / 64 = (56 + 8 - 1) / 64 ∧
    ((st lone wg0).wgOf 0).pscr.has (56 / 64) = false ∧ 54 + 8 / 4 ≤ 56 := ⟨⟨rfl, rfl, rfl⟩, by decide +kernel, by decide +kernel, by decide +kernel, by decide +kernel, by decide +kernel⟩
theorem witness_CallResults : (st lone wg0).HasRun 0 lone (run0 [0x40311F43]) ∧ natBit ((st lone wg0).reg (oSmpctl (partOfTeam 0 / 8))) 0 = false ∧
    (((st lone wg0).laneIssue 0 lone (run0 [0x40311F43]) Guard.always).check 0 lone (run0 [0x40311F43]) 0 (2 ^ 40) 64 .load).2 =
      .at' (.scr 0 0) 0 ∧ ((st lone wg0).wgOf 0).ten < 16 ∧ ringBase ((st lone wg0).reg (oSqbase 0)) = 0 ∧ lone.peerOut = [] ∧ (st lone wg0).biWait = [] ∧
    (st lone wg0).hostCached = [] ∧ (st lone wg0).ringNext.find? (16 + 0) = none ∧
    ringBase (((st lone wg0).setReg (oSqbase 0) 0x10001).reg (oSqbase 0)) ≠ 0 :=
  ⟨⟨rfl, rfl, rfl⟩, by decide +kernel, by decide +kernel, by decide +kernel, by decide +kernel, rfl, rfl, rfl, by decide +kernel, by decide +kernel⟩

theorem witness_UniformArithmetic : (∃ s k t r, State.HasRun s k t r) ∧ (run0 [0x881FFFFB]).wroteReg 3 = false ∧
    ({ run0 [0x881FFFFB, 0x8A1FFFFB] with idx := 1 } : Run).wroteReg 3 = true := ⟨⟨_, _, _, _, witness_hasRun⟩, by decide +kernel, by decide +kernel⟩
theorem witness_UniformCompares : ∃ s k t r, State.HasRun s k t r := ⟨_, _, _, _, witness_hasRun⟩
theorem witness_UniformReads : (∃ s k t r, State.HasRun s k t r) ∧ (0x13 ∈ [0x0B, 0x0C, 0x13]) ∧ (0x12 ∉ [0x0B, 0x0C, 0x13]) :=
  ⟨⟨_, _, _, _, witness_hasRun⟩, by decide +kernel, by decide +kernel⟩
/-- An allocation that a give of 6 units leaves at 8 registers and a give of 7 would not; a team in the handler and one outside. -/
theorem witness_DeferredEffects : (st (team0 (run0 [0x98000050])) wg0).HasRun 0 (team0 (run0 [0x98000050])) (run0 [0x98000050]) ∧
    8 * ((run0 [0x98000050]).given + 6) + 8 ≤ (team0 (run0 [0x98000050])).alloc ∧
    (team0 (run0 [0x98000050])).alloc < 8 * ((run0 [0x98000050]).given + 7) + 8 ∧
    ((team0 (run0 [0x98000050])).guardQ ⟨0, false⟩ && (run0 [0x98000050]).first) = true ∧
    (∃ h, (placedRun 0xB6402000).handler = some h) ∧ (team0 (run0 [0x98000050])).handler = none :=
  ⟨⟨rfl, rfl, rfl⟩, by decide +kernel, by decide +kernel, by decide +kernel, ⟨_, rfl⟩, rfl⟩
def mark0 : Held := { pc := 0, op := .mark, imm := 0, ops := [0], reg := 0, count := 0, idx := 0, inH := false }
theorem witness_OnceEffects : (st (team0 (run0 [0xB8014010])) wg0).HasRun 0 (team0 (run0 [0xB8014010])) (run0 [0xB8014010]) ∧
    (team0 (run0 [0xB8014010])).guardQ ⟨0, false⟩ = true ∧ (run0 [0xB8014010]).first = true ∧ (team0 (run0 [0xB8014010])).held = [] ∧
    (((st (team0 (run0 [0xB8014010])) wg0).uniIssue 0 (team0 (run0 [0xB8014010]))).onceDo 0 (team0 (run0 [0xB8014010])) mark0).isSome ∧
    ({ team0 (run0 [0xB8014010]) with held := [mark0] } : Team).held ≠ [] ∧ (placedRun 0xB6400000).handler.isSome = true :=
  ⟨⟨rfl, rfl, rfl⟩, by decide +kernel, by decide +kernel, rfl, by decide +kernel, by decide +kernel, by decide +kernel⟩

/-- A team whose run's body is done stands as it is when its terminal takes effect. -/
theorem over_done (t : Team) (g : Wg) (ws : List Word) (h : t.run = some (bodyOver ws)) (d : Bool) :
    (st t g).HasRun 0 t (bodyOver ws) ∧ (st t g).BodyDone 0 t (bodyOver ws) d (st t g) t (bodyOver ws) := by
  refine ⟨⟨rfl, rfl, h⟩, ?_, rfl, h⟩
  cases t; cases h; rfl
/-- A team at a terminal. -/
def tail : Team := team0 (bodyOver [0x98000030])
theorem witness_bodyDone (d : Bool) : (st tail wg0).HasRun 0 tail (bodyOver [0x98000030]) ∧
    (st tail wg0).BodyDone 0 tail (bodyOver [0x98000030]) d (st tail wg0) tail (bodyOver [0x98000030]) := over_done _ _ _ rfl d
theorem witness_RunBodyEnds : (st (team0 (run0 [0x02182100])) wg0).HasRun 0 (team0 (run0 [0x02182100])) (run0 [0x02182100]) ∧
    (run0 [0x02182100]).bodyDone = false ∧ (run0 [0x02182100]).left = 0 ∧ (run0 [0x02182100]).done = [] ∧ (run0 [0x02182100]).termLeft = none ∧
    bits (run0 [0x02182100]).trailer 19 6 = 63 ∧ bits (run0 [0x02182100]).trailer 13 6 = 63 ∧
    (team0 (run0 [0x02182100])).pend.length ≤ 8 ∧ (run0 [0x02182100]).uwrs = [] ∧ (run0 [0x02182100]).stores = [] ∧ (run0 [0x02182100]).sdb = [] ∧
    (st (team0 (run0 [0x02182100])) wg0).inStack (.scr 0 0) = false :=
  ⟨⟨rfl, rfl, rfl⟩, by decide +kernel, by decide +kernel, rfl, rfl, by decide +kernel, by decide +kernel, by decide +kernel, rfl, rfl, rfl, by decide +kernel⟩
def e0 (loop : Bool) (w : Mask) (a : DWord) : StackEntry := { loop := loop, mask := 3, wait := w, start := a }
/-- Guards true and false, the return stack at its depths 0, 15 and 16. -/
theorem witness_BranchTerminals : tail.guardQ ⟨0, false⟩ = true ∧ tail.guardQ ⟨1, false⟩ = false ∧ tail.rstack = [] ∧
    (∀ d, (st { tail with rstack := List.replicate 15 0 } wg0).BodyDone 0 { tail with rstack := List.replicate 15 0 }
      (bodyOver [0x98000030]) d (st { tail with rstack := List.replicate 15 0 } wg0) { tail with rstack := List.replicate 15 0 } (bodyOver [0x98000030])) ∧
    (∀ d, (st { tail with rstack := List.replicate 16 0 } wg0).BodyDone 0 { tail with rstack := List.replicate 16 0 }
      (bodyOver [0x98000030]) d (st { tail with rstack := List.replicate 16 0 } wg0) { tail with rstack := List.replicate 16 0 } (bodyOver [0x98000030])) :=
  ⟨by decide +kernel, by decide +kernel, rfl, fun d => (over_done _ _ _ rfl d).2, fun d => (over_done _ _ _ rfl d).2⟩
def deep (st' : List StackEntry) : Team := { tail with mstack := st' }
theorem deep_done (m : List StackEntry) : (st (deep m) wg0).HasRun 0 (deep m) (bodyOver [0x98000030]) ∧
    (st (deep m) wg0).BodyDone 0 (deep m) (bodyOver [0x98000030]) false (st (deep m) wg0) (deep m) (bodyOver [0x98000030]) :=
  over_done _ _ _ rfl false
/-- Lane 0 is in E and P holds there (unguarded) or not (p1 reads false); the stack at depths 0, 31 and 32, with each kind of entry, a
waiting set that is empty or not, and a loop that starts at the next run or elsewhere. -/
theorem witness_DivergenceTerminals :
    (∀ l < 1024, (1 : Mask).getLsbD l = (decide (l < tail.nlanes) && (bodyOver [0x98000030]).entry.getLsbD l && ((0 : BitVec 3) == 0 || tail.pred 0 l != false))) ∧
    (∀ l < 1024, (0 : Mask).getLsbD l = (decide (l < tail.nlanes) && (bodyOver [0x98000030]).entry.getLsbD l && ((1 : BitVec 3) == 0 || tail.pred 1 l != false))) ∧
    (1 : Mask) = (bodyOver [0x98000030]).entry ∧ (deep []).mstack = [] ∧ (deep (List.replicate 31 (e0 true 0 0))).mstack.length < 32 ∧
    32 ≤ (deep (List.replicate 32 (e0 true 0 0))).mstack.length ∧ (e0 false 1 0).wait ≠ 0 ∧ (e0 false 0 0).wait = 0 ∧
    (e0 true 0 (bodyOver [0x98000030]).nextPc).start = (bodyOver [0x98000030]).nextPc ∧ (e0 true 0 0).start ≠ (bodyOver [0x98000030]).nextPc := by
  refine ⟨?_, ?_, by decide +kernel, rfl, by decide +kernel, by decide +kernel, by decide +kernel, by decide +kernel, rfl, by decide +kernel⟩ <;> decide +kernel
def two (b : TStatus) : State :=
  { st tail wg0 with teams := [(0, tail), (1, { tail with status := b, run := some (bodyOver [0xA6000000]) })] }
/-- The other team has not arrived, or has; the mask stack is empty or not; held effects or none. -/
theorem witness_BarriersAndExit : (∀ b, (two b).HasRun 0 tail (bodyOver [0x98000030]) ∧
      (two b).BodyDone 0 tail (bodyOver [0x98000030]) false (two b) tail (bodyOver [0x98000030])) ∧
    ((two .ready).drainAll 0).TeamIs 0 tail ∧ ((two .ready).drainAll 0).teams.rising = true ∧ (((two .ready).drainAll 0).wgs.find? 0).isSome ∧
    (∃ x ∈ ((two .ready).drainAll 0).teams, x.1 ≠ 0 ∧ x.2.w = 0 ∧ x.2.status ≠ .waiting 4) ∧
    (∀ x ∈ ((two (.waiting 4)).drainAll 0).teams, x.1 ≠ 0 → x.2.w = 0 → x.2.status = .waiting 4) ∧
    (∀ x ∈ ((two (.waiting 5)).drainAll 0).teams, x.1 ≠ 0 → x.2.status = .waiting 5) ∧ (0 ∈ ((two .ready).drainAll 0).reelOf 0) ∧
    (deep [e0 true 0 0]).mstack ≠ [] ∧ ({ tail with held := [mark0] } : Team).held ≠ [] ∧ tail.mstack = [] ∧ tail.held = [] ∧
    ((st tail wg0).wgOf 0).claims = [] := by
  refine ⟨fun b => ⟨⟨rfl, rfl, rfl⟩, rfl, rfl, rfl⟩, rfl, by decide +kernel, by decide +kernel, ?_, ?_, ?_, by decide +kernel, by decide +kernel, by decide +kernel, rfl, rfl, rfl⟩
  all_goals decide +kernel
/-- BACKOFF's lanes all true or not; a claim of 0 units, of as many as the allocation admits and beyond; tokens, chains and queues reached or not. -/
theorem witness_WaitTerminals : tail.guardQ ⟨0, false⟩ = true ∧
    (maskOf tail.nlanes (fun j => (bodyOver [0x98000030]).entry.getLsbD j && ((BitVec.setWidth 3 (8 : BitVec 6) == (0 : BitVec 3)) || tail.pred 0 j)) ==
      (bodyOver [0x98000030]).entry) = true ∧
    (maskOf tail.nlanes (fun j => (bodyOver [0x98000030]).entry.getLsbD j && ((BitVec.setWidth 3 (1 : BitVec 6) == (0 : BitVec 3)) || tail.pred 1 j)) ==
      (bodyOver [0x98000030]).entry) = false ∧
    56 < tail.alloc + 8 * 1 ∧ ({ tail with alloc := 8 } : Team).alloc + 8 * 6 ≤ 56 ∧ 8 ≤ tail.nlanes ∧
    ((st tail wg0).wgOf 0).claims = [] ∧ ((st tail wg0).wgOf 0).account < 1 * (tail.nlanes / 8) ∧ 0 * (tail.nlanes / 8) ≤ ((st tail wg0).wgOf 0).account ∧
    (∃ c cs, ({ wg0 with claims := [(1, 3)] } : Wg).claims = c :: cs ∧ ({ wg0 with claims := [(1, 3)] } : Wg).account < c.2) ∧
    (∃ j < 8, (128 : Nat) / 2 ^ j % 2 = 1 ∧ ({ wg0 with tokens := [(7, 1)] } : Wg).tokens.getD j 0 ≠ 0) ∧
    (∀ j < 8, (128 : Nat) / 2 ^ j % 2 = 1 → wg0.tokens.getD j 0 = 0) ∧
    (st tail wg0).chainSeq 0 0 < 1 ∧ 0 ≤ (st tail wg0).chainSeq 0 0 ∧ (0 : Nat) = wg0.q ∧ wg0.pos ≤ 1 ∧ 0 < wg0.pos ∧ (st tail wg0).lqSeen 0 < 1 := by
  refine ⟨by decide +kernel, by decide +kernel, by decide +kernel, by decide +kernel, by decide +kernel, by decide +kernel, by decide +kernel, by decide +kernel, by decide +kernel,
    ⟨_, _, rfl, by decide +kernel⟩, by decide +kernel, by decide +kernel, by decide +kernel, by decide +kernel, by decide +kernel, by decide +kernel, by decide +kernel, by decide +kernel⟩
/-- Addresses of every window, aligned or not, a word that is poisoned or good, a launch with or without WHOLE. -/
theorem witness_ValueWaits : (bodyOver [0xA610C170]).met = false ∧ ({ bodyOver [0xA610C170] with met := true } : Run).met = true ∧
    spaceOf (rec0 ||| field 72 64) 0 = 1 ∧ spaceOf rec0 (2 ^ 48) = 4 ∧ spaceOf rec0 0 = 0 ∧ lrWhole rec0 = false ∧
    lrWhole (rec0 ||| field 32 1) = true ∧ spaceOf rec0 (2 ^ 40 + 4092) = 2 ∧ (2 ^ 40 + 4092) % 4 = 0 ∧ (2 ^ 40 + 4094) % 4 ≠ 0 ∧
    ({ wg0 with pscr := [(63, ())] } : Wg).pscr.has ((2 ^ 40 + 4092 - 2 ^ 40) / 64) = true ∧ wg0.pscr.has 63 = false ∧
    (∃ s2 c, (st tail wg0).reachGlobal (rcvOfCore 0) 0 0 .load = (s2, .cause c)) := by
  refine ⟨rfl, rfl, ?_, ?_, ?_, ?_, ?_, ?_, ?_, ?_, ?_, ?_, ⟨_, _, rfl⟩⟩ <;> decide +kernel
theorem witness_MatrixWaitAndFence : (∀ x ∈ [(1, 0), (3, 2)], ((x.1 + 2 ^ 32 - x.2) % 2 ^ 32 ≠ 0 ∧ (x.1 + 2 ^ 32 - x.2) % 2 ^ 32 < 2 ^ 31)) ∧
    ((2 + 2 ^ 32 - 2) % 2 ^ 32 = 0) ∧ 2 ^ 31 ≤ (1 + 2 ^ 32 - 2) % 2 ^ 32 ∧ (run0 [0xA202B040]).bodyDone = false ∧ (run0 [0xA202B040]).acting ≠ 0 ∧
    (run0 [0xA202B040]).done = [] ∧ (run0 [0xA202B040]).termLeft = none ∧
    ((1 : BitVec 2) != 0 && (1 : BitVec 6).getLsbD 0 && decide (2 ≤ (6 : BitVec 3).toNat)) = true ∧
    ({ tail with peerOut := [7] } : Team).peerOut.any (128 : BitVec 8).getLsbD = true ∧ tail.peerOut.any (255 : BitVec 8).getLsbD = false ∧
    ((st tail wg0).bodyEnd 0 tail (bodyOver [0x98000030]) false noTerm (fun s => (s, false))).2 = true ∧
    encode (.fence 1 2 3 1) = some ((bodyOver [0xA202B040]).words.getLastD 0) := by
  refine ⟨?_, ?_, ?_, ?_, ?_, ?_, rfl, ?_, ?_, ?_, ?_, ?_⟩ <;> decide +kernel
def meet (q : List Rdv) : State :=
  { st tail { wg0 with rdv := [(15, q)] } with teams := [(0, tail), (1, { tail with run := some (bodyOver [0x3A007838]) })] }
/-- A slot with no partner, with one of the same width, and with one of the other. -/
theorem witness_RendezvousResults : (∀ q, (meet q).HasRun 0 tail (bodyOver [0x98000030]) ∧
      (meet q).bodyEnd 0 tail (bodyOver [0x98000030]) false noTerm noAtt = (meet q, true)) ∧
    (∀ c ∈ ((meet []).wgOf 0).claims ++ ((meet []).wgOf 0).claims, c.1 ≠ 0 ∧ c.1 ≠ 1) ∧
    (∀ x ∈ ((meet []).wgOf 0).rdv.getD 15 [], x.send = true) ∧
    (∀ x ∈ ((meet [{ k := 1, send := true, wide := false, reg := 3 }]).wgOf 0).rdv.getD 15 [], x.send = true) ∧
    (((meet [{ k := 1, send := false, wide := false, reg := 3 }]).wgOf 0).rdv.getD 15 []).find? (fun x => x.send != true) =
      some { k := 1, send := false, wide := false, reg := 3 } ∧
    (((meet [{ k := 1, send := false, wide := true, reg := 4 }]).wgOf 0).rdv.getD 15 []).find? (fun x => x.send != true) =
      some { k := 1, send := false, wide := true, reg := 4 } := by
  refine ⟨fun q => ⟨⟨rfl, rfl, rfl⟩, rfl⟩, ?_, ?_, ?_, ?_, ?_⟩ <;> decide +kernel
def served (d : Nat) : Team :=
  { tail with handler := some { v48 := [(48, []), (55, [])], p := [], q := 0, flags := 0, depth := d, faulted := 1, run := run0 [0x02182100], temps := [(56, []), (63, [])], pre := [] } }
theorem witness_HandlerReturn : (∀ d, (st (served d) wg0).BodyDone 0 (served d) (bodyOver [0x98000030]) false (st (served d) wg0) (served d) (bodyOver [0x98000030])) ∧
    (served 0).guardQ ⟨0, false⟩ = true ∧ (∃ h, (served 0).handler = some h ∧ (served 0).mstack.length = h.depth) ∧
    (∃ h, (served 1).handler = some h ∧ (served 1).mstack.length ≠ h.depth) ∧ bits (bodyOver [0x98000030]).trailer 19 6 = 63 ∧
    bits (bodyOver [0x98000030]).trailer 13 6 = 63 ∧ (served 0).pend.length ≤ 8 :=
  ⟨fun d => (over_done _ _ _ rfl false).2, by decide +kernel, ⟨_, rfl, rfl⟩, ⟨_, rfl, by decide +kernel⟩, by decide +kernel, by decide +kernel, by decide +kernel⟩
def faulted : Run := { run0 [0x40311F43] with idx := 1, aborted := 1, faults := [(0, { cause := 1, ea := 0, kind := 0, ia := 0 })] }
theorem witness_HandlerEntry : (busy (team0 faulted) wg0).TeamIs 0 (team0 faulted) ∧ (team0 faulted).run = some faulted ∧
    ((busy (team0 faulted) wg0).part (partOfTeam 0)).issuing = some 0 ∧ faulted.words.length ≤ faulted.idx ∧ faulted.bodyDone = false ∧
    faulted.left ≠ 0 ∧ (team0 faulted).handler = none ∧ lrHandler (rec0 ||| field 8 64) ≠ 0 ∧ lrHandler wg0.lr = 0 := by
  refine ⟨rfl, rfl, rfl, ?_, ?_, ?_, rfl, ?_, ?_⟩ <;> decide +kernel
theorem witness_StopRecords : (st tail wg0).records.length < 4096 ∧ ringBase ((st tail wg0).reg (oEvbase wg0.ten)) = 0 ∧
    natBit ((st tail wg0).reg (oDumpbase wg0.ten)) 0 = false ∧ wg0.ten < 16 ∧ tail.guardQ ⟨0, false⟩ = true ∧
    16 ≤ ({ tail with rstack := List.replicate 16 0 } : Team).rstack.length ∧ tail.rstack = [] ∧ 32 ≤ (deep (List.replicate 32 (e0 true 0 0))).mstack.length ∧
    tail.mstack = [] ∧ (deep [e0 true 0 0]).mstack ≠ [] ∧ 56 < tail.alloc + 8 * 1 ∧ tail.handler = none := by
  refine ⟨?_, ?_, ?_, ?_, ?_, ?_, rfl, ?_, rfl, ?_, ?_, rfl⟩ <;> decide +kernel
def full : Store := { lane := 0, va := 0, at' := .scr 0 64, bytes := List.replicate 64 1, col := 0, ktag := 0, group := none, ix := 0 }
theorem witness_StoresBecomeVisible : 0 < full.bytes.length ∧ 64 / 64 = (64 + full.bytes.length - 1) / 64 ∧ full.at' = .scr 0 64 ∧
    ((st tail wg0).wgs.find? 0).isSome ∧ ((st tail wg0).wgOf 0).pscr.has 1 = false ∧
    ((st tail { wg0 with pscr := [(1, ())] }).wgOf 0).pscr.has 1 = true ∧ (st tail wg0).images = [] ∧ (st tail wg0).forwards = [] ∧
    (st tail wg0).migs = [] ∧ (st tail wg0).hostCached = [] ∧ (st tail wg0).poison.has 1 = false ∧ (st tail wg0).lineKey.getD 1 0 = full.ktag ∧
    (st tail wg0).TeamIs 0 tail := by
  refine ⟨?_, ?_, rfl, ?_, ?_, ?_, rfl, rfl, rfl, rfl, ?_, ?_, rfl⟩ <;> decide +kernel

theorem witness_BellowsScalarResults : (cst ctx0).HasCtx 0 ctx0 := ⟨rfl, rfl⟩
def post0 : PostRec := { who := { w := 0, wgid := 0, team := 0, ended := false }, x := 1, y := 2, token := some 7 }
theorem witness_BellowsPosts : (cst ctx0).HasCtx 0 ctx0 ∧ ctx0.posts = [] ∧ ({ ctx0 with posts := [post0] } : Ctx).posts = [post0] ∧
    (cst { ctx0 with arming := some 7 }).HasCtx 0 { ctx0 with arming := some 7 } ∧ ((cst ctx0).wgs.find? 0).isSome ∧ (15 : BitVec 4) ≠ 0 :=
  ⟨⟨rfl, rfl⟩, rfl, rfl, ⟨rfl, rfl⟩, by decide +kernel, by decide +kernel⟩
/-- Private addresses at the last eight bytes, beyond them and misaligned; a window reached, a window that is not there, and an address that
faults; with and without a current workgroup; back from the Stoker or not. -/
theorem witness_BellowsLoadsAndStores : (cst ctx0).HasCtx 0 ctx0 ∧ 0x3FF8 % 8 = 0 ∧ 0x3FF8 < 0x4000 ∧ 0x3FFC % 8 ≠ 0 ∧ ctx0.wg? = some 0 ∧
    ({ ctx0 with cur := none } : Ctx).wg? = none ∧ ({ ctx0 with stoker := 2 } : Ctx).stoker = 2 ∧ ctx0.stoker ≠ 2 ∧
    spaceOf (rec0 ||| field 72 64) 8 = 1 ∧ ((cst ctx0).engReach 0 (2 ^ 40) .load).2 = .at' (.scr 0 0) 0 ∧
    (cst ctx0).placeBad (.scr 0 0) 0 = false ∧ ((cst ctx0).engReach 0 (2 ^ 40 + 64) .store).2 = .at' (.scr 0 64) 0 ∧
    (match (cst ctx0).engReach 0 64 .load with | (_, .cause c) => c != 4 | _ => false) = true := by
  refine ⟨⟨rfl, rfl⟩, ?_, ?_, ?_, ?_, ?_, ?_, ?_, ?_, ?_, ?_, ?_, ?_⟩ <;> decide +kernel
def copy0 : Copy :=
  { op := .copy, w := 0, token := 7, to' := 0x10000000040, frm := 0x10000000000,
    desc := natLE 4 32 ++ natLE 2 1 ++ natLE 2 1 ++ List.replicate 24 0, table := none, off := 0, cause := 0, st := 1, erred := false }
/-- A copy that passes every check, with its extent inside the window, and ones that fail each; a slot free, or none; a token at 254 and 255. -/
theorem witness_CopyIssue : (cst ctx0).HasCtx 0 ctx0 ∧ ctx0.wg? = some 0 ∧ copy0.ctlOk = true ∧ copy0.descOk = true ∧ (cst ctx0).extentOk 0 0 copy0 = true ∧
    ({ copy0 with op := .copyt, to' := 256 } : Copy).ctlOk = false ∧ (cst ctx0).extentOk 0 0 { copy0 with to' := 0x10000000FF0 } = false ∧
    (∀ j < 8, ctx0.slots.has j = false) ∧ (∀ j < 8, ({ ctx0 with slots := (List.range 8).map fun i => (i, copy0) } : Ctx).slots.has j = true) ∧
    (cst ctx0).tileFree 0 copy0 = true ∧ ((cst ctx0).wgOf 0).tokens.getD 7 0 < 255 ∧
    255 ≤ (({ wg0 with tokens := [(7, 255)] } : Wg).tokens.getD 7 0) ∧ ((cst ctx0).wgs.find? 0).isSome ∧ ctx0.table = none := by
  refine ⟨⟨rfl, rfl⟩, ?_, ?_, ?_, ?_, ?_, ?_, ?_, ?_, ?_, ?_, ?_, ?_, rfl⟩ <;> decide +kernel
theorem witness_CopyIssue_resume : ∃ c : Ctx, (cst c).HasCtx 0 c ∧ c.halted = false ∧ c.fault = 0 ∧ c.stoker = 0 ∧
    c.word.extractLsb' 13 19 = 0x21#6 ++ 1#4 ++ 2#4 ++ 7#4 ++ 1#1 ∧ c.word.extractLsb' 0 9 = 0x1FF#9 :=
  ⟨placedCtx (0x21#6 ++ 1#4 ++ 2#4 ++ 7#4 ++ 1#1 ++ 0#4 ++ 0x1FF#9), ⟨rfl, rfl⟩, rfl, rfl, rfl, by decide +kernel, by decide +kernel⟩
/-- Code lengths that fill the code space and ones that do not; tiles in each state; running copies or none; slots in each state. -/
theorem witness_BellowsControl : (cst ctx0).HasCtx 0 ctx0 ∧ 0x3FF8 % 8 = 0 ∧ 0x3FF8 < 0x4000 ∧
    (let lens := (List.range 16).map fun i => natBits (leNat ((Memory.writeN [] 0 (natLE 8 0x4444444444444444)).readN 0 8)) (4 * i) 4; (∀ l ∈ lens, l ≤ 11) ∧ (lens.map fun l => if l = 0 then 0 else 2 ^ (11 - l)).sum = 2048) ∧
    (64 / 64 % 4 ≠ 0) ∧ (2 ^ 24 - 2 ^ 16 * 250) / 64 % 4 = 0 ∧ ctx0.wg? = some 0 ∧ ((cst ctx0).tile 0 0).owner ≠ 1 ∧
    ((tiled 1).tile 0 0).owner = 1 ∧ ((tiled 1).tile 0 0).st ≠ 1 ∧
    (({ ctx0 with slots := [(7, copy0)] } : Ctx).slots.any fun y => y.2.st == 1) = true ∧ (ctx0.slots.any fun y => y.2.st == 1) = false ∧
    ({ ctx0 with cur := none } : Ctx).cur = none ∧ ctx0.slots.has 7 = false ∧
    (∀ n < 5, ({ ctx0 with slots := [(7, { copy0 with st := n })] } : Ctx).slots.find? 7 = some { copy0 with st := n }) := by
  refine ⟨⟨rfl, rfl⟩, ?_, ?_, ?_, ?_, ?_, ?_, ?_, ?_, ?_, ?_, ?_, rfl, ?_, ?_⟩ <;> decide +kernel

theorem witness_BootEvents : ({ State.reset with booted := true } : State).booted = true ∧ ({ State.reset with booted := true } : State).bootOk = false ∧
    (2 : BitVec 8) = 2 ∧ (3 : BitVec 8) = 3 ∧ bootField 0x9000 = none ∧ 0x9000 ≠ oChstat := by
  refine ⟨rfl, rfl, rfl, rfl, ?_, ?_⟩ <;> decide +kernel
def up : State := { State.reset with booted := true, bootOk := true }
theorem witness_DeviceEvents : natBits (up.reg oChstat) 32 16 ≠ (1000 : BitVec 16).toNat ∧ up.hartsDown.has 3 = false ∧ (∃ c, c = ctlOf 0) ∧ (2 ^ 47 - 1 < 2 ^ 47) ∧ up.chimneyDown = false ∧
    up.poison.has 0 = false ∧ up.images.find? 0 = none ∧ (∀ ld < 16, ringBase (up.reg (oEvbase ld)) = 0) ∧ (up.setReg oChstat (1900 * 2 ^ 32 + 0x101)).hst ≠ 0 := by
  refine ⟨?_, ?_, ⟨_, rfl⟩, ?_, rfl, ?_, ?_, ?_, ?_⟩ <;> decide +kernel
/-- H3 where nothing is under way and no chain runs; H1 where one does; none while a launch runs. -/
theorem witness_DeviceEvents_power :
    (up.coreIdle = true ∧ ((List.range 4096).all fun c => !natBit (up.reg (0x100000 + 0x40 * c)) 8) = true ∧ (∀ ld < 16, up.bound ld = false) ∧ up.hst ≠ 3 ∧
      up.waking = false ∧ up.booted = true) ∧
    ((up.setReg (0x100000 + 0x40 * 7) 0x100).coreIdle = true ∧ natBit ((up.setReg (0x100000 + 0x40 * 7) 0x100).reg (0x100000 + 0x40 * 7)) 8 = true) ∧
    ({ up with teams := [(0, placedTeam)] } : State).coreIdle = false := by
  refine ⟨⟨?_, ?_, ?_, ?_, ?_, ?_⟩, ⟨?_, ?_⟩, ?_⟩ <;> decide +kernel
/-- A ready team that the slot's own class chooses, no team at all, and a fetch that meets a fault, since nothing is mapped. -/
theorem witness_ChoiceAndFetch : ((st placedTeam wg0).part 0).issuing = none ∧ (st placedTeam wg0).stopped 0 = false ∧
    ((st placedTeam wg0).part 0).stopReq = [] ∧ ((st placedTeam wg0).settle 0).choose 0 = some (0, none) ∧
    (State.reset.settle 0).choose 0 = none ∧ (busy placedTeam wg0).TeamIs 0 placedTeam ∧ ((busy placedTeam wg0).part (0 / 16)).issuing = some 0 ∧
    placedTeam.run = none ∧ (busy placedTeam wg0).breakpoint 0 0 0 = none ∧ ((busy placedTeam wg0).setReg (oBrkpc 0 3) 1).breakpoint 0 0 0 = some 3 ∧
    (∃ c va, ((busy placedTeam wg0).fetchRun 0 placedTeam).2 = .fault c va) ∧ (busy placedTeam wg0).heldKind 0 placedTeam = none ∧
    (busy { placedTeam with invs := [(7, 1)] } wg0).heldKind 0 { placedTeam with invs := [(7, 1)] } = some 17 := by
  refine ⟨rfl, ?_, rfl, ?_, ?_, rfl, ?_, rfl, ?_, ?_, ⟨_, _, rfl⟩, ?_, ?_⟩ <;> decide +kernel
def pend0 (p : Bool) : Pend := { reg := 55, count := 1, ia := 0, poison := p, landed := false, rows := [List.replicate 8 7] }
theorem witness_TeamEvents : (busy (team0 (run0 [])) wg0).TeamIs 0 (team0 (run0 [])) ∧ ((busy (team0 (run0 [])) wg0).part (0 / 16)).issuing = some 0 ∧
    (run0 []).words.length ≤ (run0 []).idx ∧ ((busy (team0 (run0 [])) wg0).bodyEnd 0 (team0 (run0 [])) (run0 []) false noTerm noAtt).2 = true ∧
    (∀ b, ({ tail with pend := [pend0 b] } : Team).pend.find? (fun p => p.reg == 55) = some (pend0 b) ∧ (pend0 b).rows.length = (pend0 b).count) ∧
    (st { tail with status := .backoff } wg0).backoffOver 0 { tail with status := .backoff } = true ∧ (st tail wg0).stopped 0 = false ∧
    (st tail { wg0 with lr := rec0 ||| field 32 2 }).starved { tail with status := .waiting 6, stv := 4096 } = some 6 ∧ lrStvt rec0 = false ∧
    lrStvt (rec0 ||| field 32 64) = true ∧ (st { tail with status := .waiting 12 } { wg0 with claims := [(0, 1)] }).claimDeadlock 0 = true ∧
    (st tail wg0).teams.rising = true ∧ spaceOf rec0 (2 ^ 40) = 2 ∧ (st tail wg0).placeBad (.scr 0 0) 0 = false ∧
    ((st { tail with held := [mark0] } wg0).onceDo 0 { tail with held := [mark0] } mark0).isSome ∧ tail.handler = none := by
  refine ⟨rfl, ?_, ?_, ?_, fun b => ⟨?_, rfl⟩, ?_, ?_, ?_, ?_, ?_, ?_, ?_, ?_, ?_, ?_, rfl⟩
  case refine_4 => cases b <;> decide +kernel
  all_goals decide +kernel
def copying (y : Copy) : State := cst { ctx0 with slots := [(7, y)] }
def mop0 : MOp := { num := 1, op := .mzero, arr := 0, blk := [0], st := 0, step := 0, flags := 0, shadow := [] }
def mst0 (m : MOp) : State := { st tail { wg0 with mops := [m] } with tiles := [(0, { Tile.empty with owner := 1, acc := true, size := 64 })] }
def xop0 (b : Bool) : XOp := { w := 0, inv := false, blk := List.replicate 8 0, started := b, vec := 0, old := [] }
/-- A copy that is through and one that meets a fault; a matrix operation that may start, with and without a cause, and one that is
through; a transform that waits and one that runs; a workgroup that has ended. -/
theorem witness_EngineEvents :
    (({ ctx0 with slots := [(7, copy0)] } : Ctx).slots.find? 7 = some copy0) ∧
    (match (copying { copy0 with off := 32 }).runUnits 0 7 ((copying { copy0 with off := 32 }).unitFuel 0 7) with | (_, .all) => true | _ => false) = true ∧
    (match (copying { copy0 with frm := 0 }).runUnits 0 7 ((copying { copy0 with frm := 0 }).unitFuel 0 7) with | (_, .fault _ _ _ _) => true | _ => false) = true ∧
    (mst0 mop0).opAt 0 1 = some mop0 ∧ (mst0 mop0).canStart 0 mop0 = true ∧ ((mst0 mop0).wgOf 0).startCause mop0 = 0 ∧
    ((mst0 mop0).wgOf 0).startCause { mop0 with op := .mloop, blk := [0, 0, 0, 0, 0, 0, 0x10000, 0] } ≠ 0 ∧
    (match (mst0 { mop0 with st := 1 }).runOps 0 1 ((mst0 { mop0 with st := 1 }).opFuel 0 1) with | (_, .all) => true | _ => false) = true ∧
    (∀ b, ({ State.reset with xq := [(0, [xop0 b])] } : State).xq.find? 0 = some (xop0 b :: [])) ∧
    ({ State.reset with wgs := [(0, wg0)] } : State).wgs.has 0 = true ∧ (({ State.reset with wgs := [(0, { wg0 with teamsLeft := 0 })] } : State).teamsOfWg 0).isEmpty = true ∧
    ({ State.reset with wgs := [(0, { wg0 with teamsLeft := 0 })] } : State).engineWork 0 = false := by
  refine ⟨?_, ?_, ?_, ?_, ?_, ?_, ?_, ?_, fun b => rfl, ?_, ?_, ?_⟩ <;> decide +kernel

/-! A tenant with one page mapped and lent, and its host bound. -/

def ten0 : Tenant := { Tenant.empty with
  s2root := 0x10000, ranges := [(0, 0x100000)], near := [0x20000, 0x21000, 0x22000], far := [2 ^ 40, 2 ^ 40 + 4096, 2 ^ 40 + 8192],
  tables := [0x11000, 0x12000, 0x13000], clusters := 1 }
/-- Page 0 mapped in a frame of the tier, and holding the byte `op` at its start; LD 0 bound, with or without page 0 lent. -/
def host (tier op : Nat) : State :=
  match ({ up with tenants := [(0, ten0)] } : State).mapZero 0 0 tier 0 false with
  | some s => (((s.setReg (oLdctl 0) 0x640104).setReg (oLent 0 0) 1).setReg (oLent 0 0 + 8) 4096).putSys 0x20000 [BitVec.ofNat 8 op] 0
  | none => up
def req0 (op st : Nat) : NReq := { NReq.mk' (BitVec.ofNat 512 op) with st := st }
def chain (r : NReq) : State := { (State.reset.setReg (oNccfg 7) (2 ^ 16)).setReg (oNcpub 7) 1 with nreqs := [(7, [(1, r)])] }
/-- ASID 0 of tenant 0 with virtual and guest-physical addresses below 1 GiB mapped to themselves, R, W and X: one leaf of each stage. -/
def flat : Memory :=
  ((((Memory.writeN [] 0x10000 (natLE 8 0x11001)).writeN 0x11000 (natLE 8 0x1F)).writeN 0x14000 (natLE 8 0x15001)).writeN 0x15000
    (natLE 8 0x1F)).writeN 0x16000 (natLE 8 0x14000 ++ natLE 8 0x10000 ++ [0, 0, 1])
def mapped (s : State) : State := { s with mem := flat, dtbase := 0x16000, tenants := [(0, ten0)] }
/-- Landing 0 enabled with R, W and A, key 0, a page long; chain 7 running with RECV at position 1. -/
def landed (r : NReq) : State :=
  (((mapped ((chain r).setReg (oNccfg 7) 0x100)).setReg oKznode (2 ^ 31)).setReg (oLand 0) 0xF).setReg (oLand 0 + 8) 1
def msg0 : NetMsg :=
  { node := 1, uet := false, chain := 2, pos := 3, op := 1, key := 0, land := 0, roff := 64, len := 8, data := [1, 2, 3, 4, 5, 6, 7, 8],
    poison := false, ntfy := none, etype := 0, rchain := 7, ord := false, prev := 0, sprev := 0, imm := 0 }
def ok {α : Type} (x : State × Got α) : Bool := match x.2 with | .ok _ _ => true | _ => false
theorem witness_NetworkEvents :
    (chain (req0 (4 + 8 * 2 ^ 32) 0)).nreq 7 1 = some (req0 (4 + 8 * 2 ^ 32) 0) ∧
    (∀ op ∈ [4 + 8 * 2 ^ 32, 6, 2 + 8 * 2 ^ 32], ((chain (req0 op 0)).setReg (oNccfg 7) 0x100).mayStart 7 1 (req0 op 0) = true ∧ (req0 op 0).invalid = false) ∧
    (req0 0 0).invalid = true ∧ (req0 6 2).st = 2 ∧ (1 : Nat) = (chain (req0 6 2)).ncSeq 7 + 1 ∧ (chain (req0 6 2)).nreq 7 2 = none ∧
    (((chain (req0 6 0)).setReg (oPeer 0 0) (2 ^ 32)).peerKind 0 0 = 1) ∧ ((chain (req0 6 0)).setReg (oPeer 0 0) (2 ^ 32)).ports 0 = [] ∧
    (((chain (req0 6 0)).setReg (oPeer 0 0) (2 ^ 33)).peerKind 0 0 = 2) ∧ natBit ((chain (req0 6 0)).reg (oFep 0 + 16)) 56 = false ∧
    natBit (((chain (req0 6 0)).setReg (oFep 0 + 16) (2 ^ 56)).reg (oFep 0 + 16)) 56 = true ∧ (req0 6 0).wait ≠ 2 ∧ (req0 6 0).data = none ∧
    State.reset.linkOk true = true ∧ State.reset.coreDown = false ∧ ((chain (req0 6 2)).nreq 7 1).map (·.st) = some 2 ∧
    (((req0 (2 + 8 * 2 ^ 32) 1).acked.any fun x => x.1 == 0) = false ∧ ((req0 (2 + 8 * 2 ^ 32) 1).acked.map (·.2)).sum + 7 < (req0 (2 + 8 * 2 ^ 32) 1).len) ∧
    ({ req0 2 1 with sendRetries := 6, retries := [(0, 6)], refused := true } : NReq).sendRetries < 7 ∧ (req0 2 1).refused = false ∧
    7 ≤ ({ req0 2 1 with sendRetries := 7 } : NReq).sendRetries ∧ (8192 : Nat) % 4096 = 0 ∧
    ((({ landed (req0 6 0) with nread := [(7, 0)] } : State).nread.getD 7 0 + 1 = (landed (req0 6 0)).ncPub 7)) ∧
    (((landed (req0 6 0)).setReg (oNcpub 7) 2).nread.getD 7 0 + 1 ≠ ((landed (req0 6 0)).setReg (oNcpub 7) 2).ncPub 7 ∧
      ((landed (req0 6 0)).setReg (oNcpub 7) 2).nends.getD 7 [] = []) ∧ msg0.only = none ∧
    (landed (req0 6 0)).ordBefore 7 1 (req0 (2 + 8 * 2 ^ 32) 1) = [] ∧
    ({ Incoming.new false 1 2 3 with fin := some (8, 0), reply := [(0, 8, [], false)] } : Incoming).reply ≠ [] ∧
    ((chain (req0 2 1)).setReg (oPeer 0 0) (2 ^ 32)).noRoute 7 (req0 2 1) = true ∧ (chain (req0 2 1)).noRoute 7 (req0 2 1) = false ∧ 7 ≤ ({ req0 2 1 with retries := [(0, 7)] } : NReq).retries.getD 0 0 ∧
    (req0 (3 + 8 * 2 ^ 32) 1).op = 3 ∧
    ((landed (req0 6 0)).coreDown = false ∧ (landed (req0 6 0)).ncRun 7 = true ∧ (landed (req0 6 0)).nread.getD 7 0 < (landed (req0 6 0)).ncPub 7 ∧
      (landed (req0 6 0)).atStoker ((landed (req0 6 0)).ncTenant 7) (.read 7) = false ∧ (landed (req0 6 0)).nnext.find? 7 = none ∧
      ok ((landed (req0 6 0)).netRead 0 0 64) = true) := by
  refine ⟨?_, ?_, ?_, ?_, ?_, ?_, ?_, ?_, ?_, ?_, ?_, ?_, ?_, ?_, ?_, ?_, ?_, ?_, ?_, ?_, ?_, ?_, ?_, ?_, ?_, ?_, ?_, ?_, ?_, ?_, ?_⟩
  all_goals decide +kernel
/-- An address in main memory, mapped, whose word is neither poisoned nor of another key. -/
def onPages : Team := { lone with v := [(10, List.replicate 8 0x20010), (11, List.replicate 8 0)] }
theorem witness_AtomicResults_memory :
    (match ((mapped (st onPages wg0)).laneIssue 0 onPages (run0 [0x40311F43]) Guard.always).check 0 onPages (run0 [0x40311F43]) 0 0x20010 8 .atomic with
      | (s, .at' (.sys off) _) => decide (off = 0x20010) && s.hostCached.isEmpty && s.images.isEmpty && s.forwards.isEmpty && s.migs.isEmpty &&
        !s.sysBad off && !s.tagBad off (s.wgOf 0).ktag && decide (off % 64 + 8 ≤ 64)
      | _ => false) = true := by decide +kernel
/-- A segment of the cluster window whose workgroup is there, and one whose workgroup is not. -/
def clustered : BitVec 2048 := rec0 ||| field 48 2 ||| field 88 (2 ^ 20) ||| field 96 (2 ^ 41)
theorem witness_ValueWaits_cluster :
    (spaceOf clustered (2 ^ 41) = 3 ∧ (st tail { wg0 with lr := clustered }).segmentWg 0 0 = some 0 ∧
      (st tail { wg0 with lr := clustered }).segmentWg 0 1 = none ∧ (spaceOf clustered (2 ^ 41 + lrSegment clustered) = 3)) := by
  refine ⟨?_, ?_, ?_, ?_⟩ <;> decide +kernel
/-- A link whose port reaches the node leads there (which ports do is a free value of Config). -/
theorem witness_ports (h : Config.portReach 0 5 = true) : (State.reset.setReg oKznode (2 ^ 31)).ports 5 ≠ [] := by
  have v : natBit ((State.reset.setReg oKznode (2 ^ 31)).reg oKznode) 31 = true := by decide +kernel
  have n : (State.reset.setReg oKznode (2 ^ 31)).portsDown.has 0 = false := by decide +kernel
  have m : 0 ∈ (State.reset.setReg oKznode (2 ^ 31)).ports 5 := by
    simp only [State.ports, v, if_true, List.mem_filter, List.mem_range, h, n]
    decide
  exact List.ne_nil_of_mem m
theorem witness_NetworkEvents_incoming :
    ({ State.reset with resetting := true } : State).resetting = true ∧ (landed (req0 6 0)).linkOk false = true ∧
    ((landed (req0 6 0)).incAt false 1 2 3).wait = 0 ∧ ((landed (req0 6 0)).incAt false 1 2 3).fin = none ∧
    ((landed (req0 6 0)).incAt false 1 2 3).seen.contains 0 = false ∧ (landed (req0 6 0)).incAt false 1 2 3 = Incoming.new false 1 2 3 ∧
    (landed (req0 6 0)).inTurn msg0 0 (Incoming.new false 1 2 3) = true ∧
    (({ landed (req0 6 0) with incoming := [{ Incoming.new false 1 2 3 with seen := [0], total := 8 }] } : State).incAt false 1 2 3).seen.contains 0 = true ∧
    (∀ pm ∈ [2, 4, 8], State.reset.landOk 0 0 pm 64 8 = false ∧ (landed (req0 6 0)).landOk 0 0 pm 4088 8 = true ∧ (landed (req0 6 0)).landOk 0 0 pm 4089 8 = false) ∧
    (landed (req0 6 0)).landOk 0 0 6 4088 8 = true ∧
    ((landed (req0 6 0)).netWrite 0 64 msg0.data false none 9 0).2 = (8, none) ∧
    ((landed (req0 6 0)).netWrite 0 64 (msg0.data.take 4) false (some 0) 5 0).2 = (4, none) ∧
    ok ((landed (req0 6 0)).netRead 0 64 8) = true ∧ ((landed (req0 6 0)).netPut 0 0 64 msg0.data false (some fun _ b => b) .store).2 = none ∧
    (match (landed (req0 6 0)).netReach 0 64 .atomic with
      | (s, .at' p g) => !(s.placeHeld p).2 && (match (s.placeHeld p).1.getPlace (dteTenant (s.dte 0)) g p 4 (dteKtag (s.dte 0)) with | (_, _, bad) => !bad)
      | _ => false) = true ∧
    (landed (req0 (4 + 8 * 2 ^ 32) 0)).openRecv 7 = some 1 ∧ msg0.len ≤ (req0 (4 + 8 * 2 ^ 32) 0).len ∧ State.reset.portsDown.has 35 = false ∧
    (landed (req0 (4 + 8 * 2 ^ 32) 0)).landKey 0 = msg0.key.toNat ∧ (landed (req0 (4 + 8 * 2 ^ 32) 0)).ncTenant 7 = (landed (req0 (4 + 8 * 2 ^ 32) 0)).landTenant 0 ∧
    ((landed (req0 (2 + 8 * 2 ^ 32) 1)).nreq 7 1 = some (req0 (2 + 8 * 2 ^ 32) 1) ∧ (req0 (2 + 8 * 2 ^ 32) 1).op = 2 ∧
      (req0 (2 + 8 * 2 ^ 32) 1).acked = [] ∧ (req0 (2 + 8 * 2 ^ 32) 1).part = []) ∧
    (∀ op ∈ [0, 4, 6, 9, 255], op ≠ 1 ∧ op ≠ 2 ∧ op ≠ 3 ∧ op ≠ 5) ∧ ({ tail with peerOut := [7] } : Team).peerOut ≠ [] := by
  refine ⟨?_, ?_, ?_, ?_, ?_, ?_, ?_, ?_, ?_, ?_, ?_, ?_, ?_, ?_, ?_, ?_, ?_, ?_, ?_, ?_, ?_, ?_, ?_⟩ <;> decide +kernel
/-- Queue 255 of tenant 0, running, with 16 slots of which `n` are appended and none is complete. -/
def queue (prod : Bool) (n : Nat) : State :=
  (((mapped State.reset).setReg (oLdctl 0) 0x640104).setReg (oLqcfg 255) (0x100 + if prod then 0x80 else 0)).setReg (oLqapp 255) n
def launch0 (adm : Bool) (place : List Nat) : Launch :=
  { q := 255, pos := 1, lr := rec0, checked := true, eligAt := none, pairs := [], admitted := adm, toPlace := place, live := place.length,
    status := none, done := false, bad := [], fails := [], preempts := 0, energy := 0 }
def queued (l : Launch) : State := { queue false 1 with launches := [l] }
def reel0 : Reel := { q := 255, pos := 1, idx := 0, cores := [0], wgs := [0], ctxs := [], seats := [0], placedAt := 0 }
def saved0 : Saved := { reel := reel0, teams := [], wgs := [(0, wg0)], ctxs := [], tiles := [], xq := [], aged := 30, frames := [] }
def placed1 : State := { queued (launch0 true []) with reels := [(0, reel0)], wgs := [(0, { wg0 with q := 255 })] }
theorem witness_SchedulerEvents : ({ queue false 1 with chimneyDown := true } : State).chimneyUp = false ∧ (queue false 1).chimneyUp = true ∧
    ((queue false 15).ownsTenant 0 ((queue false 15).lqTenant 255) = true ∧ (queue false 15).lqProd 255 = false ∧
      (16 : BitVec 64).toNat = (queue false 15).lqCount 255 + 1 ∧ (queue false 15).lqCount 255 < (queue false 15).lqPrefix 255 + (queue false 15).lqSlots 255) ∧
    ¬ ((queue false 16).lqCount 255 < (queue false 16).lqPrefix 255 + (queue false 16).lqSlots 255) ∧
    natBit (0x80 : BitVec 64).toNat 7 = (queue true 0).lqProd 255 ∧
    ((queued (launch0 true [0])).launchAt 255 1 = some (launch0 true [0]) ∧ (queued (launch0 true [0])).ownsTenant 0 0 = true) ∧
    ((queue false 1).coreDown = false ∧ (queue false 1).lqRun 255 = true ∧ (queue false 1).headPos 255 ≤ (queue false 1).lqCount 255 ∧
      (queue false 1).launchAt 255 1 = none ∧ (queue false 1).waitsFor 0 (.head 255) = false ∧ ((queue false 1).gpaTo 0 ((queue false 1).lqSlot 255 1) .load).isSome ∧
      ((queue false 1).readGpa 0 ((queue false 1).lqSlot 255 1) 256 0).2.isSome) ∧
    (queue false 1).recordStatus 255 rec0 = 0 ∧ (queue false 1).recordStatus 255 0 ≠ 0 ∧
    ((queued (launch0 false [])).launchAt 255 ((queued (launch0 false [])).headPos 255) = some (launch0 false []) ∧ (queued (launch0 false [])).eligible (launch0 false []) = true) ∧
    ((launch0 true [0]).toPlace.contains 0 = true ∧ (queued (launch0 true [0])).outranked (launch0 true [0]) = false ∧
      (queued (launch0 true [0])).savedFirst (launch0 true [0]) = false ∧ (queued (launch0 true [0])).sectionFault (launch0 true [0]) = none ∧ lrWhole rec0 = false ∧
      (queued (launch0 true [0])).coresOk 0 rec0 [0] = true ∧ (queued (launch0 true [0])).fitsOn rec0 [0] = true) ∧
    ({ queued (launch0 true [0]) with reels := [(0, reel0)], wgs := [(0, { wg0 with lr := rec0 ||| field 28 64 })] } : State).fitsOn (rec0 ||| field 28 64) [0] = false ∧
    (placed1.unitOf 0 = [0]) ∧
    ({ queued (launch0 true []) with saved := [(0, saved0)] } : State).saved.find? 0 = some saved0 ∧
    ({ queued (launch0 true []) with saved := [(0, saved0)] } : State).restorable saved0 [0] = true ∧
    (let s : State := { queued (launch0 true []) with saved := [(0, saved0)] }; s.behind saved0 = false ∧ (s.tenant 0).faults = []) ∧
    ((launch0 true []).live = 0 ∧ lrCtgt (launch0 true []).lr = 0 ∧ (1 : Nat) = (queued (launch0 true [])).lqPrefix 255 + 1 ∧
      (queued (launch0 true [])).launchAt 255 2 = none ∧ (queued (launch0 true [])).resetting = false ∧
      ((queued (launch0 true [])).ringWaits (32 + 255)).contains 1 = false) ∧
    ((queued (launch0 true [0])).placers.find? 7 = none ∧ (queued (launch0 true [0])).placerBound 7 255 1 0 = false ∧
      (({ queued (launch0 true [0]) with placers := [(7, { q := 255, pos := 1, rl := 0, fails := 1, waitCycles := 31, ready := false })] } : State).placers.find? 7).isSome) ∧
    (∀ x ∈ (queued (launch0 false [])).launches, x = launch0 false []) ∧
    ((queued { launch0 true [] with status := some 1 }).wgsOfLaunch 255 1 = [] ∧ (queued { launch0 true [] with status := some 1 }).reelsOf 255 1 = []) := by
  refine ⟨?_, ?_, ?_, ?_, ?_, ?_, ?_, ?_, ?_, ?_, ?_, ?_, ?_, ?_, ?_, ?_, ?_, ?_, ?_, ?_⟩ <;> decide +kernel
/-- A tile that is free, one of another workgroup, an own one in each state; a region that the tile fits and one that it passes; a context
with room for a post; a queue open to the tenant, one full, one that is not there; an operation that passes and one that is refused; a
queue of transforms with room; a chain that may be published and one that may not; sampling on and off; a pool with a frame and without. -/
theorem witness_OnceEffects_cases :
    (∀ o ∈ [0, 1, 2], ((tiled o).tile 0 0).owner = o) ∧ (0 * 16 / 16 = 0 ∧ (tiled 1).wgOf 0 = { wg0 with scr := [(0, 4), (1, 0x7F)] }) ∧
    lrScrBytes rec0 - lrStackBytes rec0 ≤ 4096 * 4 ∧ 64 ≤ lrScrBytes rec0 - lrStackBytes rec0 ∧
    ((cst { ctx0 with reel := reelKey 0 1 0 }).ctxOfWg 0 = some 0 ∧ (cst ctx0).ctxs.find? 0 = some ctx0 ∧ ctx0.posts.length < 16 ∧ wg0.tokens.getD 15 0 < 255 ∧ ((cst ctx0).wgs.find? 0).isSome) ∧
    (let s := ((State.reset.setReg (oLqcfg 255) 0x180).setReg (oLqbase 255) 4); (s.lqTenant 255 = 0 ∧ s.lqProd 255 = true ∧ s.lqRun 255 = true ∧ s.lqCount 255 < s.lqPrefix 255 + s.lqSlots 255)) ∧
    State.reset.lqRun 255 = false ∧ (mst0 mop0).seqLoad 0 < 32 ∧ ((mst0 mop0).issueCause 0 mop0 = 0) ∧
    (mst0 mop0).issueCause 0 { mop0 with op := .mloop, blk := [0, 0, 0, 0, 0, 0, 0x10000, 0] } ≠ 0 ∧
    ((State.reset.xq.getD 0 []).length < 8 ∧ State.reset.xfmStatus (xop0 false) ≠ 0) ∧
    (let s := (State.reset.setReg (oNccfg 7) 0x100); s.ncTenant 7 = 0 ∧ s.ncAsid 7 = 0 ∧ s.ncRun 7 = true ∧ s.reg (oNcpub 7) + 256 ≤ 4096 + s.ncSeq 7) ∧
    State.reset.ncRun 7 = false ∧ natBit (State.reset.reg (oSmpctl 0)) 0 = false ∧
    natBit ((State.reset.setReg (oSmpctl 0) 1).reg (oSmpctl 0)) 0 = true ∧ natBits ((State.reset.setReg (oSmpctl 0) 1).reg (oSmpctl 0)) 32 4 = 0 ∧
    (State.reset.tenant 0).pool = [] ∧ ({ ten0 with pool := [0x20000] } : Tenant).pool ≠ [] := by
  refine ⟨?_, ?_, ?_, ?_, ?_, ?_, ?_, ?_, ?_, ?_, ?_, ?_, ?_, ?_, ?_, ?_, ?_, ?_⟩ <;> decide +kernel
/-- An operation and a transform that have done all their steps, a copy that has written all, and a vector that reads poison. -/
theorem witness_EngineEvents_done : copy0.total ≤ ({ copy0 with off := 32 } : Copy).off ∧ copy0.st = 1 ∧ mop0.length ≤ ({ mop0 with step := 1 } : MOp).step ∧
    (xop0 true).vcnt ≤ (xop0 true).vec ∧
    (let x : XOp := { xop0 true with blk := [0, 1, 0, 0, 0, 0, 0, 0] }
      let s : State := { State.reset with wgs := [(0, { wg0 with pscr := [(0, ())] })], xq := [(0, [x])] }; x.vec < x.vcnt ∧ s.xPoison 0 x 0 = true ∧ (s.wgs.find? x.w).isSome) ∧
    (State.reset.opAt 0 1 = none) ∧ tail.peerOut.any (255 : BitVec 8).getLsbD = false := by
  refine ⟨?_, rfl, ?_, ?_, ?_, ?_, ?_⟩ <;> decide +kernel
/-- A reel whose team awaits queue 255, which has a launch without room (it wants 65 granules of a partition). -/
def crowded : State :=
  let waits : Team := { withRegs (team0 (run0 [BitVec.ofNat 32 (1 * 2 ^ 13 + 2 * 2 ^ 7)])) [(1, 5), (2, 255)] with status := .waiting 10 }
  { queued (launch0 true []) with
    reels := [(0, reel0)]
    wgs := [(0, { wg0 with q := 255 })]
    tenants := [(0, { ten0 with near := (List.range 300).map fun i => 0x20000 + 4096 * i })]
    teams := [(0, waits)]
    launches := [{ launch0 true [] with live := 1 }, { launch0 true [0] with pos := 2, lr := rec0 ||| field 28 64 }] }
theorem witness_reelPreempt : crowded.unitOf 0 = [0] ∧ crowded.unitMay [0] = true ∧ crowded.unitStops [0] = true ∧
    (crowded.victims.contains 0 || crowded.givesWay [0]) = true ∧ (crowded.drainUnit [0]).unitHeld [0] = false ∧
    (crowded.drainUnit [0]).reels.find? 0 = some reel0 ∧ ((crowded.drainUnit [0]).saveReel 0).isSome := by
  refine ⟨?_, ?_, ?_, ?_, ?_, ?_, ?_⟩ <;> decide +kernel

def fault0 (w : Waiter) (c : Nat) : SFault :=
  { id := 1, asid := none, va := 0, gpa := 0, cause := c, need := .load, poolEmpty := false, waiter := w, asked := false }
def mig0 : Mig := { ten := 0, gpa := 0, src := 0x20000, dst := 2 ^ 40, copied := 64, switched := false, failed := false, erred := false }
def shoot0 : Shoot := { ini := 7, seq := 1, scope := .asid 0, got := [0, 1], fin := .team 0 }
def at? (x : State × HostAt) : Bool := match x.2 with | .at' _ _ => true | _ => false
theorem witness_StokerAndHostEvents :
    (up.hartUp 0 = true ∧ ten0.pool.length < 16) ∧
    ([fault0 (.ctx 0) 4].filter (fun f => f.id == 1) = [fault0 (.ctx 0) 4] ∧ (cst ctx0).CtxIs 0 ctx0) ∧
    (match (mapped State.reset).s2Walk 0 ten0.s2root 0 with | .leaf _ _ e _ _ => permits (permOf e) .load | _ => false) = true ∧
    ((host 1 0).plainFrame 0 0 = some 0x20000 ∧ farFrame 0x20000 = false ∧ ((host 1 0).takeFrame 0 2).isSome ∧
      ((host 1 0).s2Set 0 0 (s2Leaf 0x20000 1 false)).isSome) ∧
    ({ host 1 0 with migs := [mig0] } : State).migOf 0 0 = some mig0 ∧
    (({ host 1 0 with migs := [mig0] } : State).migrateRest 0 0 64).migOf 0 0 = some mig0 ∧
    ((host 2 0).plainFrame 0 0 = some (2 ^ 40) ∧ farFrame (2 ^ 40) = true ∧ (({ host 2 0 with free := 1 } : State).takeFrame 0 2).isSome ∧
      ((host 2 0).s2Set 0 0 (s2Leaf (2 ^ 40 + 4096) 2 false)).isSome) ∧
    (up.contextLive 255 1 = false) ∧
    (({ st tail wg0 with shoots := [shoot0] } : State).shoots = [shoot0] ∧ shoot0.got = [0, 1] ∧ (st tail wg0).mbox = [] ∧ (st tail wg0).TeamIs 0 tail) ∧
    (4 ≤ (host 1 0).ceil 0 ∧ inLine 63 1 = true ∧ inLine 63 2 = false ∧ at? ((host 1 0).hostReach 0 63 .load) = true ∧
      at? ((host 1 0).hostReach 0 0 .store) = true ∧ ((host 1 0).hostBlock 0 0 0x20000).2 = none ∧ (host 1 0).sysBad 0x20000 = false) ∧
    ({ up with hostCached := [(5, 0)] } : State).hostCached.find? 5 = some 0 ∧ up.biWait = [] ∧ up.bound 0 = false ∧
    (mapped up).tenants.has 0 = true ∧ ((mapped up).mapLent 0 ((mapped up).lentPages 0)).isSome ∧ (host 1 0).bound 0 = true ∧
    ((host 1 0).mayLd 0 0 = true ∧ (host 1 0).mayLd 16 0 = true ∧ (host 1 0).chimneyUp = true ∧ ({ up with chimneyDown := true } : State).chimneyUp = false ∧ 2 ≤ natBits (2 : BitVec 64).toNat 0 5 ∧ natBits (16 : BitVec 64).toNat 0 5 ≤ 16) ∧
    ((host 1 0).reg (oEvhead 0) ≤ (0 : BitVec 64).toNat ∧ (0 : BitVec 64).toNat ≤ (host 1 0).reg (oEvtail 0) ∧ ((host 1 0).tenant 0).reqs = []) ∧
    ([({ id := 9, gpa := 0, stage := 0, written := true } : PReq)].find? (fun r => r.id == natBits (0x100000009 : BitVec 64).toNat 0 32)).isSome ∧
    natBits (0x100000009 : BitVec 64).toNat 32 8 = 1 ∧ ({ up with resetting := true } : State).mbox = [] := by
  refine ⟨?_, ⟨?_, rfl⟩, ?_, ?_, ?_, ?_, ?_, ?_, ⟨rfl, rfl, rfl, rfl⟩, ?_, ?_, rfl, ?_, ?_, ?_, ?_, ?_, ?_, ?_, ?_, rfl⟩ <;> decide +kernel
/-- A fault of cause 3 whose page is mapped by now; a migration that failed and one that may switch; a page that the host keeps room for;
a popped frame of a context that is gone; a host read and write turned away; a line that a host gives back; a reply to a page request. -/
def awaited : State :=
  { st { tail with status := .waiting 14 } wg0 with mem := flat, dtbase := 0x16000, tenants := [(0, { ten0 with faults := [fault0 (.team 0) 3] })] }
def asked : State :=
  let s := ((host 1 0).s2Set 0 0x5000 (s2HostLeaf false)).getD up
  s.setTenant 0 { s.tenant 0 with reqs := [{ id := 9, gpa := 0x5000, stage := 0, written := false }], faults := [{ fault0 (.ctx 0) 3 with gpa := 0x5000 }] }
theorem witness_StokerAndHostEvents_more :
    (awaited.hartUp 0 = true ∧ (awaited.tenant 0).faults.find? (fun f => f.id == 1) = some (fault0 (.team 0) 3) ∧
      (match awaited.s2Walk 0 (awaited.tenant 0).s2root 0 with | .leaf _ _ _ _ _ => true | _ => false) = true ∧
      onPage 0 (fault0 (.team 0) 3) = true ∧ (fault0 (.team 0) 3).asked = false ∧ awaited.lacks 0 (fault0 (.team 0) 3) = false ∧ (fault0 (.team 0) 3).need.w = false ∧
      ((awaited.dropFaults 0 (onPage 0)).tenants.any fun z => z.2.faults.any fun x => x.waiter == .team 0) = false) ∧
    (({ host 1 0 with migs := [{ mig0 with failed := true }] } : State).migOf 0 0 = some { mig0 with failed := true } ∧ mig0.failed = false ∧
      (let s := ({ host 1 0 with migs := [mig0] } : State).migrateRest 0 0 64; s.s2Set 0 0 (s2Leaf (2 ^ 40) 0 (natBit (s.s2Get 0 0) 59))).isSome = true) ∧
    (!(host 2 0).lentPage 0 0 || decide ((host 2 0).reserved 0 + 1 < ((host 2 0).tenant 0).far.length)) = true ∧
    (let p : Popped := { q := 255, pos := 1, asid := 4095, page := 0x5000 }; (p.asid == (4095 : BitVec 12).toNat && !up.contextLive p.q p.pos) = true ∧ dteV (up.dte 4095) = false) ∧
    (inLine 0 64 = true ∧ inLine 0 65 = false ∧ (match (host 1 0).hostReach 0 4096 .load with | (_, .bad _ _) => true | _ => false) = true ∧
      (match (host 1 0).hostReach 0 4096 .store with | (_, .bad _ _) => true | _ => false) = true ∧
      (({ host 1 0 with poison := [(0x20000 / 64, ())] } : State).hostBlock 0 0 0x20000).2 ≠ none) ∧
    (up.portHeld = [] ∧ up.lineOf (64 * 5) = 5 ∧ ({ up with hostCached := [(5, 0)] } : State).hostCached.find? 5 = some 0) ∧
    ((st tail wg0).teams.filter fun y => rcvOfCore (coreOfTeam y.1) == 2) = [] ∧
    (asked.bound 0 = true ∧ asked.hartUp 0 = true ∧ (asked.tenant 0).reqs.find? (fun r => r.id == 9) = some { id := 9, gpa := 0x5000, stage := 0, written := false } ∧
      (asked.tenant 0).faults.any (onPage 0x5000) = true ∧ (∀ x ∈ (asked.tenant 0).faults, onPage 0x6000 x = false) ∧
      (let s := asked.plainPage 0 (asked.stagePage 0 0); s.pageState 0 0x5000 = 3 ∧
        (match s.s2Walk 0 (asked.tenant 0).s2root (s.stagePage 0 0) with | .leaf _ _ _ _ _ => true | _ => false) = true ∧
        ((s.endRequest 0 { id := 9, gpa := 0x5000, stage := 0, written := false } true).s2Set 0 0x5000 (s2Leaf 0x20000 0 false)).isSome = true)) ∧
    (let s := (chain (req0 6 0)); s.ncSeq 7 ≤ s.ncPub 7 ∧ 0 < s.ncPub 7 ∧ s.nreq 7 (s.ncPub 7 + 1) = none) := by
  refine ⟨?_, ?_, ?_, ?_, ?_, ?_, ?_, ?_, ?_⟩ <;> decide +kernel
/-- A Stoker command block of each OP, and mailbox blocks of each; the tenant is admin of ADMIN's mask or not. -/
theorem witness_CommandEvents : (∀ op ∈ [1, 2, 3, 4, 5, 6, 7, 8, 9], (host 1 op).bound 0 = true ∧ natBit ((host 1 op).reg (oSkstat 0)) 8 = false ∧
      (host 1 op).hartUp 0 = true ∧ ((host 1 op).readGpa 0 0 64 ((host 1 op).hostKtag 0)).2.isSome ∧ (host 1 op).opOf 0 0 = some op) ∧
    (∀ op ∈ [1, 2, 3, 4, 5, 6, 7, 8, 9], natBit ((host 1 op).reg (oMbstat 0)) 8 = false ∧ (host 1 op).mbox = [] ∧
      (match (({ host 1 op with mbox := [(0, 0)] } : State).setReg (oMbstat 0) 256).readGpa 0 0 128 0 with | (_, some b) => cmdOp b == op | _ => false) = true) ∧
    ((host 1 2).setReg oAdmin 1).isAdmin 0 = true ∧ (host 1 2).chimneyUp = true ∧ (0 : BitVec 2) ≠ 1 ∧ (16 : Nat) < (17 : BitVec 5).toNat := by
  refine ⟨?_, ?_, ?_, ?_, ?_, ?_⟩ <;> decide +kernel
theorem witness_SecurityAndDebug : up.bootOk = true ∧ up.chimneyDown = false ∧ up.chimneyUp = true ∧ up.hst = 0 ∧ ({ up with bootOk := false } : State).chimneyUp = false ∧ ({ up with chimneyDown := true } : State).chimneyDown = true ∧ (1 : BitVec 8) ≠ 0 ∧
    (∀ l ∈ (queued (launch0 true [])).launches, ((queued (launch0 true [])).launches.filter fun x => x.q == l.q && x.pos == l.pos) = [l]) ∧ (0x12 : BitVec 8) ≠ 0x13 ∧ 1 ≤ (8 : BitVec 8).toNat ∧ (8 : BitVec 8).toNat ≤ 8 ∧
    (([(0, 1, false), (0, 2, true), (0, 3, true)] : List (Nat × Nat × Bool)).filter fun x => x.1 == 0).length < 4 ∧
    4 ≤ (([(0, 1, false), (0, 2, true), (0, 3, true), (0, 4, true)] : List (Nat × Nat × Bool)).filter fun x => x.1 == 0).length ∧
    ([(0, 1, false), (0, 2, true)] : List (Nat × Nat × Bool)).contains (0, 1, false) = true ∧
    ([(0, 1, false), (0, 2, true)] : List (Nat × Nat × Bool)).contains (0, 2, true) = true ∧
    ([] : List (Nat × Nat × Bool)).contains (0, 2, true) = false ∧ (List.range 255).find? (fun i => !up.keys.has (i + 1)) = some 0 ∧
    ({ up with keys := [(255, 0)] } : State).keys.find? (255 : BitVec 8).toNat = some 0 ∧ (5375 : Nat) < 5376 ∧ up.resetting = false ∧
    up.reg (oDbgctl 5375) % 8 = 0 ∧ up.stopped 5375 = false ∧ (up.setReg (oDbgstat 0) 1).stopped 0 = true ∧ (st tail wg0).teams.has (16 * 0 + (0 : BitVec 4).toNat) = true ∧
    firstCause [(3, 0, 2), (2, 15, 63)] ≠ none ∧ (up.part 0).issuing = none ∧
    (let s := up.setReg (oSmpctl 0) (16 * 256 + 1); natBit (s.reg (oSmpctl (0 / 8))) 0 = true ∧ 16 ≤ natBits (s.reg (oSmpctl (0 / 8))) 8 24 ∧ (s.part 0).pcyc % natBits (s.reg (oSmpctl (0 / 8))) 8 24 = 0 ∧
        (s.part 0).sampAt ≠ (s.part 0).pcyc + 1) := by
  refine ⟨rfl, rfl, rfl, ?_, rfl, rfl, ?_, ?_, ?_, ?_, ?_, ?_, ?_, ?_, ?_, ?_, ?_, ?_, ?_, rfl, ?_, ?_, ?_, ?_, ?_, rfl, ?_⟩ <;> decide +kernel
theorem witness_coreDump : ∃ d ds, ({ up with dumps := [{ q := 0, pos := 1, ten := 0, src := srcPart 0, seq := 1, grid := 0, asid := 0, sec := [], more := [], lost := 0 }] } : State).dumps =
    d :: ds ∧ d.src = srcPart (0 / 16) ∧ d.wrote = none ∧ up.hostCached = [] := ⟨_, _, rfl, rfl, rfl, rfl⟩

/-- A word in issue on a partition, and one at a context's program counter, as withFetchWord places them; an event on the agenda. -/
theorem witness_StepRunsDecoded :
    (let s := State.reset.placeDelmer 0x02182100; s.agenda = [.partition 0] ∧ s.begin.coreDown = false ∧ s.begin.stopped 0 = false ∧
      (s.begin.part 0).issuing = some 0 ∧ s.begin.TeamIs 0 (placedRun 0x02182100) ∧ (placedRun 0x02182100).run = some (run0 [0x02182100]) ∧
      (run0 [0x02182100]).words[0]? = some 0x02182100 ∧ (placedRun 0x02182100).stalled (run0 [0x02182100]) 0x02182100 = false ∧
      (placedRun 0x02182100).status ≠ .waiting 13 ∧
      (∀ x ∈ s.begin.teamsOf 0, s.begin.backoffOver x.1 x.2 = false ∧ (s.begin.starved x.2).isSome = false)) ∧
    (let s := State.reset.placeBellows 0x28C03FFF; s.agenda = [.bellows 0] ∧ s.begin.coreDown = false ∧ s.begin.CtxIs 0 (placedCtx 0x28C03FFF) ∧ (placedCtx 0x28C03FFF).halted = false ∧
      (placedCtx 0x28C03FFF).fault = 0 ∧ (placedCtx 0x28C03FFF).stoker ≠ 1 ∧ (placedCtx 0x28C03FFF).pc.toNat < 0x4000) ∧
    ({ State.reset with agenda := [.event (.granuleReturn 0)] } : State).agenda = .event (.granuleReturn 0) :: [] := by
  refine ⟨⟨rfl, ?_, ?_, ?_, rfl, ?_, rfl, ?_, ?_, ?_⟩, ⟨rfl, ?_, rfl, rfl, rfl, ?_, ?_⟩, rfl⟩ <;> decide +kernel
theorem witness_RoundTrip : encode (.add 3 1 2 ⟨0, false⟩) = some 0x02182100 ∧ ofBellows (.add 3 1 2 ⟨0, false⟩) = false ∧
    WellFormed (.add 3 1 2 ⟨0, false⟩) = true := by refine ⟨?_, ?_, ?_⟩ <;> decide +kernel
theorem witness_RoundTrip_bellows : encode (.bellowsMovi 15 0x3FFF) = some 0x2BC03FFF ∧ ofBellows (.bellowsMovi 15 0x3FFF) = true := by
  refine ⟨?_, ?_⟩ <;> decide +kernel
/-- Reset's memory is in its form; a step of it that is a next state is shown below (`test_step_event`). -/
theorem witness_MemoryFormKept : State.reset.mem.wf = true := by decide

/-! More stops of StopRecords, each in the state that meets its clause. -/

/-- A team whose pair v10, v11 holds the address given. -/
def at2 (lo hi : Word) : Team := withRegs tail [(10, lo), (11, hi)]
/-- The divergence stack full, with a loop that starts elsewhere; the top a loop or not; a handler entered at depth 1; an LWAIT on the own
position; an address of each window, aligned or not, and a word that is poisoned or in no segment. -/
theorem witness_StopRecords_more :
    (∀ e s', (deep (List.replicate 32 (e0 true 0 0))).mstack = e :: s' → e.loop = false ∨ e.start ≠ (bodyOver [0x98000030]).nextPc) ∧
    (∀ b, ∃ e s', (deep [e0 b 0 0]).mstack = e :: s' ∧ e.loop = b) ∧
    (∃ h, (served 1).handler = some h ∧ (served 1).mstack.length ≠ h.depth) ∧
    ((∀ t ∈ [at2 1 0], (st t wg0).TeamIs 0 t) ∧ ((at2 1 0).get 3 0).toNat = wg0.q ∧ wg0.pos ≤ ((at2 1 0).get64 10 0).toNat) ∧
    (spaceOf (rec0 ||| field 72 64) ((at2 8 0).get64 10 0).toNat = 1 ∧ spaceOf rec0 ((at2 0 0x10000).get64 10 0).toNat = 4 ∧
      spaceOf rec0 ((at2 8 0).get64 10 0).toNat = 0 ∧ lrWhole rec0 = false ∧ lrWhole (rec0 ||| field 32 1) = true ∧
      ((at2 9 0).get64 10 0).toNat % 4 ≠ 0 ∧ ((at2 4092 0x100).get64 10 0).toNat % 4 = 0 ∧
      ({ wg0 with pscr := [(63, ())] } : Wg).pscr.has ((((at2 4092 0x100).get64 10 0).toNat - lrShBase rec0) / 64) = true) ∧
    (bodyOver [0xA610C170]).met = false := by
  refine ⟨?_, ?_, ⟨_, rfl, by decide +kernel⟩, ⟨fun t h => ?_, ?_, ?_⟩, ?_, rfl⟩
  case refine_1 => intro e s' h; cases h; exact .inr (by decide +kernel)
  case refine_2 => intro b; exact ⟨_, _, rfl, rfl⟩
  case refine_3 => cases List.mem_singleton.mp h; rfl
  all_goals decide +kernel
/-- A segment of the cluster window that is not there, and one whose word is poisoned. -/
theorem witness_StopRecords_cluster :
    (st tail { wg0 with lr := clustered }).segmentWg 0 ((2 ^ 41 + lrSegment clustered - lrClBase clustered) / lrSegment clustered) = none ∧
    (let s := st tail { wg0 with lr := clustered, pscr := [(0, ())] }
     s.segmentWg 0 ((2 ^ 41 - lrClBase clustered) / lrSegment clustered) = some 0 ∧
      (s.wgOf 0).pscr.has ((2 ^ 41 - lrClBase clustered) % lrSegment clustered / 64) = true) := by
  refine ⟨?_, ?_⟩ <;> decide +kernel
/-- Partners of two widths, on one partition, the one that waited sending or receiving. -/
theorem witness_StopRecords_widths : ∀ send wide : Bool,
    let x : Rdv := { k := 1, send := !send, wide := !wide, reg := 4 }
    (meet [x]).HasRun 0 tail (bodyOver [0x98000030]) ∧ (meet [x]).bodyEnd 0 tail (bodyOver [0x98000030]) false noTerm noAtt = (meet [x], true) ∧
      (((meet [x]).wgOf 0).rdv.getD 15 []).find? (fun y => y.send != send) = some x ∧ x.wide ≠ wide ∧ (meet [x]).records.length < 4095 ∧
      (meet [x]).TeamIs 1 { tail with run := some (bodyOver [0x3A007838]) } ∧ (∀ c ∈ ((meet [x]).wgOf 0).claims, c.1 ≠ 0 ∧ c.1 ≠ x.k) := by
  intro a b; cases a <;> cases b <;> refine ⟨⟨rfl, rfl, rfl⟩, rfl, ?_, ?_, ?_, rfl, ?_⟩ <;> decide +kernel

/-- TSET's operands with reserved bits, with an operation of each value, with a post and without. -/
theorem witness_BellowsControl_tset : (∀ op ∈ [0, 2, 3], (256 * op + 2 ^ 16) / 256 % 4 ≠ 1 ∧ (256 * op + 2 ^ 16) / 65536 % 256 ≠ 0 ∧ 256 * op < 2 ^ 16) ∧
    (∀ op ∈ [2, 3], 2 ≤ 256 * op / 256 % 4 ∧ 256 * op / 64 % 4 = 0 ∧ 256 * op / 1024 % 64 = 0) ∧ ({ ctx0 with cur := none } : Ctx).wg? = none ∧
    ctx0.wg? = some 0 ∧ ((cst ctx0).tile 0 0).owner ≠ 0 % 16 + 1 ∧ ((tiled 1).tile 0 0).owner = 0 % 16 + 1 := by
  refine ⟨?_, ?_, rfl, ?_, ?_, ?_⟩ <;> decide +kernel
/-- A copy of one row to the shared window that has met a fault. -/
def row0 : Copy := { copy0 with st := 3, desc := natLE 4 128 ++ natLE 2 1 ++ natLE 2 1 ++ List.replicate 24 0, off := 64 }
theorem witness_BellowsControl_drop : 2 ≤ row0.st ∧ row0.op = .copy ∧ row0.rows = 1 ∧ row0.total = 128 ∧ ((cst ctx0).wgs.find? row0.w).isSome ∧
    (cst ctx0).rowOk row0.w row0.to'.toNat row0.rowLen true = true ∧ spaceOf rec0 row0.to'.toNat = 2 ∧ lrShBase rec0 % 64 = 0 ∧
    (∀ o < 128, spaceOf rec0 (row0.to'.toNat + o) = 2) ∧
    (match exec (.resumeDrop 3 7) (cst { ctx0 with slots := [(7, row0)] }) with | .next s => (s.wgOf 0).pscr.map (·.1) | _ => []) = [2] := by
  refine ⟨?_, rfl, ?_, ?_, ?_, ?_, ?_, ?_, ?_, ?_⟩ <;> decide +kernel

/-- A later attempt of a run that reads a register whose pending write was poisoned, and one that does not. -/
def again (n : Nat) : Team :=
  { team0 { run0 [0x02182100] with first := false } with pend := [{ reg := n, count := 1, ia := 0, poison := true, landed := false, rows := [] }] }
theorem witness_ChoiceAndFetch_again : ((st (again 1) wg0).settle 0).choose 0 = some (0, none) ∧ ((st (again 1) wg0).settle 0).TeamIs 0 (again 1) ∧
    (∃ r p, (again 1).run = some r ∧ r.again = true ∧ (again 1).poisonPend r.words = some p) ∧
    ((st (again 4) wg0).settle 0).choose 0 = some (0, none) ∧ (again 4).poisonPend (run0 [0x02182100]).words = none := by
  refine ⟨?_, rfl, ⟨_, _, rfl, ?_, rfl⟩, ?_, ?_⟩ <;> decide +kernel

/-- A value wait that looks again at a word of the shared window, of a segment of the cluster window and of global memory of a WHOLE launch,
whose value has come or not; one that has been told. -/
def looks (m : Bool) (lo hi : Word) : Team :=
  { at2 lo hi with status := .waiting 6, run := some { bodyOver [BitVec.ofNat 32 (10 * 2 ^ 13 + 3 * 2 ^ 7)] with met := m } }
theorem witness_TeamEvents_recheck :
    (∀ m, ∃ r, (looks m 0 0x100).run = some r ∧ r.met = m ∧ bits (r.words.getLastD 0) 19 6 = 0 ∧ bits (r.words.getLastD 0) 13 6 = 10) ∧
    (spaceOf rec0 ((looks false 0 0x100).get64 10 0).toNat = 2 ∧ (st (looks false 0 0x100) wg0).placeBad (.scr 0 0) 0 = false) ∧
    (spaceOf clustered ((looks false 0 0x200).get64 10 0).toNat = 3 ∧ (st (looks false 0 0x200) { wg0 with lr := clustered }).segmentWg 0 0 = some 0) ∧
    (spaceOf (rec0 ||| field 32 1) ((looks false 0x20010 0).get64 10 0).toNat = 0 ∧ lrWhole (rec0 ||| field 32 1) = true ∧
      (match ((mapped (st (looks false 0x20010 0) { wg0 with lr := rec0 ||| field 32 1 })).reachGlobal (rcvOfCore 0) 0 0x20010 .load) with
        | (s2, .at' p _) => !s2.placeBad p 0
        | _ => false) = true ∧
      (match ((st (looks false 0x20010 0) { wg0 with lr := rec0 ||| field 32 1 }).reachGlobal (rcvOfCore 0) 0 0x20010 .load) with
        | (_, .cause c) => c != 4
        | _ => false) = true) ∧
    ({ tail with held := [mark0] } : Team).doneBefore mark0 = false := by
  refine ⟨fun m => ⟨_, rfl, rfl, ?_, ?_⟩, ?_, ?_, ?_, ?_⟩ <;> first | decide +kernel | (cases m <;> decide +kernel)

/-- A request that ended with an error and one that did not; no event ring; a device that sleeps; a request refused before, one accepted
before at its target, and a SEND to a chain that does not run. -/
def sleeping : State := (landed (req0 (2 + 8 * 2 ^ 32) 1)).setReg oChstat 0x100
theorem witness_NetworkEvents_kept : statusError 0x12 = true ∧ statusError 0 = false ∧ (∀ ld < 16, ringBase ((chain (req0 6 2)).reg (oEvbase ld)) = 0) ∧
    (2 : Nat) ≠ (chain (req0 6 2)).ncSeq 7 + 1 ∧ ((chain (req0 6 2)).setNreq 7 2 { req0 6 2 with status := 0x12 }).nreq 7 2 = some { req0 6 2 with status := 0x12 } ∧
    sleeping.asleep = true ∧ sleeping.linkOk false = true ∧ sleeping.linkOk true = true ∧ sleeping.nreq 7 1 = some (req0 (2 + 8 * 2 ^ 32) 1) ∧
    sleeping.reqUet 7 (req0 (2 + 8 * 2 ^ 32) 1) = false ∧
    (({ landed (req0 6 0) with incoming := [({ Incoming.new false 1 2 3 with fin := some (0, 0x12) } : Incoming)] } : State).incAt false 1 2 3).fin = some (0, 0x12) ∧
    (let e : Incoming := { Incoming.new false 1 2 3 with target := some { asid := 0, va := 64, room := 8 } }
      let s : State := { landed (req0 6 0) with incoming := [e] };
      s.incAt false 1 2 3 = e ∧ s.inTurn msg0 0 e = true ∧ (s.netWrite 0 64 (msg0.data.take 8) false none 9 0).2 = (8, none)) ∧
    (let s := (landed (req0 (4 + 8 * 2 ^ 32) 0)).setReg (oNccfg 7) 0;
      s.ncRun 7 = false ∧ s.landKey 0 = msg0.key.toNat ∧ s.ncTenant 7 = s.landTenant 0 ∧ s.inTurn msg0 0 (Incoming.new false 1 2 3) = true) := by
  refine ⟨?_, ?_, ?_, ?_, ?_, ?_, ?_, ?_, ?_, ?_, ?_, ?_, ?_⟩ <;> decide +kernel
/-! ### Ill-formed terms, one for each field check (Table 6.9) -/

/-- g = 0 with n = 1 (reason 3); an odd pair, a group of four and of eight out of place (5); VFORM above 55 (4); fields out of range (7). -/
theorem test_ill_formed : ∀ i ∈ ([.add 2 0 1 ⟨0, true⟩, .bra ⟨0, true⟩ 4, .mad 1 2 3 ⟨0, false⟩, .ld64 5 10 1 0, .ld32 4 11 0 0, .st128 10 12 14 1 3,
    .cmac 8 10 14 0, .vtrn8 12 0, .mloop 1 20 ⟨0, false⟩, .vform 1 56 ⟨0, false⟩, .eq 4 1 0 1 ⟨0, false⟩, .eq 0 0 0 1 ⟨0, false⟩, .sel 1 2 3 ⟨0, false⟩,
    .p2v 1 0 ⟨0, false⟩, .pand 0 1 0 2 ⟨0, false⟩, .pand 0 1 2 0 ⟨0, false⟩, .xsend 16 1, .xrecv 1 16, .movs 2 13 ⟨0, false⟩, .movs 3 11 ⟨0, false⟩,
    .divif ⟨0, false⟩ 4, .divloop ⟨0, false⟩ 4, .divbrk ⟨0, false⟩ 4, .fence 0 7 0 1, .fence 0 0 0 0, .fence 1 0 0 1, .backoff 0 1 ⟨0, false⟩,
    .backoff 1 8 ⟨0, false⟩, .regclaim 0 ⟨0, false⟩, .regclaim 7 ⟨0, false⟩, .reggive 7 ⟨0, false⟩, .waitv 4 2 1 ⟨0, false⟩, .bpostw 8 2 4 ⟨0, false⟩, .mldb 1 4 16 ⟨0, false⟩,
    .usr 2 13 ⟨0, false⟩, .usr 3 0x13 ⟨0, false⟩, .uwr 0x17 2 ⟨0, false⟩, .uwr 0x13 3 ⟨0, false⟩, .rdfault 1 6 ⟨0, false⟩] : List Instr),
    WellFormed i = false := by decide +kernel
theorem test_well_formed : ∀ i ∈ ([.add 2 0 1 ⟨0, false⟩, .mad 1 2 4 ⟨0, false⟩, .ld64 6 10 1 0, .st128 8 12 14 1 3, .cmac 8 10 12 0, .vtrn8 8 0,
    .vform 1 55 ⟨0, false⟩, .eq 3 1 0 1 ⟨0, false⟩, .fence 0 6 0 1, .fence 1 0 1 1, .backoff 7 7 ⟨0, false⟩, .regclaim 6 ⟨0, false⟩, .waitv 3 2 1 ⟨0, false⟩,
    .bpostw 7 2 4 ⟨0, false⟩, .usr 2 0x13 ⟨0, false⟩, .rdfault 1 5 ⟨0, false⟩] : List Instr), WellFormed i = true := by decide +kernel

/-! ### Words

Words the manual writes out (Table 6.10, Fragments 5 and 6, and the fetch check of chapter 6), then one word of each instruction, put
together from the opcode table: its fixed bits, and in each field a number of its own. -/

/-- Table 6.10. -/
theorem test_sample_words : decode 0x00000000 = .error 1 ∧ decode 0x80000000 = .error 1 ∧ decode 0x02100081 = .error 3 ∧ decode 0x08000060 = .error 2 ∧
    decode 0x1B5800A0 = .error 7 ∧ decode 0xBA000030 = .error 1 ∧ isTrailer 0xFFC0E000 = true ∧ isTrailer 0xFFFFE000 = true ∧
    decode 0x9C000060 = .ok (.divelse 96) := by refine ⟨?_, ?_, ?_, ?_, ?_, ?_, ?_, ?_, ?_⟩ <;> decide +kernel
/-- The run of Table 6.11; fences 1.03 and 1.02 of Fragment 5; the post of Fragment 6. -/
theorem test_fragment_words : decode 0x40214042 = .ok (.ld32 4 10 0 2) ∧ decode 0x04302010 = .ok (.addi 6 1 1 ⟨0, false⟩) ∧
    decode 0x04288010 = .ok (.addi 5 4 1 ⟨0, false⟩) ∧ decode 0xA2089040 = .ok (.fence 4 2 1 1) ∧ decode 0xA2008040 = .ok (.fence 0 2 0 1) ∧
    decode 0xAA010510 = .ok (.bpostw 0 8 10 ⟨0, false⟩) := by refine ⟨?_, ?_, ?_, ?_, ?_, ?_⟩ <;> decide +kernel
/-- Guard p5, negated. -/
def gn : Guard := ⟨5, true⟩
theorem test_words_1 : ∀ x ∈ ([
    (0x03420C0B, .add 40 16 24 gn), (0x03420C1B, .sub 40 16 24 gn), (0x03420C2B, .addsatI32 40 16 24 gn),
    (0x03420C3B, .addsatN32 40 16 24 gn), (0x03420C4B, .subsatI32 40 16 24 gn), (0x03420C5B, .subsatN32 40 16 24 gn),
    (0x03420C6B, .absdiffI32 40 16 24 gn), (0x03420C7B, .absdiffN32 40 16 24 gn), (0x0542155B, .addi 40 16 341 gn),
    (0x07420C0B, .mul 40 16 24 gn), (0x07420C1B, .mulhiI32 40 16 24 gn), (0x07420C2B, .mulhiN32 40 16 24 gn),
    (0x07420C3B, .mad 40 16 24 gn), (0x07420C4B, .dot4I8 40 16 24 gn), (0x07420C5B, .dot4N8 40 16 24 gn),
    (0x07420C6B, .dot8I4 40 16 24 gn), (0x07420C7B, .sad4N8 40 16 24 gn), (0x09420C0B, .minI32 40 16 24 gn),
    (0x09420C1B, .maxI32 40 16 24 gn), (0x09420C2B, .minN32 40 16 24 gn), (0x09420C3B, .maxN32 40 16 24 gn),
    (0x0942004B, .absI32 40 16 gn), (0x0942005B, .negI32 40 16 gn), (0x0B420C0B, .and 40 16 24 gn), (0x0B420C1B, .or 40 16 24 gn),
    (0x0B420C2B, .xor 40 16 24 gn), (0x0B420C3B, .andn 40 16 24 gn), (0x0B420C4B, .orn 40 16 24 gn), (0x0B420C5B, .xnor 40 16 24 gn),
    (0x0B42006B, .not 40 16 gn), (0x0B42007B, .mov 40 16 gn), (0x0D42155B, .andi 40 16 341 gn), (0x0F42155B, .ori 40 16 341 gn),
    (0x1142155B, .xori 40 16 341 gn), (0x1340155B, .movi 40 341 gn), (0x15420C0B, .shl 40 16 24 gn), (0x15420C1B, .shr 40 16 24 gn),
    (0x15420C2B, .sra 40 16 24 gn), (0x15420C3B, .rol 40 16 24 gn), (0x15420C4B, .ror 40 16 24 gn), (0x15420C5B, .shlf 40 16 24 gn),
    (0x15420C6B, .shrf 40 16 24 gn), (0x1742016B, .shli 40 16 22 gn), (0x1742056B, .shri 40 16 22 gn)] : List (Word × Instr)), decode x.1 = .ok x.2 := by decide +kernel
theorem test_words_2 : ∀ x ∈ ([
    (0x1742096B, .srai 40 16 22 gn), (0x17420D6B, .roli 40 16 22 gn), (0x1742116B, .rori 40 16 22 gn), (0x1942000B, .popc 40 16 gn),
    (0x1942001B, .clz 40 16 gn), (0x1942002B, .ctz 40 16 gn), (0x1942003B, .brev 40 16 gn), (0x19420C4B, .bxtI32 40 16 24 gn),
    (0x19420C5B, .bxtN32 40 16 24 gn), (0x19420C6B, .bins 40 16 24 gn), (0x19420C7B, .bsel 40 16 24 gn), (0x1AAA0C0B, .eq 2 5 16 24 gn),
    (0x1AAA0C1B, .ne 2 5 16 24 gn), (0x1AAA0C2B, .ltI32 2 5 16 24 gn), (0x1AAA0C3B, .leI32 2 5 16 24 gn),
    (0x1AAA0C4B, .gtI32 2 5 16 24 gn), (0x1AAA0C5B, .geI32 2 5 16 24 gn), (0x1AAA0C6B, .ltN32 2 5 16 24 gn),
    (0x1AAA0C7B, .geN32 2 5 16 24 gn), (0x1D420C07, .sel 40 16 24 ⟨3, true⟩), (0x1D40C01B, .p2v 40 6 gn), (0x1CAA002B, .v2p 2 5 16 gn),
    (0x1CA8C1BB, .pand 2 5 6 3 gn), (0x1CA8C1CB, .por 2 5 6 3 gn), (0x1CA8C1DB, .pxor 2 5 6 3 gn), (0x1CA8C06B, .pnot 2 5 6 gn),
    (0x1F42000B, .wfromCluster 40 16 gn), (0x1F42001B, .wspace 40 16 gn), (0x21420C0B, .add64 40 16 24 gn),
    (0x21420C1B, .sub64 40 16 24 gn), (0x21420C2B, .leaN 40 16 24 gn), (0x21420C3B, .leaI 40 16 24 gn), (0x21420C4B, .lea4N 40 16 24 gn),
    (0x21420C5B, .lea4I 40 16 24 gn), (0x21420C6B, .mulwI32 40 16 24 gn), (0x21420C7B, .mulwN32 40 16 24 gn),
    (0x2342000B, .wtestLocal 40 16 gn), (0x2342001B, .wtestShared 40 16 gn), (0x2342002B, .wtestCluster 40 16 gn),
    (0x2342003B, .wtoLocal 40 16 gn), (0x2342004B, .wtoShared 40 16 gn), (0x2342005B, .wtoCluster 40 16 gn),
    (0x2342006B, .wfromLocal 40 16 gn), (0x2342007B, .wfromShared 40 16 gn)] : List (Word × Instr)), decode x.1 = .ok x.2 := by decide +kernel
theorem test_words_3 : ∀ x ∈ ([
    (0x25420C0B, .fadd 40 16 24 gn), (0x25420C1B, .fsub 40 16 24 gn), (0x25420C2B, .fmul 40 16 24 gn), (0x25420C3B, .fmac 40 16 24 gn),
    (0x25420C4B, .fmsc 40 16 24 gn), (0x25420C5B, .fnmac 40 16 24 gn), (0x25420C6B, .fmin 40 16 24 gn), (0x25420C7B, .fmax 40 16 24 gn),
    (0x2742000B, .fabs 40 16 gn), (0x2742001B, .fneg 40 16 gn), (0x27420C2B, .fcopysign 40 16 24 gn), (0x2742003B, .fclass 40 16 gn),
    (0x2742004B, .frint 40 16 gn), (0x2742005B, .ffloor 40 16 gn), (0x2742006B, .fceil 40 16 gn), (0x2742007B, .ftrunc 40 16 gn),
    (0x28AA0C0B, .feq 2 5 16 24 gn), (0x28AA0C1B, .fne 2 5 16 24 gn), (0x28AA0C2B, .flt 2 5 16 24 gn), (0x28AA0C3B, .fle 2 5 16 24 gn),
    (0x28AA0C4B, .fgt 2 5 16 24 gn), (0x28AA0C5B, .fge 2 5 16 24 gn), (0x28AA0C6B, .fun 2 5 16 24 gn), (0x28AA0C7B, .ford 2 5 16 24 gn),
    (0x2B420C0B, .addBf16x2 40 16 24 gn), (0x2B420C1B, .mulBf16x2 40 16 24 gn), (0x2B420C2B, .fmacBf16x2 40 16 24 gn),
    (0x2B420C3B, .addF16x2 40 16 24 gn), (0x2B420C4B, .mulF16x2 40 16 24 gn), (0x2B420C5B, .fmacF16x2 40 16 24 gn),
    (0x2B420C6B, .minBf16x2 40 16 24 gn), (0x2B420C7B, .maxBf16x2 40 16 24 gn), (0x2D420C0B, .addE4m3x4 40 16 24 gn),
    (0x2D420C1B, .mulE4m3x4 40 16 24 gn), (0x2D420C2B, .addE5m2x4 40 16 24 gn), (0x2D420C3B, .mulE5m2x4 40 16 24 gn),
    (0x2D420C4B, .dot4E4m3 40 16 24 gn), (0x2D420C5B, .dot4E5m2 40 16 24 gn), (0x2D420C6B, .maxE4m3x4 40 16 24 gn),
    (0x2D420C7B, .minE4m3x4 40 16 24 gn), (0x2F42000B, .cvtF32I32 40 16 gn), (0x2F42001B, .cvtF32N32 40 16 gn),
    (0x2F42002B, .cvtI32F32 40 16 gn), (0x2F42003B, .cvtN32F32 40 16 gn)] : List (Word × Instr)), decode x.1 = .ok x.2 := by decide +kernel
theorem test_words_4 : ∀ x ∈ ([
    (0x2F420C4B, .cvtBf16x2F32 40 16 24 gn), (0x2F420C5B, .cvtF16x2F32 40 16 24 gn), (0x2F42006B, .cvtF32Bf16 40 16 gn),
    (0x2F42007B, .cvtF32F16 40 16 gn), (0x3142000B, .cvtE4m3F32 40 16 gn), (0x3142001B, .cvtE5m2F32 40 16 gn),
    (0x3142002B, .cvtF32E4m3 40 16 gn), (0x3142003B, .cvtF32E5m2 40 16 gn), (0x3142004B, .cvtF32E2m1 40 16 gn),
    (0x3142005B, .cvtF32E2m3 40 16 gn), (0x3142006B, .cvtF32E3m2 40 16 gn), (0x3142007B, .cvtF32Int4 40 16 gn),
    (0x3342000B, .qamax16 40 16 11), (0x3342001B, .qamax32 40 16 11), (0x3342002B, .qscale 40 16 11), (0x33420C3B, .qcvt 40 16 24 11),
    (0x33420C4B, .qdeq 40 16 24 11), (0x3342005B, .qesc 40 16 11), (0x33420C6B, .qside 40 16 24 11), (0x3542000B, .frcp 40 16 11),
    (0x3542001B, .frsq 40 16 11), (0x3542002B, .fsqrt 40 16 11), (0x3542003B, .fexp2 40 16 11), (0x3542004B, .flog2 40 16 11),
    (0x3542005B, .fsinpi 40 16 11), (0x3542006B, .fcospi 40 16 11), (0x35420C7B, .fdiv 40 16 24 11), (0x37420C0B, .divI32 40 16 24 11),
    (0x37420C1B, .divN32 40 16 24 11), (0x37420C2B, .remI32 40 16 24 11), (0x37420C3B, .remN32 40 16 24 11),
    (0x39420C0B, .lpick 40 16 24 11), (0x39420C1B, .lslide 40 16 24 11), (0x39420C2B, .lrot 40 16 24 11),
    (0x39420C3B, .lswap 40 16 24 11), (0x3942004B, .lbits 40 16 11), (0x3942005B, .lall 40 16 11), (0x3942006B, .redaddI32 40 16 11),
    (0x3942007B, .redmaxI32 40 16 11), (0x3B40000B, .vtrn8 40 11), (0x3B40001B, .vtrn16 40 11), (0x3B40002B, .vtrn32 40 11),
    (0x3A4A0030, .xsend 9 16), (0x3B412040, .xrecv 40 9)] : List (Word × Instr)), decode x.1 = .ok x.2 := by decide +kernel
theorem test_words_5 : ∀ x ∈ ([
    (0x3A4A0050, .xsend64 9 16), (0x3B412060, .xrecv64 40 9), (0x3D420C0B, .cmul 40 16 24 11), (0x3D420C1B, .cmac 40 16 24 11),
    (0x3D420C2B, .cmulc 40 16 24 11), (0x3D420C3B, .cmacc 40 16 24 11), (0x3D420C4B, .cadd 40 16 24 11), (0x3F41200B, .movs 40 9 gn),
    (0x4142128B, .ldI8 40 16 37 11), (0x4142129B, .ldN8 40 16 37 11), (0x414212AB, .ldI16 40 16 37 11), (0x414212BB, .ldN16 40 16 37 11),
    (0x414212CB, .ld32 40 16 37 11), (0x414212DB, .ld64 40 16 37 11), (0x414212EB, .ld128 40 16 37 11),
    (0x414212FB, .ldNt128 40 16 37 11), (0x4346528B, .ldt32 40 50 37 11), (0x4346529B, .ldt64 40 50 37 11),
    (0x434652AB, .ldt128 40 50 37 11), (0x434652BB, .ldtSdb 40 50 37 11), (0x434652CB, .ldtI8 40 50 37 11),
    (0x434652DB, .ldtN8 40 50 37 11), (0x434652EB, .ldtI16 40 50 37 11), (0x434652FB, .ldtN16 40 50 37 11),
    (0x45821385, .st8 48 16 9 6 5), (0x4582138D, .st16 48 16 9 6 5), (0x45821395, .st32 48 16 9 6 5), (0x4582139D, .st64 48 16 9 6 5),
    (0x458213A5, .st128 48 16 9 6 5), (0x458213AD, .stNt128 48 16 9 6 5), (0x458213B5, .sdbst 48 16 9 6 5),
    (0x478654EB, .stt32 48 50 41 6 gn), (0x498654EB, .stt64 48 50 41 6 gn), (0x4B8654EB, .stt128 48 50 41 6 gn),
    (0x4D420C0B, .aadd 40 16 24 11), (0x4D420C1B, .aminI32 40 16 24 11), (0x4D420C2B, .amaxI32 40 16 24 11),
    (0x4D420C3B, .aminN32 40 16 24 11), (0x4D420C4B, .amaxN32 40 16 24 11), (0x4D420C5B, .aand 40 16 24 11),
    (0x4D420C6B, .aor 40 16 24 11), (0x4D420C7B, .axor 40 16 24 11), (0x4F420C0B, .aaddSys 40 16 24 11),
    (0x4F420C1B, .aminI32Sys 40 16 24 11)] : List (Word × Instr)), decode x.1 = .ok x.2 := by decide +kernel
theorem test_words_6 : ∀ x ∈ ([
    (0x4F420C2B, .amaxI32Sys 40 16 24 11), (0x4F420C3B, .aminN32Sys 40 16 24 11), (0x4F420C4B, .amaxN32Sys 40 16 24 11),
    (0x4F420C5B, .aandSys 40 16 24 11), (0x4F420C6B, .aorSys 40 16 24 11), (0x4F420C7B, .axorSys 40 16 24 11),
    (0x51420C0B, .axch 40 16 24 11), (0x51420C1B, .acas 40 16 24 11), (0x51420C2B, .aadd64 40 16 24 11),
    (0x51420C3B, .axch64 40 16 24 11), (0x51420C4B, .acas64 40 16 24 11), (0x51420C5B, .afadd 40 16 24 11),
    (0x51420C6B, .afaddBf16x2 40 16 24 11), (0x51420C7B, .aincw 40 16 24 11), (0x53420C0B, .scall 40 16 24 11),
    (0x53420C1B, .fcall 40 16 24 11), (0x83420C0B, .uadd 40 16 24 gn), (0x83420C1B, .usub 40 16 24 gn), (0x83420C2B, .umul 40 16 24 gn),
    (0x83420C3B, .uand 40 16 24 gn), (0x83420C4B, .uor 40 16 24 gn), (0x83420C5B, .uxor 40 16 24 gn), (0x83420C6B, .ushl 40 16 24 gn),
    (0x83420C7B, .ushr 40 16 24 gn), (0x85420C0B, .usra 40 16 24 gn), (0x85420C1B, .uminI32 40 16 24 gn),
    (0x85420C2B, .umaxI32 40 16 24 gn), (0x85420C3B, .uminN32 40 16 24 gn), (0x85420C4B, .umaxN32 40 16 24 gn),
    (0x85420C5B, .umulhiN32 40 16 24 gn), (0x85420C6B, .uadd64 40 16 24 gn), (0x85420C7B, .usub64 40 16 24 gn),
    (0x87421A35, .uaddi 40 16 6709), (0x8945A3C7, .umovi 40 369607), (0x8B45A3C7, .umovh 40 369607), (0x8CAA0C0B, .ueq 2 5 16 24 gn),
    (0x8CAA0C1B, .une 2 5 16 24 gn), (0x8CAA0C2B, .ultI32 2 5 16 24 gn), (0x8CAA0C3B, .uleI32 2 5 16 24 gn),
    (0x8CAA0C4B, .ugtI32 2 5 16 24 gn), (0x8CAA0C5B, .ugeI32 2 5 16 24 gn), (0x8CAA0C6B, .ultN32 2 5 16 24 gn),
    (0x8CAA0C7B, .ugeN32 2 5 16 24 gn), (0x8F45A35B, .ldl32 40 23093 11)] : List (Word × Instr)), decode x.1 = .ok x.2 := by decide +kernel
theorem test_words_7 : ∀ x ∈ ([
    (0x9145A35B, .ldl64 40 23093 11), (0x9345A35B, .ldl128 40 23093 11), (0x95B5A5A5, .bra ⟨6, true⟩ 1418661),
    (0x97B5A5A5, .call ⟨6, true⟩ 1418661), (0x9800000B, .ret gn), (0x9802001B, .jmpr 16 gn), (0x9802002B, .callr 16 gn),
    (0x9800003B, .exit gn), (0x9802004B, .trap 16 gn), (0x9800005B, .nop gn), (0x9BB5A5A5, .divif ⟨6, true⟩ 1418661),
    (0x9C15A5A5, .divelse 1418661), (0x9E000000, .divjoin), (0xA1B5A5A5, .divloop ⟨6, true⟩ 1418661), (0xA34AE940, .fence 165 3 2 37),
    (0xA5B5A5A5, .divbrk ⟨6, true⟩ 1418661), (0xA600000B, .barWg gn), (0xA600001B, .barReel gn), (0xA6020C2B, .signal 16 24 gn),
    (0xA600003B, .yield gn), (0xA618A04B, .backoff 3 5 gn), (0xA600C05B, .regclaim 6 gn), (0xA600A06B, .reggive 5 gn),
    (0xA6120C7B, .waitv 2 16 24 gn), (0xA802000B, .tfree 16 gn), (0xA942001B, .tstate 40 16 gn), (0xA9420C2B, .tbind 40 16 24 gn),
    (0xA9420C3B, .ttag 40 16 24 gn), (0xA9420C4B, .tdom 40 16 24 gn), (0xAA020C0B, .bpost 16 24 gn), (0xAA3A0C1B, .bpostw 7 16 24 gn),
    (0xAA02002B, .kwait 16 gn), (0xAB42003B, .kpoll 40 16 gn), (0xAD42068B, .mldb 40 16 13 gn), (0xAD42001B, .mloop 40 16 gn),
    (0xAD42002B, .mzero 40 16 gn), (0xAD42003B, .mwait 40 16 gn), (0xAD42004B, .mst 40 16 gn), (0xAD42005B, .mld 40 16 gn),
    (0xAD40006B, .mpoll 40 gn), (0xAD42007B, .mabort 40 16 gn), (0xAF42000B, .xfwd 40 16 gn), (0xAF42001B, .xinv 40 16 gn),
    (0xB1420C0B, .ntail 40 16 24 gn)] : List (Word × Instr)), decode x.1 = .ok x.2 := by decide +kernel
theorem test_words_8 : ∀ x ∈ ([
    (0xB142001B, .nseq 40 16 gn), (0xB0020C2B, .nwait 16 24 gn), (0xB3420C0B, .launch 40 16 24 gn), (0xB2020C1B, .lwait 16 24 gn),
    (0xB3400C2B, .lseq 40 24 gn), (0xB541200B, .usr 40 9 gn), (0xB4028C1B, .uwr 20 24 gn), (0xB542002B, .vform 40 16 gn),
    (0xB740000B, .poolpop 40 gn), (0xB602001B, .tlbinvVa 16 gn), (0xB600002B, .tlbinvAsid gn), (0xB600003B, .eret gn),
    (0xB600203B, .eretEsc gn), (0xB740A04B, .rdfault 40 5 gn), (0xB802000B, .brk 16 gn), (0xB802001B, .mark 16 gn)] : List (Word × Instr)), decode x.1 = .ok x.2 := by decide +kernel
/-- TSET that tags is told from TSET that closes by its register, at execution (R231). -/
theorem test_words_bellows : ∀ x ∈ ([
    (0x065B4000, .bellowsAdd 9 6 13), (0x0A5B4000, .bellowsSub 9 6 13), (0x0E5B4000, .bellowsAnd 9 6 13),
    (0x125B4000, .bellowsOr 9 6 13), (0x165B4000, .bellowsXor 9 6 13), (0x1A5B4000, .bellowsShl 9 6 13),
    (0x1E5B4000, .bellowsShr 9 6 13), (0x225B4000, .bellowsMul 9 6 13), (0x26582A35, .bellowsAddi 9 6 10805),
    (0x2A402A35, .bellowsMovi 9 10805), (0x2E402A35, .insh 9 10805), (0x401B6A35, .beq 6 13 10805), (0x441B6A35, .bne 6 13 10805),
    (0x481B6A35, .bltu 6 13 10805), (0x4C1B6A35, .bgeu 6 13 10805), (0x50002A35, .jmp 10805), (0x54180000, .jr 6),
    (0x62581A35, .bellowsLd 9 6 6709), (0x62583A35, .bellowsLdG 9 6 6709), (0x641B5A35, .bellowsSt 6 13 6709),
    (0x641B7A35, .bellowsStG 6 13 6709), (0x82580000, .recv 9 6), (0x865B5234, .copy 9 6 13 4660), (0x865B6135, .copyDesc 9 6 13 309),
    (0x8A5B5234, .copyt 9 6 13 4660), (0x8A5B6135, .copytDesc 9 6 13 309), (0x8E5B6135, .gath 9 6 13 309),
    (0x925B6135, .scat 9 6 13 309), (0x965B6135, .deco 9 6 13 309), (0x9A580000, .ldct 9 6), (0x9E580000, .tsetClose 9 6),
    (0xA0000000, .fenceb), (0xA64000A5, .waitc 9 165), (0xAA402A35, .stat 9 10805), (0xAE400003, .resume 9 3),
    (0xAE40000B, .resumeDrop 9 3), (0xB0000000, .halt)] : List (Word × Instr)),
    decodeBellows x.1 = some x.2 := by decide +kernel
/-- R105, R106: the lowest reason of a word that fails several checks: DIVJOIN under g = 0, n = 1; ERET with a = 2, and with d set as well; MOVS of a number
that Table 7.13 does not list, with an odd destination. -/
theorem test_reasons : decode 0x9E000001 = .error 3 ∧ decode 0xB6004030 = .error 7 ∧ decode 0xB6084030 = .error 6 ∧ decode 0x3E2FE000 = .error 7 := by
  refine ⟨?_, ?_, ?_, ?_⟩ <;> decide +kernel

/-! ### Single steps

Expected values are the manual's own, where it works an example; else worked by hand from the rule named. -/

/-- A team of 8 active lanes at its run's first word, with register rows. -/
def eight (w : Word) (v : SMap Row) : Team :=
  let t : Team := { placedTeam with active := 255, v := v }
  { t with run := some (t.newRun [w] 0xFFFFE000 []) }
def row (x : Word) : Row := List.replicate 8 x
/-- The register of lanes 0 to 7 after an instruction of a team in issue. -/
def lanesOf (i : Instr) (v : SMap Row) (n : Nat) : List (Option Word) :=
  (List.range 8).map fun l => regOf (exec i (busy (eight 0 v) wg0)) n l
def one (i : Instr) (v : SMap Row) (n : Nat) : Option Word := regOf (exec i (busy (eight 0 v) wg0)) n 7
/-- Part of the team after an instruction. -/
def ofTeam {α : Type} (f : Team → α) (o : Host.Outcome State Fault Refusal) : Option α :=
  match o with
  | .next s => (s.teams.find? 0).map f
  | _ => none
/-- The flags lane 0 has raised in its run. -/
def flags0 (t : Team) : Option Word := t.run.map fun r => r.laneFlags.getD 0 0

/-- Fragment 1, line 1.01: p3 holds in lanes 0, 2, 5 and 7. -/
def fragment1 : SMap Row := [(0, [0xFFFFFFFD, 5, 2, 9, 4, 0xFFFFFFFF, 7, 0]), (1, row 4), (2, row 100)]
theorem test_lt : ofTeam (fun t => t.p.getD 3 0) (exec (.ltI32 0 3 0 1 ⟨0, false⟩) (busy (eight 0 fragment1) wg0)) = some 0b10100101 := by
  decide +kernel
/-- Fragment 1, line 1.02 (Table 1.1): the add acts where p3 holds. -/
theorem test_guarded_add :
    (List.range 8).map (fun l => regOf (exec (.add 2 0 1 ⟨3, false⟩) (busy { eight 0 fragment1 with p := [(3, 0b10100101)] } wg0)) 2 l) =
      [some 1, some 100, some 6, some 100, some 100, some 3, some 100, some 4] := by decide +kernel
/-- R110. -/
theorem test_add_wraps : one (.add 3 1 2 ⟨0, false⟩) [(1, row 0xFFFFFFFF), (2, row 2)] 3 = some 1 := by decide +kernel
theorem test_addsat : one (.addsatI32 3 1 2 ⟨0, false⟩) [(1, row 0x7FFFFFFF), (2, row 1)] 3 = some 0x7FFFFFFF ∧
    ofTeam (flags0) (exec (.addsatI32 3 1 2 ⟨0, false⟩) (busy (eight 0 [(1, row 0x7FFFFFFF), (2, row 1)]) wg0)) = some (some flSA) := by
  constructor <;> decide +kernel
/-- R113: the quotient rounds toward zero; a zero divisor; the signed overflow. -/
theorem test_div : one (.divI32 3 1 2 0) [(1, row 0xFFFFFFF9), (2, row 2)] 3 = some 0xFFFFFFFD ∧
    one (.remI32 3 1 2 0) [(1, row 0xFFFFFFF9), (2, row 2)] 3 = some 0xFFFFFFFF ∧
    one (.divI32 3 1 2 0) [(1, row 0x80000000), (2, row 0xFFFFFFFF)] 3 = some 0x80000000 ∧
    one (.remI32 3 1 2 0) [(1, row 0x80000000), (2, row 0xFFFFFFFF)] 3 = some 0 := by refine ⟨?_, ?_, ?_, ?_⟩ <;> decide +kernel
theorem test_div_by_zero : one (.divN32 3 1 2 0) [(1, row 9), (2, row 0)] 3 = some 0xFFFFFFFF ∧ one (.remN32 3 1 2 0) [(1, row 9), (2, row 0)] 3 = some 9 ∧
    ofTeam (flags0) (exec (.divN32 3 1 2 0) (busy (eight 0 [(1, row 9), (2, row 0)]) wg0)) = some (some flDZ) := by
  refine ⟨?_, ?_, ?_⟩ <;> decide +kernel
/-- Table 7.7: counts of the width and above. -/
theorem test_shifts : one (.shl 3 1 2 ⟨0, false⟩) [(1, row 1), (2, row 32)] 3 = some 0 ∧
    one (.sra 3 1 2 ⟨0, false⟩) [(1, row 0x80000000), (2, row 40)] 3 = some 0xFFFFFFFF ∧
    one (.rol 3 1 2 ⟨0, false⟩) [(1, row 0x80000001), (2, row 33)] 3 = some 3 := by refine ⟨?_, ?_, ?_⟩ <;> decide +kernel
/-- The manual's example of BSEL (R117). -/
theorem test_bsel : one (.bsel 6 2 1 ⟨0, false⟩) [(1, row 0x10200F04), (2, row 0x44332211), (3, row 0x88776655)] 6 = some 0x0088FF55 := by decide +kernel
/-- R117: a field past bit 31 is cut, an empty one is 0. -/
theorem test_bxt : one (.bxtI32 3 1 2 ⟨0, false⟩) [(1, row 0x80000000), (2, row 0x81C)] 3 = some 0xFFFFFFF8 ∧
    one (.bxtI32 3 1 2 ⟨0, false⟩) [(1, row 0x80000000), (2, row 0x820)] 3 = some 0 := by constructor <;> decide +kernel
/-- Table 7.22: LSLIDE by 1 and by −1. -/
theorem test_lslide : lanesOf (.lslide 3 1 2 0) [(1, [10, 11, 12, 13, 14, 15, 16, 17]), (2, row 1)] 3 =
      [some 0, some 10, some 11, some 12, some 13, some 14, some 15, some 16] ∧
    (lanesOf (.lslide 3 1 2 0) [(1, [10, 11, 12, 13, 14, 15, 16, 17]), (2, row 0xFFFFFFFF)] 3).take 2 = [some 11, some 12] := by
  constructor <;> decide +kernel
/-- R129: umovh after umovi 0x1234, with 0x45000, gives 0x8A001234; UMOVI is signed. -/
theorem test_umovh : regOf (exec (.umovh 3 0x45000) (busy (eight 0x8A1C5000 [(3, row 0x1234)]) wg0)) 3 0 = some 0x8A001234 ∧ one (.umovi 3 0x7FFFB) [] 3 = some 0xFFFFFFFB := by
  constructor <;> decide +kernel
/-- R164: 1.5 + 2^−24 is a tie that rounds to even; ∞ − ∞ is the canonical NaN and raises NV. -/
theorem test_fadd : one (.fadd 3 1 2 ⟨0, false⟩) [(1, row 0x3F800000), (2, row 0x33800000)] 3 = some 0x3F800000 ∧
    one (.fadd 3 1 2 ⟨0, false⟩) [(1, row 0x3F800001), (2, row 0x33800000)] 3 = some 0x3F800002 := by constructor <;> decide +kernel
theorem test_fsub_inf : ofTeam (fun t => (t.get 3 0, flags0 t)) (exec (.fsub 3 1 2 ⟨0, false⟩) (busy (eight 0 [(1, row 0x7F800000), (2, row 0x7F800000)]) wg0)) =
    some (0x7FC00000, some flNV) := by decide +kernel
/-- R164: the multiply-add rounds once: (1 + 2^−12)^2 − 1 = 2^−11 + 2^−24. -/
theorem test_fmac : one (.fmac 6 1 2 ⟨0, false⟩) [(1, row 0x3F800800), (2, row 0x3F800800), (3, row 0xBF800000)] 6 = some 0x3A000400 := by decide +kernel
/-- Table 8.14. -/
theorem test_frcp : ofTeam (fun t => (t.get 5 0, flags0 t)) (exec (.frcp 5 4 0) (busy (eight 0 [(4, row 0x80000000)]) wg0)) = some (0xFF800000, some flDZ) ∧
    one (.frcp 5 4 0) [(4, row 0x40000000)] 5 = some 0x3F000000 := by constructor <;> decide +kernel
/-- Table 8.21, slots 0 to 7 (FMT 0x3, RND 0), and slot 4 back through QDEQ. -/
theorem test_qcvt : (List.range 8).map (fun l => regOf (exec (.qcvt 6 4 1 0) (busy { eight 0 [(1, row 0x7F), (4, [0x3E99999A, 0xBF99999A, 0x40200000, 0x40A00000,
      0xC0E00000, 0, 0x3F3D70A4, 0x3F800000])] with qctl := 3 } wg0)) 6 l) =
    [some 1, some 0xA, some 4, some 6, some 0xF, some 0, some 1, some 2] := by decide +kernel
theorem test_qdeq : regOf (exec (.qdeq 6 4 1 0) (busy { eight 0 [(1, row 0x7F), (4, row 0xF)] with qctl := 3 } wg0)) 6 0 = some 0xC0C00000 := by decide +kernel
/-- Table 10.3. -/
theorem test_mix : mix 0x0000000100000000 0 = 0x297A7FCD ∧ mix 0x0000000100000000 1 = 0xF6E4FA98 := by constructor <;> decide +kernel
/-- The worked step of chapter 13: blocks 0, 1 and 7 of Table 13.2 onto 0x3DCCCCCD. -/
theorem test_mstep : stepTail 0x3DCCCCCD [(-17184, -10), (3073, -3), (0, 0), (0, 0), (0, 0), (0, 0), (0, 0), (8192, -48)] = (0x43B7B8CD, flNX ||| flUF) := by
  decide +kernel
/-- R3, R130: bytes lie lowest first, and LD.I8 extends the sign: the shared window starts at 2^40 and v11 holds 2^8. -/
def scratch (b : List (Nat × Byte)) : State := st { lone with v := [(6, row 0x77), (11, row 0x100)] } { wg0 with scr := b }
theorem test_load : regOf (exec (.ld32 4 10 0 15) (scratch [(0, 0x11), (1, 0x22), (2, 0x33), (3, 0x84)])) 4 0 = some 0x84332211 ∧
    regOf (exec (.ldI8 4 10 3 15) (scratch [(3, 0x84)])) 4 0 = some 0xFFFFFF84 := by constructor <;> decide +kernel
/-- R151, R190: a misaligned load aborts the lane and writes nothing. -/
theorem test_load_misaligned : regOf (exec (.ld32 4 10 0 15) (st { lone with v := [(10, row 2), (11, row 0x100)] } wg0)) 4 0 = some 0 := by decide +kernel
/-- R132: EXIT ends the team. -/
theorem test_exit : (match exec (.exit ⟨0, false⟩) (busy (team0 (run0 [0x98000030])) wg0) with | .next s => !s.teams.has 0 | _ => false) = true := by decide +kernel
/-- R225: registers g0..g15 hold 64 bits; INSH sets the bits above. -/
def bellowsAfter (i : Instr) (g : SMap DWord) (n : Nat) : Option DWord :=
  match exec i (cst { ctx0 with g := g }) with
  | .next s => (s.ctxs.find? 0).map fun c => c.g.getD n 0
  | _ => none
theorem test_bellows_sub : bellowsAfter (.bellowsSub 3 1 2) [(1, 1), (2, 2)] 3 = some 0xFFFFFFFFFFFFFFFF := by decide +kernel
theorem test_bellows_movi : bellowsAfter (.bellowsMovi 3 0x3FFF) [] 3 = some 0xFFFFFFFFFFFFFFFF := by decide +kernel
/-- A step at an event of the agenda runs it: the return of granules on core 0 is a next state. -/
theorem test_step_event : (match step { State.reset with agenda := [.event (.granuleReturn 0)] } with | .next s => s.agenda.isEmpty | _ => false) = true := by
  decide +kernel
/-- What withFetchWord places, the next step runs: ADD of a Delmer word, MOVI of a Bellows word. -/
theorem test_fetch_add : (match step (State.reset.withFetchWord 32 0x02182100) with
    | .next s => (s.teams.find? 0).map fun t => t.v.has 3
    | _ => none) = some true := by decide +kernel
theorem test_fetch_movi : (match step (State.reset.withFetchWord 32 0x28C03FFF) with
    | .next s => (s.ctxs.find? 0).map fun c => (c.g.getD 3 0, c.pc.toNat)
    | _ => none) = some (0xFFFFFFFFFFFFFFFF, 4) := by decide +kernel

end Sys2Proof.Tests
end

section
/-! SUPPORT. What power-on leaves (O60). -/

namespace Sys2Proof.Machine

/-- After power-on every register holds its Reset value. -/
theorem reg_reset (off : Nat) : State.reset.reg off = (mgmtReset off).toNat := rfl

/-- Past the device's own registers, the Reset value of all but the template's control is that of its block. -/
theorem mgmtReset_blocks (off : Nat) (h : 0x1000 ≤ off) (h8 : off ≠ 0x9020) : mgmtReset off =
    if 0x1000 ≤ off ∧ off < 0x2000 ∧ off % 0x100 = 0 then 0x640004
    else if 0x1000000 ≤ off ∧ off < 0x1000000 + 0x1000 * 672 ∧ off % 0x200 = 0x20 then 1 else 0 := by
  unfold mgmtReset
  rw [if_neg (by change ¬off = 0; omega), if_neg (by change ¬off = 8; omega), if_neg (by change ¬off = 0x18; omega),
    if_neg (by change ¬off = 0x9020; exact h8)]
  simp only [Bool.and_eq_true, decide_eq_true_eq, beq_iff_eq, and_assoc]

/-- The Reset value of LDCTL (Table 21.2). -/
theorem reg_reset_ldctl (ld : Nat) (h : ld < 16) : State.reset.reg (oLdctl ld) = 0x640004 := by
  have e : oLdctl ld = 0x1000 + 0x100 * ld := rfl
  rw [reg_reset, mgmtReset_blocks _ (by omega) (by omega), if_pos (by omega)]
  rfl

/-- The Reset value of a partition's slot control (Table 5.9). -/
theorem reg_reset_slotCtl (pt : Nat) (h : pt < 5376) : State.reset.reg (oSlotCtl pt) = 1 := by
  have e : oSlotCtl pt = 0x1000000 + 0x1000 * (pt / 8) + 0x200 * (pt % 8) + 0x20 := rfl
  rw [reg_reset, mgmtReset_blocks _ (by omega) (by omega), if_neg (by omega), if_pos (by omega)]
  rfl

/-- The template's slots and every register of queues, chains and peers are 0 at Reset (Tables 5.9, 18.2). -/
theorem reg_reset_zero (off : Nat) (h : 0x9000 ≤ off) (h' : off < 0x1000000) (h8 : off ≠ 0x9020) : State.reset.reg off = 0 := by
  rw [reg_reset, mgmtReset_blocks _ (by omega) h8, if_neg (by omega), if_neg (by omega)]
  rfl

/-- A launch queue holds nothing and does not run. -/
theorem lq_reset (q : Nat) (h : q < 256) :
    State.reset.lqCount q = 0 ∧ State.reset.lqPrefix q = 0 ∧ State.reset.lqRun q = false := by
  have e : oLq q = 0x10000 + 0x40 * q := rfl
  have hz (o : Nat) (ho : o < 0x40) : State.reset.reg (oLq q + o) = 0 := reg_reset_zero _ (by omega) (by omega) (by omega)
  refine ⟨hz 0x10 (by decide), hz 0x18 (by decide), ?_⟩
  rw [State.lqRun, oLqcfg, hz 8 (by decide)]
  rfl

/-- Settles O60: each register's Reset value is that of its block, and every table of entities is empty. -/
theorem resetState : Obligations.ResetState := by
  unfold Obligations.ResetState
  refine ⟨Memory.wf_nil, fun _ => rfl, rfl, rfl, rfl, rfl, reg_reset_ldctl, reg_reset_slotCtl, fun i h => ?_, lq_reset, fun _ => rfl,
    rfl, rfl, rfl, rfl, rfl⟩
  have e : oTemplate i = 0x9000 + 4 * i := rfl
  exact reg_reset_zero _ (by omega) (by omega) (by omega)

end Sys2Proof.Machine
end

section
/-! SUPPORT. Records of the collector, and what memory and record operations leave of the tables: the registers of chains, peers, landings
and endpoints (from 0x100000 on), and each tenant's clusters. -/

namespace Sys2Proof.Machine

/-! ### The frame of the tables -/

/-- The registers from 0x100000 on and the tenants' clusters stay. -/
structure TableFrame (s s' : State) : Prop where
  reg : ∀ off, 0x100000 ≤ off → s'.reg off = s.reg off
  clusters : ∀ k, (s'.tenant k).clusters = (s.tenant k).clusters

theorem TableFrame.refl (s : State) : TableFrame s s := ⟨fun _ _ => rfl, fun _ => rfl⟩

theorem TableFrame.trans {a b c : State} (h : TableFrame a b) (h' : TableFrame b c) : TableFrame a c :=
  ⟨fun off ho => (h'.reg off ho).trans (h.reg off ho), fun k => (h'.clusters k).trans (h.clusters k)⟩

/-- An update of other fields keeps both. -/
theorem TableFrame.of_eq {s s' : State} (hm : s'.mgmt = s.mgmt) (ht : s'.tenants = s.tenants) : TableFrame s s' :=
  ⟨fun off _ => by simp only [State.reg, hm], fun k => by simp only [State.tenant, ht]⟩

theorem TableFrame.foldl {α : Type} (f : State → α → State) (hf : ∀ b a, TableFrame b (f b a)) (l : List α) (s : State) :
    TableFrame s (l.foldl f s) :=
  foldl_keeps (TableFrame s) f (fun _ _ h => h.trans (hf _ _)) l s (.refl s)

theorem tables_setReg (s : State) (off v : Nat) (h : off < 0x100000) : TableFrame s (s.setReg off v) :=
  ⟨fun o ho => by rw [State.reg_setReg, if_neg (by omega)], fun _ => rfl⟩

theorem tenant_setTenant (s : State) (n k : Nat) (t : Tenant) : (s.setTenant n t).tenant k = if k = n then t else s.tenant k :=
  SMap.getD_insert s.tenants n k t Tenant.empty

theorem tables_setTenant (s : State) (n : Nat) (t : Tenant) (h : t.clusters = (s.tenant n).clusters) : TableFrame s (s.setTenant n t) := by
  refine ⟨fun _ _ => rfl, fun k => ?_⟩
  rw [tenant_setTenant]
  split
  · next hk => rw [hk, h]
  · rfl

/-! ### Writes to memory -/

theorem tables_putBlock (s : State) (spa : Nat) (bytes : List Byte) (kt : Nat) : TableFrame s (s.putBlock spa bytes kt) := by
  unfold State.putBlock
  dsimp only
  split
  · exact .of_eq rfl rfl
  · split
    · exact .refl s
    · split <;> exact .of_eq rfl rfl

theorem tables_putMirrored (s : State) (spa : Nat) (bytes : List Byte) (kt : Nat) : TableFrame s (s.putMirrored spa bytes kt) :=
  (tables_putBlock s spa bytes kt).trans (.foldl _ (fun _ _ => tables_putBlock _ _ _ _) _ _)

theorem tables_putEntry (s : State) (a e : Nat) : TableFrame s (s.putEntry a e) := by
  unfold State.putEntry
  split <;> exact .of_eq rfl rfl

theorem tables_zeroFrame (s : State) (f kt : Nat) : TableFrame s (s.zeroFrame f kt) := .of_eq rfl rfl

theorem tables_takeTable (s s' : State) (ten f : Nat) (he : s.takeTable ten = some (f, s')) : TableFrame s s' := by
  unfold State.takeTable at he
  split at he
  · cases he
  · cases he
    refine TableFrame.trans (tables_setTenant _ _ _ ?_) (tables_zeroFrame _ _ _)
    rfl

theorem tables_s2Slot (ten gpa fuel tbl a : Nat) (s s' : State) (he : s.s2Slot ten gpa fuel tbl = some (a, s')) : TableFrame s s' := by
  induction fuel generalizing s tbl with
  | zero => cases he
  | succ n ih =>
    unfold State.s2Slot at he
    dsimp only at he
    split at he
    · cases he
    · split at he
      · cases he; exact .refl _
      · split at he
        · split at he
          · cases he
          · exact ih _ _ he
        · split at he
          · cases he
          · next f t ht => exact ((tables_takeTable _ _ _ _ ht).trans (tables_putEntry _ _ _)).trans (ih _ _ he)

theorem tables_s2Set_getD (s : State) (ten gpa e : Nat) : TableFrame s ((s.s2Set ten gpa e).getD s) := by
  have h : ∀ t, s.s2Set ten gpa e = some t → TableFrame s t := by
    intro t ht
    unfold State.s2Set at ht
    split at ht
    · next a u hu => cases ht; exact (tables_s2Slot _ _ _ _ _ _ _ hu).trans (tables_putEntry _ _ _)
    · cases ht
  cases ht : s.s2Set ten gpa e with
  | none => exact .refl s
  | some t => exact h t ht

theorem tables_takeReserve (s s' : State) (ten : Nat) (l : Bool) (f : Nat) (he : s.takeReserve ten l = some (f, s')) :
    TableFrame s s' := by
  unfold State.takeReserve at he
  dsimp only at he
  repeat' split at he
  all_goals cases he <;> exact tables_setTenant _ _ _ rfl

theorem tables_unpack (s : State) (img : Nat) (im : Image) (f : Nat) : TableFrame s (s.unpack img im f) := by
  have h : TableFrame s (s.layOut img im f) := .of_eq rfl rfl
  unfold State.unpack
  exact h.trans (tables_s2Set_getD _ _ _ _)

theorem tables_startShoot (s : State) (ini : Nat) (sc : ShootScope) (fin : ShootDone) : TableFrame s (s.startShoot ini sc fin) :=
  .of_eq rfl rfl
theorem tables_moveCached (s : State) (src dst : Nat) : TableFrame s (s.moveCached src dst) := by
  have h (c : SMap Nat) (a : NSet) (b : List BiW) (o : List Out) : TableFrame s
      { s with hostCached := c, biAsked := a, biWait := b, outs := o } := .of_eq rfl rfl
  simp only [State.moveCached]
  exact h _ _ _ _

theorem tables_decompress (s : State) (img : Nat) : TableFrame s (s.decompress img) := by
  unfold State.decompress
  split
  · exact .refl s
  · dsimp only
    split
    · exact (tables_unpack _ _ _ _).trans (tables_startShoot _ _ _ _)
    · next f t ht =>
      have hf (m : SMap Nat) : TableFrame t { t with forwards := m } := .of_eq rfl rfl
      exact ((((tables_takeReserve _ _ _ _ _ ht).trans (hf _)).trans (tables_unpack _ _ _ _)).trans
        (tables_moveCached _ _ _)).trans (tables_startShoot _ _ _ _)

theorem tables_noteSys (s : State) (a : Nat) : TableFrame s (s.noteSys a) := .of_eq rfl rfl

theorem tables_putSys (s : State) (spa : Nat) (bytes : List Byte) (kt : Nat) : TableFrame s (s.putSys spa bytes kt) := by
  unfold State.putSys
  refine .foldl _ (fun t p => ?_) _ _
  dsimp only
  refine TableFrame.trans (TableFrame.trans ?_ (tables_putMirrored _ _ _ _)) (tables_noteSys _ _)
  split
  · exact tables_decompress _ _
  · exact .refl t

theorem tables_askLine (s : State) (line : Nat) : TableFrame s (s.askLine line) := by
  unfold State.askLine
  split <;> exact .of_eq rfl rfl

theorem tables_hostWait (s : State) (w : Writer) (ten : Option Nat) (spa : Nat) (bytes : List Byte) (kt : Nat) :
    TableFrame s (s.hostWait w ten spa bytes kt) := by
  unfold State.hostWait
  split
  · exact (tables_askLine s _).trans (.of_eq rfl rfl)
  · exact .refl s

theorem tables_writeHost (s : State) (w : Writer) (ten : Option Nat) (spa : Nat) (bytes : List Byte) (kt : Nat) :
    TableFrame s (s.writeHost w ten spa bytes kt) := by
  unfold State.writeHost
  exact (TableFrame.foldl _ (fun _ _ => tables_hostWait _ _ _ _ _ _) _ _).trans (tables_putSys _ _ _ _)

/-! ### Error records -/

/-- The logical devices that a record names lie below `b`. -/
def Err.Within (e : Err) (b : Nat) : Prop := (∀ t ∈ e.ten, t < b) ∧ ∀ l ∈ e.ld, l < b

/-- A record concerns the devices it names, or bound ones. -/
theorem concerned_lt (s : State) (e : Err) (b : Nat) (hb : 16 ≤ b) (h : e.Within b) : ∀ ld ∈ s.concerned e, ld < b := by
  intro ld hld
  obtain ⟨ht, hl⟩ := h
  unfold State.concerned at hld
  split at hld
  · next t l et el =>
    have := ht t et
    have := hl l el
    split at hld <;> simp at hld <;> omega
  · next t et _ =>
    have := ht t et
    simp at hld
    omega
  · next l _ el =>
    have := hl l el
    simp at hld
    omega
  · simp at hld
    omega

theorem tables_collect (s : State) (src : Nat) (e : Err) : TableFrame s (s.collect src e).1 := by
  have h (r : List (BitVec 512)) (q : SMap Nat) : TableFrame s { s with seq := q, records := r } := .of_eq rfl rfl
  unfold State.collect
  exact (h _ _).trans (tables_setReg _ _ _ (by decide))

theorem tables_raiseEvents (s : State) (ld next : Nat) (h : ld < 256) : TableFrame s (s.raiseEvents ld next) := by
  have ho : oEvtail ld = 0x1000 + 0x100 * ld + 0x20 := rfl
  have hn (m : SMap Nat) : TableFrame s { s with ringNext := m } := .of_eq rfl rfl
  have he (t : State) (o : Out) : TableFrame t (t.emit o) := .of_eq rfl rfl
  have h' (m : SMap Nat) (c : Prop) [Decidable c] (v : Nat) : TableFrame s
      (if c then { s with ringNext := m } else ({ s with ringNext := m }.setReg (oEvtail ld) v).emit (.msix ld 0)) := by
    split
    · exact hn m
    · exact ((hn m).trans (tables_setReg _ _ _ (by omega))).trans (he _ _)
  unfold State.raiseEvents State.raiseTail
  exact h' _ _ _

theorem tables_evPost (s : State) (ld : Nat) (r : BitVec 512) (typ : Nat) (h : ld < 256) : TableFrame s (s.evPost ld r typ) := by
  have hp : TableFrame s (s.evPut ld (eventOf r typ)).1 := by
    unfold State.evPut
    dsimp only
    split
    · exact .refl s
    · split
      · exact (tables_writeHost _ _ _ _ _ _).trans (tables_raiseEvents _ _ _ h)
      · exact tables_raiseEvents _ _ _ h
  unfold State.evPost
  split
  · next t ht => rw [ht] at hp; exact hp
  · next t ht => rw [ht] at hp; exact hp.trans (tables_collect _ _ _)

theorem tables_report (s : State) (src : Nat) (e : Err) (h : e.Within 256) : TableFrame s (s.report src e) := by
  have hc := tables_collect s src e
  unfold State.report
  generalize s.collect src e = x at *
  obtain ⟨t, r⟩ := x
  dsimp only
  have hl := concerned_lt t e 256 (by decide) h
  generalize t.concerned e = lds at hl ⊢
  refine hc.trans ?_
  clear hc
  induction lds generalizing t with
  | nil => exact .refl t
  | cons ld lds ih =>
    exact (tables_evPost t ld r 1 (hl ld (by simp))).trans (ih _ fun l h => hl l (by simp [h]))

/-- Without event rings a record goes to the collector alone (R390). -/
theorem report_quiet (s : State) (src : Nat) (e : Err) (hq : s.Quiet) (h : e.Within 16) : s.report src e = (s.collect src e).1 := by
  have hr : ∀ ld < 16, ringBase ((s.collect src e).1.reg (oEvbase ld)) = 0 := by
    intro ld hld
    have ho : oEvbase ld = 0x1000 + 0x100 * ld + 0x10 := rfl
    have hs : oElstat = 0x10 := rfl
    have he : ∀ k, oEvtail k = 0x1000 + 0x100 * k + 0x20 := fun _ => rfl
    rw [(side_collect s src e).2 _ (by omega) (fun k => by have := he k; omega)]
    exact hq ld hld
  unfold State.report
  generalize s.collect src e = x at *
  obtain ⟨t, r⟩ := x
  dsimp only at hr ⊢
  have hl := concerned_lt t e 16 le_rfl h
  generalize t.concerned e = lds at hl
  induction lds with
  | nil => rfl
  | cons ld lds ih =>
    have hp : t.evPost ld r 1 = t := by
      simp only [State.evPost, State.evPut, hr ld (hl ld (by simp)), decide_true, Bool.true_or, if_true]
    rw [List.foldl_cons, hp]
    exact ih fun l h => hl l (by simp [h])

/-- What is collected is one record, with its source's next number. -/
theorem collect_reports (s : State) (src : Nat) (e : Err) : Reports s (s.collect src e).1 src e := by
  unfold Reports State.collect State.takeSeq
  dsimp only [State.setReg_records]
  by_cases h : 4096 ≤ s.records.length <;> simp only [h, decide_true, decide_false, if_true, if_false, Bool.false_eq_true]

theorem collect_outs (s : State) (src : Nat) (e : Err) : (s.collect src e).1.outs = s.outs := by
  cases s; rfl

/-- A record without event rings is one record more, and leaves memory and what is sent alone. -/
theorem report_quiet_reports (s : State) (src : Nat) (e : Err) (hq : s.Quiet) (h : e.Within 16) : Reports s (s.report src e) src e := by
  rw [report_quiet s src e hq h]
  exact collect_reports s src e

theorem report_quiet_mem (s : State) (src : Nat) (e : Err) (hq : s.Quiet) (h : e.Within 16) : (s.report src e).mem = s.mem := by
  rw [report_quiet s src e hq h, mem_collect]

theorem report_quiet_outs (s : State) (src : Nat) (e : Err) (hq : s.Quiet) (h : e.Within 16) : (s.report src e).outs = s.outs := by
  rw [report_quiet s src e hq h, collect_outs]

theorem tables_tagFail (s : State) (ten gpa spa : Nat) (h : ten < 256) : TableFrame s (s.tagFail (some ten) gpa spa) := by
  have hm : TableFrame s (s.markBad spa) := by
    unfold State.markBad
    split <;> exact .of_eq rfl rfl
  unfold State.tagFail
  exact hm.trans (tables_report _ _ _ ⟨by simpa using h, by simp⟩)

end Sys2Proof.Machine
end

section
/-! SUPPORT. Stoker and mailbox commands and register writes: how each is carried out and ends (O54). -/

namespace Sys2Proof.Machine

/-! ### The status registers -/

/-- A status below 256 with BUSY in bit 8. -/
theorem statusBits (st : Nat) (busy : Bool) (h : st < 256) :
    natBits (st + if busy then 256 else 0) 0 8 = st ∧ natBit (st + if busy then 256 else 0) 8 = busy := by
  cases busy <;> simp [natBits, natBit] <;> omega

theorem reg_setReg_self (s : State) (off v : Nat) (h : v < 2 ^ 64) : (s.setReg off v).reg off = v := by
  rw [State.reg_setReg, if_pos rfl, Nat.mod_eq_of_lt h]

/-- A host writes the registers of its own logical device. -/
theorem hostOf_ld (ld : BitVec 4) : hostOf (ld.setWidth 5) = some ld.toNat := by
  have h : (ld.setWidth 5).toNat = ld.toNat := by
    rw [BitVec.toNat_setWidth]
    exact Nat.mod_eq_of_lt (by have := ld.isLt; omega)
  unfold hostOf
  rw [h, if_pos ld.isLt]

theorem ownsTenant_ld (s : State) (ld : BitVec 4) (h : s.bound ld.toNat = true) : s.ownsTenant (ld.setWidth 5) ld.toNat = true := by
  simp [State.ownsTenant, hostOf_ld, h]

/-! ### Stoker commands (R356) -/

theorem rangeCmd_status (s : State) (ld : Nat) (b : List Byte) (flags states : List Nat) (f : State → Option State) :
    (rangeCmd s ld b flags states f).2.1 ≤ 4 := by
  unfold rangeCmd
  repeat' split
  all_goals simp

theorem cmdAsid_status (s : State) (ld : Nat) (b : List Byte) : (cmdAsid s ld b).2.1 ≤ 4 := by
  unfold cmdAsid
  repeat' split
  all_goals simp

theorem cmdFreeasid_status (s : State) (ld : Nat) (b : List Byte) : (cmdFreeasid s ld b).2.1 ≤ 4 := by
  unfold cmdFreeasid
  split <;> simp

theorem cmdLand_status (s : State) (ld : Nat) (b : List Byte) : (cmdLand s ld b).2.1 ≤ 4 := by
  unfold cmdLand
  dsimp only
  repeat' split
  all_goals simp

theorem cmdApert_status (s : State) (ld : Nat) (b : List Byte) : (cmdApert s ld b).2.1 ≤ 4 := by
  unfold cmdApert
  dsimp only
  generalize (if natBit (cmdFl b) 3 = true then 0 else blkNat b 34 1) = xf
  repeat' split
  all_goals simp

theorem cmdApfree_status (s : State) (ld : Nat) (b : List Byte) : (cmdApfree s ld b).2.1 ≤ 4 := by
  unfold cmdApfree
  dsimp only
  repeat' split
  all_goals simp

/-- Table 21.5 has the statuses 0 to 4. -/
theorem stokerCmd_status (s : State) (ld : Nat) (b : List Byte) : (stokerCmd s ld b).2.1 ≤ 4 := by
  unfold stokerCmd
  split
  · exact rangeCmd_status _ _ _ _ _ _
  · exact rangeCmd_status _ _ _ _ _ _
  · exact rangeCmd_status _ _ _ _ _ _
  · exact rangeCmd_status _ _ _ _ _ _
  · exact cmdAsid_status _ _ _
  · exact cmdFreeasid_status _ _ _
  · exact cmdLand_status _ _ _
  · exact cmdApert_status _ _ _
  · exact cmdApfree_status _ _ _
  · simp

/-- A write of a tenant's memory, where it takes place, is a memory operation. -/
theorem side_writeGpa_getD (s : State) (ten gpa : Nat) (bytes : List Byte) (kt : Nat) :
    MemorySide s ((s.writeGpa ten gpa bytes kt).getD s) := by
  cases he : s.writeGpa ten gpa bytes kt with
  | none => exact .rfl' s
  | some t => exact side_writeGpa _ _ _ _ _ _ _ he

theorem side_apAlloc {s s' : State} (h : MemorySide s s') : s'.apAlloc = s.apAlloc := by rw [h.1]
theorem side_flash {s s' : State} (h : MemorySide s s') : s'.flash = s.flash := by rw [h.1]
theorem side_resetting {s s' : State} (h : MemorySide s s') : s'.resetting = s.resetting := by rw [h.1]
theorem side_mr {s s' : State} (h : MemorySide s s') : s'.mr = s.mr := by rw [h.1]
theorem side_hartsDown {s s' : State} (h : MemorySide s s') : s'.hartsDown = s.hartsDown := by rw [h.1]
theorem side_nreqs {s s' : State} (h : MemorySide s s') : s'.nreqs = s.nreqs := by rw [h.1]
theorem side_portsDown {s s' : State} (h : MemorySide s s') : s'.portsDown = s.portsDown := by rw [h.1]

/-- A host's command that the Stoker can take is carried out at once. -/
theorem command_eq_skRun (s : State) (ld : BitVec 4) (blk op : Nat) (hb : s.bound ld.toNat = true)
    (hbusy : natBit (s.reg (oSkstat ld.toNat)) 8 = false) (hup : s.hartUp ld.toNat = true) (hop : s.opOf ld.toNat blk = some op) :
    s.command ld blk op = s.skRun ld.toNat (natBits blk 6 46 * 64) := by
  simp [State.command, State.skcmd, State.mayLd, hop, ownsTenant_ld s ld hb, hbusy, hup]

/-- The command of a block is done: `r` what it makes of the state in which the block has been read. Its result stands in the block,
and SKSTAT holds its status, with BUSY while shootdowns of it go on. -/
theorem stokerCommand_ends {i : Instr} {s s1 : State} {ld : BitVec 4} {blk op : Nat} {b : List Byte} {r : CmdOut}
    (hi : exec i s = .next (s.command ld blk op)) (hr : stokerCmd s1 ld.toNat b = r)
    (hb : s.bound ld.toNat = true) (hbusy : natBit (s.reg (oSkstat ld.toNat)) 8 = false) (hup : s.hartUp ld.toNat = true)
    (hread : s.readGpa ld.toNat (natBits blk 6 46 * 64) 64 (s.hostKtag ld.toNat) = (s1, some b)) (hop : s.opOf ld.toNat blk = some op) :
    let t' := (r.1.writeGpa ld.toNat (natBits blk 6 46 * 64 + 56) (natLE 8 r.2.2) (r.1.hostKtag ld.toNat)).getD r.1
    exec i s = .next (t'.setReg (oSkstat ld.toNat) (r.2.1 + if t'.cmdPending ld.toNat then 256 else 0)) ∧
    Completes i s fun s' => natBits (s'.reg (oSkstat ld.toNat)) 0 8 = r.2.1 ∧
      natBit (s'.reg (oSkstat ld.toNat)) 8 = s'.cmdPending ld.toNat ∧ s'.apAlloc = r.1.apAlloc := by
  intro t'
  have e : exec i s = .next (t'.setReg (oSkstat ld.toNat) (r.2.1 + if t'.cmdPending ld.toNat then 256 else 0)) := by
    subst hr
    rw [hi, command_eq_skRun s ld blk op hb hbusy hup hop, State.skRun, hread]
  have hst : r.2.1 ≤ 4 := hr ▸ stokerCmd_status s1 ld.toNat b
  have hap : t'.apAlloc = r.1.apAlloc := side_apAlloc (side_writeGpa_getD _ _ _ _ _)
  obtain ⟨hlow, hbit⟩ := statusBits r.2.1 (t'.cmdPending ld.toNat) (by omega)
  refine ⟨e, _, e, ?_, ?_, hap⟩
  · rw [reg_setReg_self _ _ _ (by split <;> omega)]
    exact hlow
  · rw [reg_setReg_self _ _ _ (by split <;> omega)]
    exact hbit

/-! ### Mailbox commands (R391, Table 23.7) -/

theorem mbDo_status (s : State) (ld a : Nat) (b : List Byte) : (s.mbDo ld a b).2.1 ≤ 4 := by
  unfold State.mbDo
  dsimp only
  repeat' split
  all_goals simp

/-- The state of a mailbox whose command is taken, BUSY, alone. -/
def State.mailTaken (s : State) (ld a : Nat) : State :=
  { s with mbox := [(ld, a)] }.setReg (oMbstat ld) (natPut (s.reg (oMbstat ld)) 8 1 1)

/-- A mailbox command that finds every mailbox idle is carried out at once; it stays at the head while its effects go on. -/
theorem mailCommand_eq (s : State) (ld : BitVec 4) (blk op : Nat) (hb : s.bound ld.toNat = true) (hup : s.chimneyUp = true)
    (hbusy : natBit (s.reg (oMbstat ld.toNat)) 8 = false) (hbox : s.mbox = []) (hop : s.opOf ld.toNat blk = some op) :
    s.mailCommand ld blk op =
      let r := (s.mailTaken ld.toNat (natBits blk 6 46 * 64)).mbRun ld.toNat (natBits blk 6 46 * 64)
      if r.2 then r.1 else r.1.mailboxEnd ld.toNat := by
  have hup' : (s.mailTaken ld.toNat (natBits blk 6 46 * 64)).chimneyUp = true := hup
  have e : s.mailCommand ld blk op = (s.mailTaken ld.toNat (natBits blk 6 46 * 64)).mbNext 1 := by
    simp [State.mailCommand, State.mbcmd, hop, ownsTenant_ld s ld hb, hbusy, hbox, State.mailTaken]
  have hbox' : (s.mailTaken ld.toNat (natBits blk 6 46 * 64)).mbox = [(ld.toNat, natBits blk 6 46 * 64)] := rfl
  rw [e]
  unfold State.mbNext
  rw [hbox']
  dsimp only
  rw [hup']
  generalize (s.mailTaken ld.toNat (natBits blk 6 46 * 64)).mbRun ld.toNat (natBits blk 6 46 * 64) = r
  obtain ⟨t, on⟩ := r
  cases on <;> rfl

/-- The record of a refused command. -/
def mailErr (ld op : Nat) : Err := { cat := 7, code := 2, ten := some ld, ld := some ld, aux0 := op }
/-- The state after a command with its status: a refused command is recorded. -/
def State.mailReported (s : State) (ld op st : Nat) : State :=
  if 1 ≤ st ∧ st ≤ 3 then s.report srcChimney (mailErr ld op) else s

theorem mbRun_eq (s s1 s2 : State) (ld a st : Nat) (b : List Byte) (on : Bool)
    (hread : s.readGpa ld a 128 (s.hostKtag ld) = (s1, some b)) (hdo : s1.mbDo ld a b = (s2, st, on)) (hop : cmdOp b ≠ 2) :
    s.mbRun ld a = ((s2.mailReported ld (cmdOp b) st).setReg (oMbstat ld) (256 + st), on) := by
  simp [State.mbRun, hread, hop, hdo, State.mailReported, mailErr]

theorem side_mailReported (s : State) (ld op st : Nat) : MemorySide s (s.mailReported ld op st) := by
  unfold State.mailReported
  split
  · exact side_report _ _ _
  · exact .rfl' s

theorem tables_mailReported (s : State) (ld op st : Nat) (h : ld < 256) : TableFrame s (s.mailReported ld op st) := by
  unfold State.mailReported
  split
  · exact tables_report _ _ _ ⟨by simpa [mailErr] using h, by simpa [mailErr] using h⟩
  · exact .refl s

/-- A mailbox command leaves its status, with BUSY only while its effects go on. -/
theorem mailDone_reg (t : State) (ld st : Nat) (on : Bool) (h : st < 256) :
    (if on then t.setReg (oMbstat ld) (256 + st) else (t.setReg (oMbstat ld) (256 + st)).mailboxEnd ld).reg (oMbstat ld) =
      st + (if on then 256 else 0) := by
  have hr : (t.setReg (oMbstat ld) (256 + st)).reg (oMbstat ld) = 256 + st := reg_setReg_self _ _ _ (by omega)
  cases on
  · have hp : natPut (256 + st) 8 1 0 = st := by
      simp only [natPut, natBits]
      omega
    simp only [Bool.false_eq_true, if_false, State.mailboxEnd, hr, hp]
    exact reg_setReg_self _ _ _ (by omega)
  · simp only [if_true, hr]
    omega

/-- A mailbox command, alone, is done as `mbDo` says and ends with its status. -/
theorem mailCommand_ends {i : Instr} {s s1 s2 : State} {ld : BitVec 4} {blk op st : Nat} {b : List Byte} {on : Bool}
    (hi : exec i s = .next (s.mailCommand ld blk op)) (hop2 : op ≠ 2) (hb : s.bound ld.toNat = true) (hup : s.chimneyUp = true)
    (hbusy : natBit (s.reg (oMbstat ld.toNat)) 8 = false) (hbox : s.mbox = [])
    (hread : (s.mailTaken ld.toNat (natBits blk 6 46 * 64)).readGpa ld.toNat (natBits blk 6 46 * 64) 128
      ((s.mailTaken ld.toNat (natBits blk 6 46 * 64)).hostKtag ld.toNat) = (s1, some b))
    (hdo : s1.mbDo ld.toNat (natBits blk 6 46 * 64) b = (s2, st, on)) (hop : s.opOf ld.toNat blk = some op) (hcmd : cmdOp b = op) :
    let t := s2.mailReported ld.toNat op st
    exec i s = .next (if on then t.setReg (oMbstat ld.toNat) (256 + st) else
      (t.setReg (oMbstat ld.toNat) (256 + st)).mailboxEnd ld.toNat) ∧
    Completes i s fun s' => s'.reg (oMbstat ld.toNat) = st + (if on then 256 else 0) ∧ s'.resetting = s2.resetting ∧ s'.mr = s2.mr ∧
      s'.hartsDown = s2.hartsDown ∧ ∀ k, (s'.tenant k).clusters = (s2.tenant k).clusters := by
  intro t
  have e : exec i s = .next (if on then t.setReg (oMbstat ld.toNat) (256 + st) else
      (t.setReg (oMbstat ld.toNat) (256 + st)).mailboxEnd ld.toNat) := by
    rw [hi, mailCommand_eq s ld blk op hb hup hbusy hbox hop, mbRun_eq _ _ _ _ _ _ _ _ hread hdo (hcmd ▸ hop2), hcmd]
  have hst : st ≤ 4 := by
    have := mbDo_status s1 ld.toNat (natBits blk 6 46 * 64) b
    rwa [hdo] at this
  have hside := side_mailReported s2 ld.toNat op st
  have htab := tables_mailReported s2 ld.toNat op st (by have := ld.isLt; omega)
  refine ⟨e, _, e, mailDone_reg t ld.toNat st on (by omega), ?_⟩
  have hkept : t.resetting = s2.resetting ∧ t.mr = s2.mr ∧ t.hartsDown = s2.hartsDown ∧ ∀ k, (t.tenant k).clusters = (s2.tenant k).clusters :=
    ⟨side_resetting hside, side_mr hside, side_hartsDown hside, htab.clusters⟩
  cases on <;> exact hkept

end Sys2Proof.Machine
end

section
/-! SUPPORT. Commands and register writes. -/

namespace Sys2Proof.Machine

/-! ### What a mailbox command does (Table 23.7) -/

section
variable (s : State) (ld a : Nat) (b : List Byte)

theorem mbDo_corereset (hadm : s.isAdmin ld = true) (hop : cmdOp b = 1) : s.mbDo ld a b = (s.atH0.coreResetBegin, 0, true) := by
  simp [State.mbDo, hop, hadm]

theorem mbDo_clmask (hadm : s.isAdmin ld = true) (hop : cmdOp b = 3) (hd : blkNat b 8 1 < 16) : s.mbDo ld a b =
    (s.setTenant (blkNat b 8 1) { s.tenant (blkNat b 8 1) with clusters := BitVec.ofNat 88 (blkNat b 16 11 % 2 ^ 84) }, 0, false) := by
  simp [State.mbDo, hop, hadm, Nat.not_le.mpr hd]

theorem mbDo_starthart (hadm : s.isAdmin ld = true) (hop : cmdOp b = 4) (hd : blkNat b 8 1 < 4) : s.mbDo ld a b =
    if s.hartsDown.has (blkNat b 8 1) then
      ({ s with hartsDown := s.hartsDown.erase (blkNat b 8 1) }.skResume (blkNat b 8 1), 0, false)
    else (s, 3, false) := by
  cases h : s.hartsDown.has (blkNat b 8 1) <;> simp [State.mbDo, hop, hadm, Nat.not_le.mpr hd, h]

theorem mbDo_scrub_bound (hadm : s.isAdmin ld = true) (hop : cmdOp b = 5) (hd : blkNat b 8 1 < 16) (hb : s.bound (blkNat b 8 1) = true) :
    s.mbDo ld a b = (s, 3, false) := by
  simp [State.mbDo, hop, hadm, Nat.not_le.mpr hd, hb]

theorem mbDo_scrub (hadm : s.isAdmin ld = true) (hop : cmdOp b = 5) (hd : blkNat b 8 1 < 16) (hb : s.bound (blkNat b 8 1) = false) :
    (s.mbDo ld a b).1 = s.scrub ld (blkNat b 8 1) ∧ (s.mbDo ld a b).2.1 = 0 := by
  simp [State.mbDo, hop, hadm, Nat.not_le.mpr hd, hb]

theorem mbDo_obswrite (t : State) (hadm : s.isAdmin ld = true) (hop : cmdOp b = 6) (hreg : obsReg (blkNat b 8 8) = true)
    (ht : (if coreDomainReg (blkNat b 8 8) then s.atH0 else s).obsPut (blkNat b 8 8) (blkNat b 16 8) = some t) :
    s.mbDo ld a b = (t, 0, false) := by
  simp [State.mbDo, hop, hadm, hreg, ht]

/-- An admin's ERRREAD is of every record. -/
theorem mbDo_errread (t : State) (hadm : s.isAdmin ld = true) (hop : cmdOp b = 7)
    (ht : s.copyRecords ld (blkNat b 8 8) (s.records.drop (s.records.length - min (blkNat b 16 8) s.records.length)) = (t, blkNat b 16 8))
    (hlen : blkNat b 16 8 ≤ s.records.length) :
    s.mbDo ld a b = ((t.writeGpa ld (a + 120) (natLE 8 (blkNat b 16 8)) (t.hostKtag ld)).getD t, 0, false) := by
  have hmin : min (blkNat b 16 8) s.records.length = blkNat b 16 8 := Nat.min_eq_left hlen
  rw [hmin] at ht
  simp [State.mbDo, hop, hadm, hmin, ht, Nat.sub_sub_self hlen]

theorem mbDo_extend (hadm : s.isAdmin ld = true) (hop : cmdOp b = 8) : s.mbDo ld a b =
    if blkNat b 8 1 = 6 ∨ blkNat b 8 1 = 7 then (s.extendMr (blkNat b 8 1) (BitVec.ofNat 512 (blkNat b 64 64)), 0, false)
    else (s, 1, false) := by
  by_cases h6 : blkNat b 8 1 = 6 <;> by_cases h7 : blkNat b 8 1 = 7 <;> simp [State.mbDo, hop, hadm, h6, h7]

theorem mbDo_cfgwrite (hadm : s.isAdmin ld = true) (hop : cmdOp b = 9) : s.mbDo ld a b =
    if cfgReg (blkNat b 8 8) then
      (s.cfgPut (blkNat b 8 8) (blkNat b 16 8), if s.cfgRefuses (blkNat b 8 8) (blkNat b 16 8) then 4 else 0, false)
    else (s, 1, false) := by
  cases h : cfgReg (blkNat b 8 8) <;> simp [State.mbDo, hop, hadm, h]

end

/-! ### HEARTHRESET (R383) -/

/-- HEARTHRESET of an admin boots the device from its image. -/
theorem mbRun_hearthreset (s s1 : State) (ld a : Nat) (b : List Byte) (c : BootCfg)
    (hread : s.readGpa ld a 128 (s.hostKtag ld) = (s1, some b)) (hflash : s.flash = some c) (hop : cmdOp b = 2)
    (hadm : s1.isAdmin ld = true) : s.mbRun ld a = (s1.hearthReset 2 c, true) := by
  have hside : MemorySide s s1 := by
    have := side_readGpa s ld a 128 (s.hostKtag ld)
    rwa [hread] at this
  have hf : s1.flash = some c := (side_flash hside).trans hflash
  simp [State.mbRun, hread, hop, hadm, hf]

/-- CHSTAT, the teams, the launches and memory stay. -/
def State.WorkKept (s t : State) : Prop := t.reg oChstat = s.reg oChstat ∧ t.teams = s.teams ∧ t.launches = s.launches ∧ t.mem = s.mem

/-- The management configuration sets ADMIN and the lent maps, and no other register, and lists tenants. -/
theorem configure_keeps (s : State) (cfg : BootCfg) : s.WorkKept (s.configure cfg) := by
  unfold State.configure
  refine foldl_keeps s.WorkKept _ (fun t x h => ?_) _ _ (foldl_keeps s.WorkKept _ (fun t x h => ?_) _ _ ⟨rfl, rfl, rfl, rfl⟩)
  · split <;> exact h
  · split
    · next m hm =>
      have hne : oChstat ≠ x.1 := by
        intro e
        rw [← e, show bootField oChstat = none by decide] at hm
        cases hm
      exact ⟨(by rw [State.reg_setReg, if_neg hne] : (t.setReg x.1 _).reg oChstat = t.reg oChstat).trans h.1, h.2⟩
    · exact h

/-- The cause stands in the cleared device. -/
theorem cleared_cause (s : State) : natBits ((s.cleared.setCause 2).reg oChstat) 0 8 = 2 := by
  have hr : s.cleared.reg oChstat = 1900 * 2 ^ 32 + 1 := rfl
  rw [State.setCause, State.reg_setReg, if_pos rfl, hr]
  rfl

@[simp] theorem extendMr_mgmt (s : State) (k : Nat) (d : BitVec 512) : (s.extendMr k d).mgmt = s.mgmt := by cases s; rfl
@[simp] theorem extendMr_mem (s : State) (k : Nat) (d : BitVec 512) : (s.extendMr k d).mem = s.mem := by cases s; rfl
@[simp] theorem extendMr_teams (s : State) (k : Nat) (d : BitVec 512) : (s.extendMr k d).teams = s.teams := by cases s; rfl
@[simp] theorem extendMr_launches (s : State) (k : Nat) (d : BitVec 512) : (s.extendMr k d).launches = s.launches := by cases s; rfl
@[simp] theorem extendMr_reg (s : State) (k : Nat) (d : BitVec 512) (off : Nat) : (s.extendMr k d).reg off = s.reg off := by
  simp only [State.reg, extendMr_mgmt]

/-- A boot that meets no failure extends measurements, and applies the configuration. -/
theorem boot_eq (s : State) (c : BootCfg) (h1 : c.fail ≠ 1) (h2 : c.fail ≠ 2) : ∃ u : State,
    s.boot c = { u.configure c with bootOk := true } ∧ u.mgmt = s.mgmt ∧ u.teams = s.teams ∧ u.launches = s.launches ∧ u.mem = s.mem := by
  unfold State.boot
  dsimp only
  rw [if_neg h1, if_neg h2]
  refine ⟨_, rfl, ?_, ?_, ?_, ?_⟩ <;> simp

/-- After a Hearth reset that meets no failure its cause stands, and nothing is in the device. -/
theorem hearthReset_boots (s : State) (c : BootCfg) (hf : s.flash = some c) (h1 : c.fail ≠ 1) (h2 : c.fail ≠ 2) :
    (s.hearthReset 2 c).bootOk = true ∧ natBits ((s.hearthReset 2 c).reg oChstat) 0 8 = 2 ∧
      (s.hearthReset 2 c).teams = [] ∧ (s.hearthReset 2 c).launches = [] ∧ (s.hearthReset 2 c).mem = [] := by
  have hc : s.flash.getD c = c := by rw [hf]; rfl
  unfold State.hearthReset
  rw [hc]
  obtain ⟨u, hu, hmg, hut, hul, hum⟩ := boot_eq (s.cleared.setCause 2) c h1 h2
  obtain ⟨hr, ht, hl, hm⟩ := configure_keeps u c
  have hreg : u.reg oChstat = (s.cleared.setCause 2).reg oChstat := by simp only [State.reg, hmg]
  rw [hu]
  refine ⟨rfl, ?_, ht.trans hut, hl.trans hul, hm.trans hum⟩
  change natBits ((u.configure c).reg oChstat) 0 8 = 2
  rw [hr, hreg]
  exact cleared_cause s

/-! ### Register writes (R2, R5, R310) -/

/-- What no agent may write stays, and so does everything while the Chimney does not act. -/
theorem regWrite_ignored (s : State) (ag : BitVec 5) (off v : Nat)
    (h : 16 < ag.toNat ∨ off = oDevid ∨ ag = 16 ∧ s.chimneyUp = false) : s.regWrite ag off v = s := by
  unfold State.regWrite
  refine if_pos ?_
  rcases h with h | h | ⟨rfl, h⟩
  · simp [h]
  · simp [h]
  · simp [isChimney, h]

/-- The Chimney's write of CETHR takes the field, and extends MR2 (R382). -/
theorem regWrite_cethr (s : State) (v : Nat) (hup : s.chimneyUp = true) : s.regWrite 16 oCethr v =
    (s.extendMr 2 (Config.digest oCethr v)).setReg oCethr (regMerge oCethr (s.reg oCethr) v) := by
  have e : s.regWrite 16 oCethr v = s.cfgPut oCethr v := by
    simp [State.regWrite, isChimney, hup, oCethr, oDevid, coreDomainReg, cfgReg]
  rw [e]
  simp [State.cfgPut, oCethr, oKznode, coreDomainReg]

/-- A register write takes bits 15:0 of CETHR. -/
theorem regMerge_cethr (old v : Nat) : natBits (regMerge oCethr old v) 0 16 = natBits v 0 16 := by
  have hm : regRW oCethr = 2 ^ 16 - 1 := by decide
  rw [regMerge, hm]
  refine Nat.eq_of_testBit_eq fun i => ?_
  simp only [natBits, pow_zero, Nat.div_one, Nat.testBit_mod_two_pow]
  by_cases hi : i < 16
  · have hmask : (BitVec.ofNat 64 (2 ^ 16 - 1)).getLsbD i = true := by
      rw [BitVec.getLsbD_ofNat, Nat.testBit_two_pow_sub_one]
      simp only [Bool.and_eq_true, decide_eq_true_eq]
      omega
    have h64 : i < 64 := by omega
    rw [BitVec.testBit_toNat, BitVec.getLsbD_or, BitVec.getLsbD_and, BitVec.getLsbD_and, BitVec.getLsbD_not, hmask,
      BitVec.getLsbD_ofNat]
    simp [h64]
  · simp [hi]

/-- A host's write of CETHR is refused. -/
theorem regWrite_cethr_host (s : State) (ag : BitVec 5) (v : Nat) (h : ag.toNat < 16) :
    s.regWrite ag oCethr v = s.refuseReg ag oCethr := by
  have hc : isChimney ag = false := by simp [isChimney]; omega
  simp [State.regWrite, hc, oCethr, oDevid, Nat.not_lt.mpr (by omega : ag.toNat ≤ 16)]

theorem side_refuseReg (s : State) (ag : BitVec 5) (off : Nat) : MemorySide s (s.refuseReg ag off) := by
  unfold State.refuseReg
  split <;> exact side_report _ _ _

end Sys2Proof.Machine
end

section
namespace Sys2Proof.Machine

section
variable {s t : State} (hbad : ∀ a, t.sysBad a = s.sysBad a) (hent : ∀ a, t.entry a = s.entry a)
include hbad hent

theorem entryFor_congr (fb lvl tbl idx va : Nat) (addr : Nat → Nat) (ok : Nat → Bool) :
    t.entryFor fb lvl tbl idx va addr ok = s.entryFor fb lvl tbl idx va addr ok := by
  have hcon (base : Nat) : t.contigOk base addr = s.contigOk base addr := by simp only [State.contigOk, hent]
  simp only [State.entryFor, hbad, hent, hcon]

/-- A walk of stage 2 rests on the entries and the poison of memory, as agents read them. -/
theorem s2Go_congr (fb gpa fuel tbl : Nat) : t.s2Go fb gpa fuel tbl = s.s2Go fb gpa fuel tbl := by
  induction fuel generalizing tbl with
  | zero => rfl
  | succ n ih => simp only [State.s2Go, entryFor_congr hbad hent, hbad, ih]

/-- So does the OP that a host reads of its block, on its tenant's tables. -/
theorem opOf_congr (hbyte : ∀ a, t.sysByte a = s.sysByte a) (hten : t.tenants = s.tenants) (hfree : t.free = s.free) (ld blk : Nat) :
    t.opOf ld blk = s.opOf ld blk := by
  simp only [State.opOf, State.gpaTo, State.s2Access, State.s2Walk, State.tenant, hten, hfree, s2Go_congr hbad hent, hbad, hbyte]

end

/-- HEARTHRESET, alone at the mailboxes, by an admin: the device boots from its image. -/
theorem hearthreset_boots (s s1 : State) (ld : BitVec 4) (blk : Nat) (b : List Byte) (cfg : BootCfg) (hb : s.bound ld.toNat = true)
    (hup : s.chimneyUp = true) (hbusy : natBit (s.reg (oMbstat ld.toNat)) 8 = false) (hbox : s.mbox = [])
    (hread : ({ s with flash := some (s.flash.getD cfg) }.mailTaken ld.toNat (natBits blk 6 46 * 64)).readGpa ld.toNat
      (natBits blk 6 46 * 64) 128 (({ s with flash := some (s.flash.getD cfg) }.mailTaken ld.toNat (natBits blk 6 46 * 64)).hostKtag
        ld.toNat) = (s1, some b))
    (hop : s.opOf ld.toNat blk = some 2) (hcmd : cmdOp b = 2) (hadm : s1.isAdmin ld.toNat = true) :
    exec (.hearthreset ld blk cfg) s = .next (s1.hearthReset 2 (s.flash.getD cfg)) := by
  have hrun := mbRun_hearthreset _ s1 ld.toNat _ b (s.flash.getD cfg) hread rfl hcmd hadm
  have hop' : { s with flash := some (s.flash.getD cfg) }.opOf ld.toNat blk = some 2 :=
    (opOf_congr (s := s) (t := { s with flash := some (s.flash.getD cfg) }) (fun _ => rfl) (fun _ => rfl) (fun _ => rfl) rfl rfl
      ld.toNat blk).trans hop
  have e := mailCommand_eq { s with flash := some (s.flash.getD cfg) } ld blk 2 hb hup hbusy hbox hop'
  rw [hrun] at e
  exact congrArg Host.Outcome.next e

/-- Settles O54: the Stoker's commands by `stokerCommand_ends`, those of the mailboxes by `mailCommand_ends` and the lemmas on `mbDo`,
HEARTHRESET by `hearthReset_boots`, and register writes by the branch of `regWrite` that they take. -/
theorem commandEvents : Obligations.CommandEvents := by
  unfold Obligations.CommandEvents
  refine ⟨?_, ?_, ?_, ?_, ?_, ?_⟩
  · intro s s1 ld blk b n a hb hbusy hup hread x hx hop hcmd
    simp only [List.mem_cons, List.not_mem_nil, or_false] at hx
    rcases hx with rfl | rfl | rfl | rfl | rfl | rfl | rfl | rfl | rfl <;>
      exact stokerCommand_ends rfl (by simp only [stokerCmd, hcmd]; rfl) hb hbusy hup hread hop
  · intro s s1 s2 ld blk st b on n a s0 hb hok hdown hbusy hbox hread hdo x hx hop hcmd
    have hup : s.chimneyUp = true := by simp [State.chimneyUp, hok, hdown]
    have herr : exec (.errread ld blk) s = .next (s.mailCommand ld blk 7) := by
      change Host.Outcome.next (if s.booted && !s.bootOk then _ else _) = _
      rw [hok]
      simp
    simp only [List.mem_cons, List.not_mem_nil, or_false] at hx
    rcases hx with rfl | rfl | rfl | rfl | rfl | rfl | rfl | rfl
    case inr.inr.inr.inr.inr.inl => exact mailCommand_ends herr (by simp) hb hup hbusy hbox hread hdo hop hcmd
    all_goals exact mailCommand_ends rfl (by simp) hb hup hbusy hbox hread hdo hop hcmd
  · intro s n a b x y d hadm
    exact ⟨mbDo_corereset s n a b hadm, mbDo_clmask s n a b hadm, mbDo_starthart s n a b hadm, mbDo_scrub_bound s n a b hadm,
      mbDo_scrub s n a b hadm, fun hop t => mbDo_obswrite s n a b t hadm hop, fun hop t => mbDo_errread s n a b t hadm hop,
      mbDo_extend s n a b hadm, mbDo_cfgwrite s n a b hadm⟩
  · intro s ld blk hboot hok
    change Host.Outcome.next (if s.booted && !s.bootOk then _ else _) = _
    rw [hboot, hok]
    rfl
  · intro s s1 ld blk b cfg n a c s0 hb hup hbusy hbox hread hop hcmd hadm
    have e := hearthreset_boots s s1 ld blk b cfg hb hup hbusy hbox hread hop hcmd hadm
    have hside : MemorySide s0 s1 := by
      have h := side_readGpa s0 n a 128 (s0.hostKtag n)
      rwa [hread] at h
    exact ⟨e, fun h1 h2 => ⟨_, e, hearthReset_boots s1 c (side_flash hside) h1 h2⟩⟩
  · intro s ag off v
    refine ⟨fun h => congrArg Host.Outcome.next (regWrite_ignored s ag off v.toNat h), ?_, ?_⟩
    · rintro rfl hup rfl
      refine ⟨_, congrArg Host.Outcome.next (regWrite_cethr s v.toNat hup), ?_, State.setReg_mr _ _ _,
        (State.setReg_mem _ _ _).trans (extendMr_mem _ _ _)⟩
      rw [reg_setReg_self _ _ _ (by unfold regMerge; exact BitVec.isLt _)]
      exact regMerge_cethr _ _
    · rintro hag rfl
      refine ⟨_, congrArg Host.Outcome.next (regWrite_cethr_host s ag v.toNat hag), ?_⟩
      have he : ∀ k, oEvtail k = 0x1000 + 0x100 * k + 0x20 := fun _ => rfl
      exact (side_refuseReg s ag oCethr).2 oCethr (by decide) fun k => by have := he k; have : oCethr = 0x18 := rfl; omega

end Sys2Proof.Machine
end

section
/-! SUPPORT. Requests of this device's chains: the request table, what is sent, and how a request ends (O51). -/

namespace Sys2Proof.Machine

/-! ### The request table -/

theorem nreq_setNreq (s : State) (c p c' p' : Nat) (r : NReq) :
    (s.setNreq c p r).nreq c' p' = if c' = c ∧ p' = p then some r else s.nreq c' p' := by
  simp only [State.nreq, State.setNreq, State.chainReqs, SMap.getD_insert]
  by_cases hc : c' = c
  · rw [if_pos hc, SMap.find_insert]
    simp [hc]
  · rw [if_neg hc, if_neg (fun h => hc h.1)]

theorem nreq_setNreq_self (s : State) (c p : Nat) (r : NReq) : (s.setNreq c p r).nreq c p = some r := by
  rw [nreq_setNreq, if_pos ⟨rfl, rfl⟩]

/-- A request that is finished stands so in the table; besides, a free number may have been drawn for the port that met a failure. -/
theorem finish_eq (s : State) (c p : Nat) (r : NReq) (status bytes : Nat) (port : Option Bool) : ∃ src n,
    s.finish c p r status bytes port = { s with free := n }.setNreq c p
      { r with st := 2, status := status, bytes := bytes, refused := false, wait := 0, data := none, src := src } := by
  unfold State.finish
  cases port with
  | none => exact ⟨_, s.free, rfl⟩
  | some uet =>
    dsimp only
    split
    · exact ⟨_, s.free + 1, rfl⟩
    · exact ⟨_, s.free, rfl⟩

/-- The request `r'` has ended with a status. -/
theorem finish_nreq (s : State) (c p : Nat) (r : NReq) (status bytes : Nat) (port : Option Bool) :
    ∃ r', (s.finish c p r status bytes port).nreq c p = some r' ∧ r'.st = 2 ∧ r'.status = status ∧ r'.bytes = bytes ∧ r'.imm = r.imm := by
  obtain ⟨src, n, e⟩ := finish_eq s c p r status bytes port
  rw [e]
  exact ⟨_, nreq_setNreq_self _ _ _ _, rfl, rfl, rfl, rfl⟩

@[simp] theorem finish_mem (s : State) (c p : Nat) (r : NReq) (status bytes : Nat) (port : Option Bool) :
    (s.finish c p r status bytes port).mem = s.mem := by
  obtain ⟨src, n, e⟩ := finish_eq s c p r status bytes port
  rw [e]; rfl
@[simp] theorem finish_incoming (s : State) (c p : Nat) (r : NReq) (status bytes : Nat) (port : Option Bool) :
    (s.finish c p r status bytes port).incoming = s.incoming := by
  obtain ⟨src, n, e⟩ := finish_eq s c p r status bytes port
  rw [e]; rfl
@[simp] theorem finish_mgmt (s : State) (c p : Nat) (r : NReq) (status bytes : Nat) (port : Option Bool) :
    (s.finish c p r status bytes port).mgmt = s.mgmt := by
  obtain ⟨src, n, e⟩ := finish_eq s c p r status bytes port
  rw [e]; rfl
@[simp] theorem finish_portsDown (s : State) (c p : Nat) (r : NReq) (status bytes : Nat) (port : Option Bool) :
    (s.finish c p r status bytes port).portsDown = s.portsDown := by
  obtain ⟨src, n, e⟩ := finish_eq s c p r status bytes port
  rw [e]; rfl
@[simp] theorem finish_records (s : State) (c p : Nat) (r : NReq) (status bytes : Nat) (port : Option Bool) :
    (s.finish c p r status bytes port).records = s.records := by
  obtain ⟨src, n, e⟩ := finish_eq s c p r status bytes port
  rw [e]; rfl

/-- An event that finishes a request ends it. -/
theorem finish_ends {i : Instr} {s t : State} {ch pos status bytes : Nat} {r : NReq} {port : Option Bool}
    (hi : exec i s = .next (t.finish ch pos r status bytes port)) :
    Completes i s fun s' => ∃ r', s'.nreq ch pos = some r' ∧ r'.st = 2 ∧ r'.status = status := by
  obtain ⟨r', hr, hst, hstatus, _⟩ := finish_nreq t ch pos r status bytes port
  exact ⟨_, hi, r', hr, hst, hstatus⟩

/-- Of a request under way, a chain and its registers. -/
theorem peerKind_congr {s t : State} (h : TableFrame s t) (ch : Nat) (r : NReq) : t.reqUet ch r = s.reqUet ch r := by
  have hc : oNccfg ch = 0x100000 + 0x40 * ch := rfl
  have hp (ten i : Nat) : oPeer ten i = 0x200000 + 0x10000 * ten + 0x10 * i := rfl
  have hten : t.ncTenant ch = s.ncTenant ch := by
    unfold State.ncTenant
    rw [h.reg _ (by omega)]
  unfold State.reqUet State.peerKind State.peerLo
  rw [hten, h.reg _ (by rw [hp]; omega)]

/-! ### What is sent -/

/-- The message `o` of packet `x` (an offset and a length) of a request with data: it takes one of the ports that lead to its peer, where
there are any. -/
def State.Carries (s : State) (c p : Nat) (r : NReq) (data : List Byte) (only : Option Nat) (x : Nat × Nat) (o : Out) : Prop :=
  let ports := if s.reqUet c r then List.range 10 else s.ports (s.peerAddr (s.ncTenant c) r.pix)
  ∃ n, o = .wire (ports.getD (n % ports.length) 0) x.1 (s.netMsg c p r ((data.drop x.1).take x.2) only)

/-- Packets are sent one message each, in order; nothing else happens but that free numbers are drawn. -/
theorem send_eq (s : State) (c p : Nat) (r : NReq) (data : List Byte) (ps : List (Nat × Nat)) (only : Option Nat) : ∃ ms n,
    s.send c p r data ps only = { s with outs := s.outs ++ ms, free := n } ∧ List.Forall₂ (s.Carries c p r data only) ps ms := by
  induction ps generalizing s with
  | nil => exact ⟨[], s.free, by rw [List.append_nil]; rfl, .nil⟩
  | cons x ps ih =>
    obtain ⟨o, ho, hs⟩ : ∃ o, s.Carries c p r data only x o ∧
        s.send c p r data (x :: ps) only = { s with outs := s.outs ++ [o], free := s.free + 1 }.send c p r data ps only :=
      ⟨_, ⟨Config.freeNat s.free, rfl⟩, rfl⟩
    obtain ⟨ms, n, e, hms⟩ := ih { s with outs := s.outs ++ [o], free := s.free + 1 }
    exact ⟨o :: ms, n, by rw [hs, e, List.append_assoc]; rfl, .cons ho hms⟩

/-- One packet is one message. -/
theorem send_one (s : State) (c p : Nat) (r : NReq) (data : List Byte) (x : Nat × Nat) (only : Option Nat) : ∃ o,
    s.Carries c p r data only x o ∧ (s.send c p r data [x] only).outs = s.outs ++ [o] ∧ (s.send c p r data [x] only).nreqs = s.nreqs := by
  obtain ⟨ms, n, e, h⟩ := send_eq s c p r data [x] only
  rw [e]
  obtain ⟨o, ms', ho, hms, rfl⟩ := List.forall₂_cons_left_iff.mp h
  rw [List.forall₂_nil_left_iff] at hms
  subst hms
  exact ⟨o, ho, rfl, rfl⟩

/-- Over UET a message takes one of the ten ports of Ethernet. -/
theorem carries_uet {s : State} {c p : Nat} {r : NReq} {data : List Byte} {only : Option Nat} {x : Nat × Nat} {o : Out}
    (hu : s.reqUet c r = true) (h : s.Carries c p r data only x o) :
    ∃ port < 10, o = .wire port x.1 (s.netMsg c p r ((data.drop x.1).take x.2) only) := by
  obtain ⟨n, rfl⟩ := h
  rw [hu, if_pos rfl]
  have hlt : n % (List.range 10).length < (List.range 10).length := Nat.mod_lt _ (by decide)
  refine ⟨_, ?_, rfl⟩
  rw [List.getD_eq_getElem _ _ hlt, List.getElem_range]
  simpa using hlt

/-- Over the Kazid Link it takes a port in service that reaches the node. -/
theorem carries_kazid {s : State} {c p : Nat} {r : NReq} {data : List Byte} {only : Option Nat} {x : Nat × Nat} {o : Out}
    (hu : s.reqUet c r = false) (hp : s.ports (s.peerAddr (s.ncTenant c) r.pix) ≠ []) (h : s.Carries c p r data only x o) :
    ∃ port ∈ s.ports (s.peerAddr (s.ncTenant c) r.pix), o = .wire port x.1 (s.netMsg c p r ((data.drop x.1).take x.2) only) := by
  obtain ⟨n, rfl⟩ := h
  rw [hu, if_neg (by decide)]
  generalize s.ports (s.peerAddr (s.ncTenant c) r.pix) = ports at hp ⊢
  have hlt : n % ports.length < ports.length := Nat.mod_lt _ (List.length_pos_iff.mpr hp)
  refine ⟨_, ?_, rfl⟩
  rw [List.getD_eq_getElem _ _ hlt]
  exact List.getElem_mem hlt

/-- The packets of a request over UET: up to 4,096 bytes each, in order, on whatever ports. -/
theorem send_packets (s : State) (c p : Nat) (r : NReq) (bs : List Byte) (hu : s.reqUet c r = true) :
    (s.send c p r bs (packets true r.len)).nreqs = s.nreqs ∧ ∃ ms, (s.send c p r bs (packets true r.len)).outs = s.outs ++ ms ∧
      ms.length = (r.len + 4095) / 4096 ∧ ∀ j < ms.length, ∃ port < 10, ∃ msg, ms[j]? = some (Out.wire port (4096 * j) msg) ∧
        msg.op = BitVec.ofNat 8 r.op ∧ msg.chain = c ∧ msg.pos = p ∧ msg.data = (bs.drop (4096 * j)).take (min 4096 (r.len - 4096 * j)) := by
  obtain ⟨ms, n, e, h⟩ := send_eq s c p r bs (packets true r.len) none
  have hlen := h.length_eq
  have hps : (packets true r.len).length = (r.len + 4095) / 4096 := by simp [packets]
  rw [e]
  refine ⟨rfl, ms, rfl, hlen ▸ hps, fun j hj => ?_⟩
  obtain ⟨port, hport, ho⟩ := carries_uet hu (h.get (hlen ▸ hj) hj)
  have hx : (packets true r.len).get ⟨j, hlen ▸ hj⟩ = (4096 * j, min 4096 (r.len - 4096 * j)) := by simp [packets]
  rw [hx] at ho
  exact ⟨port, hport, _, by rw [List.getElem?_eq_getElem hj]; exact congrArg some ho, rfl, rfl, rfl, rfl⟩

/-! ### Sending a request -/

theorem sendFrom_get (s : State) (c p : Nat) (r : NReq) (ps : List (Nat × Nat)) (h : r.op = 2) : s.sendFrom c p r ps =
    if ps.length = (packets (s.reqUet c r) r.len).length then (s.setNreq c p { r with st := 1 }).send c p r [] [(0, r.len)]
    else (s.setNreq c p { r with st := 1 }).send c p r [] ps (ps.head?.map (·.1)) := by
  unfold State.sendFrom
  rw [if_pos h]
  rfl

theorem sendFrom_data (s : State) (c p : Nat) (r : NReq) (ps : List (Nat × Nat)) (bs : List Byte) (h : r.op ≠ 2) (hd : r.data = some bs) :
    s.sendFrom c p r ps = (s.setNreq c p { r with st := 1, wait := 0, data := some bs }).send c p r bs ps := by
  unfold State.sendFrom
  rw [if_neg h, hd]

theorem sendFrom_read (s s1 : State) (c p : Nat) (r : NReq) (ps : List (Nat × Nat)) (bs : List Byte) (h : r.op ≠ 2) (hd : r.data = none)
    (hr : s.netRead (s.ncAsid c) r.laddr r.len = (s1, .ok bs false)) :
    s.sendFrom c p r ps = (s1.setNreq c p { r with st := 1, wait := 0, data := some bs }).send c p r bs ps := by
  unfold State.sendFrom
  rw [if_neg h, hd]
  dsimp only
  rw [hr]
  rfl

end Sys2Proof.Machine
end

section
/-! SUPPORT. Requests of this device's chains: how each event of a request goes (O51). -/

namespace Sys2Proof.Machine

/-! ### Reading on path N -/

theorem andThen_keeps {α β : Type} {P : State → Prop} {x : State × Got α} {f : State → α → State × Got β} (hx : P x.1)
    (hf : ∀ t v, P t → P (f t v).1) : P (Got.andThen x f).1 := by
  obtain ⟨t, v⟩ := x
  cases v with
  | fault c e g => exact hx
  | ok v bad =>
    have h := hf t v hx
    unfold Got.andThen
    dsimp only
    generalize f t v = y at h
    obtain ⟨u, w⟩ := y
    cases w <;> exact h

theorem gotList_keeps {α β : Type} {P : State → Prop} {f : State → α → State × Got β} (hf : ∀ t a, P t → P (f t a).1) (l : List α)
    {s : State} (h : P s) : P (gotList f s l).1 := by
  induction l generalizing s with
  | nil => exact h
  | cons a l ih => exact andThen_keeps (hf s a h) fun t v ht => andThen_keeps (ih ht) fun _ _ h => h

theorem dteTenant_lt (d : Nat) : dteTenant d < 256 := by
  unfold dteTenant natBits
  omega

theorem tables_xlate (s : State) (rcv asid va : Nat) (n : Need) : TableFrame s (s.xlate rcv asid va n).1 := by
  unfold State.xlate
  dsimp only
  split
  · exact .of_eq rfl rfl
  · exact .of_eq rfl rfl

theorem tables_reachSpa (s : State) (spa gpa : Nat) (need : Need) : TableFrame s (s.reachSpa spa gpa need).1 := by
  have h : TableFrame s s.freshBit.2 := .of_eq rfl rfl
  unfold State.reachSpa
  split
  · split
    · exact .refl s
    · exact h
  · split <;> exact .refl s

theorem tables_netReach (s : State) (asid va : Nat) (need : Need) : TableFrame s (s.netReach asid va need).1 := by
  unfold State.netReach
  split
  · exact .refl s
  · unfold State.reachGlobal
    have h := tables_xlate s 0 asid va need
    generalize s.xlate 0 asid va need = x at h
    obtain ⟨t, v⟩ := x
    cases v with
    | fault c gpa bad =>
      cases bad with
      | none => exact h
      | some a => exact h.trans (tables_tagFail _ _ _ _ (dteTenant_lt _))
    | ok spa gpa _ _ _ => exact h.trans (tables_reachSpa _ _ _ _)

theorem tables_foundBad (s : State) (p : Place) (ten gpa ktag : Nat) (h : ten < 256) : TableFrame s (s.foundBad p ten gpa ktag) := by
  unfold State.foundBad
  split
  · split
    · exact tables_tagFail _ _ _ _ h
    · exact .refl s
  · exact .refl s

theorem tables_getPlace (s : State) (ten gpa : Nat) (p : Place) (n ktag : Nat) (h : ten < 256) :
    TableFrame s (s.getPlace ten gpa p n ktag).1 := by
  unfold State.getPlace
  split
  · exact .of_eq rfl rfl
  · exact tables_foundBad _ _ _ _ _ h

/-- A read on path N leaves the tables alone. -/
theorem tables_netRead (s : State) (asid va n : Nat) : TableFrame s (s.netRead asid va n).1 := by
  refine andThen_keeps (P := TableFrame s) (gotList_keeps (fun t p ht => ?_) _ (.refl s)) fun _ _ h => h
  have h := tables_netReach t asid p.1 .load
  dsimp only
  generalize t.netReach asid p.1 .load = x at h
  obtain ⟨u, v⟩ := x
  cases v with
  | cause c => exact ht.trans h
  | at' pl gpa => exact (ht.trans h).trans (tables_getPlace _ _ _ _ _ _ (dteTenant_lt _))

/-! ### A request starts (R334, R335, R341, R343) -/

section Start

variable {s : State} {ch pos : Nat} {r : NReq} (hr : s.nreq ch pos = some r) (hm : s.mayStart ch pos r = true)
include hr hm

theorem start_invalid (hv : r.invalid = true) : exec (.netRequestStart ch pos) s = .next (s.finish ch pos r 0x10 0 none) := by
  show execNetRequestStart ch pos s = _
  simp [execNetRequestStart, hr, hm, hv]

variable (hv : r.invalid = false)
include hv

/-- A RECV stands open. -/
theorem start_recv (hop : r.op = 4) : exec (.netRequestStart ch pos) s = .next (s.setNreq ch pos { r with st := 1 }) := by
  show execNetRequestStart ch pos s = _
  simp [execNetRequestStart, hr, hm, hv, hop]

/-- A request of OP 6 has nothing to do. -/
theorem start_nothing (hop : r.op = 6) : exec (.netRequestStart ch pos) s = .next (s.finish ch pos r 0 0 none) := by
  show execNetRequestStart ch pos s = _
  simp [execNetRequestStart, hr, hm, hv, hop]

variable (h4 : r.op ≠ 4) (h6 : r.op ≠ 6)
include h4 h6

/-- A request with a peer ends at once where its peer entry, the endpoint or the ports are missing or its memory failed; else it is sent. -/
theorem start_peer : exec (.netRequestStart ch pos) s = .next (
    let kind := s.peerKind (s.ncTenant ch) r.pix
    if kind = 0 || kind = 3 then s.finish ch pos r 0x10 0 none
    else if kind = 2 && !natBit (s.reg (oFep (s.peerAddr (s.ncTenant ch) r.pix % 4096) + 16)) 56 then s.finish ch pos r 0x10 0 none
    else if s.noRoute ch r then s.finish ch pos r 0x13 0 none
    else if r.wait = 2 then s.finish ch pos r 0x11 0 none
    else s.sendFrom ch pos r (packets (kind == 2) r.len)) := by
  show execNetRequestStart ch pos s = _
  unfold execNetRequestStart
  rw [hr]
  dsimp only
  rw [hm, hv]
  simp only [Bool.not_true, Bool.false_eq_true, if_false, apply_ite Host.Outcome.next]

theorem start_noPeer (hk : s.peerKind (s.ncTenant ch) r.pix = 0 ∨ s.peerKind (s.ncTenant ch) r.pix = 3) :
    exec (.netRequestStart ch pos) s = .next (s.finish ch pos r 0x10 0 none) := by
  rw [start_peer hr hm hv h4 h6]
  simp [hk]

theorem start_noRoute (hk : s.peerKind (s.ncTenant ch) r.pix = 1) (hp : s.ports (s.peerAddr (s.ncTenant ch) r.pix) = []) :
    exec (.netRequestStart ch pos) s = .next (s.finish ch pos r 0x13 0 none) := by
  rw [start_peer hr hm hv h4 h6]
  simp [hk, hp, State.noRoute]

theorem start_kazid (hk : s.peerKind (s.ncTenant ch) r.pix = 1) (hp : s.ports (s.peerAddr (s.ncTenant ch) r.pix) ≠ []) (hw : r.wait ≠ 2) :
    exec (.netRequestStart ch pos) s = .next (s.sendFrom ch pos r (packets false r.len)) := by
  rw [start_peer hr hm hv h4 h6]
  simp [hk, hp, hw, State.noRoute]

theorem start_noEndpoint (hk : s.peerKind (s.ncTenant ch) r.pix = 2)
    (hf : natBit (s.reg (oFep (s.peerAddr (s.ncTenant ch) r.pix % 4096) + 16)) 56 = false) :
    exec (.netRequestStart ch pos) s = .next (s.finish ch pos r 0x10 0 none) := by
  rw [start_peer hr hm hv h4 h6]
  simp [hk, hf]

theorem start_uet (hk : s.peerKind (s.ncTenant ch) r.pix = 2)
    (hf : natBit (s.reg (oFep (s.peerAddr (s.ncTenant ch) r.pix % 4096) + 16)) 56 = true) (hw : r.wait ≠ 2) :
    exec (.netRequestStart ch pos) s = .next (s.sendFrom ch pos r (packets true r.len)) := by
  rw [start_peer hr hm hv h4 h6]
  simp [hk, hf, hw, State.noRoute]

end Start

/-! ### What a started request sends -/

/-- A GET asks for all its packets in one message. -/
theorem sendFrom_get_all (s : State) (c p : Nat) (r : NReq) (hop : r.op = 2) : ∃ o,
    (s.setNreq c p { r with st := 1 }).Carries c p r [] none (0, r.len) o ∧
    (s.sendFrom c p r (packets (s.reqUet c r) r.len)).outs = s.outs ++ [o] ∧
    (s.sendFrom c p r (packets (s.reqUet c r) r.len)).nreq c p = some { r with st := 1 } := by
  rw [sendFrom_get _ _ _ _ _ hop, if_pos rfl]
  obtain ⟨o, ho, houts, hn⟩ := send_one (s.setNreq c p { r with st := 1 }) c p r [] (0, r.len) none
  refine ⟨o, ho, houts, ?_⟩
  simp only [State.nreq, State.chainReqs, hn]
  exact nreq_setNreq_self _ _ _ _

/-- Over the Kazid Link the data go in one message. -/
theorem sendData_one (s : State) (c p : Nat) (r r' : NReq) (bs : List Byte) : ∃ port msg,
    ((s.setNreq c p r').send c p r bs (packets false r.len)).outs = s.outs ++ [.wire port 0 msg] ∧
    msg.op = BitVec.ofNat 8 r.op ∧ msg.chain = c ∧ msg.pos = p ∧ msg.data = bs.take r.len ∧
    ((s.setNreq c p r').send c p r bs (packets false r.len)).nreq c p = some r' := by
  obtain ⟨o, ⟨n, rfl⟩, houts, hn⟩ := send_one (s.setNreq c p r') c p r bs (0, r.len) none
  refine ⟨_, _, houts, rfl, rfl, rfl, rfl, ?_⟩
  simp only [packets, Bool.false_eq_true, if_false, State.nreq, State.chainReqs, hn]
  exact nreq_setNreq_self _ _ _ _

/-- Over UET they go in packets. -/
theorem sendData_packets (s : State) (c p : Nat) (r r' : NReq) (bs : List Byte) (hu : s.reqUet c r = true) :
    ((s.setNreq c p r').send c p r bs (packets true r.len)).nreq c p = some r' ∧
    ∃ ms, ((s.setNreq c p r').send c p r bs (packets true r.len)).outs = s.outs ++ ms ∧
      ms.length = (r.len + 4095) / 4096 ∧ ∀ j < ms.length, ∃ port < 10, ∃ msg, ms[j]? = some (Out.wire port (4096 * j) msg) ∧
        msg.op = BitVec.ofNat 8 r.op ∧ msg.chain = c ∧ msg.pos = p ∧ msg.data = (bs.drop (4096 * j)).take (min 4096 (r.len - 4096 * j)) := by
  obtain ⟨hn, hms⟩ := send_packets (s.setNreq c p r') c p r bs hu
  refine ⟨?_, hms⟩
  simp only [State.nreq, State.chainReqs, hn]
  exact nreq_setNreq_self _ _ _ _

end Sys2Proof.Machine
end

section
/-! SUPPORT. Requests of this device's chains: how they complete, are acknowledged, resent and read (O51). -/

namespace Sys2Proof.Machine

theorem nreq_congr {s t : State} (h : t.nreqs = s.nreqs) (c p : Nat) : t.nreq c p = s.nreq c p := by
  simp only [State.nreq, State.chainReqs, h]

theorem reqUet_iff (s : State) (c : Nat) (r : NReq) : s.reqUet c r = true ↔ s.peerKind (s.ncTenant c) r.pix = 2 := by
  simp [State.reqUet]

theorem setNreq_reg (s : State) (c p : Nat) (r : NReq) (off : Nat) : (s.setNreq c p r).reg off = s.reg off := rfl
theorem setNreq_records (s : State) (c p : Nat) (r : NReq) : (s.setNreq c p r).records = s.records := rfl

theorem asleep_of_up {s : State} (h : s.coreDown = false) : s.asleep = false := by
  revert h
  simp only [State.coreDown, State.asleep]
  cases s.resetting <;> simp

theorem ncTenant_lt (s : State) (c : Nat) : s.ncTenant c < 16 := by
  unfold State.ncTenant natBits
  omega

/-! ### Completion (R334) -/

/-- The record of a request that failed. -/
def State.failRecord (s : State) (c p : Nat) (r : NReq) : Err :=
  { cat := 4, code := 4, ten := some (s.ncTenant c), asid := some (s.ncAsid c), aux0 := r.status, aux1 := p, psrc := srcChain c, pseq := p }
/-- The state after the record of a request's failure, where it has one. -/
def State.noteEnd (s : State) (c p : Nat) (r : NReq) : State :=
  if statusError r.status then s.report r.src (s.failRecord c p r) else s

theorem failRecord_within (s : State) (c p : Nat) (r : NReq) : (s.failRecord c p r).Within 16 := by
  have := ncTenant_lt s c
  constructor <;> simp [State.failRecord, this]

theorem requestComplete_eq {s : State} {ch pos : Nat} {r : NReq} (hr : s.nreq ch pos = some r) (hst : r.st = 2) (hd : s.coreDown = false) :
    exec (.netRequestComplete ch pos) s =
      .next (((s.noteEnd ch pos r).setNreq ch pos { r with st := 3 }).cover ch (((s.noteEnd ch pos r).chainReqs ch).length + 1)) := by
  show execNetRequestComplete ch pos s = _
  simp only [execNetRequestComplete, hr, hst, hd, decide_true, Bool.not_false, Bool.and_self, if_true]
  unfold State.complete State.noteEnd State.failRecord
  rfl

/-- What is recorded of an end leaves the requests and the chains' registers. -/
theorem noteEnd_keeps (s : State) (c p : Nat) (r : NReq) :
    (s.noteEnd c p r).nreqs = s.nreqs ∧ ∀ k, (s.noteEnd c p r).reg (oNcseq k) = s.reg (oNcseq k) := by
  unfold State.noteEnd
  split
  · have ho (k : Nat) : oNcseq k = 0x100000 + 0x40 * k + 0x20 := rfl
    obtain ⟨h1, h2⟩ := failRecord_within s c p r
    have ht := tables_report s r.src (s.failRecord c p r) ⟨fun t h => by have := h1 t h; omega, fun t h => by have := h2 t h; omega⟩
    exact ⟨side_nreqs (side_report _ _ _), fun k => ht.reg _ (by rw [ho]; omega)⟩
  · exact ⟨rfl, fun _ => rfl⟩

/-- Write a chain's completion record, or record that it is lost. -/
def State.putEnd (s : State) (c slot : Nat) (bytes : List Byte) : State :=
  (s.writeVa (s.ncAsid c) slot bytes { path := 4 }).getD (s.lostRecord srcChimney (s.ncTenant c) 7)

theorem putEnd_nreqs (s : State) (c slot : Nat) (bytes : List Byte) : (s.putEnd c slot bytes).nreqs = s.nreqs := by
  unfold State.putEnd
  cases h : s.writeVa (s.ncAsid c) slot bytes { path := 4 } with
  | some t =>
    rw [Option.getD_some]
    exact side_nreqs (side_writeVa _ _ _ _ _ _ h)
  | none =>
    rw [Option.getD_none]
    exact side_nreqs (side_report _ _ _)

theorem putEnd_of_some {s s1 : State} {c slot : Nat} {bytes : List Byte}
    (h : s.writeVa (s.ncAsid c) slot bytes { path := 4 } = some s1) : s.putEnd c slot bytes = s1 := by
  rw [State.putEnd, h, Option.getD_some]

/-- A position leaves the table: CSEQ covers it. -/
def State.coverAt (s : State) (c p : Nat) : State :=
  { s with
    nreqs := s.nreqs.insert c ((s.chainReqs c).erase p)
    nends := if s.nends.has c then s.nends.insert c ((s.nends.getD c []).filter fun e => decide (p < e.1)) else s.nends }.setReg (oNcseq c) p

/-- Where the completion record of a position stands in the chain's ring. -/
def State.endSlot (s : State) (c p : Nat) : Nat :=
  natBits (s.reg (oNccq c)) 6 42 * 64 + 64 * ((p - 1) % (16 * 2 ^ natBits (s.reg (oNccq c)) 0 4))
/-- The number that a chain's next record would have. -/
def State.seqNext (s : State) (c p : Nat) : State := { s with seq := s.seq.setD (srcChain c) (p + 1) 1 }

/-- Nothing is covered while the next position has not ended. -/
theorem cover_stop (s : State) (c fuel : Nat) (h : ∀ r, s.nreq c (s.ncSeq c + 1) = some r → r.st ≠ 3) : s.cover c fuel = s := by
  cases fuel with
  | zero => rfl
  | succ n =>
    rw [State.cover]
    cases hr : s.nreq c (s.ncSeq c + 1) with
    | none => rfl
    | some r => exact if_pos (by simpa using h r hr)

/-- The position after the covered ones is covered, once it has ended. -/
def State.coverNext (s : State) (c p : Nat) (r : NReq) : State :=
  ((s.seqNext c p).putEnd c (s.endSlot c p) (ncRecord c p r)).coverAt c p

theorem cover_next (s : State) (c fuel : Nat) (r : NReq) (hr : s.nreq c (s.ncSeq c + 1) = some r) (hst : r.st = 3) :
    s.cover c (fuel + 1) = (s.coverNext c (s.ncSeq c + 1) r).cover c fuel := by
  have hst' : ¬(r.st != 3) = true := by simp [hst]
  rw [State.cover, hr]
  generalize s.ncSeq c + 1 = p
  extract_lets q slot s1
  dsimp -zeta only
  rw [if_neg hst']
  extract_lets s2 s3
  have h2 : s2 = s1.putEnd c slot (ncRecord c p r) := by
    clear_value s1 slot
    simp only [s2, State.putEnd]
    cases s1.writeVa (s1.ncAsid c) slot (ncRecord c p r) { path := 4 } with
    | some t => rw [Option.getD_some]
    | none => rw [Option.getD_none]
  have h3 : s3.setReg (oNcseq c) p = s2.coverAt c p := rfl
  rw [h3, h2]
  rfl

theorem coverAt_nreq (s : State) (c p p' : Nat) : (s.coverAt c p).nreq c p' = if p' = p then none else s.nreq c p' := by
  simp only [State.nreq, State.coverAt, State.chainReqs, State.setReg_nreqs, SMap.getD_insert, if_true, SMap.find_erase]

theorem coverAt_mem (s : State) (c p : Nat) : (s.coverAt c p).mem = s.mem := by
  simp only [State.coverAt, State.setReg_mem]

theorem coverAt_ncSeq (s : State) (c p : Nat) (h : p < 2 ^ 64) : (s.coverAt c p).ncSeq c = p := by
  unfold State.ncSeq State.coverAt
  exact reg_setReg_self _ _ _ h

theorem coverNext_nreq (s : State) (c p p' : Nat) (r : NReq) :
    (s.coverNext c p r).nreq c p' = if p' = p then none else s.nreq c p' := by
  have hn : (s.seqNext c p).nreqs = s.nreqs := by simp only [State.seqNext]
  rw [State.coverNext, coverAt_nreq, nreq_congr (putEnd_nreqs _ _ _ _), nreq_congr hn]

theorem coverNext_ncSeq (s : State) (c p : Nat) (r : NReq) (h : p < 2 ^ 64) : (s.coverNext c p r).ncSeq c = p :=
  coverAt_ncSeq _ _ _ h

/-- A request that ends behind one that has not is kept. -/
theorem requestComplete_kept {s : State} {ch pos : Nat} {r : NReq} (hr : s.nreq ch pos = some r) (hst : r.st = 2) (hd : s.coreDown = false)
    (hq : statusError r.status = false ∨ s.Quiet) (hpos : pos ≠ s.ncSeq ch + 1)
    (hnext : ∀ p, s.nreq ch (s.ncSeq ch + 1) = some p → p.st ≠ 3) :
    Completes (.netRequestComplete ch pos) s fun s' => s'.nreq ch pos = some { r with st := 3 } ∧
      s'.reg (oNcseq ch) = s.reg (oNcseq ch) ∧ (statusError r.status = false → s'.records = s.records) ∧
      (statusError r.status = true → Reports s s' r.src (s.failRecord ch pos r)) := by
  obtain ⟨hn, hseq⟩ := noteEnd_keeps s ch pos r
  have hstop : ∀ x, ((s.noteEnd ch pos r).setNreq ch pos { r with st := 3 }).nreq ch
      (((s.noteEnd ch pos r).setNreq ch pos { r with st := 3 }).ncSeq ch + 1) = some x → x.st ≠ 3 := by
    intro x hx
    have hs : ((s.noteEnd ch pos r).setNreq ch pos { r with st := 3 }).ncSeq ch = s.ncSeq ch := by
      unfold State.ncSeq
      rw [setNreq_reg, hseq]
    rw [hs, nreq_setNreq, if_neg (fun h => hpos h.2.symm), nreq_congr hn] at hx
    exact hnext x hx
  refine ⟨_, requestComplete_eq hr hst hd, ?_⟩
  rw [cover_stop _ _ _ hstop]
  refine ⟨nreq_setNreq_self _ _ _ _, by rw [setNreq_reg, hseq], fun he => ?_, fun he => ?_⟩
  · rw [setNreq_records, State.noteEnd, he]
    rfl
  · have hquiet : s.Quiet := hq.resolve_left (by simp [he])
    have h := report_quiet_reports s r.src (s.failRecord ch pos r) hquiet (failRecord_within _ _ _ _)
    rw [State.noteEnd, he, if_pos rfl]
    unfold Reports at h ⊢
    rw [setNreq_records, h]

/-- A request that ends behind covered ones is covered, its completion record written. -/
theorem requestComplete_covered {s : State} {ch pos : Nat} {r : NReq} (hr : s.nreq ch pos = some r) (hst : r.st = 2)
    (hd : s.coreDown = false) (hq : statusError r.status = false) (hpos : pos = s.ncSeq ch + 1) (hlt : pos + 1 < 2 ^ 64)
    (hnext : s.nreq ch (pos + 1) = none) :
    Completes (.netRequestComplete ch pos) s fun s' => s'.reg (oNcseq ch) = pos ∧ s'.nreq ch pos = none ∧
      ∀ s1, ((s.setNreq ch pos { r with st := 3 }).seqNext ch pos).writeVa (s.ncAsid ch) (s.endSlot ch pos)
        (ncRecord ch pos { r with st := 3 }) { path := 4 } = some s1 → s'.mem = s1.mem := by
  have hnote : s.noteEnd ch pos r = s := by
    simp only [State.noteEnd, hq]
    rfl
  have hself : (s.setNreq ch pos { r with st := 3 }).nreq ch ((s.setNreq ch pos { r with st := 3 }).ncSeq ch + 1) =
      some { r with st := 3 } := by
    have hs : (s.setNreq ch pos { r with st := 3 }).ncSeq ch + 1 = pos := hpos.symm
    rw [hs]
    exact nreq_setNreq_self _ _ _ _
  have hstop (x : NReq) : ((s.setNreq ch pos { r with st := 3 }).coverNext ch pos { r with st := 3 }).nreq ch
      (((s.setNreq ch pos { r with st := 3 }).coverNext ch pos { r with st := 3 }).ncSeq ch + 1) = some x → x.st ≠ 3 := by
    rw [coverNext_ncSeq _ _ _ _ (by omega), coverNext_nreq, if_neg (by omega), nreq_setNreq, if_neg (by omega), hnext]
    exact fun h => nomatch h
  refine ⟨_, requestComplete_eq hr hst hd, ?_⟩
  rw [hnote, cover_next _ _ _ _ hself rfl]
  have hs : (s.setNreq ch pos { r with st := 3 }).ncSeq ch + 1 = pos := hpos.symm
  rw [hs, cover_stop _ _ _ hstop]
  refine ⟨coverNext_ncSeq _ _ _ _ (by omega), by rw [coverNext_nreq, if_pos rfl], fun s1 hw => ?_⟩
  rw [State.coverNext, coverAt_mem]
  exact congrArg State.mem (putEnd_of_some hw)

/-! ### Acknowledgements (R334, R340) -/

section Acknowledged

variable {s : State} {ch pos : Nat} {r : NReq} (hr : s.nreq ch pos = some r) (hl : s.linkOk (s.reqUet ch r) = true)
  (hd : s.coreDown = false) (hst : r.st = 1) (hop : r.op ≠ 4) (off len : Nat)
include hr hl hd hst hop

/-- A range is placed that was not yet known to be. -/
theorem ack_placed (h2 : r.op ≠ 2) (hnew : (r.acked.any fun x => x.1 == off) = false) :
    exec (.netAckReceive ch pos off len 0) s = .next (
      if r.len ≤ (r.acked.map (·.2)).sum + len then
        s.finish ch pos { r with acked := r.acked ++ [(off, len)] } 0 r.len (some (s.reqUet ch r))
      else s.setNreq ch pos { r with acked := r.acked ++ [(off, len)] }) := by
  have hsum : NReq.ackedBytes { r with acked := r.acked ++ [(off, len)] } = (r.acked.map (·.2)).sum + len := by
    simp [NReq.ackedBytes]
  have hu : NReq.len { r with acked := r.acked ++ [(off, len)] } = r.len := rfl
  show execNetAckReceive ch pos off len 0 s = _
  have hst' : (r.st != 1) = false := by simp [hst]
  have h0 : (0 : BitVec 8).toNat = 0 := rfl
  simp only [execNetAckReceive, hr, hl, asleep_of_up hd, hd, hst', hop, h2, hnew, h0, hsum, hu, decide_false,
    Bool.not_true, Bool.false_eq_true, if_false, Bool.false_and, Bool.or_false]

/-- A SEND is refused for want of a RECV: it waits to be tried again, 7 times at most. -/
theorem ack_refused (hf : r.refused = false) : exec (.netAckReceive ch pos off r.sendRetries 0x15) s = .next (
    if 7 ≤ r.sendRetries then s.finish ch pos r 0x15 0 (some (s.reqUet ch r)) else s.setNreq ch pos { r with refused := true }) := by
  show execNetAckReceive ch pos off r.sendRetries 0x15 s = _
  simp [execNetAckReceive, hr, hl, asleep_of_up hd, hd, hst, hop, hf]

/-- A refusal of an earlier try says nothing, nor does a second one. -/
theorem ack_stale (h : r.refused = true ∨ len ≠ r.sendRetries) : exec (.netAckReceive ch pos off len 0x15) s = .next s := by
  show execNetAckReceive ch pos off len 0x15 s = _
  simp [execNetAckReceive, hr, hl, asleep_of_up hd, hd, hst, hop, h]

theorem ack_notAllowed : exec (.netAckReceive ch pos off len 0x12) s = .next (s.finish ch pos r 0x12 0 (some (s.reqUet ch r))) := by
  show execNetAckReceive ch pos off len 0x12 s = _
  simp [execNetAckReceive, hr, hl, asleep_of_up hd, hd, hst, hop]

theorem ack_short : exec (.netAckReceive ch pos off len 0x14) s = .next (s.finish ch pos r 0x14 len (some (s.reqUet ch r))) := by
  show execNetAckReceive ch pos off len 0x14 s = _
  simp [execNetAckReceive, hr, hl, asleep_of_up hd, hd, hst, hop]

end Acknowledged

/-! ### A packet is sent again (R342) -/

/-- The packet at an offset of a request over UET. -/
theorem packets_at (len off : Nat) (hlt : off < len) (hoff : off % 4096 = 0) :
    (packets true len).filter (fun x => x.1 == off) = [(off, min 4096 (len - off))] := by
  have hmul : 4096 * (off / 4096) = off := by omega
  have hmem : off / 4096 < (len + 4095) / 4096 := by omega
  have hone : (List.range ((len + 4095) / 4096)).filter (fun j => 4096 * j == off) = [off / 4096] := by
    have he : (fun j => 4096 * j == off) = fun j => j == off / 4096 := by
      funext j
      rw [Bool.eq_iff_iff, beq_iff_eq, beq_iff_eq]
      omega
    rw [he, List.filter_beq, List.Nodup.count List.nodup_range, if_pos (List.mem_range.mpr hmem)]
    rfl
  have hcomp : (fun x : Nat × Nat => x.1 == off) ∘ (fun j => (4096 * j, min 4096 (len - 4096 * j))) = fun j => 4096 * j == off := rfl
  rw [packets, if_pos rfl, List.filter_map, hcomp, hone, List.map_singleton, hmul]

theorem packets_length (len : Nat) : (packets true len).length = (len + 4095) / 4096 := by
  simp [packets]

section Resent

variable {s : State} {ch pos : Nat} {r : NReq} {off : Nat} (hr : s.nreq ch pos = some r) (hd : s.coreDown = false) (hst : r.st = 1)
  (hop : r.op ≠ 4) (hf : r.refused = false) (hu : s.reqUet ch r = true) (hlt : off < r.len) (hoff : off % 4096 = 0)
  (hnew : (r.acked.any fun x => x.1 == off) = false)
include hr hd hst hop hf hu hlt hoff hnew

theorem retransmit_eq : exec (.uetRetransmitTimeout ch pos off) s = .next (
    if 7 ≤ r.retries.getD off 0 then s.finish ch pos r 0x13 r.placed (some true)
    else s.sendFrom ch pos { r with retries := r.retries.insert off (r.retries.getD off 0 + 1) } [(off, min 4096 (r.len - off))]) := by
  show execUetRetransmitTimeout ch pos off s = _
  simp only [execUetRetransmitTimeout, hr, hd, hst, hop, hf, hu, hnew, packets_at _ _ hlt hoff, decide_false, Bool.or_false, Bool.not_true,
    bne_self_eq_false, List.isEmpty_cons, Bool.false_eq_true, if_false, apply_ite Host.Outcome.next]

/-- A packet that is sent again is one message; the data of a GET are asked for by naming the packet where there are several. -/
theorem retransmit_sends (h7 : r.retries.getD off 0 < 7) (hdata : r.op = 2 ∨ r.data.isSome) :
    Completes (.uetRetransmitTimeout ch pos off) s fun s' =>
      (∃ r', s'.nreq ch pos = some r' ∧ r'.st = 1 ∧ r'.retries.getD off 0 = r.retries.getD off 0 + 1) ∧
      ∃ port < 10, ∃ msg, s'.outs = s.outs ++ [.wire port off msg] ∧ msg.chain = ch ∧ msg.pos = pos ∧
        msg.only = if r.op = 2 ∧ 4096 < r.len then some off else none := by
  obtain ⟨r1, hr1⟩ : ∃ x : NReq, x = { r with retries := r.retries.insert off (r.retries.getD off 0 + 1) } := ⟨_, rfl⟩
  have hcount : r1.retries.getD off 0 = r.retries.getD off 0 + 1 := by
    rw [hr1]
    simp [SMap.getD_insert]
  have hop1 : r1.op = r.op := by rw [hr1]; rfl
  have hlen1 : r1.len = r.len := by rw [hr1]; rfl
  have hdata1 : r1.data = r.data := by rw [hr1]
  have hu1 : s.reqUet ch r1 = true := by rw [hr1]; exact hu
  refine ⟨_, by rw [retransmit_eq hr hd hst hop hf hu hlt hoff hnew, if_neg (by omega), ← hr1], ?_⟩
  clear hr1
  have one (r2 : NReq) (bs : List Byte) (x : Nat × Nat) (only : Option Nat) (h1 : r2.st = 1) (h2 : r2.retries = r1.retries) :
      let s' := (s.setNreq ch pos r2).send ch pos r1 bs [x] only
      (∃ r', s'.nreq ch pos = some r' ∧ r'.st = 1 ∧ r'.retries.getD off 0 = r.retries.getD off 0 + 1) ∧
      ∃ port < 10, ∃ msg, s'.outs = s.outs ++ [.wire port x.1 msg] ∧ msg.chain = ch ∧ msg.pos = pos ∧ msg.only = only := by
    intro s'
    obtain ⟨o, ho, houts, hn⟩ := send_one (s.setNreq ch pos r2) ch pos r1 bs x only
    obtain ⟨port, hport, rfl⟩ := carries_uet (s := s.setNreq ch pos r2) hu1 ho
    refine ⟨⟨r2, ?_, h1, by rw [h2, hcount]⟩, port, hport, _, houts, rfl, rfl, rfl⟩
    rw [nreq_congr hn]
    exact nreq_setNreq_self _ _ _ _
  by_cases h2 : r.op = 2
  · rw [sendFrom_get _ _ _ _ _ (hop1.trans h2), hu1, packets_length, hlen1]
    by_cases hmany : 4096 < r.len
    · have hl : ¬[(off, min 4096 (r.len - off))].length = (r.len + 4095) / 4096 := by
        rw [List.length_singleton]
        omega
      have ho : (if r.op = 2 ∧ 4096 < r.len then some off else none) = some off := if_pos ⟨h2, hmany⟩
      rw [if_neg hl, ho]
      exact one _ _ _ _ rfl rfl
    · have hl : [(off, min 4096 (r.len - off))].length = (r.len + 4095) / 4096 := by
        rw [List.length_singleton]
        omega
      have ho : (if r.op = 2 ∧ 4096 < r.len then some off else none) = none := if_neg fun h => hmany h.2
      rw [if_pos hl, ho]
      have h0 : off = 0 := by omega
      have h := one { r1 with st := 1 } [] (0, r.len) none rfl rfl
      rw [h0] at h ⊢
      exact h
  · obtain ⟨bs, hbs⟩ := Option.isSome_iff_exists.mp (hdata.resolve_left h2)
    have ho : (if r.op = 2 ∧ 4096 < r.len then some off else none) = none := if_neg fun h => h2 h.1
    rw [sendFrom_data _ _ _ _ _ bs (by rwa [hop1]) (by rw [hdata1, hbs]), ho]
    exact one _ _ _ _ rfl rfl

end Resent

/-! ### A refused SEND is tried again (R340) -/

/-- A SEND of which the next try has gone out. -/
def NReq.triedAgain (r : NReq) : NReq := { r with refused := false, sendRetries := r.sendRetries + 1, retries := [], wait := 0 }

section Retried

variable {s : State} {ch pos : Nat} {r : NReq} {bs : List Byte} (hr : s.nreq ch pos = some r) (hd : s.coreDown = false)
  (hf : r.refused = true) (hst : r.st = 1)
include hr hd hf hst

theorem sendRetry_noRoute (hn : s.noRoute ch r = true) : exec (.sendRetry ch pos) s = .next (s.finish ch pos r 0x13 0 none) := by
  show execSendRetry ch pos s = _
  simp [execSendRetry, hr, hd, hf, hst, hn]

theorem sendRetry_sends (hop : r.op = 3) (hdata : r.data = some bs) (hn : s.noRoute ch r = false) :
    ∃ r1 : NReq, r1.op = r.op ∧ r1.len = r.len ∧ s.reqUet ch r1 = s.reqUet ch r ∧ exec (.sendRetry ch pos) s =
      .next ((s.setNreq ch pos r.triedAgain).send ch pos r1 bs (packets (s.reqUet ch r) r1.len)) := by
  obtain ⟨r1, hr1⟩ : ∃ x : NReq, x = { r with refused := false, sendRetries := r.sendRetries + 1, retries := [] } := ⟨_, rfl⟩
  have htried : { r1 with st := 1, wait := 0, data := some bs } = r.triedAgain := by
    cases r
    simp only at hst hdata
    subst hst hdata hr1
    rfl
  have hsend : exec (.sendRetry ch pos) s = .next (s.sendFrom ch pos r1 (packets (s.reqUet ch r) r.len)) := by
    show execSendRetry ch pos s = _
    simp [execSendRetry, hr, hd, hf, hst, hn, hr1]
  have hop1 : r1.op = r.op := by rw [hr1]; rfl
  have hdata1 : r1.data = some bs := by rw [hr1]; exact hdata
  have hlen1 : r1.len = r.len := by rw [hr1]; rfl
  refine ⟨r1, hop1, hlen1, by rw [hr1]; rfl, ?_⟩
  rw [hsend, sendFrom_data _ _ _ _ _ bs (by omega) hdata1, htried, hlen1]

end Retried

end Sys2Proof.Machine
end

section
/-! SUPPORT. Requests of this device's chains: how they are read, and what the events of a request do (O51). -/

namespace Sys2Proof.Machine

/-! ### What a started request and a new try send -/

section Sent

variable {s s1 : State} {ch pos : Nat} {r : NReq} {bs : List Byte} (hr : s.nreq ch pos = some r)

section Start

variable (hm : s.mayStart ch pos r = true) (hv : r.invalid = false)
include hr hm hv

theorem startKazid_get (hk : s.peerKind (s.ncTenant ch) r.pix = 1) (hp : s.ports (s.peerAddr (s.ncTenant ch) r.pix) ≠ []) (hw : r.wait ≠ 2)
    (h2 : r.op = 2) :
    Completes (.netRequestStart ch pos) s fun s' => s'.nreq ch pos = some { r with st := 1 } ∧
      ∃ port ∈ s.ports (s.peerAddr (s.ncTenant ch) r.pix), ∃ msg, s'.outs = s.outs ++ [.wire port 0 msg] ∧ msg.op = 2 ∧ msg.chain = ch ∧
        msg.pos = pos ∧ msg.len = r.len ∧ msg.roff = r.roff ∧ msg.land = r.land ∧ msg.data = [] := by
  have hu : s.reqUet ch r = false := by simp [State.reqUet, hk]
  obtain ⟨o, ho, houts, hn⟩ := sendFrom_get_all s ch pos r h2
  obtain ⟨port, hport, rfl⟩ := carries_kazid (s := s.setNreq ch pos { r with st := 1 }) hu hp ho
  rw [hu] at houts hn
  exact ⟨_, start_kazid hr hm hv (by omega) (by omega) hk hp hw, hn, port, hport, _, houts, congrArg (BitVec.ofNat 8) h2, rfl, rfl, rfl, rfl,
    rfl, List.take_nil⟩

theorem startUet_get (hk : s.peerKind (s.ncTenant ch) r.pix = 2)
    (hf : natBit (s.reg (oFep (s.peerAddr (s.ncTenant ch) r.pix % 4096) + 16)) 56 = true) (hw : r.wait ≠ 2) (h2 : r.op = 2) :
    Completes (.netRequestStart ch pos) s fun s' => s'.nreq ch pos = some { r with st := 1 } ∧
      ∃ port < 10, ∃ msg, s'.outs = s.outs ++ [.wire port 0 msg] ∧ msg.op = 2 ∧ msg.chain = ch ∧ msg.pos = pos ∧
        msg.len = r.len ∧ msg.roff = r.roff ∧ msg.land = r.land ∧ msg.data = [] := by
  have hu : s.reqUet ch r = true := (reqUet_iff s ch r).mpr hk
  obtain ⟨o, ho, houts, hn⟩ := sendFrom_get_all s ch pos r h2
  obtain ⟨port, hport, rfl⟩ := carries_uet (s := s.setNreq ch pos { r with st := 1 }) hu ho
  rw [hu] at houts hn
  exact ⟨_, start_uet hr hm hv (by omega) (by omega) hk hf hw, hn, port, hport, _, houts, congrArg (BitVec.ofNat 8) h2, rfl, rfl, rfl, rfl,
    rfl, List.take_nil⟩

variable (h4 : r.op ≠ 4) (h6 : r.op ≠ 6)
include h4 h6

theorem startKazid_data (hk : s.peerKind (s.ncTenant ch) r.pix = 1) (hp : s.ports (s.peerAddr (s.ncTenant ch) r.pix) ≠ []) (hw : r.wait ≠ 2)
    (h2 : r.op ≠ 2) (hdata : r.data = none) (hread : s.netRead (s.ncAsid ch) r.laddr r.len = (s1, .ok bs false)) (houts : s1.outs = s.outs) :
    Completes (.netRequestStart ch pos) s fun s' => s'.nreq ch pos = some { r with st := 1, wait := 0, data := some bs } ∧
      ∃ port msg, s'.outs = s.outs ++ [.wire port 0 msg] ∧ msg.op = BitVec.ofNat 8 r.op ∧ msg.chain = ch ∧ msg.pos = pos ∧
        msg.data = bs.take r.len := by
  refine ⟨_, start_kazid hr hm hv h4 h6 hk hp hw, ?_⟩
  rw [sendFrom_read s s1 ch pos r _ bs h2 hdata hread, ← houts]
  obtain ⟨port, msg, ho, hop, hc, hpos, hd, hn⟩ := sendData_one s1 ch pos r { r with st := 1, wait := 0, data := some bs } bs
  exact ⟨hn, port, msg, ho, hop, hc, hpos, hd⟩

theorem startUet_data (hk : s.peerKind (s.ncTenant ch) r.pix = 2)
    (hf : natBit (s.reg (oFep (s.peerAddr (s.ncTenant ch) r.pix % 4096) + 16)) 56 = true) (hw : r.wait ≠ 2)
    (h2 : r.op ≠ 2) (hdata : r.data = none) (hread : s.netRead (s.ncAsid ch) r.laddr r.len = (s1, .ok bs false)) (houts : s1.outs = s.outs) :
    Completes (.netRequestStart ch pos) s fun s' => s'.nreq ch pos = some { r with st := 1, wait := 0, data := some bs } ∧
      ∃ ms, s'.outs = s.outs ++ ms ∧ ms.length = (r.len + 4095) / 4096 ∧ ∀ j < ms.length, ∃ port < 10, ∃ msg,
        ms[j]? = some (Out.wire port (4096 * j) msg) ∧ msg.op = BitVec.ofNat 8 r.op ∧ msg.chain = ch ∧ msg.pos = pos ∧
          msg.data = (bs.drop (4096 * j)).take (min 4096 (r.len - 4096 * j)) := by
  have hu1 : s1.reqUet ch r = true := by
    have ht := tables_netRead s (s.ncAsid ch) r.laddr r.len
    rw [hread] at ht
    rw [peerKind_congr ht]
    exact (reqUet_iff s ch r).mpr hk
  refine ⟨_, start_uet hr hm hv h4 h6 hk hf hw, ?_⟩
  rw [sendFrom_read s s1 ch pos r _ bs h2 hdata hread, ← houts]
  exact sendData_packets s1 ch pos r _ bs hu1

end Start

section Retry

variable (hd : s.coreDown = false) (hf : r.refused = true) (hst : r.st = 1) (hop : r.op = 3) (hdata : r.data = some bs)
include hr hd hf hst hop hdata

theorem sendRetry_uet (hk : s.peerKind (s.ncTenant ch) r.pix = 2) :
    Completes (.sendRetry ch pos) s fun s' => s'.nreq ch pos = some r.triedAgain ∧
      ∃ ms, s'.outs = s.outs ++ ms ∧ ms.length = (r.len + 4095) / 4096 ∧ ∀ j < ms.length, ∃ port < 10, ∃ msg,
        ms[j]? = some (Out.wire port (4096 * j) msg) ∧ msg.op = BitVec.ofNat 8 r.op ∧ msg.chain = ch ∧ msg.pos = pos ∧
          msg.data = (bs.drop (4096 * j)).take (min 4096 (r.len - 4096 * j)) := by
  have hu := (reqUet_iff s ch r).mpr hk
  obtain ⟨r1, hop1, hlen1, hu1, hi⟩ := sendRetry_sends hr hd hf hst hop hdata (by simp [State.noRoute, hk])
  rw [hu] at hi
  have h := sendData_packets s ch pos r1 r.triedAgain bs (hu1.trans hu)
  rw [hop1, hlen1] at h
  rw [hlen1] at hi
  exact ⟨_, hi, h⟩

theorem sendRetry_kazid (hk : s.peerKind (s.ncTenant ch) r.pix = 1) (hp : s.ports (s.peerAddr (s.ncTenant ch) r.pix) ≠ []) :
    Completes (.sendRetry ch pos) s fun s' => s'.nreq ch pos = some r.triedAgain ∧
      ∃ port msg, s'.outs = s.outs ++ [.wire port 0 msg] ∧ msg.op = 3 ∧ msg.data = bs.take r.len := by
  have hu : s.reqUet ch r = false := by simp [State.reqUet, hk]
  obtain ⟨r1, hop1, hlen1, _, hi⟩ := sendRetry_sends hr hd hf hst hop hdata (by simp [State.noRoute, hp])
  rw [hu] at hi
  obtain ⟨port, msg, ho, hmop, _, _, hd', hn⟩ := sendData_one s ch pos r1 r.triedAgain bs
  refine ⟨_, hi, hn, port, msg, ho, ?_, hlen1 ▸ hd'⟩
  rw [hmop, hop1, hop]
  rfl

end Retry

end Sent

/-! ### A request is read (R332) -/

/-- A request has been read. -/
def State.readAs (s : State) (c p : Nat) (r : NReq) : State := { s.setNreq c p r with nread := s.nread.insert c p }
/-- Where the next request stands: at NCHEAD after the last of those published together, else at the NEXT of this one. -/
def State.readOn (s : State) (c p : Nat) (r : NReq) : State :=
  if p = s.ncPub c || (s.nends.getD c []).any fun e => e.1 == p then
    { s with nnext := s.nnext.erase c }.setReg (oNchead c) (natBits r.next 6 42 * 64)
  else { s with nnext := s.nnext.insert c r.next }

theorem readOn_nread (s : State) (c p : Nat) (r : NReq) : (s.readOn c p r).nread = s.nread := by
  unfold State.readOn
  split <;> rfl

theorem readOn_nreqs (s : State) (c p : Nat) (r : NReq) : (s.readOn c p r).nreqs = s.nreqs := by
  unfold State.readOn
  split <;> rfl

theorem readOn_last (s : State) (c p : Nat) (r : NReq) (h : p = s.ncPub c ∨ ∃ e ∈ s.nends.getD c [], e.1 = p) :
    (s.readOn c p r).nnext.find? c = none ∧ (s.readOn c p r).reg (oNchead c) = natBits r.next 6 42 * 64 := by
  have hc : (p = s.ncPub c || (s.nends.getD c []).any fun e => e.1 == p) = true := by simpa using h
  rw [State.readOn, if_pos hc]
  refine ⟨?_, reg_setReg_self _ _ _ ?_⟩
  · simp [SMap.find_erase]
  · unfold natBits
    omega

theorem readOn_notLast (s : State) (c p : Nat) (r : NReq) (h : ¬(p = s.ncPub c ∨ ∃ e ∈ s.nends.getD c [], e.1 = p)) :
    (s.readOn c p r).nnext.find? c = some r.next := by
  have hc : ¬(p = s.ncPub c || (s.nends.getD c []).any fun e => e.1 == p) = true := by simpa using h
  rw [State.readOn, if_neg hc]
  exact SMap.find_insert_self _ _ _

theorem readNext_ok {s s1 : State} {ch : Nat} {bs : List Byte} (hn : s.nnext.find? ch = none)
    (hr : s.netRead (s.ncAsid ch) (natBits (s.reg (oNchead ch)) 6 42 * 64) 64 = (s1, .ok bs false)) :
    s.readNext ch = (s1.readAs ch (s.nread.getD ch 0 + 1) (NReq.mk' (BitVec.ofNat 512 (leNat bs)))).readOn ch (s.nread.getD ch 0 + 1)
      (NReq.mk' (BitVec.ofNat 512 (leNat bs))) := by
  have ha : (decide (2 ^ 48 ≤ natBits (s.reg (oNchead ch)) 6 42 * 64) || natBits (s.reg (oNchead ch)) 6 42 * 64 % 64 != 0) = false := by
    unfold natBits
    simp
    omega
  unfold State.readNext
  rw [hn]
  dsimp -zeta only
  extract_lets p a
  have ha' : a = natBits (s.reg (oNchead ch)) 6 42 * 64 := rfl
  rw [ha', ha, hr]
  rfl

theorem requestRead {s s1 : State} {ch : Nat} {bs : List Byte} (hd : s.coreDown = false) (hrun : s.ncRun ch = true)
    (hpub : s.nread.getD ch 0 < s.ncPub ch) (hf : s.atStoker (s.ncTenant ch) (.read ch) = false) (hn : s.nnext.find? ch = none)
    (hr : s.netRead (s.ncAsid ch) (natBits (s.reg (oNchead ch)) 6 42 * 64) 64 = (s1, .ok bs false)) :
    let p := s.nread.getD ch 0 + 1
    Completes (.netRequestRead ch) s fun s' => s'.nread.getD ch 0 = p ∧ ∃ r, s'.nreq ch p = some r ∧ r.st = 0 ∧
      r.req = BitVec.ofNat 512 (leNat bs) ∧
      (let last := p = s1.ncPub ch ∨ ∃ e ∈ s1.nends.getD ch [], e.1 = p
       (last → s'.nnext.find? ch = none ∧ s'.reg (oNchead ch) = natBits r.next 6 42 * 64) ∧ (¬ last → s'.nnext.find? ch = some r.next)) := by
  intro p
  have hi : exec (.netRequestRead ch) s = .next (s.readNext ch) := by
    show execNetRequestRead ch s = _
    simp [execNetRequestRead, State.mayRead, hd, hrun, hpub, hf]
  refine ⟨_, hi, ?_⟩
  rw [readNext_ok hn hr]
  obtain ⟨r, hr'⟩ : ∃ r, r = NReq.mk' (BitVec.ofNat 512 (leNat bs)) := ⟨_, rfl⟩
  have hst : r.st = 0 ∧ r.req = BitVec.ofNat 512 (leNat bs) := by rw [hr']; exact ⟨rfl, rfl⟩
  rw [← hr']
  refine ⟨?_, r, ?_, hst.1, hst.2, fun h => readOn_last _ _ _ _ h, fun h => readOn_notLast _ _ _ _ h⟩
  · rw [readOn_nread]
    simp [State.readAs, SMap.getD_insert, p]
  · rw [nreq_congr (readOn_nreqs _ _ _ _)]
    exact nreq_setNreq_self _ _ _ _

end Sys2Proof.Machine
end

section
/-! SUPPORT. Requests of peers: the entries of those under way, how one arrives, is refused and is placed (O51). -/

namespace Sys2Proof.Machine

/-! ### The entries of requests under way -/

theorem incoming_is_iff (e : Incoming) (u : Bool) (n c p : Nat) :
    e.is u n c p = true ↔ e.uet = u ∧ e.node = n ∧ e.chain = c ∧ e.pos = p := by
  simp [Incoming.is, and_assoc]

/-- The entry of a request is of that request. -/
theorem incAt_is (s : State) (u : Bool) (n c p : Nat) : (s.incAt u n c p).is u n c p = true := by
  unfold State.incAt
  cases h : s.incoming.find? fun (e : Incoming) => e.is u n c p with
  | none => simp [Incoming.new, Incoming.is]
  | some e => exact List.find?_some (p := fun (e : Incoming) => e.is u n c p) h

theorem incAt_congr {s t : State} (h : t.incoming = s.incoming) (u : Bool) (n c p : Nat) : t.incAt u n c p = s.incAt u n c p := by
  simp only [State.incAt, h]

theorem incAt_setInc (s : State) (e : Incoming) {u : Bool} {n c p : Nat} (h : e.is u n c p = true) : (s.setInc e).incAt u n c p = e := by
  obtain ⟨rfl, rfl, rfl, rfl⟩ := (incoming_is_iff e u n c p).mp h
  have hnone : (s.incoming.filter fun x => !x.is e.uet e.node e.chain e.pos).find? (fun x => x.is e.uet e.node e.chain e.pos) = none := by
    rw [List.find?_eq_none]
    intro x hx
    simpa using (List.mem_filter.mp hx).2
  simp only [State.incAt, State.setInc, List.find?_append, hnone, Option.none_or, List.find?_cons, h, Option.getD_some]

@[simp] theorem setInc_mem (s : State) (e : Incoming) : (s.setInc e).mem = s.mem := rfl
@[simp] theorem setInc_outs (s : State) (e : Incoming) : (s.setInc e).outs = s.outs := rfl
@[simp] theorem setInc_nreqs (s : State) (e : Incoming) : (s.setInc e).nreqs = s.nreqs := rfl
@[simp] theorem answer_mem (s : State) (m : NetMsg) (off len st : Nat) (bs : List Byte) : (s.answer m off len st bs).mem = s.mem := rfl
@[simp] theorem answer_nreqs (s : State) (m : NetMsg) (off len st : Nat) (bs : List Byte) : (s.answer m off len st bs).nreqs = s.nreqs := rfl
@[simp] theorem answer_incoming (s : State) (m : NetMsg) (off len st : Nat) (bs : List Byte) :
    (s.answer m off len st bs).incoming = s.incoming := rfl

/-- What is answered is sent last. -/
theorem answer_last (s : State) (m : NetMsg) (off len st : Nat) (bs : List Byte) :
    (s.answer m off len st bs).outs.getLast? = some (.reply m.uet m.node m.chain m.pos off len st bs) :=
  List.getLast?_concat

@[simp] theorem recvEnd_mem (s : State) (e : Incoming) (st bytes : Nat) (port : Option Bool) : (s.recvEnd e st bytes port).mem = s.mem := by
  unfold State.recvEnd
  repeat' split
  · rfl
  · rfl
  · exact finish_mem _ _ _ _ _ _ _
@[simp] theorem recvEnd_incoming (s : State) (e : Incoming) (st bytes : Nat) (port : Option Bool) :
    (s.recvEnd e st bytes port).incoming = s.incoming := by
  unfold State.recvEnd
  repeat' split
  · rfl
  · rfl
  · exact finish_incoming _ _ _ _ _ _ _

/-! ### A request is refused (R336, R345, R346) -/

/-- A request that is refused for a core reset or a stopped chain is answered 3 and stays refused. -/
theorem refuseReset_spec (s : State) (m : NetMsg) : (s.refuseReset m).outs = s.outs ++ [.reply m.uet m.node m.chain m.pos 0 0 3 []] ∧
    (s.refuseReset m).mem = s.mem ∧ (s.refuseReset m).nreqs = s.nreqs ∧
    ((s.refuseReset m).incAt m.uet m.node m.chain m.pos).fin =
      match (s.incAt m.uet m.node m.chain m.pos).fin with
      | some f => some f
      | none => some ((s.incAt m.uet m.node m.chain m.pos).total, 3) := by
  have hk := incAt_is s m.uet m.node m.chain m.pos
  cases hf : (s.incAt m.uet m.node m.chain m.pos).fin with
  | some f =>
    have e : s.refuseReset m = s.answer m 0 0 3 [] := by
      simp only [State.refuseReset, State.incOf, hf, Option.isSome_some, if_true]
    rw [e]
    exact ⟨rfl, rfl, rfl, hf⟩
  | none =>
    obtain ⟨e, hek, hef, he⟩ : ∃ e : Incoming, e.is m.uet m.node m.chain m.pos = true ∧
        e.fin = some ((s.incAt m.uet m.node m.chain m.pos).total, 3) ∧ s.refuseReset m = (s.setInc e).answer m 0 0 3 [] := by
      simp only [State.refuseReset, State.incOf, hf, Option.isSome_none, Bool.false_eq_true, if_false]
      refine ⟨_, ?_, ?_, rfl⟩
      · exact hk
      · rfl
    rw [he]
    refine ⟨rfl, rfl, rfl, ?_⟩
    rw [incAt_congr (answer_incoming _ _ _ _ _ _), incAt_setInc _ _ hek, hef]

theorem landTenant_lt (s : State) (i : Nat) : s.landTenant i < 16 := by
  unfold State.landTenant natBits
  omega

theorem landError_quiet_mem (s : State) (m : NetMsg) (ten st : Nat) (hq : s.Quiet) (h : ten < 16) : (s.landError m ten st).mem = s.mem := by
  have hquiet : (s.anyPort m.uet).2.Quiet := hq
  have hmem : (s.anyPort m.uet).2.mem = s.mem := rfl
  rw [← hmem]
  exact report_quiet_mem _ _ _ hquiet ⟨by simpa using h, by simp⟩

/-- A request that its landing does not allow is answered so last of all, and places nothing. -/
theorem refuse_spec (s : State) (m : NetMsg) (st : Nat) :
    (s.refuse m st).outs.getLast? = some (.reply m.uet m.node m.chain m.pos 0 0 st []) ∧ (s.Quiet → (s.refuse m st).mem = s.mem) := by
  unfold State.refuse
  refine ⟨answer_last _ _ _ _ _ _, fun hq => ?_⟩
  rw [answer_mem]
  exact landError_quiet_mem (s.setInc _) m _ st hq (landTenant_lt s m.land)

/-! ### A request arrives (R343, R344, R346, R388) -/

theorem resetting_of_up {s : State} (h : s.coreDown = false) : s.resetting = false := by
  revert h
  simp only [State.coreDown]
  cases s.resetting <;> simp

theorem asleep_down {s : State} (h : s.asleep = true) : s.resetting = false ∧ s.coreDown = true := by
  revert h
  simp only [State.coreDown, State.asleep]
  cases s.resetting <;> simp

section Arrives

variable {s : State} {m : NetMsg} (hl : s.linkOk m.uet = true) (off : Nat) (i : Arrival) (go : Incoming → State)
include hl

theorem arrive_resetting (hr : s.resetting = true) : s.arrive m off i go = s.refuseReset m := by
  simp [State.arrive, hl, hr]

theorem arrive_asleep (ha : s.asleep = true) : s.arrive m off i go = s.holdAsleep i := by
  obtain ⟨hr, hd⟩ := asleep_down ha
  simp [State.arrive, hl, hr, hd]

variable (hd : s.coreDown = false)
include hd

theorem arrive_ended {n st : Nat} (hf : (s.incOf m).fin = some (n, st)) :
    s.arrive m off i go = if st = 0 then s.again m off (s.incOf m) else s.answer m off n st [] := by
  simp [State.arrive, hl, hd, resetting_of_up hd, hf]

variable (hf : (s.incOf m).fin = none)
include hf

theorem arrive_seen (hs : (s.incOf m).seen.contains off = true) : s.arrive m off i go = s.answer m off m.data.length 0 [] := by
  rw [List.contains_iff_mem] at hs
  simp [State.arrive, hl, hd, resetting_of_up hd, hf, hs]

theorem arrive_go (hs : (s.incOf m).seen.contains off = false) (hw : (s.incOf m).wait = 0) (ht : s.inTurn m off (s.incOf m) = true) :
    s.arrive m off i go = go (s.incOf m) := by
  have hs' : off ∉ (s.incOf m).seen := by simpa using hs
  simp [State.arrive, hl, hd, resetting_of_up hd, hf, hs', hw, ht]

end Arrives

/-! ### A transfer is placed (R338, R340) -/

section Placed

variable {s s1 : State} {m : NetMsg} {off n : Nat} {tg : Target} {e : Incoming} (i : Arrival)
  (hw : s.netWrite tg.asid (tg.va + off) (m.data.take (tg.room - off)) m.poison (if m.op == 5 then some m.etype.toNat else none)
    ((m.data.take (tg.room - off)).length + 1) (e.part.getD off 0) = (s1, n, none)) (hn : m.ntfy = none)
include hw hn

/-- The last bytes of a message are placed: it is finished, with the RECV that it met, and acknowledged. -/
theorem placeAt_whole (hall : m.len ≤ e.total + (n - e.part.getD off 0)) (hroom : m.len ≤ tg.room) : ∃ e1 e2 : Incoming,
    (∀ u nd c p, e1.is u nd c p = e.is u nd c p) ∧ e1.seen = off :: e.seen ∧ e2.recv = e.recv ∧
    s.placeAt m off tg e i = ((s1.setInc e1).recvEnd e2 0 m.len (some m.uet)).answer m off m.data.length 0 [] := by
  unfold State.placeAt
  dsimp only
  rw [hw]
  dsimp only
  rw [if_pos (by omega)]
  unfold State.notify
  rw [hn]
  dsimp only
  rw [if_neg (by omega)]
  refine ⟨_, _, ?_, ?_, ?_, rfl⟩
  · exact fun _ _ _ _ => rfl
  · rfl
  · rfl

/-- Besides its bytes a transfer places nothing. -/
theorem placeAt_mem : (s.placeAt m off tg e i).mem = s1.mem := by
  unfold State.placeAt
  dsimp only
  rw [hw]
  dsimp only
  unfold State.notify
  rw [hn]
  dsimp only
  split
  · split <;> simp only [answer_mem, recvEnd_mem, setInc_mem]
  · simp only [answer_mem, setInc_mem]

end Placed

end Sys2Proof.Machine
end

section
/-! SUPPORT. Requests of peers: PUTs, PUTADDs, SENDs, GETs, their data and a peer's accesses (O51). -/

namespace Sys2Proof.Machine

/-! ### PUT and PUTADD (R336, R338, R339) -/

/-- The permission that a PUT or PUTADD needs. -/
def putPerm (m : NetMsg) : Nat := if m.op == 5 then 8 else 4
/-- The elements that a PUTADD adds. -/
def putAdds (m : NetMsg) : Option Nat := if m.op == 5 then some m.etype.toNat else none

section Put

variable {s : State} {m : NetMsg} {off : Nat} (hl : s.linkOk m.uet = true) (hd : s.coreDown = false) (hf : (s.incOf m).fin = none)
  (hs : (s.incOf m).seen.contains off = false) (hw : (s.incOf m).wait = 0) (ht : s.inTurn m off (s.incOf m) = true)
include hl hd hf hs hw ht

/-- A later transfer is placed in the target found when the first was accepted. -/
theorem takePut_again {tg : Target} (hg : (s.incOf m).target = some tg) :
    s.takePut m off = s.placeAt m off tg (s.incOf m) (.packet m off) := by
  unfold State.takePut
  rw [arrive_go hl off _ _ hd hf hs hw ht, hg]

/-- What the landing does not allow is refused. -/
theorem takePut_refused (hg : (s.incOf m).target = none) (hk : s.landOk m.land m.key (putPerm m) m.roff m.len = false) :
    s.takePut m off = s.refuse m 0x12 := by
  unfold putPerm at hk
  unfold State.takePut
  rw [arrive_go hl off _ _ hd hf hs hw ht, hg]
  dsimp only
  rw [hk]
  rfl

/-- The first transfer of one that it allows is placed from the landing's base on. -/
theorem takePut_first (hg : (s.incOf m).target = none) (hk : s.landOk m.land m.key (putPerm m) m.roff m.len = true) (hn : m.ntfy = none) :
    s.takePut m off = s.placeAt m off { asid := s.landAsid m.land, va := s.landBase m.land + m.roff, room := m.len } (s.incOf m)
      (.packet m off) := by
  unfold putPerm at hk
  unfold State.takePut
  rw [arrive_go hl off _ _ hd hf hs hw ht, hg]
  dsimp only
  rw [hk, hn]
  rfl

end Put

/-- A request is placed whole, in one transfer: acknowledged last, its one offset seen. -/
def State.PlacedWhole (s' : State) (m : NetMsg) : Prop :=
  s'.outs.getLast? = some (.reply m.uet m.node m.chain m.pos 0 m.data.length 0 []) ∧ (s'.incAt m.uet m.node m.chain m.pos).seen = [0]

/-- A message of one transfer that fits is placed whole. -/
theorem placeAt_one {s s1 : State} {m : NetMsg} {n : Nat} {tg : Target} {e : Incoming} (i : Arrival)
    (hw : s.netWrite tg.asid tg.va (m.data.take tg.room) m.poison (putAdds m) ((m.data.take tg.room).length + 1) 0 = (s1, n, none))
    (hn : m.ntfy = none) (hp : e.part = []) (hseen : e.seen = []) (hk : e.is m.uet m.node m.chain m.pos = true) (hroom : m.len ≤ tg.room)
    (hall : m.len ≤ n) : ∃ e1 e2 : Incoming, e2.recv = e.recv ∧
      s.placeAt m 0 tg e i = ((s1.setInc e1).recvEnd e2 0 m.len (some m.uet)).answer m 0 m.data.length 0 [] ∧
      (s.placeAt m 0 tg e i).PlacedWhole m ∧ (s.placeAt m 0 tg e i).mem = s1.mem := by
  have h0 : e.part.getD 0 0 = 0 := by rw [hp]; rfl
  have hw' : s.netWrite tg.asid (tg.va + 0) (m.data.take (tg.room - 0)) m.poison (if m.op == 5 then some m.etype.toNat else none)
      ((m.data.take (tg.room - 0)).length + 1) (e.part.getD 0 0) = (s1, n, none) := by
    rw [h0]
    exact hw
  obtain ⟨e1, e2, hkey, hseen1, hrecv, he⟩ := placeAt_whole i hw' hn (by omega) hroom
  refine ⟨e1, e2, hrecv, he, ⟨?_, ?_⟩, placeAt_mem i hw' hn⟩
  · rw [he]
    exact answer_last _ _ _ _ _ _
  · rw [he, incAt_congr (answer_incoming _ _ _ _ _ _), incAt_congr (recvEnd_incoming _ _ _ _ _), incAt_setInc _ _ (by rw [hkey, hk]), hseen1,
      hseen]

theorem new_is (m : NetMsg) : (Incoming.new m.uet m.node m.chain m.pos).is m.uet m.node m.chain m.pos = true := by
  simp [Incoming.new, Incoming.is]

/-- A fresh request's PUT or PUTADD of one transfer, which its landing allows, is placed whole. -/
theorem takePut_whole {s s1 : State} {m : NetMsg} {n : Nat} (hl : s.linkOk m.uet = true) (hd : s.coreDown = false)
    (hnew : s.incOf m = Incoming.new m.uet m.node m.chain m.pos) (ht : s.inTurn m 0 (s.incOf m) = true)
    (hk : s.landOk m.land m.key (putPerm m) m.roff m.len = true) (hn : m.ntfy = none) (hlen : m.len ≤ n)
    (hw : s.netWrite (s.landAsid m.land) (s.landBase m.land + m.roff) (m.data.take m.len) m.poison (putAdds m)
      ((m.data.take m.len).length + 1) 0 = (s1, n, none)) :
    (s.takePut m 0).PlacedWhole m ∧ (s.takePut m 0).mem = s1.mem := by
  have hfirst := takePut_first hl hd (off := 0) (by rw [hnew]; rfl) (by rw [hnew]; rfl) (by rw [hnew]; rfl) ht (by rw [hnew]; rfl) hk hn
  obtain ⟨_, _, _, _, hplaced, hmem⟩ := placeAt_one (e := s.incOf m)
    (tg := { asid := s.landAsid m.land, va := s.landBase m.land + m.roff, room := m.len }) (.packet m 0) hw hn
    (by rw [hnew]; rfl) (by rw [hnew]; rfl) (by rw [hnew]; exact new_is m) le_rfl hlen
  rw [hfirst]
  exact ⟨hplaced, hmem⟩

/-! ### SEND (R340) -/

/-- An open RECV is found without reading on. -/
theorem findRecv_open {s : State} {c p : Nat} (h : s.openRecv c = some p) (fuel : Nat) : s.findRecv c fuel = (s, some p) := by
  cases fuel with
  | zero => simp only [State.findRecv, h]
  | succ n => simp only [State.findRecv, h]

section Send

variable {s : State} {m : NetMsg} (hl : s.linkOk m.uet = true) (hd : s.coreDown = false) (hf : (s.incOf m).fin = none)
  (hs : (s.incOf m).seen.contains 0 = false) (hw : (s.incOf m).wait = 0) (ht : s.inTurn m 0 (s.incOf m) = true)
  (hg : (s.incOf m).target = none) (hkey : s.landKey 0 = m.key.toNat) (hc : m.rchain < 4096)
  (hten : s.ncTenant m.rchain = s.landTenant 0)
include hl hd hf hs hw ht hg hkey hc hten

/-- A SEND to a chain that does not run is refused as for a reset. -/
theorem takeSend_stopped (hrun : s.ncRun m.rchain = false) : s.takeSend m 0 = s.refuseReset m := by
  unfold State.takeSend
  rw [arrive_go hl 0 _ _ hd hf hs hw ht]
  simp [hg, hkey, hten, hrun, Nat.not_le.mpr hc]

/-- A SEND that finds an open RECV is matched with it and placed. -/
theorem takeSend_matched {p : Nat} {r : NReq} (hrun : s.ncRun m.rchain = true) (hord : m.ord = false) (hfirst : (s.incOf m).refused = none)
    (hopen : s.openRecv m.rchain = some p) (hr : s.nreq m.rchain p = some r) :
    s.takeSend m 0 = (s.setNreq m.rchain p (s.matchRecv m m.rchain r)).placeAt m 0
      { asid := s.ncAsid m.rchain, va := r.laddr, room := r.len } { s.incOf m with recv := some (m.rchain, p) } (.packet m 0) := by
  unfold State.takeSend
  rw [arrive_go hl 0 _ _ hd hf hs hw ht]
  simp only [hg, hkey, hten, hrun, hord, hfirst, findRecv_open hopen, hr, decide_eq_false (Nat.not_le.mpr hc), Option.any_none,
    bne_self_eq_false, Bool.or_false, Bool.false_and, Bool.not_true, Bool.false_eq_true, if_false]

end Send

/-- A SEND of one transfer that fits its RECV is placed whole, and the RECV ends. -/
theorem takeSend_whole {s s1 : State} {m : NetMsg} {n p : Nat} {r : NReq} (hl : s.linkOk m.uet = true) (hd : s.coreDown = false)
    (hnew : s.incOf m = Incoming.new m.uet m.node m.chain m.pos) (ht : s.inTurn m 0 (s.incOf m) = true) (hop : m.op = 3)
    (hord : m.ord = false) (hkey : s.landKey 0 = m.key.toNat) (hc : m.rchain < 4096) (hten : s.ncTenant m.rchain = s.landTenant 0)
    (hrun : s.ncRun m.rchain = true) (hopen : s.openRecv m.rchain = some p) (hr : s.nreq m.rchain p = some r) (hlen : m.len ≤ r.len)
    (hall : m.len ≤ n) (hn : m.ntfy = none)
    (hw : (s.setNreq m.rchain p (s.matchRecv m m.rchain r)).netWrite (s.ncAsid m.rchain) r.laddr (m.data.take r.len) m.poison none
      ((m.data.take r.len).length + 1) 0 = (s1, n, none)) (hkeep : s1.nreq m.rchain p = some (s.matchRecv m m.rchain r)) :
    (s.takeSend m 0).PlacedWhole m ∧ (s.takeSend m 0).mem = s1.mem ∧ ∃ r', (s.takeSend m 0).nreq m.rchain p = some r' ∧ r'.st = 2 ∧
      r'.status = 0 ∧ r'.bytes = m.len ∧ r'.imm = m.imm := by
  have hadds : putAdds m = none := by
    rw [putAdds, hop]
    rfl
  have hmatch := takeSend_matched hl hd (by rw [hnew]; rfl) (by rw [hnew]; rfl) (by rw [hnew]; rfl) ht (by rw [hnew]; rfl) hkey hc hten hrun
    hord (by rw [hnew]; rfl) hopen hr
  obtain ⟨e1, e2, hrecv, he, hplaced, hmem⟩ := placeAt_one (e := { s.incOf m with recv := some (m.rchain, p) })
    (tg := { asid := s.ncAsid m.rchain, va := r.laddr, room := r.len }) (.packet m 0) (by rw [hadds]; exact hw) hn
    (by rw [hnew]; rfl) (by rw [hnew]; rfl) (by rw [hnew]; exact new_is m) hlen hall
  rw [hmatch]
  refine ⟨hplaced, hmem, ?_⟩
  have hend : (s1.setInc e1).recvEnd e2 0 m.len (some m.uet) =
      (s1.setInc e1).finish m.rchain p (s.matchRecv m m.rchain r) 0 m.len (some m.uet) := by
    have hk : (s1.setInc e1).nreq m.rchain p = some (s.matchRecv m m.rchain r) := by rw [nreq_congr (setInc_nreqs _ _), hkeep]
    unfold State.recvEnd
    rw [hrecv]
    dsimp only
    rw [hk]
  rw [he, nreq_congr (answer_nreqs _ _ _ _ _ _), hend]
  exact finish_nreq _ _ _ _ _ _ _

/-! ### GET (R344) -/

/-- What is done is answered again, packet by packet. -/
theorem again_replies (s : State) (m : NetMsg) (off : Nat) (e : Incoming) (hr : e.reply ≠ []) (ho : m.only = none) :
    s.again m off e = { s with
      outs := s.outs ++ e.reply.map fun x => .reply m.uet m.node m.chain m.pos x.1 x.2.1 (if x.2.2.2 then 1 else 0) x.2.2.1 } := by
  have hfold (xs : List (Nat × Nat × List Byte × Bool)) (t : State) :
      xs.foldl (fun t x => t.answer m x.1 x.2.1 (if x.2.2.2 then 1 else 0) x.2.2.1) t =
        { t with outs := t.outs ++ xs.map fun x => .reply m.uet m.node m.chain m.pos x.1 x.2.1 (if x.2.2.2 then 1 else 0) x.2.2.1 } := by
    induction xs generalizing t with
    | nil => simp
    | cons x xs ih =>
      rw [List.foldl_cons, ih, List.map_cons]
      simp only [State.answer, State.emit, List.append_assoc, List.singleton_append]
  unfold State.again
  rw [if_neg (by simpa using hr), ho]
  simp only [Option.all_none, List.filter_true]
  exact hfold _ _

section Get

variable {s : State} {m : NetMsg} (hl : s.linkOk m.uet = true) (hd : s.coreDown = false)
include hl hd

/-- A GET that is answered already is answered again. -/
theorem incomingGet_again {n : Nat} (hf : (s.incOf m).fin = some (n, 0)) (hr : (s.incOf m).reply ≠ []) (ho : m.only = none) :
    exec (.incomingGet m) s = .next { s with
      outs := s.outs ++ (s.incOf m).reply.map fun x => .reply m.uet m.node m.chain m.pos x.1 x.2.1 (if x.2.2.2 then 1 else 0) x.2.2.1 } := by
  show execIncomingGet m s = _
  unfold execIncomingGet
  dsimp only
  rw [arrive_ended (m := { m with op := 2 }) hl 0 _ _ hd hf, if_pos rfl]
  exact congrArg _ (again_replies s { m with op := 2 } 0 (s.incOf m) hr ho)

variable (hf : (s.incOf m).fin = none) (hs : (s.incOf m).seen.contains 0 = false) (hw : (s.incOf m).wait = 0)
  (ht : s.inTurn m 0 (s.incOf m) = true) (hg : (s.incOf m).target = none)
include hf hs hw ht hg

theorem incomingGet_refused (hk : s.landOk m.land m.key 2 m.roff m.len = false) :
    exec (.incomingGet m) s = .next (s.refuse { m with op := 2 } 0x12) := by
  show execIncomingGet m s = _
  unfold execIncomingGet
  dsimp only
  rw [arrive_go (m := { m with op := 2 }) hl 0 _ _ hd hf hs hw ht]
  have hg' : (s.incOf { m with op := 2 }).target = none := hg
  rw [hg']
  dsimp only
  rw [hk]
  rfl

theorem incomingGet_first (hk : s.landOk m.land m.key 2 m.roff m.len = true) : exec (.incomingGet m) s =
    .next (s.serve { m with op := 2 } { asid := s.landAsid m.land, va := s.landBase m.land + m.roff, room := m.len } (s.incOf m)) := by
  show execIncomingGet m s = _
  unfold execIncomingGet
  dsimp only
  rw [arrive_go (m := { m with op := 2 }) hl 0 _ _ hd hf hs hw ht]
  have hg' : (s.incOf { m with op := 2 }).target = none := hg
  rw [hg']
  dsimp only
  rw [hk]
  rfl

end Get

/-- Over the Kazid Link the bytes of a landing are served in one answer, with status 1 where they are poisoned. -/
theorem serve_kazid {s s1 : State} {m : NetMsg} {tg : Target} {bs : List Byte} {bad : Bool} (e : Incoming) (hu : m.uet = false)
    (ho : m.only = none) (hr : s.netRead tg.asid tg.va m.len = (s1, .ok bs bad)) : ∃ e',
    s.serve m tg e = (s1.setInc e').answer m 0 m.len (if bad then 1 else 0) bs := by
  have hps : packets m.uet m.len = [(0, m.len)] := by rw [packets, hu]; rfl
  have hr' : s.netRead tg.asid (tg.va + 0) m.len = (s1, .ok bs bad) := hr
  refine ⟨{ e with deliv := true, wait := 0, fin := some (m.len, 0), reply := [(0, m.len, bs, bad)] }, ?_⟩
  unfold State.serve
  rw [hps]
  simp only [gotList, hr', Got.andThen]
  rw [again_replies _ _ _ _ (by simp) ho]
  rfl

end Sys2Proof.Machine
end

section
/-! SUPPORT. Data and accesses that arrive from peers, and ports that are lost (O51). -/

namespace Sys2Proof.Machine

/-! ### What waits below H0 (R388) -/

/-- Something that arrives below H0 waits at its port and wakes the device; nothing else happens. -/
theorem holdAsleep_spec (s : State) (i : Arrival) : (s.holdAsleep i).waking = true ∧
    (s.holdAsleep i).portHeld = s.portHeld ++ [.arrival i] ∧ (s.holdAsleep i).nreqs = s.nreqs ∧ (s.holdAsleep i).mem = s.mem ∧
    (s.holdAsleep i).outs = s.outs ∧ (s.holdAsleep i).teams = s.teams ∧ (s.holdAsleep i).engOut = s.engOut :=
  ⟨rfl, rfl, rfl, rfl, rfl, rfl, rfl⟩

/-! ### Packets by their operation (R7, R344, R345) -/

theorem packet_put (s : State) (m : NetMsg) (off : Nat) (h : m.op = 1 ∨ m.op = 5) :
    exec (.uetPacketReceive m off) s = .next (s.takePut m off) := by
  show execUetPacketReceive m off s = _
  unfold execUetPacketReceive
  rcases h with h | h <;> (rw [h]; rfl)

theorem packet_send (s : State) (m : NetMsg) (off : Nat) (h : m.op = 3) : exec (.uetPacketReceive m off) s = .next (s.takeSend m off) := by
  show execUetPacketReceive m off s = _
  unfold execUetPacketReceive
  rw [h]
  rfl

theorem packet_get (s : State) (m : NetMsg) (off : Nat) (h : m.op = 2) : exec (.uetPacketReceive m off) s = .next (s.takeGet m off) := by
  show execUetPacketReceive m off s = _
  unfold execUetPacketReceive
  rw [h]
  rfl

/-- An operation that the transport does not implement. -/
def unknownOp (m : NetMsg) : Prop := m.op ≠ 1 ∧ m.op ≠ 2 ∧ m.op ≠ 3 ∧ m.op ≠ 5

theorem packet_unknown {s : State} {m : NetMsg} (off : Nat) (h : unknownOp m) (hl : s.linkOk m.uet = true) :
    exec (.uetPacketReceive m off) s = .next (
      if s.resetting then s.refuseReset m
      else if s.coreDown then s.holdAsleep (.packet m off)
      else (s.anyPort m.uet).2.report (s.anyPort m.uet).1 { cat := 7, code := 2, aux0 := m.op.toNat }) := by
  obtain ⟨h1, h2, h3, h5⟩ := h
  have ne (v : BitVec 8) (hv : m.op ≠ v) : m.op.toNat ≠ v.toNat := fun e => hv (BitVec.eq_of_toNat_eq e)
  show execUetPacketReceive m off s = _
  unfold execUetPacketReceive
  split
  · exact absurd ‹_› (ne 1 h1)
  · exact absurd ‹_› (ne 5 h5)
  · exact absurd ‹_› (ne 3 h3)
  · exact absurd ‹_› (ne 2 h2)
  · rw [hl]
    simp only [Bool.not_true, Bool.false_eq_true, if_false, apply_ite Host.Outcome.next]

/-- A packet below H0 waits at its port. -/
theorem packet_asleep {s : State} {m : NetMsg} (off : Nat) (hl : s.linkOk m.uet = true) (ha : s.asleep = true) :
    exec (.uetPacketReceive m off) s = .next (s.holdAsleep (.packet m off)) := by
  obtain ⟨hr, hd⟩ := asleep_down ha
  by_cases h15 : m.op = 1 ∨ m.op = 5
  · rw [packet_put s m off h15, State.takePut, arrive_asleep hl off _ _ ha]
  by_cases h3 : m.op = 3
  · rw [packet_send s m off h3, State.takeSend, arrive_asleep hl off _ _ ha]
  by_cases h2 : m.op = 2
  · rw [packet_get s m off h2]
    simp [State.takeGet, hr, hl, hd]
  · rw [packet_unknown off ⟨fun h => h15 (.inl h), h2, h3, fun h => h15 (.inr h)⟩ hl, hr, hd]
    rfl

/-- An acknowledgement below H0 waits at its port. -/
theorem ack_asleep {s : State} {ch pos : Nat} {r : NReq} (hr : s.nreq ch pos = some r) (hl : s.linkOk (s.reqUet ch r) = true)
    (ha : s.asleep = true) (off len : Nat) (st : BitVec 8) :
    exec (.netAckReceive ch pos off len st) s = .next (s.holdAsleep (.ack ch pos off len st)) := by
  show execNetAckReceive ch pos off len st s = _
  simp [execNetAckReceive, hr, hl, ha]

/-- What the transport does not implement is recorded and discarded. -/
theorem packet_unknown_recorded {s : State} {m : NetMsg} (h : unknownOp m) (hl : s.linkOk m.uet = true) (hd : s.coreDown = false)
    (hq : s.Quiet) : Completes (.uetPacketReceive m 0) s fun s' => s'.outs = s.outs ∧ s'.mem = s.mem ∧
      ∃ src, Reports s s' src { cat := 7, code := 2, aux0 := m.op.toNat } := by
  have hq' : (s.anyPort m.uet).2.Quiet := hq
  have hin : Err.Within { cat := 7, code := 2, aux0 := m.op.toNat } 16 := ⟨by simp, by simp⟩
  refine ⟨_, packet_unknown 0 h hl, ?_⟩
  rw [resetting_of_up hd, hd]
  exact ⟨report_quiet_outs _ _ _ hq' hin, report_quiet_mem _ _ _ hq' hin, _, report_quiet_reports _ _ _ hq' hin⟩

/-! ### The data of a GET (R342, R344, R345) -/

/-- The data of a GET in one packet end it; poison shows in its status. -/
theorem takeGet_whole {s s1 : State} {m : NetMsg} {n : Nat} {r : NReq} (hl : s.linkOk m.uet = true) (hd : s.coreDown = false)
    (hr : s.nreq m.chain m.pos = some r) (hst : r.st = 1) (hop : r.op = 2) (hw : r.wait = 0) (hack : r.acked = []) (hpart : r.part = [])
    (hlen : r.len ≤ n) (hord : r.ord = true → ∀ x ∈ s.ordBefore m.chain m.pos r, x.2.op ≠ 2)
    (hwr : s.netWrite (s.ncAsid m.chain) r.laddr (m.data.take r.len) m.poison none ((m.data.take r.len).length + 1) 0 = (s1, n, none)) :
    ∃ r', (s.takeGet m 0).nreq m.chain m.pos = some r' ∧ r'.st = 2 ∧ r'.status = (if r.poison || m.poison then 1 else 0) ∧
      r'.bytes = r.len := by
  have hturn : s.dataInTurn m 0 r = true := by
    unfold State.dataInTurn
    cases ho : r.ord with
    | false => rfl
    | true =>
      have hall : ((s.ordBefore m.chain m.pos r).all fun x => x.2.op != 2) = true := by simpa using hord ho
      rw [hall]
      simp
  have hp0 : r.part.getD 0 0 = 0 := by rw [hpart]; rfl
  obtain ⟨r1, hpoison, hsame, he⟩ : ∃ r1 : NReq, r1.poison = (r.poison || m.poison) ∧ r1.len = r.len ∧ s.takeGet m 0 =
      let t := s1.finish m.chain m.pos r1 (if r1.poison then 1 else 0) r1.len (some m.uet)
      if m.uet then t.answer m 0 n 0 [] else t := by
    obtain ⟨r1, hr1⟩ : ∃ x : NReq,
        x = { r with st := 1, wait := 0, acked := [] ++ [(0, n)], part := r.part.erase 0, poison := r.poison || m.poison } := ⟨_, rfl⟩
    have hfull : r1.len ≤ r1.ackedBytes := by
      have h : r.len ≤ ([(0, n)].map (·.2)).sum := by simpa using hlen
      rw [hr1]
      exact h
    refine ⟨r1, by rw [hr1], by rw [hr1]; rfl, ?_⟩
    subst hr1
    unfold State.takeGet
    dsimp only
    rw [resetting_of_up hd, hl, hd, hr]
    dsimp only
    rw [hack, hturn, hst, hop, hw, hp0]
    dsimp only [Nat.add_zero, Nat.sub_zero, List.find?_nil]
    rw [hwr]
    dsimp only
    rw [if_pos hfull]
    rfl
  rw [he]
  obtain ⟨r', hn, hst', hstatus, hbytes, _⟩ :=
    finish_nreq s1 m.chain m.pos r1 (if r1.poison then 1 else 0) r1.len (some m.uet)
  refine ⟨r', ?_, hst', by rw [hstatus, hpoison], by rw [hbytes, hsame]⟩
  dsimp only
  split
  · rw [nreq_congr (answer_nreqs _ _ _ _ _ _), hn]
  · exact hn

end Sys2Proof.Machine
end

section
/-! SUPPORT. A peer's accesses, acknowledged stores, and ports that are lost (O51). -/

namespace Sys2Proof.Machine

/-! ### Accesses of a peer's teams (R59, R337) -/

section Access

variable {s : State} {m : NetMsg} (hl : s.linkOk m.uet = true)
include hl

theorem peerAccess_resetting (hr : s.resetting = true) (kind : BitVec 8) :
    exec (.peerAccessRequest m kind) s = .next (s.answer m 0 0 3 []) := by
  show execPeerAccessRequest m kind s = _
  simp [execPeerAccessRequest, hl, hr]

variable (hd : s.coreDown = false)
include hd

/-- A load is answered with the bytes that it reads. -/
theorem peerLoad {s1 : State} {bs : List Byte} {bad : Bool} (hk : s.landOk m.land m.key 2 m.roff m.len = true)
    (hr : s.netRead (s.landAsid m.land) (s.landBase m.land + m.roff) m.len = (s1, .ok bs bad)) :
    exec (.peerAccessRequest m 0) s = .next (s1.answer m 0 m.len (if bad then 1 else 0) bs) := by
  show execPeerAccessRequest m 0 s = _
  have h0 : (0 : BitVec 8).toNat = 0 := rfl
  simp only [execPeerAccessRequest, h0, hl, hd, resetting_of_up hd, if_true, hk, hr, Bool.not_true, Bool.false_eq_true, if_false]

/-- A store is acknowledged once it is written. -/
theorem peerStore {s1 : State} (hk : s.landOk m.land m.key 4 m.roff m.len = true)
    (hw : s.netPut 0 (s.landAsid m.land) (s.landBase m.land + m.roff) m.data m.poison (some fun _ b => b) .store = (s1, none)) :
    exec (.peerAccessRequest m 1) s = .next (s1.answer m 0 m.data.length 0 []) := by
  show execPeerAccessRequest m 1 s = _
  have h1 : (1 : BitVec 8).toNat = 1 := rfl
  simp only [execPeerAccessRequest, h1, hl, hd, resetting_of_up hd, hk, hw, Nat.one_ne_zero, if_true, Bool.not_true, Bool.false_eq_true,
    if_false]

/-- An addition is answered with the old word. -/
theorem peerAdd {s1 s2 : State} {p : Place} {gpa : Nat} {old : List Byte} (hk : s.landOk m.land m.key 6 m.roff m.len = true)
    (hr : s.netReach (s.landAsid m.land) (s.landBase m.land + m.roff) .atomic = (s1, .at' p gpa)) (hh : s1.placeHeld p = (s1, false))
    (hg : s1.getPlace (dteTenant (s.dte (s.landAsid m.land))) gpa p 4 (dteKtag (s.dte (s.landAsid m.land))) = (s2, old, false)) :
    exec (.peerAccessRequest m 2) s = .next ((s2.putPlace { path := 0 } (dteTenant (s.dte (s.landAsid m.land))) gpa p
      (natLE 4 (wordOf (leNat old) + wordOf (leNat m.data)).toNat) (dteKtag (s.dte (s.landAsid m.land)))).answer m 0 4 0 old) := by
  show execPeerAccessRequest m 2 s = _
  simp [execPeerAccessRequest, hl, hd, resetting_of_up hd, hk, hr, hh, hg, atomByCode]

end Access

/-! ### Acknowledged stores (R59, R65, R388) -/

section Stored

variable {s : State} {k : Nat} (hl : s.linkOk false = true)
include hl

theorem storeAck_asleep (ha : s.asleep = true) : exec (.peerStoreAcknowledge k) s = .next (s.holdAsleep (.stored k)) := by
  show execPeerStoreAcknowledge k s = _
  simp [execPeerStoreAcknowledge, hl, ha]

variable (ha : s.asleep = false)
include ha

/-- A team waits for one store less. -/
theorem storeAck_team {t : Team} (ht : s.TeamIs k t) (hk : k < 86016) (hp : t.peerOut ≠ []) :
    Completes (.peerStoreAcknowledge k) s fun s' => ∃ i < t.peerOut.length, s'.TeamIs k { t with peerOut := t.peerOut.eraseIdx i } := by
  have hi : exec (.peerStoreAcknowledge k) s = .next (s.freshNat.2.modTeam k fun t =>
      { t with peerOut := t.peerOut.eraseIdx (s.freshNat.1 % t.peerOut.length) }) := by
    show execPeerStoreAcknowledge k s = _
    simp only [execPeerStoreAcknowledge, hl, ha, hk, if_true, Bool.not_true, Bool.false_eq_true, if_false]
  have ht' : s.freshNat.2.TeamIs k t := ht
  exact ⟨_, hi, _, Nat.mod_lt _ (List.length_pos_iff.mpr hp), modTeam_team _ k t _ ht'⟩

/-- An engine waits for one store less. -/
theorem storeAck_engine (hk : 86016 ≤ k) : Completes (.peerStoreAcknowledge k) s fun s' =>
    s'.engOut.getD (k - 86016) 0 = s.engOut.getD (k - 86016) 0 - 1 ∧ s'.teams = s.teams := by
  have hi : exec (.peerStoreAcknowledge k) s =
      .next { s with engOut := s.engOut.setD (k - 86016) (s.engOut.getD (k - 86016) 0 - 1) 0 } := by
    show execPeerStoreAcknowledge k s = _
    simp only [execPeerStoreAcknowledge, hl, ha, Nat.not_lt.mpr hk, Bool.not_true, Bool.false_eq_true, if_false]
  refine ⟨_, hi, ?_, rfl⟩
  dsimp only
  rw [SMap.getD_setD, if_pos rfl]

end Stored

/-! ### A port is lost (R341) -/

theorem SMap.mem_of_find {α : Type} (m : SMap α) {k : Nat} {v : α} (h : m.find? k = some v) : (k, v) ∈ m := by
  induction m with
  | nil => cases h
  | cons x m ih =>
    obtain ⟨j, u⟩ := x
    unfold SMap.find? at h
    split at h
    · next hj =>
      cases h
      cases hj
      exact .head _
    · exact .tail _ (ih h)

/-- A request of the table stands in the chain's list. -/
theorem nreq_mem {s : State} {c p : Nat} {r : NReq} (h : s.nreq c p = some r) : ∃ q, (c, q) ∈ s.nreqs ∧ (p, r) ∈ q := by
  cases hq : s.nreqs.find? c with
  | none => simp [State.nreq, State.chainReqs, SMap.getD, hq, SMap.find?] at h
  | some q =>
    have hr : q.find? p = some r := by simpa [State.nreq, State.chainReqs, SMap.getD, hq] using h
    exact ⟨q, SMap.mem_of_find _ hq, SMap.mem_of_find _ hr⟩

/-- A fold that meets `a` reaches what `a` brings about, where each step keeps that. -/
theorem foldl_reaches {α β : Type} (Inv Done : β → Prop) (f : β → α → β) (hinv : ∀ b a, Inv b → Inv (f b a))
    (hkeep : ∀ b a, Inv b → Done b → Done (f b a)) {a : α} (hdo : ∀ b, Inv b → Done (f b a)) {l : List α} (ha : a ∈ l) {b : β}
    (h : Inv b) : Done (l.foldl f b) := by
  have hboth (l : List α) (b : β) (hi : Inv b) (hd : Done b) : Done (l.foldl f b) :=
    (foldl_keeps (fun b => Inv b ∧ Done b) f (fun b a h => ⟨hinv b a h.1, hkeep b a h.1 h.2⟩) l b ⟨hi, hd⟩).2
  induction l generalizing b with
  | nil => cases ha
  | cons x l ih =>
    cases ha with
    | head => exact hboth l _ (hinv b a h) (hdo b h)
    | tail _ ha => exact ih ha (hinv b x h)

theorem noRoute_congr {s t : State} (hreg : ∀ off, off = oKznode ∨ 0x100000 ≤ off → t.reg off = s.reg off)
    (hp : t.portsDown = s.portsDown) (c : Nat) (r : NReq) : t.noRoute c r = s.noRoute c r := by
  have hc : oNccfg c = 0x100000 + 0x40 * c := rfl
  have hpeer (ten i : Nat) : oPeer ten i = 0x200000 + 0x10000 * ten + 0x10 * i := rfl
  have hten : t.ncTenant c = s.ncTenant c := by
    unfold State.ncTenant
    rw [hreg _ (.inr (by omega))]
  unfold State.noRoute State.peerKind State.peerAddr State.peerLo State.ports
  rw [hten, hreg _ (.inr (by rw [hpeer]; omega)), hreg _ (.inl rfl), hp]

/-- A request under way to a node that no port reaches ends; the others stay. -/
def State.cutOne (s : State) (c : Nat) (y : Nat × NReq) : State :=
  if y.2.st == 1 && y.2.op != 4 && s.noRoute c y.2 then s.finish c y.1 y.2 0x13 y.2.placed (some false) else s

theorem cutOff_eq (s : State) : s.cutOff = s.nreqs.foldl (fun s x => x.2.foldl (fun s y => s.cutOne x.1 y) s) s := rfl

/-- What each end of a request keeps, the loss of a route keeps. -/
theorem cutOff_keeps (P : State → Prop) (hP : ∀ t c p r, P t → P (t.finish c p r 0x13 r.placed (some false))) (s : State) (h : P s) :
    P s.cutOff := by
  rw [cutOff_eq]
  refine foldl_keeps P _ (fun t x ht => foldl_keeps P _ (fun t y ht => ?_) _ _ ht) _ _ h
  unfold State.cutOne
  split
  · exact hP t x.1 y.1 y.2 ht
  · exact ht

/-- The request has ended for want of a route. -/
def State.CutAt (s : State) (c p : Nat) : Prop := ∃ r, s.nreq c p = some r ∧ r.st = 2 ∧ r.status = 0x13

theorem cutAt_finish (s : State) (c p : Nat) (r : NReq) : (s.finish c p r 0x13 r.placed (some false)).CutAt c p := by
  obtain ⟨r', hr, hst, hstatus, _⟩ := finish_nreq s c p r 0x13 r.placed (some false)
  exact ⟨r', hr, hst, hstatus⟩

theorem cutAt_finish_other {s : State} {c p : Nat} (h : s.CutAt c p) (c' p' : Nat) (r : NReq) :
    (s.finish c' p' r 0x13 r.placed (some false)).CutAt c p := by
  by_cases hk : c = c' ∧ p = p'
  · obtain ⟨rfl, rfl⟩ := hk
    exact cutAt_finish s c p r
  · obtain ⟨src, n, e⟩ := finish_eq s c' p' r 0x13 r.placed (some false)
    obtain ⟨r', hr, hend⟩ := h
    refine ⟨r', ?_, hend⟩
    rw [e, nreq_setNreq, if_neg hk]
    exact hr

/-- The registers and the ports in service stay. -/
def State.SameNet (s t : State) : Prop := t.mgmt = s.mgmt ∧ t.portsDown = s.portsDown

theorem sameNet_reg {s t : State} (h : s.SameNet t) (off : Nat) : t.reg off = s.reg off := by
  simp only [State.reg, h.1]

theorem sameNet_cutOne {s t : State} (h : s.SameNet t) (c : Nat) (y : Nat × NReq) : s.SameNet (t.cutOne c y) := by
  unfold State.cutOne
  split
  · exact ⟨(finish_mgmt _ _ _ _ _ _ _).trans h.1, (finish_portsDown _ _ _ _ _ _ _).trans h.2⟩
  · exact h

theorem cutAt_cutOne {s : State} {c p : Nat} (h : s.CutAt c p) (c' : Nat) (y : Nat × NReq) : (s.cutOne c' y).CutAt c p := by
  unfold State.cutOne
  split
  · exact cutAt_finish_other h _ _ _
  · exact h

theorem cutOne_cuts {s : State} {c p : Nat} {r : NReq} (hst : r.st = 1) (hop : r.op ≠ 4) (hn : s.noRoute c r = true) :
    (s.cutOne c (p, r)).CutAt c p := by
  have hc : (r.st == 1 && r.op != 4 && s.noRoute c r) = true := by simp [hst, hop, hn]
  unfold State.cutOne
  rw [if_pos hc]
  exact cutAt_finish s c p r

/-- Every request under way that no port can carry any more ends. -/
theorem cutOff_cuts {s : State} {c p : Nat} {r : NReq} (hr : s.nreq c p = some r) (hst : r.st = 1) (hop : r.op ≠ 4)
    (hn : s.noRoute c r = true) : s.cutOff.CutAt c p := by
  obtain ⟨q, hq, hp⟩ := nreq_mem hr
  have hdo (t : State) (ht : s.SameNet t) : (t.cutOne c (p, r)).CutAt c p :=
    cutOne_cuts hst hop ((noRoute_congr (fun off _ => sameNet_reg ht off) ht.2 c r).trans hn)
  rw [cutOff_eq]
  refine foldl_reaches s.SameNet (fun (t : State) => t.CutAt c p) _
    (fun t x ht => foldl_keeps s.SameNet _ (fun t y h => sameNet_cutOne h x.1 y) _ _ ht)
    (fun t x _ h => foldl_keeps (fun (t : State) => t.CutAt c p) _ (fun t y h => cutAt_cutOne h x.1 y) _ _ h) (fun t ht => ?_) hq ⟨rfl, rfl⟩
  exact foldl_reaches s.SameNet (fun (t : State) => t.CutAt c p) _ (fun t y h => sameNet_cutOne h c y) (fun t y _ h => cutAt_cutOne h c y) hdo hp ht

/-- A port that leaves service is recorded, and ends the requests that it was the last to carry. -/
theorem portLost {s : State} {port : BitVec 6} (hport : port.toNat < 36) (hup : s.portsDown.has port.toNat = false) :
    let s2 : State := { s with portsDown := s.portsDown.insert port.toNat () }
    Completes (.kazidPortLost port) s fun s' => s'.portsDown.has port.toNat = true ∧
      (∀ ch pos r, s.nreq ch pos = some r → r.st = 1 → r.op ≠ 4 → s2.noRoute ch r = true → s'.CutAt ch pos) ∧
      (s.Quiet → Reports s s' (srcPort port.toNat) { cat := 8, code := 5 }) := by
  intro s2
  obtain ⟨t, ht⟩ : ∃ t, t = s2.report (srcPort port.toNat) { cat := 8, code := 5 } := ⟨_, rfl⟩
  have hi : exec (.kazidPortLost port) s = .next t.cutOff := by
    show execKazidPortLost port s = _
    simp [execKazidPortLost, Nat.not_le.mpr hport, hup, ht, s2]
  have hin : Err.Within { cat := 8, code := 5 } 16 := ⟨by simp, by simp⟩
  have hside : MemorySide s2 t := ht ▸ side_report _ _ _
  have htab : TableFrame s2 t := ht ▸ tables_report s2 _ _ ⟨by simp, by simp⟩
  have hnreqs : t.nreqs = s2.nreqs := side_nreqs hside
  have hdown : t.portsDown = s2.portsDown := side_portsDown hside
  have hreg (off : Nat) (ho : off = oKznode ∨ 0x100000 ≤ off) : t.reg off = s2.reg off := by
    have hz : oKznode = 0x30 := rfl
    have hel : oElstat = 0x10 := rfl
    have het (ld : Nat) : oEvtail ld = 0x1000 + 0x100 * ld + 0x20 := rfl
    rcases ho with ho | ho
    · exact hside.2 off (by omega) fun ld => by have := het ld; omega
    · exact htab.reg off ho
  refine ⟨_, hi, ?_, fun ch pos r hr hst hop hn => ?_, fun hq => ?_⟩
  · have hkept := cutOff_keeps (fun u => u.portsDown = t.portsDown) (fun u c p r hu => (finish_portsDown _ _ _ _ _ _ _).trans hu) t rfl
    rw [hkept, hdown]
    simp [s2, SMap.has, SMap.find_insert_self]
  · have hr' : t.nreq ch pos = some r := by
      rw [nreq_congr hnreqs]
      exact hr
    exact cutOff_cuts hr' hst hop (by rw [noRoute_congr hreg hdown, hn])
  · have hkept := cutOff_keeps (fun u => u.records = t.records) (fun u c p r hu => (finish_records _ _ _ _ _ _ _).trans hu) t rfl
    have h : Reports s2 t (srcPort port.toNat) { cat := 8, code := 5 } := ht ▸ report_quiet_reports s2 _ _ hq hin
    unfold Reports at h ⊢
    rw [hkept, h]

end Sys2Proof.Machine
end

section
/-! SUPPORT. The events of the network engine, put together (O51). -/

namespace Sys2Proof.Machine

theorem noRoute_of {s : State} {c : Nat} {r : NReq} (hk : s.peerKind (s.ncTenant c) r.pix = 1)
    (hp : s.ports (s.peerAddr (s.ncTenant c) r.pix) = []) : s.noRoute c r = true := by
  simp [State.noRoute, hk, hp]

/-! ### Requests that arrive during a core reset, and after their end -/

theorem incomingPut_eq (s : State) (m : NetMsg) : exec (.incomingPut m) s = .next (s.takePut { m with op := 1 } 0) := rfl
theorem incomingPutadd_eq (s : State) (m : NetMsg) : exec (.incomingPutadd m) s = .next (s.takePut { m with op := 5 } 0) := rfl
theorem incomingSend_eq (s : State) (m : NetMsg) : exec (.incomingSend m) s = .next (s.takeSend { m with op := 3 } 0) := rfl

section Lost

variable {s : State} {m : NetMsg} (hl : s.linkOk m.uet = true)
include hl

theorem takePut_resetting (hr : s.resetting = true) (off : Nat) : s.takePut m off = s.refuseReset m := by
  unfold State.takePut
  exact arrive_resetting hl off _ _ hr

theorem takeSend_resetting (hr : s.resetting = true) (off : Nat) : s.takeSend m off = s.refuseReset m := by
  unfold State.takeSend
  exact arrive_resetting hl off _ _ hr

theorem incomingGet_resetting (hr : s.resetting = true) : exec (.incomingGet m) s = .next (s.refuseReset m) := by
  show execIncomingGet m s = _
  unfold execIncomingGet
  exact congrArg _ (arrive_resetting (m := { m with op := 2 }) hl 0 _ _ hr)

theorem packet9_resetting (hr : s.resetting = true) : exec (.uetPacketReceive { m with op := 9 } 0) s = .next (s.refuseReset m) := by
  have hu : unknownOp { m with op := 9 } :=
    ⟨(by decide : (9 : BitVec 8) ≠ 1), (by decide : (9 : BitVec 8) ≠ 2), (by decide : (9 : BitVec 8) ≠ 3),
      (by decide : (9 : BitVec 8) ≠ 5)⟩
  rw [packet_unknown (m := { m with op := 9 }) 0 hu hl, hr]
  rfl

/-- Every request of a peer that arrives during a core reset is refused with 0x03 (R346). -/
theorem resetting_refuses (hr : s.resetting = true) : ∀ i ∈ [Instr.incomingPut m, .incomingPutadd m, .incomingGet m,
    .incomingSend { m with ord := false }, .uetPacketReceive { m with op := 1 } 0, .uetPacketReceive { m with op := 3 } 0,
    .uetPacketReceive { m with op := 9 } 0], exec i s = .next (s.refuseReset m) := by
  have hput (op : BitVec 8) : s.takePut { m with op := op } 0 = s.refuseReset m := takePut_resetting (m := { m with op := op }) hl hr 0
  have hsend (ord : Bool) : s.takeSend { m with op := 3, ord := ord } 0 = s.refuseReset m :=
    takeSend_resetting (m := { m with op := 3, ord := ord }) hl hr 0
  simp only [List.forall_mem_cons, List.not_mem_nil, false_imp_iff, implies_true, and_true]
  refine ⟨?_, ?_, incomingGet_resetting hl hr, ?_, ?_, ?_, packet9_resetting hl hr⟩
  · rw [incomingPut_eq, hput]
  · rw [incomingPutadd_eq, hput]
  · rw [incomingSend_eq, hsend]
  · rw [packet_put _ _ _ (.inl rfl), hput]
  · rw [packet_send _ _ _ rfl, hsend]

variable (hd : s.coreDown = false) {n st : Nat} (hst : st ≠ 0) (hf : (s.incOf m).fin = some (n, st))
include hd hst hf

theorem takePut_ended (off : Nat) : s.takePut m off = s.answer m off n st [] := by
  unfold State.takePut
  rw [arrive_ended hl off _ _ hd hf, if_neg hst]

theorem takeSend_ended (off : Nat) : s.takeSend m off = s.answer m off n st [] := by
  unfold State.takeSend
  rw [arrive_ended hl off _ _ hd hf, if_neg hst]

theorem incomingGet_ended : exec (.incomingGet m) s = .next (s.answer m 0 n st []) := by
  show execIncomingGet m s = _
  unfold execIncomingGet
  dsimp only
  rw [arrive_ended (m := { m with op := 2 }) hl 0 _ _ hd hf, if_neg hst]
  rfl

/-- A request that has failed is answered its status again, and moves nothing (R344). -/
theorem ended_answers : ∀ i ∈ [Instr.incomingPut m, .incomingPutadd m, .incomingGet m, .incomingSend m],
    exec i s = .next (s.answer m 0 n st []) := by
  have hput (op : BitVec 8) : s.takePut { m with op := op } 0 = s.answer m 0 n st [] :=
    takePut_ended (m := { m with op := op }) hl hd hst hf 0
  have hsend : s.takeSend { m with op := 3 } 0 = s.answer m 0 n st [] := takeSend_ended (m := { m with op := 3 }) hl hd hst hf 0
  simp only [List.forall_mem_cons, List.not_mem_nil, false_imp_iff, implies_true, and_true]
  refine ⟨?_, ?_, incomingGet_ended hl hd hst hf, ?_⟩
  · rw [incomingPut_eq, hput]
  · rw [incomingPutadd_eq, hput]
  · rw [incomingSend_eq, hsend]

end Lost

/-- A duplicate is acknowledged alone (R344). -/
theorem takePut_seen {s : State} {m : NetMsg} {off : Nat} (hl : s.linkOk m.uet = true) (hd : s.coreDown = false)
    (hf : (s.incOf m).fin = none) (hs : (s.incOf m).seen.contains off = true) : s.takePut m off = s.answer m off m.data.length 0 [] := by
  unfold State.takePut
  exact arrive_seen hl off _ _ hd hf hs

/-- A request that is refused as for a reset. -/
theorem completes_refuseReset {i : Instr} {s : State} {m : NetMsg} (hi : exec i s = .next (s.refuseReset m)) :
    Completes i s fun s' => s'.outs = s.outs ++ [.reply m.uet m.node m.chain m.pos 0 0 3 []] ∧ s'.mem = s.mem ∧ s'.nreqs = s.nreqs ∧
      (s'.incAt m.uet m.node m.chain m.pos).fin =
        match (s.incAt m.uet m.node m.chain m.pos).fin with
        | some f => some f
        | none => some ((s.incAt m.uet m.node m.chain m.pos).total, 3) :=
  ⟨_, hi, refuseReset_spec s m⟩

/-- A request that its landing does not allow. -/
theorem completes_refuse {i : Instr} {s : State} {m : NetMsg} (hi : exec i s = .next (s.refuse m 0x12)) :
    Completes i s fun s' => s'.outs.getLast? = some (.reply m.uet m.node m.chain m.pos 0 0 0x12 []) ∧ (s.Quiet → s'.mem = s.mem) :=
  ⟨_, hi, refuse_spec s m 0x12⟩

/-- Settles O51: the events of this device's requests one by one, the reading of the next request, and the events of peers' requests, each by
what its operation does to the request tables. -/
theorem networkEvents : Obligations.NetworkEvents := by
  unfold Obligations.NetworkEvents
  refine ⟨?_, ?_, ?_⟩
  -- A request of this device: how it starts, completes, is acknowledged, resent and tried again.
  · intro s ch pos r hr ten kind start failure ends packets
    refine ⟨fun ⟨hm, hv⟩ hop => ⟨_, start_recv hr hm hv hop, nreq_setNreq_self _ _ _ _, rfl⟩,
      fun ⟨hm, hv⟩ hop => finish_ends (start_nothing hr hm hv hop), fun hm hv => finish_ends (start_invalid hr hm hv), ?_, ?_⟩
    · intro ⟨hm, hv⟩ h4 h6
      refine ⟨fun hk => finish_ends (start_noPeer hr hm hv h4 h6 hk), fun hk hp => finish_ends (start_noRoute hr hm hv h4 h6 hk hp), ?_,
        fun hk hf => finish_ends (start_noEndpoint hr hm hv h4 h6 hk hf), ?_⟩
      · intro hk hp hw
        exact ⟨startKazid_get hr hm hv hk hp hw, fun s1 bs h2 hdata hread houts => startKazid_data hr hm hv h4 h6 hk hp hw h2 hdata hread houts⟩
      · intro hk hf hw
        exact ⟨startUet_get hr hm hv hk hf hw, fun s1 bs h2 hdata hread houts => startUet_data hr hm hv h4 h6 hk hf hw h2 hdata hread houts⟩
    · intro hd
      refine ⟨fun hst hq hpos hnext => requestComplete_kept hr hst hd hq hpos hnext, ?_, ?_, ?_, ?_⟩
      · intro hst hq _ hpos hlt hnext ring s0
        exact requestComplete_covered hr hst hd hq hpos hlt hnext
      · intro hst h4 hl off len
        refine ⟨fun h2 hnew => ⟨fun hlt => ?_, fun hle => ?_⟩, fun hf h7 => ?_, fun hf h7 => ?_,
          fun h => ack_stale hr hl hd hst h4 off len h, finish_ends (ack_notAllowed hr hl hd hst h4 off len),
          finish_ends (ack_short hr hl hd hst h4 off len)⟩
        · exact ⟨_, by rw [ack_placed hr hl hd hst h4 off len h2 hnew, if_neg (by omega)], nreq_setNreq_self _ _ _ _⟩
        · exact finish_ends (by rw [ack_placed hr hl hd hst h4 off len h2 hnew, if_pos hle])
        · exact ⟨_, by rw [ack_refused hr hl hd hst h4 off hf, if_neg (by omega)], nreq_setNreq_self _ _ _ _⟩
        · exact finish_ends (by rw [ack_refused hr hl hd hst h4 off hf, if_pos h7])
      · intro off hst h4 hf hk hlt hoff hnew
        have hu := (reqUet_iff s ch r).mpr hk
        exact ⟨fun h7 => finish_ends (by rw [retransmit_eq hr hd hst h4 hf hu hlt hoff hnew, if_pos h7]),
          fun h7 hdata => retransmit_sends hr hd hst h4 hf hu hlt hoff hnew h7 hdata⟩
      · intro bs hf hst hop hdata
        exact ⟨sendRetry_uet hr hd hf hst hop hdata, fun hk hp => finish_ends (sendRetry_noRoute hr hd hf hst (noRoute_of hk hp)),
          sendRetry_kazid hr hd hf hst hop hdata⟩
  -- The next request is read.
  · intro s ch hd hrun hpub hf bs s1 hn hread
    exact requestRead hd hrun hpub hf hn hread
  -- What arrives from peers: during a reset, after its end, below H0, refused, again, for the first time; stores and ports.
  · intro s m kind port k t e reply lost refused
    refine ⟨fun hl hr => ⟨fun i hi => completes_refuseReset (resetting_refuses hl hr i hi), peerAccess_resetting hl hr kind⟩,
      fun hl hd n st hst hf i hi => ended_answers hl hd hst hf i hi, ?_, ?_, ?_, ?_, ?_, ?_, ?_, ?_⟩
    · intro hl ha
      refine ⟨fun off => ⟨_, packet_asleep off hl ha, ?_⟩,
        fun ch pos off len st r hr hu => ⟨_, ack_asleep hr (hu ▸ hl) ha off len st, ?_⟩, fun hu => ⟨_, storeAck_asleep (hu ▸ hl) ha, ?_⟩⟩
      · obtain ⟨hwake, hheld, hn, hmem, houts, _⟩ := holdAsleep_spec s (.packet m off)
        exact ⟨hwake, hheld, hn, hmem, houts⟩
      · obtain ⟨hwake, hheld, hn, _⟩ := holdAsleep_spec s (.ack ch pos off len st)
        exact ⟨hwake, hheld, hn⟩
      · obtain ⟨hwake, hheld, _, _, _, hteams, heng⟩ := holdAsleep_spec s (.stored k)
        exact ⟨hwake, hheld, hteams, heng⟩
    · intro hl hd hf hw hs ht
      refine ⟨fun tg s1 n hg hn hp hwr => ?_, fun hord hg hkey hc hten hrun => ?_⟩
      · have hput := takePut_again (m := { m with op := 1 }) (off := 0) hl hd hf hs hw ht hg
        have hmem := placeAt_mem (m := { m with op := 1 }) (off := 0) (e := e) (tg := tg) (.packet { m with op := 1 } 0)
          (by rw [hp]; exact hwr) hn
        exact ⟨_, (incomingPut_eq s m).trans (congrArg Host.Outcome.next hput), hmem⟩
      · have hsend := takeSend_stopped (m := { m with op := 3 }) hl hd hf hs hw ht hg hkey hc hten hrun
        exact completes_refuseReset (m := m) (by rw [incomingSend_eq, hsend]; rfl)
    · intro hl hd hf hw
      refine ⟨fun hs => ?_, fun hs ht hg => ⟨fun hk => ?_, fun hk => ?_, fun hk => ?_⟩⟩
      · exact (incomingPut_eq s m).trans (congrArg Host.Outcome.next (takePut_seen (m := { m with op := 1 }) hl hd hf hs))
      · have hput := takePut_refused (m := { m with op := 1 }) (off := 0) hl hd hf hs hw ht hg hk
        simp only [List.forall_mem_cons, List.not_mem_nil, false_imp_iff, implies_true, and_true]
        exact ⟨completes_refuse (m := { m with op := 1 }) (by rw [incomingPut_eq, hput]),
          completes_refuse (m := { m with op := 1 }) (by rw [packet_put _ _ _ (.inl rfl), hput])⟩
      · have hput := takePut_refused (m := { m with op := 5 }) (off := 0) hl hd hf hs hw ht hg hk
        exact completes_refuse (m := { m with op := 5 }) (by rw [incomingPutadd_eq, hput])
      · exact completes_refuse (m := { m with op := 2 }) (incomingGet_refused hl hd hf hs hw ht hg hk)
    · exact fun hl hd n hf hr ho => incomingGet_again hl hd hf hr ho
    · intro hl hd hnew ht asid va placed
      have hf : e.fin = none := by rw [hnew]; rfl
      have hs : e.seen.contains 0 = false := by rw [hnew]; rfl
      have hw : e.wait = 0 := by rw [hnew]; rfl
      have hg : e.target = none := by rw [hnew]; rfl
      refine ⟨fun s1 n hk hn hlen hwr => ?_, fun s1 n hk hn hlen hwr => ?_, fun s1 bs bad hu ho hk hr => ⟨?_, peerLoad hl hd hk hr⟩,
        fun s1 hk hwr => peerStore hl hd hk hwr, fun s1 s2 p gpa old hk hr hh hgp => peerAdd hl hd hk hr hh hgp, ?_⟩
      · obtain ⟨hput, hmem⟩ := takePut_whole (m := { m with op := 1 }) hl hd hnew ht hk hn hlen hwr
        exact ⟨⟨_, rfl, hput⟩, ⟨_, packet_put s { m with op := 1 } 0 (.inl rfl), hput⟩, ⟨_, rfl, hmem⟩⟩
      · obtain ⟨hput, hmem⟩ := takePut_whole (m := { m with op := 5 }) hl hd hnew ht hk hn hlen hwr
        exact ⟨⟨_, rfl, hput⟩, ⟨_, rfl, hmem⟩⟩
      · obtain ⟨e', he⟩ := serve_kazid (m := { m with op := 2 }) (tg := { asid := asid, va := va, room := m.len }) e hu ho hr
        refine ⟨_, (incomingGet_first hl hd hf hs hw ht hg hk).trans (congrArg _ he), answer_last _ _ _ _ _ _, rfl⟩
      · intro p r s1 n hord hkey hc hten hrun hopen hr hlen hall r1 hwr hkeep hn
        obtain ⟨hput, hmem, hend⟩ := takeSend_whole (m := { m with op := 3 }) hl hd hnew ht rfl hord hkey hc hten hrun hopen hr hlen hall hn
          hwr hkeep
        exact ⟨⟨_, rfl, hput⟩, ⟨_, rfl, hmem, hend⟩⟩
    · intro hl hd
      refine ⟨fun r s1 n hr hst hop hw hack hpart hlen hord hwr => ?_,
        fun h1 h2 h3 h5 hq => packet_unknown_recorded ⟨h1, h2, h3, h5⟩ hl hd hq⟩
      exact ⟨_, packet_get s { m with op := 2 } 0 rfl, takeGet_whole (m := { m with op := 2 }) hl hd hr hst hop hw hack hpart hlen hord hwr⟩
    · intro hl ha
      exact ⟨fun ht hk hp => storeAck_team hl ha ht hk hp, fun hk => storeAck_engine hl ha hk⟩
    · exact fun hport hup => portLost hport hup

end Sys2Proof.Machine
end

section
/-! SUPPORT. What literals and uniform reads leave in the registers (O26). -/

namespace Sys2Proof.Machine

/-! ### Registers written one after another -/

/-- Write `n` registers from `d` on, each with one value in the lanes that satisfy `p`. -/
def Team.putWords (t : Team) (d n : Nat) (p : Nat → Bool) (f : Nat → Word) : Team :=
  (List.range n).foldl (fun t j => t.put (d + j) p fun _ => f j) t

@[simp] theorem Team.putWords_zero (t : Team) (d : Nat) (p : Nat → Bool) (f : Nat → Word) : t.putWords d 0 p f = t := rfl

theorem Team.putWords_succ (t : Team) (d n : Nat) (p : Nat → Bool) (f : Nat → Word) :
    t.putWords d (n + 1) p f = (t.putWords d n p f).put (d + n) p fun _ => f n := by
  simp [Team.putWords, List.range_succ]

/-- Nothing of the team but its registers changes. -/
theorem Team.putWords_frame (t : Team) (d n : Nat) (p : Nat → Bool) (f : Nat → Word) :
    t.putWords d n p f = { t with v := (t.putWords d n p f).v } := by
  induction n with
  | zero => rfl
  | succ n ih => rw [Team.putWords_succ, ih]; rfl

@[simp] theorem Team.putWords_nlanes (t : Team) (d n : Nat) (p : Nat → Bool) (f : Nat → Word) :
    (t.putWords d n p f).nlanes = t.nlanes := by
  rw [Team.putWords_frame]

/-- The registers from `d` up to, and not including, `d + n` take the values `f 0`, `f 1`, … -/
def wordsFrom (d n : Nat) (f : Nat → Word) (q : Nat) : Option Word := if d ≤ q ∧ q < d + n then some (f (q - d)) else none

@[simp] theorem wordsFrom_zero (d : Nat) (f : Nat → Word) (q : Nat) : wordsFrom d 0 f q = none := if_neg (by omega)

theorem wordsFrom_succ (d n : Nat) (f : Nat → Word) (q : Nat) :
    wordsFrom d (n + 1) f q = if q = d + n then some (f n) else wordsFrom d n f q := by
  unfold wordsFrom
  by_cases hq : q = d + n
  · rw [if_pos hq, if_pos (by omega), hq, Nat.add_sub_cancel_left]
  · rw [if_neg hq]
    exact if_congr (by omega) rfl rfl

theorem Team.get_putWords (t : Team) (d n l q : Nat) (p : Nat → Bool) (f : Nat → Word) (h : l < t.nlanes) :
    (t.putWords d n p f).get q l = if p l then (wordsFrom d n f q).getD (t.get q l) else t.get q l := by
  induction n generalizing q with
  | zero => simp
  | succ n ih =>
    rw [Team.putWords_succ, Team.get_put _ _ _ _ _ _ (by simpa using h), wordsFrom_succ, ih, ih]
    by_cases hq : q = d + n
    · subst hq
      cases p l <;> simp
    · simp [hq]

/-! ### Uniform-set instructions that write registers alone -/

/-- A uniform-set instruction that, where its guard holds, leaves the team as `t1`, which differs from `t` in its registers alone. -/
theorem uniTeam_writes {i : Instr} {s : State} {k : Nat} {t t1 : Team} {r : Run} {g : Guard} {w : Nat → Option Word} (h : s.HasRun k t r)
    (f : State → Nat → Team → Run → State × Team × Run) (hi : exec i s = uniInstr s g f) (hf : ∀ s', f s' k t r = (s', t1, r))
    (hv : t1 = { t with v := t1.v })
    (hw : ∀ l < t.nlanes, ∀ n, t1.get n l = if r.uniWrites l then (w n).getD (t.get n l) else t.get n l) :
    UniWrites i s k t r g w := by
  have e : exec i s = _ := hi.trans (withRun_eq h _)
  by_cases hg : t.guardQ g = true
  · simp only [hg, if_true, hf] at e
    refine ⟨_, e, ⟨_, advance_team _ _ _ _, by rw [hv], fun l hl n => ?_⟩, uniIssue_frame _ _ _ _ _⟩
    rw [hg, Bool.true_and]
    exact hw l hl n
  · simp only [hg, Bool.false_eq_true, if_false] at e
    refine ⟨_, e, ⟨_, advance_team _ _ _ _, rfl, fun l _ n => ?_⟩, uniIssue_frame _ _ _ _ _⟩
    simp [hg, Team.get]

/-- The 32-bit words of the literal fetched for the instruction in issue, the lowest first (R12). -/
def Run.literal (r : Run) (j : Nat) : Word := wordOf (natBits (r.lits.getD r.idx 0) (32 * j) 32)

/-- A literal of `n` words fills `n` registers in uniform form. -/
theorem loadLiteral_writes {i : Instr} {s : State} {k : Nat} {t : Team} {r : Run} (h : s.HasRun k t r) (d : BitVec 6) (n : Nat)
    (hi : exec i s = loadLiteral s d n) : UniWrites i s k t r Guard.always (wordsFrom d.toNat n r.literal) :=
  uniTeam_writes (t1 := t.putWords d.toNat n r.uniWrites r.literal) h _ hi (fun _ => rfl) (Team.putWords_frame _ _ _ _ _)
    fun _ hl q => Team.get_putWords t d.toNat n _ q r.uniWrites r.literal hl

/-! ### USR (R86, R125) -/

theorem wideSpecial_iff (n : Nat) : wideSpecial n = true ↔ n ∈ [0x0B, 0x0C, 0x13] := by
  simp [wideSpecial, or_assoc]

/-- What USR reads: a special register as it stands, a control register as it stood when the run was fetched. -/
def State.usrValue (s : State) (k : Nat) (t : Team) (r : Run) (n : Nat) : DWord :=
  if n < 16 then s.special k t n (r.leader t) else r.ctl.getD n (s.control t n)

theorem exec_usr (d a : BitVec 6) (g : Guard) (s : State) : exec (.usr d a g) s = uniInstr s g fun s' k t r =>
    (s', if wideSpecial a.toNat then t.uput64 r d (s.usrValue k t r a.toNat)
      else t.uput r d ((s.usrValue k t r a.toNat).setWidth 32), r) := rfl

/-- Settles O26: literals by `loadLiteral_writes`, the reads by the rules of a uniform write, each of whose values is read from the state
before the instruction's own issue. -/
theorem uniformReads : Obligations.UniformReads := by
  unfold Obligations.UniformReads
  intro s k t r h d a b dp la g l x wg lit v P Q
  refine ⟨loadLiteral_writes h d 1 rfl, loadLiteral_writes h d 2 rfl, loadLiteral_writes h d 4 rfl, fun ha => ?usrWide, fun ha => ?usrNarrow,
    ?vform, ?tstate, ?kpoll, ?mpoll, ?nseq, ?lseq⟩
  case usrWide =>
    exact uniOp64_writes h d v (fun _ k t r => s.usrValue k t r a.toNat) (fun _ => rfl)
      (by simp only [exec_usr, if_pos ((wideSpecial_iff _).2 ha)])
  case usrNarrow =>
    exact uniOp_writes h d (v.setWidth 32) (fun _ k t r => (s.usrValue k t r a.toNat).setWidth 32) (fun _ => rfl)
      (by simp only [exec_usr, if_neg (mt (wideSpecial_iff _).1 ha)])
  case vform => exact uniOp_writes h d _ (fun _ _ t _ => wordOf (formOf t.nlanes (t.get a.toNat))) (fun _ => rfl) rfl
  case tstate => exact uniOp_writes h d _ (fun _ k t _ => tileState (s.tile (coreOfTeam k) a.toNat) t.w) (fun _ => rfl) rfl
  case kpoll =>
    exact uniOp_writes h d _ (fun _ _ t r => wordOf (((List.range 8).map fun i =>
      if natBit (t.uget r a).toNat i && (s.wgOf t.w).tokens.getD i 0 == 0 then 2 ^ i else 0).sum)) (fun _ => rfl) rfl
  case mpoll => exact uniOp_writes h d _ (fun _ _ t _ => wordOf (s.wgOf t.w).donePfx) (fun _ => rfl) rfl
  case nseq =>
    exact uniOp64_writes h d _ (fun _ _ t r => dwordOf (s.chainSeq (s.wgOf t.w).ten ((t.uget r a).toNat % 4096))) (fun _ => rfl) rfl
  case lseq => exact uniOp64_writes h d _ (fun _ _ t r => dwordOf (s.lqSeen (t.uget r b).toNat)) (fun _ => rfl) rfl

end Sys2Proof.Machine
end

section
/-! SUPPORT. Stores that become visible (O40). -/

namespace Sys2Proof.Machine

/-! ### A store inside one block -/

/-- Bytes that lie in one block are one piece. -/
theorem blockPieces_one (a : Nat) (bs : List Byte) (h0 : 0 < bs.length) (h : a / 64 = (a + bs.length - 1) / 64) :
    blockPieces bs.length a bs = [(a, bs)] := by
  have hfit : bs.length ≤ 64 - a % 64 := by omega
  obtain ⟨n, hn⟩ : ∃ n, bs.length = n + 1 := ⟨bs.length - 1, by omega⟩
  cases bs with
  | nil => cases h0
  | cons b bs =>
    have hdrop : (b :: bs).drop (64 - a % 64) = [] := List.drop_eq_nil_of_le hfit
    have hnil (m k : Nat) : blockPieces m k [] = [] := by cases m <;> rfl
    rw [hn, blockPieces, List.take_of_length_le hfit, hdrop, hnil]
    intro h
    cases h

/-! ### A region of a pool (R30) -/

/-- Bytes inside one block of a region: a full block is written and loses its poison, a partial one is written where there is none. -/
theorem putPool_one (m : Memory) (bad : NSet) (o : Nat) (bs : List Byte) (h0 : 0 < bs.length) (h : o / 64 = (o + bs.length - 1) / 64) :
    putPool m bad o bs = if bs.length = 64 then (m.writeN o bs, bad.erase (o / 64))
      else if bad.has (o / 64) then (m, bad) else (m.writeN o bs, bad) := by
  unfold putPool
  rw [blockPieces_one o bs h0 h]
  rfl

/-- A store to a region writes its pool and notes what it wrote. -/
theorem commit_scr (s : State) (k : Nat) (st : Store) (w o : Nat) (h : st.at' = .scr w o) : ∃ notes, s.commit k st = { s with
    wgs := s.wgs.modify w fun g => { g with scr := (putPool g.scr g.pscr o st.bytes).1, pscr := (putPool g.scr g.pscr o st.bytes).2 }
    wrote := notes } := by
  unfold State.commit
  rw [h]
  exact ⟨_, rfl⟩

theorem SMap.getD_modify {α : Type} (m : SMap α) (k j : Nat) (f : α → α) (d : α) (h : (m.find? k).isSome) :
    (m.modify k f).getD j d = if j = k then f (m.getD k d) else m.getD j d := by
  obtain ⟨v, hv⟩ := Option.isSome_iff_exists.mp h
  simp only [SMap.getD, SMap.find_modify, hv]
  split <;> rfl

theorem commit_scr_wgOf (s : State) (k : Nat) (st : Store) (w o w' : Nat) (h : st.at' = .scr w o) (hw : (s.wgs.find? w).isSome) :
    (s.commit k st).wgOf w' = if w' = w then
      { s.wgOf w with scr := (putPool (s.wgOf w).scr (s.wgOf w).pscr o st.bytes).1, pscr := (putPool (s.wgOf w).scr (s.wgOf w).pscr o st.bytes).2 }
    else s.wgOf w' := by
  obtain ⟨notes, e⟩ := commit_scr s k st w o h
  rw [e]
  exact SMap.getD_modify s.wgs w w' _ Wg.empty hw

/-! ### Main memory without images, forwarded frames and cached lines (R30, R45) -/

theorem realSpa_plain {s : State} (hf : s.forwards = []) (a : Nat) : s.realSpa a = a := by
  have hfwd (f : Nat) : s.forward f = f := by
    unfold State.forward
    rw [hf]
    rfl
  unfold State.realSpa
  rw [hfwd, hfwd]
  unfold frameOf
  omega

theorem imageAt_plain {s : State} (hi : s.images = []) (a : Nat) : s.imageAt a = none := by
  unfold State.imageAt
  rw [hi]
  rfl

theorem sysByte_plain {s : State} (hi : s.images = []) (hf : s.forwards = []) (a : Nat) : s.sysByte a = s.mem.read a := by
  unfold State.sysByte
  rw [imageAt_plain hi, realSpa_plain hf]

/-- A write inside one block, which is not poisoned and is held under the write's key, writes its bytes. -/
theorem putBlock_good (s : State) (a : Nat) (bs : List Byte) (kt : Nat) (hp : s.poison.has (a / 64) = false)
    (hk : s.lineKey.getD (a / 64) 0 = kt) : ∃ p l, s.putBlock a bs kt = { s with mem := s.mem.writeN a bs, poison := p, lineKey := l } := by
  unfold State.putBlock
  dsimp only
  by_cases h64 : bs.length = 64
  · rw [if_pos h64]
    exact ⟨_, _, rfl⟩
  · rw [if_neg h64, hp, if_neg (by decide), if_pos hk]
    exact ⟨_, _, rfl⟩

/-- It is performed at once. -/
theorem writeSys_good (s : State) (by' : Writer) (ten : Option Nat) (gpa a : Nat) (bs : List Byte) (kt : Nat) (h0 : 0 < bs.length)
    (h : a / 64 = (a + bs.length - 1) / 64) (hi : s.images = []) (hf : s.forwards = []) (hm : s.migs = []) (hc : s.hostCached = [])
    (hp : s.poison.has (a / 64) = false) (hk : s.lineKey.getD (a / 64) 0 = kt) : ∃ p l notes,
    s.writeSys by' ten gpa a bs kt = { s with mem := s.mem.writeN a bs, poison := p, lineKey := l, wrote := notes } := by
  have htag : s.tagBad a kt = false := by
    unfold State.tagBad State.keyAt
    rw [realSpa_plain hf, hk]
    exact bne_self_eq_false kt
  have hwait : s.hostWait by' ten a bs kt = s := by
    unfold State.hostWait
    rw [hc]
    rfl
  obtain ⟨p, l, hput⟩ := putBlock_good s a bs kt hp hk
  have hmirror : s.putMirrored a bs kt = s.putBlock a bs kt := by
    unfold State.putMirrored State.mirrors
    rw [hm]
    rfl
  have hsys : s.putSys a bs kt = (s.putBlock a bs kt).noteSys a := by
    unfold State.putSys
    rw [blockPieces_one a bs h0 h]
    simp only [List.foldl_cons, List.foldl_nil, imageAt_plain hi, realSpa_plain hf, hmirror]
  unfold State.writeSys State.writeHost
  dsimp only
  rw [blockPieces_one a bs h0 h]
  simp only [List.foldl_cons, List.foldl_nil, htag, Bool.and_false, Bool.false_eq_true, if_false, hwait]
  rw [hsys, hput]
  exact ⟨_, _, _, rfl⟩

/-! ### Draining (R45) -/

theorem drainSplit_all (s : State) (l : List Store) : s.drainSplit (fun _ => true) l = (l, []) := by
  induction l with
  | nil => rfl
  | cons st l ih =>
    unfold State.drainSplit
    rw [ih]
    rfl

theorem putPlace_teams (s : State) (by' : Writer) (ten gpa : Nat) (p : Place) (bs : List Byte) (kt : Nat) :
    (s.putPlace by' ten gpa p bs kt).teams = s.teams := by
  unfold State.putPlace
  cases p with
  | sys a => exact side_teams (side_writeSys _ _ _ _ _ _ _)
  | scr w o => rfl
  | acc w o => rfl
  | peer n l o =>
    dsimp only
    unfold State.peerSent
    split <;> rfl

/-- A store that becomes visible changes of its team what a peer has not acknowledged, at most. -/
theorem commit_team (s : State) (k : Nat) (t : Team) (st : Store) (h : s.TeamIs k t) :
    ∃ out, (s.commit k st).TeamIs k { t with peerOut := out } := by
  unfold State.commit
  dsimp only
  generalize he : s.putPlace _ _ _ _ _ _ = u
  have hu : u.TeamIs k t := by
    unfold State.TeamIs
    rw [← he, putPlace_teams]
    exact h
  split
  · exact ⟨_, modTeam_team u k t _ hu⟩
  · exact ⟨t.peerOut, hu⟩

theorem commits_team (l : List Store) (s : State) (k : Nat) (t : Team) (h : s.TeamIs k t) :
    ∃ out, (l.foldl (fun s st => s.commit k st) s).TeamIs k { t with peerOut := out } := by
  induction l generalizing s t with
  | nil => exact ⟨t.peerOut, h⟩
  | cons st l ih =>
    obtain ⟨out, hc⟩ := commit_team s k t st h
    exact ih _ { t with peerOut := out } hc

/-- Draining empties the team's buffer. -/
theorem drainAll_team (s : State) (k : Nat) (t : Team) (h : s.TeamIs k t) :
    ∃ out, (s.drainAll k).TeamIs k { t with sbuf := [], peerOut := out } := by
  unfold State.drainAll State.drain
  rw [h]
  dsimp only
  rw [drainSplit_all]
  exact commits_team t.sbuf (s.setTeam k { t with sbuf := [] }) k { t with sbuf := [] } (SMap.find_insert_self _ _ _)

/-- Settles O40: a store to a region by `putPool_one`, one to main memory by `writeSys_good`, and draining by `drainAll_team`. -/
theorem storesBecomeVisible : Obligations.StoresBecomeVisible := by
  unfold Obligations.StoresBecomeVisible
  intro s k st o h0 h n
  refine ⟨fun w hat hw => ?_, fun hat hi hf hm hc hp hk => ?_, fun t ht => ?_⟩
  · have hwg (w') := commit_scr_wgOf s k st w o w' hat hw
    have hself := hwg w
    rw [if_pos rfl, putPool_one _ _ _ _ h0 h] at hself
    obtain ⟨notes, e⟩ := commit_scr s k st w o hat
    refine ⟨fun hgood => ⟨fun q => ?_, fun h64 => ?_⟩, fun h64 hbad => ?_, by rw [e], fun w' hne => by rw [hwg, if_neg hne]⟩
    · have hscr : ((s.commit k st).wgOf w).scr = (s.wgOf w).scr.writeN o st.bytes := by
        rw [hself]
        by_cases h64 : st.bytes.length = 64
        · simp only [h64, if_true]
        · simp only [h64, hgood.resolve_left h64, if_false, Bool.false_eq_true]
      rw [hscr, Memory.read_writeN]
    · have h64' : st.bytes.length = 64 := h64
      rw [hself, if_pos h64']
      simp [SMap.has, SMap.find_erase]
    · have h64' : st.bytes.length ≠ 64 := h64
      rw [hself, if_neg h64', if_pos hbad]
  · obtain ⟨p, l, notes, e⟩ : ∃ p l notes, s.commit k st =
        { s with mem := s.mem.writeN o st.bytes, poison := p, lineKey := l, wrote := notes } := by
      unfold State.commit
      rw [hat]
      exact writeSys_good s _ _ _ o st.bytes st.ktag h0 h hi hf hm hc hp hk
    rw [e]
    refine ⟨fun q => ?_, fun w => rfl⟩
    rw [sysByte_plain hi hf, sysByte_plain (s := { s with
      mem := s.mem.writeN o st.bytes, poison := p, lineKey := l, wrote := notes }) hi hf]
    exact Memory.read_writeN s.mem o q st.bytes
  · obtain ⟨out, hd⟩ := drainAll_team s k t ht
    exact ⟨_, hd, rfl⟩

end Sys2Proof.Machine
end

section
/-! SUPPORT. Boot after power-on and after a Hearth reset (O46). -/

namespace Sys2Proof.Machine

/-! ### The management configuration (R383) -/

/-- Only registers that the configuration sets, tenants and the base of the device table differ. -/
def State.Configured (s t : State) : Prop :=
  t = { s with mgmt := t.mgmt, tenants := t.tenants, dtbase := t.dtbase } ∧ ∀ off, bootField off = none → t.reg off = s.reg off

theorem State.Configured.trans {a b c : State} (h : a.Configured b) (h' : b.Configured c) : a.Configured c := by
  obtain ⟨hab, hr⟩ := h
  obtain ⟨hbc, hr'⟩ := h'
  rw [hab] at hbc
  exact ⟨hbc, fun off ho => (hr' off ho).trans (hr off ho)⟩

/-- A fold over what keeps all but these. -/
theorem State.Configured.foldl {α : Type} (f : State → α → State) (hf : ∀ (b : State) (a : α), b.Configured (f b a)) (l : List α)
    (s : State) : s.Configured (l.foldl f s) :=
  foldl_keeps s.Configured f (fun _ _ h => h.trans (hf _ _)) l s ⟨rfl, fun _ _ => rfl⟩

theorem configured_setReg (s : State) (off v m : Nat) (h : bootField off = some m) : s.Configured (s.setReg off v) := by
  refine ⟨rfl, fun o ho => ?_⟩
  rw [State.reg_setReg, if_neg]
  rintro rfl
  rw [h] at ho
  cases ho

theorem configure_configured (s : State) (c : BootCfg) : s.Configured (s.configure c) := by
  have hbase (t : State) : t.Configured { t with dtbase := c.dtbase } := ⟨rfl, fun _ _ => rfl⟩
  unfold State.configure
  refine ((State.Configured.foldl _ (fun t x => ?_) c.regs s).trans (hbase _)).trans (State.Configured.foldl _ (fun t x => ?_) c.tenants _)
  · split
    · next m hm => exact configured_setReg t _ _ m hm
    · exact ⟨rfl, fun _ _ => rfl⟩
  · split <;> exact ⟨rfl, fun _ _ => rfl⟩

/-- It names the device table. -/
theorem configure_dtbase (s : State) (c : BootCfg) : (s.configure c).dtbase = c.dtbase := by
  unfold State.configure
  refine foldl_keeps (fun t : State => t.dtbase = c.dtbase) _ (fun t x h => ?_) _ _ rfl
  split <;> exact h

/-- A tenant that it does not name stays. -/
theorem configure_tenant (s : State) (c : BootCfg) (n : Nat) (h : ∀ x ∈ c.tenants, x.ten ≠ n) : (s.configure c).tenant n = s.tenant n := by
  unfold State.configure
  refine List.foldlRecOn (motive := fun t : State => t.tenant n = s.tenant n) c.tenants _ ?_ fun t ht x hx => ?_
  · show (List.foldl _ s c.regs).tenant n = s.tenant n
    refine foldl_keeps (fun t : State => t.tenant n = s.tenant n) _ (fun t x ht => ?_) c.regs s rfl
    split <;> exact ht
  · split
    · rw [tenant_setTenant, if_neg (h x hx).symm]
      exact ht
    · exact ht

/-! ### Boot (R382, R383) -/

theorem extendMr_frame (s : State) (k : Nat) (d : BitVec 512) : ∃ m, s.extendMr k d = { s with mr := m } := ⟨_, rfl⟩

theorem extendMr_getD (s : State) (k j : Nat) (d : BitVec 512) :
    (s.extendMr k d).mr.getD j 0 = if j = k then extendDigest (s.mr.getD k 0) d else s.mr.getD j 0 := by
  simp only [State.extendMr, SMap.getD_setD]

/-- The measurements of a boot that passes. -/
def State.measured (s : State) (c : BootCfg) : State :=
  (((s.extendMr 0 (c.digests.getD 0 0)).extendMr 1 (c.digests.getD 1 0)).extendMr 2 (c.digests.getD 2 0)).extendMr 3 (c.digests.getD 3 0)

theorem measured_frame (s : State) (c : BootCfg) : ∃ m, s.measured c = { s with mr := m } := by
  unfold State.measured
  obtain ⟨m0, h0⟩ := extendMr_frame s 0 (c.digests.getD 0 0)
  obtain ⟨m1, h1⟩ := extendMr_frame { s with mr := m0 } 1 (c.digests.getD 1 0)
  obtain ⟨m2, h2⟩ := extendMr_frame { s with mr := m1 } 2 (c.digests.getD 2 0)
  obtain ⟨m3, h3⟩ := extendMr_frame { s with mr := m2 } 3 (c.digests.getD 3 0)
  rw [h0, h1, h2, h3]
  exact ⟨m3, rfl⟩

theorem measured_getD (s : State) (c : BootCfg) (i : Nat) (h : i < 4) :
    (s.measured c).mr.getD i 0 = extendDigest (s.mr.getD i 0) (c.digests.getD i 0) := by
  unfold State.measured
  interval_cases i <;> simp only [extendMr_getD, Nat.reduceEqDiff, if_true, if_false]

/-- A boot fails where one of its verifications does. -/
abbrev bootFails (c : BootCfg) : Prop := c.fail = 1 ∨ c.fail = 2

/-- A verification that fails leaves the harts stopped, with its cause. -/
theorem boot_failed (s : State) (c : BootCfg) (h : bootFails c) : ∃ m, s.boot c =
    { { s with booted := true, mr := m }.setCause 4 with hartsDown := (List.range 4).map fun h => (h, ()) } := by
  unfold State.boot
  dsimp only
  by_cases h1 : c.fail = 1
  · rw [if_pos h1]
    exact ⟨s.mr, rfl⟩
  · rw [if_neg h1, if_pos (h.resolve_left h1)]
    obtain ⟨m, hm⟩ := extendMr_frame { s with booted := true } 0 (c.digests.getD 0 0)
    rw [hm]
    exact ⟨m, rfl⟩

/-- One that passes is followed by the configuration, once four measurements are extended. -/
theorem boot_passed (s : State) (c : BootCfg) (h : ¬ bootFails c) :
    s.boot c = { ({ s with booted := true }.measured c).configure c with bootOk := true } := by
  rw [not_or] at h
  obtain ⟨h1, h2⟩ := h
  unfold State.boot
  dsimp only
  rw [if_neg h1, if_neg h2]
  rfl

/-- Beside the registers, a boot sets whether it has passed, measurements, tenants, the device table and the harts' state. -/
theorem boot_frame (s : State) (c : BootCfg) : ∃ ok m regs ts base down, s.boot c =
    { s with booted := true, bootOk := ok, mr := m, mgmt := regs, tenants := ts, dtbase := base, hartsDown := down } := by
  by_cases hf : bootFails c
  · obtain ⟨m, e⟩ := boot_failed s c hf
    exact ⟨_, _, _, _, _, _, e⟩
  · obtain ⟨m, hm⟩ := measured_frame { s with booted := true } c
    obtain ⟨hc, -⟩ := configure_configured { s with booted := true, mr := m } c
    rw [boot_passed s c hf, hm, hc]
    exact ⟨_, _, _, _, _, _, rfl⟩

/-- A boot that passes changes only registers that the configuration sets. -/
theorem boot_passed_reg (s : State) (c : BootCfg) (h : ¬ bootFails c) (off : Nat) (ho : bootField off = none) :
    (s.boot c).reg off = s.reg off := by
  obtain ⟨m, hm⟩ := measured_frame { s with booted := true } c
  obtain ⟨-, hc⟩ := configure_configured { s with booted := true, mr := m } c
  rw [boot_passed s c h, hm]
  exact hc off ho

section Boot

/-- Every register holds its Reset value, but that RCAUSE is `r`. -/
def State.AtReset (s : State) (r : Nat) : Prop :=
  s.reg oChstat = 1900 * 2 ^ 32 + r ∧ ∀ off, off ≠ oChstat → s.reg off = (mgmtReset off).toNat

theorem setCause_atReset {s : State} {r c : Nat} (h : s.AtReset r) (hr : r < 256) (hc : c < 256) : (s.setCause c).AtReset c := by
  obtain ⟨hst, hreg⟩ := h
  refine ⟨?_, fun off ho => ?_⟩
  · rw [State.setCause, State.reg_setReg, if_pos rfl, hst]
    simp only [natPut, natBits]
    omega
  · rw [State.setCause, State.reg_setReg, if_neg ho, hreg off ho]

variable {s : State} {r : Nat}

/-- RCAUSE stands as it was, or says that the verification failed. -/
theorem boot_chstat (h : s.AtReset r) (hr : r < 256) (c : BootCfg) :
    (s.boot c).reg oChstat = 1900 * 2 ^ 32 + if bootFails c then 4 else r := by
  by_cases hf : bootFails c
  · obtain ⟨m, e⟩ := boot_failed s c hf
    obtain ⟨hst, -⟩ := setCause_atReset (s := { s with booted := true, mr := m }) h hr (c := 4) (by decide)
    rw [e, if_pos hf]
    exact hst
  · rw [boot_passed_reg s c hf oChstat rfl, if_neg hf]
    exact h.1

/-- What the configuration does not set reads its Reset value. -/
theorem boot_reg (h : s.AtReset r) (hr : r < 256) (c : BootCfg) (off : Nat) (ho : bootField off = none) (hne : off ≠ oChstat) :
    (s.boot c).reg off = (mgmtReset off).toNat := by
  by_cases hf : bootFails c
  · obtain ⟨m, e⟩ := boot_failed s c hf
    obtain ⟨-, hother⟩ := setCause_atReset (s := { s with booted := true, mr := m }) h hr (c := 4) (by decide)
    rw [e]
    exact hother off hne
  · rw [boot_passed_reg s c hf off ho]
    exact h.2 off hne

theorem boot_bootOk (h : s.bootOk = false) (c : BootCfg) : (s.boot c).bootOk = true ↔ ¬ bootFails c := by
  by_cases hf : bootFails c
  · obtain ⟨m, e⟩ := boot_failed s c hf
    have hn : (s.boot c).bootOk = false := by
      rw [e]
      exact h
    simp [hn, hf]
  · rw [boot_passed s c hf]
    simp [hf]

/-- The Stoker's harts start where the verification has passed. -/
theorem boot_hartsDown (h : s.hartsDown = []) (c : BootCfg) (i : Nat) (hi : i < 4) : (s.boot c).hartsDown.has i = true ↔ bootFails c := by
  by_cases hf : bootFails c
  · obtain ⟨m, e⟩ := boot_failed s c hf
    have hall : ∀ i < 4, SMap.has ((List.range 4).map fun h => (h, ())) i = true := by decide
    rw [e]
    exact ⟨fun _ => hf, fun _ => hall i hi⟩
  · have hn : (s.boot c).hartsDown = [] := by
      obtain ⟨m, hm⟩ := measured_frame { s with booted := true } c
      obtain ⟨hc, -⟩ := configure_configured { s with booted := true, mr := m } c
      rw [boot_passed s c hf, hm, hc]
      exact h
    rw [hn]
    exact ⟨fun hp => absurd hp (by simp [SMap.has, SMap.find?]), fun hp => absurd hp hf⟩

/-- No tenant's tables stand but those that a boot configures. -/
theorem boot_tenant (h : s.tenants = []) (c : BootCfg) (n : Nat) (hn : bootFails c ∨ ∀ x ∈ c.tenants, x.ten ≠ n) :
    (s.boot c).tenant n = Tenant.empty := by
  have hs : s.tenant n = Tenant.empty := by
    simp only [State.tenant, h]
    rfl
  by_cases hf : bootFails c
  · obtain ⟨m, e⟩ := boot_failed s c hf
    rw [e]
    exact hs
  · obtain ⟨m, hm⟩ := measured_frame { s with booted := true } c
    rw [boot_passed s c hf, hm]
    exact (configure_tenant { s with booted := true, mr := m } c n (hn.resolve_left hf)).trans hs

theorem boot_mr_measured (c : BootCfg) (hf : ¬ bootFails c) : (s.boot c).mr = ({ s with booted := true }.measured c).mr := by
  obtain ⟨hc, -⟩ := configure_configured ({ s with booted := true }.measured c) c
  rw [boot_passed s c hf, hc]

theorem boot_mr (h : s.mr = []) (c : BootCfg) (hf : ¬ bootFails c) (i : Nat) (hi : i < 4) :
    (s.boot c).mr.getD i 0 = extendDigest 0 (c.digests.getD i 0) := by
  rw [boot_mr_measured c hf, measured_getD _ c i hi, show ({ s with booted := true } : State).mr = [] from h]
  congr 1

theorem boot_dtbase (c : BootCfg) (hf : ¬ bootFails c) : (s.boot c).dtbase = c.dtbase := by
  rw [boot_passed s c hf]
  exact configure_dtbase _ c

end Boot

theorem chstat_fields {v r : Nat} (h : v = 1900 * 2 ^ 32 + r) (hr : r < 256) :
    natBits v 32 16 = 1900 ∧ natBits v 8 2 = 0 ∧ natBits v 0 8 = r := by
  subst h
  refine ⟨?_, ?_, ?_⟩ <;> simp only [natBits] <;> omega

/-! ### Power-on and Hearth reset -/

/-- Every domain is cleared: what of it stands is that of power-on. -/
theorem cleared_atReset (s : State) : s.cleared.AtReset 1 := ⟨rfl, fun _ _ => rfl⟩

/-- Settles O46: either reset boots the cleared device, of which the lemmas on `State.boot` say what stands in it. -/
theorem bootEvents : Obligations.BootEvents := by
  unfold Obligations.BootEvents
  intro s cfg cause c failed B
  have hboot (u : State) (m : SMap DWord) (fl : Option BootCfg) (hu : u = { s.cleared with mgmt := m, flash := fl }) (r : Nat) (hr : r < 256)
      (hreg : u.AtReset r) : B (u.boot c) r := by
    obtain ⟨ok, mr, regs, ts, base, down, e⟩ := boot_frame u c
    rw [hu] at e
    obtain ⟨h32, h8, h0⟩ := chstat_fields (boot_chstat hreg hr c) (by split <;> omega)
    have htenant := boot_tenant (s := u) (hu ▸ rfl) c
    refine ⟨by rw [hu, e], boot_bootOk (hu ▸ rfl) c, ?_, ?_, ?_, ?_, ?_, ?_, ?_, ?_, ?_, ?_, boot_hartsDown (hu ▸ rfl) c,
      fun hf n => htenant n (.inl hf), fun _ n hn => htenant n (.inr hn), boot_reg hreg hr c oDevid rfl (by decide), h32, h8,
      fun hf => h0.trans (if_pos hf), fun hf => h0.trans (if_neg hf), boot_reg hreg hr c, boot_mr (hu ▸ rfl) c, boot_dtbase c⟩
    all_goals
      rw [hu, e]
      rfl
  have hclear := cleared_atReset s
  refine ⟨⟨_, rfl, hboot { s.cleared with flash := some c } _ _ rfl 1 (by decide) hclear⟩, fun hb hc => ?_, fun hb hok => ?_⟩
  · refine ⟨s.hearthReset cause.toNat cfg, ?_, ?_⟩
    · show execHearthReset cause cfg s = _
      rcases hc with rfl | rfl <;> simp [execHearthReset, hb]
    · exact hboot (s.cleared.setCause cause.toNat) _ _ rfl cause.toNat cause.isLt (setCause_atReset hclear (by decide) cause.isLt)
  · show execFirmwareUpdate cfg s = _
    simp [execFirmwareUpdate, hb, hok]

end Sys2Proof.Machine
end

section
/-! SUPPORT. A corrected error in the memory of a tenant that no device has (O47). -/

namespace Sys2Proof.Machine

/-- A state with the tables of a tenant 16, where there are 16 logical devices, 0 to 15: its stage 2 maps the first GiB without any permission,
an event ring is named where the block of a device 16 would be, and each corrected error reaches CETHR. -/
def State.strayTenant : State :=
  { State.reset with
    mgmt := [(oCethr, 1), (oEvbase 16, 64)]
    mem := [(0, 0x01), (1, 0x10), (0x1000, 0x03)]
    tenants := [(16, Tenant.empty)] }

/-- The same once a corrected error at address 0 is counted at its controller. -/
def State.strayCounted : State := { State.strayTenant with corrected := [(ctlOf 0, 1)] }

/-- The record of that error. -/
def strayError : Err := { cat := 1, code := 1, ten := some 16, aux0 := 1 }

theorem strayTenant_quiet : State.strayTenant.Quiet := by
  unfold State.Quiet
  decide

/-- Address 0 is found to be tenant 16's. -/
theorem strayTenant_corrected : exec (.memoryErrorDetect (ctlOf 0) 0 1) State.strayTenant =
    .next (State.strayCounted.report (srcMem (ctlOf 0)) strayError) := by
  have hown : State.strayTenant.holder 0 = some (16, 0) := by decide +kernel
  show execMemoryErrorDetect (ctlOf 0) 0 1 State.strayTenant = _
  simp only [execMemoryErrorDetect, hown, bne_self_eq_false, Bool.false_or]
  rfl

/-- The record goes to tenant 16's ring as well, which cannot be written; that it is lost there is a second record (R402). -/
theorem strayCounted_reports_twice : (State.strayCounted.report (srcMem (ctlOf 0)) strayError).records.length = 2 := by decide +kernel

/-- Refutes O47: of a corrected error that reaches CETHR it claims one record wherever the devices 0 to 15 have no event ring, but in
`State.strayTenant` the error is a tenant 16's, whose ring loses the record, so that there are two. (The clause on uncorrectable errors asks
that no ring be named at all; that on corrected ones would need it, or tenants below 16, which are the only ones that a boot configures.) -/
theorem not_deviceEvents : ¬ Obligations.DeviceEvents := by
  unfold Obligations.DeviceEvents
  intro h
  obtain ⟨-, -, herror, -⟩ := h State.strayTenant 0 0 (ctlOf 0) 0
  obtain ⟨⟨s', hs', -, hquiet⟩, -⟩ := herror rfl (by decide)
  obtain ⟨-, hreports, -⟩ := hquiet strayTenant_quiet
  have hone : s'.records.length = 1 := congrArg List.length (hreports ⟨by decide, rfl⟩)
  rw [← Host.Outcome.next.inj (strayTenant_corrected.symm.trans hs'), strayCounted_reports_twice] at hone
  exact absurd hone (by decide)

end Sys2Proof.Machine
end

section
/-! SUPPORT. The end of a core reset with a launch of a queue that no device has (O53). -/

namespace Sys2Proof.Machine

/-- A launch at position 2 of a queue 0x3C00, where there are 256 queues: LQPFX of that queue would stand at the offset of NCPUB of chain 0. -/
def strayLaunch : Launch :=
  { q := 0x3C00, pos := 2, lr := 0, checked := true, eligAt := none, pairs := [], admitted := true, toPlace := [], live := 0, status := none
    done := false, bad := [], fails := [], preempts := 0, energy := 0 }

/-- A core reset under way, with that launch, and with position 1 of chain 0 published and not complete. -/
def State.strayQueue : State :=
  { State.reset with mgmt := [(oNcpub 0, 1)], resetting := true, launches := [strayLaunch] }

/-- The launch completes as lost, and its LQPFX rises to 2; chain 0 then counts two positions as published, and completes both. -/
theorem strayQueue_completes_two : (State.strayQueue.coreResetOver.mbAfter 0).ncSeq 0 = 2 := by decide +kernel

theorem strayQueue_ends : exec .coreResetEnd State.strayQueue = .next (State.strayQueue.coreResetOver.mbAfter 0) := rfl

/-- Refutes O53: of the end of a core reset it claims that a chain's completions reach what it had published when the reset ended, for launches
of whatever queue number, but in `State.strayQueue` the completion of a launch of queue 0x3C00 raises the register that holds chain 0's
published count. -/
theorem not_stokerAndHostEvents : ¬ Obligations.StokerAndHostEvents := by
  unfold Obligations.StokerAndHostEvents
  intro h
  obtain ⟨-, -, -, -, -, hreset⟩ := h
  obtain ⟨-, s', hs', -, -, -, hchain⟩ := hreset State.strayQueue rfl rfl
  have hone : s'.ncSeq 0 = 1 := hchain 0 (by decide) (by decide) (by decide) rfl
  rw [← Host.Outcome.next.inj (strayQueue_ends.symm.trans hs'), strayQueue_completes_two] at hone
  exact absurd hone (by decide)

end Sys2Proof.Machine
end

section
/-! SUPPORT. How a run's end leaves its team, MWAIT (R261), and FENCE with its release (R46, R57, R192) (O35). -/

namespace Sys2Proof.Machine

/-! ### A team that leaves its run (R78, R79, R81) -/

/-- A table cut to the keys that satisfy `p` holds what it held at each of them. -/
theorem SMap.find_filter_key {α : Type} (m : SMap α) (p : Nat → Bool) (k : Nat) (h : p k = true) :
    SMap.find? (m.filter fun c => p c.1) k = m.find? k := by
  induction m with
  | nil => rfl
  | cons c m ih =>
    obtain ⟨j, v⟩ := c
    by_cases hk : k = j
    · subst hk
      simp [h, SMap.find?]
    · by_cases hp : p j = true <;> simp [hp, hk, SMap.find?, ih]

/-- Without a trailer that names a pending register, and with no more than eight pending, the registers v0..v55 stay. -/
theorem leaveRun_get {t : Team} {r : Run} (hr : t.run = some r) (h1 : bits r.trailer 19 6 = 63) (h2 : bits r.trailer 13 6 = 63)
    (hp : t.pend.length ≤ 8) (q j : Nat) (hq : q < 56) : t.leaveRun.get q j = t.get q j := by
  have hnone : t.leavePending t.v r 63 = t := if_pos (by simp)
  have hcap : t.capPending 2 = t := if_pos hp
  have h63 : (63 : BitVec 6).toNat = 63 := rfl
  have hv : t.leaveRun.v = t.v.filter fun c => decide (c.1 < 56) := by
    simp only [Team.leaveRun, hr, h1, h2, h63, hnone, hcap]
  rw [Team.get, hv, SMap.find_filter_key t.v (fun n => decide (n < 56)) q (by simpa using hq)]
  rfl

@[simp] theorem land_flags (t : Team) (p : Pend) : (t.land p).flags = t.flags := by
  unfold Team.land
  dsimp only
  split <;> rfl

@[simp] theorem capPending_flags (t : Team) (n : Nat) : (t.capPending n).flags = t.flags := by
  induction n generalizing t with
  | zero => rfl
  | succ n ih =>
    unfold Team.capPending
    split
    · rfl
    · split
      · rw [ih, land_flags]
      · rfl

@[simp] theorem leavePending_flags (t : Team) (v : SMap Row) (r : Run) (n : Nat) : (t.leavePending v r n).flags = t.flags := by
  unfold Team.leavePending
  split
  · rfl
  · dsimp only
    split
    · rfl
    · change (List.foldl _ t _).flags = t.flags
      refine foldl_keeps (fun u : Team => u.flags = t.flags) _ (fun u q h => ?_) _ t rfl
      exact h

@[simp] theorem leaveRun_flags (t : Team) : t.leaveRun.flags = t.flags := by
  unfold Team.leaveRun
  split <;> simp

/-! ### Control registers and flags as a run ends (R125, R161) -/

/-- Only control registers of the team differ. -/
def ControlsOnly (t t' : Team) : Prop :=
  t' = { t with frm := t'.frm, fsat := t'.fsat, qctl := t'.qctl, srseed := t'.srseed, flags := t'.flags, ashen := t'.ashen, boff := t'.boff }

theorem ControlsOnly.trans {a b c : Team} (h : ControlsOnly a b) (h' : ControlsOnly b c) : ControlsOnly a c := by
  have e := h'
  unfold ControlsOnly at h e
  rw [h] at e
  exact e

theorem setControl_controlsOnly (t : Team) (n : Nat) (v : DWord) : ControlsOnly t (t.setControl n v) := by
  unfold Team.setControl
  dsimp only
  split <;> rfl

theorem setControls_controlsOnly (us : List (Nat × DWord)) (t : Team) :
    ControlsOnly t (us.foldl (fun t u => t.setControl u.1 u.2) t) := by
  exact foldl_keeps (ControlsOnly t) _ (fun _ _ h => h.trans (setControl_controlsOnly _ _ _)) us t rfl

/-- The control registers that a run's UWRs name are written, and the run's list of them is empty. -/
theorem applyUwr_eq {t : Team} {r : Run} (hr : t.run = some r) :
    ∃ u, ControlsOnly t u ∧ (r.uwrs = [] → u = t) ∧ t.applyUwr = { u with run := some { r with uwrs := [] } } := by
  refine ⟨_, setControls_controlsOnly r.uwrs t, fun h => ?_, ?_⟩
  · rw [h]
    rfl
  · unfold Team.applyUwr
    rw [hr]

theorem side_logAppend (s : State) (src size len : Nat) (mk : Nat → List Byte) (tail : List Byte) (rd : State → Nat → Option Nat)
    (wr : State → Nat → List Byte → Option State) (cover : State → Nat → Option State) (lost : State → State)
    (hw : ∀ t o b t', wr t o b = some t' → MemorySide t t') (hc : ∀ t n t', cover t n = some t' → MemorySide t t')
    (hl : ∀ t, MemorySide t (lost t)) : MemorySide s (logAppend s src size len mk tail rd wr cover lost) := by
  have hseq (t : State) : MemorySide t (t.takeSeq src).2 := ⟨rfl, fun _ _ _ => rfl⟩
  have hwD (t : State) (o : Nat) (b : List Byte) : MemorySide t ((wr t o b).getD t) := by
    cases h : wr t o b with
    | none => exact .rfl' t
    | some t' => exact hw t o b t' h
  have hdrop (t : State) : MemorySide t (match rd t 8 with | some n => (wr t 8 (natLE 8 (n + 1))).getD t | none => t) := by
    split
    · exact hwD _ _ _
    · exact .rfl' t
  unfold logAppend
  dsimp only
  split
  · exact .rfl' s
  · split
    · split
      · exact .rfl' s
      · exact (hseq s).trans (hl _)
    · next n _ =>
      split
      · exact hdrop s
      · split
        · exact ((hseq s).trans (hdrop _)).trans (hl _)
        · next t' ht =>
          have h1 : MemorySide s t' := (hseq s).trans (hw _ _ _ _ ht)
          have h2 : MemorySide s (if n = 0 then (wr t' 16 tail).getD t' else t') := by
            split
            · exact h1.trans (hwD _ _ _)
            · exact h1
          split
          · next t'' hcov => exact h2.trans (hc _ _ _ hcov)
          · exact h2.trans (hl _)

theorem side_ashLog (s : State) (k : Nat) (t : Team) (pc : DWord) (cause : Word) : MemorySide s (s.ashLog k t pc cause) := by
  unfold State.ashLog
  split
  · exact .rfl' s
  · unfold State.contextLog
    exact side_logAppend _ _ _ _ _ _ _ _ _ _ (fun _ _ _ _ h => side_writeVa _ _ _ _ _ _ h) (fun _ _ _ h => side_writeVa _ _ _ _ _ _ h)
      (fun _ => side_report _ _ _)

theorem flagsEnd_team (s : State) (k : Nat) (t : Team) (pc : DWord) (fl en : Word) (h : s.TeamIs k t) :
    (s.flagsEnd k pc fl en).TeamIs k { t with flags := t.flags ||| fl } := by
  unfold State.flagsEnd
  rw [h]
  dsimp only
  unfold State.TeamIs
  rw [side_teams (side_ashLog _ _ _ _ _)]
  exact SMap.find_insert_self _ _ _

theorem side_wgs {s s' : State} (h : MemorySide s s') : s'.wgs = s.wgs := by rw [h.1]

@[simp] theorem flagsEnd_wgs (s : State) (k : Nat) (pc : DWord) (fl en : Word) : (s.flagsEnd k pc fl en).wgs = s.wgs := by
  unfold State.flagsEnd
  split
  · rfl
  · dsimp only
    rw [side_wgs (side_ashLog _ _ _ _ _)]
    rfl

@[simp] theorem deferredEnd_wgs (s : State) (k : Nat) (t : Team) (r : Run) (fl : Word) : (s.deferredEnd k t r fl).wgs = s.wgs :=
  flagsEnd_wgs _ _ _ _ _

@[simp] theorem attemptOver_wgs (s : State) (k : Nat) : (s.attemptOver k).wgs = s.wgs := by
  unfold State.attemptOver
  dsimp only
  split
  · rfl
  · split <;> rfl

@[simp] theorem endRun_wgs (s : State) (k : Nat) (pc : DWord) : (s.endRun k pc).wgs = s.wgs := attemptOver_wgs _ _

theorem setTeam_team (s : State) (k : Nat) (t : Team) : (s.setTeam k t).TeamIs k t := SMap.find_insert_self _ _ _

/-- A run whose flags its terminal adds to ends: of the registers v0..v55 nothing changes, where no load is left pending, and the flags
join those of the team, where no UWR writes them. -/
theorem deferredEnd_endRun_team (s : State) (k : Nat) (t : Team) (r : Run) (fl : Word) (pc : DWord) (hr : t.run = some r) :
    ∃ t', ((s.deferredEnd k t r fl).endRun k pc).TeamIs k t' ∧ t'.pc = pc ∧ t'.run = none ∧ t'.status = .ready ∧
      (bits r.trailer 19 6 = 63 → bits r.trailer 13 6 = 63 → t.pend.length ≤ 8 → ∀ q < 56, ∀ j, t'.get q j = t.get q j) ∧
      (r.uwrs = [] → t'.flags = t.flags ||| (r.flags ||| fl)) := by
  obtain ⟨u, hu, hflags, huwr⟩ := applyUwr_eq hr
  have hteam : (s.deferredEnd k t r fl).TeamIs k
      { u with run := some { r with uwrs := [] }, flags := u.flags ||| (r.flags ||| fl) } := by
    unfold State.deferredEnd
    rw [huwr]
    exact flagsEnd_team _ k _ _ _ _ (setTeam_team s k _)
  refine ⟨_, endRun_team _ k _ pc hteam, rfl, rfl, rfl, fun h1 h2 hp q hq j => ?_, fun h => ?_⟩
  · have hget : u.get q j = t.get q j := by rw [hu]; rfl
    have hpend : u.pend = t.pend := by rw [hu]
    rw [← hget]
    exact leaveRun_get (r := { r with uwrs := [] }) rfl h1 h2 (hpend ▸ hp) q j hq
  · rw [← hflags h]
    exact leaveRun_flags _

/-! ### MWAIT (R261) -/

/-- Operation `x` is still to be reached where its number lies ahead of those completed, by less than half of all numbers. -/
theorem opReached_false_iff (g : Wg) (x : Nat) : g.opReached x = false ↔
    x ≠ 0 ∧ (x + 2 ^ 32 - g.donePfx) % 2 ^ 32 ≠ 0 ∧ (x + 2 ^ 32 - g.donePfx) % 2 ^ 32 < 2 ^ 31 := by
  simp [Wg.opReached, and_assoc]

/-- MSTAT goes to `d` and is cleared, and its flags join the run's, which ends. -/
def State.mwaitEnd (s : State) (k : Nat) (t : Team) (r : Run) (d : Nat) : State :=
  ((s.setWg t.w { s.wgOf t.w with mstat := 0 }).deferredEnd k (t.put d (fun _ => true) fun _ => (s.wgOf t.w).mstat) r
    ((s.wgOf t.w).mstat &&& 0x3F)).endRun k r.nextPc

section Mwait

variable {s s1 : State} {k : Nat} {t t1 : Team} {r r1 : Run} (h : s.HasRun k t r) (hb : s.BodyDone k t r true s1 t1 r1)
include h hb

theorem mwait_waits (d a : BitVec 6) (g : Guard) (hg : t1.guardQ g = true)
    (ho : (s1.wgOf t1.w).opReached (t1.get a.toNat (r1.todo.leader t1.nlanes)).toNat = false) :
    exec (.mwait d a g) s = .next (s1.blockRun k 8) := by
  change execMwait d a g s = _
  rw [execMwait, teamTerminal_eq h g true _ hb hg]
  exact congrArg Host.Outcome.next (if_pos (congrArg Bool.not ho))

theorem mwait_reached (d a : BitVec 6) (g : Guard) (hg : t1.guardQ g = true)
    (ho : (s1.wgOf t1.w).opReached (t1.get a.toNat (r1.todo.leader t1.nlanes)).toNat = true) :
    exec (.mwait d a g) s = .next (s1.mwaitEnd k t1 r1 d.toNat) := by
  change execMwait d a g s = _
  rw [execMwait, teamTerminal_eq h g true _ hb hg]
  refine congrArg Host.Outcome.next (if_neg ?_)
  simp [Team.uget, Run.leader, ho]

/-- A guard that does not hold ends the run with its own flags. -/
theorem mwait_unguarded (d a : BitVec 6) (g : Guard) (hg : t1.guardQ g = false) :
    exec (.mwait d a g) s = .next ((s1.deferredEnd k t1 r1 0).endRun k r1.nextPc) := by
  obtain ⟨hbody, ht, hr⟩ := hb
  have ht' : s1.teams.find? k = some t1 := ht
  change execMwait d a g s = _
  rw [execMwait, teamTerminal, withRun_eq h]
  simp only [hbody, State.afterBody, ht', hr, hg, if_true, Bool.false_eq_true, if_false]

end Mwait

theorem opReached_of_passed {g : Wg} {x : Nat}
    (h : x = 0 ∨ (x + 2 ^ 32 - g.donePfx) % 2 ^ 32 = 0 ∨ 2 ^ 31 ≤ (x + 2 ^ 32 - g.donePfx) % 2 ^ 32) :
    g.opReached x = true := by
  rw [← Bool.not_eq_false, opReached_false_iff]
  omega

/-- MSTAT goes to register `d` in every lane, and its flags to the team, once the run ends. -/
theorem mwaitEnd_team (s : State) (k : Nat) (t : Team) (r : Run) (d : Nat) (hr : t.run = some r) :
    ∃ t', (s.mwaitEnd k t r d).TeamIs k t' ∧ t'.pc = r.nextPc ∧ t'.run = none ∧ t'.status = .ready ∧
      (bits r.trailer 19 6 = 63 → bits r.trailer 13 6 = 63 → t.pend.length ≤ 8 → ∀ j < t.nlanes, ∀ q < 56,
        t'.get q j = if q = d then (s.wgOf t.w).mstat else t.get q j) ∧
      (r.uwrs = [] → t'.flags = t.flags ||| (r.flags ||| ((s.wgOf t.w).mstat &&& 0x3F))) := by
  obtain ⟨t', hteam, hpc, hrun, hstatus, hregs, hflags⟩ := deferredEnd_endRun_team (s.setWg t.w { s.wgOf t.w with mstat := 0 }) k
    (t.put d (fun _ => true) fun _ => (s.wgOf t.w).mstat) r ((s.wgOf t.w).mstat &&& 0x3F) r.nextPc hr
  refine ⟨t', hteam, hpc, hrun, hstatus, fun h1 h2 hp j hj q hq => ?_, hflags⟩
  rw [hregs h1 h2 hp q hq j, Team.get_put t d q j _ _ hj, if_pos rfl]

theorem mwaitEnd_mstat (s : State) (k : Nat) (t : Team) (r : Run) (d : Nat) : ((s.mwaitEnd k t r d).wgOf t.w).mstat = 0 := by
  unfold State.wgOf State.mwaitEnd
  rw [endRun_wgs, deferredEnd_wgs, State.setWg_wgs, SMap.getD_insert, if_pos rfl]

/-! ### Stores that a release makes visible (R45, R46, R57) -/

theorem perform_team (s : State) (k : Nat) (t : Team) (st : Store) (stack : Bool) (h : s.TeamIs k t) :
    ∃ buf out, (s.perform k st stack).TeamIs k { t with sbuf := buf, peerOut := out } := by
  unfold State.perform
  split
  · obtain ⟨out, hc⟩ := commit_team s k t st h
    exact ⟨t.sbuf, out, hc⟩
  · exact ⟨_, t.peerOut, modTeam_team s k t _ h⟩

/-- Stores that are performed change of their team its buffer and what a peer has not acknowledged, at most. -/
theorem performAll_team (sts : List Store) (s : State) (k : Nat) (t : Team) (h : s.TeamIs k t) :
    ∃ buf out, (s.performAll k sts).TeamIs k { t with sbuf := buf, peerOut := out } := by
  induction sts generalizing s t with
  | nil => exact ⟨t.sbuf, t.peerOut, h⟩
  | cons st sts ih =>
    obtain ⟨buf, out, hp⟩ := perform_team s k t st (s.inStack st.at') h
    exact ih _ { t with sbuf := buf, peerOut := out } hp

/-- What draining leaves in a buffer is not of what it picks. -/
theorem drainSplit_rest (s : State) (p : Store → Bool) (l : List Store) : ∀ st ∈ (s.drainSplit p l).2, p st = false := by
  induction l with
  | nil => simp [State.drainSplit]
  | cons x l ih =>
    unfold State.drainSplit
    dsimp only
    split
    · exact ih
    · next hx =>
      simp only [Bool.or_eq_true, not_or, Bool.not_eq_true] at hx
      simpa [hx.1] using ih

theorem drain_team (s : State) (k : Nat) (t : Team) (p : Store → Bool) (h : s.TeamIs k t) :
    ∃ buf out, (∀ st ∈ buf, p st = false) ∧ (s.drain k p).TeamIs k { t with sbuf := buf, peerOut := out } := by
  unfold State.drain
  rw [h]
  obtain ⟨out, hc⟩ := commits_team (s.drainSplit p t.sbuf).1 (s.setTeam k { t with sbuf := (s.drainSplit p t.sbuf).2 }) k _
    (setTeam_team s k _)
  exact ⟨_, out, drainSplit_rest s p t.sbuf, hc⟩

/-! ### An attempt that completes a run without effects (R79, R80) -/

/-- Team `k` stands in a run that leaves no effect to be performed at its end, and each store in its buffer satisfies `P`. -/
def State.BufferHolds (s : State) (k : Nat) (P : Store → Prop) : Prop :=
  ∃ t r, s.TeamIs k t ∧ t.run = some r ∧ r.done = [] ∧ ∀ st ∈ t.sbuf, P st

theorem State.BufferHolds.setTeam (s : State) {k : Nat} {P : Store → Prop} {t : Team} {r : Run} (hr : t.run = some r) (hd : r.done = [])
    (hP : ∀ st ∈ t.sbuf, P st) : (s.setTeam k t).BufferHolds k P := ⟨t, r, setTeam_team s k t, hr, hd, hP⟩

theorem State.BufferHolds.modRun {s : State} {k : Nat} {P : Store → Prop} (h : s.BufferHolds k P) (f : Run → Run)
    (hf : ∀ r, (f r).done = r.done) : (s.modRun k f).BufferHolds k P := by
  obtain ⟨t, r, ht, hr, hd, hP⟩ := h
  exact ⟨_, f r, modTeam_team s k t _ ht, by rw [hr]; rfl, (hf r).trans hd, hP⟩

theorem State.BufferHolds.drain {s : State} {k : Nat} {P : Store → Prop} (h : s.BufferHolds k P) (p : Store → Bool) :
    (s.drain k p).BufferHolds k fun st => p st = false := by
  obtain ⟨t, r, ht, hr, hd, -⟩ := h
  obtain ⟨buf, out, hbuf, hteam⟩ := drain_team s k t p ht
  exact ⟨_, r, hteam, hr, hd, hbuf⟩

theorem storesEnd_bufferHolds (s : State) (k : Nat) (t : Team) (r : Run) (hl : r.termLeft = none) (hd : r.done = []) :
    (s.storesEnd k t r).BufferHolds k fun _ => True := by
  unfold State.storesEnd
  rw [hl]
  dsimp only
  obtain ⟨buf, out, hteam⟩ := performAll_team _ _ k _ (setTeam_team s k _)
  exact ⟨_, _, hteam, rfl, hd, fun _ _ => trivial⟩

theorem termsEnd_bufferHolds {s : State} {k : Nat} {P : Store → Prop} (h : s.BufferHolds k P) (t : Team) (left : Mask) :
    (s.termsEnd k t left noTerm).1.BufferHolds k P := by
  unfold State.termsEnd
  refine foldl_keeps (fun x : State × Bool => x.1.BufferHolds k P) _ (fun x l hx => ?_) _ _ h
  split
  · exact hx
  · exact State.BufferHolds.modRun hx _ fun _ => rfl

theorem completeRun_bufferHolds {s : State} {k : Nat} {P : Store → Prop} (h : s.BufferHolds k P) : (s.completeRun k false).BufferHolds k P := by
  obtain ⟨t, r, ht, hr, hd, hP⟩ := h
  have ht' : s.teams.find? k = some t := ht
  unfold State.completeRun
  simp only [ht', hr, Bool.false_eq_true, if_false]
  obtain ⟨u, hu, -, huwr⟩ := applyUwr_eq (t := { t with
    active := r.entry, kmask := bits r.trailer 5 8, yielded := r.trailer.getLsbD 0, marked := r.trailer.getLsbD 1
    run := some { r with bodyDone := true, todo := r.entry } }) rfl
  rw [huwr]
  refine ⟨_, _, flagsEnd_team _ k _ _ _ _ (setTeam_team s k _), rfl, hd, ?_⟩
  rw [show u.sbuf = t.sbuf by rw [hu]]
  exact hP

theorem doneEffects_none {s : State} {k : Nat} {P : Store → Prop} (h : s.BufferHolds k P) (n : Nat) : s.doneEffects k (n + 1) = (s, true) := by
  obtain ⟨t, r, ht, hr, hd, -⟩ := h
  have ht' : s.teams.find? k = some t := ht
  simp only [State.doneEffects, ht', hr, hd]

/-- An attempt that ends the body of a run performs its stores and per-lane terminals, its per-attempt terminal, and then completes
the run. -/
theorem bodyEnd_completes {s s1 : State} {k : Nat} {t : Team} {r : Run} {defer : Bool} {term : State → Nat → State × Bool}
    {att : State → State × Bool} (hbody : r.bodyDone = false) (hact : r.acting ≠ 0)
    (h : s.bodyEnd k t r defer term att = (s1, true)) : ∃ left u r', u = (att ((s.storesEnd k t r).termsEnd k t left term).1).1 ∧
      r'.done = ((u.teamAt k t).run.getD r).done ∧
      ((u.setTeam k { u.teamAt k t with run := some r' }).completeRun k defer).doneEffects k (r'.done.length + 1) = (s1, true) := by
  have hact' : (r.acting == 0) = false := by simpa using hact
  unfold State.bodyEnd at h
  simp only [hbody, hact', Bool.false_eq_true, if_false] at h
  generalize hterms : State.termsEnd _ k t _ term = x at h
  obtain ⟨a, wait⟩ := x
  dsimp only at h
  split at h
  · cases congrArg Prod.snd h
  · generalize hatt : att a = y at h
    obtain ⟨u, hold⟩ := y
    dsimp only at h
    split at h
    · cases congrArg Prod.snd h
    · split at h
      · refine ⟨_, u, _, by rw [hterms, hatt], ?_, h⟩
        rfl
      · cases congrArg Prod.snd h

/-- Where the run leaves no effect to perform, the buffer stands as the per-attempt terminal leaves it. -/
theorem bodyEnd_bufferHolds {s s1 : State} {k : Nat} {t : Team} {r : Run} {att : State → State × Bool} {P : Store → Prop}
    (hbody : r.bodyDone = false) (hact : r.acting ≠ 0) (hl : r.termLeft = none) (hd : r.done = [])
    (hatt : ∀ u : State, (u.BufferHolds k fun _ => True) → (att u).1.BufferHolds k P)
    (h : s.bodyEnd k t r false noTerm att = (s1, true)) : s1.BufferHolds k P := by
  obtain ⟨left, u, r', hu, hd', h⟩ := bodyEnd_completes hbody hact h
  obtain ⟨t2, r2, ht2, hr2, hd2, hP⟩ : u.BufferHolds k P := hu ▸ hatt _ (termsEnd_bufferHolds (storesEnd_bufferHolds s k t r hl hd) t left)
  have hat : u.teamAt k t = t2 := by
    unfold State.teamAt
    rw [ht2]
    rfl
  rw [hat, hr2, Option.getD_some, hd2] at hd'
  have hdone := completeRun_bufferHolds (.setTeam u (k := k) (P := P) (t := { u.teamAt k t with run := some r' }) rfl hd' (hat ▸ hP))
  rw [doneEffects_none hdone, Prod.mk.injEq] at h
  exact h.1 ▸ hdone

/-! ### FENCE (R192) -/

/-- The fields of a fence's word that name its colours and its paths. -/
theorem fence_fields {c : BitVec 8} {sr : BitVec 3} {kd : BitVec 2} {la : BitVec 6} {w : Word}
    (h : encode (.fence c sr kd la) = some w) : bits w 17 8 = c ∧ bits w 6 6 = la := by
  have hw : w = 81#7 ++ c ++ sr ++ kd ++ la ++ 0#6 := (Option.some.inj h).symm
  rw [hw, bits, bits]
  constructor
  · iterate 4 rw [BitVec.extractLsb'_append_eq_of_le (by omega)]
    exact BitVec.extractLsb'_append_eq_right
  · rw [BitVec.extractLsb'_append_eq_of_le (by omega)]
    exact BitVec.extractLsb'_append_eq_right

/-- Whether a fence has a release half on path T beyond the team. -/
def fenceReleases (sr : BitVec 3) (kd : BitVec 2) (la : BitVec 6) : Bool := kd != 0 && la.getLsbD 0 && decide (2 ≤ sr.toNat)
/-- Whether a fence, with a release half or not, still waits for hosts and peers. -/
def State.fenceWaits (s : State) (k : Nat) (sr : BitVec 3) (rel : Bool) : Bool :=
  rel && sr == 6 && (match s.teams.find? k with | some t => s.stillWaits k t 16 | none => false)
/-- What a fence does in each attempt: a release makes the stores of its colours visible, and those that it carries. -/
def State.fencePublish (s : State) (k : Nat) (c : BitVec 8) (rel : Bool) : State :=
  if rel then (s.drain k fun st => c.getLsbD st.col || st.carried).markRun k else s
/-- The per-attempt terminal of a fence. -/
def fenceAttempt (k : Nat) (c : BitVec 8) (sr : BitVec 3) (rel : Bool) (s : State) : State × Bool :=
  (s.fencePublish k c rel, (s.fencePublish k c rel).fenceWaits k sr rel)
/-- What peers and hosts owe a release of team `k`: acknowledgements of its own stores and of engine writes, and lines (R57, R59, R61). -/
def State.owes (s : State) (k : Nat) (t : Team) (c : BitVec 8) (la : BitVec 6) (mark : Nat) : Bool :=
  let ten := (s.wgOf t.w).ten
  t.peerOut.any (fun n => decide (8 ≤ n) || c.getLsbD n) || [1, 2, 3, 4].any (fun p => la.getLsbD p && s.engOut.getD (p * 16 + ten % 16) 0 != 0) ||
    la.getLsbD 5 && s.biWait.any fun b => decide (b.num < mark) &&
      (if b.by'.team = some k then c.getLsbD b.by'.col || b.by'.carried else b.ten == some ten && decide (b.by'.path ≤ 4) && la.getLsbD b.by'.path)

theorem fenceWaits_any (s : State) (k : Nat) (sr : BitVec 3) (rel : Bool) :
    s.fenceWaits k sr rel = (rel && sr == 6 && (s.teams.find? k).any fun t => s.stillWaits k t 16) := by
  unfold State.fenceWaits
  cases s.teams.find? k <;> rfl

theorem fenceAttempt_any (k : Nat) (c : BitVec 8) (sr : BitVec 3) (rel : Bool) : fenceAttempt k c sr rel = fun s =>
    (s.fencePublish k c rel, rel && sr == 6 && ((s.fencePublish k c rel).teams.find? k).any fun t => (s.fencePublish k c rel).stillWaits k t 16) :=
  funext fun _ => congrArg (Prod.mk _) (fenceWaits_any _ _ _ _)

theorem fencePublish_bufferHolds {s : State} {k : Nat} {P : Store → Prop} (h : s.BufferHolds k P) (c : BitVec 8) :
    (s.fencePublish k c true).BufferHolds k fun st => c.getLsbD st.col = false ∧ st.carried = false := by
  obtain ⟨t, r, ht, hr, hd, hP⟩ := (h.drain fun st => c.getLsbD st.col || st.carried).modRun
    (fun r => { r with mark := some (r.mark.getD (s.drain k fun st => c.getLsbD st.col || st.carried).biNext) }) fun _ => rfl
  exact ⟨t, r, ht, hr, hd, fun st hst => by simpa using hP st hst⟩

section Fence

variable {s s1 : State} {k : Nat} {t t1 : Team} {r r1 : Run} {c : BitVec 8} {sr : BitVec 3} {kd : BitVec 2} {la : BitVec 6}

/-- A fence behind its run waits, or ends the run. -/
theorem fence_exec (h : s.HasRun k t r) (ht : s1.TeamIs k t1) (hr : t1.run = some r1)
    (hb : (if r.bodyDone || r.termLeft.isSome then s else s.uniIssue k t).bodyEnd k t r false noTerm
      (fenceAttempt k c sr (fenceReleases sr kd la)) = (s1, true)) :
    exec (.fence c sr kd la) s =
      .next (if s1.fenceWaits k sr (fenceReleases sr kd la) then s1.blockRun k 16 else s1.endRun k r1.nextPc) := by
  have ht' : s1.teams.find? k = some t1 := ht
  change execFence c sr kd la s = _
  rw [execFence, withRun_eq h]
  change Host.Outcome.next (State.afterBody (State.bodyEnd _ k t r false noTerm (fenceAttempt k c sr (fenceReleases sr kd la))) k
    fun s _ r => if s.fenceWaits k sr (fenceReleases sr kd la) then s.blockRun k 16 else s.endRun k r.nextPc) = _
  rw [hb]
  simp only [State.afterBody, ht', hr, if_true]

/-- A fence at system scope waits while something is owed. -/
theorem fenceWaits_eq (ht : s1.TeamIs k t1) (hr : t1.run = some r1) (he : encode (.fence c sr kd la) = some (r1.words.getLastD 0)) :
    s1.fenceWaits k sr (fenceReleases sr kd la) =
      (fenceReleases sr kd la && sr == 6 && s1.owes k t1 c la (r1.mark.getD 0)) := by
  have ht' : s1.teams.find? k = some t1 := ht
  obtain ⟨hc, hla⟩ := fence_fields he
  have hstill : s1.stillWaits k t1 16 = (la.getLsbD 0 && s1.owes k t1 c la (r1.mark.getD 0)) := by
    unfold State.stillWaits
    rw [hr]
    dsimp only
    rw [hc, hla]
    rfl
  rw [fenceWaits_any, ht', Option.any_some, hstill, fenceReleases]
  cases la.getLsbD 0 <;> simp

/-- A release leaves in the team's buffer none of the stores that it makes visible. -/
theorem fence_publishes {u : State} (ht : s1.TeamIs k t1) (hb : u.bodyEnd k t r false noTerm (fenceAttempt k c sr true) = (s1, true))
    (hbody : r.bodyDone = false) (hl : r.termLeft = none) (hact : r.acting ≠ 0) (hd : r.done = []) :
    ∀ st ∈ t1.sbuf, c.getLsbD st.col = false ∧ st.carried = false := by
  obtain ⟨t2, _, ht2, -, -, hP⟩ := bodyEnd_bufferHolds hbody hact hl hd (fun _ hu => fencePublish_bufferHolds hu c) hb
  obtain rfl : t2 = t1 := Option.some.inj (ht2.symm.trans ht)
  exact hP

end Fence

/-- Settles O35: MWAIT by `opReached_false_iff` and what it leaves at its end (`mwaitEnd_team`), FENCE by what its release leaves in the
buffer (`fence_publishes`) and by what is owed to it (`fenceWaits_eq`). -/
theorem matrixWaitAndFence : Obligations.MatrixWaitAndFence := by
  unfold Obligations.MatrixWaitAndFence
  intro s k t t1 r r1 s1 h ht hr
  constructor
  · intro hb d a g
    refine ⟨fun hg hx hne hlt => ?_, fun hg hreached => ?_, fun hg huwr => ?_⟩
    · exact ⟨_, mwait_waits h hb d a g hg ((opReached_false_iff _ _).mpr ⟨hx, hne, hlt⟩), blockRun_team s1 k 8 t1 ht⟩
    · obtain ⟨t', hteam, hpc, hrun, hstatus, hregs, hflags⟩ := mwaitEnd_team s1 k t1 r1 d.toNat hr
      exact ⟨_, mwait_reached h hb d a g hg (opReached_of_passed hreached), t', hteam, hpc, hrun, hstatus, mwaitEnd_mstat s1 k t1 r1 _,
        fun h1 h2 hp _ => hregs h1 h2 hp, hflags⟩
    · obtain ⟨t', hteam, hpc, hrun, -, -, hflags⟩ := deferredEnd_endRun_team s1 k t1 r1 0 r1.nextPc hr
      exact ⟨_, mwait_unguarded h hb d a g hg, t', hteam, hpc, hrun, by simpa using hflags huwr⟩
  · intro c sr kd la rel ten publish owed hpub he
    have hattempt : fenceAttempt k c sr rel = publish := fenceAttempt_any k c sr rel
    rw [← hattempt] at hpub
    have hexec := fence_exec h ht hr hpub
    have hwaits : s1.fenceWaits k sr (fenceReleases sr kd la) = (rel && sr == 6 && owed) := fenceWaits_eq ht hr he
    refine ⟨fun hbody hl hact hd hrel => ?_, fun hwait => ?_, fun hgo => ?_⟩
    · exact fence_publishes ht (hrel ▸ hpub) hbody hl hact hd
    · rw [if_pos (hwaits.trans hwait)] at hexec
      exact ⟨_, hexec, blockRun_team s1 k 16 t1 ht⟩
    · rw [if_neg (ne_true_of_eq_false (hwaits.trans hgo))] at hexec
      exact ⟨_, hexec, endRun_team s1 k t1 r1.nextPc ht⟩

end Sys2Proof.Machine
end

section
/-! SUPPORT. What a WAITV finds at its word, and how it goes on, waits or stops (O34). -/

namespace Sys2Proof.Machine

/-! ### A translated access leaves the teams alone (R292, R337) -/

theorem side_xlate (s : State) (rcv asid va : Nat) (n : Need) : MemorySide s (s.xlate rcv asid va n).1 := by
  unfold State.xlate
  dsimp only
  split <;> exact ⟨rfl, fun _ _ _ => rfl⟩

theorem side_reachSpa (s : State) (spa gpa : Nat) (need : Need) : MemorySide s (s.reachSpa spa gpa need).1 := by
  unfold State.reachSpa
  split
  · split
    · exact .rfl' s
    · exact ⟨rfl, fun _ _ _ => rfl⟩
  · split <;> exact .rfl' s

theorem side_reachGlobal (s : State) (rcv asid ea : Nat) (need : Need) : MemorySide s (s.reachGlobal rcv asid ea need).1 := by
  have h := side_xlate s rcv asid ea need
  unfold State.reachGlobal
  generalize s.xlate rcv asid ea need = x at h
  obtain ⟨u, v⟩ := x
  cases v with
  | fault c gpa bad =>
    cases bad with
    | none => exact h
    | some a => exact h.trans (side_tagFail _ _ _ _)
  | ok spa gpa _ _ _ => exact h.trans (side_reachSpa _ _ _ _)

theorem MemorySide.teamIs {s s' : State} (h : MemorySide s s') {k : Nat} {t : Team} (ht : s.TeamIs k t) : s'.TeamIs k t := by
  unfold State.TeamIs
  rw [side_teams h]
  exact ht

/-! ### What a run's end changes beyond its team (R82) -/

theorem attemptOver_frame (s : State) (k : Nat) : TerminalFrame s (s.attemptOver k) k := by
  have hset (p : Part) : TerminalFrame s (s.setPart (partOfTeam k) p) k := by
    refine ⟨rfl, fun _ _ => rfl, fun pt hpt => ?_⟩
    exact (SMap.getD_setD s.parts (partOfTeam k) pt p Part.empty).trans (if_neg hpt)
  unfold State.attemptOver
  dsimp only
  split
  · exact ⟨rfl, fun _ _ => rfl, fun _ _ => rfl⟩
  · split <;> exact hset _

theorem endRun_frame (s : State) (k : Nat) (pc : DWord) : TerminalFrame s (s.endRun k pc) k := by
  obtain ⟨heq, hteams, hparts⟩ := attemptOver_frame (s.modTeam k fun t => t.nextRun pc (s.readySince k t)) k
  refine ⟨heq, fun j hj => (hteams j hj).trans ?_, hparts⟩
  rw [State.modTeam_teams, SMap.find_modify, if_neg hj]

/-! ### The condition (R195) -/

theorem waitCond_iff {c : Nat} (hc : c < 4) (w v : Word) : waitCond c w v = true ↔
    (c = 0 ∧ w = v) ∨ (c = 1 ∧ w ≠ v) ∨ (c = 2 ∧ v.toNat ≤ w.toNat) ∨ (c = 3 ∧ v.toInt ≤ w.toInt) := by
  match c, hc with
  | 0, _ => simp [waitCond]
  | 1, _ => simp [waitCond]
  | 2, _ => simp [waitCond]
  | 3, _ => simp [waitCond]

/-! ### The read of the word (R57, R195) -/

/-- The leader of team `k` has read the word at `p`: what it found of other lanes' stores is noted. -/
def State.waitvNote (s : State) (k : Nat) (t : Team) (r : Run) (p : Place) : State :=
  ((match p with | .peer _ _ _ => { s with free := s.free + 256 } | _ => s).noteRead k (r.leader t) p 4).modTeam k fun t =>
    { t with sbuf := s.noteBuf (r.leader t) p 4 t.sbuf }

/-- What a WAITV finds at the place of its word, reached at `gpa` by a team of `g`. -/
def State.waitvRead (s : State) (g : Wg) (k : Nat) (t : Team) (r : Run) (c : Nat) (v : Word) (p : Place) (gpa : Nat) : WaitEnd :=
  if s.placeBad p g.ktag then .stop (s.foundBad p g.ten gpa g.ktag) 7 5
  else if waitCond c (wordOf (leNat (s.laneBytes t r t.nlanes p 4))) v then .go (s.waitvNote k t r p)
  else .hold (s.waitvNote k t r p) p

theorem waitvNote_team {s : State} {k : Nat} {t : Team} (ht : s.TeamIs k t) (r : Run) (p : Place) :
    (s.waitvNote k t r p).TeamIs k { t with sbuf := s.noteBuf (r.leader t) p 4 t.sbuf } := by
  refine modTeam_team _ k t _ ?_
  cases p <;> exact ht

theorem waitvNote_readySince (s : State) (k : Nat) (t : Team) (r : Run) (p : Place) (sts : List Store) :
    (s.waitvNote k t r p).readySince k { t with sbuf := sts } = s.readySince k t := by
  cases p <;> rfl

/-- The finding stops the team, at once or by the class check (R29, R214). -/
def WaitEnd.stops : WaitEnd → Prop
  | .stop _ _ _ => True
  | .illegal _ => True
  | _ => False

theorem waitvRead_bad {s : State} {g : Wg} {p : Place} (hbad : s.placeBad p g.ktag = true) (k : Nat) (t : Team) (r : Run) (c : Nat)
    (v : Word) (gpa : Nat) : (s.waitvRead g k t r c v p gpa).stops := by
  rw [State.waitvRead, if_pos hbad]
  trivial

/-! ### Where the word lies (R195, R212, R214) -/

/-- A word of the shared or the cluster window. -/
def State.waitvWindow (s : State) (k : Nat) (t : Team) (r : Run) (c ea : Nat) (v : Word) : WaitEnd :=
  match s.windowPlace t.w t.wgteam (r.leader t) ea with
  | none => .stop s 6 4
  | some p => s.waitvRead (s.wgOf t.w) k t r c v p 0

/-- A word of global memory. -/
def State.waitvGlobal (s : State) (k : Nat) (t : Team) (r : Run) (c ea : Nat) (v : Word) : WaitEnd :=
  let g := s.wgOf t.w
  match s.reachGlobal (rcvOfCore (k / 128)) g.asid ea .load with
  | (u, .cause 4) => .stop u 6 4
  | (u, .cause n) => .stoker (u.submit g.ten (u.faultOf g.asid ea n .load (.team k)))
  | (u, .at' p gpa) => u.waitvRead g k t r c v p gpa

/-- The order of the checks: the window, the class, the alignment, then the word (log entry 60). -/
theorem waitvLook_eq (s : State) (k : Nat) (t : Team) (r : Run) (c ea : Nat) (v : Word) :
    s.waitvLook k t r c ea v =
      if spaceOf (s.wgOf t.w).lr ea = 1 || spaceOf (s.wgOf t.w).lr ea = 4 then .stop s 6 4
      else if spaceOf (s.wgOf t.w).lr ea = 0 && !lrWhole (s.wgOf t.w).lr then .illegal s
      else if ea % 4 != 0 then .stop s 6 6
      else if spaceOf (s.wgOf t.w).lr ea = 0 then s.waitvGlobal k t r c ea v
      else s.waitvWindow k t r c ea v := rfl

section Look

variable {s : State} {k : Nat} {t : Team} {r : Run} {c ea : Nat} {v : Word}

/-- An address of the local window, or beyond 48 bits. -/
theorem waitvLook_unwatched (h : spaceOf (s.wgOf t.w).lr ea = 1 ∨ spaceOf (s.wgOf t.w).lr ea = 4) :
    (s.waitvLook k t r c ea v).stops := by
  rw [waitvLook_eq, if_pos (by simpa using h)]
  trivial

theorem waitvLook_notWhole (h : spaceOf (s.wgOf t.w).lr ea = 0) (hwhole : lrWhole (s.wgOf t.w).lr = false) :
    (s.waitvLook k t r c ea v).stops := by
  rw [waitvLook_eq, if_neg (by simp [h]), if_pos (by simp [h, hwhole])]
  trivial

theorem waitvLook_misaligned (h : ea % 4 ≠ 0) : (s.waitvLook k t r c ea v).stops := by
  rw [waitvLook_eq, if_pos (c := (ea % 4 != 0) = true) (by simpa using h)]
  split
  · trivial
  · split <;> trivial

theorem waitvLook_global (hal : ea % 4 = 0) (h : spaceOf (s.wgOf t.w).lr ea = 0) (hwhole : lrWhole (s.wgOf t.w).lr = true) :
    s.waitvLook k t r c ea v = s.waitvGlobal k t r c ea v := by
  rw [waitvLook_eq, if_neg (by simp [h]), if_neg (by simp [hwhole]), if_neg (by simp [hal]), if_pos h]

theorem waitvLook_window (hal : ea % 4 = 0) (h : spaceOf (s.wgOf t.w).lr ea = 2 ∨ spaceOf (s.wgOf t.w).lr ea = 3) :
    s.waitvLook k t r c ea v = s.waitvWindow k t r c ea v := by
  have h0 : spaceOf (s.wgOf t.w).lr ea ≠ 0 := by omega
  rw [waitvLook_eq, if_neg (by simp; omega), if_neg (by simp [h0]), if_neg (by simp [hal]), if_neg h0]

theorem waitvLook_shared (hal : ea % 4 = 0) (h : spaceOf (s.wgOf t.w).lr ea = 2) : s.waitvLook k t r c ea v =
    s.waitvRead (s.wgOf t.w) k t r c v (.scr t.w (ea - lrShBase (s.wgOf t.w).lr)) 0 := by
  have hp : s.windowPlace t.w t.wgteam (r.leader t) ea = some (.scr t.w (ea - lrShBase (s.wgOf t.w).lr)) := by
    simp only [State.windowPlace, h]
  rw [waitvLook_window hal (.inl h), State.waitvWindow, hp]

/-- An address of the cluster window goes to its segment (R314). -/
theorem windowPlace_cluster (h : spaceOf (s.wgOf t.w).lr ea = 3) (l : Nat) : s.windowPlace t.w t.wgteam l ea =
    (s.segmentWg t.w ((ea - lrClBase (s.wgOf t.w).lr) / lrSegment (s.wgOf t.w).lr)).map fun w =>
      .scr w ((ea - lrClBase (s.wgOf t.w).lr) % lrSegment (s.wgOf t.w).lr) := by
  simp only [State.windowPlace, h]

theorem waitvLook_deadSegment (hal : ea % 4 = 0) (h : spaceOf (s.wgOf t.w).lr ea = 3)
    (hseg : s.segmentWg t.w ((ea - lrClBase (s.wgOf t.w).lr) / lrSegment (s.wgOf t.w).lr) = none) :
    (s.waitvLook k t r c ea v).stops := by
  rw [waitvLook_window hal (.inr h), State.waitvWindow, windowPlace_cluster h, hseg]
  trivial

theorem waitvLook_cluster (hal : ea % 4 = 0) (h : spaceOf (s.wgOf t.w).lr ea = 3) {w : Nat}
    (hseg : s.segmentWg t.w ((ea - lrClBase (s.wgOf t.w).lr) / lrSegment (s.wgOf t.w).lr) = some w) : s.waitvLook k t r c ea v =
      s.waitvRead (s.wgOf t.w) k t r c v (.scr w ((ea - lrClBase (s.wgOf t.w).lr) % lrSegment (s.wgOf t.w).lr)) 0 := by
  rw [waitvLook_window hal (.inr h), State.waitvWindow, windowPlace_cluster h, hseg]
  rfl

section Global

variable {u : State} (hal : ea % 4 = 0) (h : spaceOf (s.wgOf t.w).lr ea = 0) (hwhole : lrWhole (s.wgOf t.w).lr = true)
include hal h hwhole

theorem waitvLook_reached {p : Place} {gpa : Nat}
    (hx : s.reachGlobal (rcvOfCore (k / 128)) (s.wgOf t.w).asid ea .load = (u, .at' p gpa)) :
    s.waitvLook k t r c ea v = u.waitvRead (s.wgOf t.w) k t r c v p gpa := by
  rw [waitvLook_global hal h hwhole, State.waitvGlobal, hx]

theorem waitvLook_outOfReach (hx : s.reachGlobal (rcvOfCore (k / 128)) (s.wgOf t.w).asid ea .load = (u, .cause 4)) :
    (s.waitvLook k t r c ea v).stops := by
  rw [waitvLook_global hal h hwhole, State.waitvGlobal, hx]
  trivial

theorem waitvLook_stoker {n : Nat} (hx : s.reachGlobal (rcvOfCore (k / 128)) (s.wgOf t.w).asid ea .load = (u, .cause n)) (hn : n ≠ 4) :
    s.waitvLook k t r c ea v = .stoker (u.submit (s.wgOf t.w).ten (u.faultOf (s.wgOf t.w).asid ea n .load (.team k))) := by
  rw [waitvLook_global hal h hwhole, State.waitvGlobal, hx]
  split
  · next heq => exact absurd (Reach.cause.inj (Prod.mk.inj heq).2) hn
  · next heq => cases heq; rfl
  · next heq => cases heq

end Global

end Look

/-! ### WAITV's turn (R195, R212, R214) -/

section Turn

variable {s u : State} {k : Nat} {t : Team} {r : Run} {c ea : Nat} {v : Word} (hmet : r.met = false)
include hmet

theorem waitvTurn_stops (hx : (s.waitvLook k t r c ea v).stops) :
    (s.waitvTurn k t r c ea v).TeamIs k { t with pc := dwordOf r.here, status := .stopped, run := none, base := some r.pc } := by
  have hstop (u : State) (e : Err) : ((u.stopTeam k { t with base := some r.pc } (dwordOf r.here) e).attemptOver k).TeamIs k
      { t with pc := dwordOf r.here, status := .stopped, run := none, base := some r.pc } := by
    unfold State.TeamIs
    rw [attemptOver_teams]
    exact stopTeam_team u k _ _ e
  unfold State.waitvTurn
  rw [if_neg (by simp [hmet])]
  generalize s.waitvLook k t r c ea v = x at hx
  cases x with
  | stop u code cause => exact hstop u _
  | illegal u => exact hstop u _
  | go u => exact hx.elim
  | hold u p => exact hx.elim
  | stoker u => exact hx.elim

theorem waitvTurn_stoker (hx : s.waitvLook k t r c ea v = .stoker u) (hu : u.TeamIs k t) :
    (s.waitvTurn k t r c ea v).TeamIs k { t with status := .waiting 14 } := by
  unfold State.waitvTurn
  rw [if_neg (by simp [hmet]), hx]
  exact blockRun_team u k 14 t hu

section Read

variable {g : Wg} {p : Place} {gpa : Nat} (hx : s.waitvLook k t r c ea v = u.waitvRead g k t r c v p gpa)
  (hgood : u.placeBad p g.ktag = false) (hu : u.TeamIs k t)
include hx hgood hu

/-- A word that meets the condition lets the team go on. -/
theorem waitvTurn_met (hw : waitCond c (wordOf (leNat (u.laneBytes t r t.nlanes p 4))) v = true) :
    (s.waitvTurn k t r c ea v).TeamIs k
      ({ t with sbuf := u.noteBuf (r.leader t) p 4 t.sbuf }.ended r.nextPc (u.readySince k t)) := by
  unfold State.waitvTurn
  rw [if_neg (by simp [hmet]), hx, State.waitvRead, if_neg (by simp [hgood]), if_pos hw,
    ← waitvNote_readySince u k t r p (u.noteBuf (r.leader t) p 4 t.sbuf)]
  exact endRun_team _ k _ _ (waitvNote_team hu r p)

/-- A word that does not is watched. -/
theorem waitvTurn_unmet (hr : t.run = some r) (hw : ¬ waitCond c (wordOf (leNat (u.laneBytes t r t.nlanes p 4))) v = true) :
    (s.waitvTurn k t r c ea v).TeamIs k { t with
      sbuf := u.noteBuf (r.leader t) p 4 t.sbuf, status := .waiting 6, run := some { r with watch := some (p, ea, c, v) } } := by
  unfold State.waitvTurn
  rw [if_neg (by simp [hmet]), hx, State.waitvRead, if_neg (by simp [hgood]), if_neg hw]
  have hteam := blockRun_team _ k 6 _ (modTeam_team _ k _
    (fun t => { t with run := t.run.map fun r => { r with watch := some (p, ea, c, v) } }) (waitvNote_team hu r p))
  rw [hr] at hteam
  exact hteam

end Read

end Turn

section Exec

variable {s s1 : State} {k : Nat} {t t1 : Team} {r r1 : Run} (h : s.HasRun k t r) (hb : s.BodyDone k t r false s1 t1 r1)
  (d a b : BitVec 6) {g : Guard} (hg : t1.guardQ g = true)
include h hb hg

theorem waitv_exec : exec (.waitv d a b g) s = .next (s1.waitvTurn k t1 r1 d.toNat
    (t1.get64 a.toNat (r1.todo.leader t1.nlanes)).toNat (t1.get b.toNat (r1.todo.leader t1.nlanes))) := by
  change execWaitv d a b g s = _
  rw [execWaitv, teamTerminal_eq h g false _ hb hg]
  rfl

end Exec

/-- Settles O34: each case names what WAITV finds at its word (the `waitvLook_…` lemmas, in the order of the checks), and `waitvTurn_stops`,
`waitvTurn_stoker`, `waitvTurn_met` and `waitvTurn_unmet` say how the team stands after each finding. -/
theorem valueWaits : Obligations.ValueWaits := by
  unfold Obligations.ValueWaits
  intro s k t t1 r r1 s1 h hb d a b g hg l ea v wg i holds L
  have hexec : exec i s = .next (s1.waitvTurn k t1 r1 d.toNat ea v) := waitv_exec h hb d a b hg
  obtain ⟨-, ht, hr⟩ := hb
  refine ⟨fun hmet => ?_, fun hmet => ?_⟩
  · rw [State.waitvTurn, if_pos hmet] at hexec
    exact ⟨_, hexec, endRun_team s1 k t1 r1.nextPc ht, endRun_frame s1 k r1.nextPc⟩
  have hstop (hx : (s1.waitvLook k t1 r1 d.toNat ea v).stops) : StopsAs i s k t1 r1 := ⟨_, hexec, waitvTurn_stops hmet hx⟩
  have hread {u : State} {p : Place} {gpa : Nat}
      (hx : s1.waitvLook k t1 r1 d.toNat ea v = u.waitvRead wg k t1 r1 d.toNat v p gpa) (hu : u.TeamIs k t1) :
      (u.placeBad p wg.ktag = true → StopsAs i s k t1 r1) ∧ (u.placeBad p wg.ktag = false → L u p) := by
    refine ⟨fun hbad => hstop (hx ▸ waitvRead_bad hbad ..), ?_⟩
    intro hgood hd w hw t2
    subst hw
    refine ⟨fun hholds => ⟨_, hexec, waitvTurn_met hmet hx hgood hu ((waitCond_iff hd _ _).mpr hholds)⟩, fun hfails => ?_⟩
    exact ⟨_, hexec, waitvTurn_unmet hmet hx hgood hu hr (mt (waitCond_iff hd _ _).mp hfails)⟩
  refine ⟨fun hsp => hstop (waitvLook_unwatched hsp), fun hsp hwhole => hstop (waitvLook_notWhole hsp hwhole),
    fun hmis => hstop (waitvLook_misaligned hmis), fun hal hsp => ?_, fun hal hsp => ?_, fun hal hsp hwhole => ?_⟩
  · exact hread (waitvLook_shared hal hsp) ht
  · split
    · next hseg => exact hstop (waitvLook_deadSegment hal hsp hseg)
    · next w hseg => exact hread (waitvLook_cluster hal hsp hseg) ht
  · have hside := side_reachGlobal s1 (rcvOfCore (k / 128)) wg.asid ea .load
    generalize hx : s1.reachGlobal (rcvOfCore (k / 128)) wg.asid ea .load = x at hside
    obtain ⟨u, ⟨p, gpa⟩ | n⟩ := x
    · exact hread (waitvLook_reached hal hsp hwhole hx) (hside.teamIs ht)
    · refine ⟨fun hn => ?_, fun hn => ?_⟩
      · subst hn
        exact hstop (waitvLook_outOfReach hal hsp hwhole hx)
      · exact ⟨_, hexec, waitvTurn_stoker hmet (waitvLook_stoker hal hsp hwhole hx hn) (hside.teamIs ht)⟩

end Sys2Proof.Machine
end

section
/-! SUPPORT. Which instruction or event an agent comes to, and that a step runs it (O57). -/

namespace Sys2Proof.Machine

/-- The agent at the head of the agenda moves. -/
theorem nextActor_of_agenda {s : State} {a : Actor} {rest : List Actor} (h : s.agenda = a :: rest) : nextActor s = a := by
  rw [nextActor, h]

/-- A step runs the instruction or event to which its agent comes. -/
theorem step_of_move {s u : State} {a : Actor} {rest : List Actor} {i : Instr} (h : s.agenda = a :: rest)
    (hm : actorMove s.begin a = (u, some i)) : step s = exec i u := by
  rw [step, nextActor_of_agenda h, hm]

/-- A team in issue whose next word decodes, and which no held effect stalls, comes to that word. -/
theorem teamMove_word {b : State} {pt k : Nat} {t : Team} {r : Run} {w : Word} {i : Instr} (ht : b.TeamIs k t) (hr : t.run = some r)
    (hw : r.words[r.idx]? = some w) (hst : t.stalled r w = false) (h13 : t.status ≠ .waiting 13) (hd : decode w = .ok i) :
    teamMove b pt k = ({ b with cur := k }, some i) := by
  unfold State.TeamIs at ht
  simp only [teamMove, ht, hr, hw, hst, hd, Bool.false_eq_true, if_false]

/-- A partition that is not stopped, in which no back-off and no starvation timer has run out, moves its team in issue. -/
theorem partitionMove_issuing {b : State} {pt k : Nat} (hs : b.stopped pt = false)
    (hb : ∀ (x : Nat × Team), List.Mem x (b.teamsOf pt) → b.backoffOver x.1 x.2 = false)
    (hv : ∀ (x : Nat × Team), List.Mem x (b.teamsOf pt) → (b.starved x.2).isSome = false) (hi : (b.part pt).issuing = some k) :
    partitionMove b pt = teamMove b pt k := by
  have hb' : List.find? (fun x : Nat × Team => b.backoffOver x.1 x.2) (b.teamsOf pt) = none :=
    List.find?_eq_none.mpr fun x hx => by simp [hb x hx]
  have hv' : List.find? (fun x : Nat × Team => (b.starved x.2).isSome) (b.teamsOf pt) = none :=
    List.find?_eq_none.mpr fun x hx => by simp [hv x hx]
  unfold partitionMove
  rw [hs]
  simp only [Bool.false_eq_true, if_false, hb', hv', hi]

/-- A Bellows context that is neither halted, faulted nor held, with its program counter in its private memory, comes to the word
there; TSET's operation stands in a register. -/
theorem ctxMove_word {b : State} {x : Nat} {c : Ctx} {i : Instr} (hc : b.CtxIs x c) (hh : c.halted = false) (hf : c.fault = 0)
    (hst : c.stoker ≠ 1) (hp : c.pc.toNat < 0x4000) (hd : decodeBellows c.word = some i) :
    ctxMove b x = ({ b with curCtx := x }, some (match i with
      | .tsetClose d a => if natBits (c.get a).toNat 8 2 = 1 then .tsetTag d a else .tsetClose d a
      | i => i)) := by
  have hgo : ¬ (c.halted || c.fault != 0 || c.stoker == 1) = true := by simp [hh, hf, hst]
  unfold State.CtxIs at hc
  simp only [ctxMove, hc, if_neg hgo, if_neg (Nat.not_le.mpr hp), hd]
  cases i <;> rfl

/-- Settles O57: the agent at the head of the agenda moves (`step_of_move`), and each agent comes to its word (`teamMove_word`,
`ctxMove_word`) or is an event. -/
theorem stepRunsDecoded : Obligations.StepRunsDecoded := by
  unfold Obligations.StepRunsDecoded
  refine ⟨?_, ?_, ?_, ?_⟩
  · intro s pt k rest t r w i b ha hdown hs hb hv hi ht hr hw hst h13 hd
    refine step_of_move ha ?_
    rw [actorMove, if_neg (by simp [hdown, b]), partitionMove_issuing hs hb hv hi, teamMove_word ht hr hw hst h13 hd]
  · intro s x rest c i b ha hdown hc hh hf hst hp hd hne
    refine step_of_move ha ?_
    rw [actorMove, if_neg (by simp [hdown, b]), ctxMove_word hc hh hf hst hp hd]
    split
    · exact absurd rfl (hne _ _)
    · rfl
  · intro s x rest c d a b ha hdown hc hh hf hst hp hd
    refine step_of_move ha ?_
    rw [actorMove, if_neg (by simp [hdown, b]), ctxMove_word hc hh hf hst hp hd]
  · intro s rest e ha
    exact step_of_move ha rfl

end Sys2Proof.Machine
end

section
/-! SUPPORT. What cycles leave alone, and the end of an attempt: the end of a run's body where every lane completes (O29). -/

namespace Sys2Proof.Machine

/-! ### What cycles leave alone: samples and counters (R75, R374, R376) -/

theorem part_setPart (s : State) (pt q : Nat) (p : Part) : (s.setPart pt p).part q = if q = pt then p else s.part q :=
  SMap.getD_setD _ _ _ _ _

/-- A record that is appended to a buffer keeps what its reads and writes keep. -/
theorem logAppend_keeps {P : State → Prop} {s : State} {src size len : Nat} {mk : Nat → List Byte} {tail : List Byte}
    {rd : State → Nat → Option Nat} {wr : State → Nat → List Byte → Option State} {cover : State → Nat → Option State}
    {lost : State → State} (hseq : ∀ t, P t → P (t.takeSeq src).2) (hw : ∀ t o b t', wr t o b = some t' → P t → P t')
    (hc : ∀ t n t', cover t n = some t' → P t → P t') (hl : ∀ t, P t → P (lost t)) (h : P s) :
    P (logAppend s src size len mk tail rd wr cover lost) := by
  have hwD (t : State) (o : Nat) (b : List Byte) (ht : P t) : P ((wr t o b).getD t) := by
    cases hx : wr t o b with
    | none => exact ht
    | some t' => exact hw t o b t' hx ht
  have hdrop (t : State) (ht : P t) : P (match rd t 8 with | some n => (wr t 8 (natLE 8 (n + 1))).getD t | none => t) := by
    split
    · exact hwD _ _ _ ht
    · exact ht
  unfold logAppend
  dsimp only
  split
  · exact h
  split
  · split
    · exact h
    · exact hl _ (hseq s h)
  · next n _ =>
    split
    · exact hdrop s h
    split
    · exact hl _ (hdrop _ (hseq s h))
    · next t' ht =>
      have h1 : P t' := hw _ _ _ _ ht (hseq s h)
      have h2 : P (if n = 0 then (wr t' 16 tail).getD t' else t') := by
        split
        · exact hwD _ _ _ h1
        · exact h1
      split
      · next t'' hcov => exact hc _ _ _ hcov h2
      · exact hl _ h2

/-- Teams, workgroups and partitions are the same. -/
def State.SameUnits (s s' : State) : Prop := s'.teams = s.teams ∧ s'.wgs = s.wgs ∧ s'.parts = s.parts

theorem MemorySide.sameUnits {a b c : State} (h : MemorySide b c) (h' : a.SameUnits b) : a.SameUnits c := by
  obtain ⟨ht, hw, hp⟩ := h'
  rw [State.SameUnits, h.1]
  exact ⟨ht, hw, hp⟩

theorem samplePut_sameUnits (s : State) (c pt : Nat) (mk : Nat → List Byte) : s.SameUnits (s.samplePut c pt mk) := by
  unfold State.samplePut
  refine logAppend_keeps (P := s.SameUnits) (fun _ h => h) (fun _ _ _ _ he h => (side_writeGpa _ _ _ _ _ _ _ he).sameUnits h)
    (fun t n t' he h => ?_) (fun _ h => (side_report _ _ _).sameUnits h) ⟨rfl, rfl, rfl⟩
  unfold State.coverBuf at he
  dsimp only at he
  split at he
  · split at he
    · cases he
      exact h
    · exact (side_writeGpa _ _ _ _ _ _ _ he).sameUnits h
  · cases he

/-- Teams and workgroups are the same, and partitions differ at most in what is noted of their samples. -/
def State.SampledOnly (s s' : State) : Prop :=
  s'.teams = s.teams ∧ s'.wgs = s.wgs ∧ ∀ q, ∃ k n, s'.part q = { s.part q with sampled := k, sampAt := n }

theorem sampledOnly_setPart {s t : State} (h : s.SampledOnly t) (pt k n : Nat) :
    s.SampledOnly (t.setPart pt { t.part pt with sampled := k, sampAt := n }) := by
  obtain ⟨ht, hw, hp⟩ := h
  refine ⟨ht, hw, fun q => ?_⟩
  rw [part_setPart]
  split
  · next hq =>
    subst hq
    obtain ⟨k', n', he⟩ := hp q
    exact ⟨k, n, by rw [he]⟩
  · exact hp q

theorem sampledOnly_samplePut {s t : State} (h : s.SampledOnly t) (c pt : Nat) (mk : Nat → List Byte) :
    s.SampledOnly (t.samplePut c pt mk) := by
  obtain ⟨ht, hw, hp⟩ := h
  obtain ⟨ht', hw', hp'⟩ := samplePut_sameUnits t c pt mk
  refine ⟨ht'.trans ht, hw'.trans hw, fun q => ?_⟩
  rw [State.part, hp']
  exact hp q

/-- What both branches keep, a choice between them keeps. -/
theorem ite_keeps {α : Type} {P : α → Prop} {c : Bool} {a b : α} (ha : P a) (hb : P b) : P (if c = true then a else b) := by
  split
  · exact ha
  · exact hb

theorem sampledOnly_takeSample {s t : State} (h : s.SampledOnly t) (pt : Nat) (mark : Nat → Team → Bool) :
    s.SampledOnly (t.takeSample pt mark) := by
  unfold State.takeSample
  dsimp only
  split
  · exact h
  · next k _ _ =>
    have hs := sampledOnly_setPart h pt (k % 16) (t.part pt).sampAt
    refine ite_keeps hs ?_
    exact sampledOnly_samplePut hs _ _ _

/-- The state once `n` cycles have passed on a partition, before the samples that fall due in them. -/
def State.ticked (s : State) (pt n : Nat) : State :=
  { s.setPart pt { s.part pt with pcyc := ((s.part pt).pcyc + n) % 2 ^ 64 } with
    teams := s.teams.map fun x =>
      if x.1 / 16 = pt then
        (x.1, { x.2 with stv := match x.2.status with
          | .waiting w => if w = 16 || w = 17 then 0 else x.2.stv + n
          | .ready => 0
          | _ => x.2.stv })
      else x }

theorem passCycles_sampled (s : State) (pt n : Nat) (mark : Nat → Team → Bool) :
    (s.ticked pt n).SampledOnly (s.passCycles pt n mark) := by
  have hself : (s.ticked pt n).SampledOnly (s.ticked pt n) := ⟨rfl, rfl, fun q => ⟨_, _, rfl⟩⟩
  unfold State.passCycles
  refine ite_keeps (P := (s.ticked pt n).SampledOnly) ?_ hself
  refine foldl_keeps (s.ticked pt n).SampledOnly _ (fun t i h => ?_) _ (s.ticked pt n) hself
  exact sampledOnly_takeSample (sampledOnly_setPart h pt (t.part pt).sampled _) pt mark

/-- Cycles of a partition leave the workgroups alone, and of the partition all but its cycle count and what is noted of samples. -/
theorem cycles_keeps (s : State) (pt n : Nat) : (s.cycles pt n).wgs = s.wgs ∧
    ∃ k m, (s.cycles pt n).part pt = { s.part pt with pcyc := ((s.part pt).pcyc + n) % 2 ^ 64, sampled := k, sampAt := m } := by
  obtain ⟨-, hw, hp⟩ := passCycles_sampled (s.settle pt) pt n (s.settle pt).nextMark
  obtain ⟨k, m, hq⟩ := hp pt
  refine ⟨hw, k, m, hq.trans ?_⟩
  have hpart : ((s.settle pt).ticked pt n).part pt = { s.part pt with pcyc := ((s.part pt).pcyc + n) % 2 ^ 64 } :=
    (part_setPart (s.settle pt) pt pt _).trans (if_pos rfl)
  rw [hpart]

theorem CountsOnly.wgs {pt : Nat} {s s' : State} (h : CountsOnly pt s s') : s'.wgs = s.wgs := by rw [h.1]
theorem CountsOnly.parts {pt : Nat} {s s' : State} (h : CountsOnly pt s s') : s'.parts = s.parts := by rw [h.1]

/-- The cycle of a partition in which no lane-set pass issues is counted, where counting is on (R374). -/
theorem CountsOnly.idle (s : State) (pt : Nat) :
    CountsOnly pt s (if natBit (s.reg (oLcrctl pt)) 0 then s else s.count (oLcridle pt) 32) :=
  ite_keeps (.rfl' pt s) (.count s _ _ (counterReg_idle pt))

@[simp] theorem uniIssue_wgs (s : State) (k : Nat) (t : Team) : (s.uniIssue k t).wgs = s.wgs := by
  have hrun := CountsOnly.chargeRun (pt := partOfTeam k) (s.cycles (partOfTeam k) 1) (lrScls (s.wgOf t.w).lr) 1 (lrScls_lt _)
  exact ((hrun.trans (.idle _ _)).wgs).trans (cycles_keeps s (partOfTeam k) 1).1

/-! ### Stores and per-lane terminals at the end of an attempt (R38, R79, R80) -/

/-- Where every lane completes, each of a lane's stores is performed, in program order. -/
theorem splitLane_complete {s : State} {r : Run} (h : r.left = 0) (sts a : List Store) : s.splitLane r sts (a, []) = (a ++ sts, []) := by
  have hdone (st : Store) : r.groupDone st = true := by
    unfold Run.groupDone
    rw [h]
    split <;> simp
  induction sts generalizing a with
  | nil => simp [State.splitLane]
  | cons st sts ih =>
    rw [State.splitLane, if_pos (by simp [hdone]), ih]
    simp

/-- The stores of a run that completes, lane by lane: those kept from earlier attempts, then those of the lanes that act. -/
def Run.completing (r : Run) (n : Nat) : List Store :=
  (List.range n).flatMap fun l => (r.sdb ++ r.stores.filter fun st => r.acting.getLsbD st.lane).filter fun st => st.lane == l

theorem split_complete {s : State} {r : Run} (h : r.left = 0) (n : Nat) : s.split r n = (r.completing n, []) := by
  unfold State.split Run.completing
  dsimp only
  generalize List.range n = ls
  have hfold (a : List Store) : ls.foldl (fun (acc : List Store × List Store) l =>
      (acc.1 ++ (s.splitLane r ((r.sdb ++ r.stores.filter fun st => r.acting.has st.lane).filter fun st => st.lane == l) ([], [])).1,
        acc.2 ++ (s.splitLane r ((r.sdb ++ r.stores.filter fun st => r.acting.has st.lane).filter fun st => st.lane == l) ([], [])).2)) (a, []) =
      (a ++ ls.flatMap fun l => (r.sdb ++ r.stores.filter fun st => r.acting.getLsbD st.lane).filter fun st => st.lane == l, []) := by
    induction ls generalizing a with
    | nil => simp
    | cons l ls ih =>
      rw [List.foldl_cons, splitLane_complete h]
      simp only [List.nil_append, List.append_nil, ih, List.flatMap_cons, List.append_assoc]
      rfl
  exact hfold []

theorem inStack_congr {s s' : State} (h : s'.wgs = s.wgs) (p : Place) : s'.inStack p = s.inStack p := by
  unfold State.inStack State.wgOf
  rw [h]

/-- Stores that lie in no lane stack enter the team's buffer, in order. -/
theorem performAll_buffered (sts : List Store) (s : State) (k : Nat) (t : Team) (h : s.TeamIs k t)
    (hst : ∀ st ∈ sts, s.inStack st.at' = false) : (s.performAll k sts).TeamIs k
      { t with sbuf := t.sbuf ++ sts.map fun st => { st with group := none, ix := 0 } } := by
  induction sts generalizing s t with
  | nil => simpa [State.performAll] using h
  | cons st sts ih =>
    have hone : s.perform k st (s.inStack st.at') = s.modTeam k fun t => { t with sbuf := t.sbuf ++ [{ st with group := none, ix := 0 }] } := by
      rw [hst st (by simp)]
      rfl
    have hnext := ih _ _ (modTeam_team s k t (fun t => { t with sbuf := t.sbuf ++ [{ st with group := none, ix := 0 }] }) h)
      fun st' hm => (inStack_congr rfl st'.at').trans (hst st' (List.mem_cons_of_mem _ hm))
    rw [State.performAll, List.foldl_cons, hone]
    simpa [State.performAll] using hnext

/-- Two runs that differ only in which stores are recorded and which terminals are left. -/
def Run.SameBody (r r' : Run) : Prop := r' = { r with stores := r'.stores, sdb := r'.sdb, late := r'.late, termLeft := r'.termLeft }

theorem Run.SameBody.trans {a b c : Run} (h : a.SameBody b) (h' : b.SameBody c) : a.SameBody c := by
  unfold Run.SameBody at h h' ⊢
  rw [h'] 
  rw [h]

theorem Run.SameBody.left {r r' : Run} (h : r.SameBody r') : r'.left = r.left := by
  unfold Run.SameBody at h
  rw [h]
  rfl

/-- At the end of an attempt the team differs only in its buffer, in what peers have not acknowledged, and in the stores of its run. -/
theorem storesEnd_team (s : State) (k : Nat) (t : Team) (r : Run) : ∃ buf out r', r.SameBody r' ∧
    (s.storesEnd k t r).TeamIs k { t with sbuf := buf, peerOut := out, run := some r' } := by
  unfold State.storesEnd
  split
  · exact ⟨t.sbuf, t.peerOut, r, rfl, setTeam_team s k _⟩
  · dsimp only
    obtain ⟨buf, out, hteam⟩ := performAll_team (s.split r t.nlanes).1 _ k _ (setTeam_team s k _)
    refine ⟨buf, out, _, ?_, hteam⟩
    rfl

/-- Where every lane completes, and no store lies in a lane stack, the stores enter the team's buffer. -/
theorem storesEnd_complete {s : State} {k : Nat} {t : Team} {r : Run} (h : r.left = 0) (hl : r.termLeft = none)
    (hst : ∀ st ∈ r.completing t.nlanes, s.inStack st.at' = false) : ∃ r', r.SameBody r' ∧ (s.storesEnd k t r).TeamIs k
      { t with sbuf := t.sbuf ++ (r.completing t.nlanes).map fun st => { st with group := none, ix := 0 }, run := some r' } := by
  unfold State.storesEnd
  rw [hl]
  dsimp only
  rw [split_complete h]
  refine ⟨_, ?_, performAll_buffered _ _ k _ (setTeam_team s k _) hst⟩
  rfl

/-- Per-lane terminals that do nothing: none waits, the workgroups stay, and of the team only the list of those left changes. -/
theorem termsEnd_noTerm (s : State) (k : Nat) (t t1 : Team) (r1 : Run) (left : Mask) (ht : s.TeamIs k t1) (hr : t1.run = some r1) :
    ∃ u r2, s.termsEnd k t left noTerm = (u, false) ∧ u.wgs = s.wgs ∧ r1.SameBody r2 ∧ u.TeamIs k { t1 with run := some r2 } := by
  have hkeep : (fun x : State × Bool => x.2 = false ∧ x.1.wgs = s.wgs ∧ ∃ r2, r1.SameBody r2 ∧ x.1.TeamIs k { t1 with run := some r2 })
      (s.termsEnd k t left noTerm) := by
    refine foldl_keeps (fun x : State × Bool => x.2 = false ∧ x.1.wgs = s.wgs ∧
      ∃ r2, r1.SameBody r2 ∧ x.1.TeamIs k { t1 with run := some r2 }) _ (fun x l hx => ?_) _ _ ⟨rfl, rfl, r1, rfl, ?_⟩
    · obtain ⟨hw, hwgs, r2, hb, hteam⟩ := hx
      rw [if_neg (by simp [hw])]
      refine ⟨rfl, hwgs, _, hb.trans ?_, modTeam_team x.1 k _ _ hteam⟩
      rfl
    · rw [← hr]
      exact ht
  obtain ⟨hw, hwgs, r2, hb, hteam⟩ := hkeep
  exact ⟨_, r2, Prod.ext rfl hw, hwgs, hb, hteam⟩

/-! ### The end of an attempt without a terminal (R79, R80) -/

/-- The run with the flags of the lanes that complete in the attempt, the terminals performed. -/
def Run.gathered (r : Run) (n : Nat) : Run :=
  { r with flags := (r.acting.lanes n).foldl (fun f l => f ||| r.laneFlags.getD l 0) r.flags, laneFlags := [], termLeft := none }

/-- The run as its next attempt finds it: it restarts in the lanes that have not completed. -/
def Run.restarts (r : Run) : Run :=
  { r with todo := r.left, aborted := 0, idx := 0, first := false, mark := none
           pendPoison := r.pendPoison.map fun (x : Nat × Mask) => (x.1, x.2 &&& ~~~r.left) }

section

variable {s u : State} {k : Nat} {t t1 : Team} {r r1 : Run} (hbody : r.bodyDone = false) (hu : s.storesEnd k t r = u) (ht : u.TeamIs k t1)
  (hr : t1.run = some r1) (hb : r.SameBody r1)
include hbody hu ht hr hb

/-- An attempt in which every lane completes completes the run; one that leaves lanes behind hands them to the supervisor handler. -/
theorem bodyEnd_noTerm : ∃ (v : State) (r2 : Run), v.wgs = u.wgs ∧ r.SameBody r2 ∧ s.bodyEnd k t r false noTerm noAtt =
    if r.left = 0 then ((v.setTeam k { t1 with run := some (r2.gathered t1.nlanes) }).completeRun k false).doneEffects k (r2.done.length + 1)
    else
      let x := v.scramble { t1 with run := some r2 } (r2.gathered t1.nlanes) r.left.has
      ((x.1.vectorHandler k x.2 (r2.gathered t1.nlanes).restarts).attemptOver k, false) := by
  have hat : u.teamAt k t = t1 := by
    unfold State.teamAt
    rw [ht]
    rfl
  obtain ⟨v, r2, hterms, hwgs, hb2, hteam⟩ := termsEnd_noTerm u k t t1 r1 (r1.termLeft.getD 0) ht hr
  have hat2 : v.teamAt k t = { t1 with run := some r2 } := by
    unfold State.teamAt
    rw [hteam]
    rfl
  have hleft : (r2.gathered t1.nlanes).left = r.left := (hb.trans hb2).left
  refine ⟨v, r2, hwgs, hb.trans hb2, ?_⟩
  unfold State.bodyEnd
  simp only [hbody, hu, hat, hr, hterms, hat2, noAtt, Bool.false_eq_true, if_false, Option.getD_some, ite_self, Bool.false_and]
  rw [← hleft]
  by_cases h : (r2.gathered t1.nlanes).left = 0
  · rw [if_pos h]
    exact if_pos (beq_iff_eq.mpr h)
  · rw [if_neg h]
    exact if_neg (mt beq_iff_eq.mp h)

end

/-! ### A completed run (R79, R81, R83, R125) -/

/-- The team as its run completes, before control registers and flags take their values. -/
def Team.completed (t : Team) (r : Run) : Team :=
  { t with active := r.entry, kmask := bits r.trailer 5 8, yielded := r.trailer.getLsbD 0, marked := r.trailer.getLsbD 1,
           run := some { r with bodyDone := true, todo := r.entry } }

/-- A run that completes writes the control registers that its UWRs name, and its flags join those of the team. -/
theorem completeRun_team {s : State} {k : Nat} {t : Team} {r : Run} (ht : s.TeamIs k t) (hr : t.run = some r) :
    ∃ u, ControlsOnly (t.completed r) u ∧ (r.uwrs = [] → u.flags = t.flags) ∧ (s.completeRun k false).TeamIs k
      { u with run := some { r with bodyDone := true, todo := r.entry, uwrs := [] }, flags := u.flags ||| r.flags } := by
  obtain ⟨u, hu, hflags, huwr⟩ := applyUwr_eq (t := t.completed r) rfl
  refine ⟨u, hu, fun h => by rw [hflags h]; rfl, ?_⟩
  unfold State.TeamIs at ht
  unfold State.completeRun
  simp only [ht, hr, Bool.false_eq_true, if_false]
  unfold Team.completed at huwr
  rw [huwr]
  exact flagsEnd_team _ k _ _ _ _ (setTeam_team s k _)

/-- A table cut to the keys that satisfy `p` holds nothing at any other. -/
theorem SMap.find_filter_key_none {α : Type} (m : SMap α) (p : Nat → Bool) (k : Nat) (h : p k = false) :
    SMap.find? (m.filter fun c => p c.1) k = none := by
  induction m with
  | nil => rfl
  | cons c m ih =>
    obtain ⟨j, v⟩ := c
    by_cases hp : p j = true
    · have hk : k ≠ j := by
        rintro rfl
        simp [h] at hp
      simp [hp, hk, SMap.find?, ih]
    · simp [hp, ih]

/-- Without a trailer that names a pending register, and with no more than eight pending, a team leaves of its run only the temporaries. -/
theorem leaveRun_of_none_pending {t : Team} {r : Run} (hr : t.run = some r) (h1 : bits r.trailer 19 6 = 63) (h2 : bits r.trailer 13 6 = 63)
    (hp : t.pend.length ≤ 8) : t.leaveRun = { t with v := t.v.filter fun c => decide (c.1 < 56) } := by
  have hnone : t.leavePending t.v r 63 = t := if_pos (by simp)
  have hcap : t.capPending 2 = t := if_pos hp
  have h63 : (63 : BitVec 6).toNat = 63 := rfl
  simp only [Team.leaveRun, hr, h1, h2, h63, hnone, hcap]

/-- Such a team keeps what it has pending and its registers below v56, and its temporaries read 0. -/
theorem ended_of_none_pending {t : Team} {r : Run} (hr : t.run = some r) (h1 : bits r.trailer 19 6 = 63) (h2 : bits r.trailer 13 6 = 63)
    (hp : t.pend.length ≤ 8) (pc : DWord) (now : Nat) : (t.ended pc now).pend = t.pend ∧
      ∀ n l, (t.ended pc now).get n l = if n < 56 then t.get n l else 0 := by
  rw [Team.ended, leaveRun_of_none_pending hr h1 h2 hp]
  refine ⟨rfl, fun n l => ?_⟩
  unfold Team.get
  split
  · next hn => rw [SMap.find_filter_key t.v (fun n => decide (n < 56)) n (by simpa using hn)]
  · next hn =>
    rw [SMap.find_filter_key_none t.v (fun n => decide (n < 56)) n (by simpa using hn)]
    rfl

/-- Settles O29: the stores enter the buffer (`storesEnd_complete`), the body ends (`bodyEnd_noTerm`), and the run completes
(`completeRun_team`). -/
theorem runBodyEnds : Obligations.RunBodyEnds := by
  unfold Obligations.RunBodyEnds
  intro s k t r h hbody hl hd htl sts hst
  obtain ⟨r1, hb1, ht1⟩ := storesEnd_complete (s := s.uniIssue k t) (k := k) (t := t) hl htl
    fun st hm => (inStack_congr (uniIssue_wgs s k t) _).trans (hst st hm)
  obtain ⟨v, r2, -, hb2, hend⟩ := bodyEnd_noTerm hbody rfl ht1 rfl hb1
  rw [if_pos hl] at hend
  obtain ⟨u, hu, hflags, hteam⟩ := completeRun_team (r := r2.gathered t.nlanes) (setTeam_team v k
    { t with sbuf := t.sbuf ++ sts.map (fun st => { st with group := none, ix := 0 }), run := some (r2.gathered t.nlanes) }) rfl
  have hd2 : r2.done = [] := by
    rw [hb2]
    exact hd
  have hdone := doneEffects_none (P := fun _ => True) ⟨_, _, hteam, rfl, hd2, fun _ _ => trivial⟩ r2.done.length
  refine ⟨_, _, _, ⟨?_, hteam, rfl⟩, ?_⟩
  · rw [hbody]
    exact hend.trans hdone
  unfold ControlsOnly at hu
  unfold Run.SameBody at hb2
  have hgot (n l : Nat) : u.get n l = t.get n l := by
    rw [hu]
    rfl
  have hsame : u.pc = t.pc ∧ u.mstack = t.mstack ∧ u.rstack = t.rstack ∧ u.pend = t.pend ∧ u.p = t.p ∧ u.alloc = t.alloc := by
    rw [hu]
    exact ⟨rfl, rfl, rfl, rfl, rfl, rfl⟩
  have hnext : u.active = r.entry ∧ u.kmask = bits r.trailer 5 8 ∧ u.yielded = r.trailer.getLsbD 0 ∧ u.marked = r.trailer.getLsbD 1 := by
    rw [hu, hb2]
    exact ⟨rfl, rfl, rfl, rfl⟩
  have hrun : (r2.gathered t.nlanes).trailer = r.trailer ∧ (r2.gathered t.nlanes).entry = r.entry ∧
      (r2.gathered t.nlanes).words = r.words ∧ (r2.gathered t.nlanes).pc = r.pc ∧ (r2.gathered t.nlanes).idx = r.idx := by
    rw [hb2]
    exact ⟨rfl, rfl, rfl, rfl, rfl⟩
  obtain ⟨hpc, hmstack, hrstack, hpend, hp, halloc⟩ := hsame
  obtain ⟨hactive, hkmask, hyielded, hmarked⟩ := hnext
  obtain ⟨htrailer, hsamerun⟩ := hrun
  refine ⟨hpc, hactive, hmstack, hrstack, hpend, hp, halloc, hkmask, hyielded, hmarked, by rw [hu]; rfl, hgot, fun h1 h2 h8 pc now => ?_,
    fun h => ?_, rfl, hsamerun⟩
  · obtain ⟨hpend', hget⟩ := ended_of_none_pending
      (t := { u with run := some { r2.gathered t.nlanes with bodyDone := true, todo := (r2.gathered t.nlanes).entry, uwrs := [] },
                     flags := u.flags ||| (r2.gathered t.nlanes).flags }) rfl ((congrArg (bits · 19 6) htrailer).trans h1)
      ((congrArg (bits · 13 6) htrailer).trans h2) (hpend ▸ h8) pc now
    refine ⟨hpend'.trans hpend, fun n l => (hget n l).trans ?_⟩
    rw [← hgot]
    rfl
  · rw [hflags (by rw [hb2]; exact h), hb2]
    rfl

end Sys2Proof.Machine
end

section
/-! SUPPORT. Faulted lanes enter the supervisor handler, or wait for the Stoker (O38). -/

namespace Sys2Proof.Machine

/-! ### Workgroups while stores are performed (R45) -/

/-- Two workgroups that differ only in what their regions hold. -/
def Wg.SameBut (g g' : Wg) : Prop := g' = { g with scr := g'.scr, acc := g'.acc, pscr := g'.pscr, pacc := g'.pacc }

theorem Wg.SameBut.refl (g : Wg) : g.SameBut g := rfl

theorem Wg.SameBut.trans {a b c : Wg} (h : a.SameBut b) (h' : b.SameBut c) : a.SameBut c := by
  unfold Wg.SameBut at h h' ⊢
  rw [h', h]

/-- An update of one workgroup's regions leaves of every workgroup the rest. -/
theorem wgOf_modify_regions (s : State) (w : Nat) (f : Wg → Wg) (hf : ∀ g : Wg, g.SameBut (f g)) (w' : Nat) :
    (s.wgOf w').SameBut ((s.wgs.modify w f).getD w' Wg.empty) := by
  by_cases h : (s.wgs.find? w).isSome
  · rw [SMap.getD_modify _ _ _ _ _ h]
    split
    · next hw =>
      subst hw
      exact hf _
    · exact .refl _
  · have hnone : s.wgs.find? w = none := by simpa using h
    rw [SMap.modify, hnone]
    exact .refl _

theorem putPlace_wgOf (s : State) (by' : Writer) (ten gpa : Nat) (p : Place) (bs : List Byte) (kt w' : Nat) :
    (s.wgOf w').SameBut ((s.putPlace by' ten gpa p bs kt).wgOf w') := by
  unfold State.putPlace
  cases p with
  | sys a =>
    rw [State.wgOf, State.wgOf, side_wgs (side_writeSys _ _ _ _ _ _ _)]
    exact .refl _
  | scr w o =>
    refine wgOf_modify_regions s w _ (fun _ => ?_) w'
    rfl
  | acc w o =>
    refine wgOf_modify_regions s w _ (fun _ => ?_) w'
    rfl
  | peer n l o =>
    dsimp only
    unfold State.peerSent
    split <;> exact .refl _

theorem perform_wgOf (s : State) (k : Nat) (st : Store) (stack : Bool) (w : Nat) : (s.wgOf w).SameBut ((s.perform k st stack).wgOf w) := by
  unfold State.perform
  split
  · unfold State.commit
    dsimp only
    split <;> exact putPlace_wgOf _ _ _ _ _ _ _ w
  · exact .refl _

theorem performAll_wgOf (sts : List Store) (s : State) (k w : Nat) : (s.wgOf w).SameBut ((s.performAll k sts).wgOf w) :=
  foldl_keeps (fun u : State => (s.wgOf w).SameBut (u.wgOf w)) _ (fun _ _ h => h.trans (perform_wgOf _ _ _ _ w)) sts s (.refl _)

theorem storesEnd_wgOf (s : State) (k : Nat) (t : Team) (r : Run) (w : Nat) : (s.wgOf w).SameBut ((s.storesEnd k t r).wgOf w) := by
  unfold State.storesEnd
  split
  · exact .refl _
  · exact performAll_wgOf _ _ k w

/-! ### What an abort leaves of a team (R80, R96) -/

/-- Registers that are written only in the lanes of `p`, and only those of `ns`. -/
theorem foldl_put_keeps (p : Nat → Bool) (f : Nat → Nat → Word) (ns : List Nat) (t : Team) :
    ∃ v, ns.foldl (fun t n => t.put n p (f n)) t = { t with v := v } ∧
      ∀ l < t.nlanes, ∀ n, (p l = false ∨ n ∉ ns) → ({ t with v := v } : Team).get n l = t.get n l := by
  induction ns generalizing t with
  | nil => exact ⟨t.v, rfl, fun _ _ _ _ => rfl⟩
  | cons m ns ih =>
    obtain ⟨v, he, hget⟩ := ih (t.put m p (f m))
    refine ⟨v, he, fun l hl n hn => ?_⟩
    refine (hget l hl n (hn.imp id fun h hm => h (List.mem_cons_of_mem _ hm))).trans ?_
    rw [Team.get_put _ _ _ _ _ _ hl]
    split
    · next hnm =>
      rw [if_neg (by simpa [hnm] using hn), hnm]
    · rfl

/-- Lane predicates likewise. -/
theorem foldl_putPred_keeps (p : Nat → Bool) (f : Nat → Nat → Bool) (ns : List Nat) (t : Team) :
    ∃ ps, ns.foldl (fun t n => t.putPred n p (f n)) t = { t with p := ps } ∧
      ∀ l < t.nlanes, l < 1024 → ∀ n, (p l = false ∨ n ∉ ns) → ({ t with p := ps } : Team).pred n l = t.pred n l := by
  induction ns generalizing t with
  | nil => exact ⟨t.p, rfl, fun _ _ _ _ _ => rfl⟩
  | cons m ns ih =>
    obtain ⟨v, he, hget⟩ := ih (t.putPred m p (f m))
    refine ⟨v, he, fun l hl hl' n hn => ?_⟩
    refine (hget l hl hl' n (hn.imp id fun h hm => h (List.mem_cons_of_mem _ hm))).trans ?_
    rw [Team.pred_putPred _ _ _ _ _ _ hl hl']
    split
    · next hnm =>
      rw [if_neg (by simpa [hnm] using hn), hnm]
    · rfl

/-- An abort changes, of a team, only registers and lane predicates that its run writes, and only in the lanes that abort. -/
theorem scramble_keeps (s : State) (t : Team) (r : Run) (p : Nat → Bool) : ∃ n v ps,
    s.scramble t r p = ({ s with free := n }, { t with v := v, p := ps }) ∧
    (∀ l < t.nlanes, ∀ n, (p l = false ∨ n ∉ r.writes) → ({ t with v := v, p := ps } : Team).get n l = t.get n l) ∧
    (∀ l < t.nlanes, l < 1024 → ∀ n, (p l = false ∨ n ∉ r.writesP) → ({ t with v := v, p := ps } : Team).pred n l = t.pred n l) := by
  obtain ⟨v, hv, hget⟩ := foldl_put_keeps p (fun n l => Config.freeWord (s.free + n * 1024 + l)) r.writes t
  obtain ⟨ps, hp, hpred⟩ := foldl_putPred_keeps p (fun n l => if r.combines n then (r.savedP.getD n 0).getLsbD l
    else Config.freeBit (s.free + (64 + n) * 1024 + l)) r.writesP { t with v := v }
  refine ⟨s.free + 72 * 1024, v, ps, ?_, fun l hl n h => hget l hl n h, fun l hl hl' n h => hpred l hl hl' n h⟩
  have hstep : (fun (t : Team) n => if r.combines n then t.putPred n p fun l => (r.savedP.getD n 0).getLsbD l
      else t.putPred n p fun l => Config.freeBit (s.free + (64 + n) * 1024 + l)) = fun t n => t.putPred n p fun l =>
      if r.combines n then (r.savedP.getD n 0).getLsbD l else Config.freeBit (s.free + (64 + n) * 1024 + l) := by
    funext u n
    by_cases h : r.combines n = true <;> simp [h]
  unfold State.scramble
  dsimp only
  rw [hv, hstep, hp]

/-! ### The supervisor handler and the Stoker (R80, R204, R206) -/

@[simp] theorem submit_teams (s : State) (ten : Nat) (f : SFault) : (s.submit ten f).teams = s.teams := rfl

/-- A team whose faults go to the Stoker waits in its run. -/
theorem escalate_team (s : State) (k : Nat) (t : Team) (r : Run) :
    (s.escalate k t r).TeamIs k { t with status := .waiting 14, run := some r } := by
  unfold State.escalate
  dsimp only
  refine foldl_keeps (fun u : State => u.TeamIs k { t with status := .waiting 14, run := some r }) _ (fun u f h => ?_) _ _ (setTeam_team s k _)
  exact h

/-- What the supervisor handler saves of a team whose run restarts as `r`. -/
def Team.savedFor (t : Team) (r : Run) : Handler :=
  { v48 := t.v.filter fun c => decide (48 ≤ c.1) && decide (c.1 < 56)
    p := t.p, q := t.q, flags := t.flags, depth := t.mstack.length, faulted := r.todo, run := r
    temps := t.v.filter fun c => decide (56 ≤ c.1)
    pre := (t.pend.map (·.reg)).filter fun n => decide (48 ≤ n) }

/-- Outside the handler, with one to go to, the faulted lanes enter it. -/
theorem vectorHandler_enters {s : State} {k : Nat} {t : Team} (r : Run) (hh : t.handler = none) (hlr : lrHandler (s.wgOf t.w).lr ≠ 0) :
    (s.vectorHandler k t r).TeamIs k { t with
      handler := some (t.savedFor r), active := r.todo, pc := dwordOf (lrHandler (s.wgOf t.w).lr), run := none, status := .ready, kmask := 0,
      yielded := false, marked := false, readyAt := s.tick } := by
  unfold State.vectorHandler
  rw [if_neg (by simp [hh, hlr])]
  exact setTeam_team s k _

/-- In the handler, or without one, the team waits for the Stoker. -/
theorem vectorHandler_waits {s : State} {k : Nat} {t : Team} (r : Run) (h : t.handler.isSome ∨ lrHandler (s.wgOf t.w).lr = 0) :
    (s.vectorHandler k t r).TeamIs k { t with status := .waiting 14, run := some r } := by
  unfold State.vectorHandler
  rw [if_pos (by simpa using h)]
  exact escalate_team s k t r

/-- The team in issue, with no word of its run left, ends its attempt. -/
theorem runAttemptEnd_eq {s : State} {k : Nat} {t : Team} {r : Run} (ht : s.TeamIs k t) (hr : t.run = some r)
    (hi : (s.part (partOfTeam k)).issuing = some k) (hw : r.words.length ≤ r.idx) : exec (.runAttemptEnd k) s = .next (runEnd s k t r) := by
  change execRunAttemptEnd k s = _
  unfold State.TeamIs at ht
  simp only [execRunAttemptEnd, ht, hr]
  exact if_pos (by simp [hi, hw])

/-- Settles O38: the attempt ends with lanes left behind (`bodyEnd_noTerm`), of which the abort has changed what their run writes
(`scramble_keeps`); they enter the handler (`vectorHandler_enters`) or wait for the Stoker (`vectorHandler_waits`). -/
theorem handlerEntry : Obligations.HandlerEntry := by
  unfold Obligations.HandlerEntry
  intro s k t r ht hr hi hw hbody hl
  obtain ⟨buf, out, r1, hb1, ht1⟩ := storesEnd_team s k t r
  obtain ⟨u, r2, hu, hb2, hend⟩ := bodyEnd_noTerm hbody rfl ht1 rfl hb1
  rw [if_neg hl] at hend
  obtain ⟨n, v, ps, hscr, hget, hpred⟩ := scramble_keeps u { t with sbuf := buf, peerOut := out, run := some r2 }
    (r2.gathered t.nlanes) r.left.has
  dsimp only at hend
  rw [hscr] at hend
  have hlr : lrHandler (({ u with free := n } : State).wgOf t.w).lr = lrHandler (s.wgOf t.w).lr := by
    have hwg : ({ u with free := n } : State).wgOf t.w = (s.storesEnd k t r).wgOf t.w := by
      rw [State.wgOf, State.wgOf, ← hu]
    rw [hwg, storesEnd_wgOf s k t r t.w]
  have hteam (t' : Team) (h : (({ u with free := n } : State).vectorHandler k
      { t with sbuf := buf, peerOut := out, run := some r2, v := v, p := ps } (r2.gathered t.nlanes).restarts).TeamIs k t') :
      (runEnd s k t r).TeamIs k t' := by
    unfold State.TeamIs
    rw [runEnd, hend]
    exact (congrArg (SMap.find? · k) (attemptOver_teams _ k)).trans h
  unfold Run.SameBody at hb2
  refine ⟨fun hh h0 => ⟨_, runAttemptEnd_eq ht hr hi hw, ?_⟩, fun h => ⟨_, runAttemptEnd_eq ht hr hi hw, ?_⟩⟩
  · refine ⟨_, _, hteam _ (vectorHandler_enters _ hh (by rw [hlr]; exact h0)), rfl, ?_, ?_, rfl, rfl, rfl, rfl, rfl, ?_, rfl, rfl, rfl, rfl, ?_⟩
    · rw [hb2]; rfl
    · rw [hlr]; rfl
    · rw [hb2]; rfl
    · refine ⟨fun n h48 h56 => ?_, fun l hl hl' n h => ?_, ?_⟩
      · exact SMap.find_filter_key _ (fun n => decide (48 ≤ n) && decide (n < 56)) n (by simp [h48, h56])
      · exact hpred l hl hl' n (by rw [hb2]; exact h)
      · refine ⟨by rw [hb2]; rfl, by rw [hb2]; rfl, by rw [hb2]; rfl, rfl, rfl, rfl, fun l hl n h => ?_⟩
        exact hget l hl n (by rw [hb2]; exact h)
  · exact ⟨_, _, hteam _ (vectorHandler_waits _ (by rw [hlr]; exact h)), rfl, rfl, rfl, by rw [hb2]; rfl, rfl, rfl⟩

end Sys2Proof.Machine
end

section
/-! SUPPORT. A partition's choice and the fetch of a run (O48). -/

namespace Sys2Proof.Machine

/-! ### Choice (R88) -/

/-- A fold that keeps what it has or takes the list's next member ends at a member, unless there is none. -/
theorem foldl_choice {α : Type} (f : Option α → α → Option α) (hf : ∀ b x, f b x = some x ∨ (b.isSome ∧ f b x = b)) (l : List α)
    (b : Option α) : (∀ x, l.foldl f b = some x → x ∈ l ∨ b = some x) ∧ (l.foldl f b = none → l = [] ∧ b = none) := by
  induction l generalizing b with
  | nil => exact ⟨fun _ h => .inr h, fun h => ⟨rfl, h⟩⟩
  | cons a l ih =>
    obtain ⟨hs, hn⟩ := ih (f b a)
    refine ⟨fun x h => ?_, fun h => ?_⟩
    · rcases hs x h with h | h
      · exact .inl (List.mem_cons_of_mem _ h)
      · rcases hf b a with ha | ⟨-, ha⟩
        · exact .inl (by simp [Option.some.inj (ha.symm.trans h)])
        · exact .inr (ha.symm.trans h)
    · obtain ⟨-, h⟩ := hn h
      rcases hf b a with ha | ⟨hb, ha⟩
      · cases ha.symm.trans h
      · simp [ha.symm.trans h] at hb

/-- The better of the team found so far and the next one. -/
def State.better (s : State) (b : Option (Nat × Team)) (x : Nat × Team) : Option (Nat × Team) :=
  match b with
  | none => some x
  | some y => if s.before x y then some x else b

theorem pickOf_eq (s : State) (ts : List (Nat × Team)) (c : Nat) :
    s.pickOf ts c = ((ts.filter fun x => s.classOf x.2 == c).foldl s.better none).map (·.1) := rfl

theorem better_keeps_or_takes (s : State) (b : Option (Nat × Team)) (x : Nat × Team) :
    s.better b x = some x ∨ (b.isSome ∧ s.better b x = b) := by
  cases b with
  | none => exact .inl rfl
  | some y =>
    unfold State.better
    dsimp only
    split
    · exact .inl rfl
    · exact .inr ⟨rfl, rfl⟩

/-- A team that is picked is one of its class; where none is picked, none of the class is there. -/
theorem pickOf_spec (s : State) (ts : List (Nat × Team)) (c : Nat) : (∀ k, s.pickOf ts c = some k → ∃ t, (k, t) ∈ ts ∧ s.classOf t = c) ∧
    (s.pickOf ts c = none → ∀ x ∈ ts, s.classOf x.2 ≠ c) := by
  obtain ⟨hs, hn⟩ := foldl_choice s.better (better_keeps_or_takes s) (ts.filter fun x => s.classOf x.2 == c) none
  rw [pickOf_eq]
  refine ⟨fun k h => ?_, fun h x hx hc => ?_⟩
  · obtain ⟨x, hx, rfl⟩ := Option.map_eq_some_iff.mp h
    rcases hs x hx with hm | hm
    · obtain ⟨hm, hc⟩ := List.mem_filter.mp hm
      exact ⟨x.2, hm, by simpa using hc⟩
    · cases hm
  · obtain ⟨hl, -⟩ := hn (Option.map_eq_none_iff.mp h)
    exact List.not_mem_nil (hl ▸ List.mem_filter.mpr ⟨hx, by simp [hc]⟩)

/-- A team is chosen for the class that owns the entry, or, where that class has none ready and the partition lends, for another. -/
theorem choose_some {s : State} {pt k : Nat} {lent : Option Nat} (h : s.choose pt = some (k, lent)) :
    ∃ t, (k, t) ∈ s.readyTeams pt ∧ (lent = none → s.classOf t = s.slotClass pt ((s.part pt).pcyc % 64)) ∧
      ∀ o, lent = some o → o = s.slotClass pt ((s.part pt).pcyc % 64) ∧ natBit (s.reg (oSlotCtl pt)) 0 = true ∧
        ∀ x ∈ s.readyTeams pt, s.classOf x.2 ≠ s.slotClass pt ((s.part pt).pcyc % 64) := by
  unfold State.choose at h
  dsimp only at h
  split at h
  · next k' hown =>
    cases h
    obtain ⟨t, ht, hc⟩ := (pickOf_spec _ _ _).1 _ hown
    refine ⟨t, ht, fun _ => hc, fun _ ho => ?_⟩
    cases ho
  · next hown =>
    split at h
    · next hlend =>
      obtain ⟨k', hk, he⟩ := Option.map_eq_some_iff.mp h
      obtain ⟨rfl, rfl⟩ := Prod.mk.inj he
      obtain ⟨j, -, hj⟩ := List.exists_of_findSome?_eq_some hk
      obtain ⟨t, ht, -⟩ := (pickOf_spec _ _ _).1 _ hj
      refine ⟨t, ht, fun ho => ?_, fun o ho => ⟨(Option.some.inj ho).symm, hlend, (pickOf_spec _ _ _).2 hown⟩⟩
      cases ho
    · cases h

/-- A poisoned pending write stops the team at the program counter that is given. -/
theorem poisonStop_team (s : State) (k : Nat) (t : Team) (pc : DWord) (p : Pend) :
    (s.poisonStop k t pc p).TeamIs k { t with pc := pc, status := .stopped, run := none } := by
  unfold State.poisonStop State.TeamIs
  rw [attemptOver_teams]
  exact stopTeam_team s k t pc _

/-- An idle cycle leaves the partition as it was, one cycle later, but for what is noted of samples. -/
theorem idleCycle_part (s : State) (pt : Nat) :
    ∃ m n, (s.idleCycle pt).part pt = { s.part pt with pcyc := ((s.part pt).pcyc + 1) % 2 ^ 64, sampled := m, sampAt := n } := by
  obtain ⟨-, m, n, hp⟩ := cycles_keeps s pt 1
  refine ⟨m, n, ?_⟩
  unfold State.idleCycle
  dsimp only
  rw [← hp, State.part, (CountsOnly.idle _ pt).parts]
  rfl

section

variable {s : State} {pt : Nat} (hi : (s.part pt).issuing = none) (hs : s.stopped pt = false) (hq : (s.part pt).stopReq = [])

include hi hs hq

/-- At a choice point the partition's teams are brought up to date, and it chooses. -/
theorem partitionChoice_none (h : (s.settle pt).choose pt = none) : exec (.partitionChoice pt) s = .next ((s.settle pt).idleCycle pt) := by
  change execPartitionChoice pt s = _
  simp [execPartitionChoice, hi, hs, hq, h]

theorem partitionChoice_poisoned {k : Nat} {lent : Option Nat} {t : Team} {r : Run} {p : Pend}
    (h : (s.settle pt).choose pt = some (k, lent)) (ht : (s.settle pt).TeamIs k t) (hr : t.run = some r) (ha : r.again = true)
    (hp : t.poisonPend r.words = some p) : exec (.partitionChoice pt) s = .next ((s.settle pt).poisonStop k t r.pc p) := by
  change execPartitionChoice pt s = _
  unfold State.TeamIs at ht
  simp [execPartitionChoice, hi, hs, hq, h, ht, hr, ha, hp]

/-- The team that is chosen, no poison being left for its run, is issued. -/
theorem partitionChoice_issues {k : Nat} {lent : Option Nat} (h : (s.settle pt).choose pt = some (k, lent))
    (hp : ¬∃ t r p, (s.settle pt).TeamIs k t ∧ t.run = some r ∧ r.again = true ∧ t.poisonPend r.words = some p) :
    Completes (.partitionChoice pt) s fun s' => (s'.part pt).issuing = some k ∧ (s'.part pt).lentBy = lent ∧ s'.mem = s.mem := by
  change ∃ s', execPartitionChoice pt s = _ ∧ _
  unfold execPartitionChoice
  simp only [hi, hs, hq, h]
  rw [if_neg (by simp)]
  split
  · next t r p hpo =>
    obtain ⟨⟨t', r'⟩, hx, hpo⟩ := Option.bind_eq_some_iff.mp hpo
    obtain ⟨p', hp', he⟩ := Option.map_eq_some_iff.mp hpo
    cases he
    obtain ⟨u, hu, hx⟩ := Option.bind_eq_some_iff.mp hx
    obtain ⟨v, hv, hx⟩ := Option.bind_eq_some_iff.mp hx
    split at hx
    · next ha =>
      cases hx
      exact absurd ⟨_, _, _, hu, hv, ha, hp'⟩ hp
    · cases hx
  · refine ⟨_, rfl, ?_⟩
    rw [part_setPart, if_pos rfl]
    refine ⟨rfl, rfl, ?_⟩
    split <;> rfl

end

/-! ### Run fetch (R76, R81, R82, R105, R370) -/

section

variable {s : State} {k : Nat} {t : Team} (ht : s.TeamIs k t) (hi : (s.part (k / 16)).issuing = some k) (hr : t.run = none)

/-- The partition of a team whose run does not start chooses again. -/
def State.leaveIssue (s : State) (pt : Nat) : State := s.setPart pt { s.part pt with issuing := none, lentBy := none }

theorem leaveIssue_part (s : State) (pt : Nat) : (s.leaveIssue pt).part pt = { s.part pt with issuing := none, lentBy := none } := by
  rw [State.leaveIssue, part_setPart, if_pos rfl]

/-- A request to stop changes, of the partition's state, its requests alone. -/
theorem askStop_part (s : State) (pt cause slot code : Nat) : (s.askStop pt cause slot code).part pt =
    { s.part pt with stopReq := if s.stopped pt then (s.part pt).stopReq else (s.part pt).stopReq ++ [(cause, slot, code)] } := by
  unfold State.askStop
  dsimp only
  split
  · rfl
  · rw [part_setPart, if_pos rfl]

@[simp] theorem askStop_teams (s : State) (pt cause slot code : Nat) : (s.askStop pt cause slot code).teams = s.teams := by
  unfold State.askStop
  dsimp only
  split <;> rfl

/-- A team that a fetch stops was in no run, and stands where it stood. -/
theorem stopped_team (hr : t.run = none) (s' : State) (e : Err) :
    ((s'.stopTeam k t t.pc e).attemptOver k).TeamIs k { t with status := .stopped } := by
  have hstop := stopTeam_team s' k t t.pc e
  unfold State.TeamIs at hstop ⊢
  rw [attemptOver_teams, hstop, ← hr]

/-- The team in issue that stands in no run fetches one. -/
theorem runFetch_guard (hi : (s.part (k / 16)).issuing = some k) (hr : t.run = none) :
    ((s.part (partOfTeam k)).issuing != some k || t.run.isSome) = false := by
  rw [show partOfTeam k = k / 16 from rfl, hi, hr]
  simp

include ht hi hr

theorem runFetch_held {kind : Nat} (hk : s.heldKind k t = some kind) :
    exec (.runFetch k) s = .next ((s.setTeam k { t with status := .waiting kind }).leaveIssue (k / 16)) := by
  change execRunFetch k s = _
  unfold State.TeamIs at ht
  simp only [execRunFetch, ht, runFetch_guard hi hr, Bool.false_eq_true, if_false, hk]
  rfl

theorem runFetch_breakpoint (hk : s.heldKind k t = none) {j : Nat} (hb : s.breakpoint (partOfTeam k) (s.wgOf t.w).asid t.pc.toNat = some j) :
    exec (.runFetch k) s = .next ((s.leaveIssue (k / 16)).askStop (k / 16) 3 (k % 16) j) := by
  change execRunFetch k s = _
  unfold State.TeamIs at ht
  simp only [execRunFetch, ht, runFetch_guard hi hr, Bool.false_eq_true, if_false, hk, hb]
  rfl

/-- Where R82 lets the run start and no breakpoint stands there, what the fetch gives says what the team does. -/
theorem runFetch_fetches (hk : s.heldKind k t = none) (hb : s.breakpoint (partOfTeam k) (s.wgOf t.w).asid t.pc.toNat = none) :
    match (s.fetchRun k t).2 with
    | .ok ws tr lits => t.poisonPend ws = none → EndsAs (.runFetch k) s k (t.startRun ws tr lits)
    | .trap _ _ _ => EndsAs (.runFetch k) s k { t with status := .stopped }
    | .poison _ _ => EndsAs (.runFetch k) s k { t with status := .stopped }
    | .fault _ _ => EndsAs (.runFetch k) s k { t with status := .waiting 14 } := by
  have he : exec (.runFetch k) s = execRunFetch k s := rfl
  unfold State.TeamIs at ht
  cases hf : s.fetchRun k t with
  | mk s' res =>
    simp only [execRunFetch, ht, runFetch_guard hi hr, Bool.false_eq_true, if_false, hk, hb, hf] at he
    cases res with
    | ok ws tr lits =>
      intro hp
      refine ⟨_, he.trans (by simp only [hp]; rfl), ?_⟩
      exact setTeam_team s' k _
    | trap reason i w => exact ⟨_, he, stopped_team hr s' _⟩
    | poison a b => exact ⟨_, he, stopped_team hr s' _⟩
    | fault c va =>
      refine ⟨_, he, ?_⟩
      change (State.teams _).find? k = _
      rw [submit_teams, attemptOver_teams]
      exact setTeam_team s' k _

end

/-- Settles O48: a choice by what `choose` gives (`choose_some`), a fetch by what `fetchRun` gives (`runFetch_fetches`). -/
theorem choiceAndFetch : Obligations.ChoiceAndFetch := by
  unfold Obligations.ChoiceAndFetch
  refine ⟨fun s pt hi hs hq => ⟨?_, ?_, ?_⟩, fun s k t ht hi hr => ⟨fun kind hk => ?_, fun hk => ⟨fun j hb => ?_, fun hb => ?_⟩⟩⟩
  · intro k lent t r p hc ht hr ha hp
    exact ⟨_, partitionChoice_poisoned hi hs hq hc ht hr ha hp, poisonStop_team _ k t r.pc p⟩
  · intro k lent hc hp
    obtain ⟨s', he, hissue, hlent, hmem⟩ := partitionChoice_issues hi hs hq hc hp
    exact ⟨s', he, hissue, hlent, hmem, choose_some hc⟩
  · intro hc
    obtain ⟨m, n, hpart⟩ := idleCycle_part (s.settle pt) pt
    exact ⟨_, partitionChoice_none hi hs hq hc, by rw [hpart]; exact hi, by rw [hpart]; rfl⟩
  · exact ⟨_, runFetch_held ht hi hr hk, setTeam_team s k _, congrArg Part.issuing (leaveIssue_part _ _), rfl⟩
  · refine ⟨_, runFetch_breakpoint ht hi hr hk hb, ?_, ?_, fun hs => ?_⟩
    · exact (congrArg (SMap.find? · k) (askStop_teams _ _ _ _ _)).trans ht
    · rw [askStop_part, leaveIssue_part]
    · have hs' : (s.leaveIssue (k / 16)).stopped (k / 16) = false := hs
      rw [askStop_part, leaveIssue_part, hs']
      rfl
  · have hfetch := runFetch_fetches ht hi hr hk hb
    cases hf : (s.fetchRun k t).2 with
    | ok ws tr lits =>
      rw [hf] at hfetch
      intro hp
      obtain ⟨s', he, hteam⟩ := hfetch hp
      exact ⟨s', he, _, hteam, rfl, rfl, rfl, rfl, rfl, rfl, rfl, rfl, rfl, rfl, rfl, rfl⟩
    | trap reason i w => rwa [hf] at hfetch
    | poison a b => rwa [hf] at hfetch
    | fault c va => rwa [hf] at hfetch

end Sys2Proof.Machine
end

section
/-! SUPPORT. Attempt ends, landings, timers and waits of a team (O49). -/

namespace Sys2Proof.Machine

/-! ### Rows that are put side by side (R81, R403) -/

/-- The rows `row 0`, `row 1`, … put at `reg` upwards, where `p` lets them. -/
theorem find_putRows (p : Nat → Bool) (row : Nat → Row) (reg n : Nat) (m : SMap Row) (q : Nat) :
    ((List.range n).foldl (fun m j => if p (reg + j) then m.insert (reg + j) (row j) else m) m).find? q =
      if reg ≤ q ∧ q < reg + n ∧ p q = true then some (row (q - reg)) else m.find? q := by
  induction n with
  | zero =>
    rw [if_neg (by omega)]
    rfl
  | succ n ih =>
    rw [List.range_succ, List.foldl_append, List.foldl_cons, List.foldl_nil]
    by_cases hq : q = reg + n
    · subst hq
      by_cases hp : p (reg + n) = true
      · rw [if_pos hp, SMap.find_insert_self, if_pos ⟨by omega, by omega, hp⟩, Nat.add_sub_cancel_left]
      · rw [if_neg hp, ih, if_neg (by omega), if_neg (by simp [hp])]
    · have hfind : (if p (reg + n) = true then SMap.insert _ (reg + n) (row n) else _).find? q = _ :=
        (ite_keeps (P := fun m' : SMap Row => m'.find? q = _) (SMap.find_insert_ne _ _ hq) rfl).trans ih
      rw [hfind]
      have hrange : q < reg + (n + 1) ↔ q < reg + n := by omega
      simp only [hrange]

/-- The rows that a pending write lands, by their indices. -/
theorem range_zip_rows (rows : List Row) : (List.range rows.length).zip rows = (List.range rows.length).map fun j => (j, rows.getD j []) := by
  refine List.ext_getElem (by simp) fun i h1 h2 => ?_
  have hi : i < rows.length := by simpa using h2
  simp [hi]

theorem find_landRows (rows : List Row) (reg : Nat) (m : SMap Row) (q : Nat) :
    (((List.range rows.length).zip rows).foldl (fun m x => m.insert (reg + x.1) x.2) m).find? q =
      if reg ≤ q ∧ q < reg + rows.length then rows[q - reg]? else m.find? q := by
  have hput := find_putRows (fun _ => true) (fun j => rows.getD j []) reg rows.length m q
  rw [range_zip_rows, List.foldl_map]
  simp only [if_true, and_true] at hput
  rw [hput]
  split
  · next h =>
    have hlt : q - reg < rows.length := by omega
    simp [hlt]
  · rfl

/-! ### A starvation timer at its limit (R218, R219) -/

/-- A record of the program's log touches no team. -/
theorem side_contextLog (s : State) (k : Nat) (g : Wg) (base size : Nat) (mk : Nat → List Byte) (kind : Nat) :
    MemorySide s (s.contextLog k g base size mk kind) := by
  unfold State.contextLog
  exact side_logAppend _ _ _ _ _ _ _ _ _ _ (fun _ _ _ _ h => side_writeVa _ _ _ _ _ _ h) (fun _ _ _ h => side_writeVa _ _ _ _ _ _ h)
    (fun _ => side_report _ _ _)

/-- A run without effects of its completion left to perform is left at once. -/
theorem leaveDone_of_done_nil (s : State) (k : Nat) (t : Team) (kind : Nat) (h : ∀ r, t.run = some r → r.bodyDone = true → r.done = []) :
    s.leaveDone k t kind = s := by
  unfold State.leaveDone
  split
  · next r hr =>
    by_cases hb : r.bodyDone = true
    · rw [if_neg (by simp [h r hr hb])]
    · rw [if_neg (by simp [hb])]
  · rfl

/-! ### Events of one team -/

section

variable {s : State} {k : Nat} {t : Team} (ht : s.TeamIs k t)

include ht

theorem pendingWriteLand_eq {n : Nat} {p : Pend} (hp : t.pend.find? (fun p => p.reg == n) = some p) :
    exec (.pendingWriteLand k n) s = .next (s.setTeam k (if p.poison then
      { t with pend := t.pend.map fun q => if q.reg = n then { q with landed := true } else q } else t.land p)) := by
  change execPendingWriteLand k n s = _
  unfold State.TeamIs at ht
  simp only [execPendingWriteLand, ht, hp]
  split <;> rfl

/-- A write that lands puts its rows into its registers, and goes. -/
theorem pendingWriteLand_lands {n : Nat} {p : Pend} (hp : t.pend.find? (fun p => p.reg == n) = some p) (hpo : p.poison = false)
    (hlen : p.rows.length = p.count) : Completes (.pendingWriteLand k n) s fun s' => ∃ t', s'.TeamIs k t' ∧
      t' = { t with v := t'.v, pend := t.pend.filter fun x => x.reg != n, handler := t'.handler } ∧
      ∀ q, t'.v.find? q = if n ≤ q ∧ q < n + p.count then p.rows[q - n]? else t.v.find? q := by
  have hreg : p.reg = n := by simpa using List.find?_some hp
  subst hreg
  refine ⟨_, pendingWriteLand_eq ht hp, _, setTeam_team s k _, ?_, fun q => ?_⟩
  · simp only [hpo, Bool.false_eq_true, if_false, Team.land]
  · simp only [hpo, Bool.false_eq_true, if_false, Team.land, ← hlen]
    exact find_landRows p.rows p.reg t.v q

theorem backoffExpiry_eq (hb : s.backoffOver k t = true) (hs : s.stopped (k / 16) = false) :
    exec (.backoffExpiry k) s = .next (s.setTeam k { t with status := .ready, readyAt := s.tick, stv := 0 }) := by
  change execBackoffExpiry k s = _
  unfold State.TeamIs at ht
  simp [execBackoffExpiry, ht, hb, partOfTeam, hs]

section

variable {kind : Nat} (hk : s.starved t = some kind) (hs : s.stopped (k / 16) = false)

include hk hs

/-- With STVT the team stops after the timer's record, behind the effects that its completed run has left. -/
theorem starvationExpiry_stops (hstvt : lrStvt (s.wgOf t.w).lr = true) : ∃ u e, MemorySide s u ∧ exec (.starvationExpiry k) s =
    .next ((u.leaveDone k t kind).stopTeam k { (u.leaveDone k t kind).teamAt k t with base := (t.waitPc kind).2 } (t.waitPc kind).1 e) := by
  have he : exec (.starvationExpiry k) s = execStarvationExpiry k s := rfl
  unfold State.TeamIs at ht
  have hs' : s.stopped (partOfTeam k) = false := hs
  simp only [execStarvationExpiry, ht, hk, hs', hstvt, Bool.false_eq_true, if_false, if_true] at he
  exact ⟨_, _, side_contextLog _ _ _ _ _ _ _, he⟩

/-- Without it the timer starts again. -/
theorem starvationExpiry_resets (hstvt : lrStvt (s.wgOf t.w).lr = false) :
    ∃ u : State, exec (.starvationExpiry k) s = .next (u.setTeam k { t with stv := 0 }) := by
  have he : exec (.starvationExpiry k) s = execStarvationExpiry k s := rfl
  unfold State.TeamIs at ht
  have hs' : s.stopped (partOfTeam k) = false := hs
  simp only [execStarvationExpiry, ht, hk, hs', hstvt, Bool.false_eq_true, if_false] at he
  exact ⟨_, he⟩

end

/-- A completing attempt ends. -/
theorem runAttemptEnd_completes {r r1 : Run} {s1 : State} {t1 : Team} (hr : t.run = some r)
    (hi : (s.part (k / 16)).issuing = some k) (hw : r.words.length ≤ r.idx) (hb : s.bodyEnd k t r false noTerm noAtt = (s1, true))
    (ht1 : s1.TeamIs k t1) (hr1 : t1.run = some r1) :
    EndsAs (.runAttemptEnd k) s k (t1.ended r1.nextPc (s1.readySince k t1)) := by
  refine ⟨_, runAttemptEnd_eq ht hr hi hw, ?_⟩
  rw [runEnd, hb]
  unfold State.afterBody
  unfold State.TeamIs at ht1
  simp only [ht1, hr1]
  exact endRun_team s1 k t1 r1.nextPc ht1

end

/-! ### Claim deadlock (R222) -/

@[simp] theorem queueDump_wgs (s : State) (k : Nat) (t : Team) (n : Nat) : (s.queueDump k t n).wgs = s.wgs := by
  unfold State.queueDump
  dsimp only
  split
  · rfl
  · split
    · split
      · rfl
      · split
        · split
          · next b _ =>
            cases hw : s.writeGpa (s.wgOf t.w).ten _ _ _ with
            | none => rfl
            | some u => exact side_wgs (side_writeGpa _ _ _ _ _ _ _ hw)
          · rfl
        · rfl
    · rfl

/-- A team of a workgroup without claims stops by itself: the other teams stand, and the workgroup has no claims. -/
theorem stopTeam_alone {s : State} (j : Nat) {t : Team} (pc : DWord) (e : Err) (hc : (s.wgOf t.w).claims = []) :
    ((s.stopTeam j t pc e).wgOf t.w).claims = [] ∧ ∀ k, k ≠ j → (s.stopTeam j t pc e).teams.find? k = s.teams.find? k := by
  have hw : s.withdraw j t.w = { s with wgs := s.wgs.modify t.w fun g => { g with
      rdv := g.rdv.map fun c => (c.1, c.2.filter fun r => r.k != j), claims := g.claims.filter fun c => c.1 != j } } := by
    rw [State.withdraw, hc]
    rfl
  have hclaims : ((s.withdraw j t.w).wgOf t.w).claims = [] := by
    rw [hw]
    unfold State.wgOf at hc ⊢
    unfold SMap.getD at hc ⊢
    rw [SMap.find_modify, if_pos rfl]
    cases hg : s.wgs.find? t.w with
    | none => rfl
    | some g =>
      rw [hg] at hc
      simp only [Option.map_some, Option.getD_some] at hc ⊢
      rw [hc]
      rfl
  unfold State.stopTeam
  dsimp only
  refine ⟨?_, fun k hk => ?_⟩
  · unfold State.wgOf at hclaims ⊢
    rw [queueDump_wgs, side_wgs (side_report _ _ _), attemptOver_wgs]
    exact hclaims
  · rw [queueDump_teams, side_teams (side_report _ _ _), attemptOver_teams]
    refine (SMap.find_insert_ne _ _ hk).trans ?_
    rw [hw]

/-- A claim deadlock as it stands in one team. -/
def State.claimStop (s : State) (x : Nat × Team) : State :=
  match x.2.run with
  | some r => s.stopTeam x.1 { x.2 with base := some r.pc } (dwordOf r.here) { cat := 3, code := 3, aux0 := 12 }
  | none => s

/-- A claim deadlock that stops one after another of a workgroup's teams stops each of them as it stood. -/
theorem foldl_claimStop_team {w k : Nat} {t : Team} {r : Run} (hr : t.run = some r) (l : SMap Team) (hw : ∀ x ∈ l, x.2.w = w)
    (hk : ∀ x ∈ l, x.1 = k → x.2 = t) {s : State} (hc : (s.wgOf w).claims = [])
    (h : s.TeamIs k { t with pc := dwordOf r.here, status := .stopped, run := none, base := some r.pc } ∨ (k, t) ∈ l) :
    (l.foldl State.claimStop s).TeamIs k { t with pc := dwordOf r.here, status := .stopped, run := none, base := some r.pc } := by
  induction l generalizing s with
  | nil => exact h.resolve_right List.not_mem_nil
  | cons x l ih =>
    have hxw := hw x List.mem_cons_self
    have hkeep : ((s.claimStop x).wgOf w).claims = [] ∧ ∀ k, k ≠ x.1 → (s.claimStop x).teams.find? k = s.teams.find? k := by
      unfold State.claimStop
      split
      · next r' _ =>
        have halone := stopTeam_alone (s := s) x.1 (t := { x.2 with base := some r'.pc }) (dwordOf r'.here) { cat := 3, code := 3, aux0 := 12 }
          (by rw [hxw]; exact hc)
        rw [hxw] at halone
        exact halone
      · exact ⟨hc, fun _ _ => rfl⟩
    obtain ⟨hc', hother⟩ := hkeep
    refine ih (fun y hy => hw y (List.mem_cons_of_mem _ hy)) (fun y hy => hk y (List.mem_cons_of_mem _ hy)) hc' ?_
    by_cases hx : x.1 = k
    · left
      have hxt := hk x List.mem_cons_self hx
      unfold State.claimStop
      rw [hxt, hr, hx]
      exact stopTeam_team s k _ _ _
    · rcases h with h | h
      · exact .inl ((hother k (Ne.symm hx)).trans h)
      · rcases List.mem_cons.mp h with h | h
        · exact absurd (congrArg Prod.fst h).symm hx
        · exact .inr h

theorem SMap.below_of_mem {α : Type} {m : SMap α} {o : Option Nat} (h : SMap.risingFrom o m = true) {k : Nat} {v : α} (hm : (k, v) ∈ m) :
    SMap.below o k = true := by
  induction m generalizing o with
  | nil => cases hm
  | cons x m ih =>
    rw [SMap.risingFrom_cons, Bool.and_eq_true] at h
    rcases List.mem_cons.mp hm with rfl | hm
    · exact h.1
    · have hx := ih h.2 hm
      obtain ⟨ho, -⟩ := h
      cases o with
      | none => rfl
      | some n =>
        simp only [SMap.below, decide_eq_true_eq] at hx ho ⊢
        omega

/-- In a table with rising keys an entry is what is found at its key. -/
theorem SMap.find_of_mem {α : Type} {m : SMap α} {o : Option Nat} (h : SMap.risingFrom o m = true) {k : Nat} {v : α} (hm : (k, v) ∈ m) :
    m.find? k = some v := by
  induction m generalizing o with
  | nil => cases hm
  | cons x m ih =>
    obtain ⟨j, u⟩ := x
    rw [SMap.risingFrom_cons, Bool.and_eq_true] at h
    rcases List.mem_cons.mp hm with he | hm
    · cases he
      exact if_pos rfl
    · have hlt : j < k := by simpa [SMap.below] using SMap.below_of_mem h.2 hm
      exact (if_neg (by omega)).trans (ih h.2 hm)

/-- A claim deadlock of a workgroup stops each of its teams that is in a run, at that run's terminal. -/
theorem claimDeadlockFault_stops {s : State} {k : Nat} {t : Team} (ht : s.TeamIs k t) {r : Run} (hr : t.run = some r)
    (hd : s.claimDeadlock t.w = true) (hrise : s.teams.rising = true) : EndsAs (.claimDeadlockFault t.w) s k
      { t with pc := dwordOf r.here, status := .stopped, run := none, base := some r.pc } := by
  have he : exec (.claimDeadlockFault t.w) s =
      .next ((s.teamsOfWg t.w).foldl State.claimStop (s.setWg t.w { s.wgOf t.w with claims := [] })) := by
    change execClaimDeadlockFault t.w s = _
    rw [execClaimDeadlockFault, if_pos hd]
    rfl
  have hmem (x : Nat × Team) (hx : x ∈ s.teamsOfWg t.w) : x ∈ s.teams ∧ x.2.w = t.w := by
    simpa [State.teamsOfWg] using hx
  refine ⟨_, he, foldl_claimStop_team hr _ (fun x hx => (hmem x hx).2) (fun x hx hk => ?_) ?_ (.inr ?_)⟩
  · have hfind := SMap.find_of_mem hrise (hmem x hx).1
    rw [hk] at hfind
    exact Option.some.inj (hfind.symm.trans ht)
  · rw [State.wgOf, State.setWg, SMap.getD_insert, if_pos rfl]
  · exact List.mem_filter.mpr ⟨SMap.mem_of_find _ ht, by simp⟩

/-! ### A value wait that looks again (R195) -/

section

variable {s : State} {k : Nat} {t : Team} {r : Run} (ht : s.TeamIs k t) (hr : t.run = some r) (hst : t.status = .waiting 6)

/-- The condition's code, the address and the value of the WAITV in which a team waits. -/
def Run.watchCond (r : Run) : Nat := (bits (r.words.getLastD 0) 19 6).toNat
def Team.watchAt (t : Team) (r : Run) : Nat := (t.get64 (bits (r.words.getLastD 0) 13 6).toNat (r.entry.leader t.nlanes)).toNat
def Team.watchFor (t : Team) (r : Run) : Word := t.get (bits (r.words.getLastD 0) 7 6).toNat (r.entry.leader t.nlanes)

include ht hr hst

/-- It is a turn of the WAITV at which it waits. -/
theorem waitvRecheck_eq : exec (.waitvRecheck k) s = .next (s.waitvTurn k t r r.watchCond (t.watchAt r) (t.watchFor r)) := by
  change execWaitvRecheck k s = _
  unfold State.TeamIs at ht
  simp only [execWaitvRecheck, ht, hr, hst]
  rfl

/-- A word that can be read ends the wait, or is watched on. -/
theorem waitvRecheck_reads (hmet : r.met = false) {u : State} {g : Wg} {p : Place} {gpa : Nat}
    (hx : s.waitvLook k t r r.watchCond (t.watchAt r) (t.watchFor r) = u.waitvRead g k t r r.watchCond (t.watchFor r) p gpa)
    (hu : u.TeamIs k t) (hgood : u.placeBad p g.ktag = false) :
    let x : Word := BitVec.ofNat 32 (leNat (u.laneBytes t r t.nlanes p 4))
    let met := waitCond r.watchCond x (t.watchFor r) = true
    let t2 := { t with sbuf := t.sbuf.map fun st => if u.overlaps st p 4 then st.readBy (r.todo.leader t.nlanes) else st }
    (met → EndsAs (.waitvRecheck k) s k (t2.ended r.nextPc (u.readySince k t))) ∧
    (¬ met → EndsAs (.waitvRecheck k) s k { t2 with run := some { r with watch := some (p, t.watchAt r, r.watchCond, t.watchFor r) } }) := by
  have he := waitvRecheck_eq ht hr hst
  refine ⟨fun hm => ⟨_, he, waitvTurn_met hmet hx hgood hu hm⟩, fun hm => ⟨_, he, ?_⟩⟩
  have hteam := waitvTurn_unmet hmet hx hgood hu hr hm
  rw [← hst] at hteam
  exact hteam

end

/-! ### A held effect (R403) -/

/-- An effect that a stop leaves behind is not performed once per run. -/
theorem left_of_onceDo {s s1 : State} {k : Nat} {t : Team} {h : Held} {v : DWord} (ho : s.onceDo k t h = some (s1, v)) :
    h.op.left = false := by
  unfold State.onceDo at ho
  cases hop : h.op <;> simp [hop, OnceOp.left] at ho ⊢

/-- A held effect that is performed goes, and its value is written where its team's run, or what comes after it, finds it. -/
theorem heldEffectPerform_performs {s : State} {k : Nat} {t : Team} (ht : s.TeamIs k t) {h : Held} {hs : List Held} (hheld : t.held = h :: hs)
    (hb : t.doneBefore h = false) {s1 : State} {v : DWord} (ho : s.onceDo k t h = some (s1, v)) :
    exec (.heldEffectPerform k) s = .next (s1.setTeam k (({ t with held := hs } : Team).heldWrite h v)) := by
  change execHeldEffectPerform k s = _
  unfold State.TeamIs at ht
  simp [execHeldEffectPerform, ht, hheld, left_of_onceDo ho, hb, ho]

/-- Outside the handler it changes registers and what its run notes. -/
theorem heldWrite_keeps {t : Team} (hn : t.handler = none) (h : Held) (v : DWord) :
    t.heldWrite h v = { t with v := (t.heldWrite h v).v, run := (t.heldWrite h v).run } := by
  unfold Team.heldWrite
  simp only [hn]

theorem heldWrite_get {t : Team} {h : Held} (hn : t.handler = none) (hi : h.inH = false) (v : DWord) {l q : Nat} (hl : l < t.nlanes)
    (hq : q < t.alloc) : (t.heldWrite h v).get q l =
      if h.reg ≤ q ∧ q < h.reg + h.count then BitVec.ofNat 32 (natBits v.toNat (32 * (q - h.reg)) 32) else t.get q l := by
  unfold Team.heldWrite Team.get
  simp only [hn]
  rw [find_putRows (fun n => (decide (n < t.alloc) && !(h.inH && decide (48 ≤ n))) || (decide (56 ≤ n) && t.run.any fun r => r.pc == h.pc))
    (fun j => List.replicate t.nlanes (wordOf (natBits v.toNat (32 * j) 32)))]
  simp only [hi, hq, decide_true, Bool.false_and, Bool.not_false, Bool.and_self, Bool.true_or, and_true]
  split
  · simp [hl, wordOf]
  · rfl

/-- Settles O49, event by event: an attempt's end (`runAttemptEnd_completes`), a landing (`pendingWriteLand_lands`), the timers
(`starvationExpiry_stops`), a claim deadlock (`claimDeadlockFault_stops`), a wait's next look (`waitvRecheck_reads`), a held effect
(`heldEffectPerform_performs`). -/
theorem teamEvents : Obligations.TeamEvents := by
  unfold Obligations.TeamEvents
  intro s k t ht
  refine ⟨fun r s1 t1 r1 hr hi hw hb ht1 hr1 => runAttemptEnd_completes ht hr hi hw hb ht1 hr1, fun n p hp => ⟨?_, fun hpo => ?_⟩,
    fun hb hs => ⟨_, backoffExpiry_eq ht hb hs, setTeam_team s k _⟩, fun kind hk hs => ⟨fun hstvt => ?_, fun hstvt => ?_⟩,
    fun r hr hd hrise => claimDeadlockFault_stops ht hr hd hrise, ?_, ?_⟩
  · exact fun hpo hlen => pendingWriteLand_lands ht hp hpo hlen
  · exact ⟨_, pendingWriteLand_eq ht hp, _, setTeam_team s k _, by rw [if_pos hpo]⟩
  · obtain ⟨u, e, hside, he⟩ := starvationExpiry_stops ht hk hs hstvt
    refine ⟨fun hdone => ⟨_, he, ?_⟩, _, he, _, stopTeam_team _ k _ _ _, rfl, rfl, rfl, rfl⟩
    have hat : u.teamAt k t = t := by
      have hu := hside.teamIs ht
      unfold State.TeamIs at hu
      rw [State.teamAt, hu]
      rfl
    rw [leaveDone_of_done_nil u k t kind hdone, hat]
    exact stopTeam_team u k _ _ _
  · obtain ⟨u, he⟩ := starvationExpiry_resets ht hk hs hstvt
    exact ⟨_, he, setTeam_team u k _⟩
  · intro r hr hst w c l wg ea v i L
    have hread (hmet : r.met = false) {u : State} {p : Place} {gpa : Nat} (hu : u.TeamIs k t)
        (hx : s.waitvLook k t r c ea v = u.waitvRead wg k t r c v p gpa) : L u p := by
      intro hgood hc x met t2
      obtain ⟨hm, hn⟩ := waitvRecheck_reads ht hr hst hmet hx hu hgood
      have hiff : waitCond c x v = true ↔ met := waitCond_iff hc x v
      exact ⟨fun h => hm (hiff.mpr h), fun h => hn (mt hiff.mp h)⟩
    refine ⟨fun hmet => ⟨_, waitvRecheck_eq ht hr hst, ?_⟩, fun hmet hal => ⟨fun hsp => ?_, fun w' hsp hseg => ?_, fun hsp hwhole => ?_⟩⟩
    · rw [State.waitvTurn, if_pos hmet]
      exact endRun_team s k t r.nextPc ht
    · exact hread hmet ht (waitvLook_shared hal hsp)
    · exact hread hmet ht (waitvLook_cluster hal hsp hseg)
    · have hside := side_reachGlobal s (rcvOfCore (k / 128)) wg.asid ea .load
      generalize hx : s.reachGlobal (rcvOfCore (k / 128)) wg.asid ea .load = x at hside
      obtain ⟨u, ⟨p, gpa⟩ | n⟩ := x
      · exact hread hmet (hside.teamIs ht) (waitvLook_reached hal hsp hwhole hx)
      · exact fun hn => ⟨_, waitvRecheck_eq ht hr hst, waitvTurn_stoker hmet (waitvLook_stoker hal hsp hwhole hx hn) (hside.teamIs ht)⟩
  · intro h hs s1 v hheld hn hi hb ho
    have hkeep := heldWrite_keeps (t := { t with held := hs }) hn h v
    exact ⟨_, heldEffectPerform_performs ht hheld hb ho, _, setTeam_team s1 k _, by rw [hkeep], by rw [hkeep], by rw [hkeep],
      fun l hl q hq => heldWrite_get (t := { t with held := hs }) hn hi v hl hq⟩

end Sys2Proof.Machine
end

section
/-! SUPPORT. Copies run, complete and stop at faults (O50). -/

namespace Sys2Proof.Machine

/-! ### What an engine's accesses leave alone (R239) -/

/-- The Bellows contexts, the transform queues and the tiles are the same. -/
def State.SameEngines (s s' : State) : Prop := s'.ctxs = s.ctxs ∧ s'.xq = s.xq ∧ s'.tiles = s.tiles

theorem State.SameEngines.refl (s : State) : s.SameEngines s := ⟨rfl, rfl, rfl⟩

theorem State.SameEngines.trans {a b c : State} (h : a.SameEngines b) (h' : b.SameEngines c) : a.SameEngines c := by
  obtain ⟨hc, hq, ht⟩ := h
  obtain ⟨hc', hq', ht'⟩ := h'
  exact ⟨hc'.trans hc, hq'.trans hq, ht'.trans ht⟩

theorem MemorySide.engines {a b : State} (h : MemorySide a b) : a.SameEngines b := by
  rw [State.SameEngines, h.1]
  exact ⟨rfl, rfl, rfl⟩

theorem side_foundBad (s : State) (p : Place) (ten gpa kt : Nat) : MemorySide s (s.foundBad p ten gpa kt) := by
  unfold State.foundBad
  split
  · exact ite_keeps (side_tagFail _ _ _ _) (.rfl' s)
  · exact .rfl' s

theorem side_getPlace (s : State) (ten gpa : Nat) (p : Place) (n kt : Nat) : MemorySide s (s.getPlace ten gpa p n kt).1 := by
  unfold State.getPlace
  split
  · exact ⟨rfl, fun _ _ _ => rfl⟩
  · exact side_foundBad _ _ _ _ _

theorem side_engReach (s : State) (w ea : Nat) (need : Need) : MemorySide s (s.engReach w ea need).1 := by
  unfold State.engReach
  dsimp only
  split
  · exact side_reachGlobal _ _ _ _ _
  · exact .rfl' s
  · exact .rfl' s
  · exact .rfl' s

theorem side_xlate2 (s : State) (rcv ten gpa : Nat) (n : Need) : MemorySide s (s.xlate2 rcv ten gpa n).1 := by
  unfold State.xlate2
  exact ⟨rfl, fun _ _ _ => rfl⟩

theorem side_gpaReach (s : State) (w gpa : Nat) (need : Need) : MemorySide s (s.gpaReach w gpa need).1 := by
  have h := side_xlate2 s (rcvOfCore (coreOfWg w)) (s.wgOf w).ten gpa need
  unfold State.gpaReach
  generalize s.xlate2 (rcvOfCore (coreOfWg w)) (s.wgOf w).ten gpa need = x at h
  obtain ⟨u, v⟩ := x
  cases v with
  | ok spa _ _ _ _ => exact h.trans (side_reachSpa _ _ _ _)
  | fault c gpa bad =>
    cases bad with
    | none => exact h
    | some a => exact h.trans (side_tagFail _ _ _ _)

theorem side_backRead (s : State) (w gpa n : Nat) : MemorySide s (s.backRead w gpa n).1 := by
  have h := side_gpaReach s w gpa .load
  unfold State.backRead
  generalize s.gpaReach w gpa .load = x at h
  obtain ⟨u, v⟩ := x
  cases v with
  | cause c => exact h
  | at' p gpa => exact h.trans (side_getPlace _ _ _ _ _ _)

theorem side_apElem (s : State) (w n i : Nat) : MemorySide s (s.apElem w n i).1 := by
  have hsdb (m : Nat) := side_backRead s w (apBack s n + 64 * (i / m)) 64
  have hrow := side_backRead s w (apBack s n + 2 * i) 2
  have hread {x : State × Got (List Byte)} {u : State} {r : Got (List Byte)} (h : MemorySide s x.1) (hx : x = (u, r)) : MemorySide s u := by
    rwa [hx] at h
  unfold State.apElem
  dsimp only
  split
  · split
    · next hx => exact hread (hsdb 496) hx
    · next hx => exact hread (hsdb 496) hx
  · split
    · next hx => exact hread (hsdb 112) hx
    · next hx => exact hread (hsdb 112) hx
  · split
    · next hx => exact hread hrow hx
    · next hx => exact hread hrow hx

theorem side_apRead (s : State) (w n o len : Nat) : MemorySide s (s.apRead w n o len).1 := by
  unfold State.apRead
  split
  · exact andThen_keeps (P := MemorySide s) (gotList_keeps (fun t p ht => ht.trans (side_backRead t w _ _)) _ (.rfl' s)) fun _ _ h => h
  · exact andThen_keeps (P := MemorySide s) (gotList_keeps (fun t p ht => ht.trans (side_apElem t w n _)) _ (.rfl' s)) fun _ _ h => h

theorem side_engRead (s : State) (w ea n : Nat) : MemorySide s (s.engRead w ea n).1 := by
  unfold State.engRead
  refine andThen_keeps (P := MemorySide s) (gotList_keeps (fun t p ht => ?_) _ (.rfl' s)) fun _ _ h => h
  have h := side_engReach t w p.1 .load
  dsimp only
  generalize t.engReach w p.1 .load = x at h
  obtain ⟨u, v⟩ := x
  cases v with
  | cause c => exact ht.trans h
  | at' pl gpa => exact (ht.trans h).trans (side_getPlace _ _ _ _ _ _)

theorem side_copyRead (s : State) (w ea n : Nat) : MemorySide s (s.copyRead w ea n).1 := by
  unfold State.copyRead
  refine andThen_keeps (P := MemorySide s) (gotList_keeps (fun t p ht => ?_) _ (.rfl' s)) fun _ _ h => h
  split
  · exact ht.trans (side_apRead _ _ _ _ _)
  · exact ht.trans (side_engRead _ _ _ _)

theorem side_sideRead (s : State) (x w : Nat) (tl : Option Nat) (a : Int) (n : Nat) : MemorySide s (s.sideRead x w tl a n).1 := by
  unfold State.sideRead
  split
  · exact .rfl' s
  · exact side_copyRead _ _ _ _

theorem side_decSym (w stream : Nat) (codes : List (Nat × Nat × Nat)) (fuel len q c : Nat) (s : State) :
    MemorySide s (s.decSym w stream codes fuel len q c).1 := by
  induction fuel generalizing s len q c with
  | zero => exact .rfl' s
  | succ fuel ih =>
    unfold State.decSym
    refine andThen_keeps (P := MemorySide s) (side_copyRead s w _ 1) fun t b ht => ?_
    dsimp only
    split
    · exact ht
    · exact ht.trans (ih _ _ _ t)

theorem side_decSyms (w stream : Nat) (codes : List (Nat × Nat × Nat)) (n q : Nat) (bad : Bool) (s : State) :
    MemorySide s (s.decSyms w stream codes n q bad).1 := by
  induction n generalizing s q bad with
  | zero => exact .rfl' s
  | succ n ih =>
    unfold State.decSyms
    have h := side_decSym w stream codes 11 1 q 0 s
    generalize s.decSym w stream codes 11 1 q 0 = x at h
    obtain ⟨t, v⟩ := x
    cases v with
    | fault c e g => exact h
    | ok y b =>
      have h' := ih y.2 (bad || b) t
      dsimp only
      generalize t.decSyms w stream codes n y.2 (bad || b) = z at h'
      obtain ⟨u, v⟩ := z
      cases v <;> exact h.trans h'

theorem side_chunkSyms (s : State) (w : Nat) (c : Copy) (codes : List (Nat × Nat × Nat)) (lo hi : Nat) :
    MemorySide s (s.chunkSyms w c codes lo hi).1 := by
  unfold State.chunkSyms
  dsimp only
  generalize hx : Got.andThen (s.copyRead w (descNat c.desc 8 8 + 36 * (lo / 256 / 16)) 4) _ = x
  have h : MemorySide s x.1 := hx ▸ andThen_keeps (P := MemorySide s) (side_copyRead s w _ 4) fun t a ht =>
    andThen_keeps (P := MemorySide s) (ht.trans (side_copyRead t w _ 2)) fun _ _ h => h
  obtain ⟨t, v⟩ := x
  cases v with
  | fault c e g => exact h
  | ok y b => exact andThen_keeps (P := MemorySide s) (h.trans (side_decSyms _ _ _ _ _ _ _)) fun _ _ h => h

theorem side_decoBlock (s : State) (w : Nat) (c : Copy) (n : Nat) : MemorySide s (s.decoBlock w c n).1 := by
  unfold State.decoBlock
  dsimp only
  generalize hx : Got.andThen (s.copyRead w _ 7) _ = x
  have h : MemorySide s x.1 := hx ▸ andThen_keeps (P := MemorySide s) (side_copyRead s w _ 7) fun t a ht =>
    andThen_keeps (P := MemorySide s) (ht.trans (side_chunkSyms t w c _ _ _)) fun u b hu =>
      andThen_keeps (P := MemorySide s) (by split; exacts [hu.trans (side_chunkSyms u w c _ _ _), hu]) fun _ _ h => h
  obtain ⟨t, v⟩ := x
  cases v with
  | fault c e g => exact h
  | ok y b =>
    dsimp only
    split <;> exact h

theorem side_indexOf (s : State) (w : Nat) (c : Copy) (i : Nat) : MemorySide s (s.indexOf w c i).1 := by
  unfold State.indexOf
  split
  · exact andThen_keeps (P := MemorySide s) (side_copyRead s w _ 4) fun _ _ h => h
  · exact andThen_keeps (P := MemorySide s) (side_copyRead s w _ 4) fun _ _ h => h
  · exact .rfl' s

theorem side_combineHeld (s : State) (w a : Nat) : MemorySide s (s.combineHeld w a).1 := by
  unfold State.combineHeld State.lineHeld
  dsimp only
  split
  · exact .rfl' s
  · split
    · split
      · exact side_askLine _ _
      · exact .rfl' s
    · exact .rfl' s

theorem putPlace_engines (s : State) (by' : Writer) (ten gpa : Nat) (p : Place) (bs : List Byte) (kt : Nat) :
    s.SameEngines (s.putPlace by' ten gpa p bs kt) := by
  unfold State.putPlace
  cases p with
  | sys a => exact (side_writeSys _ _ _ _ _ _ _).engines
  | scr w o => exact ⟨rfl, rfl, rfl⟩
  | acc w o => exact ⟨rfl, rfl, rfl⟩
  | peer n l o =>
    dsimp only
    unfold State.peerSent
    split <;> exact ⟨rfl, rfl, rfl⟩

/-- A place that is poisoned. -/
theorem side_spoilSys (s : State) (ten a : Nat) : MemorySide s (s.spoil ten (.sys a)) := by
  have himage : MemorySide s (match s.imageAt a with | some _ => s.decompress (frameOf (s.realSpa a)) | none => s) := by
    split
    · exact side_decompress _ _
    · exact .rfl' s
  unfold State.spoil
  dsimp only
  refine .trans ?_ (side_wrote _ _)
  refine foldl_keeps (MemorySide s) State.markBad (fun u a h => h.trans (side_markBad u a)) _ _ ?_
  exact himage.trans (side_markBad _ _)

theorem spoil_engines (s : State) (ten : Nat) (p : Place) : s.SameEngines (s.spoil ten p) := by
  cases p with
  | sys a => exact (side_spoilSys s ten a).engines
  | scr w o => exact ⟨rfl, rfl, rfl⟩
  | acc w o => exact ⟨rfl, rfl, rfl⟩
  | peer n l o => exact ⟨rfl, rfl, rfl⟩

theorem spoilBy_engines (s : State) (by' : Writer) (ten : Nat) (p : Place) : s.SameEngines (s.spoilBy by' ten p) := by
  unfold State.spoilBy
  cases p with
  | sys a => exact (side_hostWait _ _ _ _ _ _).engines.trans (spoil_engines _ _ _)
  | scr w o => exact spoil_engines _ _ _
  | acc w o => exact spoil_engines _ _ _
  | peer n l o =>
    dsimp only
    unfold State.peerSent
    split <;> exact ⟨rfl, rfl, rfl⟩

theorem engPut_engines (s : State) (path w gpa : Nat) (p : Place) (bs : List Byte) (bad : Bool) :
    s.SameEngines (s.engPut path w gpa p bs bad) :=
  ite_keeps (spoilBy_engines _ _ _ _) (putPlace_engines _ _ _ _ _ _ _)

theorem engWrite_engines (s : State) (path w ea : Nat) (bs : List Byte) (bad : Bool) (need : Need) :
    s.SameEngines (s.engWrite path w ea bs bad need).1 := by
  have h := (side_engReach s w ea need).engines
  unfold State.engWrite
  generalize s.engReach w ea need = x at h
  obtain ⟨u, v⟩ := x
  cases v with
  | cause c => exact h
  | at' p gpa => exact h.trans (engPut_engines _ _ _ _ _ _ _)

theorem backWrite_engines (s : State) (w gpa : Nat) (bs : List Byte) (bad : Bool) : s.SameEngines (s.backWrite w gpa bs bad).1 := by
  have h := (side_gpaReach s w gpa .store).engines
  unfold State.backWrite
  generalize s.gpaReach w gpa .store = x at h
  obtain ⟨u, v⟩ := x
  cases v with
  | cause c => exact h
  | at' p gpa => exact h.trans (engPut_engines _ _ _ _ _ _ _)

theorem sdbWrite_engines (s : State) (w blk code : Nat) (first : Bool) (a : Nat) (bs : List Byte) (bad : Bool) :
    s.SameEngines (s.sdbWrite w blk code first a bs bad).1 := by
  unfold State.sdbWrite
  split
  · exact backWrite_engines _ _ _ _ _
  · split <;> exact backWrite_engines _ _ _ _ _

theorem apWrite_engines (s : State) (w n o : Nat) (bs : List Byte) (bad : Bool) : s.SameEngines (s.apWrite w n o bs bad).1 := by
  unfold State.apWrite
  dsimp only
  split
  · exact backWrite_engines _ _ _ _ _
  · exact sdbWrite_engines _ _ _ _ _ _ _ _
  · exact sdbWrite_engines _ _ _ _ _ _ _ _
  · exact backWrite_engines _ _ _ _ _

theorem sideWrite_engines (s : State) (x w : Nat) (tl : Option Nat) (a : Int) (bs : List Byte) (bad : Bool) :
    s.SameEngines (s.sideWrite x w tl a bs bad).1 := by
  unfold State.sideWrite
  split
  · exact engPut_engines _ _ _ _ _ _ _
  · split
    · exact apWrite_engines _ _ _ _ _ _
    · exact engWrite_engines _ _ _ _ _ _ _

/-- A unit's writing end: what is written decides how it ends, and no more. -/
theorem unitWritten_engines {s u : State} (h : s.SameEngines u) (x w : Nat) (tl : Option Nat) (a : Int) (bs : List Byte) (bad b : Bool) (n : Nat) :
    s.SameEngines (match u.sideWrite x w tl a bs bad with
      | (s, .fault cs e g) => (s, Got.fault cs e g)
      | (s, .ok _ _) => (s, .ok n b)).1 := by
  have h' := h.trans (sideWrite_engines u x w tl a bs bad)
  generalize u.sideWrite x w tl a bs bad = y at h'
  obtain ⟨v, r⟩ := y
  cases r <;> exact h'

/-- A unit of a copy leaves every copy where it is. -/
theorem unit_engines (s : State) (x : Nat) (c : Copy) : s.SameEngines (s.unit x c).1 := by
  unfold State.unit
  dsimp only
  split
  · have h := (side_decoBlock s c.w c (c.off / c.rowLen)).engines
    generalize s.decoBlock c.w c (c.off / c.rowLen) = y at h
    obtain ⟨u, v⟩ := y
    cases v with
    | fault cs e g => exact h
    | ok blk bad => exact unitWritten_engines h _ _ _ _ _ _ _ _
  · have h := (side_indexOf s c.w c (c.off / c.rowLen)).engines
    generalize s.indexOf c.w c (c.off / c.rowLen) = y at h
    obtain ⟨u, v⟩ := y
    cases v with
    | fault cs e g => exact h
    | ok idx ibad =>
      dsimp only
      split
      · exact h
      split
      · exact h
      generalize hread : (if ibad = true then _ else _ : State × Got (List Byte)) = rd
      have hrd : s.SameEngines rd.1 := by
        rw [← hread]
        split
        · exact h
        split
        · exact h
        · exact h.trans (side_sideRead _ _ _ _ _ _).engines
      obtain ⟨v, r⟩ := rd
      cases r with
      | fault cs e g => exact hrd
      | ok bytes bad =>
        dsimp only
        generalize hlook : (if c.combines = true then v.combineHeld _ _ else (v, false)) = look
        have hl : s.SameEngines look.1 := by
          rw [← hlook]
          exact ite_keeps (P := fun y : State × Bool => s.SameEngines y.1) (hrd.trans (side_combineHeld _ _ _).engines) hrd
        obtain ⟨v, held⟩ := look
        cases held with
        | true => exact hl
        | false =>
          simp only [Bool.false_eq_true, if_false]
          generalize hold : (if c.combines = true then v.copyRead _ _ _ else (v, Got.ok [] false)) = old
          have ho : s.SameEngines old.1 := by
            rw [← hold]
            exact ite_keeps (P := fun y : State × Got (List Byte) => s.SameEngines y.1) (hl.trans (side_copyRead _ _ _ _).engines) hl
          obtain ⟨v, r⟩ := old
          cases r with
          | fault cs e g => exact ho
          | ok prev pbad => exact unitWritten_engines ho _ _ _ _ _ _ _ _

/-! ### The copies of a context (R228) -/

theorem SMap.insert_insert {α : Type} (m : SMap α) (k : Nat) (a b : α) : (m.insert k a).insert k b = m.insert k b := by
  induction m with
  | nil => simp [SMap.insert]
  | cons c m ih =>
    obtain ⟨j, v⟩ := c
    by_cases hlt : k < j
    · simp [SMap.insert, hlt]
    · by_cases he : k = j
      · simp [SMap.insert, he]
      · simp [SMap.insert, hlt, he, ih]

/-- A copy is changed in its slot alone. -/
theorem modCopy_ctx {s : State} {x sl : Nat} {c : Ctx} {y : Copy} (h : s.CtxIs x c) (hy : c.slots.find? sl = some y) (f : Copy → Copy) :
    (s.modCopy x sl f).CtxIs x { c with slots := c.slots.insert sl (f y) } := by
  unfold State.CtxIs at h ⊢
  rw [State.modCopy, SMap.find_modify, if_pos rfl, h]
  simp only [Option.map_some, SMap.modify, hy]

theorem copyAt_ctx {s : State} {x : Nat} {c : Ctx} (h : s.CtxIs x c) (sl : Nat) : s.copyAt x sl = c.slots.find? sl := by
  unfold State.CtxIs at h
  simp only [State.copyAt, h]

theorem State.SameEngines.ctxIs {s u : State} (h : s.SameEngines u) {x : Nat} {c : Ctx} (hc : s.CtxIs x c) : u.CtxIs x c := by
  unfold State.CtxIs
  rw [h.1]
  exact hc

theorem finished_live (tl : Tile) (c : Copy) : (tl.finished c).live = tl.live - 1 := by
  unfold Tile.finished Tile.settleFill
  dsimp only
  split
  · split <;> rfl
  · split <;> rfl

theorem tile_congr {s s' : State} (h : s'.tiles = s.tiles) (c n : Nat) : s'.tile c n = s.tile c n := by rw [State.tile, State.tile, h]

theorem tile_setTile (s : State) (c n : Nat) (tl : Tile) : (s.setTile c n tl).tile c n = tl := by
  rw [State.tile, State.setTile, SMap.getD_setD, if_pos rfl]

theorem tokenDown_token {s : State} {w : Nat} (h : (s.wgs.find? w).isSome) (k : Nat) :
    ((s.tokenDown w k).wgOf w).tokens.getD k 0 = (s.wgOf w).tokens.getD k 0 - 1 := by
  rw [State.wgOf, State.tokenDown, SMap.getD_modify _ _ _ _ _ h, if_pos rfl, SMap.getD_setD, if_pos rfl]
  rfl

/-- The tile of a copy that completes, if it has one, as the completion leaves it. -/
def State.tileFinished (s : State) (x : Nat) (y : Copy) : State :=
  match y.tile with
  | some n => s.setTile (coreOfCtx x) n ((s.tile (coreOfCtx x) n).finished y)
  | none => s

theorem tileFinished_frame (s : State) (x : Nat) (y : Copy) : s.tileFinished x y = { s with tiles := (s.tileFinished x y).tiles } := by
  unfold State.tileFinished
  split <;> rfl

theorem tileFinished_live (s : State) (x : Nat) (y : Copy) {n : Nat} (h : y.tile = some n) :
    ((s.tileFinished x y).tile (x / 4) n).live = (s.tile (x / 4) n).live - 1 := by
  unfold State.tileFinished
  rw [h]
  exact (congrArg Tile.live (tile_setTile s _ _ _)).trans (finished_live _ _)

/-- A copy that has written all: its tile's transition, its token, its slot. -/
theorem finishCopy_eq {s : State} {x sl : Nat} {c : Ctx} {y : Copy} (h : s.CtxIs x c) (hy : c.slots.find? sl = some y) :
    s.finishCopy x sl =
      { (s.tileFinished x y).tokenDown y.w y.token with ctxs := s.ctxs.insert x { c with slots := c.slots.erase sl } } := by
  have hctx : s.ctxs.modify x (fun z => { z with slots := z.slots.erase sl }) = s.ctxs.insert x { c with slots := c.slots.erase sl } := by
    unfold State.CtxIs at h
    rw [SMap.modify, h]
  have hframe := tileFinished_frame s x y
  unfold State.finishCopy
  rw [copyAt_ctx h, hy, ← hctx]
  dsimp only
  change { (s.tileFinished x y).tokenDown y.w y.token with
    ctxs := (s.tileFinished x y).ctxs.modify x fun z => { z with slots := z.slots.erase sl } } = _
  rw [hframe]

theorem finishCopy_spec {s : State} {x sl : Nat} {c : Ctx} {y : Copy} (h : s.CtxIs x c) (hy : c.slots.find? sl = some y) :
    (s.finishCopy x sl).CtxIs x { c with slots := c.slots.erase sl } ∧ (s.finishCopy x sl).mem = s.mem ∧
    (s.finishCopy x sl).teams = s.teams ∧
    ((s.wgs.find? y.w).isSome → ((s.finishCopy x sl).wgOf y.w).tokens.getD y.token 0 = (s.wgOf y.w).tokens.getD y.token 0 - 1) ∧
    ∀ n, y.tile = some n → ((s.finishCopy x sl).tile (x / 4) n).live = (s.tile (x / 4) n).live - 1 := by
  have hframe := tileFinished_frame s x y
  have hwgs : (s.tileFinished x y).wgs = s.wgs := by rw [hframe]
  have htiles : (s.finishCopy x sl).tiles = (s.tileFinished x y).tiles := by rw [finishCopy_eq h hy, State.tokenDown]
  have hwg : (s.finishCopy x sl).wgOf y.w = ((s.tileFinished x y).tokenDown y.w y.token).wgOf y.w := by
    rw [State.wgOf, State.wgOf, finishCopy_eq h hy]
  refine ⟨?_, ?_, ?_, fun hw => ?_, fun n hn => ?_⟩
  · rw [finishCopy_eq h hy]
    exact SMap.find_insert_self _ _ _
  · rw [finishCopy_eq h hy, State.tokenDown, hframe]
  · rw [finishCopy_eq h hy, State.tokenDown, hframe]
  · rw [hwg, tokenDown_token (by rw [hwgs]; exact hw), State.wgOf, State.wgOf, hwgs]
  · rw [tile_congr htiles, tileFinished_live s x y hn]

/-! ### Runs of units (R239) -/

theorem runUnit_fault {s u : State} {x sl cause ea : Nat} {gpa : Option (Nat × Bool)} (h : s.runUnit x sl = .fault u cause ea gpa) :
    s.SameEngines u := by
  unfold State.runUnit at h
  split at h
  · cases h
  · next c hc =>
    split at h
    · cases h
    split at h
    · cases h
    have hunit := unit_engines s x c
    split at h
    · next v _ _ _ hv =>
      cases h
      rw [hv] at hunit
      exact hunit
    · cases h

/-- The unit that meets a fault leaves the copies as the units before it left them. -/
theorem runUnits_fault {s t u : State} {x sl fuel cause ea : Nat} {gpa : Option (Nat × Bool)}
    (h : s.runUnits x sl fuel = (t, .fault u cause ea gpa)) : t.SameEngines u := by
  induction fuel generalizing s with
  | zero => cases h
  | succ fuel ih =>
    rw [State.runUnits] at h
    cases hrun : s.runUnit x sl with
    | ok v =>
      rw [hrun] at h
      exact ih h
    | fault v c e g =>
      rw [hrun] at h
      obtain ⟨rfl, he⟩ := Prod.mk.inj h
      cases he
      exact runUnit_fault hrun
    | all =>
      rw [hrun] at h
      cases (Prod.mk.inj h).2
    | idle =>
      rw [hrun] at h
      cases (Prod.mk.inj h).2

/-- A copy of which every byte is written has no unit left. -/
theorem runUnits_all {s : State} {x sl : Nat} {c : Ctx} {y : Copy} (h : s.CtxIs x c) (hy : c.slots.find? sl = some y) (hst : y.st = 1)
    (hoff : y.total ≤ y.off) : s.runUnits x sl (s.unitFuel x sl) = (s, .all) := by
  have hat : s.copyAt x sl = some y := (copyAt_ctx h sl).trans hy
  have hrun : s.runUnit x sl = .all := by
    unfold State.runUnit
    simp [hat, hst, hoff]
  have hfuel : s.unitFuel x sl = 1 := by
    unfold State.unitFuel
    rw [hat]
    exact congrArg (· + 1) (Nat.sub_eq_zero_of_le hoff)
  rw [hfuel, State.runUnits, hrun]

theorem copyComplete_eq {s t : State} {x sl : Nat} (h : s.runUnits x sl (s.unitFuel x sl) = (t, .all)) :
    exec (.bellowsCopyComplete x sl) s = .next (t.finishCopy x sl) := by
  change execBellowsCopyComplete x sl s = _
  rw [execBellowsCopyComplete, h]

/-! ### Faults of copies (R239, R240) -/

theorem submit_waits (s : State) (ten : Nat) (f : SFault) :
    ∃ f' ∈ ((s.submit ten f).tenant ten).faults, f'.waiter = f.waiter ∧ f'.cause = f.cause := by
  unfold State.submit
  dsimp only
  rw [tenant_setTenant, if_pos rfl]
  exact ⟨_, List.mem_append_right _ List.mem_cons_self, rfl, rfl⟩

/-- A copy whose fault is lost stands in its slot, ended. -/
theorem copyLost_ctx {s : State} {x sl : Nat} {c : Ctx} {y : Copy} (h : s.CtxIs x c) (hy : c.slots.find? sl = some y) (ea : Nat) :
    (s.copyLost x sl ea).CtxIs x { c with slots := c.slots.insert sl { y with st := 4 } } := by
  unfold State.copyLost
  rw [copyAt_ctx h, hy]
  exact (side_report _ _ _).engines.ctxIs (modCopy_ctx h hy _)

theorem copyFaultStop_stops {s t u : State} {x sl cause ea : Nat} {gpa : Option (Nat × Bool)} {c : Ctx} {y : Copy}
    (h : s.runUnits x sl (s.unitFuel x sl) = (t, .fault u cause ea gpa)) (hu : u.CtxIs x c) (hy : c.slots.find? sl = some y) :
    Completes (.copyFaultStop x sl) s fun s' => s'.CtxIs x { c with
        slots := c.slots.insert sl { y with st := if cause = 4 then 4 else 2, cause := cause } } ∧
        (cause ≠ 4 → ∃ f ∈ (s'.tenant (u.wgOf y.w).ten).faults, f.waiter = .copy x sl ∧ f.cause = cause) := by
  have he : exec (.copyFaultStop x sl) s = execCopyFaultStop x sl s := rfl
  obtain ⟨hctxs, -, -⟩ := runUnits_fault h
  have hat : t.copyAt x sl = some y := by
    have ht : t.CtxIs x c := by
      unfold State.CtxIs
      rw [← hctxs]
      exact hu
    rw [copyAt_ctx ht, hy]
  simp only [execCopyFaultStop, h, hat] at he
  have hmod := modCopy_ctx hu hy fun c => { c with st := 2, cause := cause }
  by_cases hc : cause = 4
  · subst hc
    refine ⟨_, he, ?_, fun hn => absurd rfl hn⟩
    have hlost := copyLost_ctx hmod (SMap.find_insert_self _ _ _) ea
    rw [SMap.insert_insert] at hlost
    exact hlost
  · simp only [if_neg hc] at he ⊢
    refine ⟨_, he, hmod, fun _ => ?_⟩
    obtain ⟨f, hf, hwait, hcause⟩ := submit_waits (u.modCopy x sl fun c => { c with st := 2, cause := cause }) (u.wgOf y.w).ten _
    refine ⟨f, hf, hwait.trans ?_, hcause.trans ?_⟩
    · cases gpa <;> rfl
    · cases gpa <;> rfl

end Sys2Proof.Machine
end

section
/-! SUPPORT. Matrix operations start, complete and fail (O50). -/

namespace Sys2Proof.Machine

/-! ### The operation under a number (R252) -/

theorem wgOf_setWg (s : State) (w : Nat) (g : Wg) : (s.setWg w g).wgOf w = g := by
  rw [State.wgOf, State.setWg, SMap.getD_insert, if_pos rfl]

theorem opAt_num {s : State} {w op : Nat} {m : MOp} (h : s.opAt w op = some m) : m.num = op := by
  have hnum := List.find?_some h
  simpa using hnum

/-- A workgroup that holds an operation is there. -/
theorem wg_of_opAt {s : State} {w op : Nat} {m : MOp} (h : s.opAt w op = some m) : (s.wgs.find? w).isSome := by
  unfold State.opAt State.wgOf SMap.getD at h
  cases hw : s.wgs.find? w with
  | some g => rfl
  | none =>
    rw [hw] at h
    cases h

theorem opAt_congr {s s' : State} {w : Nat} (h : (s'.wgOf w).mops = (s.wgOf w).mops) (op : Nat) : s'.opAt w op = s.opAt w op := by
  rw [State.opAt, State.opAt, h]

/-- What a replacement of one operation leaves of its workgroup. -/
theorem setOp_wgOf {s : State} {w : Nat} (h : (s.wgs.find? w).isSome) (m : MOp) : (s.setOp w m).wgOf w =
    { s.wgOf w with mops := (s.wgOf w).mops.map fun x => if x.num = m.num then m else x } := by
  rw [State.wgOf, State.setOp, SMap.getD_modify _ _ _ _ _ h, if_pos rfl]
  rfl

/-- An operation that is replaced in its place. -/
theorem opAt_setOp {s : State} {w op : Nat} {m m' : MOp} (h : s.opAt w op = some m) (hn : m'.num = op) : (s.setOp w m').opAt w op = some m' := by
  have hm := opAt_num h
  rw [State.opAt, setOp_wgOf (wg_of_opAt h), List.find?_map]
  have hsame : ((fun m : MOp => m.num == op) ∘ fun x => if x.num = m'.num then m' else x) = fun m => m.num == op := by
    funext x
    simp only [Function.comp]
    split
    · next hx => rw [hx]
    · rfl
  rw [hsame]
  unfold State.opAt at h
  rw [h, Option.map_some, if_pos (hm.trans hn.symm)]

/-! ### Operations end (R252, R262) -/

theorem opDone_mops (g : Wg) (num : Nat) : (g.opDone num).mops = g.mops.filter fun m => m.num != num := rfl
theorem opDone_ten (g : Wg) (num : Nat) : (g.opDone num).ten = g.ten := rfl

/-- An operation that is done stands in no queue. -/
theorem opAt_opDone {s : State} {w num : Nat} {g : Wg} (h : (s.wgOf w).mops = (g.opDone num).mops) : s.opAt w num = none := by
  rw [State.opAt, h, opDone_mops, List.find?_eq_none]
  intro x hx
  simpa using (List.mem_filter.mp hx).2

theorem natPut_low (v lo n x : Nat) : natPut v lo n x % 2 ^ lo = v % 2 ^ lo := by
  have hle : 2 ^ lo * natBits v lo n ≤ v :=
    (Nat.mul_le_mul_left _ (Nat.mod_le _ _)).trans (Nat.mul_div_le v (2 ^ lo))
  rw [natPut, Nat.add_mul_mod_self_right, Nat.mul_comm, Nat.sub_mul_mod hle]

/-- A failure stands in MSTAT: the bit that says so, with a number and a cause above it. -/
theorem mstat_failed (st num cause : Nat) :
    natBit (wordOf (if natBit st 8 then st else natPut (natPut st 16 16 num) 12 4 cause + 256)).toNat 8 = true := by
  have h12 := natPut_low (natPut st 16 16 num) 12 4 cause
  have h16 := natPut_low st 16 16 num
  have hword (v : Nat) : natBit (wordOf v).toNat 8 = natBit v 8 := by
    simp only [natBit, wordOf, BitVec.toNat_ofNat]
    congr 1
    omega
  rw [hword]
  split
  · next h => exact h
  · next h =>
    simp only [natBit, beq_iff_eq] at h ⊢
    omega

/-- What a failed operation leaves of its workgroup's operations: accumulators and arrays change alone. -/
theorem restoreOp_wgOf (s : State) (w : Nat) (m : MOp) :
    ((s.restoreOp w m).wgOf w).mops = (s.wgOf w).mops ∧ ((s.restoreOp w m).wgOf w).ten = (s.wgOf w).ten := by
  have hbut {g g' : Wg} (h : g.SameBut g') : g'.mops = g.mops ∧ g'.ten = g.ten := by
    unfold Wg.SameBut at h
    rw [h]
    exact ⟨rfl, rfl⟩
  unfold State.restoreOp
  split
  · dsimp only
    split
    · exact ⟨rfl, rfl⟩
    · refine foldl_keeps (fun u : State => (u.wgOf w).mops = (s.wgOf w).mops ∧ (u.wgOf w).ten = (s.wgOf w).ten) _
        (fun u p h => ?_) _ _ ⟨rfl, rfl⟩
      obtain ⟨hmops, hten⟩ := h
      split
      · exact ⟨hmops, hten⟩
      · obtain ⟨hm, ht⟩ := hbut (putPlace_wgOf u { path := 2 } (u.wgOf w).ten 0 (u.accPlace w m p.1) _ 0 w)
        exact ⟨hm.trans hmops, ht.trans hten⟩
  · rw [wgOf_setWg]
    exact ⟨rfl, rfl⟩
  · exact ⟨rfl, rfl⟩

theorem failOp_fails (s : State) (w : Nat) (m : MOp) (cause : Nat) :
    natBit ((s.failOp w m cause).wgOf w).mstat.toNat 8 = true ∧ (s.failOp w m cause).opAt w m.num = none := by
  have hwg : ∃ st, (s.failOp w m cause).wgOf w = { ((s.restoreOp w m).wgOf w).opDone m.num with
      mstat := wordOf (if natBit st 8 then st else natPut (natPut st 16 16 m.num) 12 4 cause + 256) } := by
    refine ⟨((s.restoreOp w m).wgOf w).mstat.toNat, ?_⟩
    unfold State.failOp
    dsimp only
    split
    · exact wgOf_setWg _ _ _
    · rw [State.wgOf, side_wgs (side_report _ _ _)]
      exact wgOf_setWg _ _ _
  obtain ⟨st, hwg⟩ := hwg
  refine ⟨?_, opAt_opDone (g := (s.restoreOp w m).wgOf w) (by rw [hwg])⟩
  rw [hwg]
  exact mstat_failed st m.num cause

theorem doneOp_done (s : State) (w : Nat) (m : MOp) :
    (s.doneOp w m).opAt w m.num = none ∧ ((s.doneOp w m).wgOf w).mstat = (s.wgOf w).mstat ||| wordOf m.flags := by
  have hwg : (s.doneOp w m).wgOf w = { (s.wgOf w).opDone m.num with mstat := (s.wgOf w).mstat ||| wordOf m.flags } := wgOf_setWg _ _ _
  exact ⟨opAt_opDone (g := s.wgOf w) (by rw [hwg]), by rw [hwg]⟩

/-! ### The events of an operation (R253, R257, R258, R262..R264) -/

section

variable {s t u : State} {w op : Nat} {m : MOp}

theorem matrixOpStart_eq (h : s.opAt w op = some m) (hc : s.canStart w m = true) : exec (.matrixOpStart w op) s = .next (s.startOp w m) := by
  change execMatrixOpStart w op s = _
  rw [execMatrixOpStart, h]
  dsimp only
  rw [if_pos hc]

/-- An operation whose check finds nothing starts: it runs in its place. -/
theorem startOp_starts (h : s.opAt w op = some m) (hc : (s.wgOf w).startCause m = 0) :
    ∃ m', (s.startOp w m).opAt w op = some m' ∧ m'.st = 1 ∧ m'.num = m.num ∧ m'.blk = m.blk ∧ m'.step = m.step := by
  have hm := opAt_num h
  unfold State.startOp
  dsimp only
  split
  · rw [hc]
    exact ⟨_, opAt_setOp h hm, rfl, rfl, rfl, rfl⟩
  · refine ⟨_, opAt_setOp (m := m) ?_ hm, rfl, rfl, rfl, rfl⟩
    rw [opAt_congr (s := s) (by rw [wgOf_setWg]), h]
  · exact ⟨_, opAt_setOp h hm, rfl, rfl, rfl, rfl⟩

/-- An MLOOP whose check finds a cause fails. -/
theorem startOp_fails (h : s.opAt w op = some m) (hc : (s.wgOf w).startCause m ≠ 0) :
    natBit ((s.startOp w m).wgOf w).mstat.toNat 8 = true ∧ (s.startOp w m).opAt w op = none := by
  have hloop : m.op = .mloop := by
    by_contra hne
    exact hc (if_pos (by simpa using hne))
  obtain ⟨n, hn⟩ := Nat.exists_eq_succ_of_ne_zero hc
  have hstart : s.startOp w m = s.failOp w { m with st := 0 } (n + 1) := by
    unfold State.startOp
    rw [hloop]
    dsimp only
    rw [hn]
  rw [hstart, ← opAt_num h]
  exact failOp_fails s w { m with st := 0 } (n + 1)

/-- An operation of which every step is done has none left. -/
theorem runOps_all (h : s.opAt w op = some m) (hst : m.st = 1) (hstep : m.length ≤ m.step) :
    s.runOps w op (s.opFuel w op) = (s, .all) := by
  have hrun : s.runOp w op = .all := by
    unfold State.runOp
    simp [h, hst, hstep]
  have hfuel : s.opFuel w op = 1 := by
    unfold State.opFuel
    rw [h]
    exact congrArg (· + 1) (Nat.sub_eq_zero_of_le hstep)
  rw [hfuel, State.runOps, hrun]

theorem matrixOpComplete_completes (h : s.runOps w op (s.opFuel w op) = (t, .all)) (hm : t.opAt w op = some m) :
    Completes (.matrixOpComplete w op) s fun s' =>
      s'.opAt w op = none ∧ (s'.wgOf w).mstat = (t.wgOf w).mstat ||| wordOf m.flags ∧ s'.mem = t.mem ∧ s'.teams = t.teams := by
  have he : exec (.matrixOpComplete w op) s = execMatrixOpComplete w op s := rfl
  simp only [execMatrixOpComplete, h, hm] at he
  refine ⟨_, he, ?_⟩
  rw [← opAt_num hm]
  split
  · obtain ⟨hnone, hstat⟩ := doneOp_done (t.setWg w { t.wgOf w with
      barrs := m.arrays.foldl (fun b a => b.modify a fun x => { x with st := 2 }) (t.wgOf w).barrs }) w m
    rw [wgOf_setWg] at hstat
    exact ⟨hnone, hstat, rfl, rfl⟩
  · obtain ⟨hnone, hstat⟩ := doneOp_done t w m
    exact ⟨hnone, hstat, rfl, rfl⟩

theorem matrixOpFault_fails {cause ea : Nat} (h : s.runOps w op (s.opFuel w op) = (t, .fault u cause ea)) (hm : t.opAt w op = some m)
    (hc : 16 ≤ cause ∨ cause = 4) : Completes (.matrixOpFault w op) s fun s' =>
      natBit (s'.wgOf w).mstat.toNat 8 = true ∧ s'.opAt w op = none := by
  have he : exec (.matrixOpFault w op) s = execMatrixOpFault w op s := rfl
  simp only [execMatrixOpFault, h, hm] at he
  obtain rfl := opAt_num hm
  by_cases h16 : 16 ≤ cause
  · rw [if_pos h16] at he
    exact ⟨_, he, failOp_fails u w m _⟩
  · rw [if_neg h16, if_pos (hc.resolve_left h16)] at he
    exact ⟨_, he, failOp_fails u w m _⟩

theorem matrixOpFault_waits {cause ea : Nat} (h : s.runOps w op (s.opFuel w op) = (t, .fault u cause ea)) (hm : t.opAt w op = some m)
    (h16 : cause < 16) (h4 : cause ≠ 4) (hu : u.opAt w op = some m) : Completes (.matrixOpFault w op) s fun s' =>
      s'.opAt w op = some { m with st := 2, step := 0, flags := 0 } ∧
      ∃ f ∈ (s'.tenant (u.wgOf w).ten).faults, f.waiter = .mop w op ∧ f.cause = cause := by
  have he : exec (.matrixOpFault w op) s = execMatrixOpFault w op s := rfl
  simp only [execMatrixOpFault, h, hm, if_neg (Nat.not_le.mpr h16), if_neg h4] at he
  obtain ⟨hmops, hten⟩ := restoreOp_wgOf u w m
  have hnum : m.num = op := opAt_num hm
  have hr : (u.restoreOp w m).opAt w op = some m := (opAt_congr hmops op).trans hu
  have hset : ((u.restoreOp w m).setOp w { m with st := 2, step := 0, flags := 0 }).opAt w op = some { m with st := 2, step := 0, flags := 0 } :=
    opAt_setOp hr hnum
  have hten' : (((u.restoreOp w m).setOp w { m with st := 2, step := 0, flags := 0 }).wgOf w).ten = (u.wgOf w).ten := by
    rw [setOp_wgOf (wg_of_opAt hr)]
    exact hten
  refine ⟨_, he, hset, ?_⟩
  rw [← hten']
  exact submit_waits _ _ _

end

end Sys2Proof.Machine
end

section
/-! SUPPORT. Transforms and granules, and the engines together (O50). -/

namespace Sys2Proof.Machine

/-! ### Zeros written to whole blocks (R276) -/

/-- How a pool takes one block of a write. -/
def poolStep (acc : Memory × NSet) (p : Nat × List Byte) : Memory × NSet :=
  if p.2.length = 64 then (acc.1.writeN p.1 p.2, acc.2.erase (p.1 / 64))
  else if acc.2.has (p.1 / 64) then acc
  else (acc.1.writeN p.1 p.2, acc.2)

theorem putPool_eq (m : Memory) (bad : NSet) (o : Nat) (bs : List Byte) :
    putPool m bad o bs = (blockPieces bs.length o bs).foldl poolStep (m, bad) := rfl

/-- Whole blocks of zeros leave zeros where they go and where zeros were. -/
theorem foldl_poolStep_zeros (n fuel o : Nat) (acc : Memory × NSet) (ho : o % 64 = 0) (hf : n ≤ fuel) (j : Nat)
    (hj : (o ≤ j ∧ j < o + 64 * n) ∨ acc.1.read j = 0) :
    ((blockPieces fuel o (List.replicate (64 * n) 0)).foldl poolStep acc).1.read j = 0 := by
  induction n generalizing fuel o acc with
  | zero =>
    have hread : acc.1.read j = 0 := hj.resolve_left (by omega)
    cases fuel <;> exact hread
  | succ n ih =>
    obtain ⟨f, rfl⟩ : ∃ f, fuel = f + 1 := ⟨fuel - 1, by omega⟩
    have hpieces : blockPieces (f + 1) o (List.replicate (64 * (n + 1)) (0 : Byte)) =
        (o, List.replicate 64 0) :: blockPieces f (o + 64) (List.replicate (64 * n) 0) := by
      rw [show 64 * (n + 1) = 64 * n + 63 + 1 from rfl, List.replicate_succ, blockPieces, ← List.replicate_succ, ho]
      · simp
      · simp
    rw [hpieces, List.foldl_cons]
    refine ih f (o + 64) _ (by omega) (by omega) ?_
    have hstep : (poolStep acc (o, List.replicate 64 0)).1.read j = if o ≤ j ∧ j < o + 64 then 0 else acc.1.read j := by
      rw [poolStep, if_pos (List.length_replicate ..), Memory.read_writeN, List.length_replicate]
      split
      · next h =>
        exact List.getD_replicate 0 (show j - o < 64 by omega)
      · rfl
    rw [hstep]
    by_cases h : o ≤ j ∧ j < o + 64
    · exact .inr (if_pos h)
    · rw [if_neg h]
      exact hj.imp_left (by omega)

theorem readN_zeros (m : Memory) (a n : Nat) (h : ∀ j, a ≤ j → j < a + n → m.read j = 0) : m.readN a n = List.replicate n 0 := by
  induction n generalizing a with
  | zero => rfl
  | succ n ih =>
    rw [Memory.readN, List.replicate_succ, h a (Nat.le_refl a) (by omega), ih (a + 1) fun j hl hu => h j (by omega) (by omega)]

theorem putPool_zeros (m : Memory) (bad : NSet) (o n : Nat) (ho : o % 64 = 0) (hn : n % 64 = 0) :
    (putPool m bad o (List.replicate n 0)).1.readN o n = List.replicate n 0 := by
  obtain ⟨k, rfl⟩ : ∃ k, n = 64 * k := ⟨n / 64, by omega⟩
  refine readN_zeros _ _ _ fun j hl hu => ?_
  rw [putPool_eq, List.length_replicate]
  exact foldl_poolStep_zeros k (64 * k) o _ ho (by omega) j (.inl ⟨hl, hu⟩)

/-! ### A place of a tile (R230, R273) -/

/-- A write to a tile touches neither system memory nor the engines' own state. -/
theorem putTile_mem (s : State) (by' : Writer) (ten gpa : Nat) (tl : Tile) (w o : Nat) (bs : List Byte) (kt : Nat) :
    (s.putPlace by' ten gpa (tl.place w o) bs kt).mem = s.mem := by
  unfold Tile.place State.putPlace
  cases tl.acc <;> rfl

/-- A tile of whole blocks that is cleared reads as zeros. -/
theorem placeBytes_clear {s : State} {w : Nat} (hw : (s.wgs.find? w).isSome) (tl : Tile) (hb : tl.base % 64 = 0) (hs : tl.size % 64 = 0)
    (by' : Writer) (ten gpa kt : Nat) :
    (s.putPlace by' ten gpa (tl.place w 0) (List.replicate tl.size 0) kt).placeBytes (tl.place w 0) tl.size = List.replicate tl.size 0 := by
  unfold Tile.place
  cases tl.acc with
  | true =>
    simp only [if_true, State.putPlace, State.placeBytes, State.wgOf]
    rw [SMap.getD_modify _ _ _ _ _ hw, if_pos rfl]
    exact putPool_zeros _ _ _ _ hb hs
  | false =>
    simp only [Bool.false_eq_true, if_false, State.putPlace, State.placeBytes, State.wgOf, State.noteScr]
    rw [SMap.getD_modify _ _ _ _ _ hw, if_pos rfl]
    exact putPool_zeros _ _ _ _ hb hs

theorem placeBad_congr {s s' : State} (h : s'.wgs = s.wgs) (tl : Tile) (w o kt : Nat) :
    s'.placeBad (tl.place w o) kt = s.placeBad (tl.place w o) kt := by
  unfold Tile.place
  cases tl.acc <;> simp only [Bool.false_eq_true, if_true, if_false, State.placeBad, State.wgOf, h]

theorem NSet.has_insert (m : NSet) (k j : Nat) : SMap.has (SMap.insert m k ()) j = (decide (j = k) || SMap.has m j) := by
  rw [SMap.has, SMap.find_insert]
  by_cases h : j = k <;> simp [h, SMap.has]

/-- A block of a tile that is spoiled is bad; the tile's other bad blocks stay bad, and its workgroup stays. -/
theorem spoilTile_spec {s : State} {w : Nat} (hw : (s.wgs.find? w).isSome) (tl : Tile) (ten o : Nat) :
    ((s.spoil ten (tl.place w o)).wgs.find? w).isSome ∧ (s.spoil ten (tl.place w o)).placeBad (tl.place w o) 0 = true ∧
    ∀ o', s.placeBad (tl.place w o') 0 = true → (s.spoil ten (tl.place w o)).placeBad (tl.place w o') 0 = true := by
  unfold Tile.place
  cases tl.acc with
  | true =>
    simp only [if_true, State.spoil, State.placeBad, State.wgOf]
    rw [SMap.getD_modify _ _ _ _ _ hw, if_pos rfl, SMap.find_modify, if_pos rfl]
    refine ⟨by simpa using hw, ?_, fun o' h => ?_⟩
    · simp [NSet.has_insert]
    · simp only [NSet.has_insert]
      simp [h]
  | false =>
    simp only [Bool.false_eq_true, if_false, State.spoil, State.placeBad, State.wgOf]
    rw [SMap.getD_modify _ _ _ _ _ hw, if_pos rfl, SMap.find_modify, if_pos rfl]
    refine ⟨by simpa using hw, ?_, fun o' h => ?_⟩
    · simp [NSet.has_insert]
    · simp only [NSet.has_insert]
      simp [h]

/-! ### The events of a transform (R276) -/

section

variable {s t : State} {c : Nat} {x : XOp} {xs : List XOp}

theorem xq_getD (h : s.xq.find? c = some (x :: xs)) : s.xq.getD c [] = x :: xs := by rw [SMap.getD, h]; rfl

theorem setXfm_xq (h : s.xq.find? c = some (x :: xs)) (x' : XOp) : (s.setXfm c x').xq.find? c = some (x' :: xs) := by
  rw [State.setXfm, SMap.find_modify, if_pos rfl, h]
  rfl

theorem endXfm_xq (h : s.xq.find? c = some (x :: xs)) (y : XOp) : (s.endXfm c y).xq.find? c = some xs := by
  have hq : (s.endXfm c y).xq = s.xq.modify c (List.drop 1) := rfl
  rw [hq, SMap.find_modify, if_pos rfl, h]
  rfl

theorem endXfm_tile (s : State) (c : Nat) (x : XOp) : (s.endXfm c x).tile c x.dst = { s.tile c x.dst with st := 2 } := by
  rw [State.endXfm]
  exact tile_setTile s c x.dst _

/-- The transform at the head starts, on a destination that CLR clears. -/
theorem transformStart_starts (h : s.xq.find? c = some (x :: xs)) (hst : x.started = false) : Completes (.transformStart c) s fun s' =>
    (∃ old, s'.xq.find? c = some ({ x with started := true, vec := 0, old := old } :: xs)) ∧ s'.mem = s.mem ∧
    (x.clr = true → (s.tile c x.dst).base % 64 = 0 → (s.tile c x.dst).size % 64 = 0 → (s.wgs.find? x.w).isSome →
      s'.placeBytes (s.xPlace c x x.dst 0) (s.tile c x.dst).size = List.replicate (s.tile c x.dst).size 0) := by
  have he : exec (.transformStart c) s = .next (s.startXfm c x) := by
    change execTransformStart c s = _
    rw [execTransformStart, xq_getD h]
    simp [hst]
  refine ⟨_, he, ?_⟩
  unfold State.startXfm
  dsimp only
  cases hclr : x.clr with
  | true =>
    obtain ⟨-, hq, -⟩ := putPlace_engines s { path := 3 } 0 0 (s.xPlace c x x.dst 0) (List.replicate (s.tile c x.dst).size 0) 0
    refine ⟨⟨_, setXfm_xq (x := x) ?_ _⟩, putTile_mem s _ _ _ _ _ _ _ _, fun _ hb hs hw => placeBytes_clear hw _ hb hs _ _ _ _⟩
    rw [if_pos rfl, hq]
    exact h
  | false => exact ⟨⟨_, setXfm_xq h _⟩, rfl, fun hc => nomatch hc⟩

/-- A transform whose remaining vectors end at once. -/
theorem runXfms_ends {e : XEnd} (h : s.runXfm c = e) (he : ∀ u, e ≠ .ok u) (fuel : Nat) : s.runXfms c (fuel + 1) = (s, e) := by
  rw [State.runXfms, h]
  cases e with
  | ok u => exact absurd rfl (he u)
  | _ => rfl

theorem transformComplete_completes (h : t.xq.find? c = some (x :: xs)) (hr : s.runXfms c 65536 = (t, .all x)) :
    Completes (.transformComplete c) s fun s' =>
      s'.xq.find? c = some xs ∧ s'.tile c x.dst = { t.tile c x.dst with st := 2 } ∧ s'.wgs = t.wgs ∧ s'.mem = t.mem := by
  have he : exec (.transformComplete c) s = execTransformComplete c s := rfl
  rw [execTransformComplete, hr] at he
  exact ⟨_, he, endXfm_xq h x, endXfm_tile t c x, rfl, rfl⟩

/-- The blocks of a destination are spoiled one after another. -/
def State.spoilAll (s : State) (c : Nat) (x : XOp) (os : List Nat) : State := os.foldl (fun s o => s.spoil 0 (s.xPlace c x x.dst o)) s

theorem spoilAll_engines (s : State) (c : Nat) (x : XOp) (os : List Nat) : s.SameEngines (s.spoilAll c x os) :=
  foldl_keeps s.SameEngines _ (fun u o h => h.trans (spoil_engines u 0 (u.xPlace c x x.dst o))) os s (.refl s)

/-- Each of them is then bad. -/
theorem spoilAll_bad (hw : (s.wgs.find? x.w).isSome) {os : List Nat} {o : Nat} (ho : o ∈ os) :
    (s.spoilAll c x os).placeBad (s.xPlace c x x.dst o) 0 = true := by
  have hplace {u : State} (h : s.SameEngines u) (o : Nat) : u.xPlace c x x.dst o = (s.tile c x.dst).place x.w o := by
    obtain ⟨-, -, ht⟩ := h
    rw [State.xPlace, tile_congr ht]
  refine foldl_reaches (fun u : State => s.SameEngines u ∧ (u.wgs.find? x.w).isSome) (fun u => u.placeBad (s.xPlace c x x.dst o) 0 = true)
    (fun (u : State) o => u.spoil 0 (u.xPlace c x x.dst o)) (fun u a h => ?_) (fun u a h hbad => ?_) (fun u h => ?_) ho ⟨.refl s, hw⟩
  · obtain ⟨hsame, hin⟩ := h
    refine ⟨hsame.trans (spoil_engines _ _ _), ?_⟩
    rw [hplace hsame]
    exact (spoilTile_spec hin _ 0 a).1
  · obtain ⟨hsame, hin⟩ := h
    rw [hplace hsame]
    exact (spoilTile_spec hin _ 0 a).2.2 o hbad
  · obtain ⟨hsame, hin⟩ := h
    rw [hplace hsame, State.xPlace]
    exact (spoilTile_spec hin _ 0 o).2.1

/-- A failed transform leaves the queue, its destination READY and spoiled. -/
theorem failXfm_fails (h : s.xq.find? c = some (x :: xs)) (cause : Nat) : (s.failXfm c x cause).xq.find? c = some xs ∧
    ((s.failXfm c x cause).tile c x.dst).st = 2 ∧ ((s.wgs.find? x.w).isSome → ∀ o ∈ s.xBlocks c x,
      (s.failXfm c x cause).placeBad (s.xPlace c x x.dst o) 0 = true) := by
  obtain ⟨-, hq, -⟩ := spoilAll_engines s c x (s.xBlocks c x)
  obtain ⟨e, he⟩ : ∃ e, s.failXfm c x cause = ((s.spoilAll c x (s.xBlocks c x)).endXfm c x).report (srcTransform c) e := ⟨_, rfl⟩
  have hside := side_report ((s.spoilAll c x (s.xBlocks c x)).endXfm c x) (srcTransform c) e
  obtain ⟨-, hrq, hrt⟩ := hside.engines
  rw [he]
  refine ⟨?_, ?_, fun hw o ho => ?_⟩
  · rw [hrq]
    exact endXfm_xq (by rw [hq]; exact h) x
  · rw [tile_congr hrt, endXfm_tile]
  · have hend : ((s.spoilAll c x (s.xBlocks c x)).endXfm c x).wgs = (s.spoilAll c x (s.xBlocks c x)).wgs := rfl
    have hbad := spoilAll_bad (c := c) hw ho
    rw [State.xPlace] at hbad ⊢
    rw [placeBad_congr ((side_wgs hside).trans hend), hbad]

theorem transformFail_internal (h : s.xq.find? c = some (x :: xs)) (hst : x.started = true) : Completes (.transformFail c true) s fun s' =>
    s'.xq.find? c = some xs ∧ (s'.tile c x.dst).st = 2 := by
  have he : exec (.transformFail c true) s = .next (s.failXfm c x 0) := by
    change execTransformFail c true s = _
    rw [execTransformFail, if_pos rfl, xq_getD h]
    simp [hst]
  obtain ⟨hxq, htile, -⟩ := failXfm_fails h 0
  exact ⟨_, he, hxq, htile⟩

theorem transformFail_poisoned (h : t.xq.find? c = some (x :: xs)) (hr : s.runXfms c 65536 = (t, .poison x)) :
    Completes (.transformFail c false) s fun s' => s'.xq.find? c = some xs ∧ (s'.tile c x.dst).st = 2 ∧
      ((t.wgs.find? x.w).isSome → ∀ o ∈ t.xBlocks c x, s'.placeBad (t.xPlace c x x.dst o) 0 = true) := by
  have he : exec (.transformFail c false) s = .next (t.failXfm c x 5) := by
    change execTransformFail c false s = _
    rw [execTransformFail, if_neg (by decide), hr]
  exact ⟨_, he, failXfm_fails h 5⟩

theorem runXfm_all (h : s.xq.find? c = some (x :: xs)) (hst : x.started = true) (hv : x.vcnt ≤ x.vec) : s.runXfm c = .all x := by
  rw [State.runXfm, xq_getD h]
  simp [hst, hv]

theorem runXfm_poison (h : s.xq.find? c = some (x :: xs)) (hst : x.started = true) (hv : x.vec < x.vcnt) (hp : s.xPoison c x x.vec = true) :
    s.runXfm c = .poison x := by
  rw [State.runXfm, xq_getD h]
  simp [hst, hv, hp]

end

/-! ### Granules (R84) -/

/-- What the end of a workgroup leaves of the tables that hold it. -/
theorem freeWg_spec (s : State) (w : Nat) : (s.freeWg w).wgs = s.wgs.erase w ∧
    (s.freeWg w).tiles = s.tiles.filter (fun (x : Nat × Tile) => !(x.1 / 64 == coreOfWg w && x.2.ownedBy w)) ∧
    (s.freeWg w).mem = s.mem ∧ (s.freeWg w).teams = s.teams := by
  unfold State.freeWg
  dsimp only
  split
  · exact ⟨rfl, rfl, rfl, rfl⟩
  · split
    · unfold State.endReel
      split
      · exact ⟨rfl, rfl, rfl, rfl⟩
      · exact ⟨rfl, rfl, rfl, rfl⟩
    · exact ⟨rfl, rfl, rfl, rfl⟩

/-- The workgroup's tiles leave with it. -/
theorem freeWg_tiles (s : State) (w n : Nat) (hn : n < 64) : ((s.freeWg w).tile (w / 16) n).ownedBy w = false := by
  obtain ⟨-, htiles, -, -⟩ := freeWg_spec s w
  rw [State.tile, htiles, SMap.getD]
  cases hf : SMap.find? (s.tiles.filter fun (x : Nat × Tile) => !(x.1 / 64 == coreOfWg w && x.2.ownedBy w)) (w / 16 * 64 + n) with
  | none =>
    simp [Tile.ownedBy, Tile.empty]
  | some tl =>
    have hkeep := (List.mem_filter.mp (SMap.mem_of_find _ hf)).2
    have hcore : (w / 16 * 64 + n) / 64 = coreOfWg w := by
      unfold coreOfWg
      omega
    simpa [hcore] using hkeep

theorem granuleReturn_frees {s : State} {w : Nat} (hh : s.wgs.has w = true) (ht : (s.teamsOfWg w).isEmpty = true)
    (hl : (s.wgOf w).teamsLeft = 0) (he : s.engineWork w = false) : exec (.granuleReturn w) s = .next (s.freeWg w) := by
  change execGranuleReturn w s = _
  simp [execGranuleReturn, hh, ht, hl, he]

/-- Settles O50, engine by engine: copies end by `finishCopy_spec` and `copyFaultStop_stops`, operations by `doneOp_done` and `failOp_fails`,
transforms by `endXfm` and `failXfm_fails`, and a workgroup by `freeWg_spec`. -/
theorem engineEvents : Obligations.EngineEvents := by
  unfold Obligations.EngineEvents
  refine ⟨fun s t u x sl c y hy => ⟨fun h hc => ?_, fun hc hst hoff hw => ?_, fun cause ea gpa h _ hu => copyFaultStop_stops h hu hy⟩,
    fun s t u w op m _ => ⟨fun h hs hc => ?_, fun h hs hc => ?_, fun h hm => ?_, fun h hst hstep => ?_, fun cause ea h hm =>
      ⟨fun hc => matrixOpFault_fails h hm hc, fun h16 h4 hu => matrixOpFault_waits h hm h16 h4 hu⟩⟩,
    fun s t c x xs => ⟨fun h hst => transformStart_starts h hst, fun h hst => transformFail_internal h hst, fun h hr => ?_,
      fun h hst hv => ?_, fun h hr => ?_, fun h hst hv hp hw => ?_⟩, fun s w hh ht hl he => ?_⟩
  · obtain ⟨hctx, hmem, -, htok, -⟩ := finishCopy_spec hc hy
    exact ⟨_, copyComplete_eq h, hctx, hmem, htok⟩
  · obtain ⟨hctx, hmem, hteams, htok, htile⟩ := finishCopy_spec hc hy
    exact ⟨_, copyComplete_eq (runUnits_all hc hy hst hoff), hctx, hmem, hteams, htok hw, htile⟩
  · exact ⟨_, matrixOpStart_eq h hs, startOp_starts h hc⟩
  · exact ⟨_, matrixOpStart_eq h hs, startOp_fails h hc⟩
  · obtain ⟨s', he, hnone, hstat, -⟩ := matrixOpComplete_completes h hm
    exact ⟨s', he, hnone, hstat⟩
  · exact matrixOpComplete_completes (runOps_all h hst hstep) h
  · obtain ⟨s', he, hxq, htile, hwgs, -⟩ := transformComplete_completes h hr
    exact ⟨s', he, hxq, htile, hwgs⟩
  · exact transformComplete_completes h (runXfms_ends (runXfm_all h hst hv) (fun _ => XEnd.noConfusion) 65535)
  · obtain ⟨s', he, hxq, htile, -⟩ := transformFail_poisoned h hr
    exact ⟨s', he, hxq, htile⟩
  · obtain ⟨s', he, hxq, htile, hbad⟩ := transformFail_poisoned h (runXfms_ends (runXfm_poison h hst hv hp) (fun _ => XEnd.noConfusion) 65535)
    exact ⟨s', he, hxq, htile, hbad hw⟩
  · obtain ⟨hwgs, -, hmem, hteams⟩ := freeWg_spec s w
    refine ⟨_, granuleReturn_frees hh ht hl he, ?_, freeWg_tiles s w, hmem, hteams⟩
    rw [hwgs, SMap.find_erase, if_pos rfl]

end Sys2Proof.Machine
end

section
/-! SUPPORT. Integer arithmetic, logic, shifts and bit fields of the lane set: what each shared computation gives (O1..O6). -/

namespace Sys2Proof.Machine

/-! ### Instructions of one and of two registers (R108) -/

section Results

variable {i : Instr} {s : State} {k : Nat} {t : Team} {r : Run} {g : Guard} (h : s.HasRun k t r) (d a b : BitVec 6)
include h

theorem laneOp_writes_of_eq (f : Team → Nat → Word) {v : Nat → Word} (hi : exec i s = laneOp s g d f) (hv : ∀ l, f t l = v l) :
    LaneWrites i s k t r g (toReg d.toNat v) noFlag :=
  funext hv ▸ laneOp_writes h d f hi

theorem laneOp1_writes (f : Word → Word) {v : Nat → Word} (hi : exec i s = laneOp1 s g d a f) (hv : ∀ l, f (t.get a.toNat l) = v l) :
    LaneWrites i s k t r g (toReg d.toNat v) noFlag :=
  laneOp_writes_of_eq h d (fun t l => f (t.get a.toNat l)) hi hv

theorem laneOp2_writes (f : Word → Word → Word) {v : Nat → Word} (hi : exec i s = laneOp2 s g d a b f)
    (hv : ∀ l, f (t.get a.toNat l) (t.get b.toNat l) = v l) : LaneWrites i s k t r g (toReg d.toNat v) noFlag :=
  laneOp_writes_of_eq h d (fun t l => f (t.get a.toNat l) (t.get b.toNat l)) hi hv

theorem laneFlagOp2_writes (f : Word → Word → Word × Word) {v fl : Nat → Word} (hi : exec i s = laneFlagOp2 s g d a b f)
    (hv : ∀ l, f (t.get a.toNat l) (t.get b.toNat l) = (v l, fl l)) : LaneWrites i s k t r g (toReg d.toNat v) fl := by
  have hw := laneFlagOp_writes h d (fun t l => f (t.get a.toNat l) (t.get b.toNat l)) hi
  simpa only [hv] using hw

end Results

/-! ### Sums and differences (Table 7.2) -/

theorem clampSA_eq (lo hi v : Int) (h : lo ≤ hi) :
    clampSA lo hi v = (BitVec.ofInt 32 (max lo (min hi v)), if v < lo ∨ hi < v then flSA else 0) := by
  unfold clampSA
  split
  · next hlo => rw [max_eq_left ((min_le_right hi v).trans hlo.le), if_pos (.inl hlo)]
  · next hlo =>
    split
    · next hhi => rw [min_eq_left hhi.le, max_eq_right h, if_pos (.inr hhi)]
    · next hhi => rw [min_eq_right (not_lt.mp hhi), max_eq_right (not_lt.mp hlo), if_neg (not_or.mpr ⟨hlo, hhi⟩)]

theorem satI_eq (v : Int) : satI v =
    (BitVec.ofInt 32 (max (-2147483648) (min 2147483647 v)), if v < -2147483648 ∨ 2147483647 < v then flSA else 0) :=
  clampSA_eq (-(2 ^ 31)) (2 ^ 31 - 1) v (by decide)

theorem satN_eq (v : Int) : satN v = (BitVec.ofInt 32 (max 0 (min 4294967295 v)), if v < 0 ∨ 4294967295 < v then flSA else 0) :=
  clampSA_eq 0 (2 ^ 32 - 1) v (by decide)

theorem absdiff_eq (a b : Int) : absdiff a b = BitVec.ofNat 32 (a - b).natAbs := by
  have habs : (if b ≤ a then a - b else b - a) = ((a - b).natAbs : Int) := by
    split <;> omega
  rw [absdiff, habs, BitVec.ofInt_natCast]

/-- Settles O1: the rules of one write, with the clamp (`satI_eq`, `satN_eq`) and the difference without sign (`absdiff_eq`). -/
theorem iaddResults : Obligations.IaddResults := by
  unfold Obligations.IaddResults
  intro s k t r h d a b g x y clamp sa lo hi top
  exact ⟨laneOp2_writes h d a b (fun x y => x + y) rfl fun _ => rfl, laneOp2_writes h d a b (fun x y => x - y) rfl fun _ => rfl,
    laneFlagOp2_writes h d a b (fun x y => satI (x.toInt + y.toInt)) rfl fun _ => satI_eq _,
    laneFlagOp2_writes h d a b (fun x y => satN ((x.toNat : Int) + y.toNat)) rfl fun _ => satN_eq _,
    laneFlagOp2_writes h d a b (fun x y => satI (x.toInt - y.toInt)) rfl fun _ => satI_eq _,
    laneFlagOp2_writes h d a b (fun x y => satN ((x.toNat : Int) - y.toNat)) rfl fun _ => satN_eq _,
    laneOp2_writes h d a b (fun x y => absdiff x.toInt y.toInt) rfl fun _ => absdiff_eq _ _,
    laneOp2_writes h d a b (fun x y => absdiff x.toNat y.toNat) rfl fun _ => absdiff_eq _ _⟩

/-! ### Products (Table 7.3) -/

theorem mul_eq_ofInt (x y : Word) : x * y = BitVec.ofInt 32 (x.toInt * y.toInt) := by
  rw [BitVec.ofInt_mul, BitVec.ofInt_toInt, BitVec.ofInt_toInt]

theorem signExtend_mul (x y : Word) : x.signExtend 64 * y.signExtend 64 = BitVec.ofInt 64 (x.toInt * y.toInt) :=
  (BitVec.ofInt_mul _ _).symm

theorem setWidth_mul (x y : Word) : x.setWidth 64 * y.setWidth 64 = BitVec.ofNat 64 (x.toNat * y.toNat) := by
  rw [BitVec.ofNat_mul, BitVec.ofNat_toNat, BitVec.ofNat_toNat]

theorem mulhiN_eq (x y : Word) : mulhiN x y = BitVec.ofNat 32 (x.toNat * y.toNat / 2 ^ 32) := by
  have hlt : x.toNat * y.toNat < 2 ^ 64 := (Nat.mul_lt_mul'' x.isLt y.isLt).trans_eq (by decide)
  rw [mulhiN, setWidth_mul, BitVec.extractLsb', BitVec.toNat_ofNat, Nat.mod_eq_of_lt hlt, Nat.shiftRight_eq_div_pow]

/-- A sum over the bytes of two words whose terms are natural numbers. -/
theorem sum4_natCast {f : Byte → Byte → Int} {n : Byte → Byte → Nat} (hf : ∀ x y, f x y = (n x y : Int)) (x y : Word) :
    sum4 f x y = BitVec.ofNat 32 ((List.range 4).map fun k => n (byteOf x k) (byteOf y k)).sum := by
  have hsum : ((List.range 4).map fun k => f (byteOf x k) (byteOf y k)).sum =
      (((List.range 4).map fun k => n (byteOf x k) (byteOf y k)).sum : Nat) := by
    simp only [hf, Nat.cast_list_sum, List.map_map, Function.comp_def]
  rw [sum4, hsum, BitVec.ofInt_natCast]

/-- Settles O2: the rules of one write; a product is that of the operands as integers, cut to the words it fills. -/
theorem imulResults : Obligations.ImulResults := by
  unfold Obligations.ImulResults
  intro s k t r h d a b g
  refine ⟨laneOp2_writes h d a b (fun x y => x * y) rfl fun _ => mul_eq_ofInt _ _,
    laneOp2_writes h d a b mulhiI rfl fun _ => ?mulhiI, laneOp2_writes h d a b mulhiN rfl fun _ => mulhiN_eq _ _,
    laneOp_writes h d (fun t l => t.get a.toNat l * t.get b.toNat l + t.get (b.toNat + 1) l) rfl,
    laneOp2_writes h d a b (sum4 fun x y => x.toInt * y.toInt) rfl fun _ => rfl,
    laneOp2_writes h d a b (sum4 fun x y => (x.toNat : Int) * y.toNat) rfl fun _ => ?dotN, laneOp2_writes h d a b dot8 rfl fun _ => rfl,
    laneOp2_writes h d a b (sum4 fun x y => if y.toNat ≤ x.toNat then (x.toNat : Int) - y.toNat else (y.toNat : Int) - x.toNat) rfl
      fun _ => ?sad⟩
  case mulhiI => exact congrArg (BitVec.extractLsb' 32 32) (signExtend_mul _ _)
  case dotN => exact sum4_natCast (n := fun x y => x.toNat * y.toNat) (fun x y => (Nat.cast_mul _ _).symm) _ _
  case sad =>
    refine sum4_natCast (n := fun x y => ((x.toNat : Int) - y.toNat).natAbs) (fun x y => ?_) _ _
    split <;> omega

/-! ### Minima, maxima and division (Tables 7.4 and 7.5) -/

theorem minI_eq (x y : Word) : minI x y = if x.toInt ≤ y.toInt then x else y := by
  simp only [minI, BitVec.slt_iff_toInt_lt, ← not_le, ite_not]

theorem maxI_eq (x y : Word) : maxI x y = if x.toInt ≤ y.toInt then y else x := by
  unfold maxI
  by_cases hlt : x.toInt < y.toInt
  · rw [if_pos (BitVec.slt_iff_toInt_lt.mpr hlt), if_pos hlt.le]
  · rw [if_neg (mt BitVec.slt_iff_toInt_lt.mp hlt)]
    split
    · next hle => exact BitVec.eq_of_toInt_eq (le_antisymm hle (not_lt.mp hlt))
    · rfl

theorem minN_eq (x y : Word) : minN x y = if x.toNat ≤ y.toNat then x else y := by
  simp only [minN, BitVec.ult_iff_lt, BitVec.lt_def, ← not_le, ite_not]


theorem maxN_eq (x y : Word) : maxN x y = if x.toNat ≤ y.toNat then y else x := by
  unfold maxN
  by_cases hlt : x.toNat < y.toNat
  · rw [if_pos (BitVec.ult_iff_lt.mpr hlt), if_pos hlt.le]
  · rw [if_neg (mt BitVec.ult_iff_lt.mp hlt)]
    split
    · next hle => exact BitVec.eq_of_toNat_eq (le_antisymm hle (not_lt.mp hlt))
    · rfl

theorem absWord_eq (x : Word) : (if x.msb then 0 - x else x) = if 0 ≤ x.toInt then x else 0 - x := by
  rw [BitVec.msb_eq_toInt, ← ite_not]
  simp only [decide_eq_true_eq, not_lt]

/-- A zero divisor gives the value of Table 7.5, and DZ; any other divides. -/
theorem zeroDivisor_eq (y z q : Word) :
    (if y == 0 then (z, flDZ) else (q, 0)) = (if y = 0 then z else q, if y = 0 then flDZ else 0) := by
  by_cases hy : y = 0
  · rw [if_pos (beq_iff_eq.mpr hy), if_pos hy, if_pos hy]
  · rw [if_neg (mt beq_iff_eq.mp hy), if_neg hy, if_neg hy]

/-- Settles O3: the rules of one write, each choice of Tables 7.4 and 7.5 stated as a comparison of numbers. -/
theorem minMaxAndDivision : Obligations.MinMaxAndDivision := by
  unfold Obligations.MinMaxAndDivision
  intro s k t r h d a b la g x y dz
  exact ⟨laneOp2_writes h d a b minI rfl fun _ => minI_eq _ _, laneOp2_writes h d a b maxI rfl fun _ => maxI_eq _ _,
    laneOp2_writes h d a b minN rfl fun _ => minN_eq _ _, laneOp2_writes h d a b maxN rfl fun _ => maxN_eq _ _,
    laneOp1_writes h d a (fun x => if x.msb then 0 - x else x) rfl fun _ => absWord_eq _, laneOp1_writes h d a (fun x => 0 - x) rfl fun _ => rfl,
    laneFlagOp2_writes h d a b divI rfl fun _ => zeroDivisor_eq _ _ _, laneFlagOp2_writes h d a b divN rfl fun _ => zeroDivisor_eq _ _ _,
    laneFlagOp2_writes h d a b remI rfl fun _ => zeroDivisor_eq _ _ _, laneFlagOp2_writes h d a b remN rfl fun _ => zeroDivisor_eq _ _ _⟩

/-! ### Logic and immediate forms (Table 7.6) -/

/-- Settles O4: each is the operation the table names, and an immediate is extended with its sign. -/
theorem logicAndImmediates : Obligations.LogicAndImmediates := by
  unfold Obligations.LogicAndImmediates
  intro s k t r h d a b im g x y n
  exact ⟨laneOp1_writes h d a (fun x => x + im.signExtend 32) rfl fun _ => rfl, laneOp2_writes h d a b (fun x y => x &&& y) rfl fun _ => rfl,
    laneOp2_writes h d a b (fun x y => x ||| y) rfl fun _ => rfl, laneOp2_writes h d a b (fun x y => x ^^^ y) rfl fun _ => rfl,
    laneOp2_writes h d a b (fun x y => x &&& ~~~y) rfl fun _ => rfl, laneOp2_writes h d a b (fun x y => x ||| ~~~y) rfl fun _ => rfl,
    laneOp2_writes h d a b (fun x y => ~~~(x ^^^ y)) rfl fun _ => rfl, laneOp1_writes h d a (fun x => ~~~x) rfl fun _ => rfl,
    laneOp1_writes h d a (fun x => x) rfl fun _ => rfl, laneOp1_writes h d a (fun x => x &&& im.signExtend 32) rfl fun _ => rfl,
    laneOp1_writes h d a (fun x => x ||| im.signExtend 32) rfl fun _ => rfl,
    laneOp1_writes h d a (fun x => x ^^^ im.signExtend 32) rfl fun _ => rfl, laneOp_writes h d (fun _ _ => im.signExtend 32) rfl⟩

/-! ### Shifts (Table 7.7) -/

theorem shlW_eq (x : Word) (c : Nat) : shlW x c = x <<< c := by
  unfold shlW
  split
  · next hc => exact (BitVec.shiftLeft_eq_zero hc).symm
  · rfl

theorem shrW_eq (x : Word) (c : Nat) : shrW x c = x >>> c := by
  unfold shrW
  split
  · next hc => exact (BitVec.ushiftRight_eq_zero hc).symm
  · rfl

theorem sraW_of_lt {x : Word} {c : Nat} (hc : c < 32) : sraW x c = x.sshiftRight c := by
  rw [sraW, min_eq_left (Nat.le_of_lt_succ hc)]

/-- Settles O5: a count of 32 and above shifts everything out (`shlW_eq`, `shrW_eq`); a rotation turns by its count modulo 32. -/
theorem shiftResults : Obligations.ShiftResults := by
  unfold Obligations.ShiftResults
  intro s k t r h d a b c g x xx n
  exact ⟨laneOp2_writes h d a b (fun x y => shlW x y.toNat) rfl fun _ => shlW_eq _ _,
    laneOp2_writes h d a b (fun x y => shrW x y.toNat) rfl fun _ => shrW_eq _ _,
    laneOp2_writes h d a b (fun x y => sraW x y.toNat) rfl fun _ => rfl, laneOp2_writes h d a b (fun x y => rolW x y.toNat) rfl fun _ => rfl,
    laneOp2_writes h d a b (fun x y => rorW x y.toNat) rfl fun _ => rfl,
    laneOp_writes h d (fun t l => (t.get64 a.toNat l <<< ((t.get b.toNat l).toNat % 64)).extractLsb' 32 32) rfl,
    laneOp_writes h d (fun t l => (t.get64 a.toNat l >>> ((t.get b.toNat l).toNat % 64)).extractLsb' 0 32) rfl,
    laneOp1_writes h d a (fun x => shlW x c.toNat) rfl fun _ => shlW_eq _ _, laneOp1_writes h d a (fun x => shrW x c.toNat) rfl fun _ => shrW_eq _ _,
    laneOp1_writes h d a (fun x => sraW x c.toNat) rfl fun _ => sraW_of_lt c.isLt, laneOp1_writes h d a (fun x => rolW x c.toNat) rfl fun _ => rfl,
    laneOp1_writes h d a (fun x => rorW x c.toNat) rfl fun _ => rfl⟩

end Sys2Proof.Machine
end

section
/-! SUPPORT. Bits of words: counts, reversal, fields and byte selection (O6). -/

namespace Sys2Proof.Machine

/-! ### Counts (R117) -/

/-- The place of the first member of an interval that satisfies `p` is the number of those before it. -/
theorem find_range'_getD (p : Nat → Bool) (n s : Nat) :
    ((List.range' s n).find? p).getD (s + n) = s + ((List.range' s n).takeWhile fun i => !p i).length := by
  induction n generalizing s with
  | zero => rfl
  | succ n ih =>
    rw [List.range'_succ, List.find?_cons, List.takeWhile_cons]
    cases hp : p s with
    | true => simp
    | false =>
      have hrest := ih (s + 1)
      rw [Nat.add_assoc, Nat.add_comm 1 n] at hrest
      simp only [Bool.not_false, if_true, List.length_cons]
      omega

theorem find_range_getD (p : Nat → Bool) (n : Nat) :
    ((List.range n).find? p).getD n = ((List.range n).takeWhile fun i => !p i).length := by
  simpa [List.range_eq_range'] using find_range'_getD p n 0

theorem popcW_eq (x : Word) : popcW x = BitVec.ofNat 32 ((List.range 32).countP fun i => x.getLsbD i) := by
  rw [popcW, wordOf, List.countP_eq_length_filter]

theorem clzW_eq (x : Word) : clzW x = BitVec.ofNat 32 ((List.range 32).takeWhile fun i => !x.getLsbD (31 - i)).length :=
  congrArg (BitVec.ofNat 32) (find_range_getD (fun i => x.getLsbD (31 - i)) 32)

theorem ctzW_eq (x : Word) : ctzW x = BitVec.ofNat 32 ((List.range 32).takeWhile fun i => !x.getLsbD i).length :=
  congrArg (BitVec.ofNat 32) (find_range_getD (fun i => x.getLsbD i) 32)

/-! ### Words and numbers from their bits -/

theorem decide_lt_succ_and (f : Nat → Bool) (i m : Nat) :
    (decide (i < m + 1) && f i) = (decide (i < m) && f i || decide (i = m) && f m) := by
  by_cases hi : i = m
  · simp [hi]
  · have hlt : decide (i < m + 1) = decide (i < m) := decide_eq_decide.mpr (by omega)
    rw [hlt, decide_eq_false hi, Bool.false_and, Bool.or_false]

theorem getLsbD_bitsOf (n i : Nat) (f : Nat → Bool) (hi : i < n) : (bitsOf n f).getLsbD i = f i := by
  have hfold (m : Nat) : ((List.range m).foldl (fun b j => if f j then b ||| BitVec.shiftLeft 1 j else b) (0 : BitVec n)).getLsbD i =
      (decide (i < m) && f i) := by
    induction m with
    | zero => simp
    | succ m ih =>
      have hbit : (BitVec.shiftLeft (1 : BitVec n) m).getLsbD i = decide (i = m) := by
        rw [show BitVec.shiftLeft (1 : BitVec n) m = (1 : BitVec n) <<< m from rfl, BitVec.getLsbD_shiftLeft]
        by_cases him : i = m
        · subst him
          simp [hi, show 0 < n by omega]
        · simp only [BitVec.ofNat_eq_ofNat, BitVec.getLsbD_one, him, decide_false]
          simp
          omega
      rw [List.range_succ, List.foldl_append, List.foldl_cons, List.foldl_nil, decide_lt_succ_and, ← ih]
      cases f m with
      | false => simp
      | true => rw [if_pos rfl, BitVec.getLsbD_or, hbit, Bool.and_true]
  rw [bitsOf, hfold, decide_eq_true hi, Bool.true_and]

theorem brevW_eq (x : Word) : brevW x = x.reverse := by
  apply BitVec.eq_of_getLsbD_eq
  intro i hi
  rw [brevW, getLsbD_bitsOf _ _ _ hi, BitVec.getLsbD_reverse, BitVec.getMsbD, decide_eq_true hi, Bool.true_and]

/-- The number whose bits below `n` are those that `f` names. -/
def natOfBits (n : Nat) (f : Nat → Bool) : Nat := ((List.range n).map fun i => if f i then 2 ^ i else 0).sum

theorem natOfBits_succ (n : Nat) (f : Nat → Bool) : natOfBits (n + 1) f = 2 ^ n * (f n).toNat + natOfBits n f := by
  have hlast : (if f n then 2 ^ n else 0) = 2 ^ n * (f n).toNat := by cases f n <;> simp
  rw [natOfBits, List.range_succ, List.map_append, List.sum_append, List.map_singleton, List.sum_singleton, hlast, Nat.add_comm]
  rfl

theorem natOfBits_lt (n : Nat) (f : Nat → Bool) : natOfBits n f < 2 ^ n := by
  induction n with
  | zero => exact Nat.one_pos
  | succ n ih =>
    have htop : 2 ^ n * (f n).toNat ≤ 2 ^ n * 1 := Nat.mul_le_mul_left _ (Bool.toNat_le _)
    rw [natOfBits_succ, Nat.pow_succ]
    omega

theorem testBit_natOfBits (n j : Nat) (f : Nat → Bool) : (natOfBits n f).testBit j = (decide (j < n) && f j) := by
  induction n with
  | zero => simp [natOfBits]
  | succ n ih =>
    rw [natOfBits_succ, Nat.testBit_two_pow_mul_add _ (natOfBits_lt n f), ih]
    split
    · next hj => simp [hj, Nat.lt_succ_of_lt hj]
    · next hj =>
      rw [Nat.testBit_bool_toNat, decide_lt_succ_and]
      have h1 : decide (j - n = 0) = decide (j = n) := decide_eq_decide.mpr (by omega)
      simp [hj, h1]

/-! ### Fields (Table 7.8) -/

/-- The position and the width that a control word names, the width cut at bit 32. -/
def fieldPos (c : Word) : Nat := c.toNat % 256
def fieldLen (c : Word) : Nat := min (c.toNat / 256 % 256) (32 - fieldPos c)

theorem fieldCtl_eq (c : Word) : fieldCtl c = if 32 ≤ fieldPos c then (0, 0) else (fieldPos c, fieldLen c) := by
  have hpos : natBits c.toNat 0 8 = fieldPos c := by simp [natBits, fieldPos]
  have hlen : natBits c.toNat 8 8 = c.toNat / 256 % 256 := rfl
  rw [fieldCtl, hpos, hlen]
  rfl

theorem fieldLen_eq_zero {c : Word} (h : 32 ≤ fieldPos c) : fieldLen c = 0 := by
  unfold fieldLen
  omega

theorem fieldCtl_width (c : Word) : (fieldCtl c).2 = fieldLen c := by
  rw [fieldCtl_eq]
  split
  · next h => exact (fieldLen_eq_zero h).symm
  · rfl

/-- The field that a control word names. -/
theorem natBits_fieldCtl (x c : Word) :
    natBits x.toNat (fieldCtl c).1 (fieldCtl c).2 = x.toNat / 2 ^ fieldPos c % 2 ^ fieldLen c := by
  rw [fieldCtl_eq]
  split
  · next h => rw [fieldLen_eq_zero h, natBits, pow_zero, Nat.mod_one, Nat.mod_one]
  · rfl

theorem bxtN_eq (x c : Word) : bxtN x c = BitVec.ofNat 32 (x.toNat / 2 ^ fieldPos c % 2 ^ fieldLen c) := by
  rw [bxtN, natBits_fieldCtl, wordOf]

theorem natBit_top {v n : Nat} (hn : n ≠ 0) (hv : v < 2 ^ n) : natBit v (n - 1) = decide (2 ^ (n - 1) ≤ v) := by
  obtain ⟨m, rfl⟩ := Nat.exists_eq_succ_of_ne_zero hn
  rw [Nat.succ_sub_one, natBit, beq_eq_decide]
  have htop : v / 2 ^ m < 2 := (Nat.div_lt_iff_lt_mul (by positivity)).mpr (by rwa [Nat.pow_succ'] at hv)
  have hle : 2 ^ m ≤ v ↔ 0 < v / 2 ^ m := Nat.div_pos_iff.trans (and_iff_right (by positivity)) |>.symm
  rw [decide_eq_decide, hle]
  generalize v / 2 ^ m = q at htop ⊢
  omega

/-- A field extended with its sign: as a number, what it holds, less its size where the top bit is set. -/
theorem bxtI_eq (x c : Word) : bxtI x c =
    if fieldLen c = 0 then 0
    else BitVec.ofInt 32 (if 2 ^ (fieldLen c - 1) ≤ x.toNat / 2 ^ fieldPos c % 2 ^ fieldLen c
      then ((x.toNat / 2 ^ fieldPos c % 2 ^ fieldLen c : Nat) : Int) - 2 ^ fieldLen c else (x.toNat / 2 ^ fieldPos c % 2 ^ fieldLen c : Nat)) := by
  have hlen : fieldLen c ≤ 32 := (min_le_right _ _).trans (Nat.sub_le _ _)
  unfold bxtI
  dsimp only
  rw [natBits_fieldCtl, fieldCtl_width]
  generalize hv : x.toNat / 2 ^ fieldPos c % 2 ^ fieldLen c = v
  split
  · rfl
  · next h0 =>
    have hpow : 2 ^ fieldLen c ≤ 2 ^ 32 := Nat.pow_le_pow_right (by decide) hlen
    have hcast : ((v + 2 ^ 32 - 2 ^ fieldLen c : Nat) : Int) = ((v : Int) - 2 ^ fieldLen c) + 2 ^ 32 := by
      rw [Nat.cast_sub (hpow.trans (Nat.le_add_left _ v))]
      push_cast
      ring
    have hwrap : BitVec.ofInt 32 (((v : Int) - 2 ^ fieldLen c) + 2 ^ 32) = BitVec.ofInt 32 ((v : Int) - 2 ^ fieldLen c) :=
      (BitVec.ofInt_add _ _).trans (BitVec.add_zero _)
    have htop := natBit_top h0 (hv ▸ Nat.mod_lt _ (by positivity))
    split
    · next hneg =>
      rw [if_pos (of_decide_eq_true (htop.symm.trans hneg)), wordOf, ← BitVec.ofInt_natCast, hcast, hwrap]
    · next hpos =>
      rw [if_neg (fun hle => hpos (htop.trans (decide_eq_true hle))), wordOf, BitVec.ofInt_natCast]

/-- The bits of a number in three layers. -/
theorem testBit_layers {m low : Nat} (lo n high i : Nat) (hlow : low < 2 ^ lo) (hm : m < 2 ^ n) :
    (2 ^ lo * (2 ^ n * high + m) + low).testBit i =
      if i < lo then low.testBit i else if i < lo + n then m.testBit (i - lo) else high.testBit (i - lo - n) := by
  rw [Nat.testBit_two_pow_mul_add _ hlow, Nat.testBit_two_pow_mul_add _ hm]
  split
  · rfl
  · exact if_congr (by omega) rfl rfl

/-- A field replaced: its bits are the new ones, and the others stay. -/
theorem testBit_natPut (v lo n x i : Nat) :
    (natPut v lo n x).testBit i = if lo ≤ i ∧ i < lo + n then x.testBit (i - lo) else v.testBit i := by
  have hv : v = 2 ^ lo * (2 ^ n * (v / 2 ^ lo / 2 ^ n) + natBits v lo n) + v % 2 ^ lo := by
    rw [natBits, Nat.div_add_mod, Nat.div_add_mod]
  have hsub : v - natBits v lo n * 2 ^ lo = 2 ^ lo * (2 ^ n * (v / 2 ^ lo / 2 ^ n)) + v % 2 ^ lo :=
    Nat.sub_eq_of_eq_add (hv.trans (by ring))
  have hput : natPut v lo n x = 2 ^ lo * (2 ^ n * (v / 2 ^ lo / 2 ^ n) + x % 2 ^ n) + v % 2 ^ lo := by
    rw [natPut, hsub]
    ring
  have hlow : v % 2 ^ lo < 2 ^ lo := Nat.mod_lt _ (by positivity)
  have hpos : 0 < 2 ^ n := by positivity
  have hold := testBit_layers lo n (v / 2 ^ lo / 2 ^ n) i hlow (m := natBits v lo n) (Nat.mod_lt _ hpos)
  rw [← hv] at hold
  rw [hput, testBit_layers lo n _ i hlow (Nat.mod_lt x hpos), hold]
  by_cases h1 : i < lo
  · rw [if_pos h1, if_neg (by omega), if_pos h1]
  · by_cases h2 : i < lo + n
    · rw [if_neg h1, if_pos h2, if_pos (by omega), Nat.testBit_mod_two_pow, decide_eq_true (by omega), Bool.true_and]
    · rw [if_neg h1, if_neg h2, if_neg (by omega), if_neg h1, if_neg h2]

theorem insertField_eq (x v c : Word) : insertField x v c = BitVec.ofNat 32 (natOfBits 32 fun i =>
    if fieldPos c ≤ i ∧ i < fieldPos c + fieldLen c then v.getLsbD (i - fieldPos c) else x.getLsbD i) := by
  apply BitVec.eq_of_getLsbD_eq
  intro i hi
  rw [insertField, wordOf, BitVec.getLsbD_ofNat, BitVec.getLsbD_ofNat, testBit_natPut, testBit_natOfBits, decide_eq_true hi, fieldCtl_eq]
  split
  · rw [if_neg (by simp), if_neg (by omega)]
    rfl
  · exact ite_congr rfl (fun _ => rfl) fun _ => rfl

/-! ### Byte selection (Table 7.8) -/

/-- The byte that a selector byte names, as a number. -/
def selectedByte (x : DWord) (c : Nat) : Nat :=
  let b := x.toNat / 2 ^ (8 * (c % 8)) % 256
  match c / 8 % 4 with
  | 0 => if c / 32 % 2 = 1 then natOfBits 8 fun i => b.testBit (7 - i) else b
  | 1 => if 128 ≤ b then 255 else 0
  | 2 => 0
  | _ => 255

theorem toNat_bitsOf (n : Nat) (f : Nat → Bool) : (bitsOf n f).toNat = natOfBits n f := by
  apply Nat.eq_of_testBit_eq
  intro i
  rw [testBit_natOfBits]
  by_cases hi : i < n
  · rw [decide_eq_true hi, Bool.true_and]
    exact getLsbD_bitsOf n i f hi
  · rw [decide_eq_false hi, Bool.false_and]
    exact BitVec.getLsbD_of_ge _ _ (not_lt.mp hi)

theorem toNat_byte {n : Nat} (x : BitVec n) (i : Nat) : (x.extractLsb' (8 * i) 8).toNat = x.toNat / 2 ^ (8 * i) % 256 := by
  rw [BitVec.extractLsb'_toNat, Nat.shiftRight_eq_div_pow]

theorem selByte_toNat (x : DWord) (c : Byte) : (selByte x c).toNat = selectedByte x c.toNat := by
  have hb : (x.extractLsb' (8 * natBits c.toNat 0 3) 8).toNat = x.toNat / 2 ^ (8 * (c.toNat % 8)) % 256 := by
    rw [toNat_byte, natBits, pow_zero, Nat.div_one]
    rfl
  have hrev : c.getLsbD 5 = decide (c.toNat / 32 % 2 = 1) := Nat.testBit_eq_decide_div_mod_eq
  have htop (b : Byte) : b.getLsbD 7 = decide (128 ≤ b.toNat) := by
    have hlt := b.isLt
    exact Nat.testBit_eq_decide_div_mod_eq.trans (decide_eq_decide.mpr (by omega))
  have hsel : natBits c.toNat 3 2 = c.toNat / 8 % 4 := rfl
  unfold selByte selectedByte
  dsimp only
  rw [hsel, ← hb, hrev, htop]
  generalize x.extractLsb' (8 * natBits c.toNat 0 3) 8 = b
  have hlt : c.toNat / 8 % 4 < 4 := Nat.mod_lt _ (by decide)
  generalize c.toNat / 8 % 4 = m at hlt
  match m, hlt with
  | 0, _ =>
    simp only [decide_eq_true_eq]
    split
    · exact toNat_bitsOf 8 _
    · rfl
  | 1, _ =>
    simp only [decide_eq_true_eq]
    split <;> rfl
  | 2, _ => rfl
  | 3, _ => rfl

theorem toNat_append_eq_add {m n : Nat} (x : BitVec m) (y : BitVec n) : (x ++ y).toNat = x.toNat * 2 ^ n + y.toNat := by
  rw [BitVec.toNat_append, ← Nat.shiftLeft_add_eq_or_of_lt y.isLt, Nat.shiftLeft_eq]

theorem selBytes_eq (x : DWord) (y : Word) : selBytes x y =
    BitVec.ofNat 32 ((List.range 4).map fun j => selectedByte x (y.toNat / 2 ^ (8 * j) % 256) * 2 ^ (8 * j)).sum := by
  have hbyte (j : Nat) : selectedByte x (y.toNat / 2 ^ (8 * j) % 256) = (selByte x (byteOf y j)).toNat := by
    rw [selByte_toNat, byteOf, toNat_byte]
  have hlt (j : Nat) := (selByte x (byteOf y j)).isLt
  apply BitVec.eq_of_toNat_eq
  simp only [hbyte, selBytes, toNat_append_eq_add, BitVec.toNat_ofNat, List.range_succ, List.range_zero, List.map_append, List.map_cons,
    List.map_nil, List.sum_append, List.sum_cons, List.sum_nil, List.nil_append]
  have h0 := hlt 0
  have h1 := hlt 1
  have h2 := hlt 2
  have h3 := hlt 3
  omega

/-- Settles O6: counts by the place of a bit, fields and bytes by the bits and numbers that stand in them. -/
theorem bitResults : Obligations.BitResults := by
  unfold Obligations.BitResults
  intro s k t r h d a b g x y z pos len field sel
  exact ⟨laneOp1_writes h d a popcW rfl fun _ => popcW_eq _, laneOp1_writes h d a clzW rfl fun _ => clzW_eq _,
    laneOp1_writes h d a ctzW rfl fun _ => ctzW_eq _, laneOp1_writes h d a brevW rfl fun _ => brevW_eq _,
    laneOp2_writes h d a b bxtN rfl fun _ => bxtN_eq _ _, laneOp2_writes h d a b bxtI rfl fun _ => bxtI_eq _ _,
    laneOp_writes_of_eq h d (fun t l => insertField (t.get a.toNat l) (t.get b.toNat l) (t.get (b.toNat + 1) l)) rfl fun _ => insertField_eq _ _ _,
    laneOp_writes_of_eq h d (fun t l => selBytes (t.get64 a.toNat l) (t.get b.toNat l)) rfl fun _ => selBytes_eq _ _⟩

end Sys2Proof.Machine
end

section
/-! SUPPORT. Selection, pairs, windows, special registers and the cross-lane instructions of the lane set (O8..O11). -/

namespace Sys2Proof.Machine

/-! ### SEL and pairs (R119, R120) -/

theorem guardLane_iff (t : Team) (g : Guard) (l : Nat) : t.guardLane g l = true ↔ g.g = 0 ∨ t.pred g.g.toNat l ≠ g.n := by
  simp [Team.guardLane]

theorem setWidth_eq_ofNat (x : Word) : x.setWidth 64 = BitVec.ofNat 64 x.toNat := (BitVec.ofNat_toNat 64 x).symm

theorem four_mul_setWidth (x : Word) : 4 * x.setWidth 64 = BitVec.ofNat 64 (4 * x.toNat) := by
  rw [setWidth_eq_ofNat, BitVec.ofNat_mul]
  rfl

theorem four_mul_signExtend (x : Word) : 4 * x.signExtend 64 = BitVec.ofInt 64 (4 * x.toInt) :=
  (BitVec.ofInt_mul 4 x.toInt).symm

theorem laneOp64_writes_of_eq {i : Instr} {s : State} {k : Nat} {t : Team} {r : Run} {g : Guard} (h : s.HasRun k t r) (d : BitVec 6)
    (f : Team → Nat → DWord) {v : Nat → DWord} (hi : exec i s = laneOp64 s g d f) (hv : ∀ l, f t l = v l) :
    LaneWrites i s k t r g (toPair d.toNat v) noFlag :=
  funext hv ▸ laneOp64_writes h d f hi

/-- Settles O8: SEL by where its selector holds (`guardLane_iff`); operands of pairs are extended and multiplied as numbers. -/
theorem selectAndPairs : Obligations.SelectAndPairs := by
  unfold Obligations.SelectAndPairs
  intro s k t r h d a b p g x y xx yy P
  exact ⟨laneOp_writes_of_eq h d (fun t l => if t.guardLane g l then t.get a.toNat l else t.get b.toNat l) rfl
      fun l => if_congr (guardLane_iff t g l) rfl rfl,
    laneOp_writes h d (fun t l => if t.pred p.toNat l then 1 else 0) rfl,
    laneOp64_writes h d (fun t l => t.get64 a.toNat l + t.get64 b.toNat l) rfl,
    laneOp64_writes h d (fun t l => t.get64 a.toNat l - t.get64 b.toNat l) rfl,
    laneOp64_writes_of_eq h d (fun t l => t.get64 a.toNat l + (t.get b.toNat l).setWidth 64) rfl
      fun l => congrArg (xx l + ·) (setWidth_eq_ofNat _),
    laneOp64_writes h d (fun t l => t.get64 a.toNat l + (t.get b.toNat l).signExtend 64) rfl,
    laneOp64_writes_of_eq h d (fun t l => t.get64 a.toNat l + 4 * (t.get b.toNat l).setWidth 64) rfl
      fun l => congrArg (xx l + ·) (four_mul_setWidth _),
    laneOp64_writes_of_eq h d (fun t l => t.get64 a.toNat l + 4 * (t.get b.toNat l).signExtend 64) rfl
      fun l => congrArg (xx l + ·) (four_mul_signExtend _),
    laneOp64_writes_of_eq h d (fun t l => (t.get a.toNat l).signExtend 64 * (t.get b.toNat l).signExtend 64) rfl
      fun _ => signExtend_mul _ _,
    laneOp64_writes_of_eq h d (fun t l => (t.get a.toNat l).setWidth 64 * (t.get b.toNat l).setWidth 64) rfl
      fun _ => setWidth_mul _ _⟩

/-! ### Instructions that look beyond their lane (R108, R122, R141) -/

/-- A lane-set instruction that leaves the team as `t1`, which differs from `t` in the registers of acting lanes alone. -/
theorem laneTeam_writes {i : Instr} {s : State} {k : Nat} {t t1 : Team} {r : Run} {g : Guard} {w : Nat → Nat → Option Word}
    (h : s.HasRun k t r) (f : State → Nat → Team → Run → (Nat → Bool) → State × Team × Run) (hi : exec i s = laneInstr s g f)
    (hf : ∀ s', f s' k t r (t.acts r g) = (s', t1, r)) (hv : t1 = { t with v := t1.v })
    (hw : ∀ l < t.nlanes, ∀ n, t1.get n l = if t.acts r g l then (w n l).getD (t.get n l) else t.get n l) :
    LaneWrites i s k t r g w noFlag := by
  have e : exec i s = _ := hi.trans (withRun_eq h _)
  simp only [hf] at e
  refine ⟨_, e, ⟨_, _, advance_team _ _ _ _, by rw [hv], rfl, fun l hl => ⟨hw l hl, by simp [noFlag]⟩⟩, laneIssue_frame _ _ _ _ _ _ _⟩

theorem Team.get_put_toReg (t : Team) (d n l : Nat) (p : Nat → Bool) (f : Nat → Word) (h : l < t.nlanes) :
    (t.put d p f).get n l = if p l then (toReg d f n l).getD (t.get n l) else t.get n l := by
  rw [Team.get_put _ _ _ _ _ _ h]
  by_cases hn : n = d
  · subst hn
    simp [toReg]
  · simp [toReg, hn]

section Wide

variable {i : Instr} {s : State} {k : Nat} {t : Team} {r : Run} {g : Guard} (h : s.HasRun k t r) (d : BitVec 6)
include h

/-- One register, by a value of the team and its run. -/
theorem laneRead_writes (f : Nat → Team → Run → Nat → Word) {v : Nat → Word}
    (hi : exec i s = laneInstr s g fun s' k t r act => (s', t.put d.toNat act (f k t r), r)) (hv : ∀ l, f k t r l = v l) :
    LaneWrites i s k t r g (toReg d.toNat v) noFlag :=
  funext hv ▸ laneTeam_writes h _ hi (fun _ => rfl) rfl fun _ hl n => Team.get_put_toReg t _ n _ _ (f k t r) hl

/-- A pair likewise. -/
theorem laneRead64_writes (f : Nat → Team → Run → Nat → DWord) {v : Nat → DWord}
    (hi : exec i s = laneInstr s g fun s' k t r act => (s', t.put64 d.toNat act (f k t r), r)) (hv : ∀ l, f k t r l = v l) :
    LaneWrites i s k t r g (toPair d.toNat v) noFlag :=
  funext hv ▸ laneTeam_writes h _ hi (fun _ => rfl) rfl fun _ hl n => Team.get_put64 t _ n _ _ (f k t r) hl

end Wide

/-! ### Windows and special registers (R122, R123) -/

theorem inWindow_iff (base size ea : Nat) : inWindow (base, size) ea = true ↔ base ≤ ea ∧ ea < base + size := by
  simp [inWindow]

section Windows

variable {i : Instr} {s : State} {k : Nat} {t : Team} {r : Run} {g : Guard} (h : s.HasRun k t r) (d a : BitVec 6) (win : Nat)
include h

theorem wtest_writes (hi : exec i s = wtest s g d a win) : LaneWrites i s k t r g (toReg d.toNat fun l =>
    if (windowOf (s.lrOf t) win).1 ≤ (t.get64 a.toNat l).toNat ∧
      (t.get64 a.toNat l).toNat < (windowOf (s.lrOf t) win).1 + (windowOf (s.lrOf t) win).2 then 1 else 0) noFlag :=
  laneRead_writes h d (fun _ t _ l => if inWindow (windowOf (s.lrOf t) win) (t.get64 a.toNat l).toNat then 1 else 0) hi
    fun _ => if_congr (inWindow_iff _ _ _) rfl rfl

theorem wto_writes (hi : exec i s = wto s g d a win) : LaneWrites i s k t r g (toReg d.toNat fun l =>
    if (windowOf (s.lrOf t) win).1 ≤ (t.get64 a.toNat l).toNat ∧
      (t.get64 a.toNat l).toNat < (windowOf (s.lrOf t) win).1 + (windowOf (s.lrOf t) win).2
    then BitVec.ofNat 32 ((t.get64 a.toNat l).toNat - (windowOf (s.lrOf t) win).1) else 0xFFFFFFFF) noFlag :=
  laneRead_writes h d (fun _ t _ l => if inWindow (windowOf (s.lrOf t) win) (t.get64 a.toNat l).toNat
    then wordOf ((t.get64 a.toNat l).toNat - (windowOf (s.lrOf t) win).1) else 0xFFFFFFFF) hi
    fun _ => if_congr (inWindow_iff _ _ _) rfl rfl

theorem wfrom_writes (hi : exec i s = wfrom s g d a win) : LaneWrites i s k t r g (toPair d.toNat fun l =>
    if (t.get a.toNat l).toNat < (windowOf (s.lrOf t) win).2
    then BitVec.ofNat 64 ((windowOf (s.lrOf t) win).1 + (t.get a.toNat l).toNat) else 0xFFFFFFFFFFFFFFFF) noFlag :=
  laneRead64_writes h d (fun _ t _ l => if (t.get a.toNat l).toNat < (windowOf (s.lrOf t) win).2
    then dwordOf ((windowOf (s.lrOf t) win).1 + (t.get a.toNat l).toNat) else 0xFFFFFFFFFFFFFFFF) hi fun _ => rfl

end Windows

theorem exec_movs (d a : BitVec 6) (g : Guard) (s : State) : exec (.movs d a g) s = laneInstr s g fun s' k t r act =>
    if wideSpecial a.toNat then (s', t.put64 d.toNat act (s.special k t a.toNat), r)
    else (s', t.put d.toNat act fun l => (s.special k t a.toNat l).setWidth 32, r) := rfl

/-- Settles O9: the three window instructions once for all windows, and MOVS by the width of its register. -/
theorem windowsAndSpecials : Obligations.WindowsAndSpecials := by
  unfold Obligations.WindowsAndSpecials
  intro s k t r h d a g lr ea o W
  refine ⟨⟨wtest_writes h d a 1 rfl, wto_writes h d a 1 rfl, wfrom_writes h d a 1 rfl⟩,
    ⟨wtest_writes h d a 2 rfl, wto_writes h d a 2 rfl, wfrom_writes h d a 2 rfl⟩,
    ⟨wtest_writes h d a 3 rfl, wto_writes h d a 3 rfl, wfrom_writes h d a 3 rfl⟩,
    laneRead_writes h d (fun _ t _ l => wordOf (spaceOf (s.lrOf t) (t.get64 a.toNat l).toNat)) rfl fun _ => rfl,
    fun ha => ?wide, fun ha => ?narrow⟩
  case wide =>
    exact laneRead64_writes h d (fun k t _ => s.special k t a.toNat)
      (by simp only [exec_movs, if_pos ((wideSpecial_iff _).2 ha)]) fun _ => rfl
  case narrow =>
    exact laneRead_writes h d (fun k t _ l => (s.special k t a.toNat l).setWidth 32)
      (by simp only [exec_movs, if_neg (mt (wideSpecial_iff _).1 ha)]) fun _ => rfl

/-! ### Lanes of a group (R140, R141) -/

theorem xlane_eq (s : State) (d a : BitVec 6) (pos : Team → Nat → Option Nat) :
    xlane s d a pos = laneOp s Guard.always d fun t l => (pos t l).elim 0 fun j => t.src a (l / 32 * 32 + j) := by
  refine congrArg (laneOp s Guard.always d) (funext fun t => funext fun l => ?_)
  cases pos t l <;> rfl

section Groups

variable {i : Instr} {s : State} {k : Nat} {t : Team} {r : Run} (h : s.HasRun k t r) (d a : BitVec 6)
include h

theorem xlane_writes (pos : Team → Nat → Option Nat) {v : Nat → Word} (hi : exec i s = xlane s d a pos)
    (hv : ∀ l, (pos t l).elim 0 (fun j => t.src a (l / 32 * 32 + j)) = v l) :
    LaneWrites i s k t r Guard.always (toReg d.toNat v) noFlag :=
  laneOp_writes_of_eq h d _ (hi.trans (xlane_eq s d a pos)) hv

theorem xgroup_writes (f : List (Nat × Word) → Word) {v : Nat → Word} (hi : exec i s = xgroup s d a f)
    (hv : ∀ l, f ((r.group t.nlanes l).map fun j => (j, t.get a.toNat (l / 32 * 32 + j))) = v l) :
    LaneWrites i s k t r Guard.always (toReg d.toNat v) noFlag :=
  laneRead_writes h d (fun _ t r l => f ((r.group t.nlanes l).map fun j => (j, t.get a.toNat (l / 32 * 32 + j)))) hi hv

end Groups

/-- The distance that LSLIDE goes down from lane `l`'s position; none beyond the group. -/
def slidePos (w : Word) (l : Nat) : Option Nat :=
  let j : Int := ((l % 32 : Nat) : Int) - w.toInt
  if 0 ≤ j && decide (j < 32) then some j.toNat else none

theorem slidePos_elim (w : Word) (l : Nat) (f : Nat → Word) : (slidePos w l).elim 0 f =
    if 0 ≤ ((l % 32 : Nat) : Int) - w.toInt ∧ ((l % 32 : Nat) : Int) - w.toInt < 32 then f (((l % 32 : Nat) : Int) - w.toInt).toNat else 0 := by
  unfold slidePos
  dsimp only
  generalize ((l % 32 : Nat) : Int) - w.toInt = j
  by_cases hj : 0 ≤ j ∧ j < 32
  · rw [if_pos hj, if_pos (by simpa using hj)]
    rfl
  · rw [if_neg hj, if_neg (by simpa using hj)]
    rfl

theorem exec_lbits (d a : BitVec 6) (la : BitVec 4) (s : State) : exec (.lbits d a la) s = xgroup s d a fun vs =>
    wordOf ((vs.map fun v => if v.2 != 0 then 2 ^ v.1 else 0).sum) := rfl
theorem exec_lall (d a : BitVec 6) (la : BitVec 4) (s : State) : exec (.lall d a la) s = xgroup s d a fun vs =>
    if vs.all fun v => v.2 != 0 then 1 else 0 := rfl
theorem exec_redaddI32 (d a : BitVec 6) (la : BitVec 4) (s : State) : exec (.redaddI32 d a la) s = xgroup s d a fun vs =>
    vs.foldl (fun m v => m + v.2) 0 := rfl
theorem exec_redmaxI32 (d a : BitVec 6) (la : BitVec 4) (s : State) : exec (.redmaxI32 d a la) s = xgroup s d a fun vs =>
    vs.foldl (fun m v => maxI m v.2) 0x80000000 := rfl

/-- A field of six reserved bits above one of three. -/
theorem append_reserved (x : BitVec 19) (f : BitVec 3) : x ++ (0#6 ++ f) = x ++ 0#6 ++ f :=
  (BitVec.append_assoc (x₁ := x) (x₂ := 0#6) (x₃ := f)).symm

/-- Settles O10: a source position (`xlane_writes`) or the values of the group (`xgroup_writes`); the words are those of the encoder, with
the reserved bits written apart (`append_reserved`). -/
theorem crossLaneResults : Obligations.CrossLaneResults := by
  unfold Obligations.CrossLaneResults
  intro s k t r h d a b la at' n P part
  refine ⟨xlane_writes h d a (fun t l => some ((t.get b.toNat l).toNat % 32)) rfl fun _ => rfl,
    xlane_writes h d a (fun t l => some ((l + (t.get b.toNat l).toNat) % 32)) rfl fun _ => rfl,
    xlane_writes h d a (fun t l => some ((l % 32) ^^^ ((t.get b.toNat l).toNat % 32))) rfl fun _ => rfl,
    xlane_writes h d a (fun t l => slidePos (t.get b.toNat l) l) rfl fun _ => slidePos_elim _ _ _,
    xgroup_writes h d a _ (exec_lbits d a la s) fun l => ?bits, xgroup_writes h d a _ (exec_lall d a la s) fun l => ?all,
    xgroup_writes h d a _ (exec_redaddI32 d a la s) fun _ => List.foldl_map, xgroup_writes h d a _ (exec_redmaxI32 d a la s) fun _ => List.foldl_map,
    ?source, ?group⟩
  case bits =>
    simp only [List.map_map, Function.comp_def, bne_iff_ne, ite_not]
    rfl
  case all =>
    rw [List.all_map]
    rfl
  case source =>
    simp only [List.forall_mem_cons]
    exact ⟨rfl, rfl, rfl, rfl, fun _ hx => nomatch hx⟩
  case group =>
    have hword (f : BitVec 3) : 28#7 ++ d ++ a ++ (0#6 ++ f) ++ la = 0#1 ++ 0x1C#6 ++ d ++ a ++ 0#6 ++ f ++ la :=
      congrArg (· ++ la) (append_reserved (28#7 ++ d ++ a) f)
    simp only [List.forall_mem_cons]
    exact ⟨congrArg some (hword 4), congrArg some (hword 5), congrArg some (hword 6), congrArg some (hword 7), fun _ hx => nomatch hx⟩

/-! ### VTRN (R142) -/

/-- Write `n` registers from `d` on in the lanes that satisfy `p`. -/
def Team.putRows (t : Team) (d n : Nat) (p : Nat → Bool) (f : Nat → Nat → Word) : Team :=
  (List.range n).foldl (fun u q => u.put (d + q) p (f q)) t

theorem Team.putRows_succ (t : Team) (d n : Nat) (p : Nat → Bool) (f : Nat → Nat → Word) :
    t.putRows d (n + 1) p f = (t.putRows d n p f).put (d + n) p (f n) := by
  simp [Team.putRows, List.range_succ]

theorem Team.putRows_frame (t : Team) (d n : Nat) (p : Nat → Bool) (f : Nat → Nat → Word) :
    t.putRows d n p f = { t with v := (t.putRows d n p f).v } := by
  induction n with
  | zero => rfl
  | succ n ih =>
    rw [Team.putRows_succ, ih]
    rfl

theorem Team.get_putRows (t : Team) (d n q l : Nat) (p : Nat → Bool) (f : Nat → Nat → Word) (h : l < t.nlanes) :
    (t.putRows d n p f).get q l = if p l = true ∧ d ≤ q ∧ q < d + n then f (q - d) l else t.get q l := by
  induction n generalizing q with
  | zero => exact (if_neg (by omega)).symm
  | succ n ih =>
    have hl : l < (t.putRows d n p f).nlanes := by rwa [Team.putRows_frame]
    rw [Team.putRows_succ, Team.get_put _ _ _ _ _ _ hl, ih, ih]
    by_cases hq : q = d + n
    · subst hq
      cases p l <;> simp
    · rw [if_neg hq]
      exact if_congr (and_congr_right fun _ => by omega) rfl rfl

/-- Row `q` of the transpose of the registers from `d` on, in lane `l` (R142). -/
def Team.transposed (t : Team) (d e q l : Nat) : Word :=
  wordOf ((List.range (32 / e)).map fun h =>
    t.element d e (l % (256 / e)) (l / (256 / e) * (256 / e) + q * (32 / e) + h) * 2 ^ (e * h)).sum

theorem vtrn_writes {i : Instr} {s : State} {k : Nat} {t : Team} {r : Run} (h : s.HasRun k t r) (d : BitVec 6) (e : Nat)
    (hi : exec i s = vtrn s d e) : LaneWrites i s k t r Guard.always
      (fun n l => if d.toNat ≤ n ∧ n < d.toNat + 8 then some (t.transposed d.toNat e (n - d.toNat) l) else none) noFlag := by
  refine laneTeam_writes (t1 := t.putRows d.toNat 8 (t.acts r Guard.always) (t.transposed d.toNat e)) h
    (fun s _ t r act => (s, t.putRows d.toNat 8 act (t.transposed d.toNat e), r)) hi (fun _ => rfl)
    (Team.putRows_frame _ _ _ _ _) fun l hl n => ?_
  rw [Team.get_putRows _ _ _ _ _ _ _ hl]
  by_cases hn : d.toNat ≤ n ∧ n < d.toNat + 8 <;> cases t.acts r Guard.always l <;> simp [hn]

/-- Settles O11: the eight registers are written one after another from those that stood before (`vtrn_writes`). -/
theorem transposeResults : Obligations.TransposeResults := by
  unfold Obligations.TransposeResults
  intro s k t r h d la V
  exact ⟨vtrn_writes h d 8 rfl, vtrn_writes h d 16 rfl, vtrn_writes h d 32 rfl⟩

end Sys2Proof.Machine
end

section
/-! SUPPORT. Uniform arithmetic and uniform compares (O24, O25). -/

namespace Sys2Proof.Machine

/-! ### Uniform arithmetic (R126, R127) -/

section Uniform

variable {i : Instr} {s : State} {k : Nat} {t : Team} {r : Run} {g : Guard} (h : s.HasRun k t r) (d a b : BitVec 6)
include h

theorem uniRead_writes (f : Team → Run → Word) {v : Word} (hi : exec i s = uniOp s g d f) (hv : f t r = v) :
    UniWrites i s k t r g (toUReg d.toNat v) :=
  uniOp_writes h d v (fun _ _ t r => f t r) (fun _ => hv) hi

theorem uniOp2_writes (f : Word → Word → Word) {v : Word} (hi : exec i s = uniOp2 s g d a b f)
    (hv : f (t.uget r a) (t.uget r b) = v) : UniWrites i s k t r g (toUReg d.toNat v) :=
  uniRead_writes h d (fun t r => f (t.uget r a) (t.uget r b)) hi hv

end Uniform

theorem exec_umovh (d : BitVec 6) (im : BitVec 19) (s : State) : exec (.umovh d im) s = uniOp s Guard.always d fun t r =>
    im ++ (if r.wroteReg d.toNat then t.uget r d else (r.saved.getD d.toNat []).getD (r.leader t) 0).extractLsb' 0 13 := rfl

/-- Settles O24: the rule of a uniform write for each computation, whose value the lane-set lemmas give; UMOVH by what the run has written. -/
theorem uniformArithmetic : Obligations.UniformArithmetic := by
  unfold Obligations.UniformArithmetic
  intro s k t r h d a b im im19 g l x y P A
  refine ⟨uniOp2_writes h d a b (fun x y => x + y) rfl rfl, uniOp2_writes h d a b (fun x y => x - y) rfl rfl,
    uniOp2_writes h d a b (fun x y => x * y) rfl rfl, uniOp2_writes h d a b (fun x y => x &&& y) rfl rfl,
    uniOp2_writes h d a b (fun x y => x ||| y) rfl rfl, uniOp2_writes h d a b (fun x y => x ^^^ y) rfl rfl,
    uniOp2_writes h d a b (fun x y => shlW x y.toNat) rfl (shlW_eq _ _), uniOp2_writes h d a b (fun x y => shrW x y.toNat) rfl (shrW_eq _ _),
    uniOp2_writes h d a b (fun x y => sraW x y.toNat) rfl rfl, uniOp2_writes h d a b minI rfl (minI_eq _ _),
    uniOp2_writes h d a b maxI rfl (maxI_eq _ _), uniOp2_writes h d a b minN rfl (minN_eq _ _), uniOp2_writes h d a b maxN rfl (maxN_eq _ _),
    uniOp2_writes h d a b mulhiN rfl (mulhiN_eq _ _),
    uniOp64_writes h d _ (fun _ _ t r => t.uget64 r a + t.uget64 r b) (fun _ => rfl) rfl,
    uniOp64_writes h d _ (fun _ _ t r => t.uget64 r a - t.uget64 r b) (fun _ => rfl) rfl,
    uniRead_writes h d (fun t r => t.uget r a + im.signExtend 32) rfl rfl, uniRead_writes h d (fun _ _ => im19.signExtend 32) rfl rfl,
    fun hw => ?written, fun hw => ?entry⟩
  case written => exact uniRead_writes h d _ (exec_umovh d im19 s) (by rw [hw, if_pos rfl]; rfl)
  case entry => exact uniRead_writes h d _ (exec_umovh d im19 s) (by rw [hw, if_neg Bool.false_ne_true]; rfl)

/-! ### Uniform compares (R96, R128) -/

/-- A uniform predicate that is written, and the others. -/
theorem Team.getLsbD_putQ (t : Team) (p : BitVec 3) (v : Bool) (j : Nat) (hj : j < 8) :
    (t.putQ p.toNat v).q.getLsbD j = if j = p.toNat then v else t.q.getLsbD j := by
  have hbit : (BitVec.shiftLeft (1 : BitVec 8) p.toNat).getLsbD j = decide (j = p.toNat) := by
    rw [show BitVec.shiftLeft (1 : BitVec 8) p.toNat = BitVec.twoPow 8 p.toNat from rfl, BitVec.getLsbD_twoPow,
      decide_eq_true (show p.toNat < 8 from p.isLt), Bool.true_and]
    exact decide_eq_decide.mpr eq_comm
  cases v with
  | true =>
    change (t.q ||| BitVec.shiftLeft (1 : BitVec 8) p.toNat).getLsbD j = _
    rw [BitVec.getLsbD_or, hbit]
    by_cases hp : j = p.toNat <;> simp [hp]
  | false =>
    change (t.q &&& ~~~(BitVec.shiftLeft (1 : BitVec 8) p.toNat)).getLsbD j = _
    rw [BitVec.getLsbD_and, BitVec.getLsbD_not, hbit, decide_eq_true hj, Bool.true_and]
    by_cases hp : j = p.toNat <;> simp [hp]

/-- The uniform-set instruction `i` completes and writes uniform predicate `p` alone, where its guard holds: it takes `v`, combined under
`m` with its value at run entry, or with what an earlier instruction of the attempt wrote (R96). -/
def UniPredWrites (i : Instr) (s : State) (k : Nat) (t : Team) (r : Run) (g : Guard) (m p : BitVec 3) (v : Bool) : Prop :=
  Completes i s fun s' => (∃ t', s'.TeamIs k t' ∧
    t' = { t with q := t'.q, stv := 0, run := some { r with
      idx := r.idx + 1, setQ := if t.guardQ g then r.setQ ||| BitVec.shiftLeft 1 p.toNat else r.setQ } } ∧
    ∀ j < 8, t'.q.getLsbD j = if t.guardQ g && j == p.toNat
      then combine m (if r.setQ.getLsbD p.toNat then t.q.getLsbD p.toNat else r.savedQ.getLsbD p.toNat) v else t.q.getLsbD j) ∧
    (s.Unsampled (partOfTeam k) → IssueFrame s s' k)

theorem uniCmp_eq (s : State) (g : Guard) (m p : BitVec 3) (a b : BitVec 6) (f : Word → Word → Bool) :
    uniCmp s g m p a b f = uniInstr s g fun s _ t r =>
      (s, t.putQ p.toNat (combine m (if r.setQ.getLsbD p.toNat then t.q.getLsbD p.toNat else r.savedQ.getLsbD p.toNat)
        (f (t.uget r a) (t.uget r b))), { r with setQ := r.setQ ||| BitVec.shiftLeft 1 p.toNat }) := rfl

theorem uniCmp_writes {i : Instr} {s : State} {k : Nat} {t : Team} {r : Run} {g : Guard} (h : s.HasRun k t r) (m p : BitVec 3)
    (a b : BitVec 6) (f : Word → Word → Bool) {v : Bool} (hi : exec i s = uniCmp s g m p a b f) (hv : f (t.uget r a) (t.uget r b) = v) :
    UniPredWrites i s k t r g m p v := by
  have e : exec i s = _ := (hi.trans (uniCmp_eq s g m p a b f)).trans (withRun_eq h _)
  by_cases hg : t.guardQ g = true
  · simp only [hg, if_true, hv] at e
    refine ⟨_, e, ⟨_, advance_team _ _ _ _, ?_, fun j hj => ?_⟩, uniIssue_frame _ _ _ _ _⟩
    · rw [if_pos hg]
      rfl
    · refine (Team.getLsbD_putQ t p _ j hj).trans ?_
      simp only [hg, Bool.true_and, beq_iff_eq]
  · simp only [hg, Bool.false_eq_true, if_false] at e
    refine ⟨_, e, ⟨_, advance_team _ _ _ _, ?_, fun j _ => ?_⟩, uniIssue_frame _ _ _ _ _⟩
    · rw [if_neg hg]
    · simp [hg]

/-- Settles O25: the rule of a uniform predicate write (`uniCmp_writes`); the words are those of the encoder. -/
theorem uniformCompares : Obligations.UniformCompares := by
  unfold Obligations.UniformCompares
  intro s k t r h m p a b g l x y old set P
  refine ⟨uniCmp_writes h m p a b (fun x y => x == y) rfl ?eq, uniCmp_writes h m p a b (fun x y => x != y) rfl ?ne,
    uniCmp_writes h m p a b (fun x y => decide (x.toInt < y.toInt)) rfl rfl,
    uniCmp_writes h m p a b (fun x y => decide (x.toInt ≤ y.toInt)) rfl rfl,
    uniCmp_writes h m p a b (fun x y => decide (y.toInt < x.toInt)) rfl rfl,
    uniCmp_writes h m p a b (fun x y => decide (y.toInt ≤ x.toInt)) rfl rfl,
    uniCmp_writes h m p a b (fun x y => decide (x.toNat < y.toNat)) rfl rfl,
    uniCmp_writes h m p a b (fun x y => decide (y.toNat ≤ x.toNat)) rfl rfl,
    ?words⟩
  case eq => exact beq_eq_decide _ _
  case ne => exact congrArg Bool.not (beq_eq_decide _ _)
  case words =>
    simp only [List.forall_mem_cons]
    exact ⟨rfl, rfl, rfl, rfl, rfl, rfl, rfl, rfl, fun _ hx => nomatch hx⟩

end Sys2Proof.Machine
end

section
/-! SUPPORT. Terminals that move or stop their team: branches, calls and divergence (O30, O31). -/

namespace Sys2Proof.Machine

/-! ### What a terminal changes (R82) -/

theorem TerminalFrame.trans {a b c : State} {k : Nat} (h : TerminalFrame a b k) (h' : TerminalFrame b c k) : TerminalFrame a c k := by
  obtain ⟨heq, hteams, hparts⟩ := h
  obtain ⟨heq', hteams', hparts'⟩ := h'
  refine ⟨?_, fun j hj => (hteams' j hj).trans (hteams j hj), fun pt hpt => (hparts' pt hpt).trans (hparts pt hpt)⟩
  rw [heq] at heq'
  exact heq'

theorem setTeam_frame (s : State) (k : Nat) (t : Team) : TerminalFrame s (s.setTeam k t) k :=
  ⟨rfl, fun _ hj => SMap.find_insert_ne _ _ hj, fun _ _ => rfl⟩

/-- A stop that a team asks of its partition (R371). -/
theorem askStop_frame (s : State) (k cause slot code : Nat) : TerminalFrame s (s.askStop (partOfTeam k) cause slot code) k := by
  unfold State.askStop
  dsimp only
  split
  · exact ⟨rfl, fun _ _ => rfl, fun _ _ => rfl⟩
  · exact ⟨rfl, fun _ _ => rfl, fun pt hpt => (part_setPart _ _ _ _).trans (if_neg hpt)⟩

/-- A fault of a terminal stops its team at itself (R80). -/
theorem stopAt_team (s : State) (k : Nat) (t : Team) (r : Run) (code aux : Nat) :
    (s.stopAt k t r code aux).TeamIs k { t with pc := dwordOf r.here, status := .stopped, run := none, base := some r.pc } := by
  unfold State.TeamIs State.stopAt
  rw [attemptOver_teams]
  exact stopTeam_team s k _ _ _

/-! ### How a team terminal ends (R79, R80) -/

section Terminal

variable {i : Instr} {s s1 : State} {k : Nat} {t t1 : Team} {r r1 : Run} {g : Guard} (h : s.HasRun k t r)
  (hb : s.BodyDone k t r false s1 t1 r1)

theorem endsFrom_endRun (ht : s1.TeamIs k t1) {pc : DWord} (hi : exec i s = .next (s1.endRun k pc)) :
    EndsFrom i s s1 k (t1.ended pc (s1.readySince k t1)) :=
  ⟨_, hi, endRun_team s1 k t1 pc ht, endRun_frame s1 k pc⟩

include h hb

/-- One whose guard does not hold goes on behind the trailer. -/
theorem terminal_passed (f : State → Nat → Team → Run → State) (x : Res) (hi : exec i s = x) (hx : x = teamTerminal s g false f)
    (hg : t1.guardQ g = false) : EndsFrom i s s1 k (t1.ended r1.nextPc (s1.readySince k t1)) := by
  obtain ⟨hbody, ht, hr⟩ := hb
  refine endsFrom_endRun ht (hi.trans (hx.trans ?_))
  unfold State.TeamIs at ht
  rw [teamTerminal, withRun_eq h]
  simp only [hbody, State.afterBody, ht, hr, hg, if_true, Bool.false_eq_true, if_false]

variable (hg : t1.guardQ g = true)
include hg

theorem terminal_jumps (pc : Team → Run → DWord) (hi : exec i s = teamTerminal s g false fun s k t r => s.endRun k (pc t r)) :
    EndsFrom i s s1 k (t1.ended (pc t1 r1) (s1.readySince k t1)) :=
  endsFrom_endRun hb.2.1 (hi.trans (teamTerminal_eq h g false _ hb hg))

theorem terminal_traps (code aux : Nat) (hi : exec i s = teamTerminal s g false fun s k t r => s.stopAt k t r code aux) :
    StopsAs i s k t1 r1 :=
  ⟨_, hi.trans (teamTerminal_eq h g false _ hb hg), stopAt_team s1 k t1 r1 code aux⟩

variable (f : Team → Run → Flow) (hi : exec i s = teamTerminal s g false fun s k t r => s.flow k t r (f t r))
include hi

theorem flow_goes {t2 : Team} {pc : DWord} (hf : f t1 r1 = .go t2 pc) (hready : t2.readyAt = t1.readyAt) :
    EndsFrom i s s1 k (t2.ended pc (s1.readySince k t1)) := by
  have hnext := hi.trans (teamTerminal_eq h g false _ hb hg)
  rw [hf] at hnext
  have hsince : (s1.setTeam k t2).readySince k t2 = s1.readySince k t1 := by
    unfold State.readySince
    rw [hready]
    rfl
  refine ⟨_, hnext, ?_, (setTeam_frame s1 k t2).trans (endRun_frame _ k pc)⟩
  rw [← hsince]
  exact endRun_team _ k t2 pc (setTeam_team s1 k t2)

theorem flow_stops {cause : Nat} (hf : f t1 r1 = .fault cause) : StopsAs i s k t1 r1 := by
  have hnext := hi.trans (teamTerminal_eq h g false _ hb hg)
  rw [hf] at hnext
  exact ⟨_, hnext, stopAt_team s1 k t1 r1 4 cause⟩

end Terminal

/-! ### Branches, calls and returns (R129..R131) -/

theorem callFlow_go {t : Team} (r : Run) (pc : DWord) (hd : t.rstack.length < 16) :
    t.callFlow r pc = .go { t with rstack := r.nextPc :: t.rstack } pc := if_neg (by omega)

theorem callFlow_fault {t : Team} (r : Run) (pc : DWord) (hd : 16 ≤ t.rstack.length) : t.callFlow r pc = .fault 4 := if_pos hd

theorem retFlow_go {t : Team} {pc : DWord} {st : List DWord} (hs : t.rstack = pc :: st) : t.retFlow = .go { t with rstack := st } pc := by
  rw [Team.retFlow, hs]

theorem retFlow_fault {t : Team} (hs : t.rstack = []) : t.retFlow = .fault 5 := by
  rw [Team.retFlow, hs]

theorem exec_brk (a : BitVec 6) (g : Guard) (s : State) : exec (.brk a g) s = teamTerminal s g false fun s k t r =>
    if natBit (s.reg (oDbgctl (partOfTeam k))) (48 + (s.wgOf t.w).ten)
    then (s.endRun k r.nextPc).askStop (partOfTeam k) 2 (slotOfTeam k) a.toNat else s.endRun k r.nextPc := rfl

/-- BRK goes on behind the trailer, whether or not it asks its partition to stop. -/
theorem brk_ends {s s1 : State} {k : Nat} {t t1 : Team} {r r1 : Run} (h : s.HasRun k t r) (hb : s.BodyDone k t r false s1 t1 r1)
    (a : BitVec 6) {g : Guard} (hg : t1.guardQ g = true) : EndsFrom (.brk a g) s s1 k (t1.ended r1.nextPc (s1.readySince k t1)) := by
  have hnext := (exec_brk a g s).trans (teamTerminal_eq h g false _ hb hg)
  have hteam := endRun_team s1 k t1 r1.nextPc hb.2.1
  have hframe := endRun_frame s1 k r1.nextPc
  refine ⟨_, hnext, ?_⟩
  dsimp only
  split
  · refine ⟨?_, hframe.trans (askStop_frame _ _ _ _ _)⟩
    unfold State.TeamIs at hteam ⊢
    rw [askStop_teams]
    exact hteam
  · exact ⟨hteam, hframe⟩

/-- Settles O30: the terminals whose guard does not hold by `terminal_passed`; the others by where they go (`terminal_jumps`, `flow_goes`,
`brk_ends`) or by their fault (`flow_stops`, `terminal_traps`). -/
theorem branchTerminals : Obligations.BranchTerminals := by
  unfold Obligations.BranchTerminals
  intro s k t t1 r r1 s1 h hb kq d a b dp g jump now reg
  refine ⟨fun hg => ?passed, fun hg => ?taken⟩
  case passed =>
    have pass {i : Instr} {f : State → Nat → Team → Run → State} (x : Res) (hi : exec i s = x) (hx : x = teamTerminal s g false f) :=
      terminal_passed h hb f x hi hx hg
    simp only [List.forall_mem_cons]
    exact ⟨pass (execBra g dp s) rfl rfl, pass (execCall g dp s) rfl rfl, pass (execRet g s) rfl rfl, pass (execJmpr a g s) rfl rfl,
      pass (execCallr a g s) rfl rfl, pass (execYield g s) rfl rfl, pass (execTrap a g s) rfl rfl, pass (execExit g s) rfl rfl,
      pass (execBarWg g s) rfl rfl, pass (execBarReel g s) rfl rfl, pass (execBackoff kq a g s) rfl rfl, pass (execRegclaim a g s) rfl rfl,
      pass (execWaitv d a b g s) rfl rfl, pass (execKwait a g s) rfl rfl, pass (execNwait a b g s) rfl rfl, pass (execLwait a b g s) rfl rfl,
      pass (handlerReturn s g State.handlerRetry) rfl rfl, pass (handlerReturn s g State.handlerEscalate) rfl rfl,
      pass (execBrk a g s) rfl rfl, fun _ hx => nomatch hx⟩
  case taken =>
    refine ⟨terminal_jumps h hb hg (fun _ r => r.target dp) rfl, terminal_jumps h hb hg (fun t r => t.jumpTo r a) rfl,
      terminal_jumps h hb hg (fun _ r => r.nextPc) rfl, brk_ends h hb a hg, fun hd => ⟨?_, ?_⟩, fun hd => ⟨?_, ?_⟩, fun pc st hs => ?_,
      fun hs => ?_, terminal_traps h hb hg 5 a.toNat rfl⟩
    · exact flow_goes h hb hg (fun t r => t.callFlow r (r.target dp)) rfl (callFlow_go r1 _ hd) rfl
    · exact flow_goes h hb hg (fun t r => t.callFlow r (t.jumpTo r a)) rfl (callFlow_go r1 _ hd) rfl
    · exact flow_stops h hb hg (fun t r => t.callFlow r (r.target dp)) rfl (callFlow_fault r1 _ hd)
    · exact flow_stops h hb hg (fun t r => t.callFlow r (t.jumpTo r a)) rfl (callFlow_fault r1 _ hd)
    · exact flow_goes h hb hg (fun t _ => t.retFlow) rfl (retFlow_go hs) rfl
    · exact flow_stops h hb hg (fun t _ => t.retFlow) rfl (retFlow_fault hs)

/-! ### Divergence (R133..R139) -/

theorem guardQ_always (t : Team) : t.guardQ Guard.always = true := rfl

/-- The lanes of the entry mask in which a predicate holds, lane by lane. -/
theorem holds_eq {t : Team} {r : Run} {p : Guard} {m : Mask}
    (hm : ∀ l < 1024, m.getLsbD l = (decide (l < t.nlanes) && r.entry.getLsbD l && (p.g == 0 || t.pred p.g.toNat l != p.n))) :
    t.holds r p = m := by
  apply BitVec.eq_of_getLsbD_eq
  intro l hl
  rw [Team.holds, testBit_maskOf _ _ _ hl, hm l hl, Bool.and_assoc]
  rfl

section Divergence

variable {t : Team} {r : Run} {p : Guard} {m : Mask} {dp : BitVec 21} (hm : t.holds r p = m)

theorem divifFlow_full (hd : 32 ≤ t.mstack.length) : t.divifFlow r p dp = .fault 0 := if_pos hd

include hm in
theorem divifFlow_some (hd : t.mstack.length < 32) (h0 : m ≠ 0) : t.divifFlow r p dp =
    .go (t.diverged m ({ loop := false, mask := r.entry, wait := r.entry &&& ~~~m, start := 0 } :: t.mstack)) r.nextPc := by
  subst hm
  rw [Team.divifFlow, if_neg (by omega)]
  exact if_pos (by simpa using h0)

include hm in
theorem divifFlow_none (hd : t.mstack.length < 32) (h0 : m = 0) : t.divifFlow r p dp =
    .go (t.diverged (r.entry &&& ~~~m) ({ loop := false, mask := r.entry, wait := 0, start := 0 } :: t.mstack)) (r.target dp) := by
  subst hm
  rw [Team.divifFlow, if_neg (by omega)]
  exact if_neg (by simpa using h0)

/-- How DIVLOOP goes on with entry `e` on top of the stack: with the lanes in which its predicate holds, or with none out of the loop. -/
def Team.loopFlow (t : Team) (r : Run) (m : Mask) (dp : BitVec 21) (e : StackEntry) (st : List StackEntry) : Flow :=
  if m != 0 then .go (t.diverged m (e :: st)) r.nextPc else .go (t.diverged e.mask st) (r.target dp)

theorem loopFlow_some {e : StackEntry} {st : List StackEntry} (h0 : m ≠ 0) :
    t.loopFlow r m dp e st = .go (t.diverged m (e :: st)) r.nextPc := if_pos (by simpa using h0)

theorem loopFlow_none {e : StackEntry} {st : List StackEntry} (h0 : m = 0) :
    t.loopFlow r m dp e st = .go (t.diverged e.mask st) (r.target dp) := if_neg (by simpa using h0)

/-- The entry that a DIVLOOP pushes as it enters its loop. -/
def Run.loopEntry (r : Run) : StackEntry := { loop := true, mask := r.entry, wait := 0, start := r.nextPc }

/-- DIVLOOP is at its loop: the stack's top is the entry that it pushed. -/
def Team.inLoop (t : Team) (r : Run) : Prop := ∃ e st, t.mstack = e :: st ∧ e.loop = true ∧ e.start = r.nextPc

theorem not_inLoop_of_nil (h : t.mstack = []) : ¬ t.inLoop r := by
  rintro ⟨e, st, he, -⟩
  rw [h] at he
  cases he

theorem not_inLoop_of_cons {e : StackEntry} {st : List StackEntry} (h : t.mstack = e :: st) (he : e.loop = false ∨ e.start ≠ r.nextPc) :
    ¬ t.inLoop r := by
  rintro ⟨e', st', he', hl, hs⟩
  rw [h] at he'
  cases he'
  simp [hl, hs] at he

include hm in
theorem divloopFlow_turn {e : StackEntry} {st : List StackEntry} (hs : t.mstack = e :: st) (hl : e.loop = true) (he : e.start = r.nextPc) :
    t.divloopFlow r p dp = t.loopFlow r m dp e st := by
  subst hm
  unfold Team.divloopFlow
  dsimp only
  rw [hs]
  exact if_pos (by simp [hl, he])

theorem divloopFlow_entering (hn : ¬ t.inLoop r) : t.divloopFlow r p dp =
    if 32 ≤ t.mstack.length then .fault 0 else t.loopFlow r (t.holds r p) dp r.loopEntry t.mstack := by
  unfold Team.divloopFlow
  dsimp only
  split
  · rfl
  · next e st hs =>
    refine if_neg fun hc => hn ⟨e, st, hs, ?_⟩
    simpa using hc

include hm in
theorem divloopFlow_enter (hn : ¬ t.inLoop r) (hd : t.mstack.length < 32) :
    t.divloopFlow r p dp = t.loopFlow r m dp r.loopEntry t.mstack := by
  rw [divloopFlow_entering hn, if_neg (by omega), hm]

theorem divloopFlow_full (hn : ¬ t.inLoop r) (hd : 32 ≤ t.mstack.length) : t.divloopFlow r p dp = .fault 0 := by
  rw [divloopFlow_entering hn, if_pos hd]

/-- At depth 0 DIVELSE, DIVJOIN and DIVBRK fault. -/
theorem divergence_empty (h : t.mstack = []) :
    t.divelseFlow r dp = .fault 1 ∧ t.divjoinFlow r = .fault 1 ∧ t.divbrkFlow r p dp = .fault 1 := by
  refine ⟨?_, ?_, ?_⟩
  · rw [Team.divelseFlow, h]
  · rw [Team.divjoinFlow, h]
  · rw [Team.divbrkFlow, h]

section Top

variable {e : StackEntry} {st : List StackEntry} (hs : t.mstack = e :: st)
include hs

/-- At an entry of the other kind they fault too. -/
theorem divergence_loop (hl : e.loop = true) : t.divelseFlow r dp = .fault 2 ∧ t.divjoinFlow r = .fault 2 := by
  constructor
  · simp only [Team.divelseFlow, hs, hl, if_true]
  · simp only [Team.divjoinFlow, hs, hl, if_true]

theorem divbrkFlow_branch (hl : e.loop = false) : t.divbrkFlow r p dp = .fault 2 := by
  simp only [Team.divbrkFlow, hs, hl, Bool.not_false, if_true]

theorem divjoinFlow_branch (hl : e.loop = false) : t.divjoinFlow r = .go (t.diverged e.mask st) r.nextPc := by
  simp only [Team.divjoinFlow, hs, hl, Bool.false_eq_true, if_false]

theorem divelseFlow_waiting (hl : e.loop = false) (hw : e.wait ≠ 0) :
    t.divelseFlow r dp = .go (t.diverged e.wait ({ e with wait := 0 } :: st)) r.nextPc := by
  simp only [Team.divelseFlow, hs, hl, Bool.false_eq_true, if_false, bne_iff_ne, ne_eq, hw, not_false_eq_true, if_true]

theorem divelseFlow_done (hl : e.loop = false) (hw : e.wait = 0) : t.divelseFlow r dp = .go t (r.target dp) := by
  simp only [Team.divelseFlow, hs, hl, Bool.false_eq_true, if_false, hw, bne_self_eq_false]

include hm in
theorem divbrkFlow_all (hl : e.loop = true) (ha : m = r.entry) : t.divbrkFlow r p dp = .go (t.diverged e.mask st) (r.target dp) := by
  simp only [Team.divbrkFlow, hs, hl, hm, ha, Bool.not_true, Bool.false_eq_true, if_false, beq_self_eq_true, if_true]

include hm in
theorem divbrkFlow_some (hl : e.loop = true) (ha : m ≠ r.entry) :
    t.divbrkFlow r p dp = .go (t.diverged (r.entry &&& ~~~m) t.mstack) r.nextPc := by
  simp only [Team.divbrkFlow, hs, hl, hm, Bool.not_true, Bool.false_eq_true, if_false, beq_iff_eq, ha]

end Top

end Divergence

/-- Settles O31: the flow of each terminal by the stack's depth and its top entry, carried out by `flow_goes` and `flow_stops`. -/
theorem divergenceTerminals : Obligations.DivergenceTerminals := by
  unfold Obligations.DivergenceTerminals
  intro s k t t1 r r1 s1 h hb dp p m hm jump now E branch loop
  have hholds := holds_eq hm
  have goes {i : Instr} (f : Team → Run → Flow) (hi : exec i s = teamTerminal s Guard.always false fun s k t r => s.flow k t r (f t r))
      {active : Mask} {st : List StackEntry} {pc : DWord} (hf : f t1 r1 = .go (t1.diverged active st) pc) : E i active st pc :=
    flow_goes h hb (guardQ_always t1) f hi hf rfl
  have stops {i : Instr} (f : Team → Run → Flow) (hi : exec i s = teamTerminal s Guard.always false fun s k t r => s.flow k t r (f t r))
      {cause : Nat} (hf : f t1 r1 = .fault cause) : StopsAs i s k t1 r1 := flow_stops h hb (guardQ_always t1) f hi hf
  have loops {e : StackEntry} {st : List StackEntry} (hf : t1.divloopFlow r1 p dp = t1.loopFlow r1 m dp e st) :
      (m ≠ 0 → E (.divloop p dp) m (e :: st) r1.nextPc) ∧ (m = 0 → E (.divloop p dp) e.mask st jump) :=
    ⟨fun h0 => goes (fun t r => t.divloopFlow r p dp) rfl (hf.trans (loopFlow_some h0)),
      fun h0 => goes (fun t r => t.divloopFlow r p dp) rfl (hf.trans (loopFlow_none h0))⟩
  refine ⟨fun hd => ⟨fun h0 => ?_, fun h0 => ?_⟩, fun hd => ?_, fun hs => ?empty, fun e st hs => ⟨fun hl => ?branch, fun hl => ?loop,
    fun hl he => ?turn, fun he => ?enter⟩⟩
  · exact goes (fun t r => t.divifFlow r p dp) rfl (divifFlow_some hholds hd h0)
  · exact goes (fun t r => t.divifFlow r p dp) rfl (divifFlow_none hholds hd h0)
  · exact stops (fun t r => t.divifFlow r p dp) rfl (divifFlow_full hd)
  case empty =>
    obtain ⟨helse, hjoin, hbrk⟩ := divergence_empty (r := r1) (p := p) (dp := dp) hs
    have hloop := loops (divloopFlow_enter hholds (not_inLoop_of_nil hs) (by rw [hs]; decide))
    rw [hs] at hloop
    exact ⟨stops (fun t r => t.divelseFlow r dp) rfl helse, stops (fun t r => t.divjoinFlow r) rfl hjoin,
      stops (fun t r => t.divbrkFlow r p dp) rfl hbrk, hloop⟩
  case branch =>
    exact ⟨stops (fun t r => t.divbrkFlow r p dp) rfl (divbrkFlow_branch hs hl), goes (fun t r => t.divjoinFlow r) rfl (divjoinFlow_branch hs hl),
      fun hw => goes (fun t r => t.divelseFlow r dp) rfl (divelseFlow_waiting hs hl hw),
      fun hw => flow_goes h hb (guardQ_always t1) (fun t r => t.divelseFlow r dp) rfl (divelseFlow_done hs hl hw) rfl⟩
  case loop =>
    obtain ⟨helse, hjoin⟩ := divergence_loop (r := r1) (dp := dp) hs hl
    exact ⟨stops (fun t r => t.divelseFlow r dp) rfl helse, stops (fun t r => t.divjoinFlow r) rfl hjoin,
      fun ha => goes (fun t r => t.divbrkFlow r p dp) rfl (divbrkFlow_all hholds hs hl ha),
      fun ha => goes (fun t r => t.divbrkFlow r p dp) rfl (divbrkFlow_some hholds hs hl ha)⟩
  case turn => exact loops (divloopFlow_turn hholds hs hl he)
  case enter =>
    have hn := not_inLoop_of_cons hs he
    exact ⟨fun hd => loops (divloopFlow_enter hholds hn hd), fun hd => stops (fun t r => t.divloopFlow r p dp) rfl (divloopFlow_full hn hd)⟩

end Sys2Proof.Machine
end

section
/-! SUPPORT. The rendezvous: how two teams pair, move their registers, wait or stop (O36). -/

namespace Sys2Proof.Machine

/-! ### A team without a claim stops by itself (R139, R221) -/

theorem withdraw_unclaimed {s : State} {j w : Nat} (hc : ∀ c ∈ (s.wgOf w).claims, c.1 ≠ j) :
    (∀ w', ((s.withdraw j w).wgOf w').claims = (s.wgOf w').claims) ∧ (s.withdraw j w).teams = s.teams := by
  have hheld : ((s.wgOf w).claims.any fun c => c.1 == j) = false := by
    rw [List.any_eq_false]
    intro c hm
    simpa using hc c hm
  have hkeep : (s.wgOf w).claims.filter (fun c => c.1 != j) = (s.wgOf w).claims :=
    List.filter_eq_self.mpr fun c hm => by simpa using hc c hm
  unfold State.withdraw
  simp only [hheld, Bool.false_eq_true, if_false, and_true]
  intro w'
  cases hw : s.wgs.find? w with
  | none =>
    have hsame : s.wgs.modify w (fun g => { g with
        rdv := g.rdv.map fun c => (c.1, c.2.filter fun r => r.k != j), claims := g.claims.filter fun c => c.1 != j }) = s.wgs := by
      rw [SMap.modify, hw]
    rw [State.wgOf, hsame]
    rfl
  | some g =>
    rw [State.wgOf, SMap.getD_modify _ _ _ _ _ (by rw [hw]; rfl)]
    split
    · next he =>
      subst he
      exact hkeep
    · rfl

theorem stopTeam_unclaimed {s : State} (j : Nat) {t : Team} (pc : DWord) (e : Err) (hc : ∀ c ∈ (s.wgOf t.w).claims, c.1 ≠ j) :
    (∀ w, ((s.stopTeam j t pc e).wgOf w).claims = (s.wgOf w).claims) ∧
      ∀ k ≠ j, (s.stopTeam j t pc e).teams.find? k = s.teams.find? k := by
  obtain ⟨hclaims, hteams⟩ := withdraw_unclaimed hc
  unfold State.stopTeam
  dsimp only
  refine ⟨fun w => ?_, fun k hk => ?_⟩
  · refine Eq.trans ?_ (hclaims w)
    unfold State.wgOf
    rw [queueDump_wgs, side_wgs (side_report _ _ _), attemptOver_wgs]
    rfl
  · rw [queueDump_teams, side_teams (side_report _ _ _), attemptOver_teams, ← hteams]
    exact SMap.find_insert_ne _ _ hk

theorem stopAt_unclaimed {s : State} (j : Nat) {t : Team} (r : Run) (code aux : Nat) (hc : ∀ c ∈ (s.wgOf t.w).claims, c.1 ≠ j) :
    (∀ w, ((s.stopAt j t r code aux).wgOf w).claims = (s.wgOf w).claims) ∧
      ∀ k ≠ j, (s.stopAt j t r code aux).teams.find? k = s.teams.find? k := by
  obtain ⟨hclaims, hteams⟩ := stopTeam_unclaimed (s := s) j (t := { t with base := some r.pc }) (dwordOf r.here)
    { cat := 3, code := code, aux0 := aux } hc
  unfold State.stopAt
  refine ⟨fun w => ?_, fun k hk => ?_⟩
  · refine Eq.trans ?_ (hclaims w)
    unfold State.wgOf
    rw [attemptOver_wgs]
  · rw [attemptOver_teams]
    exact hteams k hk

theorem rdvFault_eq {s : State} {k : Nat} {t : Team} {r : Run} (ht : s.TeamIs k t) (hr : t.run = some r) :
    s.rdvFault k = s.stopAt k t r 4 6 := by
  unfold State.TeamIs at ht
  simp only [State.rdvFault, ht, hr]
  rfl

/-- Two teams that pair with different widths both stop, each at its rendezvous. -/
theorem rdvFault_both {s : State} {j k : Nat} {tj tk : Team} {rj rk : Run} (hjk : j ≠ k) (hj : s.TeamIs j tj) (hrj : tj.run = some rj)
    (hk : s.TeamIs k tk) (hrk : tk.run = some rk) (hcj : ∀ c ∈ (s.wgOf tj.w).claims, c.1 ≠ j) (hck : ∀ c ∈ (s.wgOf tk.w).claims, c.1 ≠ k) :
    ((s.rdvFault j).rdvFault k).TeamIs k { tk with pc := dwordOf rk.here, status := .stopped, run := none, base := some rk.pc } ∧
      ((s.rdvFault j).rdvFault k).TeamIs j { tj with pc := dwordOf rj.here, status := .stopped, run := none, base := some rj.pc } := by
  obtain ⟨hclaims, hteams⟩ := stopAt_unclaimed j rj 4 6 hcj
  have hk' : (s.stopAt j tj rj 4 6).TeamIs k tk := (hteams k hjk.symm).trans hk
  have hck' : ∀ c ∈ ((s.stopAt j tj rj 4 6).wgOf tk.w).claims, c.1 ≠ k := by rwa [hclaims]
  obtain ⟨-, hteams'⟩ := stopAt_unclaimed k rk 4 6 hck'
  rw [rdvFault_eq hj hrj, rdvFault_eq hk' hrk]
  exact ⟨stopAt_team _ k tk rk 4 6, (hteams' j hjk).trans (stopAt_team s j tj rj 4 6)⟩

/-! ### Registers that move (R144, R146) -/

/-- Register `to'` takes `src`'s register `from'` in each lane of `m`, and 0 above its lanes. -/
def Team.receive (dst src : Team) (m : Mask) (from' to' : Nat) : Team :=
  dst.put to' m.has fun l => if l < src.nlanes then src.get from' l else 0

theorem Team.get_receive (dst src : Team) (m : Mask) (from' to' n l : Nat) (hl : l < dst.nlanes) :
    (dst.receive src m from' to').get n l =
      if m.getLsbD l && decide (n = to') then (if l < src.nlanes then src.get from' l else 0) else dst.get n l := by
  rw [Team.receive, Team.get_put _ _ _ _ _ _ hl]
  by_cases hn : n = to'
  · subst hn
    simp [Mask.has]
  · simp [hn]

/-- One register, or a pair. -/
def Team.receives (dst src : Team) (m : Mask) (from' to' : Nat) (wide : Bool) : Team :=
  if wide then (dst.receive src m from' to').receive src m (from' + 1) (to' + 1) else dst.receive src m from' to'

theorem Team.receives_frame (dst src : Team) (m : Mask) (from' to' : Nat) (wide : Bool) :
    dst.receives src m from' to' wide = { dst with v := (dst.receives src m from' to' wide).v } := by
  cases wide <;> rfl

section Receives

variable (dst src : Team) (m : Mask) (from' to' : Nat) (wide : Bool) (l : Nat) (hl : l < dst.nlanes)
include hl

theorem Team.get_receives_low (n : Nat) (hn : n ≠ to' + 1) : (dst.receives src m from' to' wide).get n l =
    if m.getLsbD l && decide (n = to') then (if l < src.nlanes then src.get from' l else 0) else dst.get n l := by
  cases wide with
  | false => exact Team.get_receive dst src m from' to' n l hl
  | true =>
    refine (Team.get_receive (dst.receive src m from' to') src m (from' + 1) (to' + 1) n l hl).trans ?_
    rw [decide_eq_false hn, Bool.and_false, if_neg Bool.false_ne_true]
    exact Team.get_receive dst src m from' to' n l hl

theorem Team.get_receives_high : (dst.receives src m from' to' wide).get (to' + 1) l = if wide
    then (if m.getLsbD l && decide (to' + 1 = to' + 1) then (if l < src.nlanes then src.get (from' + 1) l else 0) else dst.get (to' + 1) l)
    else dst.get (to' + 1) l := by
  have hlow : (dst.receive src m from' to').get (to' + 1) l = dst.get (to' + 1) l := by
    rw [Team.get_receive _ _ _ _ _ _ _ hl, decide_eq_false (by omega), Bool.and_false, if_neg Bool.false_ne_true]
  cases wide with
  | false => exact hlow
  | true =>
    refine (Team.get_receive (dst.receive src m from' to') src m (from' + 1) (to' + 1) (to' + 1) l hl).trans ?_
    rw [hlow]
    rfl

end Receives

theorem transfer_eq {s : State} {src dst : Rdv} {a b : Team} {rb : Run} (ha : s.TeamIs src.k a) (hb : s.TeamIs dst.k b)
    (hr : b.run = some rb) : s.transfer src dst = s.setTeam dst.k (b.receives a rb.entry src.reg dst.reg src.wide) := by
  unfold State.TeamIs at ha hb
  unfold State.transfer
  simp only [ha, hb, hr]
  rfl

/-- Both go on behind their rendezvous. -/
theorem release_endRun {s : State} {j k : Nat} {tj tk : Team} {rj : Run} (hjk : j ≠ k) (hj : s.TeamIs j tj) (hrj : tj.run = some rj)
    (hk : s.TeamIs k tk) (pc : DWord) : ((s.release j).endRun k pc).TeamIs k (tk.ended pc (s.readySince k tk)) ∧
      ((s.release j).endRun k pc).TeamIs j (tj.ended rj.nextPc s.tick) := by
  have hk' : (s.release j).TeamIs k tk := by
    unfold State.TeamIs State.release
    rw [State.modTeam_teams, SMap.find_modify, if_neg hjk.symm]
    exact hk
  have hj' := modTeam_team s j tj (fun t => t.nextRun (match t.run with | some r => r.nextPc | none => t.pc) s.tick) hj
  rw [hrj] at hj'
  exact ⟨endRun_team _ k tk pc hk', ((endRun_frame _ k pc).2.1 j hjk).trans hj'⟩

/-! ### A rendezvous acts (R145) -/

section Rendezvous

variable {s s1 : State} {k : Nat} {t t1 : Team} {r r1 : Run} (h : s.HasRun k t r)
  (hbody : (if r.bodyDone then s else s.laneIssue k t r Guard.always).bodyEnd k t r false noTerm noAtt = (s1, true))
  (ht : s1.TeamIs k t1) (hr : t1.run = some r1) (slot reg : BitVec 6) (send wide : Bool)

/-- The state without what waited at the slot for `j`. -/
def State.unslot (s : State) (w slot j : Nat) : State :=
  s.setWg w { s.wgOf w with rdv := (s.wgOf w).rdv.insert slot (((s.wgOf w).rdv.getD slot []).filter fun y => y.k != j) }

/-- The state with one more that waits at the slot. -/
def State.enslot (s : State) (w slot : Nat) (x : Rdv) : State :=
  s.setWg w { s.wgOf w with rdv := (s.wgOf w).rdv.insert slot ((s.wgOf w).rdv.getD slot [] ++ [x]) }

theorem enslot_rdv (s : State) (w slot : Nat) (x : Rdv) :
    ((s.enslot w slot x).wgOf w).rdv.getD slot [] = (s.wgOf w).rdv.getD slot [] ++ [x] := by
  unfold State.enslot
  rw [State.wgOf, State.setWg_wgs, SMap.getD_insert, if_pos rfl, SMap.getD_insert, if_pos rfl]

theorem unslot_claims (s : State) (w slot j w' : Nat) : ((s.unslot w slot j).wgOf w').claims = (s.wgOf w').claims := by
  unfold State.unslot State.wgOf
  rw [State.setWg_wgs, SMap.getD_insert]
  split
  · next he => rw [he]
  · rfl

include h hbody ht hr

/-- With no partner it waits at the slot. -/
theorem rendezvous_waits (hq : ((s1.wgOf t1.w).rdv.getD slot.toNat []).find? (fun x => x.send != send) = none) :
    rendezvous s slot reg send wide =
      .next ((s1.enslot t1.w slot.toNat { k := k, send := send, wide := wide, reg := reg.toNat }).blockRun k 11) := by
  unfold State.TeamIs at ht
  unfold rendezvous
  rw [withRun_eq h]
  simp only [hbody, State.afterBody, ht, hr, hq, if_true]
  rfl

/-- With one it moves the registers, or both stop. -/
theorem rendezvous_meets {x : Rdv} (hq : ((s1.wgOf t1.w).rdv.getD slot.toNat []).find? (fun x => x.send != send) = some x) :
    rendezvous s slot reg send wide =
      let me : Rdv := { k := k, send := send, wide := wide, reg := reg.toNat }
      let s2 := s1.unslot t1.w slot.toNat x.k
      .next (if x.wide != wide then (s2.rdvFault x.k).rdvFault k
        else ((if send then s2.transfer me x else s2.transfer x me).release x.k).endRun k r1.nextPc) := by
  unfold State.TeamIs at ht
  unfold rendezvous
  rw [withRun_eq h]
  simp only [hbody, State.afterBody, ht, hr, hq, if_true]
  rfl

/-- A partner of the other width stops with the team. -/
theorem rendezvous_mismatch {i : Instr} (hi : exec i s = rendezvous s slot reg send wide) {x : Rdv} {tx : Team} {rx : Run}
    (hq : ((s1.wgOf t1.w).rdv.getD slot.toNat []).find? (fun x => x.send != send) = some x) (hk : x.k ≠ k) (hx : s1.TeamIs x.k tx)
    (hrx : tx.run = some rx) (hw : x.wide ≠ wide) (hc : ∀ c ∈ (s1.wgOf t1.w).claims ++ (s1.wgOf tx.w).claims, c.1 ≠ k ∧ c.1 ≠ x.k) :
    Completes i s fun s' => s'.TeamIs k { t1 with pc := dwordOf r1.here, status := .stopped, run := none, base := some r1.pc } ∧
      s'.TeamIs x.k { tx with pc := dwordOf rx.here, status := .stopped, run := none, base := some rx.pc } := by
  refine ⟨_, hi.trans (rendezvous_meets h hbody ht hr slot reg send wide hq), ?_⟩
  dsimp only
  rw [if_pos (bne_iff_ne.mpr hw)]
  refine rdvFault_both hk hx hrx ht hr (fun c hm => ?_) fun c hm => ?_
  · rw [unslot_claims] at hm
    exact (hc c (List.mem_append_right _ hm)).2
  · rw [unslot_claims] at hm
    exact (hc c (List.mem_append_left _ hm)).1

section SameWidth

variable {i : Instr} {x : Rdv} {tx : Team} {rx : Run} (hk : x.k ≠ k) (hx : s1.TeamIs x.k tx) (hrx : tx.run = some rx) (hw : x.wide = wide)
include hk hx hrx hw

/-- The sender's registers go to the partner. -/
theorem rendezvous_sends (hi : exec i s = rendezvous s slot reg true wide)
    (hq : ((s1.wgOf t1.w).rdv.getD slot.toNat []).find? (fun x => x.send != true) = some x) :
    Completes i s fun s' => s'.TeamIs k (t1.ended r1.nextPc (s1.readySince k t1)) ∧
      s'.TeamIs x.k ((tx.receives t1 rx.entry reg.toNat x.reg wide).ended rx.nextPc s1.tick) := by
  refine ⟨_, hi.trans (rendezvous_meets h hbody ht hr slot reg true wide hq), ?_⟩
  dsimp only
  have hmove := transfer_eq (s := s1.unslot t1.w slot.toNat x.k) (src := { k := k, send := true, wide := wide, reg := reg.toNat })
    (dst := x) ht hx hrx
  rw [if_neg (by simpa using hw), if_pos rfl, hmove]
  refine release_endRun hk (setTeam_team _ _ _) (rj := rx) ?_ (tk := t1) ?_ r1.nextPc
  · rw [Team.receives_frame]
    exact hrx
  · exact (SMap.find_insert_ne _ _ hk.symm).trans ht

/-- The partner's registers come to the receiver. -/
theorem rendezvous_receives (hi : exec i s = rendezvous s slot reg false wide)
    (hq : ((s1.wgOf t1.w).rdv.getD slot.toNat []).find? (fun x => x.send != false) = some x) :
    Completes i s fun s' =>
      s'.TeamIs k ((t1.receives tx r1.entry x.reg reg.toNat wide).ended r1.nextPc (s1.readySince k t1)) ∧
      s'.TeamIs x.k (tx.ended rx.nextPc s1.tick) := by
  refine ⟨_, hi.trans (rendezvous_meets h hbody ht hr slot reg false wide hq), ?_⟩
  dsimp only
  have hmove := transfer_eq (s := s1.unslot t1.w slot.toNat x.k) (src := x)
    (dst := { k := k, send := false, wide := wide, reg := reg.toNat }) hx ht hr
  rw [if_neg (by simpa using hw), if_neg Bool.false_ne_true, hmove]
  have hready : (t1.receives tx r1.entry x.reg reg.toNat x.wide).readyAt = t1.readyAt := by rw [Team.receives_frame]
  have hsince : ((s1.unslot t1.w slot.toNat x.k).setTeam k (t1.receives tx r1.entry x.reg reg.toNat x.wide)).readySince k
      (t1.receives tx r1.entry x.reg reg.toNat x.wide) = s1.readySince k t1 := by
    unfold State.readySince
    rw [hready]
    rfl
  rw [← hsince, ← hw]
  refine release_endRun hk ?_ hrx (setTeam_team _ _ _) r1.nextPc
  exact (SMap.find_insert_ne _ _ hk).trans hx

end SameWidth

end Rendezvous

/-- Settles O36: no partner (`rendezvous_waits`), one of the other width (`rendezvous_mismatch`), and one of the same width, to which the
registers go (`rendezvous_sends`) or from which they come (`rendezvous_receives`). -/
theorem rendezvousResults : Obligations.RendezvousResults := by
  unfold Obligations.RendezvousResults
  intro s k t t1 r r1 s1 h hbody ht hr slot reg q moved R
  have all (i : Instr) (send wide : Bool) (hi : exec i s = rendezvous s slot reg send wide) : R i send wide := by
    refine ⟨fun hq => ?_, fun x tx rx hq hk hx hrx => ⟨fun hw hc => ?_, fun hw => ?_⟩⟩
    · have hnone : q.find? (fun x => x.send != send) = none := List.find?_eq_none.mpr fun x hm => by simp [hq x hm]
      refine ⟨_, hi.trans (rendezvous_waits h hbody ht hr slot reg send wide hnone), blockRun_team _ k 11 t1 ht, ?_⟩
      have hkeep := enslot_rdv s1 t1.w slot.toNat { k := k, send := send, wide := wide, reg := reg.toNat }
      unfold State.blockRun
      rw [State.wgOf, attemptOver_wgs]
      exact hkeep
    · exact rendezvous_mismatch h hbody ht hr slot reg send wide hi hq hk hx hrx hw hc
    · cases send with
      | true =>
        obtain ⟨s', hs, hteam, hteamx⟩ := rendezvous_sends h hbody ht hr slot reg wide hk hx hrx hw hi hq
        refine ⟨s', hs, t1, _, rfl, Team.receives_frame _ _ _ _ _ _, hteam, hteamx, fun _ => ⟨rfl, fun j hj n hn => ?_⟩, nofun,
          fun _ j hj => ?_, nofun⟩
        · exact Team.get_receives_low tx t1 rx.entry reg.toNat x.reg wide j hj n hn
        · exact Team.get_receives_high tx t1 rx.entry reg.toNat x.reg wide j hj
      | false =>
        obtain ⟨s', hs, hteam, hteamx⟩ := rendezvous_receives h hbody ht hr slot reg wide hk hx hrx hw hi hq
        refine ⟨s', hs, _, tx, Team.receives_frame _ _ _ _ _ _, rfl, hteam, hteamx, nofun, fun _ => ⟨rfl, fun j hj n hn => ?_⟩, nofun,
          fun _ j hj => ?_⟩
        · exact Team.get_receives_low t1 tx r1.entry x.reg reg.toNat wide j hj n hn
        · exact Team.get_receives_high t1 tx r1.entry x.reg reg.toNat wide j hj
  exact ⟨all (.xsend slot reg) true false rfl, all (.xrecv reg slot) false false rfl, all (.xsend64 slot reg) true true rfl,
    all (.xrecv64 reg slot) false true rfl⟩

end Sys2Proof.Machine
end

section
/-! SUPPORT. Floating-point, packed and conversion instructions of the lane set: the result and the flags of a lane (O12, O14, O15). -/

namespace Sys2Proof.Machine

/-! ### Results with flags (R108, R159) -/

/-- NV of one operand. -/
theorem sigNV_singleton (x : Num) : sigNV [x] = if x.isSig then flNV else 0 := by
  simp [sigNV, flagIf]

section Results

variable {i : Instr} {s : State} {k : Nat} {t : Team} {r : Run} {g : Guard} (h : s.HasRun k t r) (d a b : BitVec 6)
include h

theorem laneFlagOp_writes_of_eq (f : Team → Nat → Word × Word) {v fl : Nat → Word} (hi : exec i s = laneFlagOp s g d f)
    (hv : ∀ l, f t l = (v l, fl l)) : LaneWrites i s k t r g (toReg d.toNat v) fl := by
  have hw := laneFlagOp_writes h d f hi
  simpa only [hv] using hw

/-- An exact result delivered in FP32 under FRM (R164). -/
theorem laneF32_writes (f : Team → Nat → Num × Word) (hi : exec i s = laneF32 s g d f) : LaneWrites i s k t r g
    (toReg d.toNat fun l => BitVec.ofNat 32 (fp32.deliver t.mode (f t l)).1) fun l => (fp32.deliver t.mode (f t l)).2 :=
  laneFlagOp_writes h d (fun t l => asWord (fp32.deliver t.mode (f t l))) hi

/-- Packed halves, each rounded under FRM (R168). -/
theorem laneHalf_writes (f : Fmt) (op : Nat → Num → Num → Num → Num × Word) (hi : exec i s = laneHalf s g d a b f op) :
    let v := fun l => packed 2 16 fun j => f.deliver t.mode
      (op t.mode (f.part (t.get a.toNat l) 16 j) (f.part (t.get b.toNat l) 16 j) (f.part (t.get (b.toNat + 1) l) 16 j))
    LaneWrites i s k t r g (toReg d.toNat fun l => (v l).1) fun l => (v l).2 :=
  laneFlagOp_writes_of_eq h d _ hi fun _ => rfl

/-- Packed bytes, each settled by the FP8 overflow rule (R169). -/
theorem laneQuart_writes (f : Fmt) (op : Nat → Num → Num → Num × Word) (hi : exec i s = laneQuart s g d a b f op) :
    let v := fun l => packed 4 8 fun j => f.fp8 t.mode t.nanov
      (op t.mode (f.part (t.get a.toNat l) 8 j) (f.part (t.get b.toNat l) 8 j))
    LaneWrites i s k t r g (toReg d.toNat fun l => (v l).1) fun l => (v l).2 :=
  laneFlagOp_writes_of_eq h d _ hi fun _ => rfl

/-- The smaller or the larger of each pair of sub-elements (R168, R169). -/
theorem lanePackMin_writes (f : Fmt) (n w : Nat) (max' : Bool) (hi : exec i s = lanePackMin s g d a b f n w max') :
    let v := fun l => packed n w fun j =>
      f.minMax max' (natBits (t.get a.toNat l).toNat (w * j) w) (natBits (t.get b.toNat l).toNat (w * j) w)
    LaneWrites i s k t r g (toReg d.toNat fun l => (v l).1) fun l => (v l).2 :=
  laneFlagOp_writes_of_eq h d _ hi fun _ => rfl

/-- FP32 narrowed to two halves (R171). -/
theorem narrow2_writes (f : Fmt) (hi : exec i s = narrow2 s g d a b f) :
    let x := fun l (j : Nat) => fp32.decode (t.get (if j = 0 then a.toNat else b.toNat) l).toNat
    let v := fun l => packed 2 16 fun j => f.deliver t.mode (x l j, if (x l j).isSig then flNV else 0)
    LaneWrites i s k t r g (toReg d.toNat fun l => (v l).1) fun l => (v l).2 :=
  laneFlagOp_writes_of_eq h d _ hi fun _ => by
    simp only [sigNV_singleton]
    rfl

/-- FP32 narrowed to a byte (R172). -/
theorem narrow8_writes (f : Fmt) (hi : exec i s = narrow8 s g d a f) :
    let x := fun l => fp32.decode (t.get a.toNat l).toNat
    let v := fun l => f.fp8 t.mode t.nanov (x l, if (x l).isSig then flNV else 0)
    LaneWrites i s k t r g (toReg d.toNat fun l => BitVec.ofNat 32 (v l).1) fun l => (v l).2 :=
  laneFlagOp_writes_of_eq h d _ hi fun _ => by
    simp only [sigNV_singleton]
    rfl

/-- A narrow value widened to FP32 (R171, R172). -/
theorem widenF_writes (f : Fmt) (w : Nat) (hi : exec i s = widenF s g d a f w) :
    let x := fun l => f.part (t.get a.toNat l) w 0
    let v := fun l => fp32.deliver 0 (x l, if (x l).isSig then flNV else 0)
    LaneWrites i s k t r g (toReg d.toNat fun l => BitVec.ofNat 32 (v l).1) fun l => (v l).2 :=
  laneFlagOp_writes_of_eq h d _ hi fun _ => by
    simp only [sigNV_singleton]
    rfl

end Results

/-- Settles O12: FADD to FNMAC are an exact result delivered (`laneF32_writes`); FMIN and FMAX choose an operand. -/
theorem floatArithmetic : Obligations.FloatArithmetic := by
  unfold Obligations.FloatArithmetic
  intro s k t r h d a b g x y z P R
  exact ⟨laneF32_writes h d (fun t l => (t.f32 a.toNat l).add t.mode (t.f32 b.toNat l)) rfl,
    laneF32_writes h d (fun t l => (t.f32 a.toNat l).add t.mode (t.f32 b.toNat l).negate) rfl,
    laneF32_writes h d (fun t l => (t.f32 a.toNat l).mul (t.f32 b.toNat l)) rfl,
    laneF32_writes h d (fun t l => Num.fma t.mode (t.f32 a.toNat l) (t.f32 b.toNat l) (t.f32 (b.toNat + 1) l)) rfl,
    laneF32_writes h d (fun t l => Num.fma t.mode (t.f32 a.toNat l) (t.f32 b.toNat l) (t.f32 (b.toNat + 1) l).negate) rfl,
    laneF32_writes h d (fun t l => Num.fma t.mode (t.f32 a.toNat l).negate (t.f32 b.toNat l) (t.f32 (b.toNat + 1) l)) rfl,
    laneFlagOp2_writes h d a b (fun x y => asWord (fp32.minMax false x.toNat y.toNat)) rfl fun _ => rfl,
    laneFlagOp2_writes h d a b (fun x y => asWord (fp32.minMax true x.toNat y.toNat)) rfl fun _ => rfl⟩

/-- Settles O14: the sums, products and multiply-adds of packed halves (`laneHalf_writes`) and bytes (`laneQuart_writes`), their
minima and maxima (`lanePackMin_writes`), and DOT4 as one exact sum delivered in FP32 (`laneF32_writes`). -/
theorem packedArithmetic : Obligations.PackedArithmetic := by
  unfold Obligations.PackedArithmetic
  intro s k t r h d a b g w u v P H Q M D
  exact ⟨laneHalf_writes h d a b bf16 (fun md x y _ => x.add md y) rfl, laneHalf_writes h d a b bf16 (fun _ x y _ => x.mul y) rfl,
    laneHalf_writes h d a b bf16 Num.fma rfl,
    laneHalf_writes h d a b fp16 (fun md x y _ => x.add md y) rfl, laneHalf_writes h d a b fp16 (fun _ x y _ => x.mul y) rfl,
    laneHalf_writes h d a b fp16 Num.fma rfl,
    lanePackMin_writes h d a b bf16 2 16 false rfl, lanePackMin_writes h d a b bf16 2 16 true rfl,
    laneQuart_writes h d a b e4m3 (fun md x y => x.add md y) rfl, laneQuart_writes h d a b e4m3 (fun _ x y => x.mul y) rfl,
    laneQuart_writes h d a b e5m2 (fun md x y => x.add md y) rfl, laneQuart_writes h d a b e5m2 (fun _ x y => x.mul y) rfl,
    lanePackMin_writes h d a b e4m3 4 8 false rfl, lanePackMin_writes h d a b e4m3 4 8 true rfl,
    laneF32_writes h d (fun t l => dot4 e4m3 t.mode (t.get a.toNat l) (t.get b.toNat l)) rfl,
    laneF32_writes h d (fun t l => dot4 e5m2 t.mode (t.get a.toNat l) (t.get b.toNat l)) rfl⟩

/-- Settles O15: integers and FP32 numbers, FP32 narrowed to halves (`narrow2_writes`) and bytes (`narrow8_writes`), and the narrow
formats widened (`widenF_writes`). -/
theorem conversionResults : Obligations.ConversionResults := by
  unfold Obligations.ConversionResults
  intro s k t r h d a b g w x P N T W H E
  exact ⟨laneF32_writes h d (fun t l => (Num.ofInt (t.get a.toNat l).toInt, 0)) rfl,
    laneF32_writes h d (fun t l => (Num.ofInt (t.get a.toNat l).toNat, 0)) rfl,
    laneFlagOp_writes_of_eq h d _ rfl fun _ => rfl, laneFlagOp_writes_of_eq h d _ rfl fun _ => rfl,
    narrow2_writes h d a b bf16 rfl, narrow2_writes h d a b fp16 rfl,
    widenF_writes h d a bf16 16 rfl, widenF_writes h d a fp16 16 rfl,
    narrow8_writes h d a e4m3 rfl, narrow8_writes h d a e5m2 rfl,
    widenF_writes h d a e4m3 8 rfl, widenF_writes h d a e5m2 8 rfl, widenF_writes h d a e2m1 4 rfl,
    widenF_writes h d a e2m3 6 rfl, widenF_writes h d a e3m2 6 rfl,
    laneFlagOp_writes_of_eq h d _ rfl fun _ => rfl⟩

end Sys2Proof.Machine
end

section
/-! SUPPORT. FP32 codes and their numbers: the fields of a code, what is delivered without rounding, rounding to a whole number (O13, O16). -/

namespace Sys2Proof.Machine

/-! ### The fields of an FP32 code (Table 8.1) -/

/-- The exponent field, the mantissa field and the sign of a code. -/
def fp32Exp (c : Word) : Nat := c.toNat / 2 ^ 23 % 256
def fp32Man (c : Word) : Nat := c.toNat % 2 ^ 23
def fp32Neg (c : Word) : Bool := decide (2 ^ 31 ≤ c.toNat)

theorem fp32Man_lt (c : Word) : fp32Man c < 2 ^ 23 := Nat.mod_lt _ (by decide)
theorem fp32Exp_lt (c : Word) : fp32Exp c < 256 := Nat.mod_lt _ (by decide)

theorem toNat_eq_fields (c : Word) : c.toNat = fp32.signed (fp32Neg c) (fp32Exp c * 2 ^ 23 + fp32Man c) := by
  have hc := c.isLt
  have hsign : fp32.signBit = 2 ^ 31 := rfl
  simp only [Fmt.signed, fp32Neg, fp32Exp, fp32Man, hsign, decide_eq_true_eq]
  split <;> omega

theorem fp32_decode (c : Word) : fp32.decode c.toNat =
    if fp32Exp c = 255 then (if fp32Man c = 0 then .inf (fp32Neg c) else .nan (decide (fp32Man c < 2 ^ 22)))
    else if fp32Exp c = 0 then .fin (fp32Neg c) (fp32Man c) (-149)
    else .fin (fp32Neg c) (fp32Man c + 2 ^ 23) ((fp32Exp c : Int) - 150) := by
  have hneg : natBit c.toNat 31 = fp32Neg c := natBit_top (n := 32) (by decide) c.isLt
  have hexp : natBits c.toNat 23 8 = fp32Exp c := rfl
  have hman : natBits c.toNat 0 23 = fp32Man c := by simp [natBits, fp32Man]
  have hquiet : natBit (fp32Man c) 22 = decide (2 ^ 22 ≤ fp32Man c) := natBit_top (n := 23) (by decide) (fp32Man_lt c)
  have hunit (x : Int) : x - (127 : Nat) - (23 : Nat) = x - 150 := by omega
  simp only [Fmt.decode, fp32, Fmt.emin, hneg, hexp, hman, hquiet, hunit, Nat.reduceAdd, Nat.reduceSub]
  simp only [decide_true, Bool.true_and, beq_iff_eq, Nat.reducePow, Nat.reduceSub, Nat.reduceEqDiff, decide_false, Bool.false_and,
    Bool.false_eq_true, if_false, ← not_le, decide_not]
  rfl

/-- A finite number has 24 bits, in units of 2^-149 or more. -/
theorem fp32_decode_fin {c : Word} {n : Bool} {m : Nat} {e : Int} (h : fp32.decode c.toNat = .fin n m e) : m < 2 ^ 24 ∧ -149 ≤ e := by
  have hman := fp32Man_lt c
  have hexp := fp32Exp_lt c
  rw [fp32_decode] at h
  split at h
  · split at h <;> cases h
  · split at h <;> cases h <;> omega

/-! ### Results that need no rounding -/

theorem roundTo_of_le {u e : Int} (h : u ≤ e) (mode : Nat) (neg : Bool) (m : Nat) (sticky : Bool) :
    roundTo mode neg m e sticky u = (m * 2 ^ (e - u).toNat, sticky) := if_pos h

theorem fp32_grid (n : Nat) (u : Int) : fp32.grid n u = (u + 149).toNat * 2 ^ 23 + n := by
  have hplace : u + (fp32.mb : Int) - fp32.emin = u + 149 := by
    simp only [fp32, Fmt.emin]
    omega
  rw [Fmt.grid, hplace]
  rfl

theorem fp32_ulp {m : Nat} (hm : m ≠ 0) (e : Int) : fp32.ulp m e = max (floorLog m e) (-126) - 23 := if_neg hm

/-- A number of at most 24 significant bits within the range of FP32 is delivered as it is, and raises nothing. -/
theorem fp32_ieee_exact {m : Nat} {e : Int} (hm : m ≠ 0) (hlt : m < 2 ^ 24) (he : -149 ≤ e) (htop : floorLog m e ≤ 127) (mode : Nat)
    (neg : Bool) : fp32.ieee mode neg m e false =
      (fp32.signed neg (fp32.grid (m * 2 ^ (e - fp32.ulp m e).toNat) (fp32.ulp m e)), 0) := by
  have hlog : Nat.log2 m < 24 := (Nat.log2_lt hm).mpr hlt
  have hulp := fp32_ulp hm e
  have hle : fp32.ulp m e ≤ e := by
    rw [hulp]
    unfold floorLog at *
    omega
  have hgrid : ¬ fp32.maxCode < fp32.grid (m * 2 ^ (e - fp32.ulp m e).toNat) (fp32.ulp m e) := by
    have hbits : m * 2 ^ (e - fp32.ulp m e).toNat < 2 ^ 24 := by
      have hself : m < 2 ^ (Nat.log2 m + 1) := Nat.lt_log2_self
      calc m * 2 ^ (e - fp32.ulp m e).toNat
        _ < 2 ^ (Nat.log2 m + 1) * 2 ^ (e - fp32.ulp m e).toNat := Nat.mul_lt_mul_of_pos_right hself (by positivity)
        _ = 2 ^ (Nat.log2 m + 1 + (e - fp32.ulp m e).toNat) := (pow_add _ _ _).symm
        _ ≤ 2 ^ 24 := Nat.pow_le_pow_right (by decide) (by rw [hulp]; unfold floorLog; omega)
    have hmax : fp32.maxCode = 255 * 2 ^ 23 - 1 := rfl
    have hcode : fp32.grid (m * 2 ^ (e - fp32.ulp m e).toNat) (fp32.ulp m e) =
      (fp32.ulp m e + 149).toNat * 2 ^ 23 + m * 2 ^ (e - fp32.ulp m e).toNat :=
      fp32_grid _ _
    have htop' : (fp32.ulp m e + 149).toNat ≤ 253 := by omega
    omega
  rw [Fmt.ieee, if_neg hm]
  simp only [roundTo_of_le hle, if_neg hgrid]
  simp [flagIf]

theorem fp32_ieee_zero (mode : Nat) (neg : Bool) (e : Int) : fp32.ieee mode neg 0 e false = (fp32.signed neg 0, 0) := if_pos rfl

/-- The number of a code is delivered as that code. -/
theorem fp32_ieee_decode {c : Word} {n : Bool} {m : Nat} {e : Int} (h : fp32.decode c.toNat = .fin n m e) (mode : Nat) :
    fp32.ieee mode n m e false = (c.toNat, 0) := by
  have hman := fp32Man_lt c
  have hexp := fp32Exp_lt c
  rw [fp32_decode] at h
  rw [toNat_eq_fields c]
  split at h
  · split at h <;> cases h
  next hfin =>
    split at h <;> cases h
    next hsub =>
      rw [hsub, Nat.zero_mul, Nat.zero_add]
      by_cases hm : fp32Man c = 0
      · rw [hm, fp32_ieee_zero]
      · have hlog : Nat.log2 (fp32Man c) < 23 := (Nat.log2_lt hm).mpr hman
        have hulp : fp32.ulp (fp32Man c) (-149) = -149 := by
          rw [fp32_ulp hm, floorLog]
          omega
        rw [fp32_ieee_exact hm (by omega) (by omega) (by unfold floorLog; omega), hulp, fp32_grid]
        simp
    next hnormal =>
      have hlog : Nat.log2 (fp32Man c + 2 ^ 23) = 23 := (Nat.log2_eq_iff (by omega)).mpr (by omega)
      have hulp : fp32.ulp (fp32Man c + 2 ^ 23) ((fp32Exp c : Int) - 150) = (fp32Exp c : Int) - 150 := by
        rw [fp32_ulp (by omega), floorLog, hlog]
        omega
      have hplace : ((fp32Exp c : Int) - 150 + 149).toNat = fp32Exp c - 1 := by omega
      have hcode : (fp32Exp c - 1) * 2 ^ 23 + (fp32Man c + 2 ^ 23) = fp32Exp c * 2 ^ 23 + fp32Man c := by omega
      rw [fp32_ieee_exact (by omega) (by omega) (by omega) (by unfold floorLog; omega), hulp, fp32_grid, hplace, Int.sub_self, Int.toNat_zero,
        pow_zero, Nat.mul_one, hcode]

/-- The code of an infinity. -/
theorem fp32_decode_inf {c : Word} {n : Bool} (h : fp32.decode c.toNat = .inf n) : c.toNat = fp32.signed n fp32.infCode := by
  rw [fp32_decode] at h
  rw [toNat_eq_fields c]
  split at h
  next hexp =>
    split at h <;> cases h
    next hman => rw [hexp, hman, Nat.add_zero]; rfl
  · split at h <;> cases h

/-! ### Rounding to a whole number (R158, R165) -/

/-- The magnitude `m / 2^j` with the sign `n`, rounded to a whole number. -/
def wholePart (mode : Nat) (n : Bool) (m j : Nat) : Nat :=
  if mode = 0 ∧ (2 ^ j < 2 * (m % 2 ^ j) ∨ 2 * (m % 2 ^ j) = 2 ^ j ∧ m / 2 ^ j % 2 = 1) ∨ mode = 2 ∧ m % 2 ^ j ≠ 0 ∧ n = false ∨
      mode = 3 ∧ m % 2 ^ j ≠ 0 ∧ n = true then m / 2 ^ j + 1
  else m / 2 ^ j

/-- Table 8.2: when a discarded part `rest` of a unit of `unit` rounds away from zero. -/
theorem roundsUp_iff {mode : Nat} (hmode : mode < 4) (neg : Bool) (q rest unit : Nat) :
    roundsUp mode neg q (compare (2 * rest) unit) (rest != 0) = true ↔
      mode = 0 ∧ (unit < 2 * rest ∨ 2 * rest = unit ∧ q % 2 = 1) ∨ mode = 2 ∧ rest ≠ 0 ∧ neg = false ∨
        mode = 3 ∧ rest ≠ 0 ∧ neg = true := by
  match mode, hmode with
  | 0, _ =>
    rcases lt_trichotomy (2 * rest) unit with hlt | heq | hgt
    · simp [roundsUp, compare_lt_iff_lt.mpr hlt, hlt.ne, hlt.le]
    · simp [roundsUp, heq]
    · simp [roundsUp, compare_gt_iff_gt.mpr hgt, hgt]
  | 1, _ => simp [roundsUp]
  | 2, _ => simp [roundsUp]
  | 3, _ => simp [roundsUp]

theorem roundTo_whole {mode : Nat} (hmode : mode < 4) (n : Bool) (m : Nat) {e : Int} (he : e < 0) :
    roundTo mode n m e false 0 = (wholePart mode n m (-e).toNat, decide (m % 2 ^ (-e).toNat ≠ 0)) := by
  have hup := roundsUp_iff hmode n (m / 2 ^ (-e).toNat) (m % 2 ^ (-e).toNat) (2 ^ (-e).toNat)
  simp only [roundTo, if_neg (not_le.mpr he), Int.zero_sub, Bool.false_and, Bool.false_eq_true, if_false, Bool.or_false, hup]
  simp [wholePart, bne, beq_eq_decide]

theorem wholePart_le (mode : Nat) (n : Bool) (m : Nat) {j : Nat} (hj : 0 < j) : wholePart mode n m j ≤ m / 2 + 1 := by
  have hle : m / 2 ^ j ≤ m / 2 ^ 1 := Nat.div_le_div_left (Nat.pow_le_pow_right (by decide) hj) (by decide)
  unfold wholePart
  split <;> omega

/-- A whole number below 2^24 is delivered without a flag. -/
theorem fp32_ieee_whole_flags {q : Nat} (hq : q < 2 ^ 24) (mode : Nat) (neg : Bool) : (fp32.ieee mode neg q 0 false).2 = 0 := by
  by_cases hz : q = 0
  · rw [hz, fp32_ieee_zero]
  · have hlog : Nat.log2 q < 24 := (Nat.log2_lt hz).mpr hq
    rw [fp32_ieee_exact hz hq (by decide) (by unfold floorLog; omega)]

end Sys2Proof.Machine
end

section
/-! SUPPORT. Sign operations, classes, roundings to a whole number and compares of FP32 numbers (O13). -/

namespace Sys2Proof.Machine

theorem wordOf_toNat (c : Word) : wordOf c.toNat = c := BitVec.eq_of_toNat_eq (by simp [wordOf])

/-! ### FMISC (R165) -/

theorem signOp_eq (c : Word) (f : Word → Word) : signOp c f =
    (if (fp32.decode c.toNat).isNan then 0x7FC00000 else f c, if (fp32.decode c.toNat).isSig then flNV else 0) := by
  unfold signOp
  dsimp only
  rw [sigNV_singleton]
  cases fp32.decode c.toNat <;> rfl

theorem fclassW_eq (c : Word) : fclassW c =
    if fp32Exp c = 255 then
      (if fp32Man c = 0 then (if fp32Neg c then 0x001 else 0x080) else if fp32Man c < 2 ^ 22 then 0x100 else 0x200)
    else if fp32Exp c = 0 then
      (if fp32Man c = 0 then (if fp32Neg c then 0x008 else 0x010) else if fp32Neg c then 0x004 else 0x020)
    else (if fp32Neg c then 0x002 else 0x040) := by
  have hexp : natBits c.toNat 23 8 = fp32Exp c := rfl
  unfold fclassW
  rw [fp32_decode, hexp]
  by_cases hinf : fp32Exp c = 255
  · rw [if_pos hinf, if_pos hinf]
    by_cases hman : fp32Man c = 0
    · rw [if_pos hman, if_pos hman]
    · rw [if_neg hman, if_neg hman]
      simp only [decide_eq_true_eq]
  · rw [if_neg hinf, if_neg hinf]
    by_cases hsub : fp32Exp c = 0
    · simp [hsub]
    · simp [hsub]

/-! ### Rounding to a whole number (R165) -/

section Frint

variable {c : Word} (mode : Nat) (nx : Bool)

theorem frintW_nan {sig : Bool} (h : fp32.decode c.toNat = .nan sig) : frintW mode nx c = (0x7FC00000, if sig then flNV else 0) := by
  have hcanon : wordOf fp32.canon = 0x7FC00000 := rfl
  have hkept : Num.integral mode (.nan sig) = (.nan sig, false) := rfl
  have hsig : (Num.nan sig).isSig = sig := rfl
  rw [frintW, h, hkept, sigNV_singleton, hsig, Bool.and_false]
  simp [Fmt.deliver, asWord, hcanon, flagIf]

theorem frintW_inf {n : Bool} (h : fp32.decode c.toNat = .inf n) : frintW mode nx c = (c, 0) := by
  have hcode : frintW mode nx c = (wordOf (fp32.signed n fp32.infCode), 0) := by
    have hkept : Num.integral mode (.inf n) = (.inf n, false) := rfl
    rw [frintW, h, hkept, sigNV_singleton, Bool.and_false]
    simp [Fmt.deliver, asWord, flagIf, Num.isSig]
  rw [hcode, ← fp32_decode_inf h, wordOf_toNat]

/-- A number that is whole already is delivered as the code it came from; any other as its whole part, which is below 2^24. -/
theorem frintW_fin {n : Bool} {m : Nat} {e : Int} (hmode : mode < 4) (h : fp32.decode c.toNat = .fin n m e) : frintW mode nx c =
    (if 0 ≤ e then c else BitVec.ofNat 32 (fp32.deliver 0 (.fin n (wholePart mode n m (-e).toNat) 0, 0)).1,
      if nx ∧ e < 0 ∧ m % 2 ^ (-e).toNat ≠ 0 then flNX else 0) := by
  have hsig : sigNV [.fin n m e] = 0 := rfl
  rw [frintW, h, hsig]
  by_cases he : 0 ≤ e
  · have hsame : Num.integral mode (.fin n m e) = (.fin n m e, false) := if_pos he
    rw [hsame, if_pos he, if_neg (by omega), Fmt.deliver]
    dsimp only
    rw [fp32_ieee_decode h, asWord, wordOf_toNat]
    simp [flagIf]
  · have hlt := (fp32_decode_fin h).1
    have hle := wholePart_le mode n m (j := (-e).toNat) (by omega)
    have hwhole : Num.integral mode (.fin n m e) =
        (.fin n (wholePart mode n m (-e).toNat) 0, decide (m % 2 ^ (-e).toNat ≠ 0)) := by
      rw [Num.integral, if_neg he, roundTo_whole hmode n m (not_le.mp he)]
    rw [hwhole, if_neg he]
    simp [Fmt.deliver, asWord, fp32_ieee_whole_flags (q := wholePart mode n m (-e).toNat) (by omega), not_le.mp he, flagIf, wordOf]

end Frint

/-! ### Compares (R166) -/

theorem laneFcmp_writes {i : Instr} {s : State} {k : Nat} {t : Team} {r : Run} {g : Guard} (h : s.HasRun k t r) (m p : BitVec 3)
    (a b : BitVec 6) (loud : Bool) (f : Num → Num → Bool) (hi : exec i s = laneFcmp s g m p a b loud f) :
    LanePredWrites i s k t r g m p (fun l => f (t.f32 a.toNat l) (t.f32 b.toNat l)) fun l =>
      if (if loud then (t.f32 a.toNat l).isNan || (t.f32 b.toNat l).isNan else (t.f32 a.toNat l).isSig || (t.f32 b.toNat l).isSig)
      then flNV else 0 := by
  have hw := lanePredFlag_writes h m p _ hi
  cases loud <;> simpa [sigNV, flagIf] using hw

theorem Team.mode_lt (t : Team) : t.mode < 4 := Nat.mod_lt _ (by decide)

/-- Settles O13: sign operations by `signOp_eq`, classes by `fclassW_eq`, the four roundings by the cases of the number
(`frintW_nan`, `frintW_inf`, `frintW_fin`), compares by `laneFcmp_writes`. -/
theorem floatMiscAndCompares : Obligations.FloatMiscAndCompares := by
  unfold Obligations.FloatMiscAndCompares
  intro s k t r h d a b m p g w u x y S whole I cls C
  have round (i : Instr) (mode : Team → Nat) (nx : Bool) (hmode : mode t < 4)
      (hi : exec i s = laneFlagOp s g d fun t l => frintW (mode t) nx (t.get a.toNat l)) : I i (mode t) nx := by
    refine laneFlagOp_writes_of_eq h d _ hi fun l => ?_
    cases hx : x l with
    | nan sig => exact frintW_nan _ nx hx
    | inf n => exact frintW_inf _ nx hx
    | fin n m e => exact frintW_fin _ nx hmode hx
  exact ⟨laneFlagOp_writes_of_eq h d _ rfl fun _ => signOp_eq _ _, laneFlagOp_writes_of_eq h d _ rfl fun _ => signOp_eq _ _,
    laneFlagOp_writes_of_eq h d _ rfl fun _ => signOp_eq _ _, laneOp1_writes h d a fclassW rfl fun _ => fclassW_eq _,
    round _ Team.mode true t.mode_lt rfl, round _ (fun _ => 3) false (by decide) rfl, round _ (fun _ => 2) false (by decide) rfl,
    round _ (fun _ => 1) false (by decide) rfl,
    laneFcmp_writes h m p a b false Num.eq rfl, laneFcmp_writes h m p a b false (fun x y => !x.eq y) rfl,
    laneFcmp_writes h m p a b true Num.lt rfl, laneFcmp_writes h m p a b true (fun x y => x.lt y || x.eq y) rfl,
    laneFcmp_writes h m p a b true (fun x y => y.lt x) rfl, laneFcmp_writes h m p a b true (fun x y => y.lt x || x.eq y) rfl,
    laneFcmp_writes h m p a b false unord rfl, laneFcmp_writes h m p a b false (fun x y => !unord x y) rfl⟩

end Sys2Proof.Machine
end

section
/-! SUPPORT. Special functions of FP32 numbers, and complex products and sums (O16). -/

namespace Sys2Proof.Machine

/-! ### Results of the special functions (R167) -/

theorem sfuOut_eq (neg : Bool) (m : Nat) (e : Int) (more : Bool) : sfuOut neg m e more 0 =
    (BitVec.ofNat 32 (fp32.ieee 0 neg m e more).1, (fp32.ieee 0 neg m e more).2) := by
  simp [sfuOut, wordOf]

theorem sfuNan_eq (fl : Word) : sfuNan fl = (0x7FC00000, fl) := rfl

theorem sfuInf_eq (neg : Bool) (fl : Word) : sfuInf neg fl = (if neg then 0xFF800000 else 0x7F800000, fl) := by
  cases neg <;> rfl

theorem sfuZero_eq (neg : Bool) : sfuZero neg = (if neg then 0x80000000 else 0, 0) := by
  cases neg <;> rfl

theorem sigNV_pair (x y : Num) : sigNV [x, y] = if x.isSig || y.isSig then flNV else 0 := by
  simp [sigNV, flagIf]

/-! ### Roots -/

/-- The digit that a square root in base 4 takes next. -/
theorem sqrt_step (n : Nat) : Nat.sqrt n =
    if (2 * Nat.sqrt (n / 4) + 1) * (2 * Nat.sqrt (n / 4) + 1) ≤ n then 2 * Nat.sqrt (n / 4) + 1 else 2 * Nat.sqrt (n / 4) := by
  have hlo := Nat.sqrt_le (n / 4)
  have hhi := Nat.lt_succ_sqrt (n / 4)
  generalize Nat.sqrt (n / 4) = q at *
  have hlo' : 4 * (q * q) ≤ n := by omega
  have hhi' : n < 4 * ((q + 1) * (q + 1)) := by
    have : n / 4 < (q + 1) * (q + 1) := hhi
    omega
  symm
  split
  · next h => exact Nat.eq_sqrt.mpr ⟨h, by linarith⟩
  · next h => exact Nat.eq_sqrt.mpr ⟨by linarith, not_le.mp h⟩

theorem isqrt_eq_sqrt (fuel n : Nat) (h : n < 4 ^ fuel) : isqrt fuel n = Nat.sqrt n := by
  induction fuel generalizing n with
  | zero =>
    have hz : n = 0 := by simpa using h
    rw [hz]
    rfl
  | succ fuel ih =>
    rw [isqrt, ih (n / 4) (by rw [Nat.pow_succ] at h; omega)]
    exact (sqrt_step n).symm

theorem even_part_lt {m : Nat} (hm : m < 2 ^ 24) (e : Int) : (if e % 2 = 0 then m else 2 * m) < 2 ^ 25 := by
  split <;> omega

theorem ite_odd {α : Type} (e : Int) (x y : α) : (if e % 2 != 0 then x else y) = if e % 2 = 0 then y else x := by
  by_cases h : e % 2 = 0 <;> simp [h]

theorem rootOf_eq {m : Nat} (hm : m < 2 ^ 24) (e : Int) :
    let v := (if e % 2 = 0 then m else 2 * m) * 2 ^ 64
    rootOf m e = (Nat.sqrt v, ((if e % 2 = 0 then e else e - 1) - 64) / 2, Nat.sqrt v * Nat.sqrt v != v) := by
  have hlt := even_part_lt hm e
  simp only [rootOf, ite_odd]
  rw [isqrt_eq_sqrt 80 _ (by omega)]

theorem fsqrtW_fin {n : Bool} {m : Nat} (hm : m < 2 ^ 24) (e : Int) :
    let v := (if e % 2 = 0 then m else 2 * m) * 2 ^ 64
    let r := fp32.ieee 0 false (Nat.sqrt v) (((if e % 2 = 0 then e else e - 1) - 64) / 2) (Nat.sqrt v * Nat.sqrt v != v)
    fsqrtW (.fin n m e) = if m = 0 then (if n then 0x80000000 else 0, 0) else if n then (0x7FC00000, flNV)
      else (BitVec.ofNat 32 r.1, r.2) := by
  simp only [fsqrtW, rootOf_eq hm, sfuOut_eq, sfuZero_eq]
  rfl

theorem frsqW_fin (n : Bool) (m : Nat) (e : Int) :
    let v := if e % 2 = 0 then m else 2 * m
    let q := Nat.sqrt (2 ^ 150 / v)
    let r := fp32.ieee 0 false q (-((if e % 2 = 0 then e else e - 1) / 2) - 75) (q * q * v != 2 ^ 150)
    frsqW (.fin n m e) = if m = 0 then (if n then 0xFF800000 else 0x7F800000, flDZ) else if n then (0x7FC00000, flNV)
      else (BitVec.ofNat 32 r.1, r.2) := by
  have hroot (v : Nat) : isqrt 80 (2 ^ 150 / v) = Nat.sqrt (2 ^ 150 / v) :=
    isqrt_eq_sqrt 80 _ ((Nat.div_le_self _ _).trans_lt (by decide))
  simp only [frsqW, hroot, ite_odd, sfuOut_eq, sfuInf_eq]
  rfl

/-! ### Arguments of the series in units of 2^-149 -/

theorem toNat_units {e : Int} (m : Nat) : ((Num.fin false m e).units (-149)).toNat = m * 2 ^ (e + 149).toNat := by
  have hcast : (Num.fin false m e).units (-149) = ((m * 2 ^ (e + 149).toNat : Nat) : Int) := by
    simp [Num.units]
  rw [hcast, Int.toNat_natCast]

/-- A number below its point, cut there: the whole part and the rest. -/
theorem units_split {e : Int} (he : -149 ≤ e) (hneg : e < 0) (m : Nat) :
    m * 2 ^ (e + 149).toNat = m / 2 ^ (-e).toNat * 2 ^ 149 + m % 2 ^ (-e).toNat * 2 ^ (e + 149).toNat := by
  have hpow : 2 ^ 149 = 2 ^ (-e).toNat * 2 ^ (e + 149).toNat := by
    rw [← pow_add]
    congr 1
    omega
  rw [hpow, ← Nat.mul_assoc, ← Nat.add_mul, Nat.div_add_mod']

theorem fexp2W_whole {n : Bool} {m : Nat} {e : Int} (he : -149 ≤ e) (hneg : e < 0) (hm : m % 2 ^ (-e).toNat = 0)
    (hlt : m / 2 ^ (-e).toNat < 150) : fexp2W (.fin n m e) =
      sfuOut false 1 (if n then -((m / 2 ^ (-e).toNat : Nat) : Int) else (m / 2 ^ (-e).toNat : Nat)) false 0 := by
  have hsplit := units_split he hneg m
  rw [hm, Nat.zero_mul, Nat.add_zero] at hsplit
  have hmin : min e 9 = e := min_eq_left (by omega)
  have hv : (Num.fin n m e).units (-149) =
      (if n then -((m / 2 ^ (-e).toNat : Nat) : Int) else (m / 2 ^ (-e).toNat : Nat)) * 2 ^ 149 := by
    have hcast : (m : Int) * 2 ^ (e + 149).toNat = ((m / 2 ^ (-e).toNat : Nat) : Int) * 2 ^ 149 := by exact_mod_cast hsplit
    cases n <;> simp [Num.units, hcast]
  simp only [fexp2W, hmin, hv, Int.mul_emod_left, Int.toNat_zero, if_true]
  rw [Int.mul_ediv_cancel _ (by decide)]
  congr 1
  split <;> omega

theorem fsinpiW_whole {n : Bool} {m : Nat} {e : Int} (he : -149 ≤ e) (hm : 0 ≤ e ∨ m % 2 ^ (-e).toNat = 0) :
    fsinpiW (.fin n m e) = sfuZero n := by
  have hdvd : 2 ^ 149 ∣ m * 2 ^ (e + 149).toNat := by
    by_cases hneg : e < 0
    · rw [units_split he hneg m, hm.resolve_left (by omega), Nat.zero_mul, Nat.add_zero]
      exact Nat.dvd_mul_left _ _
    · exact Dvd.dvd.mul_left (pow_dvd_pow 2 (by omega)) m
  rw [fsinpiW, toNat_units]
  exact if_pos (by omega)

theorem fcospiW_half {n : Bool} {m : Nat} {e : Int} (he : -149 ≤ e) (hneg : e < 0) (hm : m % 2 ^ (-e).toNat = 2 ^ ((-e).toNat - 1)) :
    fcospiW (.fin n m e) = sfuZero false := by
  have hhalf : 2 ^ ((-e).toNat - 1) * 2 ^ (e + 149).toNat = 2 ^ 148 := by
    rw [← pow_add]
    congr 1
    omega
  have hv := units_split he hneg m
  rw [hm, hhalf] at hv
  rw [fcospiW, toNat_units, hv]
  generalize m / 2 ^ (-e).toNat = q
  refine if_pos ?_
  split <;> omega

/-- The logarithm of 2^0, in whatever units. -/
theorem flog2W_pow {lg : Nat} {e : Int} (h : (lg : Int) + e = 0) : flog2W (.fin false (2 ^ lg) e) = sfuZero false := by
  rw [flog2W, if_neg (Nat.two_pow_pos lg).ne', if_neg Bool.false_ne_true, floorLog, Nat.log2_two_pow, if_pos rfl, if_pos h]

theorem flog2W_one : flog2W (fp32.decode (0x3F800000 : Word).toNat) = (0, 0) := by
  have hone : fp32.decode (0x3F800000 : Word).toNat = .fin false (2 ^ 23) (-23) := by decide
  rw [hone, flog2W_pow (by decide)]
  rfl

theorem flog2W_fin {c : Word} {n : Bool} {m : Nat} {e : Int} (h : fp32.decode c.toNat = .fin n m e) : flog2W (.fin n m e) =
    if m = 0 then (0xFF800000, flDZ) else if n then (0x7FC00000, flNV) else if c = 0x3F800000 then (0, 0) else flog2W (.fin n m e) := by
  by_cases hm : m = 0
  · rw [if_pos hm, flog2W, if_pos hm]
    rfl
  cases n with
  | true =>
    rw [if_neg hm, if_pos rfl, flog2W, if_neg hm]
    rfl
  | false =>
    rw [if_neg hm, if_neg Bool.false_ne_true]
    split
    · next hone => rw [← h, hone, flog2W_one]
    · rfl

/-! ### Complex arithmetic (R282) -/

/-- The parts that a complex instruction reads in a lane: both of a, and `n` registers from b on. -/
def cplxParts (a b : BitVec 6) (n : Nat) (rd : BitVec 6 → Nat → Num) : List Num := [rd a 0, rd a 1] ++ (List.range n).map (rd b)

theorem cplxIn_map (a b : BitVec 6) (n : Nat) (rd : BitVec 6 → Nat → Num) :
    (cplxIn a b n).map (fun x => rd x.1 x.2) = cplxParts a b n rd := by
  simp [cplxIn, cplxParts]

/-- A part of a complex result in lane `l`: the terms `ts` added exactly and delivered in FP32, or NaN where one of the parts that the
instruction reads is NaN. -/
def Team.cplxPart (t : Team) (a b : BitVec 6) (n : Nat) (ts : (BitVec 6 → Nat → Num) → List (Num × Word)) (l : Nat) : Word × Word :=
  let rd := fun (q : BitVec 6) (j : Nat) => t.f32 (q.toNat + j) l
  if (cplxParts a b n rd).any Num.isNan then (0x7FC00000, if (cplxParts a b n rd).any Num.isSig then flNV else 0)
  else (BitVec.ofNat 32 (fp32.deliver t.mode (sumNum t.mode (ts rd))).1, (fp32.deliver t.mode (sumNum t.mode (ts rd))).2)

section Pair

variable {i : Instr} {s : State} {k : Nat} {t : Team} {r : Run} {g : Guard} (h : s.HasRun k t r) (d : BitVec 6)
include h

/-- A lane-set instruction that writes a register and the next, with flags. -/
theorem laneFlagPair_writes (lo hi fl : Team → Nat → Word) (he : exec i s = laneCalc s g fun t r act =>
      ((t.put d.toNat act (lo t)).put (d.toNat + 1) act (hi t), r.raise t.nlanes act (fl t))) :
    LaneWrites i s k t r g (fun q l => if q = d.toNat + 1 then some (hi t l) else if q = d.toNat then some (lo t l) else none) (fl t) := by
  refine ⟨_, he.trans (laneCalc_eq h g _), ⟨_, _, advance_team _ _ _ _, rfl, rfl, fun l hl => ⟨fun n => ?_, Run.raise_flags r _ l _ _ hl⟩⟩,
    laneIssue_frame _ _ _ _ _ _ _⟩
  change ((t.put d.toNat (t.acts r g) (lo t)).put (d.toNat + 1) (t.acts r g) (hi t)).get n l = _
  rw [Team.get_put _ _ _ _ _ _ (by simpa using hl), Team.get_put _ _ _ _ _ _ hl, Team.get_put _ _ _ _ _ _ hl]
  by_cases hhi : n = d.toNat + 1
  · cases t.acts r g l <;> simp [hhi]
  · by_cases hlo : n = d.toNat
    · cases t.acts r g l <;> simp [hlo]
    · cases t.acts r g l <;> simp [hhi, hlo]

/-- A complex instruction writes its real part, and behind it its imaginary part, with the flags of both. -/
theorem laneCplx_writes (a b : BitVec 6) (n : Nat) (f : (BitVec 6 → Nat → Num) → List (Num × Word) × List (Num × Word))
    (he : exec i s = laneCplx s d (cplxIn a b n) f) :
    let re := t.cplxPart a b n fun rd => (f rd).1
    let im := t.cplxPart a b n fun rd => (f rd).2
    LaneWrites i s k t r Guard.always
      (fun q l => if q = d.toNat + 1 then some (im l).1 else if q = d.toNat then some (re l).1 else none) fun l => (re l).2 ||| (im l).2 := by
  refine laneFlagPair_writes h d (fun t l => (t.cplxPart a b n (fun rd => (f rd).1) l).1)
    (fun t l => (t.cplxPart a b n (fun rd => (f rd).2) l).1)
    (fun t l => (t.cplxPart a b n (fun rd => (f rd).1) l).2 ||| (t.cplxPart a b n (fun rd => (f rd).2) l).2) (he.trans ?_)
  simp only [Team.cplxPart, ← cplxIn_map]
  rfl

end Pair

/-- Settles O16: quotients and roots as exact values rounded (`fsqrtW_fin`, `frsqW_fin`), the exact arguments of the series
(`fexp2W_whole`, `fsinpiW_whole`, `fcospiW_half`, `flog2W_fin`), and complex results part by part (`laneCplx_writes`). -/
theorem specialAndComplex : Obligations.SpecialAndComplex := by
  unfold Obligations.SpecialAndComplex
  intro s k t r h d a b la x P nan inf zero rnd quo C
  have cplx (i : Instr) (n : Nat) (f : (BitVec 6 → Nat → Num) → List (Num × Word) × List (Num × Word))
      (he : exec i s = laneCplx s d (cplxIn a b n) f) : C i n f := laneCplx_writes h d a b n f he
  have quo_eq (x y : Num) : fdivW x y = quo x y := by
    cases x with
    | nan sx => exact congrArg sfuNan (sigNV_pair _ _)
    | inf n =>
      cases y with
      | nan sy => exact congrArg sfuNan (sigNV_pair _ _)
      | inf n' => rfl
      | fin n' m' e' => exact sfuInf_eq _ _
    | fin n m e =>
      cases y with
      | nan sy => exact congrArg sfuNan (sigNV_pair _ _)
      | inf n' => exact sfuZero_eq _
      | fin n' m' e' =>
        simp only [fdivW, sfuOut_eq, sfuInf_eq, sfuZero_eq]
        rfl
  have sfu (i : Instr) (f : Num → Word × Word) (v : Nat → Word × Word) (hi : exec i s = laneSfu s d a f)
      (hv : ∀ l, f (x l) = v l) : P i v :=
    laneFlagOp_writes_of_eq h d (fun t l => f (t.f32 a.toNat l)) hi hv
  refine ⟨sfu (.frcp d a la) (fdivW (.fin false 1 0)) (fun l => quo (.fin false 1 0) (x l)) rfl fun l => quo_eq _ _,
    laneFlagOp_writes_of_eq h d (fun t l => fdivW (t.f32 a.toNat l) (t.f32 b.toNat l)) rfl fun l => quo_eq _ _,
    sfu (.fsqrt d a la) fsqrtW _ rfl fun l => ?fsqrt, sfu (.frsq d a la) frsqW _ rfl fun l => ?frsq,
    sfu (.fexp2 d a la) fexp2W _ rfl fun l => ?fexp2, sfu (.flog2 d a la) flog2W _ rfl fun l => ?flog2,
    sfu (.fsinpi d a la) fsinpiW _ rfl fun l => ?fsinpi, sfu (.fcospi d a la) fcospiW _ rfl fun l => ?fcospi,
    cplx (.cmul d a b la) 2 (cplxTerms a b false false) rfl, cplx (.cmac d a b la) 4 (cplxTerms a b false true) rfl,
    cplx (.cmulc d a b la) 2 (cplxTerms a b true false) rfl, cplx (.cmacc d a b la) 4 (cplxTerms a b true true) rfl,
    cplx (.cadd d a b la) 2 (fun rd => ([(rd a 0, 0), (rd b 0, 0)], [(rd a 1, 0), (rd b 1, 0)])) rfl⟩
  case fsqrt =>
    cases hx : x l with
    | nan sig => exact congrArg sfuNan (sigNV_singleton _)
    | inf n => cases n <;> rfl
    | fin n m e =>
      obtain ⟨hm, -⟩ := fp32_decode_fin hx
      exact fsqrtW_fin hm e
  case frsq =>
    cases hx : x l with
    | nan sig => exact congrArg sfuNan (sigNV_singleton _)
    | inf n => cases n <;> rfl
    | fin n m e => exact frsqW_fin n m e
  case fexp2 =>
    cases hx : x l with
    | nan sig => exact congrArg sfuNan (sigNV_singleton _)
    | inf n => cases n <;> rfl
    | fin n m e =>
      obtain ⟨-, hlo⟩ := fp32_decode_fin hx
      change _ = if _ then _ else _
      split
      · next hq =>
        obtain ⟨hneg, hrest, hlt⟩ := hq
        rw [fexp2W_whole hlo hneg hrest hlt, sfuOut_eq]
      · rfl
  case flog2 =>
    cases hx : x l with
    | nan sig => exact congrArg sfuNan (sigNV_singleton _)
    | inf n => cases n <;> rfl
    | fin n m e => exact flog2W_fin hx
  case fsinpi =>
    cases hx : x l with
    | nan sig => exact congrArg sfuNan (sigNV_singleton _)
    | inf n => rfl
    | fin n m e =>
      obtain ⟨-, hlo⟩ := fp32_decode_fin hx
      change _ = if _ then _ else _
      split
      · next hq => rw [fsinpiW_whole hlo hq, sfuZero_eq]
      · rfl
  case fcospi =>
    cases hx : x l with
    | nan sig => exact congrArg sfuNan (sigNV_singleton _)
    | inf n => rfl
    | fin n m e =>
      obtain ⟨-, hlo⟩ := fp32_decode_fin hx
      change _ = if _ then _ else _
      split
      · next hq =>
        obtain ⟨hneg, hrest⟩ := hq
        exact fcospiW_half hlo hneg hrest
      · rfl

end Sys2Proof.Machine
end

section
/-! SUPPORT. The quantiser: magnitudes, scales, codes, sides and the way back (O17). -/

namespace Sys2Proof.Machine

/-! ### Fields of registers (R152) -/

theorem natBit_toNat {n : Nat} (x : BitVec n) (i : Nat) : natBit x.toNat i = x.getLsbD i :=
  (beq_eq_decide _ _).trans Nat.testBit_eq_decide_div_mod_eq.symm

theorem natBits_low (v n : Nat) : natBits v 0 n = v % 2 ^ n := by
  rw [natBits, pow_zero, Nat.div_one]

theorem Team.qfmt_eq (t : Team) : t.qfmt = t.qctl.toNat % 16 := natBits_low _ 4

theorem Team.rounding_eq (t : Team) (e : Word) : t.rounding e = if t.qctl.getLsbD 4 then .sr (mix t.srseed e) else .rne := by
  rw [Team.rounding, natBit_toNat]

/-! ### The largest magnitude (R178) -/

theorem toNat_maxN (x y : Word) : (maxN x y).toNat = max x.toNat y.toNat := by
  rw [maxN_eq]
  split
  · next h => exact (max_eq_right h).symm
  · next h => exact (max_eq_left (not_le.mp h).le).symm

theorem toNat_magnitude (x : Word) : (x &&& 0x7FFFFFFF).toNat = x.toNat % 2 ^ 31 :=
  (BitVec.toNat_and _ _).trans (Nat.and_two_pow_sub_one_eq_mod x.toNat 31)

theorem toNat_foldl_maxN (xs : List Word) (m : Word) :
    (xs.foldl (fun m x => maxN m (x &&& 0x7FFFFFFF)) m).toNat = (xs.map fun c => c.toNat % 2 ^ 31).foldl max m.toNat := by
  induction xs generalizing m with
  | nil => rfl
  | cons x xs ih => rw [List.foldl_cons, ih, toNat_maxN, toNat_magnitude, List.map_cons, List.foldl_cons]

theorem amax_eq (xs : List Word) : amax xs =
    if xs.any fun c => (fp32.decode c.toNat).isNan then 0x7FC00000
    else BitVec.ofNat 32 ((xs.map fun c => c.toNat % 2 ^ 31).foldl max 0) := by
  have hmax := congrArg wordOf (toNat_foldl_maxN xs 0)
  rw [wordOf_toNat] at hmax
  rw [amax, hmax]
  rfl

/-! ### Escapes (R181) -/

/-- A magnitude at or above the threshold ETH, where one is set; what is no number always. -/
def Team.wideFor (t : Team) (x : Num) : Bool :=
  match x with
  | .fin _ m e => natBits t.qctl.toNat 8 8 != 255 && m != 0 && decide ((natBits t.qctl.toNat 8 8 : Int) - 127 ≤ floorLog m e)
  | _ => true

theorem Team.wideFor_fin (t : Team) (n : Bool) (m : Nat) (e : Int) : t.wideFor (.fin n m e) =
    decide (t.qctl.toNat / 256 % 256 ≠ 255 ∧ m ≠ 0 ∧ (t.qctl.toNat / 256 % 256 : Nat) - 127 ≤ floorLog m e) := by
  have heth : natBits t.qctl.toNat 8 8 = t.qctl.toNat / 256 % 256 := rfl
  simp only [Team.wideFor, heth, bne, beq_eq_decide, Bool.decide_and, decide_not, Bool.and_assoc]

theorem qescW_def (t : Team) (a b : Word) : qescW t a b =
    if natBit t.qctl.toNat 5 && sideFmt t.qfmt && (t.wideFor (fp32.decode a.toNat) || t.wideFor (fp32.decode b.toNat)) then 1 else 0 := rfl

theorem sideFmt_iff (c : Nat) : sideFmt c = true ↔ c ∈ [2, 4] := by
  simp [sideFmt]

theorem qescW_eq (t : Team) (a b : Word) : qescW t a b =
    if t.qctl.getLsbD 5 ∧ t.qctl.toNat % 16 ∈ [2, 4] ∧ (t.wideFor (fp32.decode a.toNat) ∨ t.wideFor (fp32.decode b.toNat)) then 1 else 0 := by
  simp only [qescW_def, natBit_toNat, Bool.and_eq_true, Bool.or_eq_true, sideFmt_iff, Team.qfmt_eq, and_assoc]

/-! ### Codes (R180) -/

/-- The code that a NaN takes in an element format. -/
def Elem.nanCode : Elem → Word
  | .flt f => if f.kind = 2 then 0 else wordOf f.canon
  | .int _ => 0

theorem nanCode_elemOf {c : Nat} (hc : c < 16) :
    (elemOf c).nanCode = if c = 8 then 0x7E else if c ∈ [1, 2, 3, 4, 5, 6, 9] then 0 else 0x7F := by
  revert c
  decide

theorem even_eq (e : Word) : (!e.getLsbD 0) = decide (e.toNat % 2 = 0) := by
  have hbit : e.getLsbD 0 = decide (e.toNat % 2 = 1) := Nat.testBit_zero _
  rw [hbit, ← decide_not]
  exact decide_eq_decide.mpr Nat.mod_two_ne_one

theorem qcvtW_nan (t : Team) {a : Word} {sc : Nat} (e : Word) (hs : sc ≠ 255) (ha : (fp32.decode a.toNat).isNan) :
    qcvtW t a sc e = (t.qelem.nanCode, 0) := by
  rw [qcvtW, if_neg hs, if_pos ha]
  rfl

theorem qcvtW_number (t : Team) {a : Word} {sc : Nat} (e : Word) (hs : sc ≠ 255) (ha : ¬ (fp32.decode a.toNat).isNan) :
    let z := t.qelem.quantise (t.rounding e) ((fp32.decode a.toNat).scale (127 - (sc : Int)))
    qcvtW t a sc e = if t.qfmt = 4 ∧ e.toNat % 2 = 0 ∧ z.1 = 8 then (0, z.2)
      else if t.qfmt = 2 ∧ e.toNat % 2 = 0 ∧ z.1 = 8 then (9, z.2 ||| flSA ||| flNX) else (BitVec.ofNat 32 z.1, z.2) := by
  rw [qcvtW, if_neg hs, if_neg ha, even_eq]
  simp only [Bool.and_eq_true, decide_eq_true_eq, beq_iff_eq, and_assoc]
  rfl

/-- QCVT by what it finds: no scale, a NaN, or a number, whose escapes and clipped codes differ by format. -/
theorem qcvtW_eq (t : Team) (a b e : Word) :
    let z := (elemOf (t.qctl.toNat % 16)).quantise (if t.qctl.getLsbD 4 then .sr (mix t.srseed e) else .rne)
      ((fp32.decode a.toNat).scale (127 - ((b.toNat % 256 : Nat) : Int)))
    qcvtW t a (natBits b.toNat 0 8) e = if b.toNat % 256 = 255 then (0, 0)
      else if (fp32.decode a.toNat).isNan then
        (if t.qctl.toNat % 16 = 8 then 0x7E else if t.qctl.toNat % 16 ∈ [1, 2, 3, 4, 5, 6, 9] then 0 else 0x7F, 0)
      else if t.qctl.toNat % 16 = 4 ∧ e.toNat % 2 = 0 ∧ z.1 = 8 then (0, z.2)
      else if t.qctl.toNat % 16 = 2 ∧ e.toNat % 2 = 0 ∧ z.1 = 8 then (9, z.2 ||| flSA ||| flNX)
      else (BitVec.ofNat 32 z.1, z.2) := by
  rw [natBits_low]
  by_cases hs : b.toNat % 2 ^ 8 = 255
  · exact (if_pos hs).trans (if_pos hs).symm
  refine Eq.trans ?_ (if_neg hs).symm
  by_cases ha : (fp32.decode a.toNat).isNan
  · rw [if_pos ha, qcvtW_nan t e hs ha, Team.qelem, t.qfmt_eq, nanCode_elemOf (Nat.mod_lt _ (by decide))]
  · rw [if_neg ha, qcvtW_number t e hs ha, Team.rounding_eq, Team.qelem, t.qfmt_eq]
    rfl

/-! ### Sides (R182) -/

theorem e4m3_signed_lt (neg : Bool) {c : Nat} (hc : c ≤ e4m3.maxCode) : e4m3.signed neg c < 256 := by
  have hmax : e4m3.maxCode = 126 := rfl
  have hsign : e4m3.signBit = 128 := rfl
  unfold Fmt.signed
  split <;> omega

theorem e4m3_quantise_lt (rd : Rounding) (x : Num) : ((Elem.flt e4m3).quantise rd x).1 < 256 := by
  cases x with
  | nan sig => exact Nat.zero_lt_succ 255
  | inf n => exact e4m3_signed_lt n le_rfl
  | fin n m e =>
    have hcode (c : Nat) (clipped fl : Word) :
        (if e4m3.maxCode < c then (e4m3.signed n e4m3.maxCode, clipped) else (e4m3.signed n c, fl)).1 < 256 := by
      split
      · exact e4m3_signed_lt n le_rfl
      · next hc => exact e4m3_signed_lt n (not_lt.mp hc)
    exact hcode _ _ _

theorem packed2_bytes {f : Nat → Nat × Word} (h : (f 0).1 < 256) :
    packed 2 8 f = (BitVec.ofNat 32 ((f 0).1 + 256 * (f 1).1), (f 0).2 ||| (f 1).2) := by
  have hor : (f 0).1 ||| (f 1).1 * 2 ^ 8 = (f 0).1 + 256 * (f 1).1 := by
    rw [Nat.or_comm, ← Nat.shiftLeft_eq, ← Nat.shiftLeft_add_eq_or_of_lt h, Nat.shiftLeft_eq]
    ring
  have hpacked : packed 2 8 f = (wordOf (f 0).1 ||| wordOf ((f 1).1 * 2 ^ 8), (f 0).2 ||| (f 1).2) := by
    simp [packed, List.range_succ]
  rw [hpacked, wordOf, wordOf, ← BitVec.ofNat_or, hor]

theorem qsideW_lt (t : Team) (x : Word) (sc : Nat) (e : Word) : (qsideW t x sc e).1 < 256 := by
  unfold qsideW
  dsimp only
  split
  · exact (by decide : 0x7F < 256)
  · exact e4m3_quantise_lt _ _

theorem qsideW_eq (t : Team) (x b e : Word) : qsideW t x (natBits b.toNat 0 8) e =
    if (fp32.decode x.toNat).isNan ∨ b.toNat % 256 = 255 then (0x7F, 0)
    else (Elem.flt e4m3).quantise (if t.qctl.getLsbD 4 then .sr (mix t.srseed e) else .rne)
      ((fp32.decode x.toNat).scale (127 - ((b.toNat % 256 : Nat) : Int))) := by
  simp only [qsideW, natBits_low, Team.rounding_eq, Bool.or_eq_true, beq_iff_eq]
  rfl

/-! ### The way back (R183) -/

theorem qdeqW_eq (t : Team) (a b : Word) :
    let q := ((if b.getLsbD 8 then Elem.flt e4m3 else t.qelem).decode a.toNat).scale ((b.toNat % 256 : Nat) - 127)
    qdeqW t a b = if b.toNat % 256 = 255 then (0x7FC00000, 0)
      else (BitVec.ofNat 32 (fp32.deliver 0 (q, 0)).1, (fp32.deliver 0 (q, 0)).2) := by
  have hsc : natBits b.toNat 0 8 = b.toNat % 256 := natBits_low _ 8
  rw [qdeqW, hsc]
  rfl

/-- Settles O17: the largest magnitude of a group (`amax_eq`), the escape test (`qescW_eq`), codes by what they find (`qcvtW_eq`), two
sides packed (`packed2_bytes`, `qsideW_lt`), and the way back (`qdeqW_eq`). -/
theorem quantiserResults : Obligations.QuantiserResults := by
  unfold Obligations.QuantiserResults
  intro s k t r h d a b la w sc e P num A F rd wide
  have amax_writes (i : Instr) (n : Nat) (hi : exec i s = qamax s d a n) : A i n :=
    laneRead_writes h d (fun _ t r l => amax (((List.range n).filter fun j =>
      r.entry.has (l / n * n + j) && decide (l / n * n + j < t.nlanes)).map fun j => t.get a.toNat (l / n * n + j))) hi fun _ => amax_eq _
  have hwide (c : Word) : t.wideFor (num c) = wide c := by
    dsimp only [wide]
    cases num c with
    | nan sig => rfl
    | inf n => rfl
    | fin n m e => exact t.wideFor_fin n m e
  have helem : t.qelem = F := congrArg elemOf t.qfmt_eq
  refine ⟨amax_writes _ 16 rfl, amax_writes _ 32 rfl,
    laneOp_writes_of_eq h d _ rfl fun l => congrArg (fun f => wordOf (scaleOf (num (w l)) f)) helem,
    laneOp_writes_of_eq h d _ rfl fun l => ?esc, laneFlagOp_writes_of_eq h d _ rfl fun l => qcvtW_eq t (w l) _ (e l),
    laneFlagOp_writes_of_eq h d _ rfl fun l => ?side, laneFlagOp_writes_of_eq h d _ rfl fun l => ?deq⟩
  case esc =>
    rw [qescW_eq, ← hwide, ← hwide]
  case side =>
    refine (packed2_bytes (qsideW_lt _ _ _ _)).trans ?_
    simp only [qsideW_eq]
    rfl
  case deq =>
    have hdeq := qdeqW_eq t (w l) (t.get b.toNat l)
    rw [helem] at hdeq
    exact hdeq

end Sys2Proof.Machine
end

section
/-! SUPPORT. Memory instructions in a lane alone: what the lane's turn leaves, where a check passes, and the bytes of memory that stay
(O18 to O23). -/

namespace Sys2Proof.Machine

/-! ### The turn of a lane alone (R80, R108) -/

/-- Of the lanes, the one that acts is the one that satisfies the guard. -/
theorem onlyLane_filter {t : Team} {r : Run} {g : Guard} {l : Nat} (h : OnlyLane t r g l) :
    (List.range t.nlanes).filter (t.acts r g) = [l] := by
  obtain ⟨hl, hacts⟩ := h
  have heq : (List.range t.nlanes).filter (t.acts r g) = (List.range t.nlanes).filter (· == l) :=
    List.filter_congr fun j hj => hacts j (List.mem_range.mp hj)
  rw [heq, List.filter_beq, List.count_eq_one_of_mem List.nodup_range (List.mem_range.mpr hl)]
  rfl

section Alone

variable {s0 s1 : State} {t t1 : Team} {r r1 : Run} {l : Nat}
  {act : Nat → Bool} {f : State → Team → Run → Nat → State × Team × Run}

/-- A lane that acts alone and does not abort: its turn is all. -/
theorem eachLane_done (ho : (List.range t.nlanes).filter act = [l]) (hf : f s0 t r l = (s1, t1, r1)) (hab : r1.aborted = r.aborted) :
    eachLane s0 t r act f = (s1, t1, r1) := by
  have hnone : ((List.range t.nlanes).any fun l => r1.aborted.has l && !r.aborted.has l) = false := by simp [hab]
  unfold eachLane
  rw [ho]
  simp only [List.foldl_cons, List.foldl_nil, hf, hnone, Bool.false_eq_true, if_false]

/-- Whatever its turn does, the run is left as the turn leaves it. -/
theorem eachLane_run (ho : (List.range t.nlanes).filter act = [l]) (hf : f s0 t r l = (s1, t1, r1)) :
    ∃ s2 t2, eachLane s0 t r act f = (s2, t2, r1) := by
  unfold eachLane
  rw [ho]
  simp only [List.foldl_cons, List.foldl_nil, hf]
  split
  · exact ⟨_, _, rfl⟩
  · exact ⟨_, _, rfl⟩

end Alone

section LaneMem

variable {i : Instr} {s s1 : State} {k : Nat} {t t1 : Team} {r r1 : Run} {g : Guard} {l : Nat} (h : s.HasRun k t r)
  (ho : OnlyLane t r g l) {f : State → Nat → Team → Run → Nat → State × Team × Run} (hi : exec i s = laneMem s g f)
include h ho hi

/-- An access that does not abort leaves what the lane's turn leaves, and the run goes on. -/
theorem laneMem_done (hf : f (s.laneIssue k t r g) k t r l = (s1, t1, r1)) (hab : r1.aborted = r.aborted) :
    exec i s = .next (s1.advance k t1 r1) := by
  rw [hi, laneMem, withRun_eq h]
  dsimp only
  rw [eachLane_done (f := fun s t r l => f s k t r l) (onlyLane_filter ho) hf hab]

/-- One that aborts leaves its cause with the run. -/
theorem laneMem_aborts {cause ea kind : Nat} (hf : f (s.laneIssue k t r g) k t r l = (s1, t1, r.abort l cause ea kind)) :
    Aborts i s k r l cause ea kind := by
  obtain ⟨s2, t2, he⟩ := eachLane_run (f := fun s t r l => f s k t r l) (onlyLane_filter ho) hf
  refine ⟨s2.advance k t2 (r.abort l cause ea kind), ?_, _, _, advance_team _ _ _ _, rfl, rfl, rfl, SMap.find_insert_self _ _ _⟩
  rw [hi, laneMem, withRun_eq h]
  dsimp only
  rw [he]

end LaneMem

/-! ### A check that passes (R184, R293) -/

theorem reachGlobal_reaches {s s1 : State} {rcv asid ea gpa : Nat} {need : Need} {p : Place}
    (h : s.reachGlobal rcv asid ea need = (s1, .at' p gpa)) : ∃ n c, s1 = { s with free := n, tlb := c } := by
  have hx : ∃ n c, (s.xlate rcv asid ea need).1 = { s with free := n, tlb := c } := by
    unfold State.xlate
    dsimp only
    split <;> exact ⟨_, _, rfl⟩
  obtain ⟨n, c, hx⟩ := hx
  unfold State.reachGlobal at h
  generalize s.xlate rcv asid ea need = x at h hx
  obtain ⟨u, y⟩ := x
  dsimp only at hx h
  subst hx
  cases y with
  | fault cause gpa' bad => cases congrArg Prod.snd h
  | ok spa gpa' size p1 p2 =>
    dsimp only at h
    unfold State.reachSpa at h
    split at h
    · split at h
      · cases congrArg Prod.snd h
      · obtain ⟨rfl, -⟩ := Prod.mk.inj h
        exact ⟨_, _, rfl⟩
    · split at h
      · cases congrArg Prod.snd h
      · obtain ⟨rfl, -⟩ := Prod.mk.inj h
        exact ⟨_, _, rfl⟩

/-- A check that passes changes nothing but the translations that are cached and the count of free values. -/
theorem check_reaches {s s1 : State} {k : Nat} {t : Team} {r : Run} {l ea n gpa : Nat} {need : Need} {p : Place}
    (h : s.check k t r l ea n need = (s1, .at' p gpa)) : ∃ n c, s1 = { s with free := n, tlb := c } := by
  unfold State.check at h
  dsimp only at h
  split at h
  · cases congrArg Prod.snd h
  split at h
  · cases congrArg Prod.snd h
  generalize hx : (if spaceOf (s.wgOf t.w).lr ea = 0 then s.reachGlobal (rcvOfCore (coreOfTeam k)) (s.wgOf t.w).asid ea need
      else match s.windowPlace t.w t.wgteam l ea with
        | some p => (s, Reach.at' p 0)
        | none => (s, .cause 4)) = x at h
  obtain ⟨u, y⟩ := x
  cases y with
  | cause c => cases congrArg Prod.snd h
  | at' q gpa' =>
    have hu : ∃ n c, u = { s with free := n, tlb := c } := by
      split at hx
      · exact reachGlobal_reaches hx
      · split at hx
        · obtain ⟨rfl, -⟩ := Prod.mk.inj hx
          exact ⟨_, _, rfl⟩
        · cases congrArg Prod.snd hx
    obtain ⟨n, c, rfl⟩ := hu
    dsimp only at h
    split at h
    · split at h
      · obtain ⟨rfl, -⟩ := Prod.mk.inj h
        exact ⟨_, _, rfl⟩
      · split at h
        · cases congrArg Prod.snd h
        · obtain ⟨rfl, -⟩ := Prod.mk.inj h
          exact ⟨_, _, rfl⟩
    · obtain ⟨rfl, -⟩ := Prod.mk.inj h
      exact ⟨_, _, rfl⟩

/-! ### What the bytes of memory depend on -/

/-- Main memory, where its frames stand, and the workgroups with their regions are the same. -/
def State.SameStorage (s s' : State) : Prop := s'.mem = s.mem ∧ s'.images = s.images ∧ s'.forwards = s.forwards ∧ s'.wgs = s.wgs

theorem State.SameStorage.memoryKept {s s' : State} (h : s.SameStorage s') : MemoryKept s s' := by
  obtain ⟨hmem, himg, hfwd, hwgs⟩ := h
  refine ⟨fun a => ?_, fun w o => by rw [State.wgOf, State.wgOf, hwgs]; exact ⟨rfl, rfl⟩⟩
  have hreal (a : Nat) : s'.realSpa a = s.realSpa a := by
    unfold State.realSpa State.forward
    rw [hfwd]
  unfold State.sysByte State.imageAt
  rw [himg, hreal, hmem]

/-- The issue of a lane-set instruction changes no storage where no sample falls due. -/
theorem laneIssue_storage (s : State) (k : Nat) (t : Team) (r : Run) (g : Guard) (h : s.Unsampled (partOfTeam k)) :
    s.SameStorage (s.laneIssue k t r g) := by
  obtain ⟨he, -⟩ := laneIssue_frame s k t t r r g h
  have hmem := congrArg State.mem he
  have himg := congrArg State.images he
  have hfwd := congrArg State.forwards he
  have hwgs := congrArg State.wgs he
  exact ⟨hmem, himg, hfwd, hwgs⟩

/-- A lane's access that the check lets pass keeps all bytes of memory. -/
theorem memoryKept_of_issue {s u : State} {k : Nat} {t : Team} {r : Run} {g : Guard} (hu : (s.laneIssue k t r g).SameStorage u) (t1 : Team)
    (r1 : Run) (h : s.Unsampled (partOfTeam k)) : MemoryKept s (u.advance k t1 r1) := by
  obtain ⟨hmem, himg, hfwd, hwgs⟩ := laneIssue_storage s k t r g h
  obtain ⟨hmem', himg', hfwd', hwgs'⟩ := hu
  exact State.SameStorage.memoryKept ⟨hmem'.trans hmem, himg'.trans himg, hfwd'.trans hfwd, hwgs'.trans hwgs⟩

/-! ### Bytes that a load writes (R186) -/

/-- Loaded bytes go to the registers that `loadedReg` names, in their lane alone. -/
theorem get_putBytes (t : Team) (d l : Nat) (sx : Bool) (bs : List Byte) (q j : Nat) (hj : j < t.nlanes) :
    (t.putBytes d l sx bs).get q j = if j = l then (loadedReg d sx bs q).getD (t.get q j) else t.get q j := by
  unfold Team.putBytes loadedReg
  split
  · rw [Team.get_put _ _ _ _ _ _ hj]
    by_cases hq : q = d
    · subst hq
      by_cases hjl : j = l <;> simp [hjl]
    · simp [hq]
  · exact (Team.get_putWords t d (bs.length / 4) j q (· == l) (fun j => wordOf (leNat ((bs.drop (4 * j)).take 4))) hj).trans
      (if_congr beq_iff_eq rfl rfl)

theorem putBytes_frame (t : Team) (d l : Nat) (sx : Bool) (bs : List Byte) :
    t.putBytes d l sx bs = { t with v := (t.putBytes d l sx bs).v } := by
  unfold Team.putBytes
  split
  · rfl
  · exact Team.putWords_frame t d (bs.length / 4) (· == l) fun j => wordOf (leNat ((bs.drop (4 * j)).take 4))

/-- Lanes that raise no flag leave the run as it is. -/
theorem raise_none (r : Run) (n : Nat) (p : Nat → Bool) : r.raise n p (fun _ => 0) = r := by
  unfold Run.raise
  simp

/-- A read that the check lets pass: its bytes are written, and what it has found of the team's buffered stores is noted. -/
theorem loadInto_reaches {s : State} {k : Nat} {t : Team} {r : Run} {l n ea kind gpa : Nat} {p : Place}
    {wr : Team → List Byte → Team × Word} : ∃ u, s.SameStorage u ∧ loadInto (s, .at' p gpa) k t r l n ea kind wr =
      (u, { (wr t (s.laneBytes t r l p n)).1 with sbuf := s.noteBuf l p n (wr t (s.laneBytes t r l p n)).1.sbuf },
        r.raise t.nlanes (· == l) fun _ => (wr t (s.laneBytes t r l p n)).2) := by
  cases p with
  | peer nd ld o => exact ⟨{ s with free := s.free + 256 }.noteRead k l (.peer nd ld o) n, ⟨rfl, rfl, rfl, rfl⟩, rfl⟩
  | sys a => exact ⟨s.noteRead k l (.sys a) n, ⟨rfl, rfl, rfl, rfl⟩, rfl⟩
  | scr w o => exact ⟨s.noteRead k l (.scr w o) n, ⟨rfl, rfl, rfl, rfl⟩, rfl⟩
  | acc w o => exact ⟨s.noteRead k l (.acc w o) n, ⟨rfl, rfl, rfl, rfl⟩, rfl⟩

/-- One that fails aborts its lane, but for poison that a pending load has met. -/
theorem loadInto_fails {s : State} {k : Nat} {t : Team} {r : Run} {l n ea kind c : Nat} {wr : Team → List Byte → Team × Word}
    (hc : r.pends = none ∨ c ≠ 5) : loadInto (s, .cause c) k t r l n ea kind wr = (s, t, r.abort l c ea kind) := by
  unfold loadInto loadFailed
  dsimp only
  split
  · rw [if_neg (hc.resolve_left (by simp [*]))]
  · rfl

/-! ### LD (R184, R186) -/

/-- Settles O18: where the check passes the bytes are written (`get_putBytes`) and no memory changes (`check_reaches`); else the lane
aborts (`loadInto_fails`). -/
theorem loadResults : Obligations.LoadResults := by
  unfold Obligations.LoadResults
  intro s k t r l h ho d a o la s0 L
  have hload (i : Instr) (n : Nat) (sx : Bool) (hi : exec i s = load s d a o n sx) : L i n sx := by
    dsimp only [L]
    split
    · next s1 p gpa hcheck =>
      obtain ⟨m, c, hs1⟩ := check_reaches hcheck
      obtain ⟨u, hu, hload⟩ := loadInto_reaches (s := s1) (k := k) (t := t) (r := r) (l := l) (n := n)
        (ea := addrOf t a o.toInt n l) (kind := 0) (gpa := gpa) (p := p) (wr := fun t bs => (t.putBytes d.toNat l sx bs, 0))
      rw [raise_none] at hload
      refine ⟨_, laneMem_done h ho hi ((congrArg (loadInto · k t r l n _ 0 _) hcheck).trans hload) rfl,
        _, advance_team _ _ _ _, ?_, fun j hj q => get_putBytes t d.toNat l sx _ q j hj, memoryKept_of_issue (t := t) (r := r) (g := Guard.always) ?_ _ _⟩
      · rw [putBytes_frame]
        rfl
      · rw [hs1] at hu
        exact hu
    · next s1 c hcheck =>
      exact fun hc => laneMem_aborts h ho hi ((congrArg (loadInto · k t r l n _ 0 _) hcheck).trans (loadInto_fails hc))
  exact ⟨hload _ 1 true rfl, hload _ 1 false rfl, hload _ 2 true rfl, hload _ 2 false rfl, hload _ 4 false rfl, hload _ 8 false rfl,
    hload _ 16 false rfl, hload _ 16 false rfl⟩

end Sys2Proof.Machine
end

section
/-! SUPPORT. Tile loads, stores and block stores in a lane alone (O19, O20, O21). -/

namespace Sys2Proof.Machine

/-! ### LDT (R189, R190) -/

/-- Where an LDT.SDB finds the block of offset `off`: the tile's checks, and poison where the block is not one (R176, R190). -/
def State.sdbReach (s : State) (k : Nat) (t : Team) (r : Run) (l n off : Nat) : Reach :=
  match s.tileRead k t r l n (off / 512 * 64) 64 with
  | .at' p g => if sdbPoison (s.laneBytes t r l p 64) then .cause 5 else .at' p g
  | .cause c => .cause c

/-- What an LDT.SDB delivers of element `e` of a block: its bits and the flags it raises. -/
def sdbValue (bs : List Byte) (e : Nat) : Nat × Word :=
  if (sdbLayout (bs.getD 0 0).toNat).2.2 ≤ e then (fp32.canon, flNV) else deliverElem (sdbDec bs e)

theorem sdbReach_block {s : State} {k : Nat} {t : Team} {r : Run} {l n off gpa : Nat} {p : Place}
    (h : s.tileRead k t r l n (off / 512 * 64) 64 = .at' p gpa) (hb : sdbPoison (s.laneBytes t r l p 64) = false) :
    s.sdbReach k t r l n off = .at' p gpa := by simp [State.sdbReach, h, hb]

theorem sdbReach_cause {s : State} {k : Nat} {t : Team} {r : Run} {l n off c : Nat}
    (h : s.tileRead k t r l n (off / 512 * 64) 64 = .cause c) : s.sdbReach k t r l n off = .cause c := by simp [State.sdbReach, h]

theorem wordOf_sdbValue (bs : List Byte) (e : Nat) : wordOf (sdbValue bs e).1 =
    if (sdbLayout (bs.getD 0 0).toNat).2.2 ≤ e then 0x7FC00000 else BitVec.ofNat 32 (deliverElem (sdbDec bs e)).1 := by
  unfold sdbValue
  split <;> rfl

theorem ldtSdb_eq (s : State) (d tl o : BitVec 6) (la : BitVec 4) : exec (.ldtSdb d tl o la) s =
    laneMem s Guard.always fun s k t r l => loadInto (s, s.sdbReach k t r l tl.toNat (t.get o.toNat l).toNat) k t r l 64 (t.get o.toNat l).toNat 4
      fun u bs => (u.put d.toNat (· == l) fun _ => wordOf (sdbValue bs ((t.get o.toNat l).toNat % 512)).1,
        (sdbValue bs ((t.get o.toNat l).toNat % 512)).2) := rfl

/-- Settles O19: the offset in the tile stands in for the check of an address; the SDB form reads its block and delivers one element. -/
theorem tileLoadResults : Obligations.TileLoadResults := by
  unfold Obligations.TileLoadResults
  intro s k t r l h ho d tl o la s0 off L
  have hload (i : Instr) (n : Nat) (sx : Bool) (hi : exec i s = loadTile s d tl o n sx) : L i n sx := by
    dsimp only [L]
    split
    · next p gpa hreach =>
      obtain ⟨u, hu, hload⟩ := loadInto_reaches (s := s0) (k := k) (t := t) (r := r) (l := l) (n := n) (ea := off) (kind := 4) (gpa := gpa)
        (p := p) (wr := fun t bs => (t.putBytes d.toNat l sx bs, 0))
      rw [raise_none] at hload
      refine ⟨_, laneMem_done h ho hi ((congrArg (fun x => loadInto (s0, x) k t r l n off 4 _) hreach).trans hload) rfl,
        _, advance_team _ _ _ _, ?_, fun j hj q => get_putBytes t d.toNat l sx _ q j hj,
        memoryKept_of_issue (t := t) (r := r) (g := Guard.always) hu _ _⟩
      rw [putBytes_frame]
      rfl
    · next c hreach =>
      exact fun hc => laneMem_aborts h ho hi ((congrArg (fun x => loadInto (s0, x) k t r l n off 4 _) hreach).trans (loadInto_fails hc))
  refine ⟨hload _ 4 false rfl, hload _ 8 false rfl, hload _ 16 false rfl, hload _ 1 true rfl, hload _ 1 false rfl, hload _ 2 true rfl,
    hload _ 2 false rfl, ?_⟩
  split
  · next p gpa hreach =>
    intro hgood
    obtain ⟨u, -, hload⟩ := loadInto_reaches (s := s0) (k := k) (t := t) (r := r) (l := l) (n := 64) (ea := off) (kind := 4) (gpa := gpa)
      (p := p) (wr := fun t bs => (t.put d.toNat (· == l) fun _ => wordOf (sdbValue bs (off % 512)).1, (sdbValue bs (off % 512)).2))
    refine ⟨_, laneMem_done h ho (ldtSdb_eq s d tl o la)
      ((congrArg (fun x => loadInto (s0, x) k t r l 64 off 4 _) (sdbReach_block hreach hgood)).trans hload) rfl,
      _, advance_team _ _ _ _, fun j hj q => (Team.get_put t d.toNat q j _ _ hj).trans ?_⟩
    rw [wordOf_sdbValue]
    by_cases hq : q = d.toNat <;> simp [hq]
  · next c hreach =>
    exact fun hc => laneMem_aborts h ho (ldtSdb_eq s d tl o la)
      ((congrArg (fun x => loadInto (s0, x) k t r l 64 off 4 _) (sdbReach_cause hreach)).trans (loadInto_fails hc))

/-! ### ST and STT (R187, R189) -/

/-- Settles O20: a recorded store is the lane's whole turn, and the check before it changes no storage (`check_reaches`). -/
theorem storeRecords : Obligations.StoreRecords := by
  unfold Obligations.StoreRecords
  intro s k t r l h sr a tl x o c g3 g bytes R S T
  have hstore (i : Instr) (n : Nat) (hi : exec i s = store s sr a o c g3 n) : S i n := by
    intro ho s0 ea
    split
    · next s1 p gpa hcheck =>
      obtain ⟨m, tlb, hs1⟩ := check_reaches hcheck
      have hktag : (s1.wgOf t.w).ktag = (s0.wgOf t.w).ktag := by rw [hs1]; rfl
      refine ⟨_, laneMem_done h ho hi (congrArg (record · t r l ea 1 c.toNat _ _) hcheck) rfl, ?_,
        memoryKept_of_issue (t := t) (r := r) (g := ⟨g3, false⟩) (by rw [hs1]; exact ⟨rfl, rfl, rfl, rfl⟩) _ _⟩
      exact advance_team _ _ _ _
    · next s1 cs hcheck => exact laneMem_aborts h ho hi (congrArg (record · t r l ea 1 c.toNat _ _) hcheck)
  have htile (i : Instr) (n : Nat) (hi : exec i s = storeTile s sr tl x c g n) : T i n := by
    intro ho
    split
    · next p gpa hreach =>
      exact ⟨_, laneMem_done h ho hi (congrArg (fun y => record (s.laneIssue k t r g, y) t r l _ 4 c.toNat 0 _) hreach) rfl,
        advance_team _ _ _ _, memoryKept_of_issue (t := t) (r := r) (g := g) ⟨rfl, rfl, rfl, rfl⟩ _ _⟩
    · next cs hreach =>
      exact laneMem_aborts h ho hi (congrArg (fun y => record (s.laneIssue k t r g, y) t r l _ 4 c.toNat 0 _) hreach)
  exact ⟨hstore _ 1 rfl, hstore _ 2 rfl, hstore _ 4 rfl, hstore _ 8 rfl, hstore _ 16 rfl, hstore _ 16 rfl,
    htile _ 4 rfl, htile _ 8 rfl, htile _ 16 rfl⟩

/-! ### SDBST (R188) -/

/-- The values that the lanes supply to an SDBST in issue: a lane that restarts, or all in the first attempt, supplies its own again. -/
def blockRow (t : Team) (r : Run) (sr : Nat) : Row :=
  (List.range t.nlanes).map fun l => if r.first || r.todo.has l then t.get sr l else (r.sdbRows.getD r.idx []).getD l 0

/-- The block of the group that begins at lane `h`, of the row of all lanes' values. -/
def Team.blockOf (t : Team) (row : Row) (h : Nat) : List Byte :=
  sdbBlock t.qfmt (if natBit t.qctl.toNat 6 then 1 else 0) fun e => (row.getD (h + e) 0).toNat

/-- The run with the row kept and put in the blocks that still wait. -/
def Run.withRow (r : Run) (t : Team) (row : Row) : Run :=
  { r with
    sdbRows := r.sdbRows.insert r.idx row
    sdb := r.sdb.map fun st => if st.ix = r.idx then { st with bytes := t.blockOf row st.lane } else st }

/-- The store of the group that lane `l` heads, at a place that the check has answered: `t0` supplies the block. -/
def blockStore (t0 t : Team) (row : Row) (ix l ea col ktag : Nat) (p : Place) : Store :=
  { lane := l, va := ea, at' := p, bytes := t0.blockOf row l, col := col, ktag := ktag
    group := some (maskOf t.nlanes fun j => l ≤ j && decide (j < l + (sdbLayout t0.qfmt).2.2)), ix := ix }

/-- What becomes of a block, of its check at `ea`, where the instruction issued with team `t0`. -/
def blockAt (t0 t : Team) (row : Row) (r : Run) (l ea col : Nat) : State × Reach → State × Team × Run
  | (s, .cause cs) => (s, t, r.abort l cs ea 3)
  | (s, .at' p _) => (s, t, { r with stores := r.stores ++ [blockStore t0 t row r.idx l ea col (s.wgOf t.w).ktag p] })

/-- The turn of a lane that heads its group. -/
def blockTurn (t0 : Team) (row : Row) (a : BitVec 6) (o : BitVec 4) (col k : Nat) (s : State) (t : Team) (r : Run) (l : Nat) :
    State × Team × Run :=
  blockAt t0 t row r l (addrOf t a o.toInt 64 l) col (s.check k t r l (addrOf t a o.toInt 64 l) 64 .store)

/-- Whether a lane heads a group and acts. -/
def Team.heads (t : Team) (r : Run) (g : Guard) (l : Nat) : Bool := t.acts r g l && l % (sdbLayout t.qfmt).2.2 == 0

theorem sdbst_eq {s : State} {k : Nat} {t : Team} {r : Run} (h : s.HasRun k t r) (sr a : BitVec 6) (o : BitVec 4) (c g3 : BitVec 3) :
    exec (.sdbst sr a o c g3) s =
      let x := eachLane (s.laneIssue k t r ⟨g3, false⟩) t (r.withRow t (blockRow t r sr.toNat)) (t.heads r ⟨g3, false⟩)
        (blockTurn t (blockRow t r sr.toNat) a o c.toNat k)
      .next (x.1.advance k x.2.1 x.2.2) := by
  change execSdbst sr a o c g3 s = _
  rw [execSdbst, withRun_eq h]
  rfl

/-- What a store of an SDBST in issue is: a whole block, of a lane that heads its group and acts. -/
def OfBlock (t : Team) (r : Run) (g : Guard) (col : Nat) (st : Store) : Prop :=
  st.bytes.length = 64 ∧ st.ix = r.idx ∧ st.col = col ∧ st.lane % (sdbLayout t.qfmt).2.2 = 0 ∧ t.acts r g st.lane = true

theorem length_padTo (n : Nat) (bs : List Byte) : (padTo n bs).length = n := by
  simp only [padTo, List.length_append, List.length_take, List.length_replicate]
  omega

theorem blockStore_ofBlock {t0 t : Team} {r : Run} {g : Guard} {l : Nat} (hl : t0.heads r g l = true) (row : Row) (ea col ktag : Nat) (p : Place) :
    OfBlock t0 r g col (blockStore t0 t row r.idx l ea col ktag p) := by
  simp only [Team.heads, Bool.and_eq_true, beq_iff_eq] at hl
  obtain ⟨hacts, hhead⟩ := hl
  exact ⟨length_padTo 64 _, rfl, rfl, hhead, hacts⟩

/-- What the turns of an SDBST do to its run: they append whole blocks, and keep its rows and its index. -/
def BlocksAppended (t : Team) (r0 : Run) (g : Guard) (col : Nat) (r : Run) : Prop :=
  r.idx = r0.idx ∧ r.sdbRows = r0.sdbRows ∧ ∃ new, r.stores = r0.stores ++ new ∧ ∀ st ∈ new, OfBlock t r0 g col st

theorem blockTurn_appends {t0 : Team} {r0 : Run} {g : Guard} {col : Nat} {x : State × Team × Run} (hx : BlocksAppended t0 r0 g col x.2.2)
    {l : Nat} (hl : t0.heads r0 g l = true) (row : Row) (a : BitVec 6) (o : BitVec 4) (k : Nat) :
    BlocksAppended t0 r0 g col (blockTurn t0 row a o col k x.1 x.2.1 x.2.2 l).2.2 := by
  obtain ⟨hix, hrows, new, hstores, hnew⟩ := hx
  unfold blockTurn blockAt
  split
  · exact ⟨hix, hrows, new, hstores, hnew⟩
  · refine ⟨hix, hrows, new ++ [blockStore t0 x.2.1 row x.2.2.idx l _ col _ _], by rw [hstores, List.append_assoc], fun st hst => ?_⟩
    obtain hst | hst := List.mem_append.mp hst
    · exact hnew st hst
    · rw [List.mem_singleton.mp hst, hix]
      exact blockStore_ofBlock hl row _ col _ _

theorem eachLane_keeps {P : Run → Prop} {s : State} {t : Team} {r : Run} {act : Nat → Bool} {f : State → Team → Run → Nat → State × Team × Run}
    (h : P r) (hf : ∀ x : State × Team × Run, P x.2.2 → ∀ l, act l = true → P (f x.1 x.2.1 x.2.2 l).2.2) : P (eachLane s t r act f).2.2 := by
  have hfold := List.foldlRecOn (motive := fun x : State × Team × Run => P x.2.2) ((List.range t.nlanes).filter act)
    (fun a l => f a.1 a.2.1 a.2.2 l) (b := (s, t, r)) h fun x hx l hl => hf x hx l (List.mem_filter.mp hl).2
  unfold eachLane
  dsimp only
  split <;> exact hfold

/-- The check of a store asks nothing of the run. -/
theorem check_store_run (s : State) (k : Nat) (t : Team) (r r' : Run) (l ea n : Nat) :
    s.check k t r l ea n .store = s.check k t r' l ea n .store := rfl

/-- A head that acts alone: only its group is stored. -/
theorem heads_only {t : Team} {r : Run} {g : Guard} {l : Nat} (ho : OnlyLane t r g l) (hhead : l % (sdbLayout t.qfmt).2.2 = 0) :
    (List.range t.nlanes).filter (t.heads r g) = [l] := by
  have hheads : (List.range t.nlanes).filter (t.heads r g) = (List.range t.nlanes).filter (t.acts r g) := by
    refine List.filter_congr fun j hj => ?_
    rw [Team.heads, ho.2 j (List.mem_range.mp hj)]
    by_cases hjl : j = l <;> simp [hjl, hhead]
  rw [hheads, onlyLane_filter ho]

/-- In a first attempt all lanes supply their values. -/
theorem blockRow_first {t : Team} {r : Run} (h : r.first = true) (sr : Nat) : blockRow t r sr = (List.range t.nlanes).map fun j => t.get sr j := by
  simp [blockRow, h]

/-- Settles O21: the stores of every attempt are whole blocks (`blockTurn_appends`); a head alone records its group's (`heads_only`). -/
theorem blockStoreRecords : Obligations.BlockStoreRecords := by
  unfold Obligations.BlockStoreRecords
  refine ⟨fun s k t r h sr a o c g3 => ?_, ?_⟩
  · obtain ⟨hix, hrows, new, hstores, hnew⟩ := eachLane_keeps (P := BlocksAppended t (r.withRow t (blockRow t r sr.toNat)) ⟨g3, false⟩ c.toNat)
      (s := s.laneIssue k t r ⟨g3, false⟩) (t := t) (act := t.heads r ⟨g3, false⟩) (f := blockTurn t (blockRow t r sr.toNat) a o c.toNat k)
      ⟨rfl, rfl, [], (List.append_nil _).symm, fun st hst => nomatch hst⟩ fun x hx l hl => blockTurn_appends hx hl _ a o k
    refine ⟨_, sdbst_eq h sr a o c g3, _, _, advance_team _ _ _ _, rfl, congrArg (· + 1) hix, ?_⟩
    have hrow : (r.withRow t (blockRow t r sr.toNat)).sdbRows.getD r.idx [] = blockRow t r sr.toNat := by
      rw [Run.withRow, SMap.getD_insert, if_pos rfl]
    dsimp only
    rw [hrows, hrow]
    refine ⟨by simp [blockRow], fun j hj hsupplies => ?_, new, hstores, hnew⟩
    rw [blockRow, getD_map_range _ _ _ _ hj]
    exact if_pos (Bool.or_eq_true_iff.mpr hsupplies)
  · intro s k t r l h sr a o c g3 ho hfirst hsdb fmt n row ea s0 hhead
    have hrow : blockRow t r sr.toNat = row := blockRow_first hfirst sr.toNat
    have hwith : r.withRow t row = { r with sdbRows := r.sdbRows.insert r.idx row } := by rw [Run.withRow, hsdb]; rfl
    have hexec := sdbst_eq h sr a o c g3
    rw [hrow, hwith] at hexec
    have hturn : blockTurn t row a o c.toNat k s0 t { r with sdbRows := r.sdbRows.insert r.idx row } l = _ :=
      congrArg (blockAt t t row { r with sdbRows := r.sdbRows.insert r.idx row } l ea c.toNat) (check_store_run s0 k t _ r l ea 64)
    split
    · next s1 p gpa hcheck =>
      obtain ⟨m, tlb, hs1⟩ := check_reaches hcheck
      have hktag : (s1.wgOf t.w).ktag = (s0.wgOf t.w).ktag := by rw [hs1]; rfl
      rw [hcheck] at hturn
      rw [eachLane_done (heads_only ho hhead) hturn rfl] at hexec
      refine ⟨_, hexec, ?_, memoryKept_of_issue (t := t) (r := r) (g := ⟨g3, false⟩) (by rw [hs1]; exact ⟨rfl, rfl, rfl, rfl⟩) _ _⟩
      simp only [← hktag, Bool.decide_and]
      exact advance_team _ _ _ _
    · next s1 cs hcheck =>
      rw [hcheck] at hturn
      obtain ⟨s2, t2, heach⟩ := eachLane_run (heads_only ho hhead) hturn
      rw [heach] at hexec
      exact ⟨_, hexec, _, _, advance_team _ _ _ _, rfl, rfl, rfl, SMap.find_insert_self _ _ _⟩

end Sys2Proof.Machine
end

section
/-! SUPPORT. What the return from the supervisor handler restores (O37). -/

namespace Sys2Proof.Machine

/-! ### Rows put in a table -/

/-- Entries of other registers leave a register's row. -/
theorem SMap.find_foldl_insert_of_ne {α : Type} (l : List (Nat × α)) (m : SMap α) {q : Nat} (h : ∀ c ∈ l, c.1 ≠ q) :
    (l.foldl (fun m c => m.insert c.1 c.2) m).find? q = m.find? q := by
  induction l generalizing m with
  | nil => rfl
  | cons c l ih =>
    rw [List.foldl_cons, ih _ fun d hd => h d (List.mem_cons_of_mem _ hd), SMap.find_insert_ne _ _ (h c List.mem_cons_self).symm]

/-- A register whose every entry is the same row takes that row. -/
theorem SMap.find_foldl_insert_of_mem {α : Type} {l : List (Nat × α)} {q : Nat} {x : α} (hmem : (q, x) ∈ l) (m : SMap α)
    (h : ∀ c ∈ l, c.1 = q → c.2 = x) : (l.foldl (fun m c => m.insert c.1 c.2) m).find? q = some x := by
  induction l generalizing m with
  | nil => cases hmem
  | cons c l ih =>
    rw [List.foldl_cons]
    have hl : ∀ d ∈ l, d.1 = q → d.2 = x := fun d hd => h d (List.mem_cons_of_mem _ hd)
    by_cases hin : (q, x) ∈ l
    · exact ih hin _ hl
    · obtain rfl : (q, x) = c := (List.mem_cons.mp hmem).resolve_right hin
      rw [SMap.find_foldl_insert_of_ne l _ fun d hd hdq => hin (by rw [← hdq, ← hl d hd hdq]; exact hd), SMap.find_insert_self]

theorem mem_rowsAt {m : SMap Row} {base n : Nat} {c : Nat × Row} :
    c ∈ rowsAt m base n ↔ base ≤ c.1 ∧ c.1 < base + n ∧ m.find? c.1 = some c.2 := by
  obtain ⟨q, x⟩ := c
  simp only [rowsAt, List.mem_filterMap, List.mem_range, Option.map_eq_some_iff, Prod.mk.injEq]
  constructor
  · rintro ⟨i, hi, y, hy, rfl, rfl⟩
    exact ⟨by omega, by omega, hy⟩
  · rintro ⟨hb, hn, hx⟩
    exact ⟨q - base, by omega, x, by rwa [Nat.add_sub_cancel' hb], by omega, rfl⟩

/-! ### The registers that are restored (R206) -/

/-- v48 and those behind it hold what was saved of the registers that the team still has. -/
theorem restore_saved (t : Team) (h : Handler) {n : Nat} (h48 : 48 ≤ n) (h56 : n < 56) (l : Nat) :
    (t.restore h).get n l = if n < t.alloc then ((h.v48.find? n).getD []).getD l 0 else 0 := by
  have hbase : SMap.find? (t.v.filter fun c => decide (c.1 < 48)) n = none :=
    SMap.find_filter_key_none t.v (fun n => decide (n < 48)) n (decide_eq_false (by omega))
  have hrow {c : Nat × Row} (hc : c ∈ rowsAt h.v48 48 (min 8 (t.alloc - 48)) ++ rowsAt h.temps 56 8) (hq : c.1 = n) :
      n < t.alloc ∧ h.v48.find? n = some c.2 := by
    rw [List.mem_append, mem_rowsAt, mem_rowsAt, hq] at hc
    obtain ⟨-, hlt, hv⟩ | ⟨hge, -, -⟩ := hc
    · exact ⟨by omega, hv⟩
    · omega
  have hfind : (t.restore h).v.find? n = if n < t.alloc then h.v48.find? n else none := by
    unfold Team.restore
    split
    · next halloc =>
      cases hv : h.v48.find? n with
      | none =>
        rw [SMap.find_foldl_insert_of_ne _ _ fun c hc hq => (by cases hv.symm.trans (hrow hc hq).2), hbase]
      | some x =>
        refine SMap.find_foldl_insert_of_mem (List.mem_append_left _ (mem_rowsAt.mpr ⟨h48, ?_, hv⟩)) _ fun c hc hq => ?_
        · show n < _
          omega
        · exact Option.some.inj ((hrow hc hq).2.symm.trans hv)
    · next halloc => rw [SMap.find_foldl_insert_of_ne _ _ fun c hc hq => halloc (hrow hc hq).1, hbase]
  unfold Team.get
  rw [hfind]
  split <;> rfl

/-- v0..v47 stay as the handler left them. -/
theorem restore_low (t : Team) (h : Handler) {n : Nat} (hn : n < 48) (l : Nat) : (t.restore h).get n l = t.get n l := by
  have hne : ∀ c ∈ rowsAt h.v48 48 (min 8 (t.alloc - 48)) ++ rowsAt h.temps 56 8, c.1 ≠ n := by
    intro c hc
    rw [List.mem_append, mem_rowsAt, mem_rowsAt] at hc
    omega
  unfold Team.get Team.restore
  rw [SMap.find_foldl_insert_of_ne _ _ hne, SMap.find_filter_key t.v (fun n => decide (n < 48)) n (decide_eq_true hn)]

/-! ### What a landing leaves of the handler (R204) -/

/-- The team's handler is `h`, but for saved registers that have landed. -/
def Team.HandlerOf (t : Team) (h : Handler) : Prop := ∃ v48 pre, t.handler = some { h with v48 := v48, pre := pre }

theorem land_handlerOf {t : Team} {h : Handler} (ht : t.HandlerOf h) (p : Pend) : (t.land p).HandlerOf h := by
  obtain ⟨v48, pre, ht⟩ := ht
  unfold Team.land
  dsimp only
  split
  · exact ⟨v48, pre, ht⟩
  · simp only [Team.HandlerOf, ht, Option.map_some]
    split
    · exact ⟨_, _, rfl⟩
    · exact ⟨v48, pre, rfl⟩

theorem capPending_handlerOf {t : Team} {h : Handler} (ht : t.HandlerOf h) (fuel : Nat) : (t.capPending fuel).HandlerOf h := by
  induction fuel generalizing t with
  | zero => exact ht
  | succ fuel ih =>
    unfold Team.capPending
    split
    · exact ht
    · split
      · exact ih (land_handlerOf ht _)
      · exact ht

theorem leavePending_handler (t : Team) (v : SMap Row) (r : Run) (n : Nat) : (t.leavePending v r n).handler = t.handler := by
  unfold Team.leavePending
  split
  · rfl
  · dsimp only
    split
    · rfl
    · refine foldl_keeps (fun u : Team => u.handler = t.handler) _ (fun u q hu => ?_) _ t rfl
      exact hu

theorem leaveRun_handlerOf {t : Team} {h : Handler} (ht : t.handler = some h) : t.leaveRun.HandlerOf h := by
  unfold Team.leaveRun
  split
  · exact ⟨h.v48, h.pre, ht⟩
  · refine capPending_handlerOf ⟨h.v48, h.pre, ?_⟩ 2
    rw [leavePending_handler, leavePending_handler, ht]

/-! ### The return (R206) -/

theorem attemptOver_team {s : State} {k j : Nat} {t : Team} (h : s.TeamIs j t) : (s.attemptOver k).TeamIs j t := by
  unfold State.TeamIs
  rw [attemptOver_teams]
  exact h

/-- What team `t'` holds behind the return from handler `h` by team `t` at the end of run `r`. -/
def Restored (t : Team) (r : Run) (h : Handler) (t' : Team) : Prop :=
  t'.handler = none ∧ t'.pc = h.run.pc ∧ t'.active = h.faulted ∧ t'.p = h.p ∧ t'.q = h.q ∧ t'.flags = h.flags ∧
    (bits r.trailer 19 6 = 63 → bits r.trailer 13 6 = 63 → t.pend.length ≤ 8 →
      (∀ n, 48 ≤ n → n < 56 → ∀ l, t'.get n l = if n < t.alloc then ((h.v48.find? n).getD []).getD l 0 else 0) ∧
      ∀ n < 48, ∀ l, t'.get n l = t.get n l)

theorem restored_of_leaveRun {t : Team} {r : Run} {h : Handler} (hr : t.run = some r) (hh : t.handler = some h) :
    Restored t r h (t.leaveRun.restore (t.leaveRun.handler.getD h)) ∧ (t.leaveRun.restore (t.leaveRun.handler.getD h)).run = some h.run := by
  obtain ⟨v48, pre, hu⟩ := leaveRun_handlerOf hh
  refine ⟨⟨rfl, by rw [hu]; rfl, by rw [hu]; rfl, by rw [hu]; rfl, by rw [hu]; rfl, by rw [hu]; rfl, fun h1 h2 hp => ?_⟩, by rw [hu]; rfl⟩
  have hleave := leaveRun_of_none_pending hr h1 h2 hp
  have hsame : t.leaveRun.handler.getD h = h := by rw [hleave]; exact congrArg (·.getD h) hh
  rw [hsame]
  refine ⟨fun n h48 h56 l => ?_, fun n hn l => ?_⟩
  · rw [restore_saved _ h h48 h56, hleave]
  · rw [restore_low _ h hn, leaveRun_get hr h1 h2 hp n l (by omega)]

/-- Settles O37: both returns restore the team behind its run (`restored_of_leaveRun`); at another depth it stops (`stopAt_team`). -/
theorem handlerReturn_restores : Obligations.HandlerReturn := by
  unfold Obligations.HandlerReturn
  intro s k t t1 r r1 s1 hrun hb g h hg hh restored
  have hr : t1.run = some r1 := hb.2.2
  obtain ⟨hrest, hback⟩ := restored_of_leaveRun hr hh
  have hexec (f : State → Nat → Team → Handler → State) : handlerReturn s g f =
      .next (if t1.mstack.length = h.depth then (f s1 k t1 h).attemptOver k else s1.maskFault k t1 r1 2) := by
    rw [handlerReturn, teamTerminal_eq hrun g false _ hb hg, hh]
  refine ⟨fun hd => ⟨?_, ?_⟩, fun hd => ⟨?_, ?_⟩⟩
  · exact ⟨_, (hexec _).trans (congrArg _ (if_neg hd)), stopAt_team s1 k t1 r1 4 2⟩
  · exact ⟨_, (hexec _).trans (congrArg _ (if_neg hd)), stopAt_team s1 k t1 r1 4 2⟩
  · exact ⟨_, (hexec _).trans (congrArg _ (if_pos hd)), _, attemptOver_team (setTeam_team s1 k _), hrest, hback, rfl⟩
  · have hesc := attemptOver_team (k := k) (escalate_team s1 k (t1.leaveRun.restore (t1.leaveRun.handler.getD h))
      { h.run with esc := t1.run.map fun r => (dwordOf r.here, r.pc) })
    refine ⟨_, (hexec _).trans (congrArg _ (if_pos hd)), _, hesc, hrest, ?_, rfl⟩
    rw [hr]
    rfl

end Sys2Proof.Machine
end

section
/-! SUPPORT. What the wait terminals leave of a team and its partition (O33). -/

namespace Sys2Proof.Machine

/-! ### The end of a run does not depend on status and allocation (R79, R81) -/

/-- The team with another status and another allocation. -/
def Team.restated (t : Team) (st : TStatus) (al : Nat) : Team := { t with status := st, alloc := al }

theorem land_restated (t : Team) (st : TStatus) (al : Nat) (p : Pend) : (t.restated st al).land p = (t.land p).restated st al := by
  unfold Team.land
  dsimp only
  split <;> rfl

theorem capPending_restated (t : Team) (st : TStatus) (al fuel : Nat) :
    (t.restated st al).capPending fuel = (t.capPending fuel).restated st al := by
  induction fuel generalizing t with
  | zero => rfl
  | succ fuel ih =>
    have hpend : (t.restated st al).pend = t.pend := rfl
    unfold Team.capPending
    rw [hpend]
    split
    · rfl
    · split
      · rw [land_restated, ih]
      · rfl

theorem leavePending_restated (t : Team) (st : TStatus) (al : Nat) (v : SMap Row) (r : Run) (n : Nat) :
    (t.restated st al).leavePending v r n = (t.leavePending v r n).restated st al := by
  have hpend : (t.restated st al).pend = t.pend := rfl
  unfold Team.leavePending
  rw [hpend]
  split
  · rfl
  · dsimp only
    split
    · rfl
    · rw [List.foldl_hom (Team.restated · st al)]
      · rfl
      · exact fun u q => rfl

theorem leaveRun_restated (t : Team) (st : TStatus) (al : Nat) : (t.restated st al).leaveRun = t.leaveRun.restated st al := by
  have hrun : (t.restated st al).run = t.run := rfl
  have hv : (t.restated st al).v = t.v := rfl
  unfold Team.leaveRun
  rw [hrun, hv]
  split
  · rfl
  · rw [leavePending_restated, leavePending_restated, capPending_restated]
    rfl

/-- A team that ends its run is ready, whatever its status was. -/
theorem ended_restated (t : Team) (st : TStatus) (al : Nat) (pc : DWord) (now : Nat) :
    (t.restated st al).ended pc now = { t.ended pc now with alloc := al } := by
  rw [Team.ended, leaveRun_restated]
  rfl

/-! ### A terminal that waits (R82) -/

theorem modTeam_frame (s : State) (k : Nat) (f : Team → Team) : TerminalFrame s (s.modTeam k f) k :=
  ⟨rfl, fun _ hj => (SMap.find_modify _ _ _ _).trans (if_neg hj), fun _ _ => rfl⟩

theorem blockRun_frame (s : State) (k kind : Nat) : TerminalFrame s (s.blockRun k kind) k :=
  (modTeam_frame s k _).trans (attemptOver_frame _ k)

theorem attemptOver_pcyc (s : State) (k pt : Nat) : ((s.attemptOver k).part pt).pcyc = (s.part pt).pcyc := by
  have hset (p : Part) (hp : p.pcyc = (s.part (partOfTeam k)).pcyc) : ((s.setPart (partOfTeam k) p).part pt).pcyc = (s.part pt).pcyc := by
    rw [part_setPart]
    split
    · next h => rw [hp, h]
    · rfl
  unfold State.attemptOver
  dsimp only
  split
  · rfl
  · split
    · split <;> exact hset _ rfl
    · exact hset _ rfl

section Waits

variable {i : Instr} {s s1 : State} {k : Nat} {t t1 : Team} {r r1 : Run} {g : Guard} (h : s.HasRun k t r)
  (hb : s.BodyDone k t r false s1 t1 r1) (hg : t1.guardQ g = true) (busy : State → Team → Run → Prop) [∀ s t r, Decidable (busy s t r)]
  (kind : Nat) (hi : exec i s = teamTerminal s g false fun s k t r => if busy s t r then s.blockRun k kind else s.endRun k r.nextPc)
include h hb hg hi

/-- A terminal whose condition has not come waits. -/
theorem terminal_waits (hbusy : busy s1 t1 r1) : WaitsFrom i s s1 k t1 kind :=
  ⟨_, hi.trans ((teamTerminal_eq h g false _ hb hg).trans (congrArg _ (if_pos hbusy))), blockRun_team s1 k kind t1 hb.2.1, blockRun_frame s1 k kind⟩

/-- One whose condition has come goes on behind the trailer. -/
theorem terminal_goes (hfree : ¬ busy s1 t1 r1) : EndsFrom i s s1 k (t1.ended r1.nextPc (s1.readySince k t1)) :=
  endsFrom_endRun hb.2.1 (hi.trans ((teamTerminal_eq h g false _ hb hg).trans (congrArg _ (if_neg hfree))))

end Waits

/-! ### KWAIT (R201) -/

theorem tokensBusy_iff (g : Wg) (m : Nat) : g.tokensBusy m = true ↔ ∃ j < 8, m / 2 ^ j % 2 = 1 ∧ g.tokens.getD j 0 ≠ 0 := by
  simp [Wg.tokensBusy, natBit]

/-! ### REGCLAIM (R221) -/

theorem grantClaims_waits {s : State} {w : Nat} {c : Nat × Nat} {cs : List (Nat × Nat)} (hc : (s.wgOf w).claims = c :: cs)
    (hu : (s.wgOf w).account < c.2) (fuel : Nat) : s.grantClaims w fuel = s := by
  cases fuel with
  | zero => rfl
  | succ fuel =>
    unfold State.grantClaims
    simp only [hc]
    exact if_pos hu

theorem grantClaims_none {s : State} {w : Nat} (hc : (s.wgOf w).claims = []) (fuel : Nat) : s.grantClaims w fuel = s := by
  cases fuel with
  | zero => rfl
  | succ fuel =>
    unfold State.grantClaims
    simp only [hc]

/-- The claim of team `k` for `u` units, granted: its team goes on behind its REGCLAIM, and `cs` are left. -/
def State.granted (s : State) (w k u : Nat) (cs : List (Nat × Nat)) : State :=
  (s.setWg w { s.wgOf w with claims := cs, account := (s.wgOf w).account - u }).modTeam k fun t =>
    { t.nextRun (match t.run with | some r => r.nextPc | none => t.pc) s.tick with alloc := t.alloc + u * 8 / (t.nlanes / 8) }

theorem grantClaims_grants {s : State} {w k u : Nat} {cs : List (Nat × Nat)} (hc : (s.wgOf w).claims = (k, u) :: cs)
    (hu : u ≤ (s.wgOf w).account) (fuel : Nat) : s.grantClaims w (fuel + 1) = (s.granted w k u cs).grantClaims w fuel := by
  rw [State.grantClaims]
  simp only [hc]
  rw [if_neg (by omega)]
  rfl

theorem granted_wgOf (s : State) (w k u : Nat) (cs : List (Nat × Nat)) :
    (s.granted w k u cs).wgOf w = { s.wgOf w with claims := cs, account := (s.wgOf w).account - u } := wgOf_setWg s w _

theorem granted_team {s : State} {k : Nat} {t : Team} {r : Run} (ht : s.TeamIs k t) (hr : t.run = some r) (w u : Nat) (cs : List (Nat × Nat)) :
    (s.granted w k u cs).TeamIs k { t.ended r.nextPc s.tick with alloc := t.alloc + u * 8 / (t.nlanes / 8) } := by
  have hmod := modTeam_team (s.setWg w { s.wgOf w with claims := cs, account := (s.wgOf w).account - u }) k t
    (fun t => { t.nextRun (match t.run with | some r => r.nextPc | none => t.pc) s.tick with alloc := t.alloc + u * 8 / (t.nlanes / 8) }) ht
  simp only [hr] at hmod
  exact hmod

/-- The state in which a REGCLAIM stands in its workgroup's queue and its team waits. -/
def State.claimed (s : State) (k : Nat) (t : Team) (n : Nat) : State :=
  (s.setWg t.w { s.wgOf t.w with claims := (s.wgOf t.w).claims ++ [(k, poolUnits n t.nlanes)] }).blockRun k 12

theorem claimed_team {s : State} {k : Nat} {t : Team} (ht : s.TeamIs k t) (n : Nat) : (s.claimed k t n).TeamIs k { t with status := .waiting 12 } :=
  blockRun_team _ k 12 t ht

theorem claimed_wgOf (s : State) (k : Nat) (t : Team) (n : Nat) :
    (s.claimed k t n).wgOf t.w = { s.wgOf t.w with claims := (s.wgOf t.w).claims ++ [(k, poolUnits n t.nlanes)] } := by
  have hwgs : (s.claimed k t n).wgs = (s.setWg t.w { s.wgOf t.w with claims := (s.wgOf t.w).claims ++ [(k, poolUnits n t.nlanes)] }).wgs :=
    attemptOver_wgs _ _
  unfold State.wgOf at *
  rw [hwgs]
  exact wgOf_setWg s t.w _

/-- The units of a claim that the pool holds in groups of eight lanes are as many registers (R221). -/
theorem poolUnits_regs {n nlanes : Nat} (h : 8 ≤ nlanes) : poolUnits n nlanes * 8 / (nlanes / 8) = 8 * n := by
  rw [poolUnits, Nat.mul_right_comm, Nat.mul_div_cancel _ (by omega), Nat.mul_comm]

section Claim

variable {s s1 : State} {k : Nat} {t t1 : Team} {r r1 : Run} (h : s.HasRun k t r) (hb : s.BodyDone k t r false s1 t1 r1) {g : Guard}
  (hg : t1.guardQ g = true) (a : BitVec 6)
include h hb hg

theorem regclaim_eq : exec (.regclaim a g) s = .next (if 56 < t1.alloc + 8 * a.toNat then s1.illegalExec k t1 r1 4
    else (s1.claimed k t1 a.toNat).grantClaims t1.w ((s1.wgOf t1.w).claims.length + 1)) := by
  have hi : exec (.regclaim a g) s = execRegclaim a g s := rfl
  exact hi.trans (teamTerminal_eq h g false _ hb hg)

theorem regclaim_claims (hroom : t1.alloc + 8 * a.toNat ≤ 56) : exec (.regclaim a g) s =
    .next ((s1.claimed k t1 a.toNat).grantClaims t1.w ((s1.wgOf t1.w).claims.length + 1)) :=
  (regclaim_eq h hb hg a).trans (congrArg _ (if_neg (Nat.not_lt.mpr hroom)))

/-- A claim that the head of the queue holds back leaves its team waiting. -/
theorem regclaim_waits (hroom : t1.alloc + 8 * a.toNat ≤ 56) {c : Nat × Nat} {cs : List (Nat × Nat)}
    (hc : (s1.wgOf t1.w).claims ++ [(k, poolUnits a.toNat t1.nlanes)] = c :: cs) (hu : (s1.wgOf t1.w).account < c.2) :
    WaitsAs (.regclaim a g) s k t1 12 := by
  refine ⟨_, regclaim_claims h hb hg a hroom, ?_⟩
  rw [grantClaims_waits (c := c) (cs := cs)]
  · exact claimed_team hb.2.1 _
  · rw [claimed_wgOf]
    exact hc
  · rw [claimed_wgOf]
    exact hu

/-- A claim that stands alone is granted where the account holds its units. -/
theorem regclaim_granted (hroom : t1.alloc + 8 * a.toNat ≤ 56) (hlanes : 8 ≤ t1.nlanes) (hc : (s1.wgOf t1.w).claims = [])
    (hu : poolUnits a.toNat t1.nlanes ≤ (s1.wgOf t1.w).account) : Completes (.regclaim a g) s fun s' =>
      s'.TeamIs k ({ t1 with alloc := t1.alloc + 8 * a.toNat }.ended r1.nextPc s1.tick) ∧
      (s'.wgOf t1.w).account = (s1.wgOf t1.w).account - poolUnits a.toNat t1.nlanes ∧ (s'.wgOf t1.w).claims = [] := by
  obtain ⟨-, ht, hr⟩ := id hb
  have hwg := claimed_wgOf s1 k t1 a.toNat
  rw [hc] at hwg
  have hgrant := grantClaims_grants (s := s1.claimed k t1 a.toNat) (w := t1.w) (k := k) (u := poolUnits a.toNat t1.nlanes) (cs := [])
    (by rw [hwg]; rfl) (by rw [hwg]; exact hu) (s1.wgOf t1.w).claims.length
  have hdone := hgrant.trans (grantClaims_none (by rw [granted_wgOf]) _)
  refine ⟨_, (regclaim_claims h hb hg a hroom).trans (congrArg _ hdone), ?_, ?_, ?_⟩
  · have hteam := granted_team (claimed_team ht a.toNat) hr t1.w (poolUnits a.toNat t1.nlanes) []
    have htick : (s1.claimed k t1 a.toNat).tick = s1.tick := by rw [State.claimed, (blockRun_frame _ k 12).1]; rfl
    rw [poolUnits_regs hlanes, htick] at hteam
    have hpc := ended_restated t1 (.waiting 12) t1.alloc r1.nextPc s1.tick
    have hpc' := ended_restated t1 t1.status (t1.alloc + 8 * a.toNat) r1.nextPc s1.tick
    unfold Team.restated at hpc hpc'
    rw [hpc']
    exact (congrArg (fun u => State.TeamIs _ k { u with alloc := t1.alloc + 8 * a.toNat }) hpc).mp hteam
  · rw [granted_wgOf, hwg]
  · rw [granted_wgOf]

end Claim

/-! ### BACKOFF (R197) -/

theorem holds_setWidth (t : Team) (r : Run) (a : BitVec 6) : t.holds r ⟨a.setWidth 3, false⟩ =
    maskOf t.nlanes fun j => r.entry.getLsbD j && (a.setWidth 3 == (0 : BitVec 3) || t.pred (a.toNat % 8) j) := by
  have hnat : (a.setWidth 3).toNat = a.toNat % 8 := BitVec.toNat_setWidth 3 a
  unfold Team.holds Team.guardLane
  simp only [hnat, Bool.bne_false]
  rfl

section Backoff

variable {s s1 : State} {k : Nat} {t t1 : Team} {r r1 : Run} (h : s.HasRun k t r) (hb : s.BodyDone k t r false s1 t1 r1) {g : Guard}
  (hg : t1.guardQ g = true) (kq : BitVec 3) (a : BitVec 6)
include h hb hg

theorem backoff_done (hall : (t1.holds r1 ⟨a.setWidth 3, false⟩ == r1.entry) = true) :
    EndsFrom (.backoff kq a g) s s1 k ({ t1.putQ kq.toNat true with boff := 0 }.ended r1.nextPc (s1.readySince k t1)) := by
  have hi : exec (.backoff kq a g) s = execBackoff kq a g s := rfl
  have hexec := hi.trans (teamTerminal_eq h g false _ hb hg)
  simp only [hall, if_true] at hexec
  exact ⟨_, hexec, endRun_team _ k _ _ (setTeam_team s1 k _), (setTeam_frame s1 k _).trans (endRun_frame _ k _)⟩

/-- A level that is raised holds the team that many times 32 cycles of its partition. -/
theorem backoff_raised (hall : (t1.holds r1 ⟨a.setWidth 3, false⟩ == r1.entry) = false) :
    EndsFrom (.backoff kq a g) s s1 k
      { ({ t1.putQ kq.toNat false with boff := BitVec.ofNat 32 (min (t1.boff.toNat + 1) 31) }.ended r1.nextPc (s1.readySince k t1)) with
        status := .backoff, hold := ((s1.part (partOfTeam k)).pcyc + 32 * min (t1.boff.toNat + 1) 31) % 2 ^ 64 } := by
  have hi : exec (.backoff kq a g) s = execBackoff kq a g s := rfl
  have hexec := hi.trans (teamTerminal_eq h g false _ hb hg)
  simp only [hall, Bool.false_eq_true, if_false] at hexec
  refine ⟨_, hexec, ?_, ((setTeam_frame s1 k _).trans (endRun_frame _ k _)).trans (modTeam_frame _ k _)⟩
  have hteam := modTeam_team _ k _ (fun u => { u with
      status := .backoff, hold := ((s1.part (partOfTeam k)).pcyc + 32 * min (t1.boff.toNat + 1) 31) % 2 ^ 64 })
    (endRun_team _ k _ r1.nextPc (setTeam_team s1 k { t1.putQ kq.toNat false with boff := wordOf (min (t1.boff.toNat + 1) 31) }))
  have hpcyc (u : State) : ((u.endRun k r1.nextPc).part (partOfTeam k)).pcyc = (u.part (partOfTeam k)).pcyc := attemptOver_pcyc _ _ _
  rw [hpcyc]
  exact hteam

end Backoff

/-- Settles O33: BACKOFF by its two outcomes, REGCLAIM by its place in the queue (`grantClaims_grants`), and the three waits by their
conditions (`terminal_waits`, `terminal_goes`). -/
theorem waitTerminals : Obligations.WaitTerminals := by
  unfold Obligations.WaitTerminals
  intro s k t t1 r r1 s1 h hb kq a b g hg l x y wg now go lvl all
  have hall : (t1.holds r1 ⟨a.setWidth 3, false⟩ == r1.entry) = all := by rw [holds_setWidth]
  have hkwait : exec (.kwait a g) s = teamTerminal s g false fun s k t r =>
    if (s.wgOf t.w).tokensBusy (t.uget r a).toNat then s.blockRun k 7 else s.endRun k r.nextPc := rfl
  have hnwait : exec (.nwait a b g) s = teamTerminal s g false fun s k t r =>
    if s.chainSeq (s.wgOf t.w).ten ((t.uget r b).toNat % 4096) < (t.uget64 r a).toNat then s.blockRun k 9 else s.endRun k r.nextPc := rfl
  have hlwait : exec (.lwait a b g) s = .next (if (y = wg.q && decide (wg.pos ≤ (t1.get64 a.toNat l).toNat)) = true then s1.illegalWait k t1 r1 2
    else if s1.lqSeen y < (t1.get64 a.toNat l).toNat then s1.blockRun k 10 else s1.endRun k r1.nextPc) :=
    teamTerminal_eq h g false (fun s k t r =>
      let g := s.wgOf t.w
      if (t.uget r b).toNat = g.q && decide (g.pos ≤ (t.uget64 r a).toNat) then s.illegalWait k t r 2
      else if s.lqSeen (t.uget r b).toNat < (t.uget64 r a).toNat then s.blockRun k 10 else s.endRun k r.nextPc) hb hg
  have hown : (y = wg.q && decide (wg.pos ≤ (t1.get64 a.toNat l).toNat)) = true ↔ y = wg.q ∧ wg.pos ≤ (t1.get64 a.toNat l).toNat := by
    rw [Bool.and_eq_true, decide_eq_true_iff, decide_eq_true_iff]
  refine ⟨fun ha => backoff_done h hb hg kq a (hall.trans ha), fun ha => backoff_raised h hb hg kq a (hall.trans ha), fun hbig => ?_,
    fun hroom hlanes => ⟨fun hc hu => ?_, fun hc hu => ?_, fun c cs hc hu => ?_⟩, fun hbusy => ?_, fun hfree => ?_, fun hlt => ?_, fun hle => ?_,
    fun hq hpos => ?_, fun hother => ⟨fun hlt => ?_, fun hle => ?_⟩⟩
  · exact ⟨_, (regclaim_eq h hb hg a).trans (congrArg _ (if_pos hbig)), stopAt_team s1 k t1 r1 8 4⟩
  · exact regclaim_granted h hb hg a hroom hlanes hc hu
  · refine regclaim_waits h hb hg a hroom (c := (k, poolUnits a.toNat t1.nlanes)) (cs := []) ?_ hu
    rw [hc]
    rfl
  · refine regclaim_waits h hb hg a hroom (c := c) (cs := cs ++ [(k, poolUnits a.toNat t1.nlanes)]) ?_ hu
    rw [hc]
    rfl
  · exact terminal_waits h hb hg _ 7 hkwait ((tokensBusy_iff _ _).mpr hbusy)
  · refine terminal_goes h hb hg _ 7 hkwait fun hbusy => ?_
    obtain ⟨j, hj, hbit, htok⟩ := (tokensBusy_iff _ _).mp hbusy
    exact htok (hfree j hj hbit)
  · exact terminal_waits h hb hg _ 9 hnwait hlt
  · exact terminal_goes h hb hg _ 9 hnwait (Nat.not_lt.mpr hle)
  · exact ⟨_, hlwait.trans (congrArg _ (if_pos (hown.mpr ⟨hq, hpos⟩))), stopAt_team s1 k t1 r1 1 2⟩
  · rw [if_neg (fun ho => hother.elim (· (hown.mp ho).1) (Nat.not_le.mpr · (hown.mp ho).2)), if_pos hlt] at hlwait
    exact ⟨_, hlwait, blockRun_team s1 k 10 t1 hb.2.1, blockRun_frame s1 k 10⟩
  · rw [if_neg (fun ho => hother.elim (· (hown.mp ho).1) (Nat.not_le.mpr · (hown.mp ho).2)), if_neg (Nat.not_lt.mpr hle)] at hlwait
    exact endsFrom_endRun hb.2.1 hlwait

end Sys2Proof.Machine
end

section
/-! SUPPORT. What a barrier releases, and what a team that ends leaves behind (O32). -/

namespace Sys2Proof.Machine

/-! ### Tables with rising keys -/

theorem SMap.nodup_keys {α : Type} {m : SMap α} {o : Option Nat} (h : SMap.risingFrom o m = true) : (m.map Prod.fst).Nodup := by
  induction m generalizing o with
  | nil => exact List.nodup_nil
  | cons x m ih =>
    rw [SMap.risingFrom_cons, Bool.and_eq_true] at h
    refine List.nodup_cons.mpr ⟨fun hmem => ?_, ih h.2⟩
    obtain ⟨y, hy, hxy⟩ := List.mem_map.mp hmem
    have hlt : x.1 < y.1 := by simpa [SMap.below] using SMap.below_of_mem h.2 hy
    omega

theorem SMap.rising_modify {α : Type} {m : SMap α} (h : m.rising = true) (k : Nat) (f : α → α) : (m.modify k f).rising = true := by
  unfold SMap.modify
  split
  · exact SMap.risingFrom_insert m none k _ rfl h
  · exact h

/-! ### A run that ends does not depend on the status -/

theorem ended_status (t : Team) (st : TStatus) (pc : DWord) (now : Nat) : ({ t with status := st } : Team).ended pc now = t.ended pc now :=
  (ended_restated t st t.alloc pc now).trans (ended_restated t t.status t.alloc pc now).symm

/-! ### Draining keeps what is not memory (R45) -/

theorem side_tick {s s' : State} (h : MemorySide s s') : s'.tick = s.tick := by rw [h.1]

theorem putPlace_tick (s : State) (by' : Writer) (ten gpa : Nat) (p : Place) (bs : List Byte) (kt : Nat) :
    (s.putPlace by' ten gpa p bs kt).tick = s.tick := by
  unfold State.putPlace
  cases p with
  | sys a => exact side_tick (side_writeSys _ _ _ _ _ _ _)
  | scr w o => rfl
  | acc w o => rfl
  | peer n l o =>
    dsimp only
    unfold State.peerSent
    split <;> rfl

theorem commit_tick (s : State) (k : Nat) (st : Store) : (s.commit k st).tick = s.tick := by
  unfold State.commit
  dsimp only
  split <;> exact putPlace_tick _ _ _ _ _ _ _

theorem commit_wgOf (s : State) (k : Nat) (st : Store) (w : Nat) : (s.wgOf w).SameBut ((s.commit k st).wgOf w) := by
  unfold State.commit
  dsimp only
  split <;> exact putPlace_wgOf _ _ _ _ _ _ _ w

/-- What every commit keeps, a drain keeps that leaves the team in its place. -/
theorem drainAll_keeps {P : State → Prop} {s : State} {k : Nat} (hset : ∀ t, P (s.setTeam k t)) (hcommit : ∀ u st, P u → P (u.commit k st))
    (hs : P s) : P (s.drainAll k) := by
  unfold State.drainAll State.drain
  split
  · exact hs
  · exact foldl_keeps P _ (fun u st hu => hcommit u st hu) _ _ (hset _)

theorem drainAll_tick (s : State) (k : Nat) : (s.drainAll k).tick = s.tick :=
  drainAll_keeps (P := fun u => u.tick = s.tick) (fun _ => rfl) (fun u st hu => (commit_tick u k st).trans hu) rfl

theorem drainAll_wgOf (s : State) (k w : Nat) : (s.wgOf w).SameBut ((s.drainAll k).wgOf w) :=
  drainAll_keeps (P := fun u => (s.wgOf w).SameBut (u.wgOf w)) (fun _ => .refl _) (fun u st hu => hu.trans (commit_wgOf u k st w)) (.refl _)

/-! ### Releases (R194) -/

/-- A team that its terminal held, let go on behind it at a tick. -/
def Team.released (t : Team) (now : Nat) : Team := t.nextRun (match t.run with | some r => r.nextPc | none => t.pc) now

theorem released_eq {t : Team} {r : Run} (hr : t.run = some r) (now : Nat) : t.released now = t.ended r.nextPc now := by
  rw [Team.released, hr]
  rfl

theorem release_find (s : State) (k j : Nat) :
    (s.release k).teams.find? j = if j = k then (s.teams.find? k).map (Team.released · s.tick) else s.teams.find? j :=
  SMap.find_modify s.teams k j _

theorem releases_find_of_ne (l : SMap Team) (s : State) {j : Nat} (h : j ∉ l.map Prod.fst) :
    (l.foldl (fun s x => s.release x.1) s).teams.find? j = s.teams.find? j := by
  induction l generalizing s with
  | nil => rfl
  | cons x l ih =>
    rw [List.map_cons, List.mem_cons, not_or] at h
    obtain ⟨hx, hl⟩ := h
    exact (ih _ hl).trans ((release_find s x.1 j).trans (if_neg hx))

/-- Each of the teams that are listed is let go once. -/
theorem releases_find (l : SMap Team) (s : State) (hl : (l.map Prod.fst).Nodup) {j : Nat} (h : j ∈ l.map Prod.fst) :
    (l.foldl (fun s x => s.release x.1) s).teams.find? j = (s.teams.find? j).map (Team.released · s.tick) := by
  induction l generalizing s with
  | nil => cases h
  | cons x l ih =>
    obtain ⟨hx, hl⟩ := List.nodup_cons.mp hl
    rw [List.foldl_cons]
    by_cases hj : j = x.1
    · rw [releases_find_of_ne l _ (hj ▸ hx), release_find, if_pos hj, hj]
    · rw [ih _ hl ((List.mem_cons.mp h).resolve_left hj), release_find, if_neg hj]
      rfl

/-! ### A team that arrives at a barrier (R194) -/

section Barrier

variable {s : State} {k : Nat} {t : Team} {r : Run} (p : Nat → Bool) (kind : Nat) (hrise : s.teams.rising = true) (ht : s.TeamIs k t)
  (hr : t.run = some r) (hp : p t.w = true)

/-- The teams of a barrier as team `k` arrives. -/
def State.arrived (s : State) (k kind : Nat) (p : Nat → Bool) : SMap Team := (s.blockRun k kind).teams.filter fun x => p x.2.w

theorem blockRun_find (s : State) (k kind j : Nat) : (s.blockRun k kind).teams.find? j =
    if j = k then (s.teams.find? k).map (fun t => { t with status := .waiting kind }) else s.teams.find? j := by
  unfold State.blockRun
  rw [attemptOver_teams]
  exact SMap.find_modify s.teams k j _

include hrise in
theorem blockRun_rising : (s.blockRun k kind).teams.rising = true := by
  unfold State.blockRun
  rw [attemptOver_teams]
  exact SMap.rising_modify hrise k _

include hrise ht in
theorem mem_arrived {x : Nat × Team} : x ∈ s.arrived k kind p ↔
    p x.2.w = true ∧ if x.1 = k then x.2 = { t with status := .waiting kind } else x ∈ s.teams := by
  obtain ⟨j, u⟩ := x
  have hfind : (j, u) ∈ (s.blockRun k kind).teams ↔ (s.blockRun k kind).teams.find? j = some u :=
    ⟨SMap.find_of_mem (blockRun_rising kind hrise), SMap.mem_of_find _⟩
  unfold State.TeamIs at ht
  rw [State.arrived, List.mem_filter, hfind, blockRun_find, ht, and_comm]
  refine and_congr_right fun _ => ?_
  dsimp only
  split
  · exact ⟨fun h => (Option.some.inj h).symm, fun h => congrArg some h.symm⟩
  · exact ⟨SMap.mem_of_find _, SMap.find_of_mem hrise⟩

include hrise ht in
/-- Where another team has not arrived, the team waits. -/
theorem barrier_waits (hmiss : ∃ x ∈ s.teams, x.1 ≠ k ∧ p x.2.w = true ∧ x.2.status ≠ .waiting kind) :
    ((s.blockRun k kind).barrier (s.arrived k kind p) kind).TeamIs k { t with status := .waiting kind } := by
  obtain ⟨x, hx, hne, hw, hst⟩ := hmiss
  have hmem : x ∈ s.arrived k kind p := (mem_arrived p kind hrise ht).mpr ⟨hw, by rw [if_neg hne]; exact hx⟩
  have hall : ((s.arrived k kind p).all fun x => x.2.status == .waiting kind) = false :=
    List.all_eq_false.mpr ⟨x, hmem, by simpa using hst⟩
  unfold State.barrier
  rw [hall, Bool.and_false, if_neg Bool.false_ne_true]
  exact blockRun_team s k kind t ht

include hrise ht hp in
/-- The last that arrives releases them all. -/
theorem barrier_releases (hall : ∀ x ∈ s.teams, x.1 ≠ k → p x.2.w = true → x.2.status = .waiting kind) :
    (s.blockRun k kind).barrier (s.arrived k kind p) kind = (s.arrived k kind p).foldl (fun s x => s.release x.1) (s.blockRun k kind) := by
  have hself : (k, { t with status := .waiting kind }) ∈ s.arrived k kind p := (mem_arrived p kind hrise ht).mpr ⟨hp, by rw [if_pos rfl]⟩
  have hstat : ((s.arrived k kind p).all fun x => x.2.status == .waiting kind) = true := by
    refine List.all_eq_true.mpr fun x hx => beq_iff_eq.mpr ?_
    obtain ⟨hw, hx⟩ := (mem_arrived p kind hrise ht).mp hx
    split at hx
    · rw [hx]
    · next hne => exact hall x hx hne hw
  have hsome : (s.arrived k kind p).isEmpty = false := by
    rw [List.isEmpty_eq_false_iff]
    exact List.ne_nil_of_mem hself
  unfold State.barrier
  rw [hsome, hstat]
  rfl

include hrise ht hr hp in
/-- Each of the teams goes on behind its terminal. -/
theorem barrier_released (hall : ∀ x ∈ s.teams, x.1 ≠ k → p x.2.w = true → x.2.status = .waiting kind) :
    ((s.blockRun k kind).barrier (s.arrived k kind p) kind).TeamIs k (t.ended r.nextPc s.tick) ∧
      ∀ j t' r', s.TeamIs j t' → j ≠ k → p t'.w = true → t'.run = some r' →
        ((s.blockRun k kind).barrier (s.arrived k kind p) kind).TeamIs j (t'.ended r'.nextPc s.tick) := by
  rw [barrier_releases p kind hrise ht hp hall]
  have htick : (s.blockRun k kind).tick = s.tick := by rw [(blockRun_frame s k kind).1]
  have hkeys : ((s.arrived k kind p).map Prod.fst).Nodup := SMap.nodup_keys (SMap.risingFrom_filter _ none _ (blockRun_rising kind hrise))
  unfold State.TeamIs at *
  refine ⟨?_, fun j t' r' ht' hj hw hr' => ?_⟩
  · have hmem : (k, { t with status := .waiting kind }) ∈ s.arrived k kind p := (mem_arrived p kind hrise ht).mpr ⟨hp, by rw [if_pos rfl]⟩
    rw [releases_find _ _ hkeys (List.mem_map_of_mem hmem), blockRun_find, if_pos rfl, ht, htick]
    exact congrArg some ((released_eq (t := { t with status := .waiting kind }) hr s.tick).trans (ended_status t _ r.nextPc s.tick))
  · have hmem : (j, t') ∈ s.arrived k kind p := (mem_arrived p kind hrise ht).mpr ⟨hw, by rw [if_neg hj]; exact SMap.mem_of_find _ ht'⟩
    rw [releases_find _ _ hkeys (List.mem_map_of_mem hmem), blockRun_find, if_neg hj, ht', htick]
    exact congrArg some (released_eq hr' s.tick)

end Barrier

theorem barWg_arrived (s : State) (k w : Nat) :
    (s.blockRun k 4).barWg w = (s.blockRun k 4).barrier (s.arrived k 4 (· == w)) 4 := rfl

theorem reelOf_congr {s s' : State} (h : s'.wgs = s.wgs) (w : Nat) : s'.reelOf w = s.reelOf w := by
  unfold State.reelOf State.wgOf
  rw [h]

theorem barReel_arrived (s : State) (k w : Nat) :
    (s.blockRun k 5).barReel w = (s.blockRun k 5).barrier (s.arrived k 5 fun w' => (s.reelOf w).contains w') 5 := by
  have hreel : (s.blockRun k 5).reelOf w = s.reelOf w := reelOf_congr (attemptOver_wgs _ _) w
  unfold State.barReel
  rw [hreel]
  rfl

/-- A workgroup is of its own reel. -/
theorem mem_reelOf_self {s : State} {w : Nat} (h : (s.wgs.find? w).isSome) : w ∈ s.reelOf w := by
  obtain ⟨g, hg⟩ := Option.isSome_iff_exists.mp h
  have hwg : s.wgOf w = g := by rw [State.wgOf, SMap.getD, hg]; rfl
  refine List.mem_map.mpr ⟨(w, g), List.mem_filter.mpr ⟨SMap.mem_of_find _ hg, ?_⟩, rfl⟩
  simp [hwg]

/-! ### A team that ends (R220) -/

theorem grantClaims_keeps {P : State → Prop} {w : Nat} (hmod : ∀ u j f, P u → P (u.modTeam j f))
    (hwg : ∀ (u : State) cs a, P u → P (u.setWg w { u.wgOf w with claims := cs, account := a })) {s : State} (hs : P s) (fuel : Nat) :
    P (s.grantClaims w fuel) := by
  induction fuel generalizing s with
  | zero => exact hs
  | succ fuel ih =>
    unfold State.grantClaims
    dsimp only
    split
    · exact hs
    · split
      · exact hs
      · exact ih (hmod _ _ _ (hwg _ _ _ hs))

theorem barrier_keeps {P : State → Prop} (hmod : ∀ u j f, P u → P (u.modTeam j f)) {s : State} (hs : P s) (ts : SMap Team) (kind : Nat) :
    P (s.barrier ts kind) := by
  unfold State.barrier
  split
  · exact foldl_keeps P _ (fun u x hu => hmod u x.1 _ hu) _ _ hs
  · exact hs

theorem modTeam_absent {s : State} {k : Nat} (h : s.teams.find? k = none) (j : Nat) (f : Team → Team) : (s.modTeam j f).teams.find? k = none := by
  rw [State.modTeam_teams, SMap.find_modify]
  split
  · next hk => rw [← hk, h]; rfl
  · exact h

theorem attemptOver_issuing (s : State) (k : Nat) : ((s.attemptOver k).part (partOfTeam k)).issuing ≠ some k := by
  unfold State.attemptOver
  dsimp only
  split
  · next h => simpa using h
  · split
    · rw [part_setPart, if_pos rfl]
      split <;> exact nofun
    · rw [part_setPart, if_pos rfl]
      exact nofun

/-- A table whose default an update keeps reads, at the key updated, as the update of what it read. -/
theorem SMap.getD_modify_self {α : Type} (m : SMap α) (k : Nat) (f : α → α) (d : α) (hd : f d = d) : (m.modify k f).getD k d = f (m.getD k d) := by
  unfold SMap.getD
  rw [SMap.find_modify, if_pos rfl]
  cases m.find? k with
  | none => exact hd.symm
  | some v => rfl

/-- The machine as a team has left it, its registers not yet credited. -/
def State.vacated (s : State) (k : Nat) (t : Team) : State :=
  let s := (s.drainAll k).attemptOver k
  { s with
    teams := s.teams.erase k
    wgs := s.wgs.modify t.w fun g => { g with teamsLeft := g.teamsLeft - 1 }
    biWait := s.biWait.map fun (b : BiW) => if b.by'.team = some k then { b with by' := { b.by' with team := none } } else b }

theorem endTeam_eq (s : State) (k : Nat) (t : Team) :
    s.endTeam k t = (((s.vacated k t).credit t.w (poolUnits (t.alloc / 8) t.nlanes)).barWg t.w).barReel t.w := rfl

/-- Of its workgroup one team fewer is left; its account and its claims stay. -/
theorem vacated_wgOf (s : State) (k : Nat) (t : Team) : ((s.vacated k t).wgOf t.w).teamsLeft = (s.wgOf t.w).teamsLeft - 1 ∧
    ((s.vacated k t).wgOf t.w).account = (s.wgOf t.w).account ∧ ((s.vacated k t).wgOf t.w).claims = (s.wgOf t.w).claims := by
  have hmod : (s.vacated k t).wgOf t.w =
      { ((s.drainAll k).attemptOver k).wgOf t.w with teamsLeft := (((s.drainAll k).attemptOver k).wgOf t.w).teamsLeft - 1 } :=
    SMap.getD_modify_self _ _ _ _ rfl
  have hover : ((s.drainAll k).attemptOver k).wgOf t.w = (s.drainAll k).wgOf t.w := by rw [State.wgOf, State.wgOf, attemptOver_wgs]
  have hdrain := drainAll_wgOf s k t.w
  unfold Wg.SameBut at hdrain
  rw [hmod, hover, hdrain]
  exact ⟨rfl, rfl, rfl⟩

/-- What is left of a team that is gone: no slot holds it, its partition issues another, and of its workgroup so many teams are left. -/
def State.Without (s : State) (k w n : Nat) : Prop :=
  s.teams.find? k = none ∧ (s.part (partOfTeam k)).issuing ≠ some k ∧ (s.wgOf w).teamsLeft = n

theorem without_modTeam {s : State} {k w n : Nat} (h : s.Without k w n) (j : Nat) (f : Team → Team) : (s.modTeam j f).Without k w n := by
  obtain ⟨hteam, hpart, hleft⟩ := h
  exact ⟨modTeam_absent hteam j f, hpart, hleft⟩

theorem vacated_without (s : State) (k : Nat) (t : Team) : (s.vacated k t).Without k t.w ((s.wgOf t.w).teamsLeft - 1) :=
  ⟨(SMap.find_erase _ k k).trans (if_pos rfl), attemptOver_issuing _ k, (vacated_wgOf s k t).1⟩

theorem credit_without {s : State} {k w n : Nat} (h : s.Without k w n) (u : Nat) : (s.credit w u).Without k w n := by
  have hset (v : State) (cs : List (Nat × Nat)) (a : Nat) (hv : v.Without k w n) :
      (v.setWg w { v.wgOf w with claims := cs, account := a }).Without k w n := by
    obtain ⟨hteam, hpart, hleft⟩ := hv
    exact ⟨hteam, hpart, by rw [wgOf_setWg]; exact hleft⟩
  exact grantClaims_keeps (P := (State.Without · k w n)) (fun _ j f hu => without_modTeam hu j f) hset (hset s (s.wgOf w).claims _ h) _

theorem credit_account {s : State} {w : Nat} (h : (s.wgOf w).claims = []) (u : Nat) : ((s.credit w u).wgOf w).account = (s.wgOf w).account + u := by
  unfold State.credit
  dsimp only
  rw [grantClaims_none (by rw [wgOf_setWg]; exact h), wgOf_setWg]

theorem barriers_wgs (s : State) (w : Nat) : ((s.barWg w).barReel w).wgs = s.wgs := by
  have hkeep (s' : State) (hs : s'.wgs = s.wgs) (ts : SMap Team) (kind : Nat) : (s'.barrier ts kind).wgs = s.wgs :=
    barrier_keeps (P := fun u => u.wgs = s.wgs) (fun u j f hu => hu) hs ts kind
  exact hkeep _ (hkeep s rfl _ _) _ _

theorem barriers_without {s : State} {k w n : Nat} (h : s.Without k w n) : ((s.barWg w).barReel w).Without k w n :=
  barrier_keeps (P := (State.Without · k w n)) (fun _ j f hu => without_modTeam hu j f)
    (barrier_keeps (P := (State.Without · k w n)) (fun _ j f hu => without_modTeam hu j f) h _ _) _ _

/-- Settles O32: a team that arrives waits (`barrier_waits`) or releases all (`barrier_released`); one that ends leaves its slot, its
partition and its registers (`barriers_without`, `credit_account`). -/
theorem barriersAndExit : Obligations.BarriersAndExit := by
  unfold Obligations.BarriersAndExit
  intro s k t t1 t2 r r1 s1 h hb g hg s2
  obtain ⟨-, ht1, hr1⟩ := id hb
  have hwg : exec (.barWg g) s = .next ((s2.blockRun k 4).barWg t1.w) :=
    teamTerminal_eq h g false (fun s k t _ => ((s.drainAll k).blockRun k 4).barWg t.w) hb hg
  have hreel : exec (.barReel g) s = .next ((s2.blockRun k 5).barReel t1.w) :=
    teamTerminal_eq h g false (fun s k t _ => ((s.drainAll k).blockRun k 5).barReel t.w) hb hg
  have hexit : exec (.exit g) s = .next (if (!t1.mstack.isEmpty) = true then s1.maskFault k t1 r1 3
    else if t1.held.isEmpty = true then s1.endTeam k t1 else s1.blockRun k 13) :=
    teamTerminal_eq h g false (fun s k t r => if !t.mstack.isEmpty then s.maskFault k t r 3 else if t.held.isEmpty then s.endTeam k t else s.blockRun k 13)
      hb hg
  refine ⟨fun ht hr hrise hthere => ?_, fun hdepth => ?_, fun hdepth hheld => ?_, fun hdepth hheld => ?_⟩
  · obtain ⟨out, hteam⟩ := drainAll_team s1 k t1 ht1
    have ht2 : t2 = { t1 with sbuf := [], peerOut := out } := Option.some.inj (ht.symm.trans hteam)
    have hw : t1.w = t2.w := by rw [ht2]
    have htick : s2.tick = s1.tick := drainAll_tick s1 k
    rw [hw, barWg_arrived] at hwg
    rw [hw, barReel_arrived] at hreel
    have hin : ((s2.reelOf t2.w).contains t2.w) = true := List.contains_iff_mem.mpr (mem_reelOf_self hthere)
    refine ⟨by rw [ht2], fun hmiss => ?_, fun hall => ?_, fun hmiss => ?_, fun hall => ?_⟩
    · obtain ⟨x, hx, hne, hxw, hst⟩ := hmiss
      exact ⟨_, hwg, barrier_waits _ 4 hrise ht ⟨x, hx, hne, beq_iff_eq.mpr hxw, hst⟩⟩
    · obtain ⟨hself, hother⟩ := barrier_released (· == t2.w) 4 hrise ht hr (beq_self_eq_true _) fun x hx hne hxw => hall x hx hne (beq_iff_eq.mp hxw)
      rw [htick] at hself hother
      exact ⟨_, hwg, hself, fun j t' r' ht' hj hjw hr' => hother j t' r' ht' hj (beq_iff_eq.mpr hjw) hr'⟩
    · obtain ⟨x, hx, hne, hxw, hst⟩ := hmiss
      exact ⟨_, hreel, barrier_waits _ 5 hrise ht ⟨x, hx, hne, List.contains_iff_mem.mpr hxw, hst⟩⟩
    · obtain ⟨hself, hother⟩ := barrier_released (fun w => (s2.reelOf t2.w).contains w) 5 hrise ht hr hin fun x hx hne hxw =>
        hall x hx hne (List.contains_iff_mem.mp hxw)
      rw [htick] at hself hother
      exact ⟨_, hreel, hself, fun j t' r' ht' hj hjw hr' => hother j t' r' ht' hj (List.contains_iff_mem.mpr hjw) hr'⟩
  · rw [if_pos (by simpa using hdepth)] at hexit
    exact ⟨_, hexit, stopAt_team s1 k t1 r1 4 3⟩
  · rw [if_neg (by simp [hdepth]), if_neg (by simpa using hheld)] at hexit
    exact ⟨_, hexit, blockRun_team s1 k 13 t1 ht1⟩
  · rw [if_neg (by simp [hdepth]), if_pos (by simp [hheld]), endTeam_eq] at hexit
    obtain ⟨hteam, hpart, hleft⟩ := barriers_without (credit_without (vacated_without s1 k t1) (poolUnits (t1.alloc / 8) t1.nlanes))
    refine ⟨_, hexit, hteam, hpart, hleft, fun hc => ?_⟩
    obtain ⟨-, hacc, hclaims⟩ := vacated_wgOf s1 k t1
    rw [State.wgOf, barriers_wgs]
    exact (credit_account (hclaims.trans hc) _).trans (by rw [hacc]; rfl)

end Sys2Proof.Machine
end

section
/-! SUPPORT. A chain whose published count stands at the top of its register (O28). -/

namespace Sys2Proof.Machine

/-- A run at its first attempt, of no word. -/
def chainRun : Run := placedTeam.newRun [] 0xFFFFE000 []

/-- A team of one lane in that run, whose v1 holds 1, and every other register 0. -/
def chainTeam : Team := { placedTeam with nlanes := 1, v := [(1, [1])], run := some chainRun }

/-- Chain 0 runs for the team's workgroup, and has published and completed 2^64 - 1 positions, the most that its registers count. -/
def State.fullChain : State :=
  { State.reset with
    mgmt := [(oNccfg 0, 0x100), (oNcpub 0, BitVec.allOnes 64), (oNcseq 0, BitVec.allOnes 64)]
    teams := [(0, chainTeam)] }

theorem fullChain_hasRun : State.fullChain.HasRun 0 chainTeam chainRun := ⟨rfl, rfl, rfl⟩

/-- The operands of an NTAIL that names v0 and v1: chain 0 and one position. -/
theorem chainTeam_operands :
    (chainTeam.get (0 : BitVec 6).toNat (chainRun.todo.leader chainTeam.nlanes)).toNat % 4096 = 0 ∧
    (chainTeam.get (1 : BitVec 6).toNat (chainRun.todo.leader chainTeam.nlanes)).toNat % 512 = 1 := by
  decide +kernel

/-- The team may publish: the chain is its workgroup's, and none of its positions is incomplete (R332). -/
theorem fullChain_may : let s0 := State.fullChain.uniIssue 0 chainTeam
    s0.ncTenant 0 = (s0.wgOf 0).ten ∧ s0.ncAsid 0 = (s0.wgOf 0).asid ∧ s0.ncRun 0 = true ∧ s0.reg (oNcpub 0) + 1 ≤ 4096 + s0.ncSeq 0 ∧
      s0.reg (oNcpub 0) + 1 = 2 ^ 64 := by decide +kernel

/-- What O28 claims of an NTAIL that may publish. -/
theorem ntail_claim (h : Obligations.OnceEffects) {s : State} {k : Nat} {t : Team} {r : Run} (hrun : s.HasRun k t r) (a b : BitVec 6)
    (hfirst : r.first = true) (hheld : t.held = []) {ch n : Nat} (hch : (t.get a.toNat (r.todo.leader t.nlanes)).toNat % 4096 = ch)
    (hn : (t.get b.toNat (r.todo.leader t.nlanes)).toNat % 512 = n) :
    let s0 := s.uniIssue k t
    let wg := s0.wgOf t.w
    s0.ncTenant ch = wg.ten ∧ s0.ncAsid ch = wg.asid ∧ s0.ncRun ch = true ∧ 0 < n ∧ n ≤ 256 ∧ s0.reg (oNcpub ch) + n ≤ 4096 + s0.ncSeq ch →
      ∃ s' : State, s'.reg (oNcpub ch) = s0.reg (oNcpub ch) + n := by
  intro s0 wg hmay
  subst hch hn
  obtain ⟨-, -, -, -, -, -, -, -, -, -, -, -, -, -, -, -, -, hacts⟩ := h s k t r hrun 0 a b Guard.always rfl hfirst
  obtain ⟨-, -, -, -, -, -, -, -, -, -, -, -, -, -, -, hntail, -⟩ := hacts hheld
  obtain ⟨s', -, -, hpub, -⟩ := hntail hmay
  exact ⟨s', hpub⟩

/-- Refutes O28: of NTAIL it claims that NCPUB then holds the sum of the old count and the positions published, but in `State.fullChain`
the sum is 2^64, which the 64-bit register cannot hold. -/
theorem not_onceEffects : ¬ Obligations.OnceEffects := by
  intro h
  obtain ⟨hch, hn⟩ := chainTeam_operands
  obtain ⟨hten, hasid, hrun, hroom, htop⟩ := fullChain_may
  obtain ⟨s', hpub⟩ := ntail_claim h fullChain_hasRun 0 1 rfl rfl hch hn ⟨hten, hasid, hrun, by decide, by decide, hroom⟩
  have hlt : s'.reg (oNcpub 0) < 2 ^ 64 := BitVec.isLt _
  exact absurd (hpub.trans htop) (Nat.ne_of_lt hlt)

end Sys2Proof.Machine
end

section
/-! SUPPORT. A per-lane terminal in a lane alone, at the end of a plain run (O22, O23). -/

namespace Sys2Proof.Machine

/-! ### What the end of a plain run passes through (R79, R80) -/

theorem TerminalFrame.refl (s : State) (k : Nat) : TerminalFrame s s k := ⟨rfl, fun _ _ => rfl, fun _ _ => rfl⟩

/-- The team in a run. -/
def Team.inRun (t : Team) (r : Run) : Team := { t with run := some r }

@[simp] theorem inRun_run (t : Team) (r : Run) : (t.inRun r).run = some r := rfl

theorem modRun_team {s : State} {k : Nat} {t : Team} {r : Run} (ht : s.TeamIs k t) (hr : t.run = some r) (f : Run → Run) :
    (s.modRun k f).TeamIs k (t.inRun (f r)) := by
  have hmod := modTeam_team s k t (fun t => { t with run := t.run.map f }) ht
  simp only [hr, Option.map_some] at hmod
  exact hmod

theorem teamAt_of_team {s : State} {k : Nat} {t : Team} (ht : s.TeamIs k t) (u : Team) : s.teamAt k u = t := by
  unfold State.teamAt
  rw [ht]
  rfl

/-- The only lane that acts is the only lane of the acting mask. -/
theorem acting_lanes {t : Team} {r : Run} {l : Nat} (ho : OnlyLane t r Guard.always l) : r.acting.lanes t.nlanes = [l] := by
  rw [← onlyLane_filter ho]
  exact List.filter_congr fun j _ => (Bool.and_true _).symm

theorem acting_ne_zero {t : Team} {r : Run} {l : Nat} (ho : OnlyLane t r Guard.always l) : (r.acting == 0) = false := by
  refine beq_eq_false_iff_ne.mpr fun h => ?_
  have hmem : l ∈ r.acting.lanes t.nlanes := by rw [acting_lanes ho]; exact List.mem_singleton_self l
  rw [h] at hmem
  have hbit : (0 : Mask).getLsbD l = true := (List.mem_filter.mp hmem).2
  exact absurd (hbit.symm.trans BitVec.getLsbD_zero) (by decide)

theorem maskOf_none (n : Nat) : maskOf n (fun _ => false) = 0 := by
  unfold maskOf
  simp

/-- The run with the terminals of its acting lanes left to perform. -/
def Run.ending (r : Run) : Run := { r with termLeft := some r.acting }

@[simp] theorem ending_termLeft (r : Run) : r.ending.termLeft = some r.acting := rfl

/-- The run with the terminal of a lane performed. -/
def Run.termDone (l : Nat) (r : Run) : Run := { r with termLeft := r.termLeft.map fun m => m &&& ~~~(laneMask l) }

theorem run_without_stores {r : Run} (hstores : r.stores = []) (hsdb : r.sdb = []) : { r with stores := [], sdb := [] } = r := by
  obtain ⟨⟩ := r
  cases hstores
  cases hsdb
  rfl

/-- The stores of a plain run's end are none; its acting lanes' terminals stand to be performed. -/
theorem storesEnd_plain {r : Run} (hp : r.Plain) (s : State) (k : Nat) (t : Team) :
    s.storesEnd k t r = s.setTeam k (t.inRun r.ending) := by
  obtain ⟨-, hterm, habort, hstores, hsdb, hlate, -⟩ := hp
  have hleft : r.left = 0 := by rw [Run.left, habort]; exact BitVec.and_zero
  have hnone : r.completing t.nlanes = [] := by simp [Run.completing, hstores, hsdb]
  have hkept : (maskOf t.nlanes fun l => ([] : List Store).any fun st => st.lane == l) = 0 := maskOf_none _
  have hdue : r.acting ||| r.late = r.acting := by rw [hlate]; exact BitVec.or_zero
  have hwait : r.acting &&& 0 = r.late := by rw [hlate]; exact BitVec.and_zero
  have hall : r.acting &&& ~~~(0 : Mask) = r.acting := by
    rw [show ~~~(0 : Mask) = BitVec.allOnes 1024 from BitVec.not_zero]
    exact BitVec.and_allOnes
  unfold State.storesEnd
  rw [hterm]
  dsimp only
  rw [split_complete hleft, hnone, hkept, hdue, hwait, hall]
  exact congrArg (fun r' : Run => s.setTeam k (t.inRun { r' with termLeft := some r.acting })) (run_without_stores hstores hsdb)

/-- The state in which the terminal of the only lane is performed. -/
def State.atTerminal (s : State) (k : Nat) (t : Team) (r : Run) : State :=
  { s.setTeam k (t.inRun r.ending) with free := s.free + 1024 }

theorem termsEnd_one {s : State} {l : Nat} {t : Team} {left : Mask} (hl : left.lanes t.nlanes = [l]) {term : State → Nat → State × Bool} {B : State}
    (hterm : term { s with free := s.free + 1024 } l = (B, false)) (k : Nat) :
    s.termsEnd k t left term = (B.modRun k (Run.termDone l), false) := by
  unfold State.termsEnd State.freeOrder
  rw [hl]
  simp only [List.foldr_cons, List.foldr_nil, insertByKey, List.foldl_cons, List.foldl_nil, Bool.false_eq_true, if_false, hterm]
  rfl

theorem flagsEnd_frame (s : State) (k : Nat) (pc : DWord) (en : Word) : TerminalFrame s (s.flagsEnd k pc 0 en) k := by
  unfold State.flagsEnd
  split
  · exact .refl s k
  · unfold State.ashLog
    dsimp only
    have hzero : ((0 : Word) &&& en == 0) = true := beq_iff_eq.mpr BitVec.zero_and
    rw [if_pos hzero]
    exact setTeam_frame s k _

/-- A run that has raised no flag completes: beyond its team nothing changes. -/
theorem completeRun_frame {s : State} {k : Nat} {t : Team} {r : Run} (ht : s.TeamIs k t) (hr : t.run = some r) (hflags : r.flags = 0) :
    TerminalFrame s (s.completeRun k false) k := by
  unfold State.TeamIs at ht
  unfold State.completeRun
  simp only [ht, hr, Bool.false_eq_true, if_false, hflags]
  exact (setTeam_frame s k _).trans (flagsEnd_frame _ k _ _)

theorem completeRun_plain {s : State} {k : Nat} {t : Team} {r : Run} (ht : s.TeamIs k t) (hr : t.run = some r) :
    ∃ t', (s.completeRun k false).TeamIs k t' ∧ t'.v = t.v ∧ t'.pend = t.pend ∧
      t'.run = some { r with bodyDone := true, todo := r.entry, uwrs := [] } := by
  obtain ⟨u, hu, -, hteam⟩ := completeRun_team ht hr
  unfold ControlsOnly at hu
  refine ⟨_, hteam, ?_, ?_, rfl⟩
  · rw [hu]
    rfl
  · rw [hu]
    rfl

/-! ### The whole end of a plain run -/

/-- The run as the terminal of its only lane leaves it: beyond what the terminal notes, it raises no flag and names no effect. -/
def Run.Quiet (r : Run) : Prop := r.aborted = 0 ∧ r.done = [] ∧ r.flags = 0 ∧ r.laneFlags = []

theorem gathered_flags {r : Run} (hflags : r.flags = 0) (hlanes : r.laneFlags = []) (n : Nat) : (r.gathered n).flags = 0 := by
  unfold Run.gathered
  rw [hflags, hlanes]
  exact foldl_keeps (· = (0 : Word)) _ (fun f l hf => by rw [hf]; exact BitVec.or_zero) _ _ rfl

section PlainEnd

variable {s B : State} {k l : Nat} {t tB : Team} {r rB : Run} {term : State → Nat → State × Bool} (ho : OnlyLane t r Guard.always l)
  (hp : r.Plain) (hterm : term (s.atTerminal k t r) l = (B, false)) (hteam : B.TeamIs k tB) (hrun : tB.run = some rB) (hquiet : rB.Quiet)
include ho hp hterm hteam hrun hquiet

/-- The body of a plain run ends where its terminal need not wait. -/
theorem bodyEnd_plain : ∃ C tC, s.bodyEnd k t r false term noAtt = (C, true) ∧ TerminalFrame B C k ∧ C.TeamIs k tC ∧ tC.v = tB.v ∧
    tC.pend = tB.pend ∧ ∃ rC, tC.run = some rC ∧ rC.pc = rB.pc ∧ rC.words = rB.words ∧ rC.trailer = rB.trailer := by
  have hbody : r.bodyDone = false := hp.1
  obtain ⟨habort, hdone, hflags, hlanes⟩ := hquiet
  have hacting : (r.acting == 0) = false := acting_ne_zero ho
  have hends := termsEnd_one (s := s.setTeam k (t.inRun r.ending)) (acting_lanes ho) hterm k
  have hmod := modRun_team hteam hrun (Run.termDone l)
  have hleft : (((rB.termDone l).gathered tB.nlanes).left == 0) = true := by
    have haborted : ((rB.termDone l).gathered tB.nlanes).aborted = 0 := habort
    rw [Run.left, haborted]
    exact beq_iff_eq.mpr BitVec.and_zero
  let v := (B.modRun k (Run.termDone l)).setTeam k (tB.inRun ((rB.termDone l).gathered tB.nlanes))
  have hbodyEnd : s.bodyEnd k t r false term noAtt =
      (v.completeRun k false).doneEffects k (((rB.termDone l).gathered tB.nlanes).done.length + 1) := by
    unfold State.bodyEnd
    simp only [hbody, storesEnd_plain hp, teamAt_of_team (setTeam_team _ _ _), inRun_run, ending_termLeft, hends, teamAt_of_team hmod, hacting,
      noAtt, Option.getD_some, Bool.false_eq_true, if_false, Bool.false_and]
    exact if_pos hleft
  have hv : v.TeamIs k (tB.inRun ((rB.termDone l).gathered tB.nlanes)) := setTeam_team _ _ _
  have hframe := completeRun_frame hv rfl (gathered_flags (r := rB.termDone l) hflags hlanes tB.nlanes)
  obtain ⟨tC, hC, hCv, hCpend, hCrun⟩ := completeRun_plain hv rfl
  refine ⟨v.completeRun k false, tC, hbodyEnd.trans ?_, ((modTeam_frame B k _).trans (setTeam_frame _ k _)).trans hframe, hC, hCv, hCpend, _,
    hCrun, rfl, rfl, rfl⟩
  exact doneEffects_none (P := fun _ => True) ⟨tC, _, hC, hCrun, hdone, fun _ _ => trivial⟩ _

end PlainEnd

/-! ### A per-lane terminal (R79) -/

section LaneTerminal

variable {s s1 B : State} {k l : Nat} {t tB : Team} {r rB : Run} {m : SMap TermAcc} {chk : State → Nat → Team → Run → Nat → State × Team × Run}
  {perf : State → Nat → Nat → State × Bool} (h : s.HasRun k t r) (ho : OnlyLane t r Guard.always l) (hp : r.Plain)
  (hchk : chk (s.laneIssue k t r Guard.always) k t r l = (s1, t, { r with reached := m }))
  (hperf : perf (s1.atTerminal k t { r with reached := m }) k l = (B, false)) (hteam : B.TeamIs k tB) (hrun : tB.run = some rB)
  (hquiet : rB.Quiet) (hpc : rB.nextPc = r.nextPc)
include h ho hp hchk hperf hteam hrun hquiet hpc

/-- A terminal that need not wait ends the run: its team goes on behind the trailer, and beyond it nothing changes any more. -/
theorem laneTerminal_plain (hpend : tB.pend.length ≤ 8) (h1 : bits rB.trailer 19 6 = 63) (h2 : bits rB.trailer 13 6 = 63) :
    ∃ s' t', laneTerminal s chk perf = .next s' ∧ TerminalFrame B s' k ∧ s'.TeamIs k t' ∧ t'.pc = r.nextPc ∧ t'.run = none ∧ t'.status = .ready ∧
      ∀ q < 56, ∀ j, t'.get q j = tB.get q j := by
  have hskip : (r.bodyDone || r.termLeft.isSome) = false := by
    obtain ⟨hbody, hterm, -⟩ := hp
    rw [hbody, hterm]
    rfl
  obtain ⟨C, tC, hend, hframe, hC, hv, hp', rC, hrC, hrpc, hrwords, hrtr⟩ :=
    bodyEnd_plain (s := s1) (t := t) (r := { r with reached := m }) (term := fun s l => perf s k l) ho hp hperf hteam hrun hquiet
  have heach := eachLane_done (f := fun s t r l => chk s k t r l) (onlyLane_filter ho) hchk rfl
  have hC' : C.teams.find? k = some tC := hC
  have hexec : laneTerminal s chk perf = .next (C.endRun k rC.nextPc) := by
    rw [laneTerminal, withRun_eq h]
    simp only [hskip, Bool.false_eq_true, if_false, heach, hend, State.afterBody, if_true, hC', hrC]
  have hnext : rC.nextPc = r.nextPc := by rw [← hpc, Run.nextPc, hrpc, hrwords, Run.nextPc]
  refine ⟨_, _, hexec, hframe.trans (endRun_frame C k _), endRun_team C k tC _ hC, hnext, rfl, rfl, fun q hq j => ?_⟩
  have hget := (ended_of_none_pending hrC (hrtr ▸ h1) (hrtr ▸ h2) (by rw [hp']; exact hpend) rC.nextPc (C.readySince k tC)).2 q j
  rw [hget, if_pos hq]
  unfold Team.get
  rw [hv]

end LaneTerminal

/-! ### The check of a terminal's access (R191, R203) -/

theorem checkTerm_reaches {s s1 : State} {k l n kind gpa : Nat} {t : Team} {r : Run} {a : BitVec 6} {need : Need} {ops : Team → Nat → List Word}
    {p : Place} (h : s.check k t r l (t.get64 a.toNat l).toNat n need = (s1, .at' p gpa)) :
    checkTerm a n need kind ops s k t r l = (s1, t, { r with reached := r.reached.insert l <|
      { va := (t.get64 a.toNat l).toNat, need := need, at' := p, gpa := gpa, ops := ops t l } }) := by
  unfold checkTerm
  dsimp only
  rw [h]

end Sys2Proof.Machine
end

section
/-! SUPPORT. Atomics on a place of this device (O22). -/

namespace Sys2Proof.Machine

theorem length_natLE (n v : Nat) : (natLE n v).length = n := by
  induction n generalizing v with
  | zero => rfl
  | succ n ih => rw [natLE, List.length_cons, ih]

/-! ### Performing an atomic (R191) -/

theorem drain_empty {s : State} {k : Nat} {t : Team} (ht : s.TeamIs k t) (hb : t.sbuf = []) (p : Store → Bool) : s.drain k p = s.setTeam k t := by
  have ht' : s.teams.find? k = some t := ht
  have hsame : { t with sbuf := [] } = t := by
    obtain ⟨⟩ := t
    cases hb
    rfl
  unfold State.drain
  rw [ht']
  dsimp only
  rw [hb]
  exact congrArg (s.setTeam k) hsame

/-- What an atomic of a team leaves at its place: the result of its operation on the bytes that stand there. -/
def State.atomPut (s : State) (k : Nat) (g : Wg) (p : Place) (gpa n x : Nat) (f : Nat → Nat → Nat) : State :=
  s.putPlace { path := 0, team := some k } g.ten gpa p (natLE n (f (leNat (s.placeBytes p n)) x)) g.ktag

theorem atomPut_team {s : State} {k : Nat} {t : Team} (h : s.TeamIs k t) (g : Wg) (p : Place) (gpa n x : Nat) (f : Nat → Nat → Nat) :
    (s.atomPut k g p gpa n x f).TeamIs k t := by
  unfold State.TeamIs State.atomPut
  rw [putPlace_teams]
  exact h

/-- A place of this device whose line no host holds. -/
def State.PlaceFree (s : State) (p : Place) : Prop := (∀ nd ld o, p ≠ .peer nd ld o) ∧ ∀ s' : State, s'.hostCached = s.hostCached →
  s'.placeHeld p = (s', false)

theorem atomLane_free {s : State} {k l : Nat} {t : Team} {r : Run} {acc : TermAcc} (ht : s.TeamIs k t) (hr : t.run = some r)
    (hacc : r.reached.find? l = some acc) (hb : t.sbuf = []) (hfree : s.PlaceFree acc.at') (d : BitVec 6) (n m code : Nat)
    (f : Nat → Nat → Nat) : atomLane d n m code f s k l =
      (((s.setTeam k t).atomPut k (s.wgOf t.w) acc.at' acc.gpa n (wordsNat acc.ops) f).modTeam k fun t =>
        t.putBytes d.toNat l false (s.placeBytes acc.at' n), false) := by
  obtain ⟨hpeer, hheld⟩ := hfree
  have ht' : s.teams.find? k = some t := ht
  unfold atomLane
  simp only [ht', hr, hacc, drain_empty ht hb, hheld (s.setTeam k t) rfl]
  generalize acc.at' = p at hpeer
  cases p with
  | peer nd ld o => exact absurd rfl (hpeer nd ld o)
  | sys a => rfl
  | scr w o => rfl
  | acc w o => rfl

section Atomic

variable {s s1 : State} {k l : Nat} {t : Team} {r : Run} (h : s.HasRun k t r) (ho : OnlyLane t r Guard.always l) (hp : r.Plain)
  (hb : t.sbuf = []) {i : Instr} {d a b : BitVec 6} {n m code : Nat} {f : Nat → Nat → Nat}
  (hi : exec i s = atom s d a b n m code f) {p : Place} {gpa : Nat}
  (hcheck : (s.laneIssue k t r Guard.always).check k t r l (t.get64 a.toNat l).toNat n .atomic = (s1, .at' p gpa)) (hfree : s1.PlaceFree p)
include h ho hp hb hi hcheck hfree

/-- The atomic writes its place in a state that differs from that of the check in its teams and in the count of free values; of its team it
changes the destination. -/
theorem atom_completes (h8 : t.pend.length ≤ 8) : ∃ (s' : State) (t' : Team) (ts : SMap Team) (fr : Nat), exec i s = .next s' ∧
    TerminalFrame (({ s1 with teams := ts, free := fr } : State).atomPut k (s1.wgOf t.w) p gpa n (t.operand b.toNat m l) f) s' k ∧
    s'.TeamIs k t' ∧ t'.pc = r.nextPc ∧ t'.run = none ∧ t'.status = .ready ∧
    ∀ q < 56, ∀ j < t.nlanes, t'.get q j = if j = l then (loadedReg d.toNat false (s1.placeBytes p n) q).getD (t.get q j) else t.get q j := by
  obtain ⟨-, -, habort, -, -, -, hdone, -, hflags, hlanes, h1, h2⟩ := id hp
  let acc : TermAcc := { va := (t.get64 a.toNat l).toNat, need := .atomic, at' := p, gpa := gpa, ops := t.regsAt b.toNat m l }
  let r1 : Run := { r with reached := r.reached.insert l acc }
  let A := s1.atTerminal k t r1
  have hA : A.TeamIs k (t.inRun r1.ending) := setTeam_team s1 k _
  have hbytes : A.placeBytes p n = s1.placeBytes p n := by
    cases p with
    | peer nd ld o => exact absurd rfl (hfree.1 nd ld o)
    | sys a => rfl
    | scr w o => rfl
    | acc w o => rfl
  have hacc : r1.ending.reached.find? l = some acc := SMap.find_insert_self r.reached l acc
  have hfreeA : A.PlaceFree acc.at' := hfree
  let U := (A.setTeam k (t.inRun r1.ending)).atomPut k (s1.wgOf t.w) p gpa n (t.operand b.toNat m l) f
  have hperf : atomLane d n m code f A k l = (U.modTeam k fun t => t.putBytes d.toNat l false (s1.placeBytes p n), false) := by
    rw [← hbytes]
    exact atomLane_free hA rfl hacc hb hfreeA d n m code f
  have hU : U.TeamIs k (t.inRun r1.ending) := atomPut_team (setTeam_team A k (t.inRun r1.ending)) _ _ _ _ _ _
  have hteam := modTeam_team U k _ (fun t => t.putBytes d.toNat l false (s1.placeBytes p n)) hU
  have hbytes' := putBytes_frame (t.inRun r1.ending) d.toNat l false (s1.placeBytes p n)
  have hrun : ((t.inRun r1.ending).putBytes d.toNat l false (s1.placeBytes p n)).run = some r1.ending := by rw [hbytes']; rfl
  have hpend : ((t.inRun r1.ending).putBytes d.toNat l false (s1.placeBytes p n)).pend.length ≤ 8 := by rw [hbytes']; exact h8
  have hnext : r1.ending.nextPc = r.nextPc := by unfold Run.nextPc; rfl
  have hquiet : r1.ending.Quiet := ⟨habort, hdone, hflags, hlanes⟩
  have hchk := checkTerm_reaches (kind := 2) (ops := fun t l => t.regsAt b.toNat m l) hcheck
  obtain ⟨s', t', hexec, hframe, hs', hpc, hnone, hready, hget⟩ := laneTerminal_plain (m := r.reached.insert l acc)
    (chk := checkTerm a n .atomic 2 fun t l => t.regsAt b.toNat m l) (perf := atomLane d n m code f) (rB := r1.ending) h ho hp hchk hperf hteam hrun
    hquiet hnext hpend h1 h2
  have hloaded (q j : Nat) (hj : j < t.nlanes) := get_putBytes (t.inRun r1.ending) d.toNat l false (s1.placeBytes p n) q j hj
  exact ⟨s', t', (A.setTeam k (t.inRun r1.ending)).teams, A.free, hi.trans hexec, (modTeam_frame U k _).trans hframe, hs', hpc, hnone, hready,
    fun q hq j hj => (hget q hq j).trans (hloaded q j hj)⟩

end Atomic

/-! ### What the place holds (R30, R191) -/

/-- A region takes the result in a block that is not poisoned. -/
theorem atomPut_scr {s : State} {w off n : Nat} (hw : (s.wgs.find? w).isSome) (h0 : 0 < n) (hblock : off / 64 = (off + n - 1) / 64)
    (hgood : (s.wgOf w).pscr.has (off / 64) = false) (k : Nat) (g : Wg) (gpa x : Nat) (f : Nat → Nat → Nat) :
    ((s.atomPut k g (.scr w off) gpa n x f).wgOf w).scr = (s.wgOf w).scr.writeN off (natLE n (f (leNat ((s.wgOf w).scr.readN off n)) x)) := by
  have hwg := SMap.getD_modify s.wgs w w (fun g => { g with
    scr := (putPool g.scr g.pscr off (natLE n (f (leNat ((s.wgOf w).scr.readN off n)) x))).1
    pscr := (putPool g.scr g.pscr off (natLE n (f (leNat ((s.wgOf w).scr.readN off n)) x))).2 }) Wg.empty hw
  rw [if_pos rfl] at hwg
  have hpool := putPool_one (s.wgOf w).scr (s.wgOf w).pscr off (natLE n (f (leNat ((s.wgOf w).scr.readN off n)) x))
    (by rw [length_natLE]; exact h0) (by rw [length_natLE]; exact hblock)
  refine (congrArg Wg.scr hwg).trans ((congrArg Prod.fst hpool).trans ?_)
  rw [hgood]
  split <;> rfl

/-- Main memory takes it in a block that is not poisoned and is held under the workgroup's key. -/
theorem atomPut_sys {s : State} {g : Wg} {off n : Nat} (h0 : 0 < n) (hfit : off % 64 + n ≤ 64) (hi : s.images = []) (hf : s.forwards = [])
    (hm : s.migs = []) (hc : s.hostCached = []) (hbad : s.sysBad off = false) (htag : s.tagBad off g.ktag = false) (k gpa x : Nat)
    (f : Nat → Nat → Nat) : ∃ p l notes, s.atomPut k g (.sys off) gpa n x f =
      { s with mem := s.mem.writeN off (natLE n (f (leNat (s.sysBytes off n)) x)), poison := p, lineKey := l, wrote := notes } := by
  have hpoison : s.poison.has (off / 64) = false := by
    unfold State.sysBad at hbad
    rw [imageAt_plain hi, realSpa_plain hf] at hbad
    exact hbad
  have hkey : s.lineKey.getD (off / 64) 0 = g.ktag := by
    unfold State.tagBad State.keyAt at htag
    rw [realSpa_plain hf] at htag
    exact bne_eq_false_iff_eq.mp htag
  exact writeSys_good s { path := 0, team := some k } (some g.ten) gpa off _ g.ktag (by rw [length_natLE]; exact h0) (by rw [length_natLE]; omega) hi hf hm hc
    hpoison hkey

theorem placeFree_scr (s : State) (w off : Nat) : s.PlaceFree (.scr w off) := ⟨nofun, fun _ _ => rfl⟩

theorem placeFree_sys {s : State} (hc : s.hostCached = []) (off : Nat) : s.PlaceFree (.sys off) := by
  refine ⟨nofun, fun s' hs' => ?_⟩
  unfold State.placeHeld State.lineHeld
  rw [hs', hc]
  rfl

/-- Of a wide load each register takes its word. -/
theorem loadedReg_word {d j : Nat} {bs : List Byte} (h4 : 4 ≤ bs.length) (hj : j < bs.length / 4) (sx : Bool) :
    loadedReg d sx bs (d + j) = some (wordOf (leNat ((bs.drop (4 * j)).take 4))) := by
  unfold loadedReg
  rw [if_neg (by omega), if_pos (by omega), Nat.add_sub_cancel_left]

theorem operand_eq (t : Team) (b m l : Nat) : t.operand b m l = leNat ((List.range m).flatMap fun j => natLE 4 (t.get (b + j) l).toNat) := by
  rw [Team.operand, wordsNat, Team.regsAt, List.flatMap_map]

/-- Settles O22: each atomic is performed as its run ends (`atom_completes`), in a region (`atomPut_scr`) or in main memory (`atomPut_sys`). -/
theorem atomicResults : Obligations.AtomicResults := by
  unfold Obligations.AtomicResults
  intro s k t r l h ho hp _ _ hb h8 d a b la w off gpa s0 ea A W
  have hatom (i : Instr) (n m code : Nat) (f : Nat → Nat → Nat) (h4 : 4 ≤ n) (hi : exec i s = atom s d a b n m code f) : A i n m f := by
    intro hd x D
    have hx : t.operand b.toNat m l = x := operand_eq t b.toNat m l
    have hdest (t' : Team) (old : List Byte) (hlen : old.length = n) (hget : ∀ q < 56, ∀ j < t.nlanes, t'.get q j =
        if j = l then (loadedReg d.toNat false old q).getD (t.get q j) else t.get q j) :
        ∀ j < n / 4, t'.get (d.toNat + j) l = wordOf (leNat ((old.drop (4 * j)).take 4)) := by
      intro j hj
      rw [hget _ (by omega) l ho.1, if_pos rfl, loadedReg_word (by omega) (by omega)]
      rfl
    refine ⟨?_, ?_⟩
    · intro s1 hcheck hw hblock hgood old
      obtain ⟨s', t', ts, fr, hexec, ⟨hs', -, -⟩, ht', hpc, hrun, hready, hget⟩ := atom_completes h ho hp hb hi hcheck (placeFree_scr s1 w off) h8
      refine ⟨s', hexec, ⟨t', ht', hpc, hrun, hready, hdest t' old (Memory.readN_length _ _ _) hget⟩, fun q => ?_⟩
      have hscr := atomPut_scr (s := { s1 with teams := ts, free := fr }) hw (by omega) hblock hgood k (s1.wgOf t.w) gpa x f
      have hwgs : s'.wgOf w = (State.atomPut { s1 with teams := ts, free := fr } k (s1.wgOf t.w) (.scr w off) gpa n x f).wgOf w := by
        rw [hs', hx]
        rfl
      rw [hwgs, hscr, Memory.read_writeN, length_natLE]
      rfl
    · intro s1 hcheck hc himg hfwd hmig hbad htag hfit old
      obtain ⟨s', t', ts, fr, hexec, ⟨hs', -, -⟩, ht', hpc, hrun, hready, hget⟩ := atom_completes h ho hp hb hi hcheck (placeFree_sys hc off) h8
      refine ⟨s', hexec, ⟨t', ht', hpc, hrun, hready, hdest t' old (by simp [old, State.sysBytes]) hget⟩, fun q => ?_⟩
      obtain ⟨p, lk, notes, hput⟩ := atomPut_sys (s := { s1 with teams := ts, free := fr }) (g := s1.wgOf t.w) (by omega) hfit himg hfwd hmig hc
        hbad htag k gpa x f
      have hmem : s'.images = [] ∧ s'.forwards = [] ∧ s'.mem = s1.mem.writeN off (natLE n (f (leNat old) x)) := by
        rw [hs', hx, hput]
        exact ⟨himg, hfwd, rfl⟩
      obtain ⟨himg', hfwd', hmem'⟩ := hmem
      rw [sysByte_plain himg' hfwd', hmem', Memory.read_writeN, length_natLE, sysByte_plain himg hfwd]
  have hword (i : Instr) (code : Nat) (f : Word → Word → Word) (hi : exec i s = atomW s d a b code f) : W i f :=
    hatom i 4 1 code (fun m x => (f (wordOf m) (wordOf x)).toNat) (by decide) hi
  have hminI : minI = fun m x => if m.toInt ≤ x.toInt then m else x := funext fun m => funext fun x => minI_eq m x
  have hmaxI : maxI = fun m x => if m.toInt ≤ x.toInt then x else m := funext fun m => funext fun x => maxI_eq m x
  have hminN : minN = fun m x => if m.toNat ≤ x.toNat then m else x := funext fun m => funext fun x => minN_eq m x
  have hmaxN : maxN = fun m x => if m.toNat ≤ x.toNat then x else m := funext fun m => funext fun x => maxN_eq m x
  clear_value A W
  exact ⟨hword _ 0 _ rfl, hword _ 0 _ rfl, hminI ▸ hword (.aminI32 d a b la) 1 minI rfl, hminI ▸ hword (.aminI32Sys d a b la) 1 minI rfl,
    hmaxI ▸ hword (.amaxI32 d a b la) 2 maxI rfl, hmaxI ▸ hword (.amaxI32Sys d a b la) 2 maxI rfl,
    hminN ▸ hword (.aminN32 d a b la) 3 minN rfl, hminN ▸ hword (.aminN32Sys d a b la) 3 minN rfl,
    hmaxN ▸ hword (.amaxN32 d a b la) 4 maxN rfl, hmaxN ▸ hword (.amaxN32Sys d a b la) 4 maxN rfl,
    hword _ 5 _ rfl, hword _ 5 _ rfl, hword _ 6 _ rfl, hword _ 6 _ rfl, hword _ 7 _ rfl, hword _ 7 _ rfl, hword _ 8 _ rfl, hword _ 15 _ rfl,
    hword _ 13 _ rfl, hword _ 14 _ rfl, hatom _ 4 2 9 _ (by decide) rfl, hatom _ 8 2 10 _ (by decide) rfl, hatom _ 8 2 11 _ (by decide) rfl,
    hatom _ 8 4 12 _ (by decide) rfl⟩

end Sys2Proof.Machine
end

section
/-! SUPPORT. Service calls (O23): what a write to memory does not make a host owe, and the post of an entry. -/

namespace Sys2Proof.Machine

/-! ### No host holds or owes a line (R60) -/

/-- No host holds a line cached, and no write waits for one. -/
def State.Unheld (s : State) : Prop := s.hostCached = [] ∧ s.biWait = []

theorem State.Unheld.of_eq {s s' : State} (hc : s'.hostCached = s.hostCached) (hw : s'.biWait = s.biWait) (h : s.Unheld) : s'.Unheld :=
  ⟨hc.trans h.1, hw.trans h.2⟩

theorem unheld_putBlock {s : State} (spa : Nat) (bytes : List Byte) (kt : Nat) (h : s.Unheld) : (s.putBlock spa bytes kt).Unheld := by
  unfold State.putBlock
  dsimp only
  split
  · exact .of_eq rfl rfl h
  · split
    · exact h
    · split <;> exact .of_eq rfl rfl h

theorem unheld_putMirrored {s : State} (spa : Nat) (bytes : List Byte) (kt : Nat) (h : s.Unheld) : (s.putMirrored spa bytes kt).Unheld :=
  foldl_keeps State.Unheld _ (fun _ _ => unheld_putBlock _ _ _) _ _ (unheld_putBlock _ _ _ h)

theorem unheld_putEntry {s : State} (a e : Nat) (h : s.Unheld) : (s.putEntry a e).Unheld := by
  unfold State.putEntry
  split
  · exact h
  · exact .of_eq rfl rfl h

theorem unheld_takeTable {s s' : State} {ten f : Nat} (he : s.takeTable ten = some (f, s')) (h : s.Unheld) : s'.Unheld := by
  unfold State.takeTable at he
  split at he
  · cases he
  · cases he
    exact .of_eq rfl rfl h

theorem unheld_s2Slot {ten gpa fuel tbl a : Nat} {s s' : State} (he : s.s2Slot ten gpa fuel tbl = some (a, s')) (h : s.Unheld) : s'.Unheld := by
  induction fuel generalizing s tbl with
  | zero => cases he
  | succ n ih =>
    unfold State.s2Slot at he
    dsimp only at he
    split at he
    · cases he
    split at he
    · cases he
      exact h
    split at he
    · split at he
      · cases he
      · exact ih he h
    · split at he
      · cases he
      · next f t ht => exact ih he (unheld_putEntry _ _ (unheld_takeTable ht h))

theorem unheld_s2Set {s : State} (ten gpa e : Nat) (h : s.Unheld) : ((s.s2Set ten gpa e).getD s).Unheld := by
  unfold State.s2Set
  split
  · next a t ht => exact unheld_putEntry _ _ (unheld_s2Slot ht h)
  · exact h

theorem unheld_takeReserve {s s' : State} {ten f : Nat} {lent : Bool} (he : s.takeReserve ten lent = some (f, s')) (h : s.Unheld) :
    s'.Unheld := by
  unfold State.takeReserve at he
  dsimp only at he
  split at he
  · split at he
    · cases he
      exact .of_eq rfl rfl h
    · cases he
  · cases he

theorem unheld_unpack {s : State} (img : Nat) (im : Image) (f : Nat) (h : s.Unheld) : (s.unpack img im f).Unheld := by
  have hlay : (s.layOut img im f).Unheld := .of_eq rfl rfl h
  unfold State.unpack
  exact unheld_s2Set _ _ _ hlay

theorem moveLines_nil {α : Type} (src dst : Nat) : moveLines ([] : SMap α) src dst = [] := by
  unfold moveLines
  refine foldl_keeps (fun m : SMap α => m = []) _ (fun m i hm => ?_) _ _ rfl
  rw [hm]
  rfl

theorem unheld_moveCached {s : State} (src dst : Nat) (h : s.Unheld) : (s.moveCached src dst).Unheld := by
  obtain ⟨hc, hw⟩ := h
  unfold State.moveCached
  rw [hc, hw, moveLines_nil]
  exact ⟨rfl, rfl⟩

theorem unheld_startShoot {s : State} (ini : Nat) (sc : ShootScope) (fin : ShootDone) (h : s.Unheld) : (s.startShoot ini sc fin).Unheld :=
  .of_eq rfl rfl h

theorem unheld_decompress {s : State} (img : Nat) (h : s.Unheld) : (s.decompress img).Unheld := by
  unfold State.decompress
  split
  · exact h
  · dsimp only
    split
    · exact unheld_startShoot _ _ _ (unheld_unpack _ _ _ h)
    · next f t ht =>
      have hres := unheld_takeReserve ht h
      have hf (m : SMap Nat) : ({ t with forwards := m } : State).Unheld := .of_eq rfl rfl hres
      exact unheld_startShoot _ _ _ (unheld_moveCached _ _ (unheld_unpack _ _ _ (hf _)))

theorem unheld_putSys {s : State} (spa : Nat) (bytes : List Byte) (kt : Nat) (h : s.Unheld) : (s.putSys spa bytes kt).Unheld := by
  refine foldl_keeps State.Unheld _ (fun t p ht => ?_) _ _ h
  refine State.Unheld.of_eq rfl rfl (unheld_putMirrored _ _ _ ?_)
  split
  · exact unheld_decompress _ ht
  · exact ht

/-- No write waits for a host. -/
theorem unheld_hostWait {s : State} (w : Writer) (ten : Option Nat) (spa : Nat) (bytes : List Byte) (kt : Nat) (h : s.Unheld) :
    (s.hostWait w ten spa bytes kt).Unheld := by
  have hnone : s.hostCached.has (s.lineOf spa) = false := by rw [h.1]; rfl
  unfold State.hostWait
  simp only [hnone, Bool.false_eq_true, if_false]
  exact h

theorem unheld_writeHost {s : State} (w : Writer) (ten : Option Nat) (spa : Nat) (bytes : List Byte) (kt : Nat) (h : s.Unheld) :
    (s.writeHost w ten spa bytes kt).Unheld :=
  unheld_putSys _ _ _ (foldl_keeps State.Unheld _ (fun _ _ => unheld_hostWait _ _ _ _ _) _ _ h)

/-! ### Error records -/

theorem unheld_collect {s : State} (src : Nat) (e : Err) (h : s.Unheld) : (s.collect src e).1.Unheld := by
  have hset (r : List (BitVec 512)) (q : SMap Nat) (v : Nat) : ({ s with seq := q, records := r }.setReg oElstat v).Unheld := .of_eq rfl rfl h
  unfold State.collect
  exact hset _ _ _

theorem unheld_raiseEvents {s : State} (ld next : Nat) (h : s.Unheld) : (s.raiseEvents ld next).Unheld := by
  have hset (n : SMap Nat) (c : Prop) [Decidable c] (v : Nat) :
      (if c then { s with ringNext := n } else ({ s with ringNext := n }.setReg (oEvtail ld) v).emit (.msix ld 0)).Unheld := by
    split <;> exact .of_eq rfl rfl h
  unfold State.raiseEvents State.raiseTail
  exact hset _ _ _

theorem unheld_evPut {s : State} (ld : Nat) (r : BitVec 512) (h : s.Unheld) : (s.evPut ld r).1.Unheld := by
  unfold State.evPut
  dsimp only
  split
  · exact h
  · split
    · exact unheld_raiseEvents _ _ (unheld_writeHost _ _ _ _ _ h)
    · exact unheld_raiseEvents _ _ h

theorem unheld_evPost {s : State} (ld : Nat) (r : BitVec 512) (typ : Nat) (h : s.Unheld) : (s.evPost ld r typ).Unheld := by
  have hput := unheld_evPut ld (eventOf r typ) h
  unfold State.evPost
  split
  · next t ht => rwa [ht] at hput
  · next t ht =>
    rw [ht] at hput
    exact unheld_collect _ _ hput

theorem unheld_report {s : State} (src : Nat) (e : Err) (h : s.Unheld) : (s.report src e).Unheld := by
  have hc := unheld_collect src e h
  unfold State.report
  exact foldl_keeps State.Unheld _ (fun _ _ => unheld_evPost _ _ _) _ _ hc

theorem unheld_markBad {s : State} (spa : Nat) (h : s.Unheld) : (s.markBad spa).Unheld := by
  unfold State.markBad
  split <;> exact .of_eq rfl rfl h

theorem unheld_writeSys {s : State} (w : Writer) (ten : Option Nat) (gpa spa : Nat) (bytes : List Byte) (kt : Nat) (h : s.Unheld) :
    (s.writeSys w ten gpa spa bytes kt).Unheld := by
  refine unheld_writeHost _ _ _ _ _ (foldl_keeps State.Unheld _ (fun t p ht => ?_) _ _ h)
  split
  · exact unheld_report _ _ (unheld_markBad _ ht)
  · exact ht

theorem unheld_writeGpa {s s' : State} {ten gpa : Nat} {bytes : List Byte} {kt : Nat} {w : Writer} (he : s.writeGpa ten gpa bytes kt w = some s')
    (h : s.Unheld) : s'.Unheld := by
  unfold State.writeGpa at he
  dsimp only at he
  split at he
  · cases he
    refine foldl_keeps State.Unheld _ (fun t p ht => ?_) _ _ h
    split
    · exact unheld_writeSys _ _ _ _ _ _ ht
    · exact ht
  · cases he

/-! ### The post of an entry (R203, R362) -/

/-- The service rings of logical devices stand the same: their registers, their entries, and what hosts hold and owe. -/
def State.SameRings (s s' : State) : Prop :=
  s'.wgs = s.wgs ∧ s'.ringNext = s.ringNext ∧ s'.hostCached = s.hostCached ∧ s'.biWait = s.biWait ∧ ∀ off < 0x1000000, s'.reg off = s.reg off

theorem State.SameRings.trans {a b c : State} (h : a.SameRings b) (h' : b.SameRings c) : a.SameRings c := by
  obtain ⟨hwgs, hnext, hcached, hwait, hreg⟩ := h
  obtain ⟨hwgs', hnext', hcached', hwait', hreg'⟩ := h'
  exact ⟨hwgs'.trans hwgs, hnext'.trans hnext, hcached'.trans hcached, hwait'.trans hwait, fun off ho => (hreg' off ho).trans (hreg off ho)⟩

theorem not_counterReg {off : Nat} (h : off < 0x1000000) (pt : Nat) : ¬ counterReg pt off := by
  unfold counterReg oSlotCnt oLcrcnt oLcroth oLcridle oDbg oObs
  omega

/-- The issue of a lane-set instruction leaves them alone. -/
theorem laneIssue_rings (s : State) (k : Nat) (t : Team) (r : Run) (g : Guard) (h : s.Unsampled (partOfTeam k)) :
    s.SameRings (s.laneIssue k t r g) := by
  obtain ⟨he, -, hreg⟩ := laneIssue_frame s k t t r r g h
  have hwgs := congrArg State.wgs he
  have hnext := congrArg State.ringNext he
  have hcached := congrArg State.hostCached he
  have hwait := congrArg State.biWait he
  exact ⟨hwgs, hnext, hcached, hwait, fun off ho => hreg off (not_counterReg ho _)⟩

theorem ringEnd_none {s : State} {ring : Nat} (h : s.ringNext.find? ring = none) (tail : Nat) : s.ringEnd ring tail = s.reg tail := by
  unfold State.ringEnd SMap.getD
  rw [h]
  rfl

theorem ringWaits_none {s : State} (h : s.Unheld) (ring : Nat) : s.ringWaits ring = [] := by
  unfold State.ringWaits
  rw [h.2]
  rfl

/-- A tail that no host holds back rises to the end of its ring. -/
theorem raiseTail_unheld {s : State} (h : s.Unheld) (ring tail : Nat) {next : Nat} (hn : next < 2 ^ 64) {f : State → State}
    (hf : ∀ u, (f u).reg tail = u.reg tail) : (s.raiseTail ring tail next f).reg tail = next := by
  have hraised (m : SMap Nat) :
      (if next = s.reg tail then { s with ringNext := m } else f (({ s with ringNext := m } : State).setReg tail next)).reg tail = next := by
    split
    · next hsame => exact hsame.symm
    · rw [hf]
      exact reg_setReg_self _ _ _ hn
  unfold State.raiseTail
  rw [ringWaits_none h]
  exact hraised _

theorem raiseTail_teams (s : State) (ring tail next : Nat) {f : State → State} (hf : ∀ u, (f u).teams = u.teams) :
    (s.raiseTail ring tail next f).teams = s.teams := by
  have hraised (m : SMap Nat) (c : Prop) [Decidable c] (v : Nat) :
      (if c then { s with ringNext := m } else f (({ s with ringNext := m } : State).setReg tail v)).teams = s.teams := by
    split
    · rfl
    · exact hf _
  unfold State.raiseTail
  exact hraised _ _ _

theorem emitIf_eq (u : State) (c : Bool) (o : Out) : (if c then u.emit o else u) = { u with outs := if c then u.outs ++ [o] else u.outs } := by
  split <;> rfl

/-- SQTAIL covers the entries up to the end of the queue. -/
theorem raiseCalls_tail {s : State} (h : s.Unheld) (ld : Nat) {next : Nat} (hn : next < 2 ^ 64) : (s.raiseCalls ld next).reg (oSqtail ld) = next := by
  unfold State.raiseCalls
  exact raiseTail_unheld h _ _ hn fun u => by rw [emitIf_eq]; rfl

theorem raiseCalls_teams (s : State) (ld next : Nat) : (s.raiseCalls ld next).teams = s.teams := by
  unfold State.raiseCalls
  exact raiseTail_teams _ _ _ _ fun u => by rw [emitIf_eq]

/-- What a post answers: without a base, where the ring is full, and where its entry is written or recorded as lost, in a state `u`. -/
def State.Posts (s u : State) (ld : Nat) (x : State × Word) : Prop :=
  x = if ringBase (s.reg (oSqbase ld)) = 0 then (s, 2)
    else if (s.ringEnd (16 + ld) (oSqtail ld) + 2 ^ 64 - s.reg (oSqhead ld)) % 2 ^ 64 = ringSize (s.reg (oSqbase ld)) then (s, 1)
    else (u.raiseCalls ld ((s.ringEnd (16 + ld) (oSqtail ld) + 1) % 2 ^ 64), 0)

theorem postCall_posts (s : State) (k : Nat) (t : Team) (l kind va gpa : Nat) (code : Word) :
    ∃ u, MemorySide s u ∧ (s.Unheld → u.Unheld) ∧ s.Posts u (s.wgOf t.w).ten (s.postCall k t l kind va gpa code) := by
  have hseq (q : SMap Nat) : MemorySide s { s with seq := q } := ⟨rfl, fun _ _ _ => rfl⟩
  have hseq' (q : SMap Nat) (hu : s.Unheld) : ({ s with seq := q } : State).Unheld := .of_eq rfl rfl hu
  unfold State.Posts State.postCall
  refine ⟨_, ?_, fun hu => ?_, rfl⟩
  · split
    · next u hw => exact (hseq _).trans (side_writeGpa _ _ _ _ _ _ _ hw)
    · exact (hseq _).trans (side_report _ _ _)
  · split
    · next u hw => exact unheld_writeGpa hw (hseq' _ hu)
    · exact unheld_report _ _ (hseq' _ hu)

/-- A post changes no team. -/
theorem postCall_teams (s : State) (k : Nat) (t : Team) (l kind va gpa : Nat) (code : Word) : (s.postCall k t l kind va gpa code).1.teams = s.teams := by
  obtain ⟨u, hu, -, hposts⟩ := postCall_posts s k t l kind va gpa code
  rw [hposts]
  split
  · rfl
  split
  · rfl
  · exact (raiseCalls_teams _ _ _).trans (by rw [hu.1])

/-- A post reads nothing of its team's run. -/
theorem postCall_inRun (s : State) (k : Nat) (t : Team) (r : Run) (l kind va gpa : Nat) (code : Word) :
    s.postCall k (t.inRun r) l kind va gpa code = s.postCall k t l kind va gpa code := by
  have hid : (t.inRun r).id = t.id := rfl
  have hw : (t.inRun r).w = t.w := rfl
  unfold State.postCall
  rw [hw, hid]

/-! ### Performing a call (R203) -/

theorem sysWaits_none {s : State} {t : Team} (hpeer : t.peerOut = []) (hu : s.Unheld) (k mark : Nat) : s.sysWaits k t 0xFF 0x21 mark = false := by
  unfold State.sysWaits
  rw [hpeer, hu.2]
  rfl

/-- The run with the writes noted that its release covers (R61). -/
def Run.marked (r : Run) (next : Nat) : Run := { r with mark := some (r.mark.getD next) }

/-- The state in which a team without stores posts. -/
def State.posting (s : State) (k : Nat) (t : Team) : State := (s.setTeam k t).markRun k

/-- The lane's call is posted; of its team the destination takes the status. -/
theorem callLane_posts {s : State} {k l : Nat} {t : Team} {r : Run} {acc : TermAcc} (ht : s.TeamIs k t) (hr : t.run = some r)
    (hacc : r.reached.find? l = some acc) (hb : t.sbuf = []) (hpeer : t.peerOut = []) (hu : s.Unheld) (d : BitVec 6) (kind : Nat)
    {x : State × Word} (hx : (s.posting k t).postCall k (t.inRun (r.marked s.biNext)) l kind acc.va acc.gpa (acc.ops.headD 0) = x) :
    callLane d kind s k l = (x.1.modTeam k fun t => t.put d.toNat (· == l) fun _ => x.2, false) := by
  have hdrain : (s.drainAll k).markRun k = s.posting k t := congrArg (State.markRun · k) (drain_empty ht hb _)
  have hteam : (s.posting k t).teams.find? k = some (t.inRun (r.marked s.biNext)) := modRun_team (setTeam_team s k t) hr _
  have hheld : (s.posting k t).Unheld := .of_eq rfl rfl hu
  have hwaits := sysWaits_none (t := t.inRun (r.marked s.biNext)) hpeer hheld k ((r.marked s.biNext).mark.getD 0)
  have hacc' : (r.marked s.biNext).reached.find? l = some acc := hacc
  unfold callLane
  simp only [hdrain, hteam, inRun_run, hwaits, hacc', hx, Bool.false_eq_true, if_false]

/-- The state in which a terminal's team posts differs from that of the check in its teams and in the count of free values. -/
theorem posting_atTerminal (s : State) (k : Nat) (t : Team) (r : Run) (u : Team) :
    ∃ fr ts, (s.atTerminal k t r).posting k u = { s with free := fr, teams := ts } := by
  have hend : s.atTerminal k t r = { s with free := s.free + 1024, teams := s.teams.insert k (t.inRun r.ending) } := rfl
  have hpost (v : State) : v.posting k u = { v with teams := (v.posting k u).teams } := rfl
  rw [hpost, hend]
  exact ⟨_, _, rfl⟩

section Call

variable {s s1 : State} {k l : Nat} {t : Team} {r : Run} (h : s.HasRun k t r) (ho : OnlyLane t r Guard.always l) (hp : r.Plain)
  (hb : t.sbuf = []) (hpeer : t.peerOut = []) {i : Instr} {d a b : BitVec 6} {kind : Nat}
  (hi : exec i s = laneTerminal s (checkTerm a 64 .load 5 fun t l => t.regsAt b.toNat 1 l) (callLane d kind)) {p : Place} {gpa : Nat}
  (hcheck : (s.laneIssue k t r Guard.always).check k t r l (t.get64 a.toNat l).toNat 64 .load = (s1, .at' p gpa)) (hu : s1.Unheld)
include h ho hp hb hpeer hi hcheck hu

/-- The call posts in a state that differs from that of the check in its teams and in the count of free values; of its team it changes the
destination, which takes the status. -/
theorem call_completes (h8 : t.pend.length ≤ 8) : ∃ (fr : Nat) (ts : SMap Team) (s' : State) (t' : Team), exec i s = .next s' ∧
    TerminalFrame (({ s1 with free := fr, teams := ts } : State).postCall k t l kind (t.get64 a.toNat l).toNat gpa (t.get b.toNat l)).1 s' k ∧
    s'.TeamIs k t' ∧ t'.pc = r.nextPc ∧ t'.run = none ∧ t'.status = .ready ∧ (d.toNat < 56 → t'.get d.toNat l =
      (({ s1 with free := fr, teams := ts } : State).postCall k t l kind (t.get64 a.toNat l).toNat gpa (t.get b.toNat l)).2) := by
  obtain ⟨-, -, habort, -, -, -, hdone, -, hflags, hlanes, h1, h2⟩ := id hp
  let acc : TermAcc := { va := (t.get64 a.toNat l).toNat, need := .load, at' := p, gpa := gpa, ops := t.regsAt b.toNat 1 l }
  let r1 : Run := { r with reached := r.reached.insert l acc }
  let A := s1.atTerminal k t r1
  let V := A.posting k (t.inRun r1.ending)
  obtain ⟨fr, ts, hbase : V = _⟩ := posting_atTerminal s1 k t r1 (t.inRun r1.ending)
  have hpost : V.postCall k (t.inRun (r1.ending.marked A.biNext)) l kind acc.va acc.gpa (acc.ops.headD 0) =
      ({ s1 with free := fr, teams := ts } : State).postCall k t l kind (t.get64 a.toNat l).toNat gpa (t.get b.toNat l) := by
    have hcode : acc.ops.headD 0 = t.get b.toNat l := rfl
    rw [hcode, postCall_inRun, hbase]
  generalize hx : ({ s1 with free := fr, teams := ts } : State).postCall k t l kind (t.get64 a.toNat l).toNat gpa (t.get b.toNat l) = x at hpost
  have hA : A.TeamIs k (t.inRun r1.ending) := setTeam_team s1 k _
  have hacc : r1.ending.reached.find? l = some acc := SMap.find_insert_self r.reached l acc
  have hheld : A.Unheld := .of_eq rfl rfl hu
  have hperf : callLane d kind A k l = (x.1.modTeam k fun t => t.put d.toNat (· == l) fun _ => x.2, false) :=
    callLane_posts hA rfl hacc hb hpeer hheld d kind hpost
  have hV : V.TeamIs k (t.inRun (r1.ending.marked A.biNext)) := modRun_team (setTeam_team A k (t.inRun r1.ending)) rfl _
  have hkept : x.1.TeamIs k (t.inRun (r1.ending.marked A.biNext)) := by
    unfold State.TeamIs
    rw [← hpost, postCall_teams]
    exact hV
  have hteam := modTeam_team x.1 k _ (fun t => t.put d.toNat (· == l) fun _ => x.2) hkept
  have hnext : (r1.ending.marked A.biNext).nextPc = r.nextPc := by unfold Run.nextPc; rfl
  have hquiet : (r1.ending.marked A.biNext).Quiet := ⟨habort, hdone, hflags, hlanes⟩
  have hchk := checkTerm_reaches (kind := 5) (ops := fun t l => t.regsAt b.toNat 1 l) hcheck
  obtain ⟨s', t', hexec, hframe, hs', hpc, hnone, hready, hget⟩ := laneTerminal_plain (m := r.reached.insert l acc)
    (chk := checkTerm a 64 .load 5 fun t l => t.regsAt b.toNat 1 l) (perf := callLane d kind) (rB := r1.ending.marked A.biNext) h ho hp hchk hperf
    hteam rfl hquiet hnext h8 h1 h2
  refine ⟨fr, ts, s', t', hi.trans hexec, hx.symm ▸ (modTeam_frame x.1 k _).trans hframe, hs', hpc, hnone, hready, fun hd => ?_⟩
  have hstatus := Team.get_put (t.inRun (r1.ending.marked A.biNext)) d.toNat d.toNat l (· == l) (fun _ => x.2) ho.1
  rw [if_pos rfl, if_pos (beq_self_eq_true l)] at hstatus
  rw [hx]
  exact (hget _ hd l).trans hstatus

end Call

/-- The status of a post, and where the tail then stands. -/
theorem posts_results {s u : State} {ld : Nat} {x : State × Word} (h : s.Posts u ld x) (hu : u.Unheld) (hnone : s.ringNext.find? (16 + ld) = none) :
    let base := s.reg (oSqbase ld)
    let tail := s.reg (oSqtail ld)
    let used := (tail + 2 ^ 64 - s.reg (oSqhead ld)) % 2 ^ 64
    x.2 = (if ringBase base = 0 then 2 else if used = ringSize base then 1 else 0) ∧
    (ringBase base = 0 ∨ used = ringSize base → x.1.reg (oSqtail ld) = tail) ∧
    (ringBase base ≠ 0 → used ≠ ringSize base → x.1.reg (oSqtail ld) = (tail + 1) % 2 ^ 64) := by
  intro base tail used
  unfold State.Posts at h
  rw [ringEnd_none hnone] at h
  by_cases h0 : ringBase base = 0
  · rw [if_pos h0] at h
    rw [h, if_pos h0]
    exact ⟨rfl, fun _ => rfl, fun hne => absurd h0 hne⟩
  by_cases h1 : used = ringSize base
  · rw [if_neg h0, if_pos h1] at h
    rw [h, if_neg h0, if_pos h1]
    exact ⟨rfl, fun _ => rfl, fun _ hne => absurd h1 hne⟩
  · rw [if_neg h0, if_neg h1] at h
    rw [h, if_neg h0, if_neg h1]
    exact ⟨rfl, fun hor => absurd hor (not_or.mpr ⟨h0, h1⟩), fun _ _ => raiseCalls_tail hu ld (Nat.mod_lt _ (by decide))⟩

/-- Settles O23: a call posts as its run ends (`call_completes`), and its status says how (`postCall_posts`). -/
theorem callResults : Obligations.CallResults := by
  unfold Obligations.CallResults
  intro s k t r l h ho hp _ _ hb hpeer hwait hcached h8 hsample d a b la hd s0 ld base tail used ea C
  have hcall (i : Instr) (kind : Nat) (hi : exec i s = laneTerminal s (checkTerm a 64 .load 5 fun t l => t.regsAt b.toNat 1 l) (callLane d kind)) :
      C i kind := by
    intro s1 p gpa hcheck hld hnone
    obtain ⟨n, c, hs1⟩ := check_reaches hcheck
    have hissue := laneIssue_rings s k t r Guard.always hsample
    have hrings (fr : Nat) (ts : SMap Team) : s.SameRings { s1 with free := fr, teams := ts } := by
      rw [hs1]
      exact State.SameRings.trans hissue ⟨rfl, rfl, rfl, rfl, fun _ _ => rfl⟩
    have hheld1 : s1.Unheld := by
      obtain ⟨-, -, hcached0, hwait0, -⟩ := hissue
      rw [hs1]
      exact ⟨hcached0.trans hcached, hwait0.trans hwait⟩
    obtain ⟨fr, ts, s', t', hexec, ⟨hs', -, -⟩, ht', hpc, hrun, hready, hstatus⟩ := call_completes h ho hp hb hpeer hi hcheck hheld1 h8
    obtain ⟨hwgs, hnext, hcached', hwait', hreg⟩ := hrings fr ts
    obtain ⟨u, -, hheld, hposts⟩ := postCall_posts { s1 with free := fr, teams := ts } k t l kind ea gpa (t.get b.toNat l)
    generalize hx : ({ s1 with free := fr, teams := ts } : State).postCall k t l kind ea gpa (t.get b.toNat l) = x at *
    have hmem : s'.mem = (({ s1 with free := fr, teams := ts } : State).postCall k t l kind ea gpa (t.get b.toNat l)).1.mem := by rw [hx, hs']
    generalize ({ s1 with free := fr, teams := ts } : State) = W at hwgs hnext hcached' hwait' hreg hposts hheld
    have hten : (W.wgOf t.w).ten = ld := by
      unfold State.wgOf
      rw [hwgs]
      rfl
    rw [hten] at hposts
    obtain ⟨hans, hstays, hrises⟩ := posts_results hposts (hheld ⟨hcached'.trans hcached, hwait'.trans hwait⟩) (hnext ▸ hnone)
    have hbase : W.reg (oSqbase ld) = base := hreg _ (by unfold oSqbase oLd; omega)
    have htail : W.reg (oSqtail ld) = tail := hreg _ (by unfold oSqtail oLd; omega)
    have hhead : W.reg (oSqhead ld) = s.reg (oSqhead ld) := hreg _ (by unfold oSqhead oLd; omega)
    rw [hbase, htail, hhead] at hans hstays hrises
    have hsame : s'.reg (oSqtail ld) = x.1.reg (oSqtail ld) := by
      rw [hs']
      rfl
    exact ⟨s', hexec, t', ht', hpc, hrun, hready, (hstatus hd).trans hans, fun hor => hsame.trans (hstays hor), fun h0 h1 =>
      ⟨hsame.trans (hrises h0 h1), fr, ts, hmem⟩⟩
  exact ⟨hcall _ 0 rfl, hcall _ 1 rfl⟩

end Sys2Proof.Machine
end
